-- ==== Sys2Proof/Word.lean ====
section
/-! DEFINITION. The word, byte and index types of the SV-4800 model, and the two sparse containers (a keyed map and a
byte memory) as bare list types. R6: registers are 32 bits. R10: bit 0 is the least significant bit. -/

namespace Sys2Proof

/-- One byte. -/
abbrev Byte := BitVec 8

/-- One 32-bit register value (R6). -/
abbrev Word := BitVec 32

/-- One 64-bit device address or count (R222). -/
abbrev DWord := BitVec 64

/-- One quad: 128 bits, the unit of integrity (Table 0-4). -/
abbrev Quad := BitVec 128

/-- A queue number, 0 to 16,383 (R220). -/
abbrev QIx := Fin 16384

/-- A hedge number, 0 to 15. -/
abbrev HIx := Fin 16

/-- A receiver unit number, 0 to 3; also a SLOT_IN line. -/
abbrev UIx := Fin 4

/-- A local stream (or context) index, 0 to 7. -/
abbrev LIx := Fin 8

/-- A Utrid port: 0 N, 1 E, 2 S, 3 W (R333). -/
abbrev PIx := Fin 4

/-- An Ethernet port, 0 to 3. -/
abbrev EIx := Fin 4

/-- A model-table entry, 0 to 63 (R333). -/
abbrev MIx := Fin 64

/-- A global array index 8h + a, 0 to 127. -/
abbrev AIx := Fin 128

/-- A sequencer register number. -/
abbrev RIx := Fin 32

/-- A mailbox endpoint ID (R294). -/
abbrev EndPt := BitVec 8

/-- A sparse map: keys rising, an unlisted key reads the map's default. -/
abbrev SMap (α : Type) := List (Nat × α)

end Sys2Proof
end

