-- ==== Sys2Proof/Syntax.lean ====
section
/-! DEFINITION. The commands and events of the SV-4800 block: one constructor of Instr per row of spec/opcode_table.json,
with the row's operands. Operand types are bounded, so that a hedge, unit, queue or port named by a command exists. -/

namespace Sys2Proof

/-- Where a dispatched command comes from: a queue's ring (R232) or a ticket that a receiver-unit context issued (R285). -/
inductive Src where
  | queue (q : QIx)
  | ticket (u : UIx) (c : LIx) (n : Word)
  deriving DecidableEq, Repr

/-- What the silicon's pattern test finds (R350): a failing cell, or a failing match line, encoder or tie-off. -/
structure TestOutcome where
  cellFail : Bool
  logicFail : Bool
  deriving DecidableEq, Repr

/-- A host access through BAR4 (R409): a read of `len` bytes, or a write of bytes with a byte enable each. -/
inductive Bar4Op where
  | read (off : Nat) (len : Nat)
  | write (off : Nat) (data : List (Byte × Bool)) (poisoned : Bool)
  deriving DecidableEq, Repr

/-- The engines of a receiver unit whose operations finish with ENGINE_OP_DONE (R200). -/
inductive Engine where
  | matrix | vector | fft | trellis
  deriving DecidableEq, Repr

/-- What Sage measures at the end of a governor pass (R383, R385, R395, R398). Temperatures are S8 degrees, sensor 0 first;
pace in ps; voltages in mV; power in tokens; `overRail` is a rail more than 50 mV above its value; `regFault` a regulator fault. -/
structure Governor where
  paceCore : BitVec 16
  paceMatch : BitVec 16
  sensors : List (BitVec 8)
  vcore : BitVec 10
  vmatch : BitVec 10
  power : Nat
  overRail : Option (BitVec 8 × BitVec 16)
  regFault : Option (BitVec 8 × BitVec 16)
  deriving DecidableEq, Repr

/-- A regulator's answer after a voltage step (R384): which rail, no fault shown, and the read-back. -/
structure Settle where
  isMatch : Bool
  ok : Bool
  mv : BitVec 10
  deriving DecidableEq, Repr

/-- One JESD204C multiblock of a link (R174, R175): the samples of each local stream (CI16 words, oldest first), and
whether its CRC-12 matched. -/
structure Multiblock where
  crcOk : Bool
  samples : List (List Word)
  deriving DecidableEq, Repr

/-- A stored quad: store code and folded address of Table 14-3. -/
structure QuadRef where
  store : Fin 14
  f : BitVec 59
  deriving DecidableEq, Repr

/-- What an array scrub reads (R347): a match row, a leaf slot or a quad of the binning table. -/
inductive ArrItem where
  | row (r : Fin 4096)
  | leaf (r : Fin 4096)
  | bin (q : Fin 3072)
  deriving DecidableEq, Repr

/-- What takes a JESD204C link down (R174, R198): the unit, and the lanes that have lost lock; with none of them, alignment is lost. -/
structure LinkLoss where
  unit : UIx
  lanes : BitVec 8
  deriving DecidableEq, Repr

/-- The greeting a trained port receives (R309), and whether a bypass lies between the partners (R303). -/
structure Greeting where
  rank : Fin 16
  topo : BitVec 2
  ringId : Word
  port : PIx
  viaBypass : Bool
  deriving DecidableEq, Repr

/-- What is wrong with quad `quad` of a flit where it arrives (R306, R336): the received bits that differ from the code word (positions 0 to
145), and how the folded address it was encoded for differs from the one expected. -/
structure FlitErr where
  quad : Fin 9
  err : BitVec 146 := 0
  adx : BitVec 59 := 0
  deriving DecidableEq, Repr

/-- A flit (R306): the header quad, eight payload quads, which of the nine are poisoned, and what is wrong with its quads where it
arrives. -/
structure Flit where
  hdr : Quad
  pay : List Quad
  poison : List Bool
  errs : List FlitErr := []
  deriving DecidableEq, Repr

/-- Pages named by an ATS invalidation (R412). -/
structure AtsRange where
  pasid : Option (BitVec 20)
  page : BitVec 51
  count : Nat
  deriving DecidableEq, Repr

/-- A host read completion (R413): host address, quads, and the EP indication. -/
structure HostRead where
  addr : BitVec 63
  quads : Nat
  ep : Bool
  deriving DecidableEq, Repr

/-- The host's answer to a translation request (R412): the translated page with its read and write permissions, or a refusal. -/
structure AtsReply where
  pasid : Option (BitVec 20)
  page : BitVec 51
  grant : Option (BitVec 51 × Bool × Bool)
  deriving DecidableEq, Repr

/-- The commands and events of the block: spec/opcode_table.json, row by row. -/
inductive Instr where
  /-- NOP (R233): Command that completes OK when dispatched. -/
  | nop (src : Src)
  /-- LOAD (R53): Command that loads an array image into one array position of the named hedges, with the load checks. -/
  | load (q : QIx)
  /-- STEP (R85): Command that scores a batch of records against a hedge's images into an accumulation group, opening or closing it as flagged. -/
  | step (q : QIx)
  /-- ROTATE (R154): Command that checks a rotation descriptor and starts a rotation of array images over the claimed arrays. -/
  | rotate (q : QIx)
  /-- COPY (R165): Command that runs a list of stream descriptors on the data mover. -/
  | copy (src : Src)
  /-- SLOT_RUN (R183): Command that starts a run of slot tasks on a receiver-unit stream. -/
  | slotRun (q : QIx)
  /-- MATRIX (R204): Command that runs a matrix operation on a receiver unit's matrix array. -/
  | matrix (src : Src)
  /-- VECTOR (R210): Command that runs a vector operation on a receiver unit's vector engine. -/
  | vector (src : Src)
  /-- FENCE_SIGNAL (R253): Command that raises a fence value and optionally sets its error flag. -/
  | fenceSignal (src : Src)
  /-- FENCE_WAIT (R254): Command that holds its queue until a fence reaches a value. -/
  | fenceWait (src : Src)
  /-- PATCH (R237): Command that copies 4, 8 or 16 bytes after all earlier commands of the queue complete. -/
  | patch (src : Src)
  /-- INDIRECT (R236): Command that runs a buffer of command slots in place of its own slot. -/
  | indirect (q : QIx)
  /-- ENQUEUE (R258): Command that copies command slots into another queue's ring and advances its producer index. -/
  | enqueue (q : QIx)
  /-- QUEUE_BIND (R224): Kernel command that binds a user queue from a bind descriptor. -/
  | queueBind (q : QIx)
  /-- QUEUE_DESTROY (R269): Kernel command that starts the destroy sequence of a user queue. -/
  | queueDestroy (q : QIx)
  /-- QUEUE_CTL (R238): Kernel command that disables or enables another queue. -/
  | queueCtl (q : QIx)
  /-- RESTRUCTURE (R375): Kernel command that checks a new Pleach body changing one hedge and its binding groups. -/
  | restructure (q : QIx)
  /-- RESTRUCTURE_RUN (R376): An accepted restructure runs once any earlier restructure has completed. -/
  | restructureRun
  /-- DB_PI_WRITE (R229): Doorbell write that sets a queue's producer index and pending bit if accepted. -/
  | dbPiWrite (q : QIx) (v : Word)
  /-- BIND (R224): Write of 1 to QFE_CTL.BIND that binds a kernel queue by register path. -/
  | bind (q : QIx)
  /-- DESTROY (R269): Write of 1 to QFE_CTL.DESTROY that starts the destroy sequence of a kernel queue. -/
  | destroy (q : QIx)
  /-- QUEUE_EN_WRITE (R241): Write to QFE_CTL.EN that disables or enables a queue. -/
  | queueEnWrite (q : QIx) (en : Bool)
  /-- HEDGE_EN_WRITE (R268): Write to HDG_CTL.EN that disables a hedge after its step or enables it. -/
  | hedgeEnWrite (h : HIx) (en : Bool)
  /-- REJOIN (R107): Write of 1 to HDG_CTL.REJOIN asking a detached hedge to rejoin at the next batch boundary. -/
  | rejoin (h : HIx)
  /-- HEDGE_REJOINED (R107): A detached hedge rejoins its span at the first batch boundary after REJOIN. -/
  | hedgeRejoined (h : HIx)
  /-- HDG_SNAPSHOT_REQUEST (R109): Write of 1 to HDG_SNAP_CTL.TAKE requesting a partition and row snapshot. -/
  | hdgSnapshotRequest (h : HIx)
  /-- HDG_SNAPSHOT_LATCH (R109): The hedge latches slot and row counts at the first point with no step starting or ending and no handoff. -/
  | hdgSnapshotLatch (h : HIx)
  /-- RXU_EN_WRITE (R188): Write to RXU_CTL.EN that disables a receiver unit after its open tasks or enables it. -/
  | rxuEnWrite (u : UIx) (en : Bool)
  /-- REX_EN_WRITE (R268): Write to RXU_REX_CTL.EN that disables or enables a record extractor. -/
  | rexEnWrite (u : UIx) (en : Bool)
  /-- MANUAL_GAIN_WRITE (R176): Write changing MANUAL_GAIN or entering MANUAL class that queues a gain word. -/
  | manualGainWrite (u : UIx) (l : LIx) (toRange : Bool) (v : Word)
  /-- PORT_EN_WRITE (R268): Write to UTR_PORT_CTL.EN that takes a Utrid link down or enables it. -/
  | portEnWrite (p : PIx) (en : Bool)
  /-- RETRAIN (R332): Write of 1 to UTR_PORT_CTL.RETRAIN that retrains a Utrid port as a shutdown. -/
  | retrain (p : PIx)
  /-- CREDIT_SNAP_REQUEST (R312): Write of 1 to UTR_CRED_SNAP.TAKE asking the partner for SNAP words. -/
  | creditSnapRequest (p : PIx)
  /-- MODEL_READY_WRITE (R316): Write to a model-table entry whose READY change starts a new epoch. -/
  | modelReadyWrite (n : MIx) (v : Word)
  /-- TARGET_WRITE (R390): Write of PWR_BUDGET.TARGET that raises or cuts the power budget. -/
  | targetWrite (v : Word)
  /-- PWR_SNAPSHOT_REQUEST (R392): Write of 1 to PWR_SNAP_CTL.TAKE requesting a token book snapshot. -/
  | pwrSnapshotRequest
  /-- PWR_SNAPSHOT_LATCH (R392): Sage latches pool, held and effective at a moment with no grant, return or retirement in progress. -/
  | pwrSnapshotLatch
  /-- MAC_EN_WRITE (R422): Write to HIF_MAC_CTL.EN that shuts down or enables an Ethernet port. -/
  | macEnWrite (m : EIx) (en : Bool)
  /-- START (R432): GLB_CMD START command acted on according to the device state. -/
  | start (key : BitVec 16)
  /-- HOLD (R432): GLB_CMD HOLD command acted on according to the device state. -/
  | hold (key : BitVec 16)
  /-- RESET (R433): GLB_CMD RESET command that takes the device through RESET into BOOT, possibly via DRAINING. -/
  | reset (key : BitVec 16)
  /-- WATCH_POKE (R259): Write to GLB_WATCH_POKE that is one watch event when POKE_EN is set. -/
  | watchPoke (v : Word)
  /-- FORCE_CLOSE (R434): Write to GLB_BYPASS.FORCE_CLOSE that closes the bypass or asks for it to reopen. -/
  | forceClose (on : Bool)
  /-- BYPASS_REOPEN (R434): Switches open once every port has reached OFF after a pending reopen, and the device joins the ring. -/
  | bypassReopen
  /-- REARM (R436): Write of 1 to GLB_IRQ_STAT.REARM that raises the device vector if an unmasked source reads 1. -/
  | rearm
  /-- IRQ_MASK_WRITE (R436): Write to GLB_IRQ_MASK that raises the vector when a mask bit clears over an active source. -/
  | irqMaskWrite (v : Word)
  /-- GO (R295): Write of 1 to MGT_MBX_TX_GO requesting a mailbox block commit. -/
  | go (snd : EndPt) (rcv : EndPt)
  /-- MBX_BLOCK_COMMIT (R295): A pending mailbox block is copied into the channel queue when a slot frees, clearing GO. -/
  | mbxBlockCommit (snd : EndPt) (rcv : EndPt)
  /-- WITHDRAW (R296): Write of 1 to WITHDRAW that abandons a pending send. -/
  | withdraw (snd : EndPt) (rcv : EndPt)
  /-- MBX_WORD_SEND (R298): Write to MGT_MBX_TX_WORD that stores a word or sets OVERRUN. -/
  | mbxWordSend (snd : EndPt) (rcv : EndPt) (w : Word)
  /-- TAKE (R297): Write of 1 to MGT_MBX_RX_TAKE that removes the oldest received block. -/
  | take (snd : EndPt) (rcv : EndPt)
  /-- MBX_WORD_READ (R298): Read of MGT_MBX_RX_WORD that returns the word and clears it and FULL. -/
  | mbxWordRead (snd : EndPt) (rcv : EndPt)
  /-- PROGRAM (R373): Update command that checks the staged slot image and writes it into the slot not in use. -/
  | program
  /-- BOOT_STAGED (R372): Update command that boots from the staged slot image without writing flash. -/
  | bootStaged
  /-- REBOOT (R371): Update command that re-enters BOOT from flash. -/
  | reboot
  /-- RAISE_FLOOR (R371): Update command that raises the fused rollback floor. -/
  | raiseFloor
  /-- FUSE_KEY (R371): Update command that fuses a key digest into the lowest unused key slot. -/
  | fuseKey
  /-- REVOKE_KEY (R371): Update command that revokes a key slot. -/
  | revokeKey
  /-- SIGNED_ONLY (R371): Update command that blows the SIGNED_ONLY fuse. -/
  | signedOnly
  /-- DECLARE (R370): Write of 1 to MGT_DRV_CTL.DECLARE that checks the driver declaration against the components. -/
  | declare
  /-- RETEST (R352): Write to MEM_ARR_RETEST that starts the pattern test of a withdrawn array. -/
  | retest (v : Word)
  /-- RETEST_DONE (R352): The retest of a withdrawn array ends, making it EMPTY or WITHDRAWN again. -/
  | retestDone (n : AIx) (o : TestOutcome)
  /-- RC_COUNTER_READ (R8): Read of an RC register that returns and clears it. -/
  | rcCounterRead (off : Nat)
  /-- LATCHING_READ (R277): Read of a low word register that latches the high word. -/
  | latchingRead (off : Nat)
  /-- REGISTER_WRITE (R8): Write to a register field that has no row of its own, under the access code rules. -/
  | registerWrite (off : Nat) (v : Word)
  /-- BAR4_ACCESS (R409): Host access through BAR4 to device memory. -/
  | bar4Access (a : Bar4Op)
  /-- BAR_REQUEST_REFUSED (R409): A BAR0 or BAR2 request that is not one aligned 32-bit access is refused or discarded. -/
  | barRequestRefused (isRead : Bool)
  /-- MSIX_UNMASK (R415): Unmasking of an MSI-X vector or function sends one held message. -/
  | msixUnmask (v : Option (Fin 2048))
  /-- SENSORS (R401): Sage request that answers with sensor readings, voltages and power. -/
  | sensors
  /-- LOG_READ (R401): Sage request that answers with an event log entry. -/
  | logRead
  /-- STATE_READ (R401): Sage request that answers with 32 bytes of the state record. -/
  | stateRead
  /-- LOG_MARK (R401): Sage request that appends a HOST_MARK log entry. -/
  | logMark
  /-- EOP_ISSUE (R283): Sequencer instruction that issues an op block to a target and returns a ticket. -/
  | eopIssue (u : UIx) (rd : RIx) (rs1 : RIx) (rs2 : RIx)
  /-- EOP_WAIT (R284): Sequencer instruction that blocks until a ticket completes and returns its outcome. -/
  | eopWait (u : UIx) (rd : RIx) (rs1 : RIx)
  /-- EOP_POLL (R284): Sequencer instruction that returns a ticket's outcome or pending. -/
  | eopPoll (u : UIx) (rd : RIx) (rs1 : RIx)
  /-- EOP_MOVE (R287): Sequencer instruction that moves bytes between local and device memory. -/
  | eopMove (u : UIx) (rd : RIx) (rs1 : RIx) (rs2 : RIx)
  /-- EOP_MWAIT (R283): Sequencer instruction that waits on a mailbox channel. -/
  | eopMwait (u : UIx) (rd : RIx) (rs1 : RIx)
  /-- EOP_ENQ (R288): Sequencer instruction that enqueues command slots into a queue. -/
  | eopEnq (u : UIx) (rd : RIx) (rs1 : RIx) (rs2 : RIx)
  /-- WFI (R279): Sequencer instruction that waits for an event ending a blocking instruction. -/
  | wfi (u : UIx)
  /-- END (R291): ECALL service 0 that ends the slot task and writes its status. -/
  | end_ (u : UIx)
  /-- YIELD (R291): ECALL service 1 that gives up the core to the next ready context. -/
  | yield (u : UIx)
  /-- NOTE (R291): ECALL service 2 that adds HDR_FAIL, TB_MISMATCH or a drop to the status entry. -/
  | note (u : UIx)
  /-- U_MODE_EXCEPTION (R292): An exception in U-mode ends the context and the run with FORMAT. -/
  | uModeException (u : UIx) (cause : BitVec 8)
  /-- TICKET_COMPLETE (R284): An issued ticket's work completes and its outcome is recorded. -/
  | ticketComplete (u : UIx) (c : LIx) (tk : Word)
  /-- DETECT (R286): Unit-local job that completes at the next detection or when the window closes. -/
  | detect (u : UIx) (c : LIx) (tk : Word)
  /-- FFT (R189): Unit-local job that transforms symbols on the FFT unit. -/
  | fft (u : UIx) (c : LIx) (tk : Word)
  /-- TRELLIS (R194): Unit-local job that Viterbi-decodes a block. -/
  | trellis (u : UIx) (c : LIx) (tk : Word)
  /-- EXTRACT (R75): Unit-local job that builds and writes one record from a decoded message. -/
  | extract (u : UIx) (c : LIx) (tk : Word)
  /-- CALIBRATE (R190): Unit-local job that submits LC-128 calibration steps to the reserved hedge. -/
  | calibrate (u : UIx) (c : LIx) (tk : Word)
  /-- RELEASE (R286): Unit-local job that sets the AGC release sample. -/
  | release (u : UIx) (c : LIx) (tk : Word)
  /-- ENGINE_OP_DONE (R202): A matrix, vector, FFT or trellis operation finishes and writes its results. -/
  | engineOpDone (u : UIx) (e : Engine)
  /-- QUEUE_VISIT (R250): The front end visits a pending queue and fetches and checks up to 16 slots or forms one step. -/
  | queueVisit
  /-- HEDGE_STEP_START (R89): A hedge starts a step once it holds tokens, its loads are done and start checks pass on every hedge. -/
  | hedgeStepStart (h : HIx)
  /-- HEDGE_STEP_END (R88): A step ends when all its array sums have landed, freeing its record slots. -/
  | hedgeStepEnd (h : HIx)
  /-- TILE_REPLAY (R120): A FIXED tile that overflowed is cleared and searched again at a coarser scale. -/
  | tileReplay (h : HIx) (tile : Nat)
  /-- ARRAY_LOAD_START (R89): A waiting load begins once the step searching the array ends or its claim is released. -/
  | arrayLoadStart (n : AIx)
  /-- ARRAY_LOAD_DONE (R54): An array load completes, accepting the image or refusing it and leaving the array empty. -/
  | arrayLoadDone (n : AIx)
  /-- GROUP_OPEN_GRANTED (R127): A waiting group open is granted its rows all or nothing in arrival order. -/
  | groupOpenGranted (h : HIx)
  /-- POOL_BORROW_GRANTED (R104): A waiting borrow from a partition's shared pool is granted. -/
  | poolBorrowGranted (h : HIx) (part : Fin 4)
  /-- MULTICAST_RECORD_SEND (R105): A multicast sender sends the next record once every receiving hedge has a free skid entry. -/
  | multicastRecordSend (q : QIx)
  /-- SKID_TO_SLOT (R105): A record moves from skid to a reserved slot of its group. -/
  | skidToSlot (h : HIx) (bg : Fin 64)
  /-- OUTPUT_CLOSE (R136): The output unit combines, converts, transforms and writes the results of a closing group. -/
  | outputClose (h : HIx)
  /-- TOPK_MERGE (R148): The span holding position 0 merges ranked lists after every span's close has written results. -/
  | topkMerge (h : HIx)
  /-- ROTATION_CLAIM_GRANTED (R155): A waiting rotation claim is granted all or nothing in arrival order. -/
  | rotationClaimGranted
  /-- STAGING_FETCH_DONE (R162): The data mover finishes fetching a round's images into a staging slot. -/
  | stagingFetchDone (q : QIx)
  /-- ROUND_MULTICAST_START (R158): A round's image multicast starts once every hedge is ready and the round is staged. -/
  | roundMulticastStart (q : QIx)
  /-- WAIT_MARK_RELEASED (R162): A WAIT image-table entry is released when its fence reaches the value. -/
  | waitMarkReleased (q : QIx)
  /-- DMV_BURST_DONE (R168): The data mover completes a burst of up to 4 KiB. -/
  | dmvBurstDone
  /-- DEP_FENCE_RELEASED (R166): A DEP_FENCE mark is released when its fence reaches the value or signals error. -/
  | depFenceReleased (src : Src)
  /-- FENCE_WAIT_SATISFIED (R254): An outstanding fence wait completes when the fence reaches its value. -/
  | fenceWaitSatisfied (src : Src)
  /-- ENQUEUE_COPY (R258): A waiting ENQUEUE copies its slots once the target ring has room. -/
  | enqueueCopy (src : Src)
  /-- TOKEN_CLAIM_GRANTED (R389): Sage grants a waiting power-token claim by class and arrival order. -/
  | tokenClaimGranted
  /-- GOVERNOR_PASS (R385): At each 16,384 SER_REFCLK periods Sage measures pace and temperature and steps or holds the rails. -/
  | governorPass (g : Governor)
  /-- AVS_SETTLE (R384): A regulator confirms settle after a voltage step, allowing the next change. -/
  | avsSettle (r : Settle)
  /-- WATCH_PIN_EDGE (R259): A rising edge on WATCH is a watch event that updates every queue's QUIET count. -/
  | watchPinEdge
  /-- SLOT_WATCH_EVENT (R259): Every SLOT_DIV-th counted strobe on a line makes a watch event. -/
  | slotWatchEvent (i : UIx)
  /-- STALL_DECLARED (R262): A queue's QUIET reaches STALL_THR; it enters STALLED or a hedge is detached. -/
  | stallDeclared (q : QIx)
  /-- DRAIN_QUEUE_COMPLETE (R263): Every engine has finished its unit under DRAIN and the queue's commands complete DRAINED. -/
  | drainQueueComplete (q : QIx)
  /-- DRAIN_ESCALATION (R266): A DRAIN unfinished after a further STALL_THR watch events becomes a KILL. -/
  | drainEscalation (q : QIx)
  /-- DESTROY_ACKS_DONE (R270): After the last engine acknowledges, groups are released, CANCELLED completions written, fences errored and the queue freed. -/
  | destroyAcksDone (q : QIx)
  /-- DESTROY_ACK_TIMEOUT (R273): An engine that has not acknowledged within STALL_THR watch events is reset. -/
  | destroyAckTimeout (q : QIx)
  /-- SLOT_STROBE (R182): A rising edge on SLOT_IN counts a strobe and opens the next slot tasks. -/
  | slotStrobe (i : UIx)
  /-- CAPTURE_WINDOW_CLOSE (R183): A slot task's capture window closes at the next strobe or after its tail. -/
  | captureWindowClose (u : UIx) (l : LIx)
  /-- DEADLINE_EXPIRY (R186): The deadline strobe of a DROP_LATE task stops it and writes its status. -/
  | deadlineExpiry (u : UIx) (l : LIx)
  /-- SLOT_STATUS_WRITE (R185): A slot task completes by writing its status entry, judged LATE against the strobe count. -/
  | slotStatusWrite (u : UIx) (l : LIx)
  /-- SAMPLE_CAPTURE (R175): A JESD204C multiblock arrives and its samples are written into capture rings. -/
  | sampleCapture (u : UIx) (mb : Multiblock)
  /-- LINK_DOWN (R174): Loss of lock or alignment on any lane takes the JESD204C link down; `lanes` are those that lost lock, none of them
  where alignment was lost. -/
  | linkDown (u : LinkLoss)
  /-- LINK_RETURN (R174): The JESD204C link returns at an LEMC boundary after every lane has relocked. -/
  | linkReturn (u : UIx)
  /-- SYSREF_EDGE (R174): A SYSREF edge aligns the local extended multiblock clock. -/
  | sysrefEdge (u : UIx)
  /-- AGC_WINDOW_END (R177): At the end of each gain window the loop updates the gain index. -/
  | agcWindowEnd (u : UIx) (l : LIx)
  /-- PREAMBLE_DETECTION (R178): The preamble detector fires and, in AUTO_FREEZE, freezes the gain. -/
  | preambleDetection (u : UIx) (l : LIx)
  /-- FREEZE_RELEASE (R178): A frozen stream is released at its release sample or on header failure and resumes SEARCH. -/
  | freezeRelease (u : UIx) (l : LIx)
  /-- MAX_HOLD_EXPIRY (R178): MAX_HOLD samples after detection force the freeze release. -/
  | maxHoldExpiry (u : UIx) (l : LIx)
  /-- SETTLE_EXPIRY (R178): SETTLE samples after a gain frame end the detector blanking. -/
  | settleExpiry (u : UIx) (l : LIx)
  /-- GAIN_FRAME_START (R181): The gain control port begins sending the next pending word in round robin. -/
  | gainFrameStart (u : UIx)
  /-- GAIN_FRAME_DONE (R181): A gain frame completes on the port, fixing the transceiver's gain for that stream. -/
  | gainFrameDone (u : UIx)
  /-- LPDDR_SCRUB_STRIPE (R345): The LPDDR5X scrubber reads a stripe and corrects CEs in place. -/
  | lpddrScrubStripe
  /-- SRAM_SCRUB_QUAD (R346): An on-chip store scrubber reads one quad and corrects or poisons it. -/
  | sramScrubQuad (f : QuadRef)
  /-- ARRAY_SCRUB_READ (R347): The array scrubber reads a match row, leaf slot or binning entry. -/
  | arrayScrubRead (n : AIx) (w : ArrItem)
  /-- ARRAY_ROW_REWRITE (R347): The hedge rewrites a faulty row, slot or entry from its image once no step searches the array. -/
  | arrayRowRewrite (n : AIx)
  /-- ARRAY_CHECK (R349): At the end of the current step after an array's first INTEG, the hedge checks and rewrites the array. -/
  | arrayCheck (n : AIx)
  /-- ARRAY_TEST_DONE (R350): The array pattern test and recheck end, returning the array to READY or withdrawing it. -/
  | arrayTestDone (n : AIx) (o : TestOutcome)
  /-- PORT_TRAINED (R309): A Utrid port finishes training, exchanges greetings and comes UP or sets MISMATCH. -/
  | portTrained (p : PIx) (g : Greeting)
  /-- PORT_LINK_LOST (R330): A Utrid port loses lane lock, sets DOWN and retrains. -/
  | portLinkLost (p : PIx)
  /-- RECORD_FLIT (R321): A RECORD flit arrives, is copied into the local queue ring and forwarded. -/
  | recordFlit (p : PIx) (f : Flit)
  /-- MARK_FLIT (R320): A MARK flit arrives and makes the rank form the marked step. -/
  | markFlit (p : PIx) (f : Flit)
  /-- CHAIN_HEAD_FLIT (R326): A CHAIN_HEAD flit arrives and is compared with the rank's own group. -/
  | chainHeadFlit (p : PIx) (f : Flit)
  /-- CHAIN_DATA_FLIT (R325): A CHAIN_DATA flit arrives, the rank adds its contribution and forwards it. -/
  | chainDataFlit (p : PIx) (f : Flit)
  /-- MGT_BLOCK_FLIT (R300): An MGT_BLOCK flit arrives and enters the peer receive queue. -/
  | mgtBlockFlit (p : PIx) (f : Flit)
  /-- MGT_WORD_FLIT (R300): An MGT_WORD flit arrives on the management channel. -/
  | mgtWordFlit (p : PIx) (f : Flit)
  /-- NOTICE_FLIT (R310): A NOTICE flit updates each rank's computed membership; the coordinator floods a new one. -/
  | noticeFlit (p : PIx) (f : Flit)
  /-- MEMBERSHIP_FLIT (R310): A MEMBERSHIP flit arrives and the rank adopts the new epoch. -/
  | membershipFlit (p : PIx) (f : Flit)
  /-- CREDIT (R311): A CREDIT link control word returns credits for a virtual channel. -/
  | credit (p : PIx) (vc : Fin 6) (n : BitVec 7)
  /-- ACK (R305): An ACK link control word releases acknowledged flits from the replay buffer. -/
  | ack (p : PIx) (sq : BitVec 18)
  /-- REPLAY (R305): A REPLAY link control word makes the sender resend from a sequence. -/
  | replay (p : PIx) (sq : BitVec 18)
  /-- SNAP (R312): A SNAP link control word latches a channel's credit counts. -/
  | snap (p : PIx) (vc : Fin 6) (buffered : BitVec 8)
  /-- REPLAY_RETRAIN (R305): Eight consecutive replays of one flit make the port retrain. -/
  | replayRetrain (p : PIx)
  /-- BYPASS_N_CHANGE (R329): A change on BYPASS_N makes the bypass switches conduct or allows them open. -/
  | bypassNChange (level : Bool)
  /-- VKA_3V3_LOSS (R329): VKA_3V3 falls below range and the bypass conducts within 1 µs. -/
  | vkaLoss
  /-- ETH_FRAME_RECEIVED (R417): An Ethernet frame is received, filtered and checked as a record frame. -/
  | ethFrameReceived (m : EIx) (frame : List Byte)
  /-- FRAME_RING_ADMIT (R421): A buffered frame's records are written into its queue ring once the ring has room. -/
  | frameRingAdmit (m : EIx)
  /-- ETH_LINK_DOWN (R424): An Ethernet link goes down; result frames wait or are discarded. -/
  | ethLinkDown (m : EIx)
  /-- ETH_LINK_UP (R424): An Ethernet link comes up and waiting result frames are sent. -/
  | ethLinkUp (m : EIx)
  /-- PCIE_CONVENTIONAL_RESET (R410): A conventional PCIe reset resets the function's configuration space only. -/
  | pcieConventionalReset
  /-- BUS_MASTER_CLEAR (R410): Clearing Bus Master Enable or entering D3hot stops device requests to the host. -/
  | busMasterClear (d3hot : Bool)
  /-- BUS_MASTER_RESUME (R410): Bus Master Enable set or D0 restored lets waiting host accesses and held messages proceed. -/
  | busMasterResume (d0 : Bool)
  /-- ATS_INVALIDATION (R412): An ATS invalidation request completes once requests using the translation are issued. -/
  | atsInvalidation (r : AtsRange)
  /-- HOST_READ_COMPLETION (R413): A host read completion arrives; an EP completion is delivered as poisoned. -/
  | hostReadCompletion (r : HostRead)
  /-- COMPLETION_TIMEOUT (R413): A host read times out and its quads are delivered as poisoned. -/
  | completionTimeout (addr : BitVec 63) (quads : Nat)
  /-- POWER_UP (R356): Rails reach regulation and the device enters RESET. -/
  | powerUp
  /-- RESET_N_ASSERT (R440): RESET_N low puts the device in RESET from any powered state. -/
  | resetNAssert
  /-- RESET_N_RELEASE (R440): RESET_N high takes the device into BOOT and starts the boot sequence. -/
  | resetNRelease
  /-- STAGGER_CONFIRM (R393): A staggered-start step is confirmed and the next step or boot continuation runs. -/
  | staggerConfirm
  /-- REGULATOR_FAULT (R394): A regulator fault during start stops it and drives ALARM_N low. -/
  | regulatorFault (rail : BitVec 8) (status : BitVec 16)
  /-- THERMAL_TRIP (R397): The hardware thermal comparator fires, latching THERMTRIP_N and stopping the core. -/
  | thermalTrip
  /-- RAIL_LOSS (R449): A hardware-detected rail falls below its minimum and the device returns to OFF. -/
  | railLoss
  /-- SAGE_EXCEPTION (R356): A Sage firmware exception moves the device to FAULT. -/
  | sageException (mcause : Word) (mepc : Word)
  /-- DRAIN_COMPLETE (R358): The device drain completes and the device enters HOLD or RESET. -/
  | drainComplete
  /-- SER_REFCLK_LOSS (R383): SER_REFCLK stops, so no governor pass completes, the pace registers read 0, NO_REFCLK is set and the governor holds the rails. -/
  | serRefclkLoss
  /-- DEVCLK_STOP (R174): DEVCLK stops while a JESD204C link is down, leaving the local extended multiblock clock without a valid phase so the link can return only at the next SYSREF edge. -/
  | devclkStop (u : UIx)
  /-- VKA_3V3_RETURN (R329): VKA_3V3 returns to its operating range, so in RUNNING or DRAINING the bypass switches may be held open again and the device rejoins the ring. -/
  | vkaReturn
  /-- ATS_TRANSLATION_COMPLETION (R412): The host's answer to an ATS translation request arrives, granting the translation into the cache or refusing it so that the command ends with APERTURE and XLATE is set. -/
  | atsTranslationCompletion (r : AtsReply)
  deriving DecidableEq, Repr

end Sys2Proof
end

