-- ==== Sys2Proof/Decode.lean ====
section
/-! DEFINITION. The command a word spells by the table's bits. spec/opcode_table.json gives no row any bits (every row's
"fields" is empty and none has "fixed"), so no word spells a command. The 64-byte command slots of R232 are decoded by
the front end (Machine/Slots.lean). -/

namespace Sys2Proof

/-- The command that a word of `nbits` bits spells: the table gives no row bits, so there is none. -/
def decodeTableWord (_nbits _w : Nat) : Option Instr := none

end Sys2Proof
end

