-- ==== Sys2Proof/Machine/Bytes.lean ====
section
/-! DEFINITION. Bytes, bit fields, little-endian integers (R10), the CRC-32 of R47 and R80, the sparse map and the canonical
byte memory. No state of the machine is named here. -/

namespace Sys2Proof.Machine

/-- Bits [hi:lo] of a number (R10). -/
def fieldOf (n hi lo : Nat) : Nat := n / 2 ^ lo % 2 ^ (hi + 1 - lo)

/-- Bit `i` of a number. -/
def bitOf (n i : Nat) : Bool := n / 2 ^ i % 2 = 1

/-- A Boolean as a number. -/
def b2n (b : Bool) : Nat := if b then 1 else 0

/-- `n` with bits [hi:lo] replaced by `v`. -/
def setField (n hi lo v : Nat) : Nat :=
  n / 2 ^ (hi + 1) * 2 ^ (hi + 1) + v % 2 ^ (hi + 1 - lo) * 2 ^ lo + n % 2 ^ lo

/-- The little-endian number of a byte string (R10). -/
def le : List Byte → Nat
  | [] => 0
  | b :: t => b.toNat + 256 * le t

/-- The `k` little-endian bytes of a number. -/
def toLe : Nat → Nat → List Byte
  | 0, _ => []
  | k + 1, n => BitVec.ofNat 8 n :: toLe k (n / 256)

/-- The big-endian number of a byte string (network order, signature integers). -/
def be (bs : List Byte) : Nat := le bs.reverse

/-- The `k` big-endian bytes of a number. -/
def toBe (k n : Nat) : List Byte := (toLe k n).reverse

/-- The two's complement value of the low `w` bits of `n`. -/
def signed (w n : Nat) : Int :=
  let m := n % 2 ^ w
  if m < 2 ^ (w - 1) then (m : Int) else (m : Int) - (2 ^ w : Nat)

/-- The low `w` bits of an integer, two's complement. -/
def unsigned (w : Nat) (i : Int) : Nat := (i % ((2 ^ w : Nat) : Int)).toNat

/-- `x` rounded down to a multiple of `k`. -/
def alignDown (x k : Nat) : Nat := x / k * k

/-- `x` rounded up to a multiple of `k`. -/
def alignUp (x k : Nat) : Nat := (x + k - 1) / k * k

/-- `a / b` rounded up. -/
def cdiv (a b : Nat) : Nat := (a + b - 1) / b

/-- The bytes `off` to `off + len - 1` of a byte string. -/
def sub (bs : List Byte) (off len : Nat) : List Byte := (bs.drop off).take len

/-- The little-endian number of `len` bytes at `off`. -/
def leAt (bs : List Byte) (off len : Nat) : Nat := le (sub bs off len)

/-- Every byte is 0. -/
def allZero (bs : List Byte) : Bool := bs.all (· == 0)

/-- A byte string cut or zero-filled to `n` bytes. -/
def padTo (n : Nat) (bs : List Byte) : List Byte := bs.take n ++ List.replicate (n - bs.length) 0

/-- The bits of a byte string, least significant bit of the first byte first. -/
def byteBits (bs : List Byte) : List Bool := bs.flatMap fun b => (List.range 8).map fun i => b.getLsbD i

/-- The number of a bit list, least significant first. -/
def bitsNat : List Bool → Nat
  | [] => 0
  | b :: t => b2n b + 2 * bitsNat t

/-- A byte string of a bit list, eight bits a byte, least significant first. -/
def bitsBytes (bs : List Bool) : List Byte := toLe (cdiv bs.length 8) (bitsNat bs)

/-- A list cut into pieces of `k` (the last may be shorter); `n` bounds the number of pieces. -/
def chunk {α : Type} (k : Nat) : Nat → List α → List (List α)
  | 0, _ => []
  | n + 1, l => if l.isEmpty then [] else l.take k :: chunk k n (l.drop k)

/-- One bit of the reflected CRC-32 (polynomial 0xEDB88320). -/
def crc32Bit (c : Nat) : Nat := if c % 2 = 1 then (c / 2) ^^^ 0xEDB88320 else c / 2

/-- One byte of the reflected CRC-32. -/
def crc32Byte (c : Nat) (b : Byte) : Nat :=
  crc32Bit (crc32Bit (crc32Bit (crc32Bit (crc32Bit (crc32Bit (crc32Bit (crc32Bit (c ^^^ b.toNat))))))))

/-- CRC-32 with the IEEE 802.3 polynomial and conventions (R47, R80): PRESUMED text of the standard: initial value and
final complement all ones, bits reflected. -/
def crc32 (bs : List Byte) : Nat := bs.foldl crc32Byte 0xFFFFFFFF ^^^ 0xFFFFFFFF

/-- The value at key `k`, `d` where the key is not listed. -/
def sget {α : Type} (d : α) : SMap α → Nat → α
  | [], _ => d
  | (k, v) :: t, j => if k = j then v else sget d t j

/-- The map with key `k` set to `v`. -/
def sset {α : Type} : SMap α → Nat → α → SMap α
  | [], j, w => [(j, w)]
  | (k, v) :: t, j, w =>
    if k = j then (j, w) :: t else if j < k then (j, w) :: (k, v) :: t else (k, v) :: sset t j w

/-- The map without key `k`. -/
def sdel {α : Type} (m : SMap α) (j : Nat) : SMap α := m.filter fun p => p.1 != j

/-- Whether a key is listed. -/
def shas {α : Type} (m : SMap α) (j : Nat) : Bool := m.any fun p => p.1 == j

/-- The keys of a byte memory rise strictly, above `lo`, and no entry is 0 (an unlisted byte reads 0). -/
def cellsFrom : Nat → List Host.Cell → Bool
  | _, [] => true
  | lo, (k, v) :: t => decide (lo ≤ k) && v != 0 && cellsFrom (k + 1) t

/-- The canonical form of a byte memory. -/
def Memory.wf (m : List Host.Cell) : Bool := cellsFrom 0 m

/-- One byte of memory; an unlisted byte reads 0 (R455). -/
def mget : List Host.Cell → Nat → Byte
  | [], _ => 0
  | (k, v) :: t, a => if k = a then v else mget t a

/-- Memory with byte `a` set to `b`, in canonical form. -/
def mset : List Host.Cell → Nat → Byte → List Host.Cell
  | [], a, b => if b = 0 then [] else [(a, b)]
  | (k, v) :: t, a, b =>
    if k = a then (if b = 0 then mset t a b else (a, b) :: t)
    else if a < k ∧ b ≠ 0 then (a, b) :: (k, v) :: t
    else (k, v) :: mset t a b

/-- `n` bytes of memory from address `a`. -/
def mread (m : List Host.Cell) (a n : Nat) : List Byte := (List.range n).map fun i => mget m (a + i)

/-- Memory with the bytes `bs` written from address `a`. -/
def mwrite : List Host.Cell → Nat → List Byte → List Host.Cell
  | m, _, [] => m
  | m, a, b :: t => mwrite (mset m a b) (a + 1) t

/-- The part of memory that lists addresses `a` to `a + n - 1`; reading from it equals reading from the whole there. -/
def mpart (m : List Host.Cell) (a n : Nat) : List Host.Cell := m.filter fun c => decide (a ≤ c.1) && decide (c.1 < a + n)

/-- Division rounded to nearest, ties to even, by a power of two. -/
def rne (n sh : Nat) : Nat :=
  let q := n / 2 ^ sh
  let r := n % 2 ^ sh
  if sh = 0 then n else if 2 ^ (sh - 1) < r || (r = 2 ^ (sh - 1) && q % 2 = 1) then q + 1 else q

/-- The first index at which a predicate holds. -/
def findIx {α : Type} (p : α → Bool) : List α → Option Nat
  | [] => none
  | a :: t => if p a then some 0 else (findIx p t).map (· + 1)

/-- No two members are equal. -/
def allDistinct : List Nat → Bool
  | [] => true
  | a :: t => !t.contains a && allDistinct t

/-- The elements of a list at the given index, or a default. -/
def nth {α : Type} (d : α) (l : List α) (i : Nat) : α := (l[i]?).getD d

end Sys2Proof.Machine
end

