-- ==== Sys2Proof/Machine/Flags.lean ====
section
/-! DEFINITION. The result flag word (Table 6-6) and the sticky bits it feeds (Tables 5-9, 6-10). -/

namespace Sys2Proof.Machine

/-- INTEG (Table 6-6). -/
def fInteg : Nat := 1
/-- PART. -/
def fPart : Nat := 2
/-- SCALED. -/
def fScaled : Nat := 4
/-- SAT. -/
def fSat : Nat := 8
/-- NANIN. -/
def fNanin : Nat := 16
/-- LATE. -/
def fLate : Nat := 32
/-- EMPTY. -/
def fEmpty : Nat := 64
/-- NANROW. -/
def fNanrow : Nat := 128
/-- OOR. -/
def fOor : Nat := 256
/-- CANCEL. -/
def fCancel : Nat := 512

/-- A flag is in the word. -/
def hasFlag (w f : Nat) : Bool := w / f % 2 == 1

/-- The flag where the condition holds. -/
def flagIf (c : Bool) (f : Nat) : Nat := if c then f else 0

/-- The `HDG_OUT_STAT` bits of the flags of a result (Table 6-10). -/
def outSticky (fl : Nat) : Nat :=
  flagIf (hasFlag fl fEmpty) 1 + flagIf (hasFlag fl fNanrow) 2 + flagIf (hasFlag fl fNanin) 4 + flagIf (hasFlag fl fCancel) 8

/-- The `HDG_ACC_STAT` bits of the flags a step raised (R135): SAT and SCALED. -/
def accSticky (fl : Nat) : Nat := flagIf (hasFlag fl fSat) 1 + flagIf (hasFlag fl fScaled) 2

end Sys2Proof.Machine
end

