-- ==== Sys2Proof/Config.lean ====
section
/-! DEFINITION. What an implementation fixes and what the manual leaves open: the free values (opaque, no body) and the
constants of the address map. A free value is drawn with the operands it depends on, so a claim about it holds for every value. -/

namespace Sys2Proof.Config

/-- FREE VALUE (R142): the value, in units of 2^-320, from which SIGMOID gives at least the FP32 code named, where that code lies within the
manual's 2 ulp of the exact function (log 7, safe). -/
opaque sigmoidFrom : Word → Int

/-- FREE VALUE (Table 6-4, R217): output `i` of a softmax row over the unmasked values, as FP32 bits between +0 and 1.0;
`mode` holds ORDER and ROUND (log 7, safe). -/
opaque softmax : (mode : Nat) → List Word → (i : Nat) → Fin 0x3F800001

/-- FREE VALUE (Table 9-5): RCP of a finite nonzero value, within 1 ulp (log 7, safe). -/
opaque rcp : Word → Word

/-- FREE VALUE (Table 9-5): RSQRT of a positive finite value, within 1 ulp (log 7, safe). -/
opaque rsqrt : Word → Word

/-- FREE VALUE (Table 9-5): EXP, within 2 ulp (log 7, safe). -/
opaque exp : Word → Word

/-- FREE VALUE (Table 9-5): LOG of a positive finite value, within 2 ulp (log 7, safe). -/
opaque log : Word → Word

/-- FREE VALUE (Table 9-5): TANH, within 2 ulp (log 7, safe). -/
opaque tanh : Word → Word

/-- FREE VALUE (R189): bin `k` of the FFT of the given CI16 samples as an FP32 pair, within 2^-18 of full scale (log 7, safe). -/
opaque fft : List Word → (k : Nat) → Word × Word

/-- FREE VALUE (R409): what the host's root complex supplies for a failed read; outside the device's control. -/
opaque failedRead : Nat → Word

/-- FREE VALUE (R413): whether host memory keeps the poison of the n-th poisoned write request. -/
opaque hostKeepsPoison : Nat → Bool

/-- FREE VALUE (R391, R388): bits the manual gives no value for, drawn with the draw counter. -/
opaque freeWord : Nat → Word

/-- FREE VALUE (R302, R282): what the firmware of a core has retired, modulo 2^32, by the core's ID and a counter: its internals form no part of the interface (R282;
log 6). -/
opaque firmwareRetired : (core tick : Nat) → Word

/-- FREE VALUE (R128): which sum the one output of a LEGACY record carries when its array sums reached several of the eight
tiles; the manual does not say. -/
opaque legacySum : (tiles : List Int) → Int

/-- FREE VALUE (R291): the address in `ra` at a context's entry, which acts as ECALL 0; the manual does not give it (log 7). -/
opaque endAddr : Word

/-- FREE VALUE (R179, Table 19-8): DEVCLK of unit u in MHz above 50; the board gives it, between 50 and 500 MHz (log 7). -/
opaque devclkAbove : Nat → Fin 451

/-- DEVCLK of unit u in MHz. -/
def devclk (u : Nat) : Nat := 50 + (devclkAbove u).val

/-- Base of the shared system SRAM (Table 14-4). -/
def sramBase : Nat := 0x100000000000

/-- Size of the shared system SRAM: 16 MiB (Table 14-4). -/
def sramSize : Nat := 0x1000000

/-- Base of the hedge scratchpads (Table 14-4). -/
def hedgeScratchBase : Nat := 0x100010000000

/-- Size of one hedge scratchpad: 2 MiB. -/
def hedgeScratchSize : Nat := 0x200000

/-- Base of the receiver-unit scratchpads (Table 14-4). -/
def rxuScratchBase : Nat := 0x100020000000

/-- Size of one receiver-unit scratchpad: 8 MiB. -/
def rxuScratchSize : Nat := 0x800000

/-- Rows of a hedge's accumulator memory (Table 1-1). -/
def accRows : Nat := 8192

/-- Records a skid holds per binding group (R105). -/
def skidDepth : Nat := 32

/-- Flits a virtual channel's buffer holds (R311). -/
def vcDepth : Nat := 128

/-- Outstanding tickets a context may have (R284). -/
def maxTickets : Nat := 16

/-- Ticket outcomes a context keeps (R284). -/
def keptTickets : Nat := 64

/-- Blocks a mailbox channel's queue holds (R295). -/
def mbxSlots : Nat := 4

/-- Bytes of a MAC's receive buffer (R421). -/
def macBuffer : Nat := 0x40000

/-- Entries of the translation cache (R412). -/
def atsEntries : Nat := 4096

/-- LEAK_NOM, the leakage at nominal conditions in watts (R388): fused per device, typically 16 (log 2). -/
def leakNom : Nat := 16

end Sys2Proof.Config
end

