-- ==== Sys2Proof/Machine/Formats.lean ====
section
/-! DEFINITION. The twelve number formats and their conversions (R62 to R69). A finite value of any format is a whole
multiple of 2 to the power -320 (R65: every finite value is exact in EX640), so an exact value is an integer. -/

namespace Sys2Proof.Machine

/-- The twelve formats of Tables 3-5 and 3-6. -/
inductive Fmt where
  | u8 | s8 | u16 | s16 | s32 | e4m3 | e5m2 | fp16 | bf16 | fp32 | ci16 | ex640
  deriving DecidableEq, Repr

/-- The format of a code (R62). -/
def Fmt.ofCode : Nat → Option Fmt
  | 0 => some .u8 | 1 => some .s8 | 2 => some .u16 | 3 => some .s16 | 4 => some .s32 | 5 => some .e4m3
  | 6 => some .e5m2 | 7 => some .fp16 | 8 => some .bf16 | 9 => some .fp32 | 10 => some .ci16 | 11 => some .ex640
  | _ => none

/-- Bytes of an element (Table 3-5, Table 3-4's format sizes). -/
def Fmt.size : Fmt → Nat
  | .u8 | .s8 | .e4m3 | .e5m2 => 1
  | .u16 | .s16 | .fp16 | .bf16 => 2
  | .s32 | .fp32 | .ci16 => 4
  | .ex640 => 80

/-- An integer format. -/
def Fmt.isInt : Fmt → Bool
  | .u8 | .s8 | .u16 | .s16 | .s32 => true
  | _ => false

/-- Exponent bits, fraction bits and bias of a floating-point format (Table 3-6). -/
def Fmt.fp : Fmt → Option (Nat × Nat × Nat)
  | .e4m3 => some (4, 3, 7)
  | .e5m2 => some (5, 2, 15)
  | .fp16 => some (5, 10, 15)
  | .bf16 => some (8, 7, 127)
  | .fp32 => some (8, 23, 127)
  | _ => none

/-- Width in bits and signedness of an integer format. -/
def Fmt.int : Fmt → Option (Nat × Bool)
  | .u8 => some (8, false)
  | .s8 => some (8, true)
  | .u16 => some (16, false)
  | .s16 => some (16, true)
  | .s32 => some (32, true)
  | .ex640 => some (640, true)
  | _ => none

/-- An exact value: a finite value as a multiple of 2 to the power -320, a negative zero, an infinity, or a NaN with its sign. -/
inductive Val where
  | num (n : Int)
  | negZero
  | inf (neg : Bool)
  | nan (neg : Bool)
  deriving DecidableEq, Repr

/-- One unit of value 1.0. -/
def one320 : Nat := 2 ^ 320

/-- The value is a NaN. -/
def Val.isNan : Val → Bool
  | .nan _ => true
  | _ => false

/-- The sign of a value: true for negative, a negative zero included. -/
def Val.neg : Val → Bool
  | .num n => decide (n < 0)
  | .negZero => true
  | .inf b => b
  | .nan b => b

/-- The integer of a finite value (0 for the others). -/
def Val.toInt : Val → Int
  | .num n => n
  | _ => 0

/-- A finite value. -/
def Val.finite : Val → Bool
  | .num _ | .negZero => true
  | _ => false

/-- The exact value of an encoding (R62, R63). CI16 is read through its parts; here it reads as 0. -/
def decodeVal (f : Fmt) (w : Nat) : Val :=
  match f.fp with
  | some (eb, fb, bias) =>
    let s := bitOf w (eb + fb)
    let e := w / 2 ^ fb % 2 ^ eb
    let fr := w % 2 ^ fb
    let special := e = 2 ^ eb - 1
    if f = .e4m3 && special && fr = 7 then .nan s
    else if special && f ≠ .e4m3 then (if fr = 0 then .inf s else .nan s)
    else
      let mag : Nat := if e = 0 then fr * 2 ^ (321 - bias - fb) else (2 ^ fb + fr) * 2 ^ (e + 320 - bias - fb)
      if mag = 0 && s then .negZero else .num (if s then -(mag : Int) else mag)
  | none =>
    match f with
    | .ex640 => .num (signed 640 w)
    | _ =>
      match f.int with
      | some (wd, true) => .num (signed wd w * (one320 : Int))
      | some (wd, false) => .num ((w % 2 ^ wd : Nat) * (one320 : Int))
      | none => .num 0

/-- The canonical NaN of a format with a sign (R64). -/
def canonNan (f : Fmt) (neg : Bool) : Nat :=
  match f.fp with
  | some (eb, fb, _) =>
    let s := b2n neg * 2 ^ (eb + fb)
    if f = .e4m3 then s + 0x7F else s + (2 ^ eb - 1) * 2 ^ fb + 2 ^ (fb - 1)
  | none => 0

/-- The largest finite magnitude's code of a floating-point format (Table 3-6). -/
def maxFinite (f : Fmt) : Nat :=
  match f.fp with
  | some (eb, fb, _) => if f = .e4m3 then 0x7E else (2 ^ eb - 1) * 2 ^ fb - 1
  | none => 0

/-- A rounding of a magnitude at a given number of dropped bits. -/
abbrev Rounder := (mag sh : Nat) → Nat

/-- The code of a nonzero magnitude (a multiple of 2 to the power -320) in a floating-point format, rounded by `rd`, as if
the exponent were unbounded: codes above `maxFinite` are beyond range (R65). -/
def floatMag (rd : Rounder) (f : Fmt) (mag : Nat) : Nat :=
  match f.fp with
  | some (_, fb, bias) =>
    let p := Nat.log2 mag
    let e := max (p + bias) 321
    let sh := e - bias - fb
    (e - 321) * 2 ^ fb + rd mag sh
  | none => 0

/-- The flags of a conversion (R67): SAT and NANIN. -/
structure CvFlags where
  sat : Bool := false
  nanin : Bool := false
  deriving DecidableEq, Repr

/-- Both flags joined. -/
def CvFlags.or (a b : CvFlags) : CvFlags := ⟨a.sat || b.sat, a.nanin || b.nanin⟩

/-- The most positive or most negative integer code. -/
def intLimit (wd : Nat) (sg neg : Bool) : Nat :=
  if sg then (if neg then 2 ^ (wd - 1) else 2 ^ (wd - 1) - 1) else (if neg then 0 else 2 ^ wd - 1)

/-- Table 3-7: the encoding of an exact value in a destination format (not CI16), rounded by `rd` where rounding is called
for, with its flags. -/
def encodeWith (rd : Rounder) (f : Fmt) (v : Val) : Nat × CvFlags :=
  match f.fp with
  | some (eb, fb, _) =>
    let sb := fun (b : Bool) => b2n b * 2 ^ (eb + fb)
    let over_ := if f = .e4m3 then 0x7E else (2 ^ eb - 1) * 2 ^ fb
    match v with
    | .nan b => (canonNan f b, {})
    | .inf b => (sb b + over_, { sat := decide (f = .e4m3) })
    | .negZero => (sb true, {})
    | .num n =>
      if n = 0 then (0, {})
      else
        let c := floatMag rd f n.natAbs
        let s := sb (decide (n < 0))
        if maxFinite f < c then (s + over_, { sat := true }) else (s + c, {})
  | none =>
    match f.int with
    | none => (0, {})
    | some (wd, sg) =>
      match v with
      | .nan _ => (0, { nanin := true })
      | .inf b => (intLimit wd sg b, { sat := true })
      | .negZero => (0, {})
      | .num n =>
        let mag := if f = .ex640 then n.natAbs else rd n.natAbs 320
        let i : Int := if n < 0 then -(mag : Int) else mag
        let lo : Int := if sg then -((2 ^ (wd - 1) : Nat) : Int) else 0
        let hi : Int := if sg then ((2 ^ (wd - 1) : Nat) : Int) - 1 else ((2 ^ wd : Nat) : Int) - 1
        if i < lo then (intLimit wd sg true, { sat := true })
        else if hi < i then (intLimit wd sg false, { sat := true })
        else (unsigned wd i, {})

/-- Table 3-7 with round to nearest, ties to even (R65). -/
def encodeVal (f : Fmt) (v : Val) : Nat × CvFlags := encodeWith rne f v

/-- One element converted from a format to another (R65), neither CI16. -/
def convert1 (src dst : Fmt) (w : Nat) : Nat × CvFlags := encodeVal dst (decodeVal src w)

/-- A list of element encodings converted (R65, R66): a CI16 source gives two destination elements, real part first; a CI16
destination takes two source elements, the last imaginary part 0 where they run out. -/
def convertList (src dst : Fmt) (ws : List Nat) : List Nat × CvFlags :=
  if src = .ci16 && dst = .ci16 then (ws, {})
  else
    let parts : List Nat × Fmt :=
      if src = .ci16 then (ws.flatMap fun w => [w % 65536, w / 65536 % 65536], .s16) else (ws, src)
    let tgt : Fmt := if dst = .ci16 then .s16 else dst
    let rs := parts.1.map (convert1 parts.2 tgt)
    let fl := rs.foldl (fun a r => a.or r.2) {}
    let out := rs.map (·.1)
    if dst = .ci16 then
      (((chunk 2 out.length out).map fun c => nth 0 c 0 + 65536 * nth 0 c 1), fl)
    else (out, fl)

/-- `x ≥ t` for two exact values, neither NaN (R68). -/
def valGe (x t : Val) : Bool :=
  match x, t with
  | .inf false, _ => true
  | _, .inf true => true
  | .inf true, _ => false
  | _, .inf false => false
  | a, b => decide (b.toInt ≤ a.toInt)

/-- The integer a category code stands for (R69). -/
def intCode (f : Fmt) (w : Nat) : Int :=
  match f.int with
  | some (wd, true) => signed wd w
  | some (wd, false) => (w % 2 ^ wd : Nat)
  | none => 0

/-- FP32 word of an exact value, round to nearest even. -/
def toFp32 (v : Val) : Nat := (encodeVal .fp32 v).1

/-- Exact value of an FP32 word. -/
def ofFp32 (w : Nat) : Val := decodeVal .fp32 w

end Sys2Proof.Machine
end

