-- ==== Sys2Proof/Machine/PartsCore.lean ====
section
/-! DEFINITION. The parts of State that the front end, the hedges, the rotations and the data mover own. Each field's default
is its value at reset. -/

namespace Sys2Proof.Machine

/-- A completion status (Table 10-13). -/
inductive St where
  | ok | cancelled | priv | format | aperture | drained | killed | integrity | fenceErr
  deriving DecidableEq, Repr

/-- The code of a status (Table 10-13). -/
def St.code : St → Nat
  | .ok => 0 | .cancelled => 1 | .priv => 2 | .format => 3 | .aperture => 4 | .drained => 5 | .killed => 6
  | .integrity => 7 | .fenceErr => 8

/-- The first status that is not OK, `a` before `b`. -/
def St.firstBad (a b : St) : St := if a = .ok then b else a

/-- The states of a queue (Table 10-12). -/
inductive QState where
  | free | bound | idle | active | stalled | disabling | retiring
  deriving DecidableEq, Repr

/-- The code of a queue state (Table 10-12). -/
def QState.code : QState → Nat
  | .free => 0 | .bound => 1 | .idle => 2 | .active => 3 | .stalled => 4 | .disabling => 5 | .retiring => 6

/-- The action in progress on a queue (Table 11-6, ACTING). -/
inductive Acting where
  | none | drain | kill | destroy
  deriving DecidableEq, Repr

/-- The code of an action (Table 11-6). -/
def Acting.code : Acting → Nat
  | .none => 0 | .drain => 1 | .kill => 2 | .destroy => 3

/-- A slot fetched and checked, awaiting dispatch (R242, R234): its ring index, its position in an indirect buffer if it is one
of a buffer, its 64 bytes, what the checks gave, and the aperture windows that stood when they began (R223). -/
structure Fetched where
  idx : Word := 0
  sub : Option Nat := none
  slot : List Byte := []
  status : St := .ok
  wins : List (Nat × Nat) := []
  deriving DecidableEq, Repr

/-- An INDIRECT that has begun (R236): its command and ring index, the buffer, how many slots were fetched, dispatched and completed, the
first in buffer order that was not OK, the OR of their flags, and the status that a stop gives it. -/
structure Indirect where
  uid : Nat := 0
  idx : Word := 0
  buf : DWord := 0
  count : Nat := 0
  fetched : Nat := 0
  sent : Nat := 0
  done : Nat := 0
  firstBad : Option (Nat × St) := none
  flags : Nat := 0
  stop : Option St := none
  deriving DecidableEq, Repr

/-- One of the 16,384 queues (R220, R267): state, enable, pending enable, pending-vector bit, indices, QUIET and what judging
needs, the stall settings in force since the last watch event (R251), action, RECORD-queue forming state, standing slot, fetched window
and begun INDIRECTs, the one whose slots are being dispatched last. -/
structure Queue where
  st : QState := .free
  en : Bool := false
  pendOn : Bool := false
  pend : Bool := false
  pi : Word := 0
  ci : Word := 0
  quiet : Nat := 0
  progress : Bool := false
  judged : Bool := false
  stallDue : Bool := false
  stallCfg : Word := 0
  wasDis : Bool := false
  acting : Acting := .none
  watch : Nat := 0
  origin : Option Nat := none
  noFenceErr : Bool := false
  formed : Word := 0
  stepK : Nat := 0
  standing : List Byte := []
  window : List Fetched := []
  indirects : List Indirect := []
  acked : Bool := false
  deriving DecidableEq, Repr

/-- A dispatched command that has not completed (R235): its queue (or ticket), ring index, buffer position, opcode and slot, the
status and flags gathered, its DETAIL, the parts of its work its completion waits for, the slots that an EOP.ENQ
took from local memory, whether it waits for its turn at the front end, and the aperture windows it is held to (R223). -/
structure Cmd where
  uid : Nat := 0
  src : Src := .queue 0
  idx : Word := 0
  sub : Option Nat := none
  op : Nat := 0
  slot : List Byte := []
  status : St := .ok
  flags : Nat := 0
  detail : Nat := 0
  waits : List Nat := []
  record : Bool := false
  user : Option DWord := none
  data : List Byte := []
  queued : Bool := false
  wins : List (Nat × Nat) := []
  deriving DecidableEq, Repr

/-- An op that a receiver-unit context issued and that has not been dispatched (R285): unit, context, ticket, target, command slot, and the
aperture windows that stood at its checks (R223). -/
structure TicketOp where
  u : Nat := 0
  c : Nat := 0
  n : Word := 0
  target : Nat := 0
  slot : List Byte := []
  wins : List (Nat × Nat) := []
  deriving DecidableEq, Repr

/-- A ticket whose work has ended and whose outcome TICKET_COMPLETE will record (R284): unit, context, ticket, status, flags. -/
structure TicketOut where
  u : Nat := 0
  c : Nat := 0
  n : Word := 0
  status : St := .ok
  flags : Nat := 0
  deriving DecidableEq, Repr

/-- A fence (R252): value and ERR. -/
structure Fence where
  value : DWord := 0
  err : Bool := false
  deriving DecidableEq, Repr

/-- The turn state of an engine (R247, R248): the kernel and the user queue served last, the queue holding the turn with its allowance
(fixed when the turn began, R251) and the units used in it, and each queue's overrun. -/
structure Turn where
  lastKernel : Option Nat := none
  lastUser : Option Nat := none
  cur : Option Nat := none
  allow : Nat := 0
  used : Nat := 0
  overruns : SMap Nat := []
  deriving DecidableEq, Repr

/-- An enable bit with its shutdown (R268). -/
structure Enable where
  en : Bool := false
  disabling : Bool := false
  pendOn : Bool := false
  deriving DecidableEq, Repr

/-- A segment of an image (Table 2-6). -/
structure Segment where
  first : Nat := 0
  rows : Nat := 0
  leaves : Nat := 0
  tree : Word := 0
  deriving DecidableEq, Repr

/-- A comparator of an image (Table 2-7): kind 0 THRESHOLD, 1 SET, 2 ALL_LEFT, 3 ALL_RIGHT. -/
structure Comparator where
  thresh : Word := 0
  feature : Nat := 0
  fmt : Nat := 0
  kind : Nat := 0
  dflt : Bool := false
  setIx : Nat := 0
  deriving DecidableEq, Repr

/-- The contents of a match array (R36 to R52, R71, R111): shape, leaf width, output, model, schema, scale, segments, comparators
(the binning table with its routes), set bitmaps, the rows that are not never-match rows (value plane, care plane) and the
nonzero leaf slots. -/
structure ArrImage where
  shape : Nat := 0
  wide : Bool := false
  outIx : Nat := 0
  model : Word := 0
  schema : Word := 0
  scale : Int := 0
  segs : List Segment := []
  comps : List Comparator := []
  sets : List (BitVec 4096) := []
  rows : SMap (BitVec 2048 × BitVec 2048) := []
  leaves : SMap (BitVec 128) := []
  deriving DecidableEq, Repr

/-- The states of an array (Table 4-10). -/
inductive ArrSt where
  | empty | loading | ready | withdrawn
  deriving DecidableEq, Repr

/-- The code of an array state (Table 4-10). -/
def ArrSt.code : ArrSt → Nat
  | .empty => 0 | .loading => 1 | .ready => 2 | .withdrawn => 3

/-- Why a load is made: a LOAD or COPY command, a rotation's round, or the reload of a displaced image (R17). -/
inductive LoadFor where
  | cmd (uid : Nat)
  | copy (uid : Nat)
  | rotation (uid : Nat)
  | reload
  deriving DecidableEq, Repr

/-- A load of an array that waits or runs (R53, R89); `sch` is the schema descriptor as the hedge read it when the load began (R61). -/
structure LoadJob where
  why : LoadFor := .reload
  q : Nat := 0
  addr : DWord := 0
  src : DWord := 0
  size : Option Nat := none
  schema : Option DWord := none
  sch : Option (List Byte) := none
  started : Bool := false
  deriving DecidableEq, Repr

/-- The image of the most recent LOAD or COPY load (R94, R233): its address, model and schema descriptor. -/
structure Home where
  addr : DWord := 0
  model : Word := 0
  schema : Option DWord := none
  deriving DecidableEq, Repr

/-- A match array (R93, R98, R349 to R352): state, contents with the address they came from, the most recent LOAD, whether a rotation has
displaced its image (R17), waiting loads, the model a pin took from its first LOAD, and its fault books. -/
structure Arr where
  st : ArrSt := .empty
  img : Option ArrImage := none
  held : Option DWord := none
  home : Option Home := none
  bumped : Bool := false
  loads : List LoadJob := []
  pinned : Option Word := none
  integ : Nat := 0
  cls : Nat := 0
  checking : Bool := false
  checkDue : Bool := false
  checked : Bool := false
  testing : Bool := false
  retest : Bool := false
  rewrites : List ArrItem := []
  deriving DecidableEq, Repr

/-- A record on its way into or in a hedge (R102, R105): the command, batch position, binding group; in a skid the bytes as read with the
quads that were poisoned; in a slot the slot's index in its partition, whose scratchpad memory holds the `len` bytes (R27). -/
structure HeldRec where
  uid : Nat := 0
  pos : Nat := 0
  bg : Nat := 0
  bytes : List Byte := []
  bad : List Nat := []
  slot : Nat := 0
  len : Nat := 0
  borrowed : Bool := false
  deriving DecidableEq, Repr

/-- A borrow from a partition's shared pool (R104). -/
structure Borrow where
  uid : Nat := 0
  bg : Nat := 0
  n : Nat := 0
  deriving DecidableEq, Repr

/-- A record partition's books (R101 to R104): occupied slots, borrows granted, borrow requests waiting in arrival order. -/
structure Part where
  occ : List HeldRec := []
  borrows : List Borrow := []
  waiting : List Borrow := []
  deriving DecidableEq, Repr

/-- An accumulation group on a hedge (R126, R127): owner and the opening command's HEDGES, SPAN and RECORDS, a copy of the
accumulation descriptor, the physical rows bound as (start, length), and what the mode keeps: replay count per tile, common
scale, blocks added, outputs begun, flags and TAG per record, missing span positions, and whether a step of the group went without
this hedge (R107). -/
structure Group where
  q : Nat := 0
  ticket : Option Src := none
  hedges : Nat := 0
  span : Nat := 0
  records : Nat := 0
  accd : List Byte := []
  rows : List (Nat × Nat) := []
  replays : SMap Nat := []
  scale : Int := 0
  steps : Nat := 0
  runStart : Option Nat := none
  runEnd : Nat := 0
  begun : List Nat := []
  flags : SMap Nat := []
  tags : SMap Nat := []
  missing : List Nat := []
  missRanks : Nat := 0
  epoch : Nat := 0
  closing : Bool := false
  lost : Bool := false
  deriving DecidableEq, Repr

/-- A step running on a hedge (R85, R120): its command, the arrays it searches, and per FIXED tile its replay count and whether it
overflowed at that count. -/
structure Running where
  uid : Nat := 0
  arrays : List Nat := []
  searches : Nat := 0
  replays : SMap Nat := []
  pending : List Nat := []
  claim : Nat := 0
  deriving DecidableEq, Repr

/-- A close waiting for the output unit of a span's first hedge (R136). `stage` 0 not begun, 1 its partials are with the ring reduction
(R325), 2 its results are written and it waits for the merge of the ranked lists (R148). -/
structure Close where
  uid : Nat := 0
  group : Nat := 0
  span : Nat := 0
  cancel : Bool := false
  stage : Nat := 0
  deriving DecidableEq, Repr

/-- A record's place in a local ranked list (R147). -/
structure Ranked where
  pos : Nat := 0
  tag : DWord := 0
  flags : Nat := 0
  key : Int := 0
  score : Word := 0
  variance : Word := 0
  deriving DecidableEq, Repr

/-- What a command with several spans has of its ranked lists (R148): spans closed, entries and EXCLUDED so far. -/
structure RankBook where
  spansDone : Nat := 0
  entries : List Ranked := []
  excluded : Nat := 0
  deriving DecidableEq, Repr

/-- A group open that waits for rows (R127). -/
structure OpenReq where
  uid : Nat := 0
  group : Nat := 0
  deriving DecidableEq, Repr

/-- A hedge (R85, R101 to R108, R127, R136): enable, the spans it is detached from (R107), partitions, skids by binding group, groups,
accumulator rows, running step, the step whose token claim waits or is held (R89), closes, work-unit remainder and turn. -/
structure Hedge where
  en : Enable := {}
  off : Bool := false
  restructuring : Bool := false
  detachedFrom : List (List Nat) := []
  rejoin : Bool := false
  parts : SMap Part := []
  skids : SMap (List HeldRec) := []
  groups : SMap Group := []
  acc : SMap (BitVec 640) := []
  opens : List OpenReq := []
  run : Option Running := none
  chosen : Option Nat := none
  closes : List Close := []
  freeDetached : List Nat := []
  remainder : Nat := 0
  searches : DWord := 0
  units : Word := 0
  turn : Turn := {}
  lastUnit : Nat := 3
  snapReq : Bool := false
  snapValid : Bool := false
  deriving DecidableEq, Repr

/-- What a step names (R85, R233): batch, stride, number of records, schema, accumulation and output descriptors, group, open and
close flags, REDUCE, the spans of hedges, the array positions of a rotation's round (none: the image set of R233), whether it is of
receive class, the RSIZE offset and egress of a RECORD step, and the epoch and exactness of the group once it is open. -/
structure StepSpec where
  batch : Nat := 0
  stride : Nat := 0
  records : Nat := 0
  schema : Nat := 0
  accd : Nat := 0
  outd : Nat := 0
  group : Nat := 0
  opens : Bool := false
  closes : Bool := false
  reduce : Bool := false
  spans : List (List Nat) := []
  arrays : Option (List Nat) := none
  recv : Bool := false
  calib : Option (Nat × Nat) := none
  epoch : Option Nat := none
  exact : Option Bool := none
  outdImm : List Byte := []
  deriving DecidableEq, Repr

/-- A step in progress over its hedges (R85, R95, R61): what it names, records sent per span, the binding group, whether the start
checks have passed and the group is open, the copy of the schema descriptor and the positions to be searched on each hedge, both fixed
by the checks (R61, R89), hedges started and ended in the current round, hedges missing (R107), the TAGs sent, spans whose close has
begun and spans closed, what the PAIRWISE runs were found to be (R123), the copy of the output descriptor (R139), the first status that is
not OK, and results kept for egress frames. -/
structure StepRun where
  uid : Nat := 0
  q : Nat := 0
  bg : Nat := 0
  spec : StepSpec := {}
  sent : SMap Nat := []
  checked : Bool := false
  opened : Bool := false
  sch : List Byte := []
  sets : SMap (List Nat) := []
  started : List Nat := []
  ended : List Nat := []
  missing : List Nat := []
  tags : SMap Nat := []
  closing : List Nat := []
  closed : Nat := 0
  runsBad : Option Bool := none
  outd : List Byte := []
  unlisted : Bool := false
  taken : Bool := false
  status : St := .ok
  accdCopy : List Byte := []
  egress : List (Nat × List Byte) := []
  deriving DecidableEq, Repr

/-- The stages of a rotation (R155 to R160). -/
inductive RotStage where
  | claiming | running
  deriving DecidableEq, Repr

/-- A rotation (R152): a copy of its descriptor, the claim, the next round to multicast, images fetched into staging with the bytes and the
entry (source and size) of the one being fetched, rounds staged, whether round images are loading, their sources and how far of their
bytes the multicast has moved, a pending WAIT mark, the image-table entries that a REDUCE rotation keeps (R318), and the status it
stops with (R160). -/
structure Rotation where
  uid : Nat := 0
  q : Nat := 0
  desc : List Byte := []
  stage : RotStage := .claiming
  round : Nat := 0
  fetched : Nat := 0
  loading : Bool := false
  loaded : Bool := false
  waitMark : Option (Nat × DWord) := none
  released : List Nat := []
  loadsLeft : List Nat := []
  bytes : Nat := 0
  moved : Nat := 0
  failed : St := .ok
  kept : Option (List Nat) := none
  stopping : Option St := none
  staged : Nat := 0
  fetching : Option (Nat × Nat) := none
  fetchAt : Nat := 0
  srcs : List (Nat × Nat) := []
  deriving DecidableEq, Repr

/-- A stream list that the data mover runs (R164 to R168): the command, list address and count, descriptors done, bytes moved of
the one in progress, whether it was checked, whether it multicasts an image, and whether a DEP_FENCE mark holds it. -/
structure Mover where
  uid : Nat := 0
  q : Nat := 0
  list : DWord := 0
  count : Nat := 0
  ix : Nat := 0
  moved : Nat := 0
  checked : Bool := false
  held : Bool := false
  released : Bool := false
  sending : Bool := false
  desc : List Byte := []
  loadsLeft : List Nat := []
  failed : St := .ok
  deriving DecidableEq, Repr

end Sys2Proof.Machine
end

