-- ==== Sys2Proof/Machine/PartsBoard.lean ====
section
/-! DEFINITION. The parts of State outside the engines: device state and pins, the power-token book, the PCIe function with its
MSI-X vectors, the integrity overlay of stored quads. Each field's default is its value at reset. -/

namespace Sys2Proof.Machine

/-- The device states (Table 15-1). -/
inductive Dev where
  | off | reset | boot | hold | structured | running | draining | fault
  deriving DecidableEq, Repr

/-- The code of a device state (Table 18-6, STATE). -/
def Dev.code : Dev → Nat
  | .off => 0 | .reset => 1 | .boot => 2 | .hold => 3 | .structured => 4 | .running => 5 | .draining => 6 | .fault => 7

/-- Device control (R355 to R360, R431 to R434): state, HOLD reason, drain target, latched START, straps as sampled and as driven,
boot progress, the memory fitted (density code of Table 15-7, link ECC), and the pins. Reset: BOOT, boot not begun (log 1); straps,
stepping and fitted memory as log 2 names them. -/
structure Glb where
  dev : Dev := .boot
  reason : Nat := 0
  targetReset : Bool := false
  startPending : Bool := false
  bootStep : Nat := 0
  revision : Nat := 0x10
  strapAuto : Bool := false
  strapTopo : Nat := 0
  strapRank : Nat := 0
  autostart : Bool := false
  topo : Nat := 0
  rank : Nat := 0
  resetN : Bool := true
  bypassN : Bool := true
  vka : Bool := true
  railsOk : Bool := true
  refclk : Bool := true
  thermtrip : Bool := false
  bypassOpen : Bool := false
  pendingOpen : Bool := false
  density : Nat := 3
  linkEcc : Bool := false
  deriving DecidableEq, Repr

/-- A power-token claim (R387 to R389): its owner's code, its class, its nominal cost and, once granted, its size. -/
structure Claim where
  owner : Nat := 0
  recv : Bool := false
  nom : Nat := 0
  cost : Nat := 0
  deriving DecidableEq, Repr

/-- The token book and the governor (R383 to R398): pool, EFFECTIVE, permanent, leakage and top-up holdings, a leakage increase
still owed, claims held and waiting, claims the top-up covers, rails set and measured (mV), the pending voltage step, sensor
readings, pace, and the conditions of the last pass. -/
structure Pwr where
  pool : Nat := 0
  effective : Nat := 0
  edge : Nat := 0
  rx : Nat := 0
  leak : Nat := 0
  leakOwed : Nat := 0
  rxOwed : Nat := 0
  topup : Nat := 0
  topupOwners : List Nat := []
  held : List Claim := []
  waiting : List Claim := []
  waitedOwners : List Nat := []
  clampTo : Option Nat := none
  vcoreSet : Nat := 750
  vmatchSet : Nat := 750
  vcoreMeas : Nat := 0
  vmatchMeas : Nat := 0
  avs : Option (Bool × Nat) := none
  factor : Nat := 256
  paceCore : Nat := 0
  paceMatch : Nat := 0
  tj : Int := 0
  sensors : List (BitVec 8) := []
  power : Nat := 0
  tooPower : Bool := false
  brownout : Bool := false
  warn : Bool := false
  crit : Bool := false
  voltCond : Bool := false
  regCond : Bool := false
  startStep : Nat := 0
  stopped : Bool := false
  snapReq : Bool := false
  snapValid : Bool := false
  deriving DecidableEq, Repr

/-- A translation held in the cache (R412): PASID, page, and the translated page with read and write permission, or a refusal. -/
structure AtsEntry where
  pasid : Option Nat := none
  page : Nat := 0
  grant : Option (Nat × Bool × Bool) := none
  deriving DecidableEq, Repr

/-- An MSI-X table entry (R415): address, data and mask bit; every vector is masked at reset (PRESUMED from PCIe, log 3). -/
structure MsixEntry where
  addr : DWord := 0
  data : Word := 0
  masked : Bool := true
  deriving DecidableEq, Repr

/-- The PCIe function (R406 to R415): Bus Master Enable, D3hot, ATS Enable, MSI-X Function Mask, the table, pending
bits, messages sent (the model's output log), the translation cache with translations outstanding, and BAR4's size. -/
structure Hif where
  bme : Bool := false
  d3hot : Bool := false
  ats : Bool := false
  funcMask : Bool := false
  table : SMap MsixEntry := []
  pba : List Nat := []
  msgs : List (DWord × Word) := []
  cache : List AtsEntry := []
  asked : List AtsEntry := []
  bar4Size : Nat := 0x1000000000
  deriving DecidableEq, Repr

/-- Result records of one step waiting to leave on an Ethernet port (R423, R424): the queue, the command, the frames' records with
their counts. -/
structure TxJob where
  q : Nat := 0
  uid : Nat := 0
  frames : List (Nat × List Byte) := []
  deriving DecidableEq, Repr

/-- An accepted record frame in a port's receive buffer (R421): its channel's queue, its records, its length, and how many frames the ports
had accepted before it (R420). -/
structure RxFrame where
  q : Nat := 0
  recs : List (List Byte) := []
  size : Nat := 0
  stamp : Nat := 0
  deriving DecidableEq, Repr

/-- An Ethernet port (R416 to R424): enable, link, frames accepted since reset, receive buffer, result frames waiting, the queue whose frame went last, and the
frames sent (the model's output log). -/
structure Mac where
  en : Enable := {}
  link : Bool := false
  accepted : Nat := 0
  rx : List RxFrame := []
  tx : List TxJob := []
  lastQ : Option Nat := none
  sent : List (List Byte) := []
  deriving DecidableEq, Repr

/-- What is unusual about a stored quad (R335, R336): the poison flag P, the stored bits that differ from the code word, how the
folded address it was encoded for differs, and, in an array's stores, whether failed cells bring `err` back at each rewrite (R349). -/
structure QuadState where
  poison : Bool := false
  err : BitVec 146 := 0
  adx : BitVec 59 := 0
  hard : Bool := false
  deriving DecidableEq, Repr

end Sys2Proof.Machine
end

