-- ==== Sys2Proof/Machine/PartsRing.lean ====
section
/-! DEFINITION. The parts of State that the Utrid ring and the mailboxes own. Each field's default is its value at reset. -/

namespace Sys2Proof.Machine

/-- A node of the PAIRWISE tree (R123): lowest position, level, value. -/
structure PNode where
  lo : Nat
  level : Nat
  w : Nat
  deriving DecidableEq, Repr

/-- A record of a close (Table 6-1): position, TAG, flags with those the group's steps raised, missing hedge positions and slices,
the combined rows in the layout of Table 5-5, the PAIRWISE nodes per output, poisoned rows, the FIXED scale, N per output, and
LEGACY tiles reached. -/
structure OutRec where
  pos : Nat := 0
  tag : Nat := 0
  flags : Nat := 0
  old : Nat := 0
  gone : Nat := 0
  ranks : Nat := 0
  rows : List Nat := []
  nodes : List (List PNode) := []
  bad : List Nat := []
  scale : Int := 0
  ns : List Nat := []
  tiles : List Nat := []
  nan : Bool := false
  deriving DecidableEq, Repr

/-- A Utrid port (R303 to R312, R333): enable, state (0 OFF, 1 TRAINING, 2 UP), rate, lane lock, partner, the sender's link sequence
with the flits not yet acknowledged and the messages waiting for credit, the receiver's link sequence, credits per channel, the
receive buffers with the flits that owe no credit because the link retrained, the snapshot, and what the port has sent (the
model's output logs): flits with their link sequences, and link control words. -/
structure UPort where
  en : Enable := {}
  st : Nat := 0
  rate : Nat := 0
  lock : Nat := 0
  peer : Nat := 0
  bypass : Bool := false
  lastPeer : Option Nat := none
  retrain : Bool := false
  txSeq : Nat := 0
  unacked : List Flit := []
  wait : List (Nat × Flit) := []
  lastVc : Nat := 5
  held : SMap Nat := []
  rxSeq : Nat := 0
  replaying : Bool := false
  replays : Nat := 0
  replayAt : Option Nat := none
  rx : SMap (List Flit) := []
  free : SMap Nat := []
  snapWait : List Nat := []
  snapValid : Bool := false
  creds : SMap (Nat × Nat × Nat) := []
  wire : List Flit := []
  wireSq : List Nat := []
  words : List (Nat × Nat) := []
  deriving DecidableEq, Repr

/-- The newest notice of a rank (R310): its message count, the partners of its ports, the READY bits of its model table. -/
structure NoticeRec where
  seq : Nat := 0
  peers : List Nat := []
  ready : Nat := 0
  deriving DecidableEq, Repr

/-- A membership (R310): the live ranks and each one's READY bits. -/
structure Member where
  live : Nat := 0
  ready : SMap Nat := []
  deriving DecidableEq, Repr

/-- A mark that a rank has received and not formed (R320): first sequence, record count, group, epoch, and whether a gap or a lost
record makes it a step to skip (R323). -/
structure MarkRec where
  first : Nat := 0
  count : Nat := 0
  group : Nat := 0
  epoch : Nat := 0
  deriving DecidableEq, Repr

/-- A ring queue on this device (R319 to R323): the next ring-queue sequence (to send on the origin, expected elsewhere), marks not yet
formed, the record being put together with its poisoned quads, gap and pass-through state, whether the origin was told, ranks that
reported themselves to this origin (R322), and steps skipped as (number of the last earlier command, model entry) (R323). -/
structure RingQ where
  next : Nat := 0
  started : Bool := false
  marks : List MarkRec := []
  asm : List Byte := []
  asmBad : List Nat := []
  gap : Bool := false
  passing : Bool := false
  told : Bool := false
  reports : List Nat := []
  skips : List (Nat × Nat) := []
  deriving DecidableEq, Repr

/-- A reduction this device takes part in (R324 to R328): model entry, sequence, command (none for a skipped or released step), group
epoch, slices served, root, lowest block position of its partial, its accumulation descriptor, the chain header its group gives, its records by batch position, spans not yet combined, whether its
contribution has gone into the chain, and whether a chain header disagreed with it. -/
structure Red where
  entry : Nat := 0
  seq : Nat := 0
  uid : Option Nat := none
  epoch : Nat := 0
  served : Nat := 0
  root : Nat := 0
  low : Nat := 0
  accd : List Byte := []
  hdr : List Byte := []
  recs : SMap OutRec := []
  spansLeft : Nat := 0
  passed : Bool := false
  mismatch : Bool := false
  deriving DecidableEq, Repr

/-- A chain passing through (R325), by the rank that sent it on: header, bytes received and not used, bytes to send and not sent, next
record, whether this rank adds, whether the chain ends here, and the records kept at its end with their poisoned rows. -/
structure Chain where
  src : Nat := 0
  entry : Nat := 0
  seq : Nat := 0
  epoch : Nat := 0
  hdr : List Byte := []
  inBuf : List Byte := []
  inBad : List Nat := []
  outBuf : List Byte := []
  outBad : List Nat := []
  ix : Nat := 0
  adds : Bool := false
  ends : Bool := false
  sentFirst : Bool := false
  kept : List (Nat × Nat × Nat × Nat × List Nat) := []
  keptBad : SMap (List Nat) := []
  deriving DecidableEq, Repr

/-- The Utrid block (R303 to R334): ports, notices by rank, memberships by epoch, this rank's message count, ring queues by queue
number, reductions and chains. -/
structure Utr where
  ports : SMap UPort := []
  notices : SMap NoticeRec := []
  books : SMap Member := []
  msgCount : Nat := 0
  rqs : SMap RingQ := []
  reds : List Red := []
  chains : List Chain := []
  deriving DecidableEq, Repr

/-- A mailbox channel of an ordered pair of endpoints (R294 to R299): the block words being written, GO, WITHDRAWN and IGNORED, the
committed blocks with their stamps, and the word part with the sticky bits of both sides; to a peer's host, the blocks and the word moved
there and not yet taken (R300). -/
structure Chan where
  data : SMap Word := []
  go : Bool := false
  withdrawn : Bool := false
  ignored : Bool := false
  queue : List (List Word) := []
  word : Option Word := none
  ovTx : Bool := false
  ovRx : Bool := false
  far : Nat := 0
  farWord : Bool := false
  deriving DecidableEq, Repr

end Sys2Proof.Machine
end

