-- ==== Sys2Proof/Machine/PartsRxu.lean ====
section
/-! DEFINITION. The parts of State that the receiver units and their sequencer cores own. Each field's default is its value at
reset. -/

namespace Sys2Proof.Machine

/-- A detected message (R178, R183): the sample of its detection, its GAIN_WORD, its number in the slot, and whether MAX_MSG messages
had been detected before it. -/
structure Msg where
  at_ : Nat := 0
  gain : Nat := 0
  seq : Nat := 0
  excess : Bool := false
  deriving DecidableEq, Repr

/-- A slot task (R182 to R188): strobe count n, the stream's sample index at its opening strobe and at the next strobe, whether its
window has closed, its context has begun and ended, it was stopped at its deadline, its context ended under R292, its extraction program
was refused (R81), what its status entry reports, the sample of its last message, the messages that DETECT has not delivered, the
message in progress with whether it lost samples, the sequence number that its next record takes at the least (R75), the stamp of its
last decoding (R82), and the bytes of its LLR region used. -/
structure Task where
  n : DWord := 0
  start : Nat := 0
  stop : Option Nat := none
  closed : Bool := false
  begun : Bool := false
  ended : Bool := false
  halted : Bool := false
  bad : Bool := false
  refused : Bool := false
  gain : Nat := 0
  lastAt : Nat := 0
  messages : Nat := 0
  records : Nat := 0
  dropped : Nat := 0
  oor : Bool := false
  fallback : Nat := 0
  link : Bool := false
  overrun : Bool := false
  freezeLate : Bool := false
  hdrFail : Bool := false
  tb : Bool := false
  excess : Bool := false
  dets : List Msg := []
  current : Option Msg := none
  lost : Bool := false
  nextSeq : Nat := 0
  decoded : Nat := 0
  llrUsed : Nat := 0
  deriving DecidableEq, Repr

/-- A run of slot tasks on a stream (R183, R184): command, queue, the copied slot descriptor and trellis block (R192), tasks still to open, the first slot, the
status it will end with, and whether its queue was destroyed or killed, so that nothing it does has a result (R188). -/
structure SlotRun where
  uid : Nat := 0
  q : Nat := 0
  desc : List Byte := []
  trellis : List Byte := []
  left : Nat := 0
  n0 : Option DWord := none
  status : St := .ok
  void : Bool := false
  deriving DecidableEq, Repr

/-- The gain control loop and preamble detector of a stream (R176 to R181): G, the registers in force, FROZEN with the frozen G and a
freeze that waits for a frame, the G of the last completed frame, the pending word, the window being gathered (samples, power sum,
clipped), windows gathered and not yet judged (mean power, clipped), the detector's run of samples, detections not yet acted on,
the sample at which blanking ends, and the release and freeze samples. -/
structure Agc where
  g : Nat := 0
  ctl : Word := 0
  hi : Word := 0
  lo : Word := 0
  range : Word := 0
  frozen : Bool := false
  frozenG : Nat := 0
  lateFreeze : Bool := false
  gDone : Nat := 0
  pend : Option Nat := none
  winN : Nat := 0
  winSum : Nat := 0
  winClip : Nat := 0
  wins : List (Nat × Nat) := []
  hold : Nat := 0
  found : List Nat := []
  blank : Option Nat := none
  release : Option Nat := none
  frozenAt : Nat := 0
  deriving DecidableEq, Repr

/-- A local stream (R173 to R185): its run, open tasks (oldest first), samples captured, the newest samples (newest first, at most
1,279), and its gain loop. -/
structure Stream where
  run : Option SlotRun := none
  tasks : List Task := []
  samples : Nat := 0
  recent : List Word := []
  agc : Agc := {}
  deriving DecidableEq, Repr

/-- The instruction a context is blocked in (R284, R290), with its operands as read. -/
inductive Block where
  | issue (rd : Nat) (addr tgt : Word)
  | move (rd : Nat) (addr arg : Word)
  | enq (rd : Nat) (addr arg : Word)
  | wait (rd : Nat) (tk : Word)
  | mwait (rd : Nat) (arg : Word)
  | wfi
  deriving DecidableEq, Repr

/-- The states of a context (R290). -/
inductive CtxSt where
  | none | ready | running | blocked (b : Block)
  deriving DecidableEq, Repr

/-- A unit-local job (R286): ticket, local address of its block, and the block as issued. -/
structure Job where
  tk : Word := 0
  addr : Nat := 0
  block : List Byte := []
  deriving DecidableEq, Repr

/-- A CALIBRATE job in progress (R190): ticket, block address, the operands, records submitted, fallbacks and flags so far, and the
records of the step in flight. -/
structure CalJob where
  tk : Word := 0
  addr : Nat := 0
  blocks : Nat := 0
  recs : Nat := 0
  out : Nat := 0
  sent : Nat := 0
  inFlight : Nat := 0
  fallback : Nat := 0
  flags : Nat := 0
  status : St := .ok
  deriving DecidableEq, Repr

/-- A context of a receiver-unit core (R290 to R293): state, registers, pc, the task-region area it needs (start and length) and whether it
has been given its place, tickets issued,
outstanding tickets (ticket and target), outcomes kept (newest first), unit-local jobs and a calibration in progress. -/
structure Ctx where
  st : CtxSt := .none
  regs : SMap Word := []
  pc : Word := 0
  area : Nat × Nat := (0, 0)
  placed : Bool := false
  next : Nat := 0
  out : List (Word × Nat) := []
  outcomes : List (Word × Word) := []
  jobs : List Job := []
  cal : Option CalJob := none
  deriving DecidableEq, Repr

/-- A network program that runs name (R289, R290): NET_ADDR, its code and how long it is, whether and where it lies in the task region, its
entry point, initialised data, zero and stack bytes, and the contexts whose run names it. -/
structure Loaded where
  addr : DWord := 0
  text : List Byte := []
  placed : Bool := false
  base : Nat := 0
  code : Nat := 0
  entry : Nat := 0
  data : List Byte := []
  zero : Nat := 0
  stack : Nat := 0
  users : List Nat := []
  deriving DecidableEq, Repr

/-- An EOP.MOVE that waits for its burst (R283, R287): unit, context, ticket, owning queue, local and device address, bytes, and whether it
goes to the device. -/
structure MoveOp where
  u : Nat := 0
  c : Nat := 0
  n : Word := 0
  q : Nat := 0
  loc : Nat := 0
  dev : Nat := 0
  len : Nat := 0
  out : Bool := false
  deriving DecidableEq, Repr

/-- An operation waiting for an engine of a unit (R200, R285): a command by number, or the FFT or trellis job of a context's ticket. Once a
MATRIX or VECTOR operation has begun (R202), `left` is how many of its work units are still to run, `pos` how many operand bytes it has
read, and the job's block its descriptor. -/
structure EngJob where
  uid : Option Nat := none
  c : Nat := 0
  q : Nat := 0
  job : Job := {}
  left : Option Nat := none
  pos : Nat := 0
  deriving DecidableEq, Repr

/-- A receiver unit with its sequencer core (R171 to R199, R278 to R293): enables of the unit and its extractor, the EXTRACT whose record the
extractor was writing when its EN was cleared (context and ticket, R84), decodings completed (R82), the link, the strobe count, the streams, the gain port, the core's local memory with its poisoned quads, programs loaded, contexts with the last one
that ran, and the work waiting for each engine with its turns and byte remainders. -/
structure Rxu where
  en : Enable := {}
  rex : Enable := {}
  rexWait : Option (Nat × Word) := none
  decodes : Nat := 0
  linkUp : Bool := false
  aligned : Bool := false
  phase : Bool := false
  lock : Nat := 0
  strobes : DWord := 0
  streams : SMap Stream := []
  gcpLast : Option Nat := none
  gcpCur : Option (Nat × Nat) := none
  gcpSeq : Nat := 0
  gcpSent : List Word := []
  mem : List Host.Cell := []
  bad : List Nat := []
  progs : List Loaded := []
  ctxs : SMap Ctx := []
  lastCtx : Option Nat := none
  eng : SMap (List EngJob) := []
  engTurn : SMap Turn := []
  engBytes : SMap Nat := []
  lastTrap : Word := 0
  epc : Word := 0
  retired : DWord := 0
  reserved : Option Nat := none
  deriving DecidableEq, Repr

end Sys2Proof.Machine
end

