-- ==== Sys2Proof/Machine/PartsSage.lean ====
section
/-! DEFINITION. What Sage keeps: fuses, SPI NOR (slot regions, event log, state records) and the running components. Each field's default
is its value at reset (log 2: unfused, erased flash). -/

namespace Sys2Proof.Machine

/-- An event log entry as it stands in flash (R402, R403): bank and position, then Table 16-10's fields. -/
structure LogEntry where
  bank : Nat := 0
  pos : Nat := 0
  seq : Nat := 0
  boot : Nat := 0
  watch : Nat := 0
  code : Nat := 0
  source : Nat := 0
  sev : Nat := 0
  data : List Byte := []
  deriving DecidableEq, Repr

/-- A state record (Table 16-12) with the bank and position where it stands (R402). -/
structure StateRec where
  bank : Nat := 0
  pos : Nat := 0
  gen : Nat := 0
  boots : Nat := 0
  wdraw : Nat := 0
  wclass : SMap Nat := []
  logSeq : Nat := 0
  trips : Nat := 0
  tjMax : Int := 0
  lastFault : Nat := 0
  lastHold : Nat := 0
  deriving DecidableEq, Repr

/-- What a component's header declares (Table 15-5), and the key slot that its signature was accepted under. -/
structure Comp where
  provides : Nat := 0
  steppings : Nat := 0
  sec : Nat := 0
  accSage : Nat := 0
  accSeq : Nat := 0
  accPleach : Nat := 0
  accDrv : Nat := 0
  signer : Option Nat := none
  deriving DecidableEq, Repr

/-- Sage (R361 to R374, R400 to R404): key digests by slot, revoked slots, SIGNED_ONLY, rollback floor; flash, as the complement of each
byte of the slot regions (an erased byte is 0xFF), keyed bank · 2^23 + offset; the log and state records with the next position of each
bank; the record in force, the reason and the temperature for the next one; the components running, and the Pleach body and
the sequencer firmware that BOOT has read and not yet applied. -/
structure Sage where
  keys : SMap (List Byte) := []
  revoked : List Nat := []
  signedOnly : Bool := false
  floor : Nat := 0
  flash : List Host.Cell := []
  log : List LogEntry := []
  logNext : SMap Nat := []
  logSeq : Nat := 0
  recs : List StateRec := []
  recNext : SMap Nat := []
  cur : StateRec := {}
  holdSeen : Nat := 0
  tjSeen : Int := 0
  trips : Nat := 0
  comps : List Comp := []
  body : List Byte := []
  fw : List Byte := []
  deriving DecidableEq, Repr

/-- An accepted or waiting RESTRUCTURE (R375, R376): command, hedge, the new body with the level it declares, and whether it was
accepted. -/
structure Restruct where
  uid : Nat := 0
  h : Nat := 0
  body : List Byte := []
  comp : Comp := {}
  accepted : Bool := false
  deriving DecidableEq, Repr

end Sys2Proof.Machine
end

