-- ==== Sys2Proof/Machine/State.lean ====
section
/-! DEFINITION. The state of the SV-4800 as plain data, its stops, and the state right after reset. -/

namespace Sys2Proof.Machine

/-- The reasons the machine stops with a fault. -/
inductive Fault where
  /-- Raised by no command: the spec gives every one of them an effect, and one that names nothing the device has changes nothing. The
  device's own FAULT is a device state (Table 15-1), not this. Safe. -/
  | malformed
  deriving DecidableEq, Repr

/-- The reasons the model refuses a command. -/
inductive Refusal where
  /-- Raised by an arm of `exec` whose command has no meaning in the model yet. Safe: nothing is claimed of it. -/
  | notModelled (mnemonic : String)
  deriving DecidableEq, Repr

/-- The machine (INVENTORY.md, State). `pending` is the queue of commands waiting, first in, first out. `freeTick` counts the free
values drawn; `onChip` is what the stores 8 to 11 hold (Local.lean), but for the units' task regions; `busData` and `busEp` are what the last reading access returned (log 3). `hostWait` is true only inside a command that meets a host access that has to wait (R410, R412). -/
structure State where
  pending : List Instr := []
  freeTick : Nat := 0
  busData : List Byte := []
  busEp : Bool := false
  hostWait : Bool := false
  regs : SMap Word := []
  glb : Glb := {}
  queues : SMap Queue := []
  cmds : List Cmd := []
  nextUid : Nat := 0
  ticketOps : List TicketOp := []
  ticketsReady : List TicketOut := []
  pleach : List Byte := []
  ctxQueue : SMap Nat := []
  fences : SMap Fence := []
  watchLines : SMap Nat := []
  watchDue : SMap Nat := []
  front : Turn := {}
  cmdTurn : Turn := {}
  hedges : SMap Hedge := []
  arrays : SMap Arr := []
  steps : List StepRun := []
  ranks : SMap RankBook := []
  rotations : List Rotation := []
  claimsWaiting : List Nat := []
  movers : List Mover := []
  moves : List MoveOp := []
  moverTurn : Turn := {}
  moverBytes : Nat := 0
  pwr : Pwr := {}
  hif : Hif := {}
  mem : List Host.Cell := []
  host : List Host.Cell := []
  macs : SMap Mac := []
  utr : Utr := {}
  chans : SMap Chan := []
  rxus : SMap Rxu := []
  calOut : SMap (List (Nat × List Byte)) := []
  quads : SMap QuadState := []
  onChip : SMap (List Host.Cell) := []
  hostPoison : List Nat := []
  sage : Sage := {}
  restructs : List Restruct := []
  scrubAt : Nat := 0
  deriving DecidableEq, Repr

/-- The machine right after reset: BOOT, with the boot sequence not begun (log 1), memory with nothing listed. -/
def State.reset : State := {}

end Sys2Proof.Machine
end

