-- ==== Sys2Proof/Machine/RegFile.lean ====
section
/-! DEFINITION. The BAR0 register file: where each block lies (Table 18-1), what a register holds when nothing has written it
(the Reset columns), and reading, writing, setting sticky bits and counting in the file. -/

namespace Sys2Proof.Machine

/-- Register of queue q (R244). -/
def qfeReg (q off : Nat) : Nat := 0x200000 + 64 * q + off
/-- Aperture register of set n, window w (R245). -/
def aprReg (n w off : Nat) : Nat := 0x300000 + 64 * n + 16 * w + off
/-- Register of fence f (R277). -/
def fnwReg (f off : Nat) : Nat := 0x400000 + 16 * f + off
/-- `FNW_WATCH_CFG` (R277). -/
def watchCfg : Nat := 0x410000
/-- `FNW_WATCH_COUNT` (R277). -/
def watchCount : Nat := 0x410004
/-- Register of hedge h (R108). -/
def hdgReg (h off : Nat) : Nat := 0x800000 + 0x100000 * h + off
/-- Register of receiver unit u (R198). -/
def rxuReg (u off : Nat) : Nat := 0x1800000 + 0x100000 * u + off
/-- Register of Utrid port p (R333). -/
def utrPort (p off : Nat) : Nat := 0x1C00000 + 0x10000 * p + off
/-- Register of the Utrid common block (R333). -/
def utrCom (off : Nat) : Nat := 0x1C40000 + off
/-- Register of the MEM block (R354). -/
def memReg (off : Nat) : Nat := 0x1D00000 + off
/-- Register of the PWR block (R405). -/
def pwrReg (off : Nat) : Nat := 0x1E00000 + off
/-- Register of the HIF block (R425). -/
def hifReg (off : Nat) : Nat := 0x1F00000 + off
/-- Register of MAC port m (R425). -/
def macReg (m off : Nat) : Nat := 0x1F10000 + 0x1000 * m + off
/-- Register of the MGT block (R378, R302). -/
def mgtReg (off : Nat) : Nat := 0x100000 + off

/-- The reset value of a local-stream register of a receiver unit, at offset o below 0x20 in the stream's block (R198). -/
def agcReset (o : Nat) : Nat :=
  if o = 0x00 then 6 * 2 ^ 2 + 1 * 2 ^ 6 + 2 * 2 ^ 10 + 6 * 2 ^ 14 + 4 * 2 ^ 18
  else if o = 0x04 then 0x08000000
  else if o = 0x08 then 0x02000000
  else if o = 0x0C then 0xFF00
  else if o = 0x10 then 16 + 6 * 2 ^ 8 + 128 * 2 ^ 12 + 8 * 2 ^ 20
  else 0

/-- What an unwritten register of the file holds: its Reset column, 0 for every field with none (log 3). -/
def regReset (off : Nat) : Nat :=
  if off = 0x1C then 0x7FF
  else if off = watchCfg then 0x103
  else if 0x200000 ≤ off ∧ off < 0x300000 then (if off % 64 = 0x30 then 64 else 0)
  else if 0x1800000 ≤ off ∧ off < 0x1C00000 then
    let o := off % 0x100000
    if 0x1000 ≤ o ∧ o < 0x1100 then agcReset (o % 0x20) else if o = 0x3000 then 16 else 0
  else if off = memReg 0x10 then 0xF1
  else if off = memReg 0x30 then 0x100
  else if off = pwrReg 0x28 then 850
  else if off = pwrReg 0x44 then 105 + 120 * 2 ^ 8
  else if 0x1F10000 ≤ off ∧ off < 0x1F14000 then
    let o := off % 0x1000
    if o = 0 then 2 ^ 3 + 2 ^ 4 + 1522 * 2 ^ 8 else if o = 0x10 then 2 ^ 13 else 0
  else 0

/-- A register of the file. -/
def regGet (s : State) (off : Nat) : Word := sget (BitVec.ofNat 32 (regReset off)) s.regs off

/-- A register of the file as a number. -/
def regNat (s : State) (off : Nat) : Nat := (regGet s off).toNat

/-- A field [hi:lo] of a register of the file. -/
def regField (s : State) (off hi lo : Nat) : Nat := fieldOf (regNat s off) hi lo

/-- One bit of a register of the file. -/
def regBit (s : State) (off i : Nat) : Bool := bitOf (regNat s off) i

/-- A register of the file set. -/
def regSet (s : State) (off : Nat) (w : Word) : State := { s with regs := sset s.regs off w }

/-- A field of a register of the file set. -/
def regSetField (s : State) (off hi lo v : Nat) : State :=
  regSet s off (BitVec.ofNat 32 (setField (regNat s off) hi lo v))

/-- Sticky bits set. -/
def regOr (s : State) (off mask : Nat) : State :=
  if mask = 0 then s else regSet s off (regGet s off ||| BitVec.ofNat 32 mask)

/-- A counter raised, modulo 2^32. -/
def regAdd (s : State) (off n : Nat) : State := if n = 0 then s else regSet s off (regGet s off + BitVec.ofNat 32 n)

/-- An RC counter raised, saturating at 0xFFFFFFFF (R84, R354). -/
def regCount (s : State) (off n : Nat) : State :=
  if n = 0 then s else regSet s off (BitVec.ofNat 32 (min 0xFFFFFFFF (regNat s off + n)))

end Sys2Proof.Machine
end

