-- ==== Sys2Proof/Machine/Swc.lean ====
section
/-! DEFINITION. The SWC-146 code (R335, R336): the syndromes of an error pattern and what a reader makes of it. A stored
quad is held as its correct contents beside the pattern of stored bits that differ from the code word (positions 0 to 145) and
the difference between the encoded and the expected folded address (positions 146 to 204). The code is linear, so the
syndromes of a received word are those of its error pattern. -/

namespace Sys2Proof.Machine

/-- Multiplication by α in GF(2^8) with x^8 + x^4 + x^3 + x^2 + 1 (R335). -/
def gfTwice (x : Nat) : Nat := if 128 ≤ x then (2 * x) ^^^ 0x11D else 2 * x

/-- α to the powers 0 to n - 1, starting from `x`. -/
def gfPowers : Nat → Nat → List Nat
  | 0, _ => []
  | n + 1, x => x :: gfPowers n (gfTwice x)

/-- α to the powers 0 to 254. -/
def alphaTable : List Nat := gfPowers 255 1

/-- α to the power `k`. -/
def alphaPow (k : Nat) : Nat := nth 0 alphaTable (k % 255)

/-- The error positions of a pattern of 205 bits. -/
def errPositions (e : Nat) : List Nat := (List.range 205).filter fun i => bitOf e i

/-- S0, S1 and S3 of an error pattern (R336). -/
def syndromes (e : Nat) : Nat × Nat × Nat :=
  (errPositions e).foldl (fun s i => (s.1 ^^^ 1, s.2.1 ^^^ alphaPow i, s.2.2 ^^^ alphaPow (3 * i))) (0, 0, 0)

/-- The position i below 205 with α^i = x, if there is one. -/
def alphaLog (x : Nat) : Option Nat := findIx (· == x) (alphaTable.take 205)

/-- The one or two error positions the syndromes locate (R336), if any. -/
def locate (s0 s1 s3 : Nat) : Option (List Nat) :=
  if s0 = 1 then
    match alphaLog s1 with
    | some i => if alphaPow (3 * i) = s3 then some [i] else none
    | none => none
  else
    (List.range 205).findSome? fun i =>
      match alphaLog (s1 ^^^ alphaPow i) with
      | some j => if i < j ∧ alphaPow (3 * i) ^^^ alphaPow (3 * j) = s3 then some [i, j] else none
      | none => none

/-- What a reader makes of a stored quad (Table 14-2), before P and d are judged. -/
inductive Decoded where
  | good (residual : Nat)
  | corrected (residual : Nat)
  | address
  | bad
  deriving DecidableEq, Repr

/-- Table 14-2 on an error pattern of stored bits and folded-address bits. -/
def decodePattern (err adx : Nat) : Decoded :=
  let e := err % 2 ^ 146 + 2 ^ 146 * (adx % 2 ^ 59)
  if e = 0 then .good 0
  else
    let s := syndromes e
    if s.1 = 0 ∧ s.2.1 = 0 ∧ s.2.2 = 0 then .good err
    else
      match locate s.1 s.2.1 s.2.2 with
      | none => .bad
      | some ps =>
        if ps.any (146 ≤ ·) then .address
        else .corrected (ps.foldl (fun r p => r ^^^ 2 ^ p) (err % 2 ^ 146))

/-- The outcome of reading a quad. -/
inductive QuadClass where
  | clean | poisoned | ce (poisoned : Bool) | ue | ae
  deriving DecidableEq, Repr

/-- P and d judged (first two rows of Table 14-2): `p` is the stored poison flag, `d0` says the data bits are 0, `r` is what
differs from them after correction. The new data differs from the stored by bits 18 to 145 of `r`. -/
def judge (p d0 : Bool) (r : Nat) : Option Bool :=
  let p' := p != bitOf r 17
  let clean0 := d0 && r / 2 ^ 18 % 2 ^ 128 = 0
  if !p' then some false else if clean0 then some true else none

/-- The class of a stored quad with its poison flag, whether its data is 0, its error pattern and its address difference
(R336). -/
def classify (p d0 : Bool) (err adx : Nat) : QuadClass :=
  match decodePattern err adx with
  | .good r => match judge p d0 r with
    | some false => .clean
    | some true => .poisoned
    | none => .ue
  | .corrected r => match judge p d0 r with
    | some b => .ce b
    | none => .ue
  | .address => .ae
  | .bad => .ue

end Sys2Proof.Machine
end

