-- ==== Sys2Proof/Machine/Ops.lean ====
section
/-! DEFINITION. The named operations over State: queues, hedges and arrays by number, the enable rule of R268, the integrity
counters, device and host memory with poison, apertures, MSI-X vectors and power-token claims. -/

namespace Sys2Proof.Machine

/-- Queue q; an unlisted queue is FREE. -/
def queue (s : State) (q : Nat) : Queue := sget {} s.queues q
/-- Queue q replaced. -/
def setQueue (s : State) (q : Nat) (v : Queue) : State := { s with queues := sset s.queues q v }
/-- Queue q changed. -/
def modQueue (s : State) (q : Nat) (f : Queue → Queue) : State := setQueue s q (f (queue s q))
/-- Hedge h. -/
def hedge (s : State) (h : Nat) : Hedge := sget {} s.hedges h
/-- Hedge h replaced. -/
def setHedge (s : State) (h : Nat) (v : Hedge) : State := { s with hedges := sset s.hedges h v }
/-- Hedge h changed. -/
def modHedge (s : State) (h : Nat) (f : Hedge → Hedge) : State := setHedge s h (f (hedge s h))
/-- Global array n. -/
def arr (s : State) (n : Nat) : Arr := sget {} s.arrays n
/-- Global array n replaced. -/
def setArr (s : State) (n : Nat) (v : Arr) : State := { s with arrays := sset s.arrays n v }
/-- Global array n changed. -/
def modArr (s : State) (n : Nat) (f : Arr → Arr) : State := setArr s n (f (arr s n))
/-- Fence f. -/
def fence (s : State) (f : Nat) : Fence := sget {} s.fences f
/-- Fence f replaced. -/
def setFence (s : State) (f : Nat) (v : Fence) : State := { s with fences := sset s.fences f v }

/-- A write of an enable bit (R268): clearing it starts the shutdown where one is needed (`busy`); setting it during a shutdown is
latched as PENDING_ON, and clearing it then cancels the latch. -/
def Enable.write (e : Enable) (on busy : Bool) : Enable :=
  if on then (if e.disabling then { e with pendOn := true } else { e with en := true })
  else if e.disabling then { e with pendOn := false }
  else if e.en then { en := false, disabling := busy, pendOn := false } else e

/-- A shutdown completes (R268): the latched enable takes effect. -/
def Enable.done (e : Enable) : Enable :=
  if e.disabling then { en := e.pendOn, disabling := false, pendOn := false } else e

/-- The outcome of a meaning (log 4): a command that met a host access that has to wait (R410, R412) changes nothing but the
translations it asked for. -/
def settle (s t : State) : State := if t.hostWait then { s with hif := { s.hif with asked := t.hif.asked } } else t

/-- One free word drawn. -/
def drawFree (s : State) : Word × State := (Config.freeWord s.freeTick, { s with freeTick := s.freeTick + 1 })

/-- Output of the reading commands (log 3). -/
def answer (s : State) (w : Word) : State := { s with busData := toLe 4 w.toNat }

/-! ## The event log (R402, R403) -/

/-- Positions of a bank's log area (R402). -/
def logSlots : Nat := 129024

/-- `FNW_WATCH_COUNT` as a log entry carries it: 0 before RUNNING (Table 16-10). -/
def logWatch (s : State) : Nat :=
  if s.glb.dev = .running ∨ s.glb.dev = .draining ∨ s.glb.dev = .fault ∨ s.glb.dev = .hold then regNat s watchCount else 0

/-- A log entry written (R402, R403): SEQ s goes to bank s mod 2 at the bank's next position; where that begins a sector, the sector is
erased first. -/
def logEvent (s : State) (code source sev : Nat) (data : List Byte) : State :=
  let g := s.sage
  let seq := g.logSeq + 1
  let bank := seq % 2
  let pos := sget 0 g.logNext bank
  let kept := if pos % 128 = 0 then g.log.filter fun e => !(e.bank == bank && decide (pos ≤ e.pos) && decide (e.pos < pos + 128)) else g.log
  let e : LogEntry := { bank := bank, pos := pos, seq := seq, boot := g.cur.boots, watch := logWatch s, code := code, source := source,
                        sev := sev, data := padTo 12 data }
  { s with sage := { g with log := kept ++ [e], logNext := sset g.logNext bank ((pos + 1) % logSlots), logSeq := seq } }

/-! ## Integrity counters (R353) -/

/-- A UE or AE captured: `kind` 1 UE, 2 AE (R353). -/
def captureErr (s : State) (store kind who addr : Nat) : State :=
  if regBit s (memReg 0x20) 6 then regOr s (memReg 0x20) (2 ^ 5)
  else
    let s := regSet s (memReg 0x24) (BitVec.ofNat 32 (store + kind * 16 + who * 256))
    let s := regSet s (memReg 0x28) (BitVec.ofNat 32 addr)
    regOr (regSet s (memReg 0x2C) (BitVec.ofNat 32 (addr / 2 ^ 32))) (memReg 0x20) (2 ^ 6)

/-- A CE counted (R353). -/
def countCe (s : State) (store : Nat) : State :=
  let s := regCount s (memReg (0x100 + 16 * store)) 1
  let thr := regField s (memReg 0x30) 15 0
  if thr ≠ 0 ∧ thr ≤ regNat s (memReg (0x100 + 16 * store)) then regOr s (memReg 0x20) 1 else s

/-- A UE counted, captured, flagged and recorded in the event log (R353). -/
def countUe (s : State) (store who addr : Nat) : State :=
  let s := logEvent s 0x10 store 2 (toLe 1 store ++ toLe 8 addr)
  captureErr (regOr (regCount s (memReg (0x104 + 16 * store)) 1) (memReg 0x20) 2) store 1 who addr

/-- An AE counted, captured, flagged and recorded in the event log (R353). -/
def countAe (s : State) (store who addr : Nat) : State :=
  let s := logEvent s 0x11 store 2 (toLe 1 store ++ toLe 8 addr)
  captureErr (regOr (regCount s (memReg (0x108 + 16 * store)) 1) (memReg 0x20) 4) store 2 who addr

/-- A poisoned quad of a store consumed (R343). -/
def countPoison (s : State) (store : Nat) : State :=
  regOr (regCount s (memReg (0x10C + 16 * store)) 1) (memReg 0x20) 8

/-! ## Device and host memory -/

/-- Key of a stored quad in the overlay. -/
def quadKey (store f : Nat) : Nat := 2 ^ 64 * store + f

/-- The overlay of a stored quad. -/
def quadState (s : State) (store f : Nat) : QuadState := sget {} s.quads (quadKey store f)

/-- The overlay of a stored quad set; an ordinary quad is not listed. -/
def setQuad (s : State) (store f : Nat) (v : QuadState) : State :=
  { s with quads := if v = {} then sdel s.quads (quadKey store f) else sset s.quads (quadKey store f) v }

/-- Usable LPDDR5X bytes (R340). -/
def usable (s : State) : Nat := regNat s (memReg 4) + 2 ^ 32 * regNat s (memReg 8)

/-- The store of a device address (Table 14-4), and the end of its region. -/
def storeOf (s : State) (a : Nat) : Option (Nat × Nat) :=
  if a < usable s then some (0, usable s)
  else if Config.sramBase ≤ a ∧ a < Config.sramBase + Config.sramSize then some (1, Config.sramBase + Config.sramSize)
  else if Config.hedgeScratchBase ≤ a ∧ a < Config.hedgeScratchBase + 16 * Config.hedgeScratchSize then
    some (2, Config.hedgeScratchBase + 16 * Config.hedgeScratchSize)
  else if Config.rxuScratchBase ≤ a ∧ a < Config.rxuScratchBase + 4 * Config.rxuScratchSize then
    some (3, Config.rxuScratchBase + 4 * Config.rxuScratchSize)
  else none

/-- A range lies wholly in mapped device memory (R338). -/
def mapped (s : State) (a len : Nat) : Bool :=
  match storeOf s a with
  | some (_, e) => decide (a + len ≤ e)
  | none => false

/-- The address names host memory (R222). -/
def isHost (a : Nat) : Bool := bitOf a 63

/-- The four windows of an aperture set (R245), as (base, size). -/
def windows (s : State) (n : Nat) : List (Nat × Nat) :=
  (List.range 4).map fun w =>
    (2 ^ 32 * regField s (aprReg n w 4) 30 0 + 4096 * regField s (aprReg n w 0) 31 12,
     2 ^ 32 * regField s (aprReg n w 12) 30 0 + 4096 * regField s (aprReg n w 8) 31 12)

/-- Whose accesses they are, and the windows that bound them (R223): a queue, with its aperture set's windows as they stood when the start
checks of the command began. -/
structure Reach where
  q : Nat := 0
  wins : List (Nat × Nat) := []
  deriving DecidableEq, Repr

/-- What a queue may reach now; a kernel queue has no windows. -/
def reachNow (s : State) (q : Nat) : Reach := { q := q, wins := if q < 64 then [] else windows s (regField s (qfeReg q 0x10) 15 8) }

/-- A range is in reach (R223, R338): a host range; mapped device memory for a kernel queue; and inside one of the windows for the
others. -/
def reaches (s : State) (o : Reach) (a len : Nat) : Bool :=
  if len = 0 then true
  else if isHost a then decide (a + len ≤ 2 ^ 64)
  else mapped s a len && (decide (o.q < 64) || o.wins.any fun w => decide (w.1 ≤ a) && decide (a + len ≤ w.1 + w.2))

/-- The device may issue no request to the host (R410). -/
def hostBlocked (s : State) : Bool := !s.hif.bme || s.hif.d3hot

/-- The PASID a queue's host requests carry (R411). -/
def pasidOf (s : State) (q : Nat) : Option Nat :=
  if regBit s (qfeReg q 0x20) 20 then some (regField s (qfeReg q 0x20) 19 0) else none

/-- The translation cached for a page. -/
def cached (s : State) (p : Option Nat) (page : Nat) : Option AtsEntry :=
  s.hif.cache.find? fun e => e.pasid == p && e.page == page

/-- What the host side says of an access of `len` bytes at host address `a`: the translated addresses of its pages to go on, a
wait (R410, or a translation not yet answered), or a refusal (R412). -/
inductive HostSide where
  | go (pages : List (Nat × Nat)) | wait (asked : List AtsEntry) | refused
  deriving DecidableEq, Repr

/-- R410 to R412 for one host access. -/
def hostSide (s : State) (q a len : Nat) (write : Bool) : HostSide :=
  if hostBlocked s then .wait []
  else if !s.hif.ats then .go []
  else
    let p := pasidOf s q
    let first := a / 4096
    let pages := (List.range (cdiv (a % 4096 + len) 4096)).map (first + ·)
    let es := pages.map fun g => (g, cached s p g)
    match es.find? fun e => e.2.isNone with
    | some e => .wait [{ pasid := p, page := e.1 }]
    | none =>
      if es.all fun e => match e.2 with
        | some { grant := some g, .. } => if write then g.2.2 else g.2.1
        | _ => false
      then .go (es.map fun e => (e.1, match e.2 with | some { grant := some g, .. } => g.1 | _ => e.1))
      else .refused

/-- The command in hand waits for the host (R410, R412); the translations it needs are asked for once. -/
def askPages (s : State) (asked : List AtsEntry) : State :=
  { s with hostWait := true, hif := { s.hif with asked := s.hif.asked ++ asked.filter fun e => !s.hif.asked.contains e } }

/-- A translation was refused (R412): XLATE is set, and a refusal is not kept. -/
def xlate (s : State) : State :=
  regOr { s with hif := { s.hif with cache := s.hif.cache.filter fun e => e.grant.isSome } } (hifReg 4) 4

/-- A host byte address after translation. -/
def hostByte (pages : List (Nat × Nat)) (a : Nat) : Nat :=
  match pages.find? fun e => e.1 == a / 4096 with
  | some e => e.2 * 4096 + a % 4096
  | none => a

/-- What a read delivers: the bytes, whether any quad is poisoned (and which, by index from the first), and a refusal (R223, R412). -/
structure Rd where
  bytes : List Byte := []
  bad : List Nat := []
  ap : Bool := false
  deriving DecidableEq, Repr

/-- Any quad read was poisoned. -/
def Rd.poison (r : Rd) : Bool := !r.bad.isEmpty

/-- The data bits of a quad are all 0. -/
def quadZero (s : State) (a : Nat) : Bool := (mread s.mem (a / 16 * 16) 16).all (· == 0)

/-- The data of a stored quad changed by an undetected error pattern (bits 18 to 145). -/
def flipQuad (s : State) (a : Nat) (err : Nat) : State :=
  let d := le (mread s.mem a 16) ^^^ (err / 2 ^ 18 % 2 ^ 128)
  { s with mem := mwrite s.mem a (toLe 16 d) }

/-- What the stored quad decodes to with its residual error. -/
def residualOf (v : QuadState) : Nat :=
  match decodePattern v.err.toNat v.adx.toNat with
  | .good r => r
  | .corrected r => r
  | _ => 0

/-- One quad of device memory at `a` (16-byte aligned), read by requester `who` (R336, R343): counters, poison written back for a
UE, and whether it is delivered poisoned. `use_` says the reader consumes what it reads. -/
def readQuad (s : State) (who a : Nat) : State × Bool :=
  match storeOf s a with
  | none => (s, false)
  | some (store, _) =>
    let f := a / 16
    let v := quadState s store f
    if v = {} then (s, false)
    else
      match classify v.poison (quadZero s a) v.err.toNat v.adx.toNat with
      | .clean => (s, false)
      | .poisoned => (countPoison s store, true)
      | .ce p => let s := countCe s store; if p then (countPoison s store, true) else (s, false)
      | .ue =>
        let s := countUe s store who a
        let s := setQuad { s with mem := mwrite s.mem a (List.replicate 16 0) } store f { poison := true }
        (countPoison s store, true)
      | .ae => (countPoison (countAe s store who a) store, true)

/-- The quads of a range read one after another; the indices of those delivered poisoned. -/
def readQuads (s : State) (who : Nat) : List Nat → State × List Nat
  | [] => (s, [])
  | a :: t =>
    let r := readQuad s who a
    let r2 := readQuads r.1 who t
    (r2.1, if r.2 then a :: r2.2 else r2.2)

/-- The data bytes a range of device memory delivers: stored bytes, with a residual error's bits changed. -/
def deviceBytes (s : State) (a len : Nat) : List Byte :=
  (List.range len).map fun i =>
    let b := mget s.mem (a + i)
    if s.quads.isEmpty then b
    else
      match storeOf s (a + i) with
      | none => b
      | some (store, _) =>
        let v := quadState s store ((a + i) / 16)
        if v = {} then b else b ^^^ BitVec.ofNat 8 (residualOf v / 2 ^ (18 + 8 * ((a + i) % 16)))

/-- The quads of device memory that a range touches and that the overlay lists. -/
def oddQuads (s : State) (a len : Nat) : List Nat :=
  (s.quads.map fun e => e.1 % 2 ^ 64 * 16).filter fun b => decide (b < a + len) && decide (a < b + 16)

/-- A read of `len` bytes at address `a` for queue `q` by requester `who` (R222, R336, R343, R410 to R413). A quad delivered as poisoned
has data 0 (R336). -/
def readMem (s : State) (q who a len : Nat) : State × Rd :=
  if isHost a then
    let h := a % 2 ^ 63
    match hostSide s q h len false with
    | .wait asked => (askPages s asked, {})
    | .refused => (xlate s, { ap := true })
    | .go pages =>
      let bs := (List.range len).map fun i => mget s.host (hostByte pages (h + i))
      let bad := (s.hostPoison.filter fun b => (List.range len).any fun i => hostByte pages (h + i) / 16 * 16 == b)
      let bs := if bad.isEmpty then bs else
        (List.zip (List.range len) bs).map fun e => if bad.contains (hostByte pages (h + e.1) / 16 * 16) then 0 else e.2
      (if bad.isEmpty then s else regOr (regOr s (memReg 0x20) 8) (hifReg 4) 8, { bytes := bs, bad := bad })
  else if !mapped s a len then (s, { ap := true })
  else
    let bs := deviceBytes s a len
    let r := readQuads s who (oddQuads s a len)
    let bs := if r.2.isEmpty then bs else
      (List.zip (List.range len) bs).map fun e => if r.2.contains ((a + e.1) / 16 * 16) then 0 else e.2
    (r.1, { bytes := bs, bad := r.2 })

/-- A partial write of one quad (R342): `bs` at offset `off` of the quad at `a`. -/
def mergeQuad (s : State) (who a off : Nat) (bs : List Byte) : State :=
  match storeOf s a with
  | none => s
  | some (store, _) =>
    let f := a / 16
    let v := quadState s store f
    let put := fun (t : State) => setQuad { t with mem := mwrite t.mem (a + off) bs } store f {}
    if v = {} then { s with mem := mwrite s.mem (a + off) bs }
    else
      match classify v.poison (quadZero s a) v.err.toNat v.adx.toNat with
      | .clean => put (flipQuad s a (residualOf v))
      | .ce false => put (flipQuad (countCe s store) a (residualOf v))
      | .poisoned => s
      | .ce true => countCe s store
      | .ue => setQuad { (countUe s store who a) with mem := mwrite s.mem a (List.replicate 16 0) } store f { poison := true }
      | .ae => setQuad { (countAe s store who a) with mem := mwrite s.mem a (List.replicate 16 0) } store f { poison := true }

/-- Device bytes written quad by quad: whole quads replace (R342), parts merge. `n` bounds the number of quads. -/
def writeDevice (who : Nat) : Nat → State → Nat → List Byte → State
  | 0, s, _, _ => s
  | n + 1, s, a, bs =>
    if bs.isEmpty then s
    else
      let off := a % 16
      let k := min (16 - off) bs.length
      let s :=
        if off = 0 ∧ k = 16 then
          match storeOf s a with
          | some (store, _) => setQuad { s with mem := mwrite s.mem a (bs.take 16) } store (a / 16) {}
          | none => s
        else mergeQuad s who (a - off) off (bs.take k)
      writeDevice who n s (a + k) (bs.drop k)

/-- A write of bytes at address `a` for queue `q` (R222, R342, R410 to R412); the Bool says it was refused. -/
def writeMem (s : State) (q who a : Nat) (bs : List Byte) : State × Bool :=
  if bs.isEmpty then (s, false)
  else if isHost a then
    let h := a % 2 ^ 63
    match hostSide s q h bs.length true with
    | .wait asked => (askPages s asked, false)
    | .refused => (xlate s, true)
    | .go pages =>
      let m := (List.zip (List.range bs.length) bs).foldl (fun m e => mset m (hostByte pages (h + e.1)) e.2) s.host
      let whole := fun b => (List.range 16).all fun j => (List.range bs.length).any fun i => hostByte pages (h + i) == b + j
      ({ s with host := m, hostPoison := s.hostPoison.filter fun b => !whole b }, false)
  else if !mapped s a bs.length then (s, true)
  else (writeDevice who (bs.length / 16 + 2) s a bs, false)

/-- Quads written poisoned from address `a` (P = 1, d = 0): in place in device memory; to the host as a poisoned write request,
whose poison the host keeps or not (R413, free). -/
def writePoison : Nat → State → (q a : Nat) → State × Bool
  | 0, s, _, _ => (s, false)
  | n + 1, s, q, a =>
    let r : State × Bool :=
      if isHost a then
        let r := writeMem s q 0 a (List.replicate 16 0)
        let keep := Config.hostKeepsPoison r.1.freeTick
        let t := { r.1 with freeTick := r.1.freeTick + 1 }
        match hostSide s q (a % 2 ^ 63) 16 true with
        | .go pages => (if keep then { t with hostPoison := t.hostPoison ++ [hostByte pages (a % 2 ^ 63)] } else t, r.2)
        | _ => (r.1, r.2)
      else
        match storeOf s a with
        | some (store, _) =>
          (setQuad { s with mem := mwrite s.mem (a / 16 * 16) (List.replicate 16 0) } store (a / 16) { poison := true }, false)
        | none => (s, true)
    let r2 := writePoison n r.1 q (a + 16)
    (r2.1, r.2 || r2.2)

/-! ## MSI-X (R415) -/

/-- A vector raised: the message is sent, or held pending while the vector, the function or the link holds it back. -/
def raiseVec (s : State) (v : Nat) : State :=
  let e := sget ({} : MsixEntry) s.hif.table v
  if e.masked || s.hif.funcMask || hostBlocked s then
    (if s.hif.pba.contains v then s else { s with hif := { s.hif with pba := s.hif.pba ++ [v] } })
  else { s with hif := { s.hif with msgs := s.hif.msgs ++ [(e.addr, e.data)] } }

/-- The pending messages that may go now are sent, one for each vector (R415). -/
def flushVecs (s : State) : State :=
  if s.hif.funcMask || hostBlocked s then s
  else
    let ready := s.hif.pba.filter fun v => !(sget ({} : MsixEntry) s.hif.table v).masked
    let out := ready.map fun v => let e := sget ({} : MsixEntry) s.hif.table v; (e.addr, e.data)
    { s with hif := { s.hif with msgs := s.hif.msgs ++ out, pba := s.hif.pba.filter fun v => !ready.contains v } }

/-- A queue's vector raised (R241, R262). -/
def raiseQueue (s : State) (q : Nat) : State := raiseVec s (regField s (qfeReg q 0x1C) 10 0)

/-! ## Power tokens (R387 to R389) -/

/-- The size of a claim of nominal cost `c` (R388). -/
def claimSize (s : State) (c : Nat) : Nat := cdiv (c * s.pwr.factor) 256

/-- The owner holds its claim. -/
def holds (s : State) (owner : Nat) : Bool := s.pwr.held.any (·.owner == owner)

/-- The book may grant a new claim of this class at once (R389, R398): no claim is ahead of it, and no rail holds grants back. -/
def noneAhead (s : State) (recv : Bool) : Bool :=
  !s.pwr.brownout && !s.pwr.regCond && (if recv then !s.pwr.waiting.any (·.recv) else s.pwr.waiting.isEmpty && !s.pwr.crit)

/-- A claim asked for (R26, R389): held already; granted at once when nothing is ahead of it and the pool meets it; otherwise it
waits. The Bool says whether the owner holds it. -/
def askTokens (s : State) (owner : Nat) (recv : Bool) (c : Nat) : State × Bool :=
  if holds s owner then (s, true)
  else if s.pwr.waiting.any (·.owner == owner) then (s, false)
  else
    let k : Claim := { owner := owner, recv := recv, nom := c, cost := claimSize s c }
    if noneAhead s recv && decide (k.cost ≤ s.pwr.pool) && decide (s.pwr.leakOwed + s.pwr.rxOwed = 0) then
      ({ s with pwr := { s.pwr with pool := s.pwr.pool - k.cost, held := s.pwr.held ++ [k] } }, true)
    else ({ s with pwr := { s.pwr with waiting := s.pwr.waiting ++ [k] } }, false)

/-- Where the budget is to settle (R390, R391). -/
def budgetGoal (s : State) : Nat := match s.pwr.clampTo with | some m => m | none => regField s (pwrReg 0) 9 0

/-- Tokens come back (R388, R390): first a leakage increase or a permanent holding still owed, then a cut in progress retires what it
needs, and the rest enters the pool. -/
def returnTokens (s : State) (n : Nat) : State :=
  let l := min n s.pwr.leakOwed
  let x := min (n - l) s.pwr.rxOwed
  let n1 := n - l - x
  let r := min n1 (s.pwr.effective - budgetGoal s)
  { s with pwr := { s.pwr with leakOwed := s.pwr.leakOwed - l, leak := s.pwr.leak + l, rxOwed := s.pwr.rxOwed - x, rx := s.pwr.rx + x,
                               effective := s.pwr.effective - r, pool := s.pwr.pool + (n1 - r) } }

/-- The owner's unit ends: its claim is returned whole, and a claim still waiting is withdrawn. Sage's top-up is released once
every claim granted before the voltage step has returned (R386). -/
def dropTokens (s : State) (owner : Nat) : State :=
  let cost := ((s.pwr.held.filter (·.owner == owner)).map (·.cost)).sum
  let had := s.pwr.held.any (·.owner == owner)
  let s1 := { s with pwr := { s.pwr with held := s.pwr.held.filter (·.owner != owner),
                                         waiting := s.pwr.waiting.filter (·.owner != owner) } }
  let s2 := returnTokens s1 cost
  if had ∧ s2.pwr.topup ≠ 0 then
    let os := s2.pwr.topupOwners.filter (· != owner)
    if os.isEmpty then returnTokens { s2 with pwr := { s2.pwr with topup := 0, topupOwners := [] } } s2.pwr.topup
    else { s2 with pwr := { s2.pwr with topupOwners := os } }
  else s2

/-- Owner codes of claims: hedge steps, array loads, output units, and the single engines. -/
def ownStep (h : Nat) : Nat := h
/-- A load of global array n. -/
def ownLoad (n : Nat) : Nat := 100 + n
/-- The output unit of hedge h. -/
def ownOut (h : Nat) : Nat := 300 + h
/-- The data mover. -/
def ownMover : Nat := 400
/-- Engine e (0 matrix, 1 vector, 2 FFT, 3 trellis) of unit u. -/
def ownEngine (u e : Nat) : Nat := 500 + 4 * u + e

end Sys2Proof.Machine
end

