-- ==== Sys2Proof/Machine/Image.lean ====
section
/-! DEFINITION. Schema descriptors (R60, R61, Table 3-4), array images with their load checks (R46 to R54, Table 2-8), and one
search of an array (R28 to R43, R68 to R71). -/

namespace Sys2Proof.Machine

/-- A schema feature entry (Table 3-3). -/
structure Feature where
  off : Nat
  fmt : Nat
  valid : Bool
  raw : Nat
  deriving DecidableEq, Repr

/-- A schema descriptor (Table 3-2). -/
structure Schema where
  id : Nat
  size : Nat
  feats : List Feature
  deriving DecidableEq, Repr

/-- Presence bitmap bytes for a number of features (R57). -/
def presBytes (features : Nat) : Nat := 16 * cdiv features 128

/-- Size of a feature in bytes by its code; 0 for a code no feature may have. -/
def featSize (fmt : Nat) : Nat :=
  if fmt ≤ 10 then (match Fmt.ofCode fmt with | some f => f.size | none => 0) else 0

/-- A schema feature entry read from its word. -/
def featureOf (w : Nat) : Feature := { off := fieldOf w 15 0, fmt := fieldOf w 19 16, valid := bitOf w 31, raw := w }

/-- The ranges of two features overlap. -/
def featOverlap (a b : Feature) : Bool :=
  decide (a.off < b.off + featSize b.fmt) && decide (b.off < a.off + featSize a.fmt)

/-- No two features of a list overlap. -/
def noOverlap : List Feature → Bool
  | [] => true
  | f :: t => t.all (fun g => !featOverlap f g) && noOverlap t

/-- The Feature entries check of Table 3-4. -/
def featuresOk (n size : Nat) (fs : List Feature) : Bool :=
  (fs.all fun f =>
    if f.valid then
      decide (f.fmt ≤ 10) && fieldOf f.raw 30 20 == 0 && decide (0 < featSize f.fmt) && f.off % featSize f.fmt == 0 &&
      decide (16 + presBytes n ≤ f.off) && decide (f.off + featSize f.fmt ≤ size)
    else f.raw == 0) && noOverlap (fs.filter (·.valid))

/-- The FEATURES count of a descriptor header. -/
def schemaFeatures (hdr : List Byte) : Nat := leAt hdr 6 2

/-- Bytes of a descriptor with that count, padding included (R60). -/
def schemaBytes (n : Nat) : Nat := alignUp (16 + 4 * n) 16

/-- A schema descriptor from its bytes, where it passes the Descriptor and Feature entries checks of Table 3-4. -/
def parseSchema (bs : List Byte) : Option Schema :=
  let n := schemaFeatures bs
  let size := leAt bs 12 2
  let fs := (List.range n).map fun i => featureOf (leAt bs (16 + 4 * i) 4)
  if leAt bs 0 4 = 0x4D484353 ∧ leAt bs 4 2 = 1 ∧ 1 ≤ n ∧ n ≤ 1024 ∧ size % 16 = 0 ∧ 32 ≤ size ∧ size ≤ 8192 ∧
     leAt bs 14 2 = 0 ∧ allZero (sub bs (16 + 4 * n) (schemaBytes n - (16 + 4 * n))) ∧ featuresOk n size fs then
    some { id := leAt bs 8 4, size := size, feats := fs }
  else none

/-- What reading a structure a command names gives: the structure, or the status it ends with. -/
inductive Got (α : Type) where
  | ok (a : α)
  | stop (st : St)
  deriving Repr

/-- A structure of `len` bytes, aligned to `align`, in device or host memory (R222, R223, Table 14-6). -/
def readAny (s : State) (o : Reach) (who a len align : Nat) : State × Got (List Byte) :=
  if a % align ≠ 0 then (s, .stop .format)
  else if !reaches s o a len then (s, .stop .aperture)
  else
    let r := readMem s o.q who a len
    if r.2.ap then (r.1, .stop .aperture)
    else if r.2.poison then (r.1, .stop .integrity)
    else (r.1, .ok r.2.bytes)

/-- A structure that a chapter places in device memory: a host address is refused (R222). -/
def readStruct (s : State) (o : Reach) (who a len align : Nat) : State × Got (List Byte) :=
  if isHost a then (s, .stop .format) else readAny s o who a len align

/-- A schema descriptor read and checked (R61): its bytes, as the reader keeps them. -/
def readSchemaRaw (s : State) (o : Reach) (who a : Nat) : State × Got (List Byte) :=
  match readStruct s o who a 16 64 with
  | (s1, .stop st) => (s1, .stop st)
  | (s1, .ok hdr) =>
    let n := schemaFeatures hdr
    if n = 0 ∨ 1024 < n then (s1, .stop .format)
    else
      match readStruct s1 o who a (schemaBytes n) 64 with
      | (s2, .stop st) => (s2, .stop st)
      | (s2, .ok bs) => (s2, if (parseSchema bs).isSome then .ok bs else .stop .format)

/-- A schema descriptor read and checked (R61). -/
def readSchema (s : State) (o : Reach) (who a : Nat) : State × Got Schema :=
  match readSchemaRaw s o who a with
  | (s1, .stop st) => (s1, .stop st)
  | (s1, .ok bs) => match parseSchema bs with
    | some sch => (s1, .ok sch)
    | none => (s1, .stop .format)

/-- Feature i of a schema, where valid (R61). -/
def Schema.feat (sch : Schema) (i : Nat) : Option Feature :=
  match sch.feats[i]? with
  | some f => if f.valid then some f else none
  | none => none

/-! ## Array images -/

/-- Rows of a shape (Table 2-3). -/
def shapeRows (sh : Nat) : Nat := if sh = 0 then 4096 else if sh = 1 then 2048 else 1024
/-- Cells per row of a shape (Table 2-3). -/
def shapeWidth (sh : Nat) : Nat := if sh = 0 then 512 else if sh = 1 then 1024 else 2048
/-- Segments of a shape (Table 2-3). -/
def shapeSegs (sh : Nat) : Nat := if sh = 0 then 256 else if sh = 1 then 128 else 64
/-- Bytes of a row entry (Table 2-3). -/
def shapeRowBytes (sh : Nat) : Nat := shapeWidth sh / 4

/-- The never-match row of a shape: cell width - 1 cared with value 1 (R39). -/
def neverRow (sh : Nat) : BitVec 2048 × BitVec 2048 :=
  let b := BitVec.ofNat 2048 (2 ^ (shapeWidth sh - 1))
  (b, b)

/-- The row planes of a row entry's bytes (R51): cell groups of a 64-byte value plane and a 64-byte care plane. -/
def rowPlanes (sh : Nat) (bs : List Byte) : BitVec 2048 × BitVec 2048 :=
  let gs := List.range (shapeWidth sh / 512)
  let v := gs.foldl (fun a g => a + leAt bs (128 * g) 64 * 2 ^ (512 * g)) 0
  let c := gs.foldl (fun a g => a + leAt bs (128 * g + 64) 64 * 2 ^ (512 * g)) 0
  (BitVec.ofNat 2048 v, BitVec.ofNat 2048 c)

/-- Row `r` holds a leaf of the segment (R40, R41). -/
def segLeafRow (wide : Bool) (g : Segment) (r : Nat) : Bool :=
  decide (g.first ≤ r) &&
    (if wide then (r - g.first) % 2 == 0 && decide ((r - g.first) / 2 < g.leaves) else decide (r - g.first < g.leaves))

/-- Row `r` holds a leaf of some segment. -/
def leafRow (wide : Bool) (segs : List Segment) (r : Nat) : Bool :=
  segs.any fun g => segLeafRow wide g r && decide (r < g.first + g.rows)

/-- The Segments check of Table 2-8: each entry obeys R40 or R41 and entries ascend without overlap from row `lo`. -/
def segsOk (wide : Bool) (limit : Nat) : Nat → List Segment → Bool
  | _, [] => true
  | lo, g :: t =>
    g.first % 16 == 0 && g.rows % 16 == 0 && decide (16 ≤ g.rows) && decide (1 ≤ g.leaves) &&
    decide (g.leaves ≤ if wide then g.rows / 2 else g.rows) && decide (lo ≤ g.first) && decide (g.first + g.rows ≤ limit) &&
    segsOk wide limit (g.first + g.rows) t

/-- A segment table entry from its 16 bytes (Table 2-6). -/
def segOf (bs : List Byte) : Segment :=
  { first := leAt bs 0 2, rows := leAt bs 2 2, leaves := leAt bs 4 2, tree := BitVec.ofNat 32 (leAt bs 8 4) }

/-- A comparator table entry from its word (Table 2-7). -/
def compOf (w : Nat) : Comparator :=
  { thresh := BitVec.ofNat 32 w, feature := fieldOf w 41 32, fmt := fieldOf w 45 42, kind := fieldOf w 47 46,
    dflt := bitOf w 48, setIx := fieldOf w 54 49 }

/-- The Comparators check of Table 2-8 on one entry, FEATURE and SET_INDEX uniqueness apart. -/
def compOk (sets : Nat) (w : Nat) : Bool :=
  let c := compOf w
  let t := c.thresh.toNat
  bitOf w 63 && fieldOf w 62 55 == 0 &&
  (if c.kind = 1 then decide (c.fmt ≤ 4) && decide (1 ≤ t) && decide (t ≤ 4096) && decide (c.setIx < sets)
   else decide (c.fmt ≤ 9) && c.setIx == 0 &&
    (if c.kind = 0 then
      decide (t < 2 ^ (8 * featSize c.fmt)) &&
      (match Fmt.ofCode c.fmt with | some f => !(decodeVal f t).isNan | none => false)
     else t == 0))

/-- The header fields of an image (Table 2-5) that place its sections. -/
structure ImgHdr where
  shape : Nat
  wide : Nat
  segs : Nat
  comps : Nat
  sets : Nat
  outIx : Nat
  model : Nat
  schema : Nat
  scale : Nat
  segOff : Nat
  cmpOff : Nat
  setOff : Nat
  rowOff : Nat
  leafOff : Nat
  total : Nat
  check : Nat
  deriving DecidableEq, Repr

/-- The header from its 64 bytes. -/
def hdrOf (b : List Byte) : ImgHdr :=
  { shape := leAt b 8 1, wide := leAt b 9 1, segs := leAt b 10 2, comps := leAt b 12 2, sets := leAt b 14 1,
    outIx := leAt b 15 1, model := leAt b 16 4, schema := leAt b 20 4, scale := leAt b 24 2, segOff := leAt b 0x1C 4,
    cmpOff := leAt b 0x20 4, setOff := leAt b 0x24 4, rowOff := leAt b 0x28 4, leafOff := leAt b 0x2C 4,
    total := leAt b 0x30 4, check := leAt b 0x34 4 }

/-- The Identity check, and the reserved header bytes (Table 2-8). -/
def identityOk (b : List Byte) : Bool :=
  leAt b 0 4 == 0x4D495241 && leAt b 4 2 == 2 && leAt b 6 2 == 64 && leAt b 0x1A 2 == 0 && leAt b 0x38 8 == 0

/-- The Shape, Counts and Sections checks of Table 2-8. SEGMENTS 0 is refused, and an empty section may begin anywhere in its order
(DESIGN CHOICE, log 60). -/
def sectionsOk (shape : Nat) (h : ImgHdr) : Bool :=
  h.shape == shape && decide (h.wide ≤ 1) && decide (1 ≤ h.segs) && decide (h.segs ≤ shapeSegs shape) &&
  decide (h.comps ≤ shapeWidth shape - 1) && decide (h.sets ≤ 56) &&
  h.segOff % 64 == 0 && h.cmpOff % 64 == 0 && h.setOff % 64 == 0 && h.rowOff % 64 == 0 && h.leafOff % 64 == 0 &&
  decide (64 ≤ h.segOff) && decide (h.segOff + 16 * h.segs ≤ h.cmpOff) && decide (h.cmpOff + 8 * h.comps ≤ h.setOff) &&
  decide (h.setOff + 512 * h.sets ≤ h.rowOff) && decide (h.rowOff + shapeRows shape * shapeRowBytes shape ≤ h.leafOff) &&
  h.total == alignUp (h.leafOff + 16 * shapeRows shape) 64

/-- Every gap byte is 0 (R46, the Reserved check). -/
def gapsOk (h : ImgHdr) (b : List Byte) : Bool :=
  allZero (sub b 64 (h.segOff - 64)) &&
  allZero (sub b (h.segOff + 16 * h.segs) (h.cmpOff - (h.segOff + 16 * h.segs))) &&
  allZero (sub b (h.cmpOff + 8 * h.comps) (h.setOff - (h.cmpOff + 8 * h.comps))) &&
  allZero (sub b (h.setOff + 512 * h.sets) (h.rowOff - (h.setOff + 512 * h.sets))) &&
  allZero (sub b (h.rowOff + shapeRows h.shape * shapeRowBytes h.shape)
    (h.leafOff - (h.rowOff + shapeRows h.shape * shapeRowBytes h.shape))) &&
  allZero (sub b (h.leafOff + 16 * shapeRows h.shape) (h.total - (h.leafOff + 16 * shapeRows h.shape)))

/-- The Rows check of Table 2-8 on one row. -/
def rowOk (sh comps : Nat) (leaf : Bool) (p : BitVec 2048 × BitVec 2048) : Bool :=
  let w := shapeWidth sh
  let top := 2 ^ (w - 1)
  let v := p.1.toNat
  let c := p.2.toNat
  if leaf then v &&& (v ^^^ c) == 0 && c / 2 ^ comps % 2 ^ (w - 1 - comps) == 0 && bitOf c (w - 1) && !bitOf v (w - 1)
  else v == top && c == top

/-- The Leaf table check of Table 2-8 on one entry. -/
def leafOk (wide leaf : Bool) (v : Nat) : Bool :=
  if !leaf then v == 0 else wide || unsigned 128 (signed 64 v) == v

/-- The contents of the rows, read and checked from row `r` on; none where a row or its leaf entry is refused. -/
def rowsOf (h : ImgHdr) (segs : List Segment) : Nat → Nat → List Byte → List Byte →
    Option (SMap (BitVec 2048 × BitVec 2048) × SMap (BitVec 128))
  | 0, _, _, _ => some ([], [])
  | n + 1, r, rb, lb =>
    let p := rowPlanes h.shape rb
    let v := le (lb.take 16)
    let leaf := leafRow (h.wide == 1) segs r
    if rowOk h.shape h.comps leaf p && leafOk (h.wide == 1) leaf v then
      match rowsOf h segs n (r + 1) (rb.drop (shapeRowBytes h.shape)) (lb.drop 16) with
      | none => none
      | some (rs, ls) =>
        some (if leaf then (r, p) :: rs else rs, if v = 0 then ls else (r, BitVec.ofNat 128 v) :: ls)
    else none

/-- The checks of Table 2-8 on a whole image's bytes, poison and Schema apart; `sch` is the schema descriptor read at load (none
for a COPY's TARGET 1 load, R61). The contents where every check passes. -/
def parseImage (shape : Nat) (sch : Option Schema) (b : List Byte) : Option ArrImage :=
  let h := hdrOf b
  if !(identityOk b && sectionsOk shape h && b.length == h.total && gapsOk h b && crc32 (b.drop 64) == h.check) then none
  else
    let sgs := (List.range h.segs).map fun i => segOf (sub b (h.segOff + 16 * i) 16)
    let segPad := (List.range h.segs).all fun i => leAt b (h.segOff + 16 * i + 6) 2 == 0 && leAt b (h.segOff + 16 * i + 12) 4 == 0
    let cws := (List.range h.comps).map fun i => leAt b (h.cmpOff + 8 * i) 8
    let cs := cws.map compOf
    let setCs := cs.filter (·.kind == 1)
    let bms := (List.range h.sets).map fun i => BitVec.ofNat 4096 (leAt b (h.setOff + 512 * i) 512)
    let featsFit := match sch with
      | none => true
      | some d => h.schema == d.id && cs.all fun c => (d.feat c.feature).isSome
    let setsFit := setCs.all fun c => (nth 0 bms c.setIx).toNat / 2 ^ c.thresh.toNat == 0
    if segPad && segsOk (h.wide == 1) (shapeRows shape) 0 sgs && cws.all (compOk h.sets) &&
       setCs.length == h.sets && allDistinct (setCs.map (·.setIx)) && featsFit && setsFit then
      match rowsOf h sgs (shapeRows shape) 0 (b.drop h.rowOff) (b.drop h.leafOff) with
      | none => none
      | some (rs, ls) =>
        some { shape := shape, wide := h.wide == 1, outIx := h.outIx, model := BitVec.ofNat 32 h.model,
               schema := BitVec.ofNat 32 h.schema, scale := signed 16 h.scale, segs := sgs, comps := cs, sets := bms,
               rows := rs, leaves := ls }
    else none

/-! ## Keys and matches -/

/-- The value word of feature i of a record where its presence bit is set (R57, R58). -/
def featureWord (sch : Schema) (rec : List Byte) (i : Nat) : Option (Nat × Nat) :=
  match sch.feat i with
  | none => none
  | some f => if bitOf (leAt rec (16 + i / 8) 1) (i % 8) then some (f.fmt, leAt rec f.off (featSize f.fmt)) else none

/-- The key bit of a comparator (R29, R30, R32, R35, R68, R69). -/
def keyBit (sets : List (BitVec 4096)) (c : Comparator) (w : Option Nat) : Bool :=
  match w, Fmt.ofCode c.fmt with
  | some x, some f =>
    let v := decodeVal f x
    if v.isNan then c.dflt
    else if c.kind = 0 then valGe v (decodeVal f c.thresh.toNat)
    else if c.kind = 1 then
      let k := intCode f x
      if k < 0 ∨ (c.thresh.toNat : Int) ≤ k then c.dflt else (nth 0 sets c.setIx).getLsbD k.toNat
    else c.kind == 3
  | _, _ => c.dflt

/-- The key of a record on an image, as a number with key bit i at bit i (R34). -/
def keyOf (sch : Schema) (im : ArrImage) (rec : List Byte) : Nat :=
  bitsNat (im.comps.map fun c => keyBit im.sets c ((featureWord sch rec c.feature).map (·.2)))

/-- A row matches a key (R37). -/
def rowMatches (p : BitVec 2048 × BitVec 2048) (key : Nat) : Bool := (p.1.toNat ^^^ key) &&& p.2.toNat == 0

/-- The stored row r of an array with the stored-bit errors `errs` of its match rows in place. -/
def rowStored (im : ArrImage) (errs : SMap (Nat × Nat)) (r : Nat) : BitVec 2048 × BitVec 2048 :=
  let p := sget (neverRow im.shape) im.rows r
  let e := sget ((0, 0) : Nat × Nat) errs r
  (BitVec.ofNat 2048 (p.1.toNat ^^^ e.1), BitVec.ofNat 2048 (p.2.toNat ^^^ e.2))

/-- The rows that match a key: listed rows, and rows whose stored bits err. -/
def matchRows (im : ArrImage) (errs : SMap (Nat × Nat)) (key : Nat) : List Nat :=
  ((im.rows.map (·.1)).filter fun r => !shas errs r && rowMatches (sget (neverRow im.shape) im.rows r) key) ++
  ((errs.map (·.1)).filter fun r => rowMatches (rowStored im errs r) key)

/-- The one-hit rule (R42): the matched leaf row of each segment, or none where the search is INTEG. -/
def oneHit (im : ArrImage) (ms : List Nat) : Option (List (Segment × Nat)) :=
  let hits := im.segs.map fun g => (g, ms.filter fun r => decide (g.first ≤ r) && decide (r < g.first + g.rows))
  if ms.length == im.segs.length && hits.all (fun h => match h.2 with | [r] => segLeafRow im.wide h.1 r | _ => false) then
    some (hits.map fun h => (h.1, nth 0 h.2 0))
  else none

/-- The leaf integer of a row's slot (R52, R111). -/
def leafInt (im : ArrImage) (r : Nat) : Int :=
  let v := (sget (0 : BitVec 128) im.leaves r).toNat
  if im.wide then signed 128 v else signed 64 v

/-- One search of an image (R86, steps 1 to 7): each segment's tree and leaf integer, or none for INTEG. -/
def searchImage (sch : Schema) (im : ArrImage) (errs : SMap (Nat × Nat)) (rec : List Byte) : Option (List (Nat × Int × Nat)) :=
  match oneHit im (matchRows im errs (keyOf sch im rec)) with
  | none => none
  | some hs => some (hs.map fun h => (h.1.tree.toNat, leafInt im h.2, h.2))

/-- The Images check of Table 3-4 on one image. -/
def imageFits (sch : Schema) (im : ArrImage) : Bool :=
  im.schema.toNat == sch.id && im.comps.all fun c =>
    match sch.feat c.feature with
    | some f => f.fmt == c.fmt
    | none => false

end Sys2Proof.Machine
end

