-- ==== Sys2Proof/Machine/Slots.lean ====
section
/-! DEFINITION. The 64-byte command slot (R232, R233) and the front end's checks of it in the order of R234. -/

namespace Sys2Proof.Machine

/-- OPCODE. -/
def slotOp (b : List Byte) : Nat := leAt b 0 1
/-- FLAGS.BARRIER. -/
def slotBarrier (b : List Byte) : Bool := bitOf (leAt b 1 1) 0
/-- FLAGS.FETCH_HOLD. -/
def slotFetchHold (b : List Byte) : Bool := bitOf (leAt b 1 1) 1
/-- FLAGS.IRQ. -/
def slotIrq (b : List Byte) : Bool := bitOf (leAt b 1 1) 2
/-- USER. -/
def slotUser (b : List Byte) : Nat := leAt b 8 8
/-- The 8-byte operand at 0x10. -/
def op10 (b : List Byte) : Nat := leAt b 0x10 8
/-- The 8-byte operand at 0x18. -/
def op18 (b : List Byte) : Nat := leAt b 0x18 8
/-- The 8-byte operand at 0x20. -/
def op20 (b : List Byte) : Nat := leAt b 0x20 8
/-- The 8-byte operand at 0x28. -/
def op28 (b : List Byte) : Nat := leAt b 0x28 8
/-- STEP: RECORDS. -/
def stRecords (b : List Byte) : Nat := leAt b 0x30 4
/-- STEP: RSTRIDE. -/
def stRstride (b : List Byte) : Nat := leAt b 0x34 2
/-- STEP and ROTATE: group number. -/
def stGroup (b : List Byte) : Nat := leAt b 0x36 1 % 64
/-- STEP: OPEN. -/
def stOpen (b : List Byte) : Bool := bitOf (leAt b 0x36 1) 6
/-- STEP: CLOSE. -/
def stClose (b : List Byte) : Bool := bitOf (leAt b 0x36 1) 7
/-- STEP: SPAN. -/
def stSpan (b : List Byte) : Nat := leAt b 0x37 1
/-- STEP: HEDGES. -/
def stHedges (b : List Byte) : Nat := leAt b 0x38 2
/-- STEP and ROTATE: RING.REDUCE. -/
def stReduce (b : List Byte) : Bool := bitOf (leAt b 0x3A 1) 0
/-- The 2-byte operand at 0x18 (FENCE, QUEUE, SLOTS). -/
def opB18 (b : List Byte) : Nat := leAt b 0x18 2

/-- The hedges of a mask, ascending. -/
def maskHedges (m : Nat) : List Nat := (List.range 16).filter fun h => bitOf m h

/-- The opcodes of Table 10-8. -/
def knownOps : List Nat := [0, 1, 2, 3, 4, 5, 6, 7, 8, 9, 10, 11, 12, 0x40, 0x41, 0x42, 0x43]

/-- The operand bytes an opcode defines, as (offset, width) (Table 10-8). -/
def opFields (op : Nat) : List (Nat × Nat) :=
  match op with
  | 1 => [(0x10, 8), (0x18, 8), (0x20, 2), (0x22, 1)]
  | 2 => [(0x10, 8), (0x18, 8), (0x20, 8), (0x28, 8), (0x30, 4), (0x34, 2), (0x36, 1), (0x37, 1), (0x38, 2), (0x3A, 1)]
  | 3 => [(0x10, 8), (0x18, 8), (0x20, 8), (0x28, 8), (0x36, 1), (0x3A, 1)]
  | 4 => [(0x10, 8), (0x18, 4)]
  | 5 => [(0x10, 8), (0x18, 2), (0x1A, 1)]
  | 6 => [(0x10, 8), (0x18, 1)]
  | 7 => [(0x10, 8), (0x18, 1)]
  | 8 => [(0x10, 8), (0x18, 2), (0x1A, 1)]
  | 9 => [(0x10, 8), (0x18, 2)]
  | 10 => [(0x10, 8), (0x18, 8), (0x20, 1)]
  | 11 => [(0x10, 8), (0x18, 4)]
  | 12 => [(0x10, 8), (0x18, 2), (0x1A, 2)]
  | 0x40 => [(0x10, 8), (0x18, 2)]
  | 0x41 => [(0x18, 2), (0x1A, 1)]
  | 0x42 => [(0x18, 2), (0x1A, 1)]
  | 0x43 => [(0x10, 8), (0x18, 1)]
  | _ => []

/-- Every operand byte the opcode does not define is 0 (R232). -/
def reservedZero (b : List Byte) : Bool :=
  (List.range 48).all fun i => (opFields (slotOp b)).any (fun f => decide (f.1 ≤ i + 16) && decide (i + 16 < f.1 + f.2)) ||
    leAt b (i + 16) 1 == 0

/-- Operand ranges and alignments (Table 10-8, R233, check step 4 of R234) for queue q. -/
def operandsOk (s : State) (q : Nat) (b : List Byte) : Bool :=
  match slotOp b with
  | 1 => leAt b 0x20 2 != 0 && decide (leAt b 0x22 1 ≤ 7)
  | 2 =>
    let hs := maskHedges (stHedges b)
    decide (1 ≤ stSpan b) && decide (stSpan b ≤ 16) && !hs.isEmpty && hs.length % stSpan b == 0 && stRecords b != 0 &&
    op10 b % 16 == 0 && stRstride b % 16 == 0 && decide (leAt b 0x3A 1 ≤ 1) && (stClose b || op28 b == 0) &&
    decide (cdiv (stRecords b) (hs.length / stSpan b) ≤ regField s (qfeReg q 0x10) 31 16)
  | 3 => decide (leAt b 0x36 1 < 64) && decide (leAt b 0x3A 1 ≤ 1)
  | 4 => decide (1 ≤ leAt b 0x18 4) && decide (leAt b 0x18 4 ≤ 65535)
  | 5 => opB18 b != 0 && decide (leAt b 0x1A 1 ≤ 3)
  | 6 => decide (leAt b 0x18 1 ≤ 3)
  | 7 => decide (leAt b 0x18 1 ≤ 3)
  | 8 => decide (opB18 b < 4096) && decide (leAt b 0x1A 1 ≤ 1)
  | 9 => decide (opB18 b < 4096)
  | 10 =>
    let n := leAt b 0x20 1
    (n == 4 || n == 8 || n == 16) && op10 b % n == 0 && op18 b % n == 0
  | 11 => op10 b % 64 == 0 && decide (1 ≤ leAt b 0x18 4) && decide (leAt b 0x18 4 ≤ 65536)
  | 12 => op10 b % 64 == 0 && decide (opB18 b < 16384) && decide (1 ≤ leAt b 0x1A 2) && decide (leAt b 0x1A 2 ≤ 256)
  | 0x40 => decide (opB18 b < 16384)
  | 0x41 => decide (64 ≤ opB18 b) && decide (opB18 b < 16384) && opB18 b != q && decide (leAt b 0x1A 1 ≤ 1)
  | 0x42 => decide (opB18 b < 16384) && decide (leAt b 0x1A 1 ≤ 1)
  | 0x43 => decide (leAt b 0x18 1 ≤ 15)
  | _ => true

/-- RECORD_SIZE as the descriptor at `a` gives it, 32 where it gives no legal size; used to size the record reads (log 20). -/
def peekSize (s : State) (a : Nat) : Nat :=
  let n := le (mread s.mem (a + 12) 2)
  if isHost a ∨ n % 16 ≠ 0 ∨ n < 32 ∨ 8192 < n then 32 else n

/-- The byte ranges that a slot's own operands name (check step 6 of R234). -/
def slotRanges (s : State) (b : List Byte) : List (Nat × Nat) :=
  match slotOp b with
  | 1 => [(op10 b, 64), (op18 b, 16)]
  | 2 => [(op10 b, (stRecords b - 1) * stRstride b + peekSize s (op18 b)), (op18 b, 16), (op20 b, 32)] ++
      (if stClose b then [(op28 b, 64)] else [])
  | 3 => [(op10 b, 64), (op18 b, 16), (op20 b, 32), (op28 b, 64)]
  | 4 => [(op10 b, 128 * leAt b 0x18 4)]
  | 5 => [(op10 b, 96)]
  | 6 => [(op10 b, 64)]
  | 7 => [(op10 b, 64)]
  | 10 => [(op10 b, leAt b 0x20 1), (op18 b, leAt b 0x20 1)]
  | 11 => [(op10 b, 64 * leAt b 0x18 4)]
  | 12 => [(op10 b, 64 * leAt b 0x1A 2)]
  | 0x40 => [(op10 b, 128)]
  | 0x43 => [(op10 b, 128)]
  | _ => []

/-- Check step 5 of R234: an ENQUEUE of a user queue may not name a kernel queue or a queue of another PASID. -/
def enqueuePriv (s : State) (q : Nat) (b : List Byte) : Bool :=
  slotOp b == 12 && decide (64 ≤ q) &&
    (decide (opB18 b < 64) || regField s (qfeReg (opB18 b) 0x20) 19 0 != regField s (qfeReg q 0x20) 19 0)

/-- The checks of R234 in their order, the aperture set as it stands (R223); `inBuf` says the slot lies in an indirect buffer (R236). -/
def slotCheck (s : State) (q : Nat) (inBuf : Bool) (b : List Byte) : St :=
  if !knownOps.contains (slotOp b) then .format
  else if 64 ≤ q ∧ 0x40 ≤ slotOp b then .priv
  else if leAt b 1 1 ≥ 8 ∨ leAt b 2 6 ≠ 0 ∨ (inBuf ∧ (slotOp b = 11 ∨ slotIrq b)) then .format
  else if !(operandsOk s q b && reservedZero b) then .format
  else if enqueuePriv s q b then .priv
  else if !((slotRanges s b).all fun r => reaches s (reachNow s q) r.1 r.2) then .aperture
  else .ok

end Sys2Proof.Machine
end

