-- ==== Sys2Proof/Machine/Complete.lean ====
section
/-! DEFINITION. Outstanding commands and their completions (R235, R236, R239 to R241), progress (R260), and what the last
completion of a disabling queue does (R267). -/

namespace Sys2Proof.Machine

/-- An outstanding command by its number. -/
def findCmd (s : State) (uid : Nat) : Option Cmd := s.cmds.find? (·.uid == uid)

/-- An outstanding command changed. -/
def modCmd (s : State) (uid : Nat) (f : Cmd → Cmd) : State :=
  { s with cmds := s.cmds.map fun c => if c.uid == uid then f c else c }

/-- The outstanding commands of a queue, in dispatch order. -/
def cmdsOf (s : State) (q : Nat) : List Cmd := s.cmds.filter fun c => match c.src with | .queue p => p.val == q | _ => false

/-- The step run of a command. -/
def findStep (s : State) (uid : Nat) : Option StepRun := s.steps.find? (·.uid == uid)

/-- A step run changed. -/
def modStep (s : State) (uid : Nat) (f : StepRun → StepRun) : State :=
  { s with steps := s.steps.map fun c => if c.uid == uid then f c else c }

/-- The rotation of a command. -/
def findRot (s : State) (uid : Nat) : Option Rotation := s.rotations.find? (·.uid == uid)

/-- A rotation changed. -/
def modRot (s : State) (uid : Nat) (f : Rotation → Rotation) : State :=
  { s with rotations := s.rotations.map fun c => if c.uid == uid then f c else c }

/-- SLOTS of a queue (R220). -/
def ringSlots (s : State) (q : Nat) : Nat := 2 ^ regField s (qfeReg q 0x10) 4 0

/-- Ring base of a queue. -/
def ringBase (s : State) (q : Nat) : Nat := regNat s (qfeReg q 8) + 2 ^ 32 * regNat s (qfeReg q 0xC)

/-- Completion ring base of a queue. -/
def cplBase (s : State) (q : Nat) : Nat := regNat s (qfeReg q 0x14) + 2 ^ 32 * regNat s (qfeReg q 0x18)

/-- A RECORD queue (R220). -/
def isRecord (s : State) (q : Nat) : Bool := regBit s (qfeReg q 0x10) 5

/-- A queue is bound in the sense of R221. -/
def bound (s : State) (q : Nat) : Bool := (queue s q).st != .free && (queue s q).st != .retiring

/-- Progress of a queue (R260). -/
def progress (s : State) (q : Nat) : State := modQueue s q fun k => { k with progress := true }

/-- Work units completed for a queue on an engine (R260, Table 11-6). -/
def unitsDone (s : State) (q n : Nat) : State := if n = 0 then s else progress (regAdd s (qfeReg q 0x3C) n) q

/-- The 32 bytes of a completion entry (Table 10-9). -/
def cplEntry (user detail flags idx : Nat) (st : St) (q : Nat) : List Byte :=
  toLe 8 user ++ toLe 4 detail ++ toLe 2 flags ++ toLe 2 0 ++ toLe 4 idx ++ toLe 1 st.code ++ toLe 3 0 ++ toLe 2 q ++ toLe 6 0

/-- The `QFE_STAT` bit of a status (Table 10-12). -/
def statBit (st : St) : Nat := match st with | .priv => 4 | .format => 8 | .aperture => 16 | _ => 0

/-- A completion entry written, then the vector raised when asked (R241). -/
def writeCompletion (s : State) (q user detail flags : Nat) (idx : Word) (st : St) (irq : Bool) : State :=
  let a := cplBase s q + 32 * (idx.toNat % ringSlots s q)
  let s := (writeMem s q 0xFC a (cplEntry user detail flags idx.toNat st q)).1
  let s := progress s q
  if irq || regBit s (qfeReg q 0x1C) 11 then raiseQueue s q else s

/-- Steps 4 and 5 of Table 10-5: the front end re-reads PI, and a queue with entries goes from IDLE to ACTIVE. -/
def recheck (s : State) (q : Nat) : State :=
  modQueue s q fun k => if k.st = .idle ∧ k.pi ≠ k.ci then { k with st := .active, pend := true } else k

/-- A stopped queue (DRAIN, KILL or a finished action, R262 to R266) leaves its action: EN set goes to IDLE with step 4, one that
stalled while DISABLING to BOUND. -/
def actionDone (s : State) (q : Nat) : State :=
  let k := queue s q
  let k := { k with acting := .none, watch := 0, acked := false }
  if k.en || k.pendOn then recheck (setQueue s q { k with st := .idle, en := true, pendOn := false, wasDis := false }) q
  else if k.wasDis then setQueue s q { k with st := .bound, wasDis := false }
  else setQueue s q k

/-- The last dispatched command has completed: the end of DISABLING (R267), or of a DRAIN whose closes were still running (R263). -/
def disableDone (s : State) (q : Nat) : State :=
  let k := queue s q
  if k.st = .disabling ∧ (cmdsOf s q).isEmpty ∧ k.acting = .none then
    if k.pendOn then recheck (setQueue s q { k with st := .idle, en := true, pendOn := false }) q
    else setQueue s q { k with st := .bound }
  else if k.acting = .drain ∧ k.acked ∧ (cmdsOf s q).isEmpty then actionDone s q
  else s

/-- Where a RECORD queue's CI stands after the step of first record `f` and `n` records has been taken or has completed (R226). -/
def passRecords (s : State) (q : Nat) (f : Word) (n : Nat) : State :=
  modQueue s q fun k =>
    let upto := f + BitVec.ofNat 32 n
    if (upto - k.ci).toNat < 2 ^ 31 ∧ k.ci ≠ upto then { k with ci := upto } else k

/-- The INDIRECT that begun last of a queue: the one whose slots are fetched and dispatched (R236). -/
def sendingInd (k : Queue) : Option Indirect := k.indirects.getLast?

/-- The begun INDIRECT of ring index `i` changed. -/
def modInd (s : State) (q : Nat) (i : Word) (f : Indirect → Indirect) : State :=
  modQueue s q fun k => { k with indirects := k.indirects.map fun n => if n.idx == i then f n else n }

/-- The slots of a begun INDIRECT that will run have all completed: every slot, or those that a stop found dispatched (R236). -/
def Indirect.over (n : Indirect) : Bool := n.done == (if n.stop.isSome then n.sent else n.count)

/-- STATUS and DETAIL of an INDIRECT (R236): a stop's status with the first slot that did not complete OK or was not run; else those of
the first slot that was not OK, or OK and COUNT. -/
def Indirect.result (n : Indirect) : St × Nat :=
  let bad := match n.firstBad with | some b => b.1 | none => n.count
  match n.stop with
  | some st => (st, min bad n.sent)
  | none => (match n.firstBad with | some b => b.2 | none => .ok, bad)

/-- The completion of an INDIRECT (R236, R239). -/
def indirectDone (s : State) (q : Nat) (n : Indirect) : State :=
  match findCmd s n.uid with
  | none => s
  | some c =>
    let s := { s with cmds := s.cmds.filter (·.uid != c.uid) }
    let s := modQueue s q fun k => { k with indirects := k.indirects.filter fun m => m.idx != n.idx }
    let s := regOr s (qfeReg q 4) (statBit n.result.1)
    disableDone (writeCompletion s q (slotUser c.slot) n.result.2 n.flags c.idx n.result.1 (slotIrq c.slot)) q

/-- What the completion of the slot at position `pos` adds to its INDIRECT: the first slot in buffer order that was not OK gives the
status. -/
def Indirect.note (n : Indirect) (pos : Nat) (st : St) (flags : Nat) : Indirect :=
  { n with done := n.done + 1, flags := n.flags ||| flags,
           firstBad := match n.firstBad with
             | some b => if st ≠ .ok ∧ pos < b.1 then some (pos, st) else some b
             | none => if st = .ok then none else some (pos, st) }

/-- A slot of the buffer of the INDIRECT at ring index `i` has completed (R236): it makes no progress of its own (R260). -/
def bufferSlotDone (s : State) (q : Nat) (i : Word) (pos : Nat) (st : St) (flags : Nat) : State :=
  match (queue s q).indirects.find? fun n => n.idx == i with
  | none => s
  | some n =>
    let n := n.note pos st flags
    let s := modInd s q i fun _ => n
    if n.over then indirectDone s q n else s

/-- A command completes (R239 to R241): it leaves the outstanding list, and a rotation's claim is released (R155); a ticket's outcome becomes ready (R284); a buffer slot
counts toward its INDIRECT (R236); any other command writes its completion entry. -/
def complete (s : State) (uid : Nat) (st : St) : State :=
  match findCmd s uid with
  | none => s
  | some c =>
    let s := { s with cmds := s.cmds.filter (·.uid != uid), steps := s.steps.filter (·.uid != uid),
                      rotations := s.rotations.filter (·.uid != uid), claimsWaiting := s.claimsWaiting.filter (· != uid),
                      ranks := sdel s.ranks uid }
    match c.src with
    | .ticket u l n =>
      { s with ticketsReady := s.ticketsReady ++ [{ u := u.val, c := l.val, n := n, status := st, flags := c.flags }] }
    | .queue q =>
      let q := q.val
      let s := regOr s (qfeReg q 4) (statBit st)
      match c.sub with
      | some pos => bufferSlotDone s q c.idx pos st c.flags
      | none =>
        let s := if c.record then passRecords s q c.idx (stRecords c.slot) else s
        let user := match c.user with | some t => t.toNat | none => slotUser c.slot
        let det := if c.record then stRecords c.slot else c.detail
        disableDone (writeCompletion s q user det c.flags c.idx st (slotIrq c.slot)) q

/-- A command that a slot task issued (R285). -/
def fromTicket (c : Cmd) : Bool := match c.src with | .ticket _ _ _ => true | .queue _ => false

/-- Flags raised by a command gathered (Table 10-9). -/
def addFlags (s : State) (uid fl : Nat) : State := modCmd s uid fun c => { c with flags := c.flags ||| fl }

/-- A status gathered: the first that is not OK stands. -/
def addStatus (s : State) (uid : Nat) (st : St) : State := modCmd s uid fun c => { c with status := c.status.firstBad st }

/-- The queue a command works for (R20): its own, or that of the context's run for a ticket, held in `user queue`. -/
def cmdQueue (s : State) (c : Cmd) : Nat :=
  match c.src with
  | .queue q => q.val
  | .ticket u l _ => sget 0 s.ctxQueue (8 * u.val + l.val)

/-- What a command may reach: its queue, and the windows it is held to (R223). -/
def cmdReach (s : State) (c : Cmd) : Reach := { q := cmdQueue s c, wins := c.wins }

/-- What command `uid` of queue q may reach. -/
def reachOf (s : State) (uid q : Nat) : Reach := { q := q, wins := match findCmd s uid with | some c => c.wins | none => [] }

end Sys2Proof.Machine
end

