-- ==== Sys2Proof/Machine/Pleach.lean ====
section
/-! DEFINITION. Reading the structure in force from the Pleach body that State holds (R365, Tables 15-6 to 15-8). -/

namespace Sys2Proof.Machine

/-- A field of the body. -/
def plAt (s : State) (off len : Nat) : Nat := leAt s.pleach off len

/-- A field of hedge h's entry. -/
def hEntry (s : State) (h off len : Nat) : Nat := plAt s (0x80 + 64 * h + off) len
/-- ROLE of hedge h: 0 OFF, 1 TREE, 2 RESERVED; with a receiver unit in use and no reserved hedge named, hedge 15 is reserved (R18). -/
def anyReserved (s : State) : Bool := (List.range 16).any fun h => hEntry s h 0 1 == 2
/-- Some receiver unit is in use (LANES nonzero). -/
def anyUnit (s : State) : Bool := (List.range 4).any fun u => plAt s (0x880 + 32 * u) 1 != 0
/-- ROLE in force (R18). -/
def role (s : State) (h : Nat) : Nat :=
  let r := hEntry s h 0 1
  if h = 15 ∧ r ≠ 0 ∧ anyUnit s ∧ !anyReserved s then 2 else r
/-- Partitions of hedge h. -/
def hParts (s : State) (h : Nat) : Nat := hEntry s h 1 1
/-- Array a of hedge h is pinned; every array of a reserved hedge is (R99). -/
def pinnedArr (s : State) (h a : Nat) : Bool := role s h == 2 || bitOf (hEntry s h 2 1) a
/-- MAX_GROUPS of hedge h. -/
def maxGroups (s : State) (h : Nat) : Nat := hEntry s h 3 1
/-- Shape of array a of hedge h. -/
def shapeOf (s : State) (h a : Nat) : Nat := fieldOf (hEntry s h 4 2) (2 * a + 1) (2 * a)
/-- SLOT_BYTES of partition p of hedge h. -/
def slotBytes (s : State) (h p : Nat) : Nat := 64 * hEntry s h (8 + 4 * p) 1
/-- SLOTS of partition p of hedge h. -/
def slotCount (s : State) (h p : Nat) : Nat := hEntry s h (8 + 4 * p + 2) 2
/-- PIN_MODEL of array a of hedge h. -/
def pinModel (s : State) (h a : Nat) : Nat := hEntry s h (0x20 + 4 * a) 4

/-- A field of binding group g's entry. -/
def bgEntry (s : State) (g off len : Nat) : Nat := plAt s (0x480 + 16 * g + off) len
/-- HEDGES of binding group g. -/
def bgHedges (s : State) (g : Nat) : Nat := bgEntry s g 0 2
/-- The partition of binding group g; a number of 64 + u stands for unit u's calibration steps, which use partition 0 of the reserved
hedge as their floor, outside any binding group (R366). -/
def bgPart (s : State) (g : Nat) : Nat := if 64 ≤ g then 0 else bgEntry s g 2 1
/-- Binding group g is defined. -/
def bgValid (s : State) (g : Nat) : Bool := bitOf (bgEntry s g 3 1) 0
/-- STEP_MAX (R103). -/
def bgStepMax (s : State) (g : Nat) : Nat := bgEntry s g 4 2
/-- FLOOR (R103). -/
def bgFloor (s : State) (g : Nat) : Nat := if 64 ≤ g then 65536 else bgEntry s g 6 2
/-- ROW_CAP (Table 5-3). -/
def bgRowCap (s : State) (g : Nat) : Nat := if 64 ≤ g then 8192 else bgEntry s g 8 2
/-- UNITS: [3:0] receiver units, [4] data mover (R367). -/
def bgUnits (s : State) (g : Nat) : Nat := bgEntry s g 10 1

/-- The binding group of a queue. -/
def queueBg (s : State) (q : Nat) : Nat := regField s (qfeReg q 0x24) 5 0
/-- The declared step size of a queue (R103). -/
def queueStep (s : State) (q : Nat) : Nat := regField s (qfeReg q 0x10) 31 16

/-- Shared pool of a partition (R104): SLOTS less the floors of the groups that use it in hedge h. -/
def poolSize (s : State) (h p : Nat) : Nat :=
  slotCount s h p - (((List.range 64).filter fun g => bgValid s g && bgPart s g == p && bitOf (bgHedges s g) h).map (bgFloor s)).sum

/-- The reserved hedges, ascending (R99). -/
def reservedHedges (s : State) : List Nat := (List.range 16).filter fun h => role s h == 2

/-- A driver declaration stands accepted (R370). -/
def driverOk (s : State) : Bool := regBit s (mgtReg 0x8050) 1

/-- BAR2 is served and engines take work (Table 15-1). -/
def served (s : State) : Bool := s.glb.dev == .running || s.glb.dev == .draining

end Sys2Proof.Machine
end

