-- ==== Sys2Proof/Machine/Members.lean ====
section
/-! DEFINITION. The shape of the ring and who is in it: topology (R307, R308), the membership in force and past ones (R310), the model
table (R315), and which rank serves which slice under an epoch (R317, R318). -/

namespace Sys2Proof.Machine

/-! ## Topology -/

/-- TOPOLOGY of the structure in force: 0 SINGLE, 1 RING, 2 TORUS. -/
def topology (s : State) : Nat := plAt s 0 1
/-- Columns: N of a ring, X of a torus. -/
def ringX (s : State) : Nat := if topology s = 2 then plAt s 2 1 else plAt s 1 1
/-- Rows: 1 for a ring, Y of a torus. -/
def ringY (s : State) : Nat := if topology s = 2 then plAt s 3 1 else 1
/-- RING_ID. -/
def ringId (s : State) : Nat := plAt s 4 4
/-- Column of a rank (R308). -/
def colOf (s : State) (r : Nat) : Nat := r % max 1 (ringX s)
/-- Row of a rank (R308). -/
def rowOf (s : State) (r : Nat) : Nat := r / max 1 (ringX s)
/-- The rank at a column and row. -/
def rankAt (s : State) (x y : Nat) : Nat := x + max 1 (ringX s) * y

/-- The topology uses port p: 0 N, 1 E, 2 S, 3 W (R307). -/
def portUsed (s : State) (p : Nat) : Bool :=
  if s.glb.topo = 1 then p == 1 || p == 3 else s.glb.topo == 2

/-- The port a port faces. -/
def opposite (p : Nat) : Nat := (p + 2) % 4

/-! ## Membership -/

/-- `UTR_EPOCH`. -/
def epochNow (s : State) : Nat := regNat s (utrCom 0xC)
/-- The membership of an epoch. -/
def bookOf (s : State) (e : Nat) : Member := sget {} s.utr.books e
/-- `UTR_MEMBERS`: the live ranks in force. -/
def liveNow (s : State) : Nat := regField s (utrCom 8) 15 0
/-- The ranks of a mask, ascending. -/
def ranksOf (m : Nat) : List Nat := (List.range 16).filter fun r => bitOf m r

/-! ## The model table -/

/-- The model-table entry of a MODEL_ID (R315), if there is one. -/
def modelEntry (s : State) (model : Nat) : Option Nat :=
  if model = 0 then none else (List.range 64).find? fun n => regNat s (utrCom (0x1000 + 32 * n)) == model

/-- SLICES of entry n. -/
def entrySlices (s : State) (n : Nat) : Nat := regField s (utrCom (0x1004 + 32 * n)) 15 0
/-- ROOT of entry n. -/
def entryRoot (s : State) (n : Nat) : Nat := regField s (utrCom (0x1004 + 32 * n)) 19 16
/-- READY of entry n. -/
def entryReady (s : State) (n : Nat) : Bool := regBit s (utrCom (0x1004 + 32 * n)) 31
/-- SLICE_TREES of entry n. -/
def entryTrees (s : State) (n : Nat) : Nat := regField s (utrCom (0x1008 + 32 * n)) 23 0
/-- MIRROR of slice k of entry n. -/
def entryMirror (s : State) (n k : Nat) : Nat :=
  regField s (utrCom ((if k < 8 then 0x100C else 0x1010) + 32 * n)) (4 * (k % 8) + 3) (4 * (k % 8))
/-- The READY bits of this device's model table. -/
def ownReady (s : State) : Nat := ((List.range 64).map fun n => if entryReady s n then 2 ^ n else 0).sum

/-- A rank is live and READY for entry n under a membership. -/
def memberReady (m : Member) (r n : Nat) : Bool := bitOf m.live r && bitOf (sget 0 m.ready r) n

/-- The server of slice k of entry n under an epoch (R317). -/
def serverOf (s : State) (e n k : Nat) (exact : Bool) : Option Nat :=
  let m := bookOf s e
  let mi := entryMirror s n k
  if memberReady m k n then some k
  else if mi ≠ k ∧ exact ∧ memberReady m mi n then some mi else none

/-- The slices this device serves of entry n under an epoch, as a mask (R317). -/
def servedMask (s : State) (e n : Nat) (exact : Bool) : Nat :=
  ((List.range 16).map fun k => if bitOf (entrySlices s n) k && serverOf s e n k exact == some s.glb.rank then 2 ^ k else 0).sum

/-- The slice of an image: that of its lowest TREE_INDEX (R318). -/
def imageSlice (s : State) (n : Nat) (im : ArrImage) : Nat :=
  ((im.segs.map fun g => g.tree.toNat).min?).getD 0 / max 1 (entryTrees s n)

/-- An image holds trees of one slice only (R318). -/
def oneSlice (s : State) (n : Nat) (im : ArrImage) : Bool :=
  im.segs.all fun g => g.tree.toNat / max 1 (entryTrees s n) == imageSlice s n im

/-- Bits set in a mask. -/
def bitsSet (m : Nat) : Nat := ((List.range 64).filter fun i => bitOf m i).length

end Sys2Proof.Machine
end

