-- ==== Sys2Proof/Machine/UtrLink.lean ====
section
/-! DEFINITION. The Utrid link (R303 to R314): ports, flit headers, the link sequence with its replay, credits, routing with datelines,
and flooding. A flit with a credit and room in the replay buffer goes onto the wire at once (log 16). -/

namespace Sys2Proof.Machine

/-- Port p. -/
def uport (s : State) (p : Nat) : UPort := sget {} s.utr.ports p
/-- Port p changed. -/
def modPort (s : State) (p : Nat) (f : UPort → UPort) : State :=
  { s with utr := { s.utr with ports := sset s.utr.ports p (f (uport s p)) } }

/-- A field of the Utrid state changed. -/
def modUtr (s : State) (f : Utr → Utr) : State := { s with utr := f s.utr }

/-! ## Headers (Table 13-3) -/

/-- The header's fields. -/
structure FHdr where
  type : Nat := 0
  vc : Nat := 0
  first : Bool := false
  last : Bool := false
  src : Nat := 0
  dst : Nat := 0
  len : Nat := 0
  seq : Nat := 0
  epoch : Nat := 0
  queue : Nat := 0
  deriving DecidableEq, Repr

/-- The fields of a header quad. -/
def fhdrOf (q : Quad) : FHdr :=
  let n := q.toNat
  { type := fieldOf n 7 0, vc := fieldOf n 10 8, first := bitOf n 11, last := bitOf n 12, src := fieldOf n 19 16,
    dst := fieldOf n 23 20, len := fieldOf n 27 24, seq := fieldOf n 63 32, epoch := fieldOf n 95 64, queue := fieldOf n 109 96 }

/-- The header quad of the fields. -/
def fhdrQuad (h : FHdr) : Quad :=
  BitVec.ofNat 128 (h.type + 2 ^ 8 * h.vc + 2 ^ 11 * b2n h.first + 2 ^ 12 * b2n h.last + 2 ^ 16 * h.src + 2 ^ 20 * h.dst +
    2 ^ 24 * h.len + 2 ^ 32 * (h.seq % 2 ^ 32) + 2 ^ 64 * (h.epoch % 2 ^ 32) + 2 ^ 96 * h.queue)

/-- The payload bytes that LEN says are used. -/
def payBytes (f : Flit) : List Byte := ((f.pay.take (fhdrOf f.hdr).len).flatMap fun q => toLe 16 q.toNat)

/-- Indices of the poisoned payload quads used. -/
def payPoison (f : Flit) : List Nat := (List.range (fhdrOf f.hdr).len).filter fun i => nth false f.poison (i + 1)

/-- A flit of the fields and at most 128 payload bytes; payload quads beyond LEN are zeros (R306). -/
def mkFlit (h : FHdr) (bs : List Byte) (bad : List Nat) : Flit :=
  let n := max 1 (min 8 (cdiv bs.length 16))
  { hdr := fhdrQuad { h with len := n },
    pay := (List.range 8).map fun i => BitVec.ofNat 128 (leAt bs (16 * i) 16),
    poison := false :: (List.range 8).map fun i => bad.contains i }

/-- The flits of one message: FIRST on the first and LAST on the last. `n` bounds them; `bad` holds the poisoned quads. -/
def mkMessage (h : FHdr) : Nat → Bool → List Byte → List Nat → List Flit
  | 0, _, _, _ => []
  | n + 1, first, bs, bad =>
    let more := decide (128 < bs.length)
    mkFlit { h with first := first, last := !more } (bs.take 128) bad ::
      (if more then mkMessage h n false (bs.drop 128) (bad.filterMap fun i => if 8 ≤ i then some (i - 8) else none) else [])

/-! ## Sending -/

/-- HELD of a channel (R312). -/
def heldOf (u : UPort) (vc : Nat) : Nat := sget 128 u.held vc

/-- A flit of channel vc could go onto the wire now (R305, R311). -/
def canSend (u : UPort) (vc : Nat) : Bool :=
  u.st == 2 && !u.en.disabling && decide (0 < heldOf u vc) && decide (u.unacked.length < 256)

/-- A downstream credit for channel vc stands ready with nothing ahead of it. -/
def creditReady (s : State) (p vc : Nat) : Bool :=
  canSend (uport s p) vc && !(uport s p).wait.any fun x => x.1 == vc

/-- The flit goes onto the wire: it takes a credit and waits for its acknowledgement. -/
def onWire (u : UPort) (vc : Nat) (f : Flit) : UPort :=
  { u with held := sset u.held vc (heldOf u vc - 1), unacked := u.unacked ++ [f], txSeq := u.txSeq + 1, wire := u.wire ++ [f],
           wireSq := u.wireSq ++ [u.txSeq], lastVc := vc }

/-- The channels in round robin after the last one served (R311). -/
def vcOrder (u : UPort) : List Nat := (List.range 6).map fun i => (u.lastVc + 1 + i) % 6

/-- The waiting flits of a port that may go are sent, channel after channel, one flit at a time (R311). `n` bounds the flits. -/
def txPump : Nat → UPort → UPort
  | 0, u => u
  | n + 1, u =>
    match (vcOrder u).find? fun v => canSend u v && u.wait.any fun x => x.1 == v with
    | none => u
    | some v =>
      match findIx (fun (x : Nat × Flit) => x.1 == v) u.wait with
      | none => u
      | some i =>
        let f := (nth ((0 : Nat), ({ hdr := 0, pay := [], poison := [] } : Flit)) u.wait i).2
        txPump n (onWire { u with wait := u.wait.take i ++ u.wait.drop (i + 1) } v f)

/-- A poisoned quad is forwarded: `UTR_PORT_STAT`.POISON (R306). -/
def notePoison (s : State) (p : Nat) (f : Flit) : State :=
  if f.poison.any id then regOr s (utrPort p 4) (2 ^ 19) else s

/-- A flit joins a port's waiting flits of channel vc, and what may go is sent. -/
def sendFlit (s : State) (p vc : Nat) (f : Flit) : State :=
  let h := fhdrOf f.hdr
  let f := { f with hdr := fhdrQuad { h with vc := vc } }
  let s := notePoison s p f
  modPort s p fun u => txPump (u.wait.length + 1) { u with wait := u.wait ++ [(vc, f)] }

/-- A link control word sent (Table 13-2): KIND, and BODY standing in bits [19:2]. -/
def sendWord (s : State) (p kind body : Nat) : State := modPort s p fun u => { u with words := u.words ++ [(kind, body)] }

/-- The next message number of this rank. -/
def nextMsg (s : State) : Nat × State := (s.utr.msgCount, modUtr s fun u => { u with msgCount := (u.msgCount + 1) % 2 ^ 32 })

/-! ## Routing (R313, R314) -/

/-- The live coordinates along this device's row (`true`) or column, ascending; its own is always one. -/
def liveCoords (s : State) (inRow : Bool) : List Nat :=
  let me := s.glb.rank
  if inRow then (List.range (ringX s)).filter fun x => rankAt s x (rowOf s me) == me || bitOf (liveNow s) (rankAt s x (rowOf s me))
  else (List.range (ringY s)).filter fun y => rankAt s (colOf s me) y == me || bitOf (liveNow s) (rankAt s (colOf s me) y)

/-- Live hops from coordinate a to b going up (`true`) or down. -/
def hopsTo (cs : List Nat) (a b : Nat) (up : Bool) : Nat :=
  let i := (findIx (· == a) cs).getD 0
  let j := (findIx (· == b) cs).getD 0
  if up then (j + cs.length - i) % cs.length else (i + cs.length - j) % cs.length

/-- The port a unicast to `dst` leaves by (R313): first along the row, then along the column; a tie goes east or south. None where it
has arrived, or where the turning point is not live. -/
def routePort (s : State) (dst : Nat) : Option Nat :=
  let me := s.glb.rank
  let xs := liveCoords s true
  let ys := liveCoords s false
  if colOf s dst ≠ colOf s me then
    if !xs.contains (colOf s dst) then none
    else if hopsTo xs (colOf s me) (colOf s dst) true ≤ hopsTo xs (colOf s me) (colOf s dst) false then some 1 else some 3
  else if rowOf s dst ≠ rowOf s me then
    if !ys.contains (rowOf s dst) then none
    else if hopsTo ys (rowOf s me) (rowOf s dst) true ≤ hopsTo ys (rowOf s me) (rowOf s dst) false then some 2 else some 0
  else none

/-- The hop out of port p crosses its dimension's dateline (R314). -/
def crosses (s : State) (p : Nat) : Bool :=
  let me := s.glb.rank
  let cs := liveCoords s (p == 1 || p == 3)
  let c := if p = 1 ∨ p = 3 then colOf s me else rowOf s me
  if p = 1 ∨ p = 2 then some c == cs.max? else some c == cs.min?

/-- The channel a flit leaves on (R314): base class 0, 2 or 4; `inVc` is the channel it came in on, none where it starts here; `turn`
says it turns from X to Y. -/
def outVc (s : State) (base : Nat) (inVc : Option Nat) (turn : Bool) (p : Nat) : Nat :=
  let d := match inVc with | some v => v % 2 == 1 && !turn | none => false
  base + b2n (d || crosses s p)

/-- The port is one of a column. -/
def isColumn (p : Nat) : Bool := p == 0 || p == 2

/-- A flit is discarded and counted (R305, R313). -/
def dropFlit (s : State) (unroutable : Bool) : State :=
  let s := regCount s (utrCom 0x14) 1
  if unroutable then regOr s (utrCom 0x10) 4 else s

/-- A unicast flit leaves for its destination (R313); `from_` is the port and channel it came in on. -/
def sendUnicast (s : State) (from_ : Option (Nat × Nat)) (f : Flit) : State :=
  let h := fhdrOf f.hdr
  let known := from_.isSome || bitOf (liveNow s) h.dst
  match (if known then routePort s h.dst else none) with
  | none => dropFlit s true
  | some p =>
    let base := h.vc / 2 * 2
    let turn := match from_ with | some x => isColumn p && !isColumn x.1 | none => false
    sendFlit s p (outVc s base (from_.map (·.2)) turn p) f

/-- A flit flooded out of every UP port but the one it came in by (R310). -/
def flood (s : State) (except : Option Nat) (f : Flit) : State :=
  (List.range 4).foldl (fun s p =>
    if (uport s p).st = 2 ∧ some p ≠ except then sendFlit s p (outVc s 4 none false p) f else s) s

/-! ## Training and the link sequence -/

/-- A port leaves UP (R330): DOWN is set where it was up, and its partner is remembered. -/
def portDown (s : State) (p st : Nat) : State :=
  let up := decide ((uport s p).st = 2)
  let s := modPort s p fun u =>
    { u with st := st, rate := 0, lock := 0, bypass := false, replaying := false, replays := 0, replayAt := none,
             lastPeer := if up then some u.peer else u.lastPeer }
  if up then regOr s (utrPort p 4) (2 ^ 16) else s

/-- The link sequence starts at 0 (R305): with the same partner the unacknowledged flits are sent again, with another they are
discarded and counted. HELD returns to 128 on both sides (R312), so flits still buffered owe no credit. -/
def restartLink (s : State) (p peer : Nat) : State :=
  let u := uport s p
  let same := decide (u.lastPeer = some peer)
  let lost := if same then 0 else u.unacked.length
  let s := regCount s (utrCom 0x14) lost
  let again := if same then u.unacked else []
  let taken := (List.range 6).map fun v => (v, 128 - (again.filter fun f => (fhdrOf f.hdr).vc == v).length)
  let frees := (List.range 6).map fun v => (v, (sget [] u.rx v).length)
  modPort s p fun u => { u with txSeq := again.length, unacked := again, rxSeq := 0, replaying := false, replays := 0, replayAt := none,
                                held := taken, wire := u.wire ++ again,
                                wireSq := u.wireSq ++ List.range again.length, free := frees }

/-- An acknowledgement (R305): flits up to the link sequence leave the replay buffer. -/
def ackTo (u : UPort) (sq : Nat) : UPort :=
  let base := u.txSeq - u.unacked.length
  let n := (sq + 2 ^ 18 - base % 2 ^ 18) % 2 ^ 18 + 1
  let u := if n ≤ u.unacked.length then { u with unacked := u.unacked.drop n } else u
  txPump (u.wait.length) u

/-- A REPLAY word (R305): the sender resends from the sequence; consecutive replays of one flit are counted. -/
def replayFrom (s : State) (p sq : Nat) : State :=
  let u := uport s p
  let base := u.txSeq - u.unacked.length
  let n := (sq + 2 ^ 18 - base % 2 ^ 18) % 2 ^ 18
  let s := regOr (regCount s (utrPort p 0xC) 1) (utrPort p 4) (2 ^ 18)
  let again := u.unacked.drop n
  modPort s p fun u => { u with wire := u.wire ++ again, wireSq := u.wireSq ++ (List.range again.length).map (base + n + ·),
                                replays := if u.replayAt = some sq then u.replays + 1 else 1, replayAt := some sq }

/-- A flit is taken out of channel vc's receive buffer, and its credit goes back to the partner (R311, R312). -/
def takeRx (s : State) (p vc : Nat) : State :=
  let owes := sget 0 (uport s p).free vc
  let s := modPort s p fun u =>
    { u with rx := sset u.rx vc ((sget [] u.rx vc).drop 1), free := if owes = 0 then u.free else sset u.free vc (owes - 1) }
  if owes = 0 then sendWord s p 0 (vc * 4 + 2 ^ 5) else s

/-- The folded address of quad i of the flit with a link sequence (Table 14-3). -/
def flitFold (sq i : Nat) : Nat := 9 * 2 ^ 54 + sq * 2 ^ 4 + i

/-- Quad i of a flit. -/
def flitQuad (f : Flit) (i : Nat) : Quad := if i = 0 then f.hdr else nth 0 f.pay (i - 1)

/-- Quad i of a flit as it was read, poisoned or not; the data of a poisoned quad is 0. -/
def putFlitQuad (f : Flit) (i : Nat) (q : Quad) (bad : Bool) : Flit :=
  let v := if bad then 0 else q
  { f with poison := f.poison.set i bad, hdr := if i = 0 then v else f.hdr, pay := if i = 0 then f.pay else f.pay.set (i - 1) v }

/-- A quad of an arriving flit checked against its link sequence and index (R306, R336, R353): counters, the quad as it is read, and whether
some quad was found that cannot be corrected. -/
def checkQuad (p sq : Nat) (a : State × Flit × Bool) (x : FlitErr) : State × Flit × Bool :=
  let (s, f, lost) := a
  let i := x.quad.val
  let q := flitQuad f i ^^^ BitVec.ofNat 128 (residualOf { err := x.err, adx := x.adx } / 2 ^ 18)
  match classify (nth false f.poison i) (flitQuad f i == 0) x.err.toNat x.adx.toNat with
  | .clean => (s, putFlitQuad f i q false, lost)
  | .poisoned => (s, putFlitQuad f i q true, lost)
  | .ce bad => (countCe s 13, putFlitQuad f i q bad, lost)
  | .ue => (countUe s 13 (0xF8 + p) (16 * flitFold sq i), f, true)
  | .ae => (countAe s 13 (0xF8 + p) (16 * flitFold sq i), f, true)

/-- A flit read at a port (R306, R343): none where a quad cannot be corrected, else the flit as read, with its poisoned quads counted. -/
def readFlit (s : State) (p : Nat) (f : Flit) : State × Option Flit :=
  let (t, g, lost) := f.errs.foldl (checkQuad p (uport s p).rxSeq) (s, f, false)
  if lost then (t, none) else ((g.poison.filter id).foldl (fun s _ => countPoison s 13) t, some { g with errs := [] })

/-- A flit arrives at an UP port (R305): one with an uncorrectable quad is discarded with every later one until the resend, and REPLAY
is sent; a whole one is acknowledged and enters its channel's receive buffer. -/
def receiveFlit (s : State) (p : Nat) (f : Flit) : State :=
  let u := uport s p
  if u.st ≠ 2 then s
  else
    match readFlit s p f with
    | (t, none) => if u.replaying then s else sendWord (modPort t p fun u => { u with replaying := true }) p 2 (u.rxSeq % 2 ^ 18 * 4)
    | (t, some g) =>
      let vc := (fhdrOf g.hdr).vc
      let t := modPort t p fun u => { u with replaying := false, rxSeq := u.rxSeq + 1, rx := if vc < 6 then sset u.rx vc (sget [] u.rx vc ++ [g]) else u.rx }
      sendWord t p 1 (u.rxSeq % 2 ^ 18 * 4)

end Sys2Proof.Machine
end

