-- ==== Sys2Proof/Machine/Mailbox.lean ====
section
/-! DEFINITION. Mailbox channels (R294 to R302): blocks committed into a queue of four, words, withdrawal, and the move of
host-to-peer messages over the ring (R300). -/

namespace Sys2Proof.Machine

/-- Key of the channel from a sender to a receiver. -/
def chanKey (snd rcv : Nat) : Nat := snd * 256 + rcv
/-- The channel from a sender to a receiver. -/
def chan (s : State) (snd rcv : Nat) : Chan := sget {} s.chans (chanKey snd rcv)
/-- A channel changed. -/
def modChan (s : State) (snd rcv : Nat) (f : Chan → Chan) : State :=
  { s with chans := sset s.chans (chanKey snd rcv) (f (chan s snd rcv)) }

/-- The endpoints on this device: the host, Sage and the 24 cores (Table 12-1). -/
def isEndpoint (e : Nat) : Bool :=
  e == 0 || e == 1 || (decide (8 ≤ e) && decide (e ≤ 0x0B)) || (decide (0x10 ≤ e) && decide (e ≤ 0x23))

/-- The ID names the host of a peer rank of the ring. -/
def isPeer (s : State) (e : Nat) : Bool :=
  decide (0x40 ≤ e) && decide (e < 0x50) && e != 0x40 + s.glb.rank && s.glb.topo != 0 && decide (e - 0x40 < ringX s * ringY s)

/-- The channel exists (R294). -/
def chanExists (s : State) (snd rcv : Nat) : Bool :=
  snd != rcv && ((isEndpoint snd && isEndpoint rcv) || (snd == 0 && isPeer s rcv) || (rcv == 0 && isPeer s snd))

/-- The sixteen words of the block being written. -/
def chanBlock (c : Chan) : List Word := (List.range 16).map fun i => sget 0 c.data i

/-- A message to the host of peer rank k leaves over the management channel (R300). -/
def sendPeer (s : State) (k type : Nat) (bs : List Byte) : State :=
  let m := nextMsg s
  let h : FHdr := { type := type, vc := 4, src := s.glb.rank, dst := k, seq := m.1, epoch := epochNow s }
  (mkMessage h 1 true bs []).foldl (fun s f => sendUnicast s none f) m.2

/-- Peer rank k learns that the host took a block (`kind` 1) or the word (2) of its channel: a MGT_BLOCK flit of one quad (log 17). -/
def sendReceipt (s : State) (k kind : Nat) : State :=
  if isPeer s (0x40 + k) ∧ bitOf (liveNow s) k then sendPeer s k 0x20 [BitVec.ofNat 8 kind] else s

/-- The receipt arrives at the sender (log 17). -/
def takeReceipt (s : State) (k kind : Nat) : State :=
  modChan s 0 (0x40 + k) fun c => if kind = 1 then { c with far := c.far - 1 } else { c with farWord := false }

/-- A message for peer rank k could leave now: the rank is live, and a credit of the management channel stands ready (R300, R311). -/
def peerReady (s : State) (k : Nat) : Bool :=
  isPeer s (0x40 + k) && bitOf (liveNow s) k &&
    (match routePort s k with
     | some p => creditReady s p (outVc s 4 none false p)
     | none => false)

/-- The committed blocks for peer rank k move while its receive queue has room. `n` bounds them. -/
def forwardBlocks : Nat → State → Nat → State
  | 0, s, _ => s
  | n + 1, s, k =>
    let c := chan s 0 (0x40 + k)
    match c.queue with
    | b :: t =>
      if peerReady s k ∧ c.far < Config.mbxSlots then
        let s := modChan s 0 (0x40 + k) fun c => { c with queue := t, far := c.far + 1 }
        forwardBlocks n (sendPeer s k 0x20 (b.flatMap fun w => toLe 4 w.toNat)) k
      else s
    | [] => s

/-- What waits in the channel to the host of peer rank k moves as far as the peer has room for it and the ring carries it (R300); a
bypassed or absent peer never takes it. -/
def forwardPeer (s : State) (k : Nat) : State :=
  let s := forwardBlocks Config.mbxSlots s k
  match (chan s 0 (0x40 + k)).word with
  | some w =>
    if peerReady s k ∧ !(chan s 0 (0x40 + k)).farWord then
      sendPeer (modChan s 0 (0x40 + k) fun c => { c with word := none, farWord := true }) k 0x21 (toLe 4 w.toNat)
    else s
  | none => s

/-- Every peer's waiting messages move where they can. -/
def forwardPeers (s : State) : State :=
  (List.range 16).foldl (fun s k =>
    if (chan s 0 (0x40 + k)).queue.isEmpty ∧ (chan s 0 (0x40 + k)).word.isNone then s else forwardPeer s k) s

/-- Ranks that are not live hold nothing of this host any more (R299, R330). -/
def forgetFar (s : State) : State :=
  (List.range 16).foldl (fun s k =>
    let c := chan s 0 (0x40 + k)
    if bitOf (liveNow s) k ∨ (c.far = 0 ∧ !c.farWord) then s else modChan s 0 (0x40 + k) fun c => { c with far := 0, farWord := false }) s

/-- GO (R295, R296): a commit is requested; WITHDRAWN clears. -/
def goRun (s : State) (snd rcv : Nat) : State :=
  if !chanExists s snd rcv ∨ (chan s snd rcv).go then s
  else modChan s snd rcv fun c => { c with go := true, withdrawn := false }

/-- MBX_BLOCK_COMMIT (R295): the pending block is copied into the channel's queue where a slot is free, and GO clears. -/
def commitRun (s : State) (snd rcv : Nat) : State :=
  let c := chan s snd rcv
  if c.go ∧ c.queue.length < Config.mbxSlots then
    modChan s snd rcv fun c => { c with go := false, queue := c.queue ++ [chanBlock c] }
  else s

/-- WITHDRAW (R296): a pending send is abandoned. -/
def withdrawRun (s : State) (snd rcv : Nat) : State :=
  if (chan s snd rcv).go then modChan s snd rcv fun c => { c with go := false, withdrawn := true } else s

/-- TAKE (R297): the oldest block is removed; a peer that sent it learns of the room (R300). -/
def takeRun (s : State) (snd rcv : Nat) : State :=
  if (chan s snd rcv).queue.isEmpty then s
  else
    let s := modChan s snd rcv fun c => { c with queue := c.queue.drop 1 }
    if rcv = 0 ∧ 0x40 ≤ snd then sendReceipt s (snd - 0x40) 1 else s

/-- A word sent (R298): stored, or ignored with OVERRUN on both sides. -/
def wordSend (s : State) (snd rcv : Nat) (w : Word) : State :=
  if !chanExists s snd rcv then s
  else match (chan s snd rcv).word with
    | some _ => modChan s snd rcv fun c => { c with ovTx := true, ovRx := true }
    | none => modChan s snd rcv fun c => { c with word := some w }

/-- The received word is read, and with it the register and FULL clear (R298); a peer that sent it learns of the room (R300). -/
def wordTaken (s : State) (snd rcv : Nat) : State :=
  match (chan s snd rcv).word with
  | none => s
  | some _ =>
    let s := modChan s snd rcv fun c => { c with word := none }
    if rcv = 0 ∧ 0x40 ≤ snd then sendReceipt s (snd - 0x40) 2 else s

/-- The received word read (R298): it is returned, and the register and FULL clear; that of a channel that does not exist reads 0 (R302). -/
def wordRead (s : State) (snd rcv : Nat) : State :=
  if !chanExists s snd rcv then answer s 0 else wordTaken (answer s ((chan s snd rcv).word.getD 0)) snd rcv

/-- A data word of a send channel written (R295): ignored with IGNORED while GO is 1. -/
def dataWrite (s : State) (snd rcv i : Nat) (w : Word) : State :=
  if !chanExists s snd rcv then s
  else if (chan s snd rcv).go then modChan s snd rcv fun c => { c with ignored := true }
  else modChan s snd rcv fun c => { c with data := sset c.data i w }

/-- The host's receive channel from an ID holds a block or a word (`MGT_MBX_PEND`). -/
def mbxPending (s : State) (snd : Nat) : Bool := !(chan s snd 0).queue.isEmpty || (chan s snd 0).word.isSome

/-- A send channel's registers (Table 12-7). -/
def txView (s : State) (snd rcv o : Nat) : Nat :=
  let c := chan s snd rcv
  if !chanExists s snd rcv then 0
  else if o < 0x40 then (sget (0 : Word) c.data (o / 4)).toNat
  else if o = 0x40 then b2n c.go + b2n c.withdrawn * 4 + b2n c.ignored * 8 + c.queue.length * 16
  else if o = 0x48 then b2n c.word.isSome + b2n c.ovTx * 2
  else 0

/-- A receive channel's registers (Table 12-7). -/
def rxView (s : State) (snd rcv o : Nat) : Nat :=
  let c := chan s snd rcv
  if !chanExists s snd rcv then 0
  else if o < 0x40 then (match c.queue with | b :: _ => (nth (0 : Word) b (o / 4)).toNat | [] => 0)
  else if o = 0x40 then c.queue.length + (if c.queue.isEmpty then 0 else snd * 2 ^ 8)
  else if o = 0x48 then (match c.word with | some w => w.toNat | none => 0)
  else if o = 0x4C then b2n c.word.isSome + b2n c.ovRx * 2 + (if c.word.isSome then snd * 2 ^ 8 else 0)
  else 0

end Sys2Proof.Machine
end

