-- ==== Sys2Proof/Machine/Sums.lean ====
section
/-! DEFINITION. Ensemble sums (R110 to R133): the accumulation descriptor, accumulator rows, EXACT, FIXED and FLOAT additions,
reproducible stochastic rounding, and the statistics. -/

namespace Sys2Proof.Machine

/-- An accumulation descriptor (Table 5-2). -/
structure Accd where
  outputs : Nat
  mode : Nat
  pairwise : Bool
  stoch : Bool
  stats : Bool
  varDiv : Bool
  legacy : Bool
  blockLog2 : Nat
  tileRecs : Nat
  model : Nat
  trees : Nat
  blocks : Nat
  deriving DecidableEq, Repr

/-- The descriptor's fields from its 32 bytes. -/
def accdOf (b : List Byte) : Accd :=
  let o := leAt b 9 1
  { outputs := leAt b 6 2, mode := leAt b 8 1, pairwise := bitOf o 0, stoch := bitOf o 1, stats := bitOf o 2,
    varDiv := bitOf o 3, legacy := bitOf o 4, blockLog2 := leAt b 10 1, tileRecs := leAt b 12 2, model := leAt b 16 4,
    trees := leAt b 20 4, blocks := leAt b 24 4 }

/-- EXACT. -/
def Accd.exact (d : Accd) : Bool := d.mode == 0
/-- FIXED. -/
def Accd.fixed (d : Accd) : Bool := d.mode == 1
/-- FLOAT. -/
def Accd.float (d : Accd) : Bool := d.mode == 2

/-- The Open checks of Table 5-3 on the descriptor alone. -/
def accdOk (b : List Byte) : Bool :=
  let d := accdOf b
  let o := leAt b 9 1
  leAt b 0 4 == 0x44434341 && leAt b 4 2 == 1 && decide (o < 32) && leAt b 11 1 == 0 && leAt b 14 2 == 0 && leAt b 28 4 == 0 &&
  decide (1 ≤ d.outputs) && decide (d.outputs ≤ 256) && d.tileRecs % 16 == 0 && decide (16 ≤ d.tileRecs) &&
  decide (d.tileRecs ≤ 8192) && decide (d.mode ≤ 2) &&
  (d.float || (!d.pairwise && !d.stoch && d.blockLog2 == 0)) && decide (d.blockLog2 ≤ 8) &&
  (if d.float && d.pairwise then decide (1 ≤ d.blocks) && decide (d.blocks ≤ 2 ^ 31) else d.blocks == 0) &&
  (if d.stats then d.exact && d.trees != 0 else d.trees == 0 && !d.varDiv) &&
  (!d.legacy || (!d.float && !d.stats && decide (d.outputs ≤ 1)))

/-- Rows per record (Table 5-5); for LEGACY one row in each of eight tiles. -/
def rpr (d : Accd) : Nat :=
  if d.legacy then 8
  else if d.exact then (if d.stats then 2 * d.outputs else d.outputs)
  else if d.fixed then cdiv d.outputs 10
  else if d.pairwise then (if 2 ^ 20 < d.blocks then 2 * d.outputs else d.outputs)
  else cdiv d.outputs 20

/-- Rows a group of `records` records binds on a hedge (R126). -/
def groupRows (d : Accd) (records : Nat) : Nat := cdiv records d.tileRecs * d.tileRecs * rpr d

/-- The local row of a record's `k`-th row (R126; LEGACY: of tile k, R128). -/
def localRow (d : Accd) (records i k : Nat) : Nat :=
  if d.legacy then k * (cdiv records d.tileRecs * d.tileRecs) + i else i * rpr d + k

/-- The physical row of a local row, over the (start, length) runs a group is bound to. -/
def physRow : List (Nat × Nat) → Nat → Nat
  | [], _ => 0
  | (a, n) :: t, k => if k < n then a + k else physRow t (k - n)

/-- Bits [w-1:0] at bit `lo` of a row. -/
def rowBits (r : BitVec 640) (lo w : Nat) : Nat := r.toNat / 2 ^ lo % 2 ^ w

/-- A row with w bits at bit `lo` replaced. -/
def setRowBits (r : BitVec 640) (lo w v : Nat) : BitVec 640 := BitVec.ofNat 640 (setField r.toNat (lo + w - 1) lo v)

/-! ## EXACT (R116, R117) -/

/-- The most positive EX640 integer. -/
def exMax : Int := 2 ^ 639 - 1
/-- The most negative EX640 integer. -/
def exMin : Int := -(2 ^ 639)

/-- A row that holds either bound is saturated (R117). -/
def exSat (n : Int) : Bool := n == exMax || n == exMin

/-- An EXACT addition (R116, R117). -/
def exAdd (n a : Int) : Int :=
  if exSat n then n else if exMax < n + a then exMax else if n + a < exMin then exMin else n + a

/-- Two EX640 partials combined under the same rule (R117): a saturated partial saturates the sum. -/
def exCombine (n m : Int) : Int := if exSat n then n else if exSat m then m else exAdd n m

/-- The integer of an EX640 row. -/
def rowInt (r : BitVec 640) : Int := r.toInt
/-- The EX640 row of an integer. -/
def intRow (n : Int) : BitVec 640 := BitVec.ofInt 640 n

/-- A × 2^s as a multiple of 2^-320 (R116); s is at least -320 (R110). -/
def scaled (a : Int) (s : Int) : Int := a * (2 ^ (s + 320).toNat : Nat)

/-! ## FIXED (R119, R120) -/

/-- L / 2^(8r) to the nearest integer, ties to even (R119). -/
def coarse (r : Nat) (l : Int) : Int := let m := rne l.natAbs (8 * r); if l < 0 then -(m : Int) else m

/-- The S64 bounds. -/
def s64Max : Int := 2 ^ 63 - 1
/-- The S64 lower bound. -/
def s64Min : Int := -(2 ^ 63)

/-- The array sums added one after another into an S64 accumulator at replay count r (R119, R120): the value, and whether an
addition left the range. At r = 3 such an addition saturates the accumulator, which then stays. -/
def fixedFold (r : Nat) : Int → List Int → Int × Bool
  | f, [] => (f, false)
  | f, a :: t =>
    let x := f + a
    if x < s64Min ∨ s64Max < x then (if r < 3 then f else if x < 0 then s64Min else s64Max, true) else fixedFold r x t

/-! ## FLOAT (R122 to R125) -/

/-- 32-bit left rotation. -/
def rotl32 (v n : Nat) : Nat := (v * 2 ^ n % 2 ^ 32) + v / 2 ^ (32 - n)

/-- The rounds of `sr_bits` from round i on (R125). -/
def srRounds (site : Nat) : Nat → Nat → Nat × Nat × Nat × Nat → Nat × Nat × Nat × Nat
  | 0, _, x => x
  | k + 1, i, (a, b, c, d) =>
    let a := (a + b + site) % 2 ^ 32
    let d := rotl32 (d ^^^ a) 13
    let c := (c + d) % 2 ^ 32
    let b := rotl32 (b ^^^ c) 9
    let a := (a + b + i) % 2 ^ 32
    let d := rotl32 (d ^^^ a) 11
    let c := (c + d) % 2 ^ 32
    let b := rotl32 (b ^^^ c) 5
    srRounds site k (i + 1) (a, b, c, d)

/-- `sr_bits` of R125. -/
def srBits (model tag tree site : Nat) : Nat :=
  match srRounds site 8 0 (model % 2 ^ 32, tag % 2 ^ 32, tag / 2 ^ 32 % 2 ^ 32, tree % 2 ^ 32) with
  | (a, b, c, d) => a ^^^ b ^^^ c ^^^ d

/-- The stochastic rounding of R125 steps 1 to 3 with draw U. -/
def stochastic (u : Nat) : Rounder := fun mag sh =>
  let f := mag % 2 ^ sh
  mag / 2 ^ sh + (if f ≠ 0 ∧ u < f * 2 ^ 32 / 2 ^ sh then 1 else 0)

/-- SITE (Table 5-4). -/
def siteWord (kind out level : Nat) : Nat := kind + out * 2 ^ 4 + level * 2 ^ 12

/-- A rounding context of a FLOAT group: stochastic or not, MODEL_ID, TAG, BLOCK. -/
structure FCtx where
  stoch : Bool
  model : Nat
  tag : Nat
  block : Nat
  deriving DecidableEq, Repr

/-- An FP32 result with what it raised: SAT and a NaN result (R124). -/
structure FRes where
  w : Nat := 0
  sat : Bool := false
  nan : Bool := false
  deriving DecidableEq, Repr

/-- An exact value rounded to FP32 under the group's rounding (R122, R125): RNE decides what is beyond range, which draws nothing. -/
def froundTo (c : FCtx) (pos site : Nat) (v : Val) : FRes :=
  let r := encodeVal .fp32 v
  if !c.stoch || r.2.sat then { w := r.1, sat := r.2.sat, nan := v.isNan }
  else
    let x := encodeWith (stochastic (srBits c.model c.tag (pos * c.block) site)) .fp32 v
    { w := x.1, sat := x.2.sat, nan := v.isNan }

/-- The exact sum of two FP32 values (R124). -/
def addVal (a b : Val) : Val :=
  match a, b with
  | .nan s, _ => .nan s
  | _, .nan s => .nan s
  | .inf s, .inf t => if s = t then .inf s else .nan false
  | .inf s, _ => .inf s
  | _, .inf t => .inf t
  | .negZero, .negZero => .negZero
  | x, y => .num (x.toInt + y.toInt)

/-- A FLOAT addition (R123, R124): position `pos` is the lowest block position of the block or node range added. -/
def fadd (c : FCtx) (pos site : Nat) (a b : Nat) : FRes := froundTo c pos site (addVal (ofFp32 a) (ofFp32 b))

/-- Two results folded, raising what either raised. -/
def FRes.raise (a b : FRes) : FRes := { a with sat := a.sat || b.sat, nan := a.nan || b.nan }

/-- The block term of a block's exact leaf sum (R122). -/
def blockTerm (c : FCtx) (out k : Nat) (sum scale : Int) : FRes := froundTo c k (siteWord 1 out 0) (.num (scaled sum scale))

/-- PAIRWISE: term `t` at index `i` of the run that starts at block position `f`, pushed on the stack of slots (R123). `n` bounds the
levels. -/
def pairPush (c : FCtx) (out f : Nat) : Nat → Nat → Nat → FRes → SMap Nat → SMap Nat × FRes
  | 0, j, _, t, st => (sset st j t.w, t)
  | n + 1, j, i, t, st =>
    if bitOf i j then
      let lo := f + i / 2 ^ (j + 1) * 2 ^ (j + 1)
      let r := (fadd c lo (siteWord 3 out (j + 1)) (sget 0 st j) t.w).raise { t with w := 0 }
      pairPush c out f n (j + 1) i r st
    else (sset st j t.w, t)

/-- The nodes a run of `n` positions from `f` has pending: slot j holds 2^j positions (R123). -/
def pendingNodes (f n : Nat) (slot : Nat → Nat) : List PNode :=
  (List.range 40).filterMap fun j =>
    if bitOf n j then some { lo := f + n / 2 ^ (j + 1) * 2 ^ (j + 1), level := j, w := slot j } else none

/-- The value of the PAIRWISE node of 2^level positions at `lo` (R123, R131): a present node stands as it is, positions no partial
covers hold +0, any other node is the rounded sum of its halves. -/
def pairValue (c : FCtx) (out : Nat) (ns : List PNode) : Nat → Nat → FRes
  | 0, lo => match ns.find? fun n => n.lo == lo && n.level == 0 with
    | some n => { w := n.w }
    | none => {}
  | level + 1, lo =>
    match ns.find? fun n => n.lo == lo && n.level == level + 1 with
    | some n => { w := n.w }
    | none =>
      if ns.any fun n => decide (lo ≤ n.lo) && decide (n.lo < lo + 2 ^ (level + 1)) then
        let a := pairValue c out ns level lo
        let b := pairValue c out ns level (lo + 2 ^ level)
        ((fadd c lo (siteWord 3 out (level + 1)) a.w b.w).raise a).raise b
      else {}

/-- The least m with BLOCKS at most 2^m. -/
def treeLevel (blocks : Nat) : Nat := if blocks ≤ 1 then 0 else Nat.log2 (blocks - 1) + 1

/-- A run of `n` positions from `f` is aligned (R123). -/
def runAligned (blocks f n : Nat) : Bool :=
  let j := treeLevel n
  f % 2 ^ j == 0 && (n == 2 ^ j || f + n == blocks) && decide (n ≤ 2 ^ 19)

/-! ## Statistics (R132, R133) -/

/-- Round to nearest, ties to even, of a magnitude whose true value lies above `mag` when `more` holds, by less than one unit. -/
def rneMore (more : Bool) : Rounder := fun mag sh =>
  if more && decide (0 < sh) && decide (mag % 2 ^ sh = 2 ^ (sh - 1)) then mag / 2 ^ sh + 1 else rne mag sh

/-- The rational num / den, in units of 2^-320, rounded once to FP32 (R132): word, and beyond range. -/
def ratFp32 (num : Int) (den : Nat) : Nat × Bool :=
  let m := num.natAbs / den
  let more := decide (num.natAbs % den ≠ 0)
  let v : Val := if m = 0 then (if more && decide (num < 0) then .negZero else .num 0) else .num (if num < 0 then -(m : Int) else m)
  let r := encodeWith (rneMore more) .fp32 v
  (r.1, r.2.sat)

/-- Mean and variance of an output (R132, R133): from S and Q as EX640 integers and N trees. The Bool says SAT is raised. -/
def meanVar (varDiv integ : Bool) (n : Nat) (sm q : Int) : Nat × Nat × Bool :=
  let nan := canonNan .fp32 false
  if integ || n = 0 then (nan, nan, false)
  else if exSat sm || exSat q then (nan, nan, true)
  else
    let mean := ratFp32 sm n
    if varDiv && n = 1 then (mean.1, nan, mean.2)
    else
      let num := (n : Int) * q * (one320 : Int) - sm * sm
      let den := (if varDiv then n * (n - 1) else n * n) * one320
      let v := ratFp32 num den
      (mean.1, v.1, mean.2 || v.2)

end Sys2Proof.Machine
end

