-- ==== Sys2Proof/Machine/Approx.lean ====
section
/-! DEFINITION. The bounds of the functions that the manual gives only within a distance (R142, Table 6-4, Table 9-5, R189): the exact value
is computed in fixed point far beyond FP32, and a free word of Config is the result wherever it keeps the bound (log 7). -/

namespace Sys2Proof.Machine

/-! ## Fixed point, in units of 2^-320 -/

/-- 1.0. -/
def fxOne : Int := (one320 : Int)

/-- A product. -/
def fxMul (a b : Int) : Int := a * b / fxOne
/-- A quotient; 0 where the divisor is 0. -/
def fxDiv (a b : Int) : Int := a * fxOne / b

/-- 1 + r/k + r²/(k(k+1)) + …, `n` terms. -/
def expTail (r : Int) : Nat → Nat → Int
  | 0, _ => fxOne
  | n + 1, k => fxOne + fxMul r (expTail r n (k + 1)) / (k : Int)

/-- A square taken `n` times. -/
def fxSquares : Nat → Int → Int
  | 0, y => y
  | n + 1, y => fxSquares n (fxMul y y)

/-- e^x; 0 far below the range of FP32. -/
def fxExp (x : Int) : Int :=
  if x < -(250 * fxOne) then 0
  else if 250 * fxOne < x then 2 ^ 700
  else fxSquares 10 (expTail (x / 2 ^ 10) 48 1)

/-- 1/k + q/(k+2) + q²/(k+4) + …, `n` terms. -/
def atanhTail (q : Int) : Nat → Nat → Int
  | 0, _ => 0
  | n + 1, k => fxOne / (k : Int) + fxMul q (atanhTail q n (k + 2))

/-- The inverse hyperbolic tangent of a value of at most 1/3. -/
def fxAtanh (z : Int) : Int := fxMul z (atanhTail (fxMul z z) 104 1)

/-- ln y of a positive value. -/
def fxLog (y : Nat) : Int :=
  let e : Int := (Nat.log2 y : Int) - 320
  let m : Int := if e < 0 then (y : Int) * 2 ^ e.natAbs else (y : Int) / 2 ^ e.natAbs
  2 * e * fxAtanh (fxOne / 3) + 2 * fxAtanh (fxDiv (m - fxOne) (m + fxOne))

/-- tanh x. -/
def fxTanh (x : Int) : Int :=
  if x < -(60 * fxOne) then -fxOne
  else if 60 * fxOne < x then fxOne
  else let e := fxExp (2 * x); fxDiv (e - fxOne) (e + fxOne)

/-- 1 / (1 + e^-x). -/
def fxSigmoid (x : Int) : Int := fxDiv fxOne (fxOne + fxExp (-x))

/-! ## Bounds -/

/-- One unit in the last place of FP32 at x (the larger one where x is within its own rounding of a power of two). -/
def fxUlp (x : Int) : Nat := 2 ^ (max (Nat.log2 (x.natAbs + x.natAbs / 2 ^ 64)) (320 - 126) - 23)

/-- The free word `w` where it lies within `d` of x, and x rounded to FP32 otherwise. The margin of 2^-64 covers the error of x itself. -/
def keepNear (d : Nat) (x : Int) (w : Nat) : Nat :=
  let v := ofFp32 w
  if v.finite ∧ (v.toInt - x).natAbs * 2 ^ 64 ≤ d * (2 ^ 64 + 1) then w else (ratFp32 x 1).1

/-- The free word `w` where it lies within `k` ulp of x (Tables 6-4 and 9-5, R142); beyond the range of FP32 the manual gives no bound. -/
def keepUlp (k : Nat) (x : Int) (w : Nat) : Nat := if 2 ^ 448 ≤ x.natAbs then w else keepNear (k * fxUlp x) x w

/-- The largest code from `lo` on, at most `n` above it, whose threshold is at most x. -/
def lastReached (x : Int) (lo : Nat) : Nat → Nat
  | 0 => lo
  | n + 1 => if Config.sigmoidFrom (BitVec.ofNat 32 (lo + n + 1)) ≤ x then lo + n + 1 else lastReached x lo n

/-- A positive value in units of 2^-320 as an FP32 code, rounded by `rd`. -/
def codeBy (rd : Rounder) (v : Int) : Nat := (encodeWith rd .fp32 (.num (max 0 v))).1

/-- The least FP32 code that a non-decreasing function within 2 ulp may take at a positive v: 2 ulp below v, and no lower than 2 of the
smaller units below the power of two that v has passed. -/
def lowestNear (v : Int) : Nat :=
  let e := Nat.log2 (v.natAbs + v.natAbs / 2 ^ 64)
  let u := fun (k : Nat) => (2 : Int) ^ (max k (320 - 126) - 23)
  codeBy (fun mag sh => cdiv mag (2 ^ sh)) (max (v - 2 * u e) ((2 : Int) ^ e - 2 * u (e - 1)))

/-- SIGMOID of a finite nonzero value of n/2^320 (R142): every FP32 code has a free threshold, and the result is the largest code within 2 ulp
of the exact value whose threshold x has reached, so that the result never falls as x rises; it lies in [+0, 1], and on the side of
0.5 that the sign of x gives (log 7). -/
def sigmoidAt (n : Int) : Nat :=
  let v := fxSigmoid n
  let lo := min 0x3F800000 (lowestNear v)
  let hi := min 0x3F800000 (codeBy (fun mag sh => mag / 2 ^ sh) (v + 2 * fxUlp v))
  let lo := if 0 < n then max lo 0x3F000000 else lo
  let hi := if n < 0 then min hi 0x3F000000 else hi
  lastReached n lo (hi - lo)

/-! ## The discrete Fourier transform (R189), in units of 2^-96 -/

/-- π. -/
def pi96 : Int := 248902613312231085230521944622

/-- cos t and sin t of an angle between −π and π, by the terms from t^k / k! on; `n` bounds the terms. -/
def cosSin (t : Int) : Nat → Nat → Int × Int
  | 0, _ => (2 ^ 96, 0)
  | n + 1, k =>
    let r := cosSin t n (k + 1)
    (2 ^ 96 - t * r.2 / 2 ^ 96 / (k : Int), t * r.1 / 2 ^ 96 / (k : Int))

/-- The sum of x[i] e^(−2πjki/n) over CI16 samples, in units of 2^-96: the two parts. -/
def dftSum (xs : List Word) (k : Nat) : Int × Int :=
  let n := xs.length
  let m : Int := if n < 2 * k then (n : Int) - k else -(k : Int)
  let w := cosSin (2 * pi96 * m / (n : Int)) 60 1
  let r := xs.foldl (fun (a : (Int × Int) × (Int × Int)) x =>
    let re := signed 16 (x.toNat % 65536)
    let im := signed 16 (x.toNat / 65536)
    let z := a.1
    ((((z.1 * w.1 - z.2 * w.2) / 2 ^ 96, (z.1 * w.2 + z.2 * w.1) / 2 ^ 96)),
     (a.2.1 + re * z.1 - im * z.2, a.2.2 + re * z.2 + im * z.1))) (((2 ^ 96, 0), (0, 0)) : (Int × Int) × (Int × Int))
  r.2

/-- 2^-18 of the full scale 2^15 of a CI16 part (R189, log 7), in units of 2^-320. -/
def fftBound : Nat := one320 / 8

/-- Bin k of a symbol (R189): the free pair of Config, each part where it keeps the bound. -/
def fftBin (xs : List Word) (k : Nat) : Nat × Nat :=
  let x := dftSum xs k
  let part := fun (y : Int) (w : Word) => keepNear fftBound (y * 2 ^ 224 / (xs.length : Int)) w.toNat
  let f := Config.fft xs k
  (part x.1 f.1, part x.2 f.2)

end Sys2Proof.Machine
end

