-- ==== Sys2Proof/Machine/Mac.lean ====
section
/-! DEFINITION. Ingest into a RECORD queue (R19, R82, R319, R420) and the Ethernet ports (R416 to R424): the receive filter, record
frames, the receive buffer, and the result frames of an egress queue. -/

namespace Sys2Proof.Machine

/-! ## Ingest -/

/-- The ring-queue entry that names a queue (R319), if one is in force. -/
def ringEntry (s : State) (q : Nat) : Option Nat :=
  (List.range 64).find? fun n => regBit s (utrCom (0x2000 + 4 * n)) 31 && regField s (utrCom (0x2000 + 4 * n)) 13 0 == q

/-- ORIGIN of ring-queue entry n. -/
def ringOrigin (s : State) (n : Nat) : Nat := regField s (utrCom (0x2000 + 4 * n)) 17 14

/-- The queue is a ring queue on a rank other than its origin: ingest sources may not feed it (R319). -/
def ringForeign (s : State) (q : Nat) : Bool :=
  match ringEntry s q with
  | some n => ringOrigin s n != s.glb.rank
  | none => false

/-- An ingest source may write to the queue (R19, R82, R420); a queue that is no record queue of its origin counts as not BOUND (DESIGN CHOICE, log 75). -/
def ingestOk (s : State) (q : Nat) : Bool := bound s q && isRecord s q && !ringForeign s q

/-- Free slots of a queue's ring. -/
def ringRoom (s : State) (q : Nat) : Nat := ringSlots s q - ((queue s q).pi - (queue s q).ci).toNat

/-- Bytes between records of a RECORD queue (R226). -/
def recStride (s : State) (q : Nat) : Nat := 16 * regField s (qfeReg q 0x24) 17 8

/-- Records written into the ring from index `i` on, each whole before the producer index moves (R82); one longer than
the stride runs on over the slots that follow (DESIGN CHOICE, log 75). -/
def putRecords (s : State) (q : Nat) (i : Word) : List (List Byte) → State
  | [] => s
  | r :: t =>
    let a := ringBase s q + i.toNat % ringSlots s q * recStride s q
    putRecords (writeMem s q 0xF4 a r).1 q (i + 1) t

/-- Records of an ingest source enter a queue's ring as one act (R19, R229, R420). -/
def ingest (s : State) (q : Nat) (rs : List (List Byte)) : State :=
  let p := (queue s q).pi
  modQueue (putRecords s q p rs) q fun k => { k with pi := p + BitVec.ofNat 32 rs.length, pend := true }

/-! ## Ports -/

/-- Port m. -/
def mac (s : State) (m : Nat) : Mac := sget {} s.macs m
/-- Port m changed. -/
def modMac (s : State) (m : Nat) (f : Mac → Mac) : State := { s with macs := sset s.macs m (f (mac s m)) }

/-- MAX_FRAME of a port. -/
def maxFrame (s : State) (m : Nat) : Nat := regField s (macReg m 0) 21 8

/-- The six octets of an address pair of registers. -/
def macAddr (s : State) (m lo hi : Nat) : List Byte := toBe 2 (regField s (macReg m hi) 15 0) ++ toBe 4 (regNat s (macReg m lo))

/-- The four octets of an IPv4 address register. -/
def ip4Addr (s : State) (m off : Nat) : List Byte := toBe 4 (regNat s (macReg m off))

/-- The sixteen octets of an IPv6 address of four registers. -/
def ip6Addr (s : State) (m off : Nat) : List Byte := (List.range 4).flatMap fun i => toBe 4 (regNat s (macReg m (off + 4 * i)))

/-- Sum of the big-endian 16-bit words of a byte string, an odd last byte padded with 0. -/
def wordSum : List Byte → Nat
  | [] => 0
  | [a] => a.toNat * 256
  | a :: b :: t => a.toNat * 256 + b.toNat + wordSum t

/-- The end-around-carry sum of the Internet checksum (RFC 1071, PRESUMED). -/
def foldSum (n : Nat) : Nat :=
  let a := n % 65536 + n / 65536
  let b := a % 65536 + a / 65536
  b % 65536 + b / 65536

/-- The Internet checksum of a byte string. -/
def inetSum (bs : List Byte) : Nat := 65535 - foldSum (wordSum bs)

/-- A header with its checksum field in place sums to all ones. -/
def inetOk (bs : List Byte) : Bool := foldSum (wordSum bs) == 65535

/-- The pseudo-header of a UDP checksum. -/
def pseudo (src dst : List Byte) (len : Nat) : List Byte :=
  if src.length = 4 then src ++ dst ++ [0, 17] ++ toBe 2 len else src ++ dst ++ toBe 4 len ++ [0, 0, 0, 17]

/-! ## Reception -/

/-- The part of a frame after its tag filter (Table 17-4, order 2): Ethertype and payload; none where the frame is discarded. -/
def untag (s : State) (m : Nat) (f : List Byte) : Option (Nat × List Byte) :=
  let t := be (sub f 12 2)
  if t = 0x88A8 then none
  else if t = 0x8100 then
    let vid := be (sub f 14 2) % 4096
    let t2 := be (sub f 16 2)
    if t2 = 0x8100 ∨ t2 = 0x88A8 then none
    else if regBit s (macReg m 0x10) 12 ∧ vid ≠ regField s (macReg m 0x10) 11 0 then none
    else some (t2, f.drop 18)
  else if regBit s (macReg m 0x10) 13 then some (t, f.drop 14) else none

/-- The UDP checks of Table 17-4 (order 5); the record frame where the datagram is kept. -/
def udpPayload (s : State) (m : Nat) (src dst u : List Byte) : Option (List Byte) :=
  let port := regField s (macReg m 0x14) 15 0
  let len := be (sub u 4 2)
  let ck := be (sub u 6 2)
  if port = 0 ∨ be (sub u 2 2) ≠ port ∨ len < 8 ∨ u.length < len then none
  else if ck = 0 then (if src.length = 4 then some (sub u 8 (len - 8)) else none)
  else if inetOk (pseudo src dst len ++ u.take len) then some (sub u 8 (len - 8)) else none

/-- The IP checks of Table 17-4 (order 4). -/
def ipPayload (s : State) (m ety : Nat) (p : List Byte) : Option (List Byte) :=
  if ety = 0x0800 then
    let len := be (sub p 2 2)
    if leAt p 0 1 = 0x45 ∧ 20 ≤ len ∧ len ≤ p.length ∧ inetOk (p.take 20) ∧ be (sub p 6 2) % 16384 = 0 ∧ leAt p 9 1 = 17 ∧
       sub p 16 4 = ip4Addr s m 0x18 then
      udpPayload s m (sub p 12 4) (sub p 16 4) (sub p 20 (len - 20))
    else none
  else
    let len := be (sub p 4 2)
    if leAt p 0 1 / 16 = 6 ∧ leAt p 6 1 = 17 ∧ 40 + len ≤ p.length ∧ sub p 24 16 = ip6Addr s m 0x20 then
      udpPayload s m (sub p 8 16) (sub p 24 16) (sub p 40 len)
    else none

/-- The receive filter of Table 17-4 on a frame without its FCS: the record frame, where the frame is kept. -/
def filterFrame (s : State) (m : Nat) (f : List Byte) : Option (List Byte) :=
  if f.take 6 ≠ macAddr s m 8 0xC then none
  else match untag s m f with
    | none => none
    | some (ety, p) =>
      if ety = 0x88B5 ∧ regBit s (macReg m 0) 4 then some p
      else if ety = 0x0800 ∧ regBit s (macReg m 0) 5 then ipPayload s m ety p
      else if ety = 0x86DD ∧ regBit s (macReg m 0) 6 then ipPayload s m ety p
      else none

/-- The records of a record frame (R418, R419), where the channel accepts it: its queue and the records. -/
def recordsOf (s : State) (m : Nat) (f : List Byte) : Option (Nat × List (List Byte)) :=
  let c := leAt f 2 1
  let n := leAt f 3 1
  let len := regField s (macReg m (0x108 + 16 * c)) 13 0
  let q := regField s (macReg m (0x100 + 16 * c)) 29 16
  let rs := (List.range n).map fun i => sub f (16 + len * i) len
  if 16 ≤ f.length ∧ leAt f 0 1 = 1 ∧ leAt f 1 1 = 1 ∧ c ≤ 15 ∧ n ≠ 0 ∧ leAt f 8 8 = 0 ∧ regBit s (macReg m (0x100 + 16 * c)) 0 ∧
     16 + len * n ≤ f.length ∧ 16 ≤ len ∧
     (rs.all fun r => leAt r 12 2 == len && leAt r 8 4 == regNat s (macReg m (0x104 + 16 * c)) && leAt r 15 1 == 0) ∧
     (!bound s q ∨ len ≤ recStride s q) then
    some (q, rs)
  else none

/-- The frame check sequence of IEEE 802.3, in the last four bytes. -/
def fcsOk (f : List Byte) : Bool := leAt f (f.length - 4) 4 == crc32 (f.take (f.length - 4))

/-- Frames that the ports have accepted. -/
def framesAccepted (s : State) : Nat := (s.macs.map fun x => x.2.accepted).sum

/-- A frame accepted earlier waits for the same queue, on whatever port (R420). -/
def frameAhead (s : State) (f : RxFrame) : Bool := s.macs.any fun x => x.2.rx.any fun g => g.q == f.q && decide (g.stamp < f.stamp)

/-- The first frame of the buffer is written where its queue's ring has room for all its records and no earlier frame is ahead of it (R420,
R421). -/
def admitFrame (s : State) (m : Nat) : State :=
  match (mac s m).rx with
  | [] => s
  | f :: rest =>
    let pop := fun (s : State) => modMac s m fun k => { k with rx := rest }
    if !ingestOk s f.q then regCount (pop s) (macReg m 0x58) 1
    else if f.recs.length ≤ ringRoom s f.q ∧ !frameAhead s f then
      let rs := f.recs.map fun r => r.take 14 ++ [BitVec.ofNat 8 (1 + m)] ++ r.drop 15
      regAdd (ingest (pop s) f.q rs) (macReg m 0x40) rs.length
    else s

/-- Every frame of the buffer that can be written is written, in arrival order. -/
def admitFrames : Nat → State → Nat → State
  | 0, s, _ => s
  | n + 1, s, m => if (mac s m).rx.isEmpty then s else admitFrames n (admitFrame s m) m

/-- The shutdown of a port completes when no accepted or queued frame is left (R268, R422). -/
def macIdle (s : State) (m : Nat) : State :=
  let k := mac s m
  if k.en.disabling ∧ k.rx.isEmpty ∧ k.tx.isEmpty then modMac s m fun k => { k with en := k.en.done } else s

/-- ETH_FRAME_RECEIVED (R416 to R421): a frame with its FCS arrives at a port that is on and up. -/
def frameReceived (s : State) (m : Nat) (f : List Byte) : State :=
  let k := mac s m
  if !(k.en.en && k.link) then s
  else if f.length < 64 ∨ maxFrame s m < f.length ∨ !fcsOk f then regCount s (macReg m 0x48) 1
  else
    match filterFrame s m (f.take (f.length - 4)) with
    | none => regCount s (macReg m 0x4C) 1
    | some p =>
      match recordsOf s m p with
      | none => regOr (regCount s (macReg m 0x50) 1) (macReg m 4) (2 ^ 10)
      | some (q, rs) =>
        if !ingestOk s q then regCount s (macReg m 0x58) 1
        else if Config.macBuffer < ((k.rx.map (·.size)).sum + f.length) then
          regOr (regCount s (macReg m 0x54) 1) (macReg m 4) (2 ^ 9)
        else modMac s m fun k =>
          { k with rx := k.rx ++ [{ q := q, recs := rs, size := f.length, stamp := framesAccepted s }], accepted := k.accepted + 1 }

/-! ## Egress -/

/-- The frame header bytes before the record frame, for a payload of `n` bytes (Table 17-6). -/
def egHeader (s : State) (m n : Nat) (payload : List Byte) : List Byte :=
  let ctl := fun hi lo => regField s (macReg m 0x80) hi lo
  let mode := ctl 1 0
  let eth := macAddr s m 0x84 0x88 ++ macAddr s m 8 0xC
  let tag := if ctl 2 2 = 1 then [(0x81 : Byte), 0] ++ toBe 2 (ctl 17 15 * 8192 + ctl 14 3) else []
  let ports := toBe 2 (regField s (macReg m 0x8C) 31 16) ++ toBe 2 (regField s (macReg m 0x8C) 15 0)
  let udp := fun (src dst : List Byte) =>
    let ck := inetSum (pseudo src dst (8 + n) ++ ports ++ toBe 2 (8 + n) ++ [0, 0] ++ payload)
    ports ++ toBe 2 (8 + n) ++ toBe 2 (if ck = 0 then 65535 else ck)
  if mode = 1 then
    let src := ip4Addr s m 0x18
    let dst := ip4Addr s m 0x90
    let h0 := [(0x45 : Byte), BitVec.ofNat 8 (ctl 23 18 * 4)] ++ toBe 2 (28 + n) ++ toBe 2 0 ++ toBe 2 0x4000 ++ [64, 17]
    eth ++ tag ++ toBe 2 0x0800 ++ h0 ++ toBe 2 (inetSum (h0 ++ [0, 0] ++ src ++ dst)) ++ src ++ dst ++ udp src dst
  else if mode = 2 then
    let src := ip6Addr s m 0x20
    let dst := ip6Addr s m 0xA0
    eth ++ tag ++ toBe 2 0x86DD ++ toBe 4 (6 * 2 ^ 28 + ctl 23 18 * 4 * 2 ^ 20) ++ toBe 2 (8 + n) ++ [17, 64] ++ src ++ dst ++ udp src dst
  else eth ++ tag ++ toBe 2 0x88B5

/-- Bytes of a sent frame that are not records: addresses, tag, Ethertype, IP and UDP headers, record frame header, FCS. -/
def egOverhead (s : State) (m : Nat) : Nat :=
  let mode := regField s (macReg m 0x80) 1 0
  14 + (if regBit s (macReg m 0x80) 2 then 4 else 0) + (if mode = 1 then 28 else if mode = 2 then 48 else 0) + 16 + 4

/-- Result records of `rsize` bytes that one frame holds (R423). -/
def perFrame (s : State) (m rsize : Nat) : Nat := min 255 ((maxFrame s m - egOverhead s m) / rsize)

/-- One result frame as sent, padded to the least Ethernet frame, with its FCS (R418, R423). -/
def egFrame (s : State) (m q count : Nat) (recs : List Byte) : List Byte :=
  let payload := [(1 : Byte), 2, 0, BitVec.ofNat 8 count] ++ toLe 4 (regNat s (macReg m 0x44)) ++ toLe 2 q ++ toLe 6 0 ++ recs
  let body := egHeader s m payload.length payload ++ payload
  let body := body ++ List.replicate (60 - body.length) 0
  body ++ toLe 4 (crc32 body)

/-- One frame handed to the MAC and counted. -/
def sendFrame (s : State) (m q : Nat) (f : Nat × List Byte) : State :=
  let bytes := egFrame s m q f.1 f.2
  regAdd (modMac s m fun k => { k with sent := k.sent ++ [bytes] }) (macReg m 0x44) 1

/-- A port may send (R424, Table 15-1). -/
def macMaySend (s : State) (m : Nat) : Bool := (mac s m).link && ((mac s m).en.en || (mac s m).en.disabling) && served s

/-- The queue whose frame goes next: round robin over the queues with frames waiting (R424). -/
def nextTx (s : State) (m : Nat) : Option Nat :=
  let qs := (mac s m).tx.map (·.q)
  match (mac s m).lastQ with
  | none => qs.min?
  | some l => match (qs.filter fun q => decide (l < q)).min? with
    | some q => some q
    | none => qs.min?

/-- One waiting frame sent; the command whose last frame it was, if it was. -/
def sendOne (s : State) (m : Nat) : State × Option Nat :=
  match nextTx s m with
  | none => (s, none)
  | some q =>
    match (mac s m).tx.find? fun j => j.q == q with
    | none => (s, none)
    | some j =>
      match j.frames with
      | [] => (modMac s m fun k => { k with tx := k.tx.filter (·.uid != j.uid) }, some j.uid)
      | f :: rest =>
        let s := modMac (sendFrame s m q f) m fun k => { k with lastQ := some q }
        if rest.isEmpty then (modMac s m fun k => { k with tx := k.tx.filter (·.uid != j.uid) }, some j.uid)
        else (modMac s m fun k => { k with tx := k.tx.map fun x => if x.uid == j.uid then { x with frames := rest } else x }, none)

/-- Frames waiting on a port. -/
def txCount (s : State) (m : Nat) : Nat := ((mac s m).tx.map fun j => j.frames.length + 1).sum

/-- Every waiting frame sent, and the commands that have no frame left. `n` bounds the frames. -/
def sendAll : Nat → State → Nat → State × List Nat
  | 0, s, _ => (s, [])
  | n + 1, s, m =>
    if (mac s m).tx.isEmpty then (s, [])
    else
      let r := sendOne s m
      let t := sendAll n r.1 m
      (t.1, match r.2 with | some u => u :: t.2 | none => t.2)

end Sys2Proof.Machine
end

