-- ==== Sys2Proof/Machine/Front.lean ====
section
/-! DEFINITION. The front end: doorbells (R229), turns (R247, R248), fetching (R234, R242, R250), forming RECORD steps (R226),
dispatch with its hold-backs (R235), fences (R252 to R257), the enable of a queue (R241), binding (R224, R225), and the front-end
commands. -/

namespace Sys2Proof.Machine

/-! ## Turns -/

/-- The next queue in ascending number after `last`, wrapping (R247). -/
def nextAfter (last : Option Nat) (qs : List Nat) : Option Nat :=
  match last with
  | none => qs.min?
  | some l => match (qs.filter fun q => decide (l < q)).min? with
    | some q => some q
    | none => qs.min?

/-- The queue that takes the engine's next unit (R247, R248) among the ready queues: the holder of the turn, unless a kernel queue has a
stronger claim; otherwise the next in round robin, kernel queues first. -/
def pickTurn (t : Turn) (ready : List Nat) : Option Nat :=
  let kernel := ready.filter (· < 64)
  let stay := match t.cur with
    | some q => ready.contains q && (decide (q < 64) || kernel.isEmpty)
    | none => false
  if stay then t.cur
  else if kernel.isEmpty then nextAfter t.lastUser ready else nextAfter t.lastKernel kernel

/-- The turn in progress ends (R248): the units beyond its allowance are the queue's overrun. -/
def Turn.over (t : Turn) : Turn :=
  match t.cur with
  | some p => { t with cur := none, allow := 0, used := 0, overruns := sset t.overruns p (t.used - t.allow) }
  | none => t

/-- A turn of queue q begins (R248, R251): its allowance is QUANTUM less the overrun of its previous turn on this engine, at least 1. -/
def Turn.begin_ (s : State) (t : Turn) (q : Nat) : Turn :=
  { t.over with cur := some q, allow := max 1 (regField s (qfeReg q 0x30) 15 0 - sget 0 t.over.overruns q), used := 0,
                lastKernel := if q < 64 then some q else t.lastKernel, lastUser := if q < 64 then t.lastUser else some q }

/-- The turn state after queue q runs an atomic unit of `n` work units (R248); `more` says whether it has a further ready command for the
engine. The turn ends here when the allowance is used or nothing more is ready. -/
def takeTurn (s : State) (t : Turn) (q n : Nat) (more : Bool) : Turn :=
  let t := if t.cur = some q then t else Turn.begin_ s t q
  let t := { t with used := t.used + n }
  if t.allow ≤ t.used ∨ !more then t.over else t

/-! ## Doorbells -/

/-- R229: the write is accepted where both distances are at most SLOTS. -/
def piAccepted (s : State) (q : Nat) (v : Word) : Bool :=
  let k := queue s q
  decide ((v - k.ci).toNat ≤ ringSlots s q) && decide ((v - k.pi).toNat ≤ ringSlots s q)

/-- PI advanced with the pending bit, as one act (R229). -/
def setPi (s : State) (q : Nat) (v : Word) : State := modQueue s q fun k => { k with pi := v, pend := true }

/-! ## Fences -/

/-- Queue q may use fence f (R256). -/
def mayFence (s : State) (q f : Nat) : Bool :=
  decide (q < 64) || (regBit s (fnwReg f 8) 20 && regField s (fnwReg f 8) 19 0 == regField s (qfeReg q 0x20) 19 0)

/-- A signal (R253, R257): the value settles at the greater, ERROR sets ERR, and a change raises the fence's vector. -/
def signal (s : State) (f : Nat) (v : DWord) (err : Bool) : State :=
  let old := fence s f
  let new : Fence := { value := if old.value.toNat < v.toNat then v else old.value, err := old.err || err }
  let s := setFence s f new
  if new ≠ old ∧ regBit s (fnwReg f 0xC) 1 then raiseVec s (regField s (fnwReg f 0xC) 12 2) else s

/-- The fence has reached the value (R254). -/
def reached (s : State) (f : Nat) (v : DWord) : Bool := decide (v.toNat ≤ (fence s f).value.toNat)

/-! ## Dispatch -/

/-- The slot is held back while an earlier command of the queue is outstanding (R235). -/
def holds235 (b : List Byte) : Bool :=
  slotBarrier b || slotFetchHold b || [8, 10, 0x41, 0x42, 0x43].contains (slotOp b)

/-- The outstanding commands of a queue that count as earlier than a slot: a begun INDIRECT does not count for its own slots. -/
def earlier (s : State) (q : Nat) (f : Fetched) : List Cmd :=
  (cmdsOf s q).filter fun c => !(f.sub.isSome && c.op == 11 && c.sub.isNone)

/-- The head of the window may be dispatched now (R235, R241, R254). -/
def mayDispatch (s : State) (q : Nat) (f : Fetched) : Bool :=
  let k := queue s q
  served s && (k.st == .active || (k.st == .disabling && f.sub.isSome)) &&
  !((cmdsOf s q).any fun c => c.op == 9) && (!holds235 f.slot || (earlier s q f).isEmpty)

/-- A fetched slot becomes a dispatched command (R235, R236): the window moves on, CI counts the slot, and a buffer's last slot
counts its INDIRECT. -/
def takeSlot (s : State) (q : QIx) (f : Fetched) : State × Cmd :=
  let c : Cmd := { uid := s.nextUid, src := .queue q, idx := f.idx, sub := f.sub, op := slotOp f.slot, slot := f.slot, wins := f.wins }
  let k := queue s q.val
  let k := { k with window := k.window.drop 1 }
  let k := match f.sub with
    | none => if slotOp f.slot = 11 ∧ f.status = .ok then k else { k with ci := k.ci + 1 }
    | some _ =>
      { k with indirects := k.indirects.map fun n => if n.idx == f.idx then { n with sent := n.sent + 1 } else n,
               ci := if k.indirects.any fun n => n.idx == f.idx && n.sent + 1 == n.count then k.ci + 1 else k.ci }
  ({ setQueue s q.val k with cmds := s.cmds ++ [c], nextUid := s.nextUid + 1 }, c)

/-- The refused slots at the head of the window complete with what their checks gave (R234). `n` bounds how many. -/
def flushRefused : Nat → State → QIx → State
  | 0, s, _ => s
  | n + 1, s, q =>
    match (queue s q.val).window with
    | f :: _ =>
      if f.status ≠ .ok ∧ mayDispatch s q.val f then
        let r := takeSlot s q f
        flushRefused n (complete r.1 r.2.uid f.status) q
      else s
    | [] => s

/-- The command at the head of the window, where it has opcode `op` and may be dispatched. -/
def takeQueue (s : State) (q : QIx) (op : Nat) : Option (State × Cmd) :=
  match (queue s q.val).window with
  | f :: _ => if f.status = .ok ∧ slotOp f.slot = op ∧ mayDispatch s q.val f then some (takeSlot s q f) else none
  | [] => none

/-- A context's ticket has an earlier ticket of the same target outstanding (R284): `out` is in issue order. -/
def ticketWaits (s : State) (u l : Nat) (n : Word) : Bool :=
  let out := (sget ({} : Ctx) (sget ({} : Rxu) s.rxus u).ctxs l).out
  match out.find? fun x => x.1 == n with
  | some t => (out.takeWhile fun x => x.1 != n).any fun x => x.2 == t.2
  | none => false

/-- The op of an issued ticket, where it has opcode `op` and it is its turn (R284, R285). -/
def takeTicket (s : State) (u : UIx) (l : LIx) (n : Word) (op : Nat) : Option (State × Cmd) :=
  match s.ticketOps.find? fun t => t.u == u.val && t.c == l.val && t.n == n with
  | some t =>
    if slotOp t.slot = op ∧ !ticketWaits s u.val l.val n ∧ served s then
      let c : Cmd := { uid := s.nextUid, src := .ticket u l n, op := op, slot := t.slot, wins := t.wins }
      some ({ s with cmds := s.cmds ++ [c], nextUid := s.nextUid + 1,
                     ticketOps := s.ticketOps.filter fun t => !(t.u == u.val && t.c == l.val && t.n == n) }, c)
    else none
  | none => none

/-- The opcodes whose engine is the front end itself (R235, R248). -/
def frontOp (op : Nat) : Bool := [0, 8, 9, 10, 12, 0x40, 0x41, 0x42, 0x43].contains op

/-- An earlier command of the queue has not finished its work at the front end (R235). -/
def frontBusy (s : State) (c : Cmd) : Bool :=
  frontOp c.op && s.cmds.any fun d => d.src == c.src && decide (d.uid < c.uid) && frontOp d.op

/-- A dispatched command of the queue that waited for its turn at the front end, once that has come (R235). -/
def takeQueued (s : State) (q : QIx) (op : Nat) : Option (State × Cmd) :=
  if !served s ∨ (queue s q.val).acting ≠ .none ∨ (queue s q.val).st = .retiring then none
  else
    match s.cmds.find? fun c => c.queued && c.src == .queue q && c.op == op && !frontBusy s c with
    | some c => some (modCmd s c.uid fun d => { d with queued := false }, { c with queued := false })
    | none => none

/-- The queue has a command ready to run at the front end (R247): one that waited for an earlier one there, or the head of its
window. -/
def frontReady (s : State) (q : Nat) : Bool :=
  let k := queue s q
  served s && ((k.acting == .none && k.st != .retiring &&
      s.cmds.any fun c => c.queued && !frontBusy s c && (match c.src with | .queue p => p.val == q | _ => false)) ||
    match k.window with
    | f :: _ => f.status == .ok && frontOp (slotOp f.slot) && mayDispatch s q f && !(cmdsOf s q).any fun d => frontOp d.op
    | [] => false)

/-- The front end's next turn goes to queue q (R247): a front-end turn is one command (R248). -/
def frontTurn (s : State) (q : Nat) : Bool :=
  let ready := (s.queues.map (·.1)).filter (frontReady s)
  !ready.contains q || pickTurn s.cmdTurn ready == some q

/-- The front end's turn goes to queue q. -/
def passFront (s : State) (q : Nat) : State := { s with cmdTurn := takeTurn s s.cmdTurn q 0 false }

/-- The next command of a source; one for the front end itself in the turn of its queue (R247). -/
def take (s : State) (src : Src) (op : Nat) : Option (State × Cmd) :=
  match src with
  | .queue q =>
    if !frontOp op then (takeQueued s q op).or (takeQueue s q op)
    else if frontTurn s q.val then ((takeQueued s q op).or (takeQueue s q op)).map fun x => (if frontReady s q.val then passFront x.1 q.val else x.1, x.2)
    else none
  | .ticket u l n => takeTicket s u l n op

/-- A meaning of a command row: it runs on the source's next command, and refused slots behind it complete; a command of the front end
waits while an earlier one of its queue is there (R235). Where the source has no such command ready to dispatch, nothing happens
(log 8). -/
def dispatch (s : State) (src : Src) (op : Nat) (f : State → Cmd → State) : State :=
  match take s src op with
  | none => s
  | some (t, c) =>
    match src with
    | .queue q => flushRefused 20 (if frontBusy t c then modCmd t c.uid fun d => { d with queued := true } else f t c) q
    | .ticket _ _ _ => f t c

/-! ## Fetching and forming -/

/-- The slot at ring index i of a COMMAND queue. -/
def slotAddr (s : State) (q : Nat) (i : Word) : Nat := ringBase s q + 64 * (i.toNat % ringSlots s q)

/-- One slot read and checked (R234, Table 14-6). -/
def fetchOne (s : State) (q : Nat) (idx : Word) (sub : Option Nat) (a : Nat) : State × Fetched :=
  let r := readMem s q 0xFC a 64
  let f : Fetched := { idx := idx, sub := sub, slot := r.2.bytes, wins := (reachNow s q).wins }
  if r.2.ap then (r.1, { f with status := .aperture, slot := List.replicate 64 0 })
  else if r.2.poison then (r.1, { f with status := .integrity, slot := List.replicate 64 0 })
  else (r.1, { f with status := slotCheck s q sub.isSome r.2.bytes })

/-- What the front end fetches next for a queue (R236, R242): a slot of the buffer being run, else the next ring slot short of PI;
nothing past a fetched INDIRECT that has not begun. -/
def nextFetch (s : State) (q : Nat) : Option (Word × Option Nat × Nat) :=
  let k := queue s q
  if k.window.any fun f => f.sub.isNone && slotOp f.slot == 11 && f.status == .ok then none
  else
    match sendingInd k with
    | some n =>
      if n.fetched < n.count then
        (match findCmd s n.uid with
         | some c => some (c.idx, some n.fetched, n.buf.toNat + 64 * n.fetched)
         | none => none)
      else if k.st = .disabling then none
      else
        let counted := if n.sent = n.count then 0 else 1
        let i := k.ci + BitVec.ofNat 32 (counted + (k.window.filter fun f => f.sub.isNone).length)
        if i = k.pi then none else some (i, none, slotAddr s q i)
    | none =>
      if k.st = .disabling then none
      else
        let i := k.ci + BitVec.ofNat 32 k.window.length
        if i = k.pi then none else some (i, none, slotAddr s q i)

/-- Up to `n` slots fetched and checked (R242, R250): a FETCH_HOLD slot is read only when every earlier command has completed. -/
def fetchSome : Nat → State → Nat → State
  | 0, s, _ => s
  | n + 1, s, q =>
    if 16 ≤ (queue s q).window.length then s
    else
      match nextFetch s q with
      | none => s
      | some (i, sub, a) =>
        let r := fetchOne s q i sub a
        let k := queue s q
        let hold := slotFetchHold r.2.slot && !(k.window.isEmpty && (earlier s q r.2).isEmpty)
        if hold then s
        else
          fetchSome n (modQueue r.1 q fun k => { k with window := k.window ++ [r.2], indirects := k.indirects.map fun m =>
            if sub.isSome && m.idx == i then { m with fetched := m.fetched + 1 } else m }) q

/-- The group number of a RECORD queue's k-th step (R226). -/
def recordGroup (s : State) (q k : Nat) : Nat :=
  (leAt (queue s q).standing 0x36 1 % 64) + k % (regField s (qfeReg q 0x24) 21 18 + 1)

/-- RSTRIDE of a RECORD queue. -/
def recordStride (s : State) (q : Nat) : Nat := 16 * regField s (qfeReg q 0x24) 17 8

/-- The standing slot with the fields of R226 supplied for `n` records from index `f` in group `g`. -/
def standingSlot (s : State) (q : Nat) (f : Word) (n g : Nat) : List Byte :=
  let b := (queue s q).standing
  let a := ringBase s q + (f.toNat % ringSlots s q) * recordStride s q
  b.take 0x10 ++ toLe 8 a ++ sub b 0x18 0x18 ++ toLe 4 n ++ toLe 2 (recordStride s q) ++
    toLe 1 (g + 0xC0) ++ b.drop 0x37

/-- Records of the next step (R226): published and not yet formed, at most STEP, and not past the end of the ring. -/
def formCount (s : State) (q : Nat) : Nat :=
  let k := queue s q
  min (queueStep s q) (min (k.pi - k.formed).toNat (ringSlots s q - k.formed.toNat % ringSlots s q))

/-- A step of `n` records and group `g` formed and dispatched; its command, and the checks of R234 steps 4 and 6 on it. -/
def formStep (s : State) (q : QIx) (n g : Nat) : State × Cmd × St :=
  let k := queue s q.val
  let b := standingSlot s q.val k.formed n g
  let tag := BitVec.ofNat 64 (le (mread s.mem (op10 b) 8))
  let c : Cmd := { uid := s.nextUid, src := .queue q, idx := k.formed, op := 2, slot := b, record := true, user := some tag, wins := (reachNow s q.val).wins }
  let st : St := if !operandsOk s q.val b then .format
    else if !((slotRanges s b).all fun r => reaches s (reachNow s q.val) r.1 r.2) then .aperture else .ok
  ({ setQueue s q.val { k with formed := k.formed + BitVec.ofNat 32 n, stepK := k.stepK + 1 } with
      cmds := s.cmds ++ [c], nextUid := s.nextUid + 1 }, c, st)

/-- Nothing is left for the front end to fetch, form or dispatch for the queue (Table 10-5, step 1). -/
def drained (s : State) (q : Nat) : Bool :=
  let k := queue s q
  k.pi == k.ci && k.window.isEmpty

/-- The idle sequence (Table 10-5): pending bit cleared, IDLE published, PI re-read. -/
def idleSequence (s : State) (q : Nat) : State :=
  if drained s q ∧ ((queue s q).st = .active ∨ (queue s q).st = .idle) then
    recheck (modQueue s q fun k => { k with pend := false, st := .idle }) q
  else s

/-- The queues the front end may visit (R231, R250): pending ones that are IDLE or ACTIVE, and those whose begun buffer is not yet
fetched. -/
def visitable (s : State) : List Nat :=
  if !served s then []
  else (s.queues.map (·.1)).filter fun q =>
    let k := queue s q
    (k.pend && (k.st == .idle || k.st == .active)) ||
      ((k.st == .active || k.st == .disabling) && match sendingInd k with | some n => decide (n.fetched < n.count) | none => false)

/-! ## The enable of a queue -/

/-- A write of `QFE_CTL`.EN (R241, R266, R268). -/
def enWrite (s : State) (q : Nat) (on : Bool) : State :=
  let k := queue s q
  match k.st with
  | .free => s
  | .retiring => s
  | .bound => if on then recheck (setQueue s q { k with st := .idle, en := true }) q else s
  | .disabling => setQueue s q { k with pendOn := on }
  | .stalled =>
    if k.acting ≠ .none then setQueue s q { k with pendOn := on }
    else if on then recheck (setQueue s q { k with st := .idle, en := true, wasDis := false }) q else s
  | _ =>
    if on then s
    else
      let k := { k with en := false, window := k.window.filter (·.sub.isSome) }
      setQueue s q { k with st := if (cmdsOf s q).isEmpty then .bound else .disabling }

/-! ## Binding -/

/-- Register fields of a bind, as the descriptor's bytes 0x08 to 0x3F lay them out (Table 10-1). -/
structure BindVals where
  ring : Nat
  cfg : Nat
  cpl : Nat
  irq : Nat
  pasid : Nat
  group : Nat
  quantum : Nat
  stall : Nat
  pad : Nat
  standing : List Byte
  deriving DecidableEq, Repr

/-- The values a bind descriptor gives. -/
def bindOf (b : List Byte) : BindVals :=
  { ring := leAt b 8 8, cfg := leAt b 0x10 4, cpl := leAt b 0x14 8, irq := leAt b 0x1C 4, pasid := leAt b 0x20 4,
    group := leAt b 0x24 4, quantum := leAt b 0x30 4, stall := leAt b 0x34 4, pad := leAt b 0x38 8, standing := sub b 0x40 64 }

/-- The values a kernel queue's registers give (R224). -/
def bindRegs (s : State) (q : Nat) : BindVals :=
  { ring := ringBase s q, cfg := regNat s (qfeReg q 0x10), cpl := cplBase s q, irq := regNat s (qfeReg q 0x1C),
    pasid := regNat s (qfeReg q 0x20), group := regNat s (qfeReg q 0x24), quantum := regNat s (qfeReg q 0x30),
    stall := regNat s (qfeReg q 0x34), pad := 0, standing := List.replicate 64 0 }

/-- The record ring lies wholly in shared system SRAM. -/
def inSram (a len : Nat) : Bool := decide (Config.sramBase ≤ a) && decide (a + len ≤ Config.sramBase + Config.sramSize)

/-- Table 10-2 on the values of a bind, the queue's own state and the path apart. A COMMAND queue's RSTRIDE16 and standing slot, given as
0 by Tables 10-12 and 10-1, are held to be reserved fields (DESIGN CHOICE, log 68). -/
def bindOk (s : State) (q : Nat) (v : BindVals) : Bool :=
  let lg := fieldOf v.cfg 4 0
  let rec_ := bitOf v.cfg 5
  let step := fieldOf v.cfg 31 16
  let bg := fieldOf v.group 5 0
  let stride := fieldOf v.group 17 8
  let eg := fieldOf v.group 24 22
  let st := v.standing
  fieldOf v.cfg 7 6 == 0 && fieldOf v.irq 31 11 / 2 == 0 && fieldOf v.pasid 31 21 == 0 && fieldOf v.group 7 6 == 0 &&
  fieldOf v.group 31 25 == 0 &&
  decide (4 ≤ lg) && decide (lg ≤ 16) && v.cpl % 32 == 0 && (!rec_ || decide (64 ≤ q)) &&
  v.ring % (if rec_ then 16 else 64) == 0 &&
  bgValid s bg && decide (1 ≤ step) && decide (step ≤ bgStepMax s bg) &&
  (decide (q < 64) || bitOf v.pasid 20) &&
  (if rec_ then
    decide (2 ≤ stride) && decide (stride ≤ 512) && inSram v.ring (2 ^ lg * 16 * stride) && (eg == 0 || decide (4 ≤ eg)) &&
    slotOp st == 2 && stOpen st && stClose st && op10 st == 0 && stRecords st == 0 && stRstride st == 0 &&
    decide (stGroup st + fieldOf v.group 21 18 ≤ 63) && decide (leAt st 1 1 < 8) && leAt st 2 6 == 0 && reservedZero st
   else allZero st && stride == 0) &&
  fieldOf v.quantum 15 0 != 0 && fieldOf v.quantum 31 16 == 0 && fieldOf v.stall 31 11 == 0 && v.pad == 0

/-- A queue bound with the values (R225): the registers hold them, both indices are 0, the unit count is cleared, and the queue is
IDLE with EN set. -/
def bindQueue (s : State) (q : Nat) (v : BindVals) : State :=
  let w := BitVec.ofNat 32
  let put := fun (s : State) (e : Nat × Nat) => regSet s (qfeReg q e.1) (w e.2)
  let s := [(8, v.ring), (0xC, v.ring / 2 ^ 32), (0x10, v.cfg), (0x14, v.cpl), (0x18, v.cpl / 2 ^ 32), (0x1C, v.irq),
    (0x20, v.pasid), (0x24, v.group), (0x30, v.quantum), (0x34, v.stall), (0x3C, 0)].foldl put s
  setQueue s q { st := .idle, en := true, standing := v.standing }

/-! ## Meanings of the front-end command rows -/

/-- NOP (R233): completes OK when dispatched. -/
def nopRun (s : State) (c : Cmd) : State := complete s c.uid .ok

/-- FENCE_SIGNAL (R253, R256, R257). -/
def fenceSignalRun (s : State) (c : Cmd) : State :=
  let f := opB18 c.slot
  if mayFence s (cmdQueue s c) f then
    complete (signal s f (BitVec.ofNat 64 (op10 c.slot)) (bitOf (leAt c.slot 0x1A 1) 0)) c.uid .ok
  else complete s c.uid .priv

/-- The fence of a FENCE_WAIT has reached its value: the wait completes (R254); one of a queue being destroyed does not (R272). -/
def fenceWaitTry (s : State) (c : Cmd) : State :=
  let f := opB18 c.slot
  if (queue s (cmdQueue s c)).st ≠ .retiring ∧ reached s f (BitVec.ofNat 64 (op10 c.slot)) then
    complete s c.uid (if (fence s f).err then .fenceErr else .ok)
  else s

/-- FENCE_WAIT (R254, R256). -/
def fenceWaitRun (s : State) (c : Cmd) : State :=
  if mayFence s (cmdQueue s c) (opB18 c.slot) then fenceWaitTry s c else complete s c.uid .priv

/-- PATCH (R237, Table 14-6): a poisoned source writes the destination quad poisoned. -/
def patchRun (s : State) (c : Cmd) : State :=
  let q := cmdQueue s c
  let n := leAt c.slot 0x20 1
  let r := readMem s q 0xFC (op10 c.slot) n
  if r.2.ap then complete r.1 c.uid .aperture
  else if r.2.poison then
    let w := writePoison 1 r.1 q (op18 c.slot / 16 * 16)
    complete w.1 c.uid (if w.2 then .aperture else .integrity)
  else
    let w := writeMem r.1 q 0xFC (op18 c.slot) r.2.bytes
    complete w.1 c.uid (if w.2 then .aperture else .ok)

/-- INDIRECT (R236): the buffer begins; the command stays outstanding until its slots have completed. -/
def indirectRun (s : State) (c : Cmd) : State :=
  match c.src with
  | .queue q => modQueue s q.val fun k =>
      { k with indirects := k.indirects ++
          [{ uid := c.uid, idx := c.idx, buf := BitVec.ofNat 64 (op10 c.slot), count := leAt c.slot 0x18 4 }] }
  | .ticket _ _ _ => s

/-- The target of an ENQUEUE may take its slots at all (R258). -/
def enqueueOk (s : State) (t n : Nat) : Bool := bound s t && !isRecord s t && decide (n ≤ ringSlots s t)

/-- The target ring has room for `n` slots now. -/
def enqueueRoom (s : State) (t n : Nat) : Bool :=
  decide (((queue s t).pi - (queue s t).ci).toNat + n ≤ ringSlots s t)

/-- `n` slots from address `a`, or those that an EOP.ENQ took (`data`), copied into the target's ring at its PI (R258, R288); poison
stops the copy. -/
def enqueueCopyOne (s : State) (q t a n : Nat) (data : List Byte) : State × St :=
  let r := if data.isEmpty then readMem s q 0xFC a (64 * n) else (s, { bytes := data })
  if r.2.ap then (r.1, .aperture)
  else if r.2.poison then (r.1, .integrity)
  else
    let p := (queue s t).pi
    let s1 := (List.range n).foldl (fun s i => (writeMem s t 0xFC (slotAddr s t (p + BitVec.ofNat 32 i)) (sub r.2.bytes (64 * i) 64)).1) r.1
    (setPi s1 t (p + BitVec.ofNat 32 n), .ok)

/-- A command's work goes on: no destroy (R270, R272) and no stall action stops its queue; under DRAIN an open slot task, with what it
issued, runs to completion (R188, R263). -/
def mayAct (s : State) (c : Cmd) : Bool :=
  let k := queue s (cmdQueue s c)
  k.st != .retiring && (k.acting == .none || (k.acting == .drain && fromTicket c))

/-- A waiting ENQUEUE copies where the target has room and no earlier one waits for the same target (R258), unless its queue is
stopped. -/
def enqueueTry (s : State) (c : Cmd) : State :=
  let t := opB18 c.slot
  let n := leAt c.slot 0x1A 2
  let first := (s.cmds.filter fun d => d.op == 12 && !d.queued && opB18 d.slot == t).head?
  if mayAct s c ∧ enqueueRoom s t n ∧ !c.queued ∧ first.map (·.uid) = some c.uid then
    let r := enqueueCopyOne s (cmdQueue s c) t (op10 c.slot) n c.data
    complete r.1 c.uid r.2
  else s

/-- ENQUEUE (R258). -/
def enqueueRun (s : State) (c : Cmd) : State :=
  if enqueueOk s (opB18 c.slot) (leAt c.slot 0x1A 2) then enqueueTry s c else complete s c.uid .format

/-- QUEUE_BIND (R224, R225, R361). -/
def queueBindRun (s : State) (c : Cmd) : State :=
  let q := opB18 c.slot
  match readAny s (cmdReach s c) 0xFC (op10 c.slot) 128 64 with
  | (s, .stop st) => complete s c.uid st
  | (s, .ok b) =>
    if driverOk s && decide (64 ≤ q) && (queue s q).st == .free && leAt b 0 4 == 0x444E4251 && leAt b 4 2 == 1 &&
       leAt b 6 2 == 0 && leAt b 0x28 8 == 0 && bindOk s q (bindOf b) then
      complete (bindQueue s q (bindOf b)) c.uid .ok
    else complete s c.uid .format

/-- QUEUE_CTL (R238). -/
def queueCtlRun (s : State) (c : Cmd) : State :=
  let t := opB18 c.slot
  if !bound s t ∨ t = cmdQueue s c then complete s c.uid .format
  else complete (enWrite s t (leAt c.slot 0x1A 1 == 1)) c.uid .ok

end Sys2Proof.Machine
end

