-- ==== Sys2Proof/Machine/Hedge.lean ====
section
/-! DEFINITION. The hedges up to the running step: loads of arrays (R53, R54, R89, R98), image sets and replicas (R94, R233, R351),
multicast, skids, slots and borrows (R101 to R107), and the start checks of a step with group opens (R61, R115, R126, R127). -/

namespace Sys2Proof.Machine

/-! ## Arrays and loads -/

/-- Global index of array a of hedge h. -/
def arrIx (h a : Nat) : Nat := 8 * h + a

/-- The rotation that has claimed an array (R155). -/
def claimedBy (s : State) (n : Nat) : Option Nat :=
  (s.rotations.find? fun r => r.stage == .running && bitOf (leAt r.desc 0x0C 2) (n / 8) && bitOf (leAt r.desc 6 1) (n % 8)).map (·.uid)

/-- The hedge's running step searches the array, or a step that has passed its checks is still to search it there: its images stand
until its last search (R61, R89; DEDUCED, log 61). -/
def searching (s : State) (n : Nat) : Bool :=
  (match (hedge s (n / 8)).run with
   | some r => r.arrays.contains (n % 8)
   | none => false) ||
  s.steps.any fun t => t.checked && !t.ended.contains (n / 8) && (sget [] t.sets (n / 8)).contains (n % 8)

/-- The model an array is pinned to, where one is fixed (R98, R366). -/
def pinOf (s : State) (n : Nat) : Option Nat :=
  if !pinnedArr s (n / 8) (n % 8) then none
  else if pinModel s (n / 8) (n % 8) ≠ 0 then some (pinModel s (n / 8) (n % 8))
  else (arr s n).pinned.map (·.toNat)

/-- `HDG_STAT` bits of hedge h set. -/
def hdgStat (s : State) (h mask : Nat) : State := regOr s (hdgReg h 4) mask

/-- A load joins the array's waiting loads. -/
def queueLoad (s : State) (n : Nat) (j : LoadJob) : State := modArr s n fun a => { a with loads := a.loads ++ [j] }

/-- A rotation's load goes before the loads of the array that have not begun: those wait for the claim to end (R155). -/
def queueLoadFirst (s : State) (n : Nat) (j : LoadJob) : State :=
  modArr s n fun a => { a with loads := a.loads.filter (·.started) ++ [j] ++ a.loads.filter (!·.started) }

/-- A command whose parts have all ended completes with the status gathered. -/
def partDone (s : State) (uid n : Nat) (st : St) : State :=
  let s := modCmd s uid fun c => { c with waits := c.waits.filter (· != n), status := c.status.firstBad st }
  match findCmd s uid with
  | some c => if c.waits.isEmpty then complete s uid c.status else s
  | none => s

/-- A load ends with a status: it leaves the array's loads, returns its token, and its owner hears of it. -/
def loadEnded (s : State) (n : Nat) (j : LoadJob) (st : St) : State :=
  let s := dropTokens (modArr s n fun a => { a with loads := a.loads.drop 1 }) (ownLoad n)
  let s := if st = .format then hdgStat s (n / 8) (2 ^ 9) else s
  match j.why with
  | .cmd uid => partDone s uid n st
  | .copy uid => { s with movers := s.movers.map fun m =>
      if m.uid == uid then { m with loadsLeft := m.loadsLeft.filter (· != n), failed := m.failed.firstBad st } else m }
  | .rotation uid => modRot s uid fun r => { r with loadsLeft := r.loadsLeft.filter (· != n), failed := r.failed.firstBad st }
  | .reload => s

/-- Every hedge of a step. -/
def allHedges (sp : StepSpec) : List Nat := sp.spans.flatten

/-- The span a hedge belongs to. -/
def spanOf (sp : StepSpec) (h : Nat) : Nat := (findIx (fun hs => hs.contains h) sp.spans).getD 0

/-- The hedges of a span. -/
def spanHs (sp : StepSpec) (k : Nat) : List Nat := nth [] sp.spans k

/-- The hedges of a span that receive (R107): those not detached from it. -/
def receivers (r : StepRun) (k : Nat) : List Nat := (spanHs r.spec k).filter fun h => !r.missing.contains h

/-- The hedges of a span that take part in the step: the receivers, or the span's first hedge alone where none is left, which then has
nothing to search but whose output unit closes the group (R107, R131; DESIGN CHOICE, log 62). -/
def takers (r : StepRun) (k : Nat) : List Nat := if (receivers r k).isEmpty then (spanHs r.spec k).take 1 else receivers r k

/-- Hedge h takes part in the step. -/
def takesPart (r : StepRun) (h : Nat) : Bool := (takers r (spanOf r.spec h)).contains h

/-- A command of queue q issued before command `uid` has not finished its work on hedge h (R235). -/
def earlierOn (s : State) (q uid h : Nat) : Bool :=
  (s.steps.any fun t => t.q == q && t.spec.calib.isNone && decide (t.uid < uid) && takesPart t h && !t.ended.contains h) ||
  (s.cmds.any fun c => c.op == 1 && decide (c.uid < uid) && cmdQueue s c == q && c.waits.any fun n => n / 8 == h)

/-- The command a load is made for goes on: its queue is not stopped (R263, R270). -/
def loadWanted (s : State) (j : LoadJob) : Bool :=
  let runs := fun (u : Nat) => match findCmd s u with | some c => mayAct s c | none => false
  match j.why with | .cmd u => runs u | .copy u => runs u | .rotation u => runs u | .reload => true

/-- The load at the head of an array's loads may begin (R89, R155, R235, R349): no other load runs, no step searches the array, no
check runs, no other rotation claims it, and a LOAD's turn on the hedge has come. -/
def loadMayStart (s : State) (n : Nat) (j : LoadJob) : Bool :=
  let a := arr s n
  !j.started && !searching s n && !a.checking && loadWanted s j &&
  (match j.why with | .cmd uid => !earlierOn s j.q uid (n / 8) | _ => true) &&
  (match claimedBy s n with
   | none => true
   | some u => match j.why with | .rotation v => u == v | _ => false)

/-- The MODEL_ID an image's header gives. -/
def imageModel (s : State) (a : Nat) : Word := BitVec.ofNat 32 (le (mread s.mem (a + 0x10) 4))

/-- A load of a withdrawn array, or of another model into a pinned one, is refused before any row is written (R98, R351). -/
def loadBarred (s : State) (n : Nat) (j : LoadJob) : Bool :=
  (arr s n).st == .withdrawn ||
  (match pinOf s n with
   | some m => (imageModel s j.addr.toNat).toNat != m
   | none => false)

/-- What a load may reach: what its command may (R223); a reload, made for no queue, all of device memory (R17). -/
def loadReach (s : State) (j : LoadJob) : Reach :=
  match j.why with
  | .cmd u => reachOf s u j.q
  | .copy u => reachOf s u j.q
  | .rotation u => reachOf s u j.q
  | .reload => { q := 0 }

/-- The schema descriptor a load names, read as the load begins (R61); none where it names none. -/
def loadSchema (s : State) (j : LoadJob) : State × Option (Got (List Byte)) :=
  match j.schema with
  | none => (s, none)
  | some a => let r := readSchemaRaw s (loadReach s j) 0xFE a.toNat; (r.1, some r.2)

/-- The array as a load leaves it while it is written: its most recent LOAD or COPY is the command's own, and a rotation displaces the
image of that load where the array held it (R17, R233). `sch` is the copy of the schema descriptor. -/
def loadingArr (s : State) (j : LoadJob) (sch : Option (List Byte)) (a : Arr) : Arr :=
  let home : Option Home := match j.why with
    | .cmd _ => some { addr := j.addr, model := imageModel s j.src.toNat, schema := j.schema }
    | .copy _ => some { addr := j.addr, model := imageModel s j.src.toNat, schema := none }
    | _ => a.home
  let bumped := match j.why with
    | .rotation _ => a.bumped || (a.st == .ready && a.held.isSome && a.held == a.home.map (·.addr))
    | .reload => a.bumped
    | _ => false
  { a with st := .loading, img := none, held := none, home := home, bumped := bumped,
           loads := match a.loads with | k :: t => { k with started := true, sch := sch } :: t | [] => [] }

/-- ARRAY_LOAD_START: the waiting load at the head begins once it holds its tokens (R53, R89). -/
def loadStart (s : State) (n : Nat) : State :=
  match (arr s n).loads with
  | [] => s
  | j :: _ =>
    if !loadMayStart s n j then s
    else if loadBarred s n j then loadEnded s n j .format
    else
      let t := askTokens s (ownLoad n) false 1
      if !t.2 then t.1
      else
        match loadSchema t.1 j with
        | (s, some (.stop .integrity)) => loadEnded s n j .integrity
        | (s, some (.stop .aperture)) => loadEnded s n j .aperture
        | (s, g) =>
          modArr s n fun a => loadingArr s j (match g with | some (.ok b) => some b | some (.stop _) => some [] | none => none) a

/-- The stored-bit overlay of an array's rows, leaf slots and binning table (stores 4, 5, 6; Table 14-3) cleared, failed cells apart:
its image is written anew. -/
def clearArrQuads (s : State) (n : Nat) : State :=
  { s with quads := s.quads.filter fun e =>
      e.2.hard || !(decide (4 ≤ e.1 / 2 ^ 64) && decide (e.1 / 2 ^ 64 ≤ 6) &&
        e.1 % 2 ^ 64 / 2 ^ 17 == 2 ^ 37 * (e.1 / 2 ^ 64 - 3) + n) }

/-- A load whose image the data mover carries (R158, R168). -/
def moverLoad : LoadFor → Bool
  | .copy _ => true
  | .rotation _ => true
  | _ => false

/-- An image read from memory by hedge loads (R53): its bytes, none where it cannot be read or its header is refused. -/
def imageBytes (s : State) (q shape a : Nat) (size : Option Nat) : State × Option (List Byte) :=
  let h := readMem s q 0xFE a 64
  let hd := hdrOf h.2.bytes
  if h.2.ap || h.2.poison || !(size == none || size == some hd.total) || !identityOk h.2.bytes || !sectionsOk shape hd then (h.1, none)
  else
    let r := readMem h.1 q 0xFE a hd.total
    (r.1, if r.2.ap || r.2.poison then none else some r.2.bytes)

/-- An image read with the checks of Table 2-8 (R53); none where it is refused. A multicast's quads were read by the data mover, once for
all its hedges (R168). -/
def readImage (s : State) (q n : Nat) (a : Nat) (size : Option Nat) (why : LoadFor) (sch : Option Schema) : State × Option ArrImage :=
  if isHost a then (s, none)
  else
    let shape := shapeOf s (n / 8) (n % 8)
    let r := imageBytes s q shape a size
    (if moverLoad why then s else r.1, r.2.bind fun b => parseImage shape sch b)

/-- The rotation of a load is stopping (R160). -/
def rotStopping (s : State) (j : LoadJob) : Bool :=
  match j.why with
  | .rotation u => s.rotations.any fun r => r.uid == u && r.stopping.isSome
  | _ => false

/-- Every byte of a load's image has come (R168): a load that the data mover carries ends after its multicast's last burst. -/
def imageCame (s : State) (j : LoadJob) : Bool :=
  match j.why with
  | .copy u => s.movers.any fun m => m.uid == u && m.sending && decide (leAt m.desc 0x10 4 ≤ m.moved)
  | .rotation u => s.rotations.any fun r => r.uid == u && r.loading && (decide (r.bytes ≤ r.moved) || r.stopping.isSome)
  | _ => true

/-- The load at the head of an array ends without an image (R54): the array is left EMPTY. -/
def loadFails (s : State) (n : Nat) (j : LoadJob) : State :=
  loadEnded (modArr s n fun a => { a with st := .empty, img := none, held := none, bumped := a.bumped && j.why != .reload }) n j .format

/-- ARRAY_LOAD_DONE: the running load ends, the image accepted or the array left empty (R54); the image of a queue being destroyed is
discarded (R270), and so is one of a rotation that stops (R160). -/
def loadDone (s : State) (n : Nat) : State :=
  match (arr s n).loads with
  | [] => s
  | j :: _ =>
    if !j.started then s
    else if j.why ≠ .reload ∧ (queue s j.q).st = .retiring then
      dropTokens (modArr s n fun a => { a with st := .empty, img := none, held := none, loads := a.loads.drop 1 }) (ownLoad n)
    else if !imageCame s j then s
    else if rotStopping s j then loadFails s n j
    else
      match j.sch.map parseSchema with
      | some none => loadFails s n j
      | g =>
        match readImage s j.q n j.src.toNat j.size j.why (g.bind id) with
        | (s, none) => loadFails s n j
        | (s, some im) =>
          let s := modArr (clearArrQuads s n) n fun a =>
            { a with st := .ready, img := some im, held := some j.addr, bumped := a.bumped && j.why != .reload, integ := 0, cls := 0,
                     checkDue := false, checked := false, rewrites := [],
                     pinned := match j.why, a.pinned with | .cmd _, none => some im.model | _, p => p }
          loadEnded s n j .ok

/-- LOAD (R53, R54, R367): a load into position ARRAY of every hedge of HEDGES. -/
def loadRun (s : State) (c : Cmd) : State :=
  let q := cmdQueue s c
  let hs := maskHedges (leAt c.slot 0x20 2)
  let a := leAt c.slot 0x22 1
  if hs.any fun h => !bitOf (bgHedges s (queueBg s q)) h || role s h == 0 then complete s c.uid .format
  else
    let ns := hs.map fun h => arrIx h a
    let img := BitVec.ofNat 64 (op10 c.slot)
    let job : LoadJob := { why := .cmd c.uid, q := q, addr := img, src := img, schema := some (BitVec.ofNat 64 (op18 c.slot)) }
    let s := modCmd s c.uid fun c => { c with waits := ns }
    ns.foldl (fun s n => queueLoad s n job) s

/-! ## Image sets (R94, R233, R351) -/

/-- Another array of the hedges `hs` holds an image loaded from address `a`. -/
def heldElsewhere (s : State) (hs : List Nat) (n : Nat) (a : DWord) : Bool :=
  hs.any fun h => (List.range 8).any fun p =>
    arrIx h p != n && (arr s (arrIx h p)).st != .withdrawn && (arr s (arrIx h p)).held == some a &&
    (match (arr s (arrIx h p)).home with | some m => m.addr == a | none => false)

/-- The positions of hedge h that a step naming `model` searches, over a span `hs` (R233, R351). -/
def imageSet (s : State) (hs : List Nat) (h model : Nat) : List Nat :=
  (List.range 8).filter fun p =>
    match (arr s (arrIx h p)).home with
    | some m => m.model.toNat == model &&
        !((arr s (arrIx h p)).st == .withdrawn && heldElsewhere s hs (arrIx h p) m.addr)
    | none => false

/-- The group of a step on its first hedge, where it stands open. -/
def stepGroup (s : State) (sp : StepSpec) : Option Group :=
  sp.spans.flatten.head?.bind fun h => ((hedge s h).groups.find? fun x => x.1 == sp.group).map (·.2)

/-- The epoch of a REDUCE step's group (R324): as marked, that of the open group, or the epoch in force. -/
def stepEpoch (s : State) (sp : StepSpec) : Nat :=
  match sp.epoch with
  | some e => e
  | none => if sp.opens then epochNow s else match stepGroup s sp with | some g => g.epoch | none => epochNow s

/-- The group of a step is, or is to be, EXACT: as the group's copy says once it is open (R114). -/
def stepExact (s : State) (sp : StepSpec) : Bool :=
  match sp.exact with
  | some b => b
  | none => if sp.opens then mget s.mem (sp.accd + 8) == 0 else match stepGroup s sp with | some g => leAt g.accd 8 1 == 0 | none => false

/-- A REDUCE step searches the image of an array (R318): it is of a slice this device serves. An array without an image is not passed
over. -/
def imageServed (s : State) (sp : StepSpec) (model n : Nat) : Bool :=
  match modelEntry s model, (arr s n).img with
  | some e, some im => bitOf (servedMask s (stepEpoch s sp) e (stepExact s sp)) (imageSlice s e im)
  | _, _ => true

/-- The positions a step searches on hedge h: a round's positions, or its image set, of which a REDUCE step passes over the images of
other slices (R318). -/
def stepArrays (s : State) (sp : StepSpec) (hs : List Nat) (h model : Nat) : List Nat :=
  match sp.arrays with
  | some ps => ps
  | none =>
    let ps := imageSet s hs h model
    if sp.reduce then ps.filter fun p => imageServed s sp model (arrIx h p) else ps

/-- The address that tells replicas apart (R94): that of the array's most recent load. -/
def replicaKey (s : State) (sp : StepSpec) (n : Nat) : Nat :=
  match sp.arrays with
  | some _ => n
  | none => match (arr s n).home with | some m => m.addr.toNat | none => 2 ^ 64 + n

/-- The replica sets of a set of positions, in order of their first position (R94). -/
def replicaSets (s : State) (sp : StepSpec) (h : Nat) : Nat → List Nat → List (List Nat)
  | 0, _ => []
  | k + 1, ps =>
    match ps with
    | [] => []
    | p :: _ =>
      let key := replicaKey s sp (arrIx h p)
      (ps.filter fun x => replicaKey s sp (arrIx h x) == key) ::
        replicaSets s sp h k (ps.filter fun x => replicaKey s sp (arrIx h x) != key)

/-- An array does not hold the image of its most recent LOAD or COPY. -/
def holdsOther (s : State) (n : Nat) : Bool :=
  match (arr s n).home with
  | some m => (arr s n).held != some m.addr
  | none => true

/-- An array needs its image reloaded before a step that names it (R17): a rotation has displaced it, whether the rotation left an image
of its own or none (R54, R155). -/
def displaced (s : State) (n : Nat) : Bool :=
  (arr s n).bumped && ((arr s n).st == .ready || (arr s n).st == .empty) && holdsOther s n

/-- A step finds the array without the image it needs (R54): EMPTY, or with an image other than that of its most recent load. A round's
positions are searched as they stand. -/
def lacksImage (s : State) (sp : StepSpec) (n : Nat) : Bool :=
  (arr s n).st == .empty || (sp.arrays.isNone && (arr s n).st == .ready && holdsOther s n)

/-- The array is not to be searched yet: it loads, is checked, or waits for a rewrite (R89, R347, R349). -/
def arrayBusy (s : State) (n : Nat) : Bool :=
  let a := arr s n
  (a.st == .loading && !a.retest) || (a.checking && !a.retest) || !a.rewrites.isEmpty

/-! ## Spans and record slots -/

/-- First batch position of span k of S over B records (R95). -/
def spanStart (b sN k : Nat) : Nat := k * b / sN

/-- Records of span k (R95). -/
def spanCount (sp : StepSpec) (k : Nat) : Nat :=
  spanStart sp.records sp.spans.length (k + 1) - spanStart sp.records sp.spans.length k

/-- Partition p of hedge h. -/
def part (s : State) (h p : Nat) : Part := sget {} (hedge s h).parts p

/-- Partition p of hedge h changed. -/
def modPart (s : State) (h p : Nat) (f : Part → Part) : State :=
  modHedge s h fun k => { k with parts := sset k.parts p (f (sget {} k.parts p)) }

/-- Skid of binding group g at hedge h (R105). -/
def skid (s : State) (h g : Nat) : List HeldRec := sget [] (hedge s h).skids g

/-- Records of a step in slots of hedge h. -/
def placed (s : State) (h p uid : Nat) : List HeldRec := (part s h p).occ.filter (·.uid == uid)

/-- Borrowed slots without a record (R102). -/
def borrowedOpen (s : State) (h p : Nat) : Nat :=
  ((part s h p).borrows.map fun b => b.n - ((part s h p).occ.filter fun r => r.uid == b.uid && r.borrowed).length).sum

/-- Free slots of a partition (R102). -/
def freeSlots (s : State) (h p : Nat) : Nat := slotCount s h p - (part s h p).occ.length - borrowedOpen s h p

/-- Slots of the shared pool free now (R104). -/
def poolFree (s : State) (h p : Nat) : Nat := poolSize s h p - ((part s h p).borrows.map (·.n)).sum

/-- Floor slots of a group in use. -/
def floorUsed (s : State) (h p g : Nat) : Nat := ((part s h p).occ.filter fun r => r.bg == g && !r.borrowed).length

/-- The oldest step of queue q with records still to send (R105). -/
def sendingStep (s : State) (q : Nat) : Option StepRun :=
  s.steps.find? fun r => r.q == q && (List.range r.spec.spans.length).any fun k => decide (sget 0 r.sent k < spanCount r.spec k)

/-- A record read for the multicast: its bytes and whether a quad of it was poisoned (R59). -/
def readRecord (s : State) (r : StepRun) (pos : Nat) : State × Rd :=
  readMem s r.q 0xFE (r.spec.batch + pos * r.spec.stride) (peekSize s r.spec.schema)

/-- The quads of a record, counted from its first, that were delivered poisoned. -/
def recordBad (s : State) (r : StepRun) (pos n : Nat) : List Nat :=
  (List.range n).filter fun i => (readMem s r.q 0xFE (r.spec.batch + pos * r.spec.stride + 16 * i) 16).2.poison

/-- The next record of a span sent to every receiving hedge (R105); its TAG is kept for the results of hedges that lack it. -/
def sendRecord (s : State) (r : StepRun) (k : Nat) : State :=
  let pos := spanStart r.spec.records r.spec.spans.length k + sget 0 r.sent k
  let d := readRecord s r pos
  let n := d.2.bytes.length
  let rec_ : HeldRec := { uid := r.uid, pos := pos, bg := r.bg, bytes := d.2.bytes, len := n,
                          bad := if d.2.poison then recordBad s r pos (n / 16) else [] }
  let s := (receivers r k).foldl (fun s h =>
    modHedge s h fun e => { e with skids := sset e.skids r.bg (sget [] e.skids r.bg ++ [rec_]) }) d.1
  let s := if d.2.ap then modStep s r.uid fun r => { r with status := r.status.firstBad .aperture } else s
  modStep s r.uid fun r => { r with sent := sset r.sent k (sget 0 r.sent k + 1), tags := sset r.tags pos (leAt d.2.bytes 0 8) }

/-- The records of a step may begin to go to a span (R97, R104): each of its hedges takes steps, and no step of the same binding group is
part-way through its own records to one of them, so that a group's floor holds whole steps in the order begun (log 54). -/
def mayBegin (s : State) (r : StepRun) (k : Nat) : Bool :=
  (receivers r k).all fun h => (hedge s h).en.en && !(hedge s h).restructuring &&
    s.steps.all fun t => t.uid == r.uid || t.bg != r.bg || (List.range t.spec.spans.length).all fun j =>
      !(receivers t j).contains h || sget 0 t.sent j == 0 || sget 0 t.sent j == spanCount t.spec j

/-- MULTICAST_RECORD_SEND (R105, R107): the first span of the queue's oldest sending step that still has records sends one, where
every receiving hedge has a free skid entry; a hedge without one is marked BLOCKED. The records of a rotation go as soon as its command runs,
whether or not its claim is granted yet (DESIGN CHOICE, log 81: R157 says only before round 0). -/
def multicastSend (s : State) (q : Nat) : State :=
  match sendingStep s q with
  | none => s
  | some r =>
    let ks := (List.range r.spec.spans.length).filter fun k =>
      decide (sget 0 r.sent k < spanCount r.spec k) && (decide (0 < sget 0 r.sent k) || mayBegin s r k) &&
      (receivers r k).all fun h => !(hedge s h).restructuring
    match ks.find? fun k => (receivers r k).all fun h => decide ((skid s h r.bg).length < Config.skidDepth) with
    | some k => sendRecord s r k
    | none =>
      match ks with
      | k :: _ => ((receivers r k).filter fun h => decide (Config.skidDepth ≤ (skid s h r.bg).length)).foldl
          (fun s h => hdgStat s h (2 ^ 10)) s
      | [] => s

/-- Every record of the step stands in a slot of every receiving hedge, or the hedge has started the step. -/
def allPlaced (s : State) (r : StepRun) : Bool :=
  (List.range r.spec.spans.length).all fun k => (receivers r k).all fun h =>
    r.started.contains h || (placed s h (bgPart s r.bg) r.uid).length == spanCount r.spec k

/-- A RECORD queue's CI passes a step's records once every hedge has taken them (R226). -/
def noteTaken (s : State) (uid : Nat) : State :=
  match findStep s uid, findCmd s uid with
  | some r, some c =>
    if c.record ∧ !r.taken ∧ allPlaced s r then
      passRecords (modStep s uid fun r => { r with taken := true }) r.q c.idx r.spec.records
    else s
  | _, _ => s

/-- The lowest number not in a list, from `i` on; `n` bounds the numbers tried. -/
def lowestFree (l : List Nat) : Nat → Nat → Nat
  | 0, i => i
  | n + 1, i => if l.contains i then lowestFree l n (i + 1) else i

/-- Address of slot i of partition p of hedge h: the partitions stand one after another from the start of the hedge's scratchpad (R27,
R101; DESIGN CHOICE, log 53). -/
def recAddr (s : State) (h p i : Nat) : Nat :=
  Config.hedgeScratchBase + h * Config.hedgeScratchSize +
    (((List.range p).map fun k => slotBytes s h k * slotCount s h k).sum + i * slotBytes s h p) % Config.hedgeScratchSize

/-- A record in a slot read by its hedge (R86, R343): its bytes, and whether a quad of it was poisoned. -/
def readSlot (s : State) (h p : Nat) (x : HeldRec) : State × List Byte × Bool :=
  let r := readMem s 0 0xFE (recAddr s h p x.slot) x.len
  (r.1, r.2.bytes, r.2.poison)

/-- A record written into the lowest free slot of a partition, poisoned quads poisoned (R59, R102). -/
def placeRec (s : State) (h p : Nat) (r : HeldRec) (borrowed : Bool) : State :=
  let occ := (part s h p).occ
  let i := lowestFree (occ.map (·.slot)) occ.length 0
  let n := min r.len (slotBytes s h p)
  let a := recAddr s h p i
  let s := (writeMem s 0 0xFE a (r.bytes.take n)).1
  let s := (r.bad.filter fun k => decide (16 * k < n)).foldl (fun s k => (writePoison 1 s 0 (a + 16 * k)).1) s
  let x : HeldRec := { r with bytes := [], bad := [], slot := i, len := n, borrowed := borrowed }
  modPart s h p fun pt => { pt with occ := pt.occ ++ [x] }

/-- The skid that a group number of SKID_TO_SLOT names: on a reserved hedge, 0 to 3 are the receiver units (R99, R105; DESIGN CHOICE,
log 63). -/
def skidOf (s : State) (h g : Nat) : Nat := if role s h = 2 ∧ g < 4 then 64 + g else g

/-- SKID_TO_SLOT (R102 to R105): the oldest record of a skid moves into a slot of its step's borrow or of its group's floor; where
neither has one, a borrow is asked for under R104. -/
def skidToSlot (s : State) (h g0 : Nat) : State :=
  let g := skidOf s h g0
  match skid s h g with
  | [] => s
  | r :: rest =>
    let p := bgPart s g
    let pt := part s h p
    let drop := fun (s : State) => modHedge s h fun e => { e with skids := sset e.skids g rest }
    let mine := pt.borrows.find? (·.uid == r.uid)
    let room := match mine with
      | some b => decide ((pt.occ.filter fun (x : HeldRec) => x.uid == r.uid && x.borrowed).length < b.n)
      | none => false
    if room then noteTaken (drop (placeRec s h p r true)) r.uid
    else if floorUsed s h p g < bgFloor s g ∧ (g < 64 ∨ 0 < freeSlots s h p) then noteTaken (drop (placeRec s h p r false)) r.uid
    else
      let n := match findStep s r.uid with | some t => queueStep s t.q | none => 0
      let other := pt.occ.any fun x => x.bg == g && x.uid != r.uid
      if mine.isNone && !pt.waiting.any (·.uid == r.uid) && other && decide (n ≤ poolSize s h p) && decide (0 < n) then
        modPart s h p fun pt => { pt with waiting := pt.waiting ++ [({ uid := r.uid, bg := g, n := n } : Borrow)] }
      else s

/-- POOL_BORROW_GRANTED (R104): the oldest request of a partition is granted whole where the pool has that many free slots. -/
def poolBorrow (s : State) (h p : Nat) : State :=
  match (part s h p).waiting with
  | [] => s
  | b :: rest =>
    if b.n ≤ poolFree s h p then modPart s h p fun pt => { pt with waiting := rest, borrows := pt.borrows ++ [b] } else s

/-- A command's records, borrows and requests leave a hedge: slots return to free (R88, R102). -/
def freeRecords (s : State) (h uid : Nat) : State :=
  modHedge s h fun e =>
    let clean := fun (p : Part) =>
      { p with occ := p.occ.filter (·.uid != uid), borrows := p.borrows.filter (·.uid != uid), waiting := p.waiting.filter (·.uid != uid) }
    { e with parts := e.parts.map (fun x => (x.1, clean x.2)), skids := e.skids.map (fun x => (x.1, x.2.filter (·.uid != uid))) }

/-! ## Groups -/

/-- Group g of hedge h, where open or closing. -/
def group (s : State) (h g : Nat) : Option Group := ((hedge s h).groups.find? fun x => x.1 == g).map (·.2)

/-- Group g of hedge h set. -/
def setGroup (s : State) (h g : Nat) (v : Group) : State := modHedge s h fun e => { e with groups := sset e.groups g v }

/-- Group g of hedge h changed. -/
def modGroup (s : State) (h g : Nat) (f : Group → Group) : State :=
  match group s h g with
  | some v => setGroup s h g (f v)
  | none => s

/-- Rows bound to the groups of a hedge, closing ones or open ones. -/
def rowsOfGroups (s : State) (h : Nat) (closing : Bool) : Nat :=
  (((hedge s h).groups.filter fun g => g.2.closing == closing).map fun g => (g.2.rows.map (·.2)).sum).sum

/-- Free accumulator rows of a hedge (R129). -/
def freeRows (s : State) (h : Nat) : Nat := Config.accRows - rowsOfGroups s h true - rowsOfGroups s h false

/-- The runs of rows that no group holds, ascending: from row `lo`, over the sorted runs held. -/
def gaps : Nat → List (Nat × Nat) → List (Nat × Nat)
  | lo, [] => if lo < Config.accRows then [(lo, Config.accRows - lo)] else []
  | lo, (a, n) :: t => if lo < a then (lo, a - lo) :: gaps (a + n) t else gaps (max lo (a + n)) t

/-- Insertion of a run in ascending order. -/
def insertRun (x : Nat × Nat) : List (Nat × Nat) → List (Nat × Nat)
  | [] => [x]
  | y :: t => if x.1 ≤ y.1 then x :: y :: t else y :: insertRun x t

/-- The lowest `n` rows of the free runs (log 13). -/
def takeRows : Nat → List (Nat × Nat) → List (Nat × Nat)
  | 0, _ => []
  | _, [] => []
  | n + 1, (a, k) :: t => if n + 1 ≤ k then [(a, n + 1)] else (a, k) :: takeRows (n + 1 - k) t

/-- `n` rows bound on a hedge. -/
def bindRows (s : State) (h n : Nat) : List (Nat × Nat) :=
  let held := (hedge s h).groups.foldl (fun l g => g.2.rows.foldl (fun l r => insertRun r l) l) []
  takeRows n (gaps 0 held)

/-- The group's rows hold 0 (R116). -/
def clearRows (acc : SMap (BitVec 640)) (rows : List (Nat × Nat)) : SMap (BitVec 640) :=
  acc.filter fun x => !rows.any fun r => decide (r.1 ≤ x.1) && decide (x.1 < r.1 + r.2)

/-- The group ends on a hedge: its rows return to free (R127). -/
def dropGroup (s : State) (h g : Nat) : State :=
  modHedge s h fun e =>
    { e with acc := clearRows e.acc (match e.groups.find? fun x => x.1 == g with | some v => v.2.rows | none => []),
             groups := e.groups.filter fun x => x.1 != g }

/-- HEDGES of a step as a mask. -/
def hedgeMask (sp : StepSpec) : Nat := ((allHedges sp).map fun h => 2 ^ h).sum

/-- The group a step opens on hedge h, its rows already chosen. -/
def newGroup (r : StepRun) (accd : List Byte) (rows : List (Nat × Nat)) : Group :=
  { q := r.q, hedges := hedgeMask r.spec, span := (spanHs r.spec 0).length, records := r.spec.records, accd := accd, rows := rows,
    epoch := (r.spec.epoch).getD 0 }

/-- Rows a step's group needs on hedge h. -/
def rowsNeeded (r : StepRun) (d : Accd) (h : Nat) : Nat := groupRows d (spanCount r.spec (spanOf r.spec h))

/-- The Open checks of Table 5-3 that depend on the hedges. -/
def openFits (s : State) (r : StepRun) (d : Accd) : Bool :=
  (allHedges r.spec).all fun h =>
    decide (rowsNeeded r d h ≤ Config.accRows) && decide (rowsNeeded r d h ≤ bgRowCap s r.bg) &&
    (group s h r.spec.group).isNone && !((hedge s h).opens.any fun o => o.group == r.spec.group) &&
    decide ((hedge s h).groups.length + (hedge s h).opens.length < min 64 (maxGroups s h))

/-- The group may be opened now on every hedge of the step (R127): it is at the head of the waiting opens of each and each has the
rows. Taken whole over all hedges, so that two opens never wait for each other (R275, log 14). -/
def openReady (s : State) (r : StepRun) (d : Accd) : Bool :=
  (allHedges r.spec).all fun h =>
    decide (rowsNeeded r d h ≤ freeRows s h) &&
    (match (hedge s h).opens with | o :: _ => o.uid == r.uid | [] => true)

/-- The group opened on every hedge of the step, one detached from it too: a later step asks for it on all of them (R126, R127). -/
def openGroup (s : State) (r : StepRun) (accd : List Byte) : State :=
  let sp := { r.spec with epoch := some (stepEpoch s r.spec), exact := some (accdOf accd).exact }
  let s := modStep s r.uid fun r => { r with spec := sp }
  let r := { r with spec := sp }
  let s := (allHedges r.spec).foldl (fun s h =>
    let rows := bindRows s h (rowsNeeded r (accdOf accd) h)
    let s := setGroup s h r.spec.group (newGroup r accd rows)
    modHedge s h fun e => { e with opens := e.opens.filter (·.uid != r.uid), acc := clearRows e.acc rows }) s
  modStep s r.uid fun r => { r with opened := true }

/-- The open joins every hedge's waiting opens; the descriptor as it was checked is what the group will be opened with (R114, DESIGN
CHOICE, log 64). -/
def waitOpen (s : State) (r : StepRun) (accd : List Byte) : State :=
  let s := (allHedges r.spec).foldl (fun s h =>
    modHedge s h fun e => { e with opens := e.opens ++ [{ uid := r.uid, group := r.spec.group }] }) s
  modStep s r.uid fun r => { r with accdCopy := accd }

/-! ## Start checks -/

/-- The blocks of an image's trees, ascending with repeats removed (R122). -/
def imageBlocks (d : Accd) (im : ArrImage) : List Nat := (im.segs.map fun g => g.tree.toNat / 2 ^ d.blockLog2).dedup

/-- The images a step searches on a hedge, one of each replica set (positions with their image). -/
def stepImages (s : State) (sp : StepSpec) (h model : Nat) : List (Nat × ArrImage) :=
  let ps := stepArrays s sp (spanHs sp (spanOf sp h)) h model
  (replicaSets s sp h 8 ps).filterMap fun set => match set with
    | p :: _ => (arr s (arrIx h p)).img.map fun im => (p, im)
    | [] => none

/-- The Step rows of Table 5-3 on the images of one hedge; the second Bool is the order of R122 and R123, whose breach sets ORDER. -/
def stepImagesOk (d : Accd) (g : Option Group) (span : Nat) (ims : List (Nat × ArrImage)) : Bool × Bool :=
  let basic := ims.all fun x => x.2.model.toNat == d.model && (d.legacy || decide (x.2.outIx < d.outputs)) &&
    decide (-320 ≤ x.2.scale) && decide (x.2.scale ≤ if x.2.wide then 129 else 193)
  let fixed := !d.fixed || (ims.all (fun x => !x.2.wide && some x.2.scale == (ims.head?.map fun y => y.2.scale)) &&
    decide ((g.map (·.steps)).getD 0 = 0) && decide (span ≤ 1))
  let stats := !d.stats || ims.all fun x => !x.2.wide && decide (-160 ≤ x.2.scale) && decide (x.2.scale ≤ 65)
  let all := (ims.map fun x => imageBlocks d x.2).flatten
  let lo := (all.min?).getD 0
  let hi := (all.max?).getD 0
  let order := !d.float || all.isEmpty ||
    ((match g with
      | none => true
      | some v => v.runStart.isNone || (if d.pairwise then lo == v.runEnd else decide (v.runEnd ≤ lo))) &&
     (!d.pairwise || decide (hi < d.blocks)))
  (basic && fixed && stats && (!d.float || allDistinct all), order)

/-- The Records check of Table 3-4 and the slot size of R101 on the records in a hedge's slots. -/
def recordsOk (s : State) (r : StepRun) (sch : Schema) (h : Nat) : Bool :=
  let p := bgPart s r.bg
  decide (sch.size ≤ slotBytes s h p) && (placed s h p r.uid).all fun x =>
    let b := (readSlot s h p x).2
    b.2 || (leAt b.1 8 4 == sch.id && leAt b.1 12 2 == sch.size && leAt b.1 15 1 == 0)

/-- The group a later step names stands open for it on every hedge (R126, R137). -/
def laterOk (s : State) (r : StepRun) : Bool :=
  (allHedges r.spec).all fun h => match group s h r.spec.group with
    | some g => !g.closing && g.q == r.q && g.hedges == hedgeMask r.spec && g.span == (spanHs r.spec 0).length &&
        g.records == r.spec.records
    | none => false

/-- The step is to open its group. -/
def toOpen (r : StepRun) : Bool := r.spec.opens && !r.opened

/-- What a step may reach: what its command may; an LC-128 step, what the SLOT_RUN of its stream may (R190, R223). -/
def stepReach (s : State) (r : StepRun) : Reach :=
  match r.spec.calib with
  | some (u, k) => match (sget ({} : Stream) (sget ({} : Rxu) s.rxus u).streams (k % 8)).run with
    | some x => reachOf s x.uid r.q
    | none => { q := r.q }
  | none => reachOf s r.uid r.q

/-- The schema descriptor of a step: its copy where the checks have read it (R61). -/
def stepSchemaRaw (s : State) (r : StepRun) : State × Got (List Byte) :=
  if r.sch.isEmpty then readSchemaRaw s (stepReach s r) 0xFE r.spec.schema else (s, .ok r.sch)

/-- The schema that a step's copy gives. -/
def schemaOf (b : List Byte) : Schema := (parseSchema b).getD { id := 0, size := 0, feats := [] }

/-- The accumulation descriptor of a step: the open group's copy, or the one read at open (R114). -/
def readAccd (s : State) (r : StepRun) : State × Got (List Byte) :=
  if toOpen r then readStruct s (stepReach s r) 0xFE r.spec.accd 32 32
  else match (allHedges r.spec).head?.bind fun h => group s h r.spec.group with
    | some g => (s, .ok g.accd)
    | none => (s, .stop .format)

/-- x is 2^j for some j. -/
def isPow2 (x : Nat) : Bool := x != 0 && 2 ^ Nat.log2 x == x

/-- A REDUCE group needs a model-table entry and a mode other than FIXED (R324), images of one slice each, and under PAIRWISE whole
nodes for slices (R318); the standing step of a ring queue needs REDUCE (R319). -/
def reduceOk (s : State) (r : StepRun) (d : Accd) : Bool :=
  (!r.spec.reduce || (match modelEntry s d.model with
    | none => false
    | some e => !d.fixed &&
      (!d.pairwise || (entryTrees s e % 2 ^ d.blockLog2 == 0 && isPow2 (entryTrees s e / 2 ^ d.blockLog2))) &&
      (allHedges r.spec).all fun h => r.spec.arrays.isSome || (imageSet s (spanHs r.spec (spanOf r.spec h)) h d.model).all fun p =>
        match (arr s (arrIx h p)).img with | some im => oneSlice s e im | none => true)) &&
  (r.spec.reduce || !isRecord s r.q || (ringEntry s r.q).isNone)

/-- What the start checks of a step find (R61, R115): the accumulation and schema descriptors, or the refusing status with the ORDER
condition. -/
inductive StartCheck where
  | pass (accd sch : List Byte)
  | refuse (st : St) (order : Bool)
  deriving Repr

/-- The checks on a step's images (Tables 3-4 and 5-3) under its descriptors; `ok` where they pass. -/
def imageChecks (s : State) (r : StepRun) (sch : Schema) (d : Accd) (ok : StartCheck) : StartCheck :=
  let hs := (allHedges r.spec).filter fun h => !r.missing.contains h
  let ims := hs.map fun h => (h, stepImages s r.spec h d.model)
  let lacks := hs.any fun h => (stepArrays s r.spec (spanHs r.spec (spanOf r.spec h)) h d.model).any fun p => lacksImage s r.spec (arrIx h p)
  if lacks ∨ !(ims.all fun x => x.2.all fun y => imageFits sch y.2) ∨ !reduceOk s r d then .refuse .format false
  else
    let g := fun h => if toOpen r then none else group s h r.spec.group
    let oks := ims.map fun x => stepImagesOk d (g x.1) (spanHs r.spec 0).length x.2
    if !(oks.all (·.1)) then .refuse .format false else if !(oks.all (·.2)) then .refuse .format true else ok

/-- Every start check of a step over all its hedges: Table 3-4 first, then Table 5-3. -/
def startChecks (s : State) (r : StepRun) : State × StartCheck :=
  if r.status ≠ .ok then (s, .refuse r.status false)
  else
    match stepSchemaRaw s r with
    | (s, .stop st) => (s, .refuse st false)
    | (s, .ok sb) =>
      let sch := schemaOf sb
      if r.spec.stride < sch.size ∨ !((allHedges r.spec).all fun h => r.missing.contains h || recordsOk s r sch h) ∨
         (!r.spec.opens ∧ !laterOk s r) then (s, .refuse .format false)
      else
        match readAccd s r with
        | (s, .stop st) => (s, .refuse st false)
        | (s, .ok b) =>
          if toOpen r ∧ !(accdOk b ∧ openFits s r (accdOf b)) then (s, .refuse .format false)
          else (s, imageChecks s r sch (accdOf b) (.pass b sb))

end Sys2Proof.Machine
end

