-- ==== Sys2Proof/Machine/Steps.lean ====
section
/-! DEFINITION. A hedge's running step: its start (R89, R97, R99), the sums of its searches (R43, R85 to R88, R113 to R125), tile replays
(R120, R121) and its end. -/

namespace Sys2Proof.Machine

/-! ## Stored-bit errors of an array -/

/-- Folded-address prefix of an array's stores 4, 5, 6: code `k` 1, 2, 3 (Table 14-3). -/
def arrFold (k n : Nat) : Nat := 2 ^ 54 * k + 2 ^ 17 * n

/-- The overlay entries of an array in a store, by the low 17 bits of their folded address. -/
def arrOverlay (s : State) (store k n : Nat) : List (Nat × QuadState) :=
  s.quads.filterMap fun e =>
    if e.1 / 2 ^ 64 = store ∧ e.1 % 2 ^ 64 / 2 ^ 17 = arrFold k n / 2 ^ 17 then some (e.1 % 2 ^ 17, e.2) else none

/-- The stored bits of an array's match rows that differ, row by row as (value plane, care plane) (R51, R347). -/
def matchErrs (s : State) (n : Nat) : SMap (Nat × Nat) :=
  (arrOverlay s 4 1 n).foldl (fun m e =>
    let row := e.1 / 32
    let q := e.1 % 32
    let bits := e.2.err.toNat / 2 ^ 18 % 2 ^ 128 * 2 ^ (512 * (q / 8) + 128 * (q % 4))
    let old := sget ((0, 0) : Nat × Nat) m row
    sset m row (if q % 8 < 4 then (old.1 ^^^ bits, old.2) else (old.1, old.2 ^^^ bits))) []

/-- What a read of an array's leaf slot or binning quad finds (R336, R347): counters, and whether the contents cannot be used. -/
def arrQuadRead (s : State) (store f : Nat) (zero : Bool) : State × Bool :=
  let v := quadState s store f
  if v = {} then (s, false)
  else match classify v.poison zero v.err.toNat v.adx.toNat with
    | .clean => (s, false)
    | .poisoned => (countPoison s store, true)
    | .ce p => (countCe s store, p)
    | .ue => (countPoison (countUe s store 0xFE (f * 16)) store, true)
    | .ae => (countPoison (countAe s store 0xFE (f * 16)) store, true)

/-- A binning-table quad that searches of the image need: a comparator entry, a set bitmap or a route in use (R71). -/
def binNeeded (im : ArrImage) (qi : Nat) : Bool :=
  decide (qi < cdiv im.comps.length 2) || (decide (1024 ≤ qi) && decide (qi < 1024 + 32 * im.sets.length)) ||
  (decide (2816 ≤ qi) && decide (qi < 2816 + cdiv im.comps.length 8))

/-- The quads a search reads beside the match rows: the Bool says one of them cannot be used, so the search is INTEG (R347). -/
def searchReads (s : State) (n : Nat) (im : ArrImage) (rows : List Nat) : State × Bool :=
  let bins := (arrOverlay s 6 3 n).filter fun e => binNeeded im e.1
  let leaves := (arrOverlay s 5 2 n).filter fun e => rows.contains (e.1 / 32)
  let r := bins.foldl (fun a e => let x := arrQuadRead a.1 6 (arrFold 3 n + e.1) false; (x.1, a.2 || x.2)) (s, false)
  leaves.foldl (fun a e =>
    let x := arrQuadRead a.1 5 (arrFold 2 n + e.1) (sget (0 : BitVec 128) im.leaves (e.1 / 32) == 0); (x.1, a.2 || x.2)) r

/-- A search flagged INTEG: the array and the hedge report it (R43, R349). -/
def noteInteg (s : State) (n : Nat) : State :=
  let s := hdgStat s (n / 8) (2 ^ 8)
  modArr s n fun a => { a with integ := min 0xFFFF (a.integ + 1), checkDue := a.checkDue || !a.checked }

/-- One search of array n for a record (R86): each segment's tree and leaf integer, or none for INTEG. -/
def searchOne (s : State) (sch : Schema) (n : Nat) (rec_ : List Byte) : State × Option (List (Nat × Int)) :=
  match (arr s n).img with
  | none => (s, none)
  | some im =>
    match searchImage sch im (matchErrs s n) rec_ with
    | none => (noteInteg s n, none)
    | some hs =>
      let r := searchReads s n im (hs.map fun h => h.2.2)
      if r.2 then (noteInteg r.1 n, none) else (r.1, some (hs.map fun h => (h.1, h.2.1)))

/-- What the arrays of a hedge give for one record: position, image, and each segment's tree and leaf integer. -/
abbrev Hits := List (Nat × ArrImage × List (Nat × Int))

/-- The searches of one record at local index i on every replica set (R94): the hits, and whether any search was INTEG. -/
def searchRecord (s : State) (sch : Schema) (h i : Nat) (rec_ : List Byte) : List (List Nat) → State × Hits × Bool
  | [] => (s, [], false)
  | set :: t =>
    let p := nth 0 set (i % max 1 set.length)
    let n := arrIx h p
    let r : State × Option (List (Nat × Int)) := if (arr s n).st = .withdrawn then (s, none) else searchOne s sch n rec_
    let rest := searchRecord r.1 sch h i rec_ t
    match r.2, (arr s n).img with
    | some hs, some im => (rest.1, (p, im, hs) :: rest.2.1, rest.2.2)
    | _, _ => (rest.1, rest.2.1, true)

/-! ## Accumulation -/

/-- The exact array sum A (R113). -/
def arraySum (hs : List (Nat × Int)) : Int := (hs.map (·.2)).sum

/-- The exact sum of squares Q_A (R113). -/
def arraySq (hs : List (Nat × Int)) : Int := (hs.map fun x => x.2 * x.2).sum

/-- Where a record's rows stand: the group's rows, its descriptor, the records of the hedge's block and the record's local index. -/
structure Place where
  rows : List (Nat × Nat)
  d : Accd
  n : Nat
  i : Nat

/-- Physical row of the record's k-th row. -/
def Place.row (p : Place) (k : Nat) : Nat := physRow p.rows (localRow p.d p.n p.i k)

/-- A row changed as an EX640 integer. -/
def exRow (acc : SMap (BitVec 640)) (row : Nat) (f : Int → Int) : SMap (BitVec 640) :=
  sset acc row (intRow (f (rowInt (sget 0 acc row))))

/-- EXACT: each array sum is added to its output's row, and Q_A to its square row (R116, R132). -/
def accExact (p : Place) (acc : SMap (BitVec 640)) (hits : Hits) : SMap (BitVec 640) :=
  hits.foldl (fun acc h =>
    let k := if p.d.legacy then h.1 else h.2.1.outIx
    let acc := exRow acc (p.row k) fun n => exAdd n (scaled (arraySum h.2.2) h.2.1.scale)
    if p.d.stats then
      exRow acc (p.row (p.d.outputs + h.2.1.outIx)) fun n => exAdd n (scaled (arraySq h.2.2) (2 * h.2.1.scale))
    else acc) acc

/-- Insertion of a hit by the lowest TREE_INDEX of its image (R119). -/
def insertHit (x : Nat × ArrImage × List (Nat × Int)) : Hits → Hits
  | [] => [x]
  | y :: t =>
    let low := fun (z : Nat × ArrImage × List (Nat × Int)) => ((z.2.1.segs.map fun g => g.tree.toNat).min?).getD 0
    if low x ≤ low y then x :: y :: t else y :: insertHit x t

/-- FIXED: the array sums of one accumulator (an output, or a LEGACY position) at replay count r, in the order of R119. -/
def fixedSums (d : Accd) (r : Nat) (hits : Hits) (k : Nat) : List Int :=
  let mine := hits.filter fun h => (if d.legacy then h.1 else h.2.1.outIx) == k
  (mine.foldl (fun l h => insertHit h l) []).map fun h => ((h.2.2.map fun x => coarse r x.2)).sum

/-- The FIXED accumulators of a record: outputs, or eight positions under LEGACY. -/
def fixedSlots (d : Accd) : List Nat := List.range (if d.legacy then 8 else d.outputs)

/-- The tile of accumulator k of local record i among n records (R119, R126): a LEGACY group has its own tiles for each array position
(R128, Table 5-5). -/
def tileOf (d : Accd) (n i k : Nat) : Nat := (if d.legacy then k * cdiv n d.tileRecs else 0) + i / d.tileRecs

/-- A record's FIXED additions into a tile leave the S64 range at replay count r (R120). -/
def fixedOverflow (d : Accd) (n i tile r : Nat) (hits : Hits) : Bool :=
  (fixedSlots d).any fun k => tileOf d n i k == tile && (fixedFold r 0 (fixedSums d r hits k)).2

/-- FIXED: the record's accumulators written, each at its tile's replay count (R119, R120). The Bool says one saturated. -/
def accFixed (p : Place) (reps : SMap Nat) (acc : SMap (BitVec 640)) (hits : Hits) : SMap (BitVec 640) × Bool :=
  (fixedSlots p.d).foldl (fun a k =>
    let r := sget 0 reps (tileOf p.d p.n p.i k)
    let f := fixedFold r 0 (fixedSums p.d r hits k)
    let row := p.row (if p.d.legacy then k else k / 10)
    let lo := if p.d.legacy then 0 else 64 * (k % 10)
    (sset a.1 row (setRowBits (sget 0 a.1 row) lo 64 (unsigned 64 f.1)), a.2 || f.2)) (acc, false)

/-- The replay count of a record's result: the greatest of the tiles that its sums reached, or of all its tiles where they reached none
(R120, R128; DESIGN CHOICE, log 65). -/
def recordReplays (d : Accd) (n i : Nat) (reps : SMap Nat) (reached : List Nat) : Nat :=
  let ks := if !d.legacy then [0] else if reached.isEmpty then List.range 8 else reached
  ks.foldl (fun m k => max m (sget 0 reps (tileOf d n i k))) 0

/-- The block sums of a record: block, output, exact leaf sum and scale (R122). -/
def blockSums (d : Accd) (hits : Hits) : List (Nat × Nat × Int × Int) :=
  hits.flatMap fun h =>
    (imageBlocks d h.2.1).map fun k =>
      (k, h.2.1.outIx, ((h.2.2.filter fun x => x.1 / 2 ^ d.blockLog2 == k).map (·.2)).sum, h.2.1.scale)

/-- Insertion by block index. -/
def insertBlock (x : Nat × Nat × Int × Int) : List (Nat × Nat × Int × Int) → List (Nat × Nat × Int × Int)
  | [] => [x]
  | y :: t => if x.1 ≤ y.1 then x :: y :: t else y :: insertBlock x t

/-- What a FLOAT record's additions raise and, for ORDERED, the outputs begun. -/
structure FloatAcc where
  acc : SMap (BitVec 640)
  begun : List Nat
  sat : Bool := false
  nan : Bool := false

/-- FLOAT ORDERED: the record's terms folded in ascending block index into the running sums (R123). -/
def accOrdered (p : Place) (c : FCtx) (a : FloatAcc) (bs : List (Nat × Nat × Int × Int)) : FloatAcc :=
  (bs.foldl (fun l x => insertBlock x l) []).foldl (fun a b =>
    let o := b.2.1
    let t := blockTerm c o b.1 b.2.2.1 b.2.2.2
    let row := p.row (o / 20)
    let lo := 32 * (o % 20)
    let key := p.i * 256 + o
    if a.begun.contains key then
      let r := (fadd c b.1 (siteWord 2 o 0) (rowBits (sget 0 a.acc row) lo 32) t.w)
      { acc := sset a.acc row (setRowBits (sget 0 a.acc row) lo 32 r.w), begun := a.begun, sat := a.sat || t.sat || r.sat,
        nan := a.nan || r.nan }
    else
      { acc := sset a.acc row (setRowBits (sget 0 a.acc row) lo 32 t.w), begun := a.begun ++ [key], sat := a.sat || t.sat, nan := a.nan }) a

/-- Slot j of an output's PAIRWISE stack (R123). -/
def pairSlot (p : Place) (acc : SMap (BitVec 640)) (o j : Nat) : Nat :=
  let per := if 2 ^ 20 < p.d.blocks then 2 else 1
  rowBits (sget 0 acc (p.row (o * per + j / 20))) (32 * (j % 20)) 32

/-- Slot j of an output's PAIRWISE stack set. -/
def setPairSlot (p : Place) (acc : SMap (BitVec 640)) (o j v : Nat) : SMap (BitVec 640) :=
  let per := if 2 ^ 20 < p.d.blocks then 2 else 1
  let row := p.row (o * per + j / 20)
  sset acc row (setRowBits (sget 0 acc row) (32 * (j % 20)) 32 v)

/-- FLOAT PAIRWISE: the positions from `lo` to `hi` added to every output's stack of a run that starts at `f`; a position with no
term of the output adds +0 (R123). -/
def accPairwise (p : Place) (c : FCtx) (f lo hi : Nat) (a : FloatAcc) (bs : List (Nat × Nat × Int × Int)) : FloatAcc :=
  (List.range (hi + 1 - lo)).foldl (fun a x =>
    let k := lo + x
    (List.range p.d.outputs).foldl (fun a o =>
      let t : FRes := match bs.find? fun b => b.1 == k && b.2.1 == o with
        | some b => blockTerm c o k b.2.2.1 b.2.2.2
        | none => {}
      let st := (List.range 40).foldl (fun m j => sset m j (pairSlot p a.acc o j)) []
      let r := pairPush c o f 40 0 (k - f) t st
      { acc := (List.range 40).foldl (fun acc j => setPairSlot p acc o j (sget 0 r.1 j)) a.acc, begun := a.begun,
        sat := a.sat || r.2.sat, nan := a.nan || r.2.nan }) a) a

/-- The rows of a record that hold a saturated EX640 value (R117). -/
def exactSat (p : Place) (acc : SMap (BitVec 640)) : Bool :=
  (List.range (rpr p.d)).any fun k => exSat (rowInt (sget 0 acc (p.row k)))

/-! ## Running a step -/

/-- The MODEL_ID a step's descriptor names, read without side effect before the checks. -/
def stepModel (s : State) (r : StepRun) : Nat :=
  if r.spec.opens ∧ !r.opened then le (mread s.mem (r.spec.accd + 0x10) 4)
  else match (allHedges r.spec).head?.bind fun h => group s h r.spec.group with
    | some g => (accdOf g.accd).model
    | none => 0

/-- The positions a step searches on hedge h: as its checks fixed them (R61, R89), none on a hedge detached from the span. -/
def setOn (s : State) (r : StepRun) (h : Nat) : List Nat :=
  if r.checked then sget [] r.sets h
  else if r.missing.contains h then []
  else stepArrays s r.spec (spanHs r.spec (spanOf r.spec h)) h (stepModel s r)

/-- The hedge may take a new step (R85, R97). -/
def hedgeFree (s : State) (h : Nat) : Bool :=
  let e := hedge s h
  served s && e.run.isNone && e.en.en && !e.en.disabling && !e.restructuring

/-- A RECORD step's group number, or a rotation's or command's, is free to be opened (R226). -/
def recordWaits (s : State) (r : StepRun) : Bool :=
  match findCmd s r.uid with
  | some c => c.record && !r.opened && (allHedges r.spec).any fun h =>
      (group s h r.spec.group).isSome || (hedge s h).opens.any fun o => o.group == r.spec.group
  | none => false

/-- The span takes a new step (R97): none of its hedges is disabled, or a hedge of it has begun the step. -/
def spanTakes (s : State) (r : StepRun) (h : Nat) : Bool :=
  let hs := takers r (spanOf r.spec h)
  (hs.any fun x => r.started.contains x) || hs.all fun x => (hedge s x).en.en && !(hedge s x).restructuring

/-- No array that the step names is busy (R89): on the hedge itself, and before its checks on every hedge, since they are made once for all
of them (R61). -/
def arraysFree (s : State) (r : StepRun) (h : Nat) : Bool :=
  (if r.checked then [h] else allHedges r.spec).all fun x => (setOn s r x).all fun p => !arrayBusy s (arrIx x p)

/-- The queue of a step is not stopped; under DRAIN the LC-128 steps of an open slot task go on with it (R188, R263). -/
def queueSteps (s : State) (r : StepRun) : Bool :=
  let k := queue s r.q
  k.st != .retiring && (k.acting == .none || (k.acting == .drain && r.spec.calib.isSome))

/-- The step is ready for hedge h (R61, R89, R97, R235): records in slots everywhere, no array it names busy, no stop on its queue. -/
def stepReady (s : State) (r : StepRun) (h : Nat) : Bool :=
  (allHedges r.spec).contains h && takesPart r h && !r.started.contains h && allPlaced s r &&
  queueSteps s r && (r.spec.calib.isSome || !earlierOn s r.q r.uid h) && !recordWaits s r && spanTakes s r h &&
  (match findRot s r.uid with | some t => decide (0 < t.round) && t.stopping.isNone | none => true) &&
  !((hedge s h).opens.any fun o => o.uid == r.uid) && arraysFree s r h

/-- The step a free hedge would take next: by queue turns (R247), or on a reserved hedge by units in round robin (R99). -/
def pickStep (s : State) (h : Nat) : Option StepRun :=
  let ready := s.steps.filter fun r => stepReady s r h
  if role s h = 2 then
    let units := ready.filterMap fun r => r.spec.calib.map (·.1)
    (nextAfter (some (hedge s h).lastUnit) units).bind fun u => ready.find? fun r => r.spec.calib.map (·.1) == some u
  else (pickTurn (hedge s h).turn (ready.map (·.q))).bind fun q => ready.find? fun r => r.q == q

/-- The step a free hedge takes next: the one whose claim it has made, while that is still ready (R89; DEDUCED, log 61). -/
def nextStep (s : State) (h : Nat) : Option StepRun :=
  match ((hedge s h).chosen.bind (findStep s)).filter fun r => stepReady s r h with
  | some r => some r
  | none => pickStep s h

/-- The hedges that still run a step of a rotation (R160, item 1). -/
def rotRuns (s : State) (uid : Nat) : Bool :=
  (List.range 16).any fun h => match (hedge s h).run with | some x => x.uid == uid | none => false

/-- A stopped rotation ends (R160, R163, R351) once the steps that had started have ended and its loads have: groups, slots and claim are
freed, and the command completes. -/
def endRotation (s : State) (uid : Nat) : State :=
  match findStep s uid, findRot s uid with
  | some r, some t =>
    match t.stopping with
    | none => s
    | some st =>
      if rotRuns s uid ∨ !t.loadsLeft.isEmpty then s
      else
        let s := { s with rotations := s.rotations.filter (·.uid != uid) }
        let s := (allHedges r.spec).foldl (fun s h => if r.opened then dropGroup (freeRecords s h uid) h r.spec.group else freeRecords s h uid) s
        complete s uid st
  | _, _ => s

/-- A rotation stops whole (R160, R163, R351): nothing further starts, its loads that have not begun go, and REFUSED is set in every
hedge; it ends when what had started has ended. -/
def stopRotation (s : State) (uid : Nat) (st : St) : State :=
  match findStep s uid, findRot s uid with
  | some r, some t =>
    if t.stopping.isSome then s
    else
      let s := { s with claimsWaiting := s.claimsWaiting.filter (· != uid) }
      let s := (allHedges r.spec).foldl (fun s h =>
        let s := modHedge (regOr s (hdgReg h 0x188) 1) h fun e => { e with opens := e.opens.filter (·.uid != uid) }
        (List.range 8).foldl (fun s p => modArr s (arrIx h p) fun a =>
          { a with loads := a.loads.filter fun j => !(j.why == .rotation uid && !j.started) }) s) s
      let begun := fun (n : Nat) => match (arr s n).loads.head? with | some j => j.why == .rotation uid && j.started | none => false
      endRotation (modRot s uid fun t => { t with stopping := some st, waitMark := none, loadsLeft := t.loadsLeft.filter begun }) uid
  | _, _ => s

/-- A step is refused at its start (R61, R115): no group opens or closes, its slots return, and it completes with the status. -/
def refuseStep (s : State) (r : StepRun) (st : St) (order : Bool) : State :=
  let s := (allHedges r.spec).foldl (fun s h =>
    let s := if st = .format then hdgStat s h (2 ^ 9) else s
    let s := if order then regOr s (hdgReg h 0x114) 4 else s
    modHedge s h fun e => { e with opens := e.opens.filter (·.uid != r.uid) }) s
  if (findRot s r.uid).isSome then stopRotation s r.uid st
  else
    let s := (allHedges r.spec).foldl (fun s h =>
      let s := freeRecords s h r.uid
      if r.spec.opens && r.opened then dropGroup s h r.spec.group else s) s
    complete s r.uid st

/-- Arrays of a step that must be reloaded first get a reload (R17). -/
def reloadDisplaced (s : State) (r : StepRun) : State × Bool :=
  let ns := if r.spec.arrays.isSome then []
    else ((allHedges r.spec).flatMap fun h => (setOn s r h).map (arrIx h)).filter fun n => displaced s n
  (ns.foldl (fun s n => match (arr s n).home with
    | some m => if !(arr s n).loads.any fun j => j.why == .reload then
        queueLoadFirst s n { why := .reload, q := 0, addr := m.addr, src := m.addr, schema := m.schema } else s
    | none => s) s, !ns.isEmpty)

/-- The checks have passed and the group stands open (R61): the positions to search are fixed on every hedge, and a hedge that is left out
will be left out of the group's later steps (R107). -/
def markChecked (s : State) (uid : Nat) : State :=
  match findStep s uid with
  | none => s
  | some r =>
    let sets := (allHedges r.spec).foldl (fun m h => sset m h (setOn s r h)) []
    let s := modStep s uid fun t => { t with checked := true, sets := sets }
    r.missing.foldl (fun s h => modGroup s h r.spec.group fun g => { g with lost := true }) s

/-- The checks and the open of a step that has not passed them (R61, R115, R127). The Bool says it may go on to search. A step whose open
had to wait is checked again once it has its rows. -/
def passChecks (s : State) (r : StepRun) : State × Bool :=
  if r.checked then (s, true)
  else
    match startChecks s r with
    | (s, .refuse st o) => (refuseStep s r st o, false)
    | (s, .pass accd sch) =>
      let s := modStep s r.uid fun t => { t with sch := sch }
      if !toOpen r then (markChecked s r.uid, true)
      else if openReady s r (accdOf accd) then (markChecked (openGroup s r accd) r.uid, true)
      else (waitOpen s r accd, false)

/-- The local index of a record on hedge h: its place in the span's block (R94, R95). -/
def localIx (r : StepRun) (h : Nat) (x : HeldRec) : Nat :=
  x.pos - spanStart r.spec.records r.spec.spans.length (spanOf r.spec h)

/-- The records of a step in a hedge's slots. -/
def stepRecs (s : State) (r : StepRun) (h : Nat) : List HeldRec := placed s h (bgPart s r.bg) r.uid

/-- The tiles that a record of the step lies in: its own, and under LEGACY one for each array position. -/
def recTiles (d : Accd) (n i : Nat) : List Nat := (if d.legacy then List.range 8 else [0]).map (tileOf d n i)

/-- Tiles of a FIXED step on positions `ps` that overflow at their replay counts (R120). -/
def overflowTiles (s : State) (r : StepRun) (h : Nat) (ps : List Nat) (reps : SMap Nat) : List Nat :=
  match group s h r.spec.group with
  | none => []
  | some g =>
    let d := accdOf g.accd
    if !d.fixed then []
    else
      let sets := replicaSets s r.spec h 8 ps
      let n := spanCount r.spec (spanOf r.spec h)
      ((stepRecs s r h).flatMap fun x =>
        let i := localIx r h x
        let b := (readSlot s h (bgPart s r.bg) x).2
        if b.2 then []
        else
          let hits := (searchRecord s (schemaOf r.sch) h i b.1 sets).2.1
          (recTiles d n i).filter fun t => decide (sget 0 reps t < 3) && fixedOverflow d n i t (sget 0 reps t) hits).dedup

/-- The records of a tile on hedge h; all of the step's where no tile is named. -/
def tileRecs (s : State) (r : StepRun) (h : Nat) (tile : Option Nat) : List HeldRec :=
  match tile, group s h r.spec.group with
  | some t, some g =>
    (stepRecs s r h).filter fun x => (recTiles (accdOf g.accd) (spanCount r.spec (spanOf r.spec h)) (localIx r h x)).contains t
  | _, _ => stepRecs s r h

/-- Searches of one pass over a list of records on positions `ps` (R85, R87). -/
def passSearches (s : State) (r : StepRun) (h : Nat) (ps : List Nat) (tile : Option Nat) : Nat :=
  let sets := (replicaSets s r.spec h 8 ps).filter fun set => set.any fun p => (arr s (arrIx h p)).st != .withdrawn
  ((tileRecs s r h tile).filter fun x => !(readSlot s h (bgPart s r.bg) x).2.2).length * sets.length

/-- A step begins on a hedge that holds its tokens: the hedge's turn goes to its queue (R247, R248). -/
def beginStep (s : State) (r : StepRun) (h : Nat) : State :=
  let ps := setOn s r h
  let s := modStep s r.uid fun r => { r with started := r.started ++ [h] }
  let turn := if r.spec.calib.isSome ∨ (hedge s h).turn.cur = some r.q then (hedge s h).turn else Turn.begin_ s (hedge s h).turn r.q
  modHedge s h fun e => { e with turn := turn, run := some { uid := r.uid, arrays := ps, searches := passSearches s r h ps none,
                                                             pending := overflowTiles s r h ps [] } }

/-- The hedge claims the tokens of a step (R26, R89); a claim it made for another step goes back. -/
def claimStep (s : State) (r : StepRun) (h : Nat) : State × Bool :=
  let s := if (hedge s h).chosen = some r.uid then s else dropTokens s (ownStep h)
  askTokens (modHedge s h fun e => { e with chosen := some r.uid }) (ownStep h) (role s h == 2) (2 + 2 * (setOn s r h).length)

/-- HEDGE_STEP_START (R61, R89): the next ready step begins on the hedge once it has passed its checks and holds its tokens. -/
def stepStart (s : State) (h : Nat) : State :=
  if !hedgeFree s h then s
  else
    match nextStep s h with
    | none => s
    | some r =>
      let d := reloadDisplaced s r
      if d.2 then d.1
      else
        let p := passChecks s r
        if !p.2 then p.1
        else
          match findStep p.1 r.uid with
          | none => p.1
          | some r =>
            let t := claimStep p.1 r h
            if t.2 then beginStep t.1 r h else t.1

/-- What a record that is searched adds to its group's notes: flags and TAG. -/
def noteRecord (s : State) (r : StepRun) (h pos tag fl : Nat) : State :=
  addFlags (modGroup s h r.spec.group fun g =>
    { g with flags := sset g.flags pos (sget 0 g.flags pos ||| fl), tags := sset g.tags pos tag }) r.uid fl

/-- A pass over a tile whose sums are discarded (R120, R121): its searches are made and their faults noted as any others are (R43). -/
def discardPass (s : State) (r : StepRun) (h tile : Nat) (ps : List Nat) : State :=
  (tileRecs s r h (some tile)).foldl (fun s x =>
    let b := readSlot s h (bgPart s r.bg) x
    if b.2.2 then b.1
    else
      let f := searchRecord b.1 (schemaOf r.sch) h (localIx r h x) b.2.1 (replicaSets b.1 r.spec h 8 ps)
      if f.2.2 then noteRecord f.1 r h x.pos (leAt b.2.1 0 8) fInteg else f.1) s

/-- TILE_REPLAY (R120, R121): an overflowed tile is set to 0 and searched again at the next scale. -/
def tileReplay (s : State) (h tile : Nat) : State :=
  match (hedge s h).run with
  | none => s
  | some run =>
    match findStep s run.uid with
    | none => s
    | some r =>
      if !run.pending.contains tile then s
      else
        let s := discardPass s r h tile run.arrays
        let reps := sset run.replays tile (sget 0 run.replays tile + 1)
        let again := (overflowTiles s r h run.arrays reps).contains tile
        let s := regCount s (hdgReg h 0x118) 1
        modHedge s h fun e => { e with run := some { run with
          replays := reps, searches := run.searches + passSearches s r h run.arrays (some tile),
          pending := run.pending.filter fun t => t != tile || again } }

/-- The LEGACY tiles a record's array sums reach (R128), each keyed with the record's local index. -/
def tilesReached (d : Accd) (i : Nat) (hits : Hits) : List Nat := if d.legacy then hits.map fun h => i * 256 + h.1 else []

/-- What one record of the step adds (R43, R59, R113 to R125): rows, and the flags of its result. -/
def landRecord (s : State) (r : StepRun) (h : Nat) (sets : List (List Nat)) (lo hi : Nat) (run : Running) (x : HeldRec) : State :=
  match group s h r.spec.group with
  | none => s
  | some g =>
    let d := accdOf g.accd
    let n := spanCount r.spec (spanOf r.spec h)
    let i := localIx r h x
    let b := readSlot s h (bgPart s r.bg) x
    let tag := leAt b.2.1 0 8
    let scaledIf := fun (reached : List Nat) => flagIf (d.fixed && decide (0 < recordReplays d n i run.replays reached)) fScaled
    if b.2.2 then
      let fl := fInteg ||| scaledIf []
      noteRecord (regOr b.1 (hdgReg h 0x114) (accSticky fl)) r h x.pos tag fl
    else
      let f := searchRecord b.1 (schemaOf r.sch) h i b.2.1 sets
      let p : Place := { rows := g.rows, d := d, n := n, i := i }
      let acc := (hedge s h).acc
      let ctx : FCtx := { stoch := d.stoch, model := d.model, tag := tag, block := 2 ^ d.blockLog2 }
      let out : FloatAcc :=
        if d.exact then
          let a := accExact p acc f.2.1
          { acc := a, begun := g.begun ++ tilesReached d i f.2.1, sat := exactSat p a }
        else if d.fixed then
          let a := accFixed p run.replays acc f.2.1
          { acc := a.1, begun := g.begun ++ tilesReached d i f.2.1, sat := a.2 }
        else if d.pairwise then accPairwise p ctx ((g.runStart).getD lo) lo hi { acc := acc, begun := g.begun } (blockSums d f.2.1)
        else accOrdered p ctx { acc := acc, begun := g.begun } (blockSums d f.2.1)
      let fl := flagIf f.2.2 fInteg ||| flagIf out.sat fSat ||| scaledIf (f.2.1.map (·.1))
      let s := modHedge f.1 h fun e => { e with acc := out.acc }
      let s := modGroup s h r.spec.group fun g => { g with begun := out.begun }
      noteRecord (regOr s (hdgReg h 0x114) (accSticky fl + flagIf out.nan 8)) r h x.pos tag fl

/-- Insertion by batch position. -/
def insertRec (x : HeldRec) : List HeldRec → List HeldRec
  | [] => [x]
  | y :: t => if x.pos ≤ y.pos then x :: y :: t else y :: insertRec x t

/-- The images of positions `ps` on hedge h, one of each replica set. -/
def imagesOn (s : State) (sp : StepSpec) (h : Nat) (ps : List Nat) : List ArrImage :=
  (replicaSets s sp h 8 ps).filterMap fun set => set.head?.bind fun p => (arr s (arrIx h p)).img

/-- The sums of a hedge's whole step land (R88). -/
def landStep (s : State) (r : StepRun) (h : Nat) (run : Running) : State :=
  match group s h r.spec.group with
  | none => s
  | some g =>
    let d := accdOf g.accd
    let sets := replicaSets s r.spec h 8 run.arrays
    let ims := imagesOn s r.spec h run.arrays
    let blks := ims.flatMap fun x => imageBlocks d x
    let lo := (blks.min?).getD 0
    let hi := (blks.max?).getD 0
    let scale := (ims.head?.map fun x => x.scale).getD 0
    let recs := (stepRecs s r h).foldl (fun l x => insertRec x l) []
    let s := recs.foldl (fun s x => landRecord s r h sets lo hi run x) s
    modGroup s h r.spec.group fun g =>
      { g with steps := g.steps + 1, replays := run.replays, scale := scale,
               runStart := if d.float ∧ !blks.isEmpty then some ((g.runStart).getD lo) else g.runStart,
               runEnd := if d.float ∧ !blks.isEmpty then hi + 1 else g.runEnd }

/-- Completed searches counted into work units with the remainder carried over (R87); the units completed. -/
def countSearches (s : State) (h q n : Nat) : State × Nat :=
  let e := hedge s h
  let units := (e.remainder + n) / 256
  let s := setHedge s h { e with remainder := (e.remainder + n) % 256, searches := e.searches + BitVec.ofNat 64 n,
                                 units := e.units + BitVec.ofNat 32 units }
  (unitsDone s q units, units)

/-- The hedge's current step is over: run cleared, tokens returned, a disable completes (R268), arrays with a first INTEG come under
check (R349), and slots a detachment left are freed (R107). -/
def stepOver (s : State) (h : Nat) (arrays : List Nat) : State :=
  let s := dropTokens (modHedge s h fun e => { e with run := none, chosen := none, en := e.en.done }) (ownStep h)
  let s := arrays.foldl (fun s p => modArr s (arrIx h p) fun a =>
    if a.checkDue ∧ !a.checking ∧ a.st = .ready then { a with st := .loading, checking := true } else a) s
  let late := (hedge s h).freeDetached
  modHedge (late.foldl (fun s u => freeRecords s h u) s) h fun e => { e with freeDetached := [] }

/-- The group of a span begins to close (Table 6-1, step 1): rows go from bound to closing and the close waits for the output unit of the
span's first hedge. -/
def beginClose (s : State) (r : StepRun) (k : Nat) (cancel : Bool) : State :=
  let hs := spanHs r.spec k
  let gone := (List.range hs.length).filter fun i => r.missing.contains (nth 0 hs i)
  let s := hs.foldl (fun s h => modGroup s h r.spec.group fun g => { g with closing := true, missing := gone }) s
  let s := modStep s r.uid fun r => { r with closing := r.closing ++ [k] }
  match takers r k with
  | h :: _ => modHedge s h fun e => { e with closes := e.closes ++ [{ uid := r.uid, group := r.spec.group, span := k, cancel := cancel }] }
  | [] => s

/-- A hedge runs a step of queue q's group g. -/
def runsGroup (s : State) (q g h : Nat) : Bool :=
  match (hedge s h).run.bind fun x => findStep s x.uid with
  | some t => t.q == q && t.spec.group == g
  | none => false

/-- The rotation of a step is stopping (R160): its group does not close. -/
def rotEnds (s : State) (uid : Nat) : Bool := match findRot s uid with | some t => t.stopping.isSome | none => false

/-- The close of span k of a step is due (Table 6-1, step 1): the step has ended on every hedge of the span, and no hedge of it runs
another step of the group. -/
def closeDue (s : State) (r : StepRun) (k : Nat) : Bool :=
  r.spec.closes && r.checked && !rotEnds s r.uid && !r.closing.contains k && ((takers r k).all fun x => r.ended.contains x) &&
  !(spanHs r.spec k).any fun x => runsGroup s r.q r.spec.group x

/-- The closes that have become due on a span of hedge h begin. A queue under DRAIN closes with CANCEL, at its completion (R138, R159). -/
def closeWhereDue (s : State) (h : Nat) : State :=
  (s.steps.filter fun r => (allHedges r.spec).contains h).foldl (fun s r =>
    if closeDue s r (spanOf r.spec h) ∧ queueSteps s r then beginClose s r (spanOf r.spec h) false
    else s) s

/-- INTEGRITY where any result of the command carries INTEG (R43), else OK. -/
def integStatus (s : State) (uid : Nat) : St :=
  match findCmd s uid with
  | some c => if hasFlag c.flags fInteg then .integrity else .ok
  | none => .ok

/-- The step has ended on every hedge that takes part. -/
def allEnded (r : StepRun) : Bool :=
  (List.range r.spec.spans.length).all fun k => (takers r k).all fun x => r.ended.contains x

/-- What follows where a step has ended on hedge h or has lost it: the closes that are due, or the command's completion (R136, R239). -/
def stepFollow (s : State) (uid h : Nat) : State :=
  let s := closeWhereDue s h
  match findStep s uid with
  | none => s
  | some r =>
    if (findRot s uid).isSome then endRotation s uid
    else if !r.spec.closes ∧ r.checked ∧ allEnded r then complete s uid (integStatus s uid)
    else s

/-- The queue's turn on hedge h after a step of `units` work units (R248). -/
def chargeStep (s : State) (h : Nat) (r : StepRun) (units : Nat) : State :=
  if r.spec.calib.isSome then modHedge s h fun e => { e with lastUnit := (r.spec.calib.map (·.1)).getD e.lastUnit }
  else
    let more := s.steps.any fun t => t.q == r.q && stepReady s t h
    modHedge s h fun e => { e with turn := takeTurn s e.turn r.q units more }

/-- HEDGE_STEP_END (R87, R88): the sums land, searches are counted, slots are freed together (a rotation's only in its last round,
R157), and what follows begins. A destroyed queue's sums are discarded (Table 11-2, step 2). -/
def stepEnd (s : State) (h : Nat) : State :=
  match (hedge s h).run with
  | none => s
  | some run =>
    if !run.pending.isEmpty then s
    else
      match findStep s run.uid with
      | none => stepOver s h run.arrays
      | some r =>
        let dead := (queue s r.q).st == .retiring
        let s := if dead then s else landStep s r h run
        let n := countSearches s h r.q run.searches
        let s := if r.spec.arrays.isNone || r.spec.closes || dead then freeRecords n.1 h r.uid else n.1
        let s := modStep s r.uid fun r => { r with ended := r.ended ++ [h] }
        let s := if r.spec.arrays.isSome then regAdd s (hdgReg h 0x184) 1 else s
        let s := chargeStep (stepOver s h run.arrays) h r n.2
        if dead then s else stepFollow s r.uid h

/-- GROUP_OPEN_GRANTED (R127): the open at the head of a hedge's waiting opens gets its rows on every hedge. -/
def grantOpen (s : State) (h : Nat) : State :=
  match (hedge s h).opens with
  | [] => s
  | o :: _ =>
    match findStep s o.uid with
    | none => modHedge s h fun e => { e with opens := e.opens.drop 1 }
    | some r => if openReady s r (accdOf r.accdCopy) then openGroup s r r.accdCopy else s

/-! ## STEP -/

/-- The spans of a HEDGES mask (R233). -/
def spansOf (mask span : Nat) : List (List Nat) := chunk span 16 (maskHedges mask)

/-- What a STEP slot names. -/
def specOf (b : List Byte) : StepSpec :=
  { batch := op10 b, stride := stRstride b, records := stRecords b, schema := op18 b, accd := op20 b, outd := op28 b,
    group := stGroup b, opens := stOpen b, closes := stClose b, reduce := stReduce b, spans := spansOf (stHedges b) (stSpan b) }

/-- The hedges a queue's command may name (R18, R367): in its binding group, and of role TREE. -/
def hedgesAllowed (s : State) (q : Nat) (hs : List Nat) : Bool :=
  hs.all fun h => bitOf (bgHedges s (queueBg s q)) h && role s h == 1

/-- A step leaves hedge h of a span out (R107): it is detached from the span; or the group lacks what an earlier step, begun or not, was to add
there. -/
def leftOut (s : State) (q : Nat) (sp : StepSpec) (h : Nat) : Bool :=
  (hedge s h).detachedFrom.contains (spanHs sp (spanOf sp h)) ||
  (!sp.opens && ((match group s h sp.group with | some g => g.q == q && g.lost | none => false) ||
    s.steps.any fun r => r.q == q && r.spec.group == sp.group && !r.closing.contains (spanOf r.spec h) && r.missing.contains h))

/-- A dispatched STEP begins (R85, R367): its records will be sent; R18 and R367 refuse it at once. -/
def stepRun (s : State) (c : Cmd) : State :=
  let q := cmdQueue s c
  let sp := specOf c.slot
  if !hedgesAllowed s q (allHedges sp) then complete s c.uid .format
  else
    { s with steps := s.steps ++ [{ uid := c.uid, q := q, bg := queueBg s q, spec := sp,
                                    missing := (allHedges sp).filter fun h => leftOut s q sp h }] }

end Sys2Proof.Machine
end

