-- ==== Sys2Proof/Machine/Output.lean ====
section
/-! DEFINITION. The output unit (R136 to R150): the output descriptor and its checks, the combination of a span's partials (R117, R123,
R130, R131), values, fusion and transforms, result records, ranked lists, and the end of a close. -/

namespace Sys2Proof.Machine

/-! ## The output descriptor -/

/-- An output descriptor (Table 6-2). -/
structure Outd where
  transform : Nat
  fuse : Nat
  fusePos : Bool
  raw : Bool
  topk : Bool
  asc : Bool
  part : Bool
  fuseFmt : Nat
  topkOut : Nat
  k : Nat
  fuseStride : Nat
  fuseAddr : Nat
  maskAddr : Nat
  result : Nat
  topkAddr : Nat
  maskStride : Nat
  deriving DecidableEq, Repr

/-- The descriptor's fields from its 64 bytes. -/
def outdOf (b : List Byte) : Outd :=
  let o := leAt b 6 2
  { transform := fieldOf o 1 0, fuse := fieldOf o 3 2, fusePos := bitOf o 4, raw := bitOf o 5, topk := bitOf o 6, asc := bitOf o 7,
    part := bitOf o 8, fuseFmt := leAt b 8 1, topkOut := leAt b 9 1, k := leAt b 10 2, fuseStride := leAt b 12 4,
    fuseAddr := leAt b 16 8, maskAddr := leAt b 24 8, result := leAt b 32 8, topkAddr := leAt b 40 8, maskStride := leAt b 48 4 }

/-- The checks of Table 6-3 under an accumulation descriptor; with egress RESULT_ADDR is ignored (R227). -/
def outdOk (d : Accd) (egress : Bool) (b : List Byte) : Bool :=
  let u := outdOf b
  let o := leAt b 6 2
  leAt b 0 4 == 0x4454554F && leAt b 4 2 == 1 && decide (o < 512) && leAt b 52 12 == 0 && decide (u.transform ≤ 2) &&
  decide (u.fuse ≤ 2) && (!u.raw || (d.exact && u.transform == 0 && u.fuse == 0)) &&
  (u.fuse == 0 || (decide (u.fuseFmt ≤ 9) && u.fuseStride % featSize u.fuseFmt == 0 &&
    decide (d.outputs * featSize u.fuseFmt ≤ u.fuseStride))) &&
  (u.maskAddr == 0 || (u.transform == 2 && decide (cdiv d.outputs 8 ≤ u.maskStride))) &&
  (if u.topk then decide (u.topkOut < d.outputs) && decide (1 ≤ u.k) && decide (u.k ≤ 1024)
   else u.topkOut == 0 && u.k == 0 && !u.asc && !u.part) &&
  u.fuseAddr % 16 == 0 && u.maskAddr % 16 == 0 && (egress || u.result % 16 == 0) && u.topkAddr % 16 == 0

/-- RSIZE (R146). -/
def rsizeOf (d : Accd) (raw : Bool) : Nat :=
  alignUp (32 + d.outputs * (if raw then 80 else 4) + if d.stats then 8 * d.outputs else 0) 16

/-- The byte ranges the descriptor names for a batch of `n` records. -/
def outdRanges (d : Accd) (u : Outd) (result : Option Nat) (n : Nat) : List (Nat × Nat) :=
  (if u.fuse = 0 then [] else [(u.fuseAddr, (n - 1) * u.fuseStride + d.outputs * featSize u.fuseFmt)]) ++
  (if u.maskAddr = 0 then [] else [(u.maskAddr, (n - 1) * u.maskStride + cdiv d.outputs 8)]) ++
  (match result with | some a => [(a, n * rsizeOf d u.raw)] | none => []) ++
  (if u.topk then [(u.topkAddr, 16 + 32 * u.k)] else [])

/-! ## The span's partials -/

/-- Bits of a mask of positions. -/
def maskOf (l : List Nat) : Nat := (l.map fun i => 2 ^ i).sum

/-- Row k of a record on hedge h. -/
def rowOn (s : State) (h : Nat) (g : Group) (d : Accd) (n i k : Nat) : Nat × Nat :=
  let row := physRow g.rows (localRow d n i k)
  (row, (sget (0 : BitVec 640) (hedge s h).acc row).toNat)

/-- The poison of an accumulator row (Table 14-6): counters, and whether one of its quads cannot be used. -/
def accRowRead (s : State) (h row v : Nat) : State × Bool :=
  let base := 2 ^ 56 + h * 2 ^ 20 + row * 8
  (List.range 5).foldl (fun a q =>
    let x := arrQuadRead a.1 7 (base + q) (v / 2 ^ (128 * q) % 2 ^ 128 == 0)
    (x.1, a.2 || x.2)) (s, false)

/-- Trees of an output in the images that a missing hedge holds (R132). -/
def treesHeld (s : State) (r : StepRun) (d : Accd) (h o : Nat) : Nat :=
  ((stepImages s r.spec h d.model).map fun x => if x.2.outIx == o then x.2.segs.length else 0).sum

/-- The lowest block index of each present hedge partial, with its hedge, ascending (R123). -/
def insertPart (x : Nat × Nat) : List (Nat × Nat) → List (Nat × Nat)
  | [] => [x]
  | y :: t => if x.1 ≤ y.1 then x :: y :: t else y :: insertPart x t

/-- ORDERED: the span's partials of one output folded (R123, R131): missing partials enter as a single +0 at the end. -/
def foldSpan (c : FCtx) (out : Nat) (missing : Bool) (ps : List (Nat × Nat)) : FRes :=
  match ps with
  | [] => {}
  | p :: t =>
    let r := t.foldl (fun (a : FRes) q => (fadd c q.1 (siteWord 4 out 0) a.w q.2).raise a) ({ w := p.2 } : FRes)
    if missing then (fadd c 0 (siteWord 4 out 0) r.w 0).raise r else r

/-- PAIRWISE: the nodes that a hedge's stack of one output holds. -/
def hedgeNodes (d : Accd) (g : Group) (o : Nat) (rows : List Nat) : List PNode :=
  match g.runStart with
  | none => []
  | some f =>
    let per := if 2 ^ 20 < d.blocks then 2 else 1
    pendingNodes f (g.runEnd - f) fun j => nth 0 rows (o * per + j / 20) / 2 ^ (32 * (j % 20)) % 2 ^ 32

/-- Words packed twenty to a row. -/
def packRows (ws : List Nat) : List Nat :=
  (chunk 20 ws.length ws).map fun c => (List.zip (List.range c.length) c).foldl (fun a e => a + e.2 * 2 ^ (32 * e.1)) 0

/-- The combined record of batch position `pos` over the span's hedges (Table 6-1, steps 2 and 3). -/
def combineRecord (s : State) (r : StepRun) (k : Nat) (cancel : Bool) (d : Accd) (pos : Nat) : State × OutRec :=
  let hs := receivers r k
  let start := spanStart r.spec.records r.spec.spans.length k
  let n := spanCount r.spec k
  let i := pos - start
  let gs := hs.filterMap fun h => (group s h r.spec.group).map fun g => (h, g)
  let raw := gs.map fun x => (x.1, x.2, (List.range (rpr d)).map fun j => rowOn s x.1 x.2 d n i j)
  let rd := raw.foldl (fun a x =>
    (List.zip (List.range x.2.2.length) x.2.2).foldl (fun a e =>
      let y := accRowRead a.1 x.1 e.2.1 e.2.2
      (y.1, if y.2 then a.2 ++ [e.1] else a.2)) a) (s, ([] : List Nat))
  let gone := (List.range (spanHs r.spec k).length).filter fun j => r.missing.contains (nth 0 (spanHs r.spec k) j)
  let lost := !gone.isEmpty
  let tag := (gs.findSome? fun x => if shas x.2.tags pos then some (sget 0 x.2.tags pos) else none).getD (sget 0 r.tags pos)
  let fl0 := gs.foldl (fun a x => a ||| sget 0 x.2.flags pos) 0
  let ctx : FCtx := { stoch := d.stoch, model := d.model, tag := tag, block := 2 ^ d.blockLog2 }
  let rowsOf := raw.map fun x => (x.2.1, x.2.2.map (·.2))
  let ns := (List.range d.outputs).map fun o =>
    d.trees - ((gone.map fun j => treesHeld s r d (nth 0 (spanHs r.spec k) j) o).sum)
  let base : OutRec := { pos := pos, tag := tag, old := fl0, gone := maskOf gone, ns := ns, bad := rd.2 }
  let fl := fl0 ||| flagIf lost fPart ||| flagIf cancel fCancel ||| flagIf (!rd.2.isEmpty) fInteg
  if d.exact then
    let rows := (List.range (rpr d)).map fun j =>
      match rowsOf.map fun x => signed 640 (nth 0 x.2 j) with
      | [] => 0
      | a :: t => unsigned 640 (t.foldl exCombine a)
    let sat := rows.any fun w => exSat (signed 640 w)
    let tiles := (gs.head?.map fun x => (x.2.begun.filter fun b => b / 256 == i).map (· % 256)).getD []
    (rd.1, { base with rows := rows, flags := fl ||| flagIf sat fSat, tiles := tiles.dedup })
  else if d.fixed then
    match gs with
    | [] => (rd.1, { base with flags := fl, rows := List.replicate (rpr d) 0 })
    | x :: _ =>
      let tiles := ((x.2.begun.filter fun b => b / 256 == i).map (· % 256)).dedup
      (rd.1, { base with rows := ((rowsOf.head?.map (·.2)).getD []), flags := fl, tiles := tiles,
                         scale := x.2.scale + 8 * (recordReplays d n i x.2.replays tiles : Nat) })
  else if d.pairwise then
    let nodes := (List.range d.outputs).map fun o => rowsOf.flatMap fun x => hedgeNodes d x.1 o x.2
    (rd.1, { base with flags := fl, nodes := nodes })
  else
    let vals := (List.range d.outputs).map fun o =>
      let ps := rowsOf.filterMap fun x => x.1.runStart.map fun f => (f, nth 0 x.2 (o / 20) / 2 ^ (32 * (o % 20)) % 2 ^ 32)
      foldSpan ctx o lost (ps.foldl (fun l x => insertPart x l) [])
    (rd.1, { base with rows := packRows (vals.map (·.w)), flags := fl ||| flagIf (vals.any (·.sat)) fSat,
                       nan := vals.any (·.nan) })

/-- Every record of a span combined, in ascending batch position. -/
def combineSpan (s : State) (r : StepRun) (k : Nat) (cancel : Bool) (d : Accd) : State × List OutRec :=
  (List.range (spanCount r.spec k)).foldl (fun a j =>
    let x := combineRecord a.1 r k cancel d (spanStart r.spec.records r.spec.spans.length k + j)
    (x.1, a.2 ++ [x.2])) (s, [])

/-- The runs of a PAIRWISE group's hedges in a span are aligned and do not overlap (R123). A misaligned or overlapping run is found in
every span's close, which then writes nothing for the group. -/
def runsOk (s : State) (r : StepRun) (k : Nat) (d : Accd) : Bool :=
  let runs := (receivers r k).filterMap fun h => (group s h r.spec.group).bind fun g => g.runStart.map fun f => (f, g.runEnd)
  !d.pairwise || ((runs.all fun x => runAligned d.blocks x.1 (x.2 - x.1)) &&
    (List.range runs.length).all fun i => (List.range i).all fun j =>
      decide ((nth (0, 0) runs i).2 ≤ (nth (0, 0) runs j).1) || decide ((nth (0, 0) runs j).2 ≤ (nth (0, 0) runs i).1))

/-! ## Values -/

/-- A product of two FP32 values, rounded once to FP32 (R141). -/
def fmul (a b : Val) : Val × Nat × Bool :=
  let neg := a.neg != b.neg
  let zero := fun (v : Val) => v == .negZero || v == .num 0
  let inf := fun (v : Val) => match v with | .inf _ => true | _ => false
  match a, b with
  | .nan s, _ => (.nan s, canonNan .fp32 s, false)
  | _, .nan s => (.nan s, canonNan .fp32 s, false)
  | _, _ =>
    if inf a || inf b then
      if zero a || zero b then (.nan false, canonNan .fp32 false, false)
      else (.inf neg, (encodeVal .fp32 (.inf neg)).1, false)
    else if zero a || zero b then
      let z : Val := if neg then .negZero else .num 0
      (z, (encodeVal .fp32 z).1, false)
    else
      let r := ratFp32 (a.toInt * b.toInt) one320
      (ofFp32 r.1, r.1, r.2)

/-- An output's value with what it has raised so far, and whether a FLOAT addition of it gave a NaN (R124). -/
structure OutVal where
  w : Nat := 0
  flags : Nat := 0
  nan : Bool := false
  deriving DecidableEq, Repr

/-- R140: the value of output o as FP32. -/
def valueOf (d : Accd) (c : OutRec) (ctx : FCtx) (o : Nat) : OutVal :=
  if d.exact then
    let n := if d.legacy then
        match c.tiles with
        | [] => 0
        | [t] => signed 640 (nth 0 c.rows t)
        | ts => signed 640 (unsigned 640 (Config.legacySum (ts.map fun t => signed 640 (nth 0 c.rows t))))
      else signed 640 (nth 0 c.rows o)
    let e := encodeVal .fp32 (.num n)
    { w := e.1, flags := flagIf e.2.sat fSat }
  else if d.fixed then
    let f := if d.legacy then
        match c.tiles with
        | [] => 0
        | [t] => signed 64 (nth 0 c.rows t)
        | ts => signed 64 (unsigned 64 (Config.legacySum (ts.map fun t => signed 64 (nth 0 c.rows t))))
      else signed 64 (nth 0 c.rows (o / 10) / 2 ^ (64 * (o % 10)))
    let e := encodeVal .fp32 (.num (scaled f c.scale))
    { w := e.1, flags := flagIf e.2.sat fSat }
  else if d.pairwise then
    let r := pairValue ctx o (nth [] c.nodes o) (treeLevel d.blocks) 0
    { w := r.w, flags := flagIf r.sat fSat, nan := r.nan }
  else { w := nth 0 c.rows (o / 20) / 2 ^ (32 * (o % 20)) % 2 ^ 32 }

/-- Rows that hold output o. -/
def rowsFor (d : Accd) (o : Nat) : List Nat :=
  if d.legacy then List.range 8
  else if d.exact then [o]
  else if d.fixed then [o / 10]
  else if d.pairwise then (if 2 ^ 20 < d.blocks then [2 * o, 2 * o + 1] else [o])
  else [o / 20]

/-- The FP32 canonical NaN (R64). -/
def nan32 : Nat := canonNan .fp32 false

/-- R141 on one value with an operand's encoding. -/
def fuseVal (kind fmt : Nat) (v : OutVal) (x : Nat) : OutVal :=
  match Fmt.ofCode fmt with
  | none => v
  | some f =>
    let o := convert1 f .fp32 x
    let a := ofFp32 v.w
    let b := ofFp32 o.1
    let fin := a.finite && b.finite
    let r : Nat × Bool :=
      if kind = 1 then (let e := encodeVal .fp32 (addVal a b); (e.1, e.2.sat)) else (fmul a b).2
    { v with w := r.1, flags := v.flags ||| flagIf b.isNan fNanin ||| flagIf (fin && r.2) fSat }

/-- R142 on one value. -/
def sigmoidOf (w : Nat) : Nat :=
  match ofFp32 w with
  | .nan s => canonNan .fp32 s
  | .inf false => 0x3F800000
  | .inf true => 0
  | .negZero => 0x3F000000
  | .num 0 => 0x3F000000
  | .num n => sigmoidAt n

/-- e^(x − max) of each value of a row, 0 for −∞ (Table 6-4). -/
def softmaxExp (vs : List Val) : List Int :=
  let top := ((vs.filter (·.finite)).map (·.toInt)).foldl (fun (a : Option Int) x => some (match a with | some y => max x y | none => x)) none
  vs.map fun v => if v.finite then fxExp (v.toInt - top.getD 0) else 0

/-- Table 6-4 on the unmasked values of a row, in order: the outputs and the flag. `mode` keys the free values. -/
def softmaxOf (mode : Nat) (ws : List Nat) : List Nat × Nat :=
  let vs := ws.map ofFp32
  let infs := (vs.filter (· == .inf false)).length
  if vs.all (· == .inf true) then (ws.map fun _ => 0, fEmpty)
  else
    match vs.find? (·.isNan) with
    | some v => (ws.map fun _ => canonNan .fp32 v.neg, fNanrow)
    | none =>
      if 0 < infs then (vs.map fun v => if v == .inf false then (ratFp32 one320 infs).1 else 0, 0)
      else
        let es := softmaxExp vs
        ((List.range ws.length).map fun i =>
          keepUlp 2 (fxDiv (nth 0 es i) es.sum) (Config.softmax mode (ws.map (BitVec.ofNat 32)) i).val, 0)

/-- The fused operands of a record: for each output not masked its encoding, none where its quad is poisoned (R141, R143). -/
def readOperands (s : State) (q : Nat) (d : Accd) (u : Outd) (pos : Nat) (masked : Nat → Bool) : State × List (Option Nat) × Bool :=
  let z := featSize u.fuseFmt
  let at_ := fun o => u.fuseAddr + pos * u.fuseStride + o * z
  let need := (List.range d.outputs).filter fun o => !masked o
  let quads := (need.map fun o => at_ o / 16 * 16).dedup
  let r := quads.foldl (fun (a : State × SMap (List Byte) × List Nat × Bool) b =>
    let x := readMem a.1 q 0xFE b 16
    (x.1, sset a.2.1 b x.2.bytes, (if x.2.poison then b :: a.2.2.1 else a.2.2.1), a.2.2.2 || x.2.ap)) (s, [], [], false)
  (r.1, (List.range d.outputs).map (fun o =>
    let b := at_ o / 16 * 16
    if masked o then some 0 else if r.2.2.1.contains b then none else some (leAt (sget [] r.2.1 b) (at_ o % 16) z)), r.2.2.2)

/-- The mask of a record (R143): which outputs are masked, and whether a quad of it is poisoned. -/
def readMask (s : State) (q : Nat) (d : Accd) (u : Outd) (pos : Nat) : State × (Nat → Bool) × Bool × Bool :=
  if u.maskAddr = 0 then (s, fun _ => false, false, false)
  else
    let r := readMem s q 0xFE (u.maskAddr + pos * u.maskStride) (cdiv d.outputs 8)
    (r.1, fun o => bitOf (leAt r.2.bytes (o / 8) 1) (o % 8), r.2.poison, r.2.ap)

/-- The transform of a record's values (R142, R143). -/
def transformAll (u : Outd) (masked : Nat → Bool) (vs : List OutVal) : List OutVal × Nat :=
  if u.transform = 1 then (vs.map fun v => { v with w := sigmoidOf v.w }, 0)
  else if u.transform = 2 then
    let ix := (List.range vs.length).filter fun o => !masked o
    let sm := softmaxOf 0 (ix.map fun o => (nth {} vs o).w)
    ((List.range vs.length).map fun o =>
      match findIx (· == o) ix with
      | some i => { nth {} vs o with w := nth 0 sm.1 i }
      | none => { nth {} vs o with w := 0 }, sm.2)
  else (vs, 0)

/-- The fused operation on a record's values (R141). -/
def fuseAll (u : Outd) (masked : Nat → Bool) (ops : List (Option Nat)) (vs : List OutVal) : List OutVal :=
  if u.fuse = 0 then vs
  else (List.range vs.length).map fun o =>
    if masked o then nth {} vs o
    else match nth none ops o with
      | some x => fuseVal u.fuse u.fuseFmt (nth {} vs o) x
      | none => { nth {} vs o with w := nan32, flags := (nth {} vs o).flags ||| fInteg }

/-- A finished record: its values as the result record holds them, statistics per output, flags, the `HDG_ACC_STAT` bits that its PAIRWISE
additions raise (R124, R135), and its ranking key and score. -/
structure Finished where
  acc : Nat := 0
  vals : List Nat
  stats : List (Nat × Nat)
  flags : Nat
  key : Option Int
  score : Nat
  ap : Bool
  deriving Repr

/-- The ranking key of an FP32 value (R147). -/
def keyOfFp (w : Nat) : Option Int :=
  match ofFp32 w with
  | .nan _ => none
  | .inf b => some (if b then -(2 ^ 700) else 2 ^ 700)
  | v => some v.toInt

/-- One record converted, fused and transformed (Table 6-1, step 4). -/
def finishRecord (s : State) (q : Nat) (d : Accd) (u : Outd) (c : OutRec) : State × Finished :=
  let ctx : FCtx := { stoch := d.stoch, model := d.model, tag := c.tag, block := 2 ^ d.blockLog2 }
  let hit := fun (ks : List Nat) => ks.any fun k => c.bad.contains k
  let stat := fun (fl : Nat) => if d.stats then
      (List.range d.outputs).map fun o =>
        meanVar d.varDiv (hasFlag fl fInteg) (nth 0 c.ns o) (signed 640 (nth 0 c.rows o)) (signed 640 (nth 0 c.rows (d.outputs + o)))
    else []
  let pairSat := fun (st : List (Nat × Nat × Bool)) => flagIf (st.any (·.2.2)) fSat
  if u.raw then
    let free := fun (o : Nat) => (List.range 20).foldl (fun a j => a * 2 ^ 32 + (Config.freeWord (s.freeTick + 20 * o + j)).toNat) 0
    let vals := (List.range d.outputs).map fun o =>
      if hit (rowsFor d o) then free o
      else if d.legacy then (match c.tiles with
        | [] => 0
        | [t] => nth 0 c.rows t
        | ts => unsigned 640 (Config.legacySum (ts.map fun t => signed 640 (nth 0 c.rows t))))
      else nth 0 c.rows o
    let s := if c.bad.isEmpty then s else { s with freeTick := s.freeTick + 20 * d.outputs }
    let st := stat c.flags
    let n := signed 640 (nth 0 vals u.topkOut)
    (s, { vals := vals, stats := st.map fun x => (x.1, x.2.1), flags := c.flags ||| pairSat st, key := some n,
          score := (encodeVal .fp32 (.num n)).1, ap := false })
  else
    let vs := (List.range d.outputs).map fun o =>
      if hit (rowsFor d o) then ({ w := nan32 } : OutVal) else valueOf d c ctx o
    let m := readMask s q d u c.pos
    let st0 := stat c.flags
    let acc := if d.float && d.pairwise then flagIf (vs.any fun v => hasFlag v.flags fSat) 1 + flagIf (vs.any (·.nan)) 8 else 0
    if m.2.2.1 then
      let fl := vs.foldl (fun a v => a ||| v.flags) (c.flags ||| fInteg)
      let st := stat fl
      (m.1, { acc := acc, vals := vs.map fun _ => nan32, stats := st.map fun x => (x.1, x.2.1), flags := fl, key := none, score := nan32, ap := false })
    else
      let masked := m.2.1
      let ops := if u.fuse = 0 then (m.1, [], false) else readOperands m.1 q d u c.pos masked
      let vs1 := if u.fusePos then vs else fuseAll u masked ops.2.1 vs
      let t := transformAll u masked vs1
      let vs2 := if u.fusePos then fuseAll u masked ops.2.1 t.1 else t.1
      let fl := vs2.foldl (fun a v => a ||| v.flags) (c.flags ||| t.2)
      let st := if hasFlag fl fInteg then stat fl else st0
      let fl := fl ||| pairSat st
      let w := (nth {} vs2 u.topkOut).w
      (ops.1, { acc := acc, vals := vs2.map (·.w), stats := st.map fun x => (x.1, x.2.1), flags := fl, key := keyOfFp w, score := w,
                ap := m.2.2.2 || ops.2.2 })

/-- The bytes of a result record (Table 6-5). -/
def resultBytes (d : Accd) (u : Outd) (c : OutRec) (f : Finished) : List Byte :=
  let b := toLe 8 c.tag ++ toLe 4 d.model ++ toLe 2 f.flags ++ toLe 2 d.outputs ++
    toLe 2 (unsigned 16 (if d.fixed then c.scale else 0)) ++ [if u.raw then 0xB else 0x9, 0] ++
    toLe 4 (if hasFlag f.flags fPart then c.gone + c.ranks * 65536 else 0) ++
    toLe 4 (if d.stats then nth 0 c.ns 0 else 0) ++ toLe 4 0 ++
    f.vals.flatMap (toLe (if u.raw then 80 else 4)) ++ f.stats.flatMap fun x => toLe 4 x.1 ++ toLe 4 x.2
  padTo (rsizeOf d u.raw) b

/-! ## Ranking -/

/-- A record is eligible for ranking (R147). -/
def eligible (u : Outd) (f : Finished) : Bool :=
  !(hasFlag f.flags fInteg || hasFlag f.flags fSat || hasFlag f.flags fCancel) && (!hasFlag f.flags fPart || u.part) && f.key.isSome

/-- The order of R147: a before b. -/
def ranksBefore (asc : Bool) (a b : Ranked) : Bool :=
  if a.key = b.key then decide (a.pos < b.pos) else if asc then decide (a.key < b.key) else decide (b.key < a.key)

/-- Insertion in rank order. -/
def insertRank (asc : Bool) (x : Ranked) : List Ranked → List Ranked
  | [] => [x]
  | y :: t => if ranksBefore asc x y then x :: y :: t else y :: insertRank asc x t

/-- A list of at most k in rank order. -/
def rankList (asc : Bool) (k : Nat) (l : List Ranked) : List Ranked := (l.foldl (fun a x => insertRank asc x a) []).take k

/-- The bytes of a ranked list (Table 6-7). -/
def rankBytes (k excluded : Nat) (l : List Ranked) : List Byte :=
  padTo (16 + 32 * k) (toLe 4 l.length ++ toLe 4 excluded ++ toLe 2 k ++ toLe 6 0 ++ l.flatMap fun e =>
    toLe 8 e.tag.toNat ++ toLe 4 e.pos ++ toLe 2 e.flags ++ toLe 2 0 ++ toLe 4 e.score.toNat ++ toLe 4 e.variance.toNat ++ toLe 8 0)

/-! ## The end of a close -/

/-- The MAC a command's results leave on (R227). -/
def egressOf (s : State) (c : Cmd) : Option Nat :=
  let e := regField s (qfeReg (cmdQueue s c) 0x24) 24 22
  if c.record ∧ 4 ≤ e then some (e - 4) else none

/-- Where the result records of a command begin (R226); none with egress. -/
def resultBase (s : State) (c : Cmd) (d : Accd) (u : Outd) : Option Nat :=
  match egressOf s c with
  | some _ => none
  | none => some (if c.record then u.result + c.idx.toNat % ringSlots s (cmdQueue s c) * rsizeOf d u.raw else u.result)

/-- Step 7 of Table 6-1: the close at the head of hedge h's output unit leaves it, the group's rows return to free, and its number may be
reopened on every hedge of the span (R127). -/
def endClose (s : State) (h : Nat) (r : StepRun) (c : Close) : State :=
  let s := (spanHs r.spec c.span).foldl (fun s x => dropGroup s x c.group) s
  dropTokens (modHedge s h fun e => { e with closes := e.closes.drop 1 }) (ownOut h)

/-- Step 2 of Table 6-1: the rows of the hedges `hs` return to free (R127); the group number stays taken there until step 7. -/
def freeOthers (s : State) (hs : List Nat) (g : Nat) : State :=
  hs.foldl (fun s h => modHedge (modGroup s h g fun v => { v with rows := [] }) h fun e =>
    { e with acc := clearRows e.acc (match (hedge s h).groups.find? fun x => x.1 == g with | some v => v.2.rows | none => []) }) s

/-- The egress frames of a command leave, wait, or are discarded while the link is down (R423, R424); the commands that have none
left complete. -/
def sendResults (s : State) (uid m q rsize : Nat) (recs : List (Nat × List Byte)) (st : St) : State :=
  let per := perFrame s m rsize
  let sorted := recs.foldl (fun (l : List (Nat × List Byte)) x => (l.filter fun y => decide (y.1 < x.1)) ++ [x] ++ l.filter fun y => decide (x.1 < y.1)) []
  let frames := (chunk per sorted.length (sorted.map (·.2))).map fun c => (c.length, c.flatten)
  if !(mac s m).link ∧ regBit s (macReg m 0) 7 then complete (regCount s (macReg m 0x5C) frames.length) uid st
  else
    let s := modMac s m fun k => { k with tx := k.tx ++ [{ q := q, uid := uid, frames := frames }] }
    let s := addStatus s uid st
    if macMaySend s m then
      let r := sendAll (txCount s m + 1) s m
      r.2.foldl (fun s u => complete s u (match findCmd s u with | some c => c.status | none => .ok)) r.1
    else s

/-- A span's close is over: when every span has closed the command completes, its egress frames first. -/
def spanClosed (s : State) (uid rsize : Nat) (st : St) : State :=
  let s := addStatus s uid st
  let s := modStep s uid fun r => { r with closed := r.closed + 1, status := r.status.firstBad st }
  match findStep s uid, findCmd s uid with
  | some r, some c =>
    if r.closed < r.spec.spans.length then s
    else
      let st := c.status.firstBad (integStatus s uid)
      let s := { s with rotations := s.rotations.filter (·.uid != uid) }
      let s := match r.spec.calib with
        | some k => { s with calOut := sset s.calOut k.2 r.egress }
        | none => s
      (match egressOf s c with
       | some m => if r.egress.isEmpty then complete s uid st else sendResults s uid m r.q rsize r.egress st
       | none => complete s uid st)
  | _, _ => s

/-- A close that writes nothing ends with a status; the command then has no list either. -/
def failClose (s : State) (h : Nat) (r : StepRun) (c : Close) (st : St) : State :=
  let s := modStep s r.uid fun t => { t with unlisted := true }
  spanClosed (endClose s h r c) r.uid 16 st

/-- One result record written in its place, or kept for its frame; the rank book is brought up to date. -/
def writeResult (d : Accd) (u : Outd) (base : Option Nat) (h : Nat) (r : StepRun) (s : State) (c : OutRec) : State :=
  let x := finishRecord s r.q d u c
  let f := x.2
  let bytes := resultBytes d u c f
  let s := if f.ap then addStatus x.1 r.uid .aperture else x.1
  let s := match base with
    | some a =>
      let w := writeMem s r.q 0xFE (a + c.pos * rsizeOf d u.raw) bytes
      if w.2 then addStatus w.1 r.uid .aperture else w.1
    | none => modStep s r.uid fun r => { r with egress := r.egress ++ [(c.pos, bytes)] }
  let s := regAdd s (hdgReg h 0x144) 1
  let s := regOr (regOr s (hdgReg h 0x140) (outSticky f.flags)) (hdgReg h 0x114) f.acc
  let raised := f.flags ^^^ (f.flags &&& c.old)
  let s := modCmd s r.uid fun k => { k with flags := k.flags ||| raised, detail := k.detail + 1 }
  if !u.topk then s
  else
    let b := sget ({} : RankBook) s.ranks r.uid
    let b := match f.key with
      | some key => if eligible u f then
          let var := if d.stats then (nth (0, 0) f.stats u.topkOut).2 else 0
          let e : Ranked := ⟨c.pos, BitVec.ofNat 64 c.tag, f.flags, key, BitVec.ofNat 32 f.score, BitVec.ofNat 32 var⟩
          { b with entries := b.entries ++ [e] }
        else { b with excluded := b.excluded + 1 }
      | none => { b with excluded := b.excluded + 1 }
    { s with ranks := sset s.ranks r.uid b }

/-- The first hedge of the span that holds batch position 0. -/
def rankHedge (r : StepRun) : Option Nat :=
  ((List.range r.spec.spans.length).find? fun k => decide (0 < spanCount r.spec k)).bind fun k => (takers r k).head?

/-- The merged list of a command written (R148, R149). -/
def writeRanks (s : State) (r : StepRun) (u : Outd) : State :=
  let b := sget ({} : RankBook) s.ranks r.uid
  let w := writeMem s r.q 0xFE u.topkAddr (rankBytes u.k b.excluded (rankList u.asc u.k b.entries))
  if w.2 then addStatus w.1 r.uid .aperture else w.1

/-- The close at the head of a hedge's output unit goes to a stage. -/
def setStage (s : State) (h n : Nat) : State :=
  modHedge s h fun e => { e with closes := (e.closes.take 1).map (fun (k : Close) => { k with stage := n }) ++ e.closes.drop 1 }

/-- An output descriptor is refused (R139, Table 6-10). -/
def refuseOutd (s : State) (h : Nat) (r : StepRun) (c : Close) (st : St) : State :=
  failClose (if st = .format then regOr s (hdgReg h 0x140) 16 else s) h r c st

/-- Steps 4 to 7 of Table 6-1 on the combined records of a span, by the output unit of hedge h. -/
def closeRecords (s : State) (h : Nat) (r : StepRun) (c : Close) (cmd : Cmd) (d : Accd) (recs : List OutRec) : State :=
  let got := if r.spec.outdImm.isEmpty then readStruct s (stepReach s r) 0xFE r.spec.outd 64 64 else (s, .ok r.spec.outdImm)
  match got with
  | (s, .stop st) => refuseOutd s h r c st
  | (s, .ok b) =>
    let u := outdOf b
    let eg := (egressOf s cmd).isSome
    let base := if r.spec.calib.isSome then none else resultBase s cmd d u
    let fits := match egressOf s cmd with | some m => decide (0 < perFrame s m (rsizeOf d u.raw)) | none => true
    if !outdOk d (eg || r.spec.calib.isSome) b ∨ (cmd.record ∧ u.topk) then refuseOutd s h r c .format
    else if !fits then failClose s h r c .format
    else if !((outdRanges d u base r.spec.records).all fun x => reaches s (stepReach s r) x.1 x.2) then failClose s h r c .aperture
    else
      let s := recs.foldl (writeResult d u base h r) s
      let st : St := if c.cancel then .drained else .ok
      let finish := fun (s : State) => spanClosed (endClose s h r c) r.uid (rsizeOf d u.raw) st
      if !u.topk then finish s
      else if r.spec.spans.length = 1 then finish (writeRanks s r u)
      else if rankHedge r = some h then setStage (modStep s r.uid fun t => { t with outd := b }) h 2
      else finish s

/-- TOPK_MERGE (R148): once every other span's close is past step 5, the span that holds position 0 merges the lists, by its copy of the
output descriptor (R139). Where a span's close wrote no results there is no list. -/
def topkMerge (s : State) (h : Nat) : State :=
  match (hedge s h).closes with
  | [] => s
  | c :: _ =>
    match findStep s c.uid with
    | none => s
    | some r =>
      if c.stage ≠ 2 ∨ r.closed + 1 < r.spec.spans.length ∨ (queue s r.q).st = .retiring then s
      else
        let s := if r.unlisted then s else writeRanks s r (outdOf r.outd)
        spanClosed (endClose s h r c) r.uid 16 (if c.cancel then .drained else .ok)

/-- The descriptor of the group a close closes. -/
def closeAccd (s : State) (h : Nat) (c : Close) : Option Accd := (group s h c.group).map fun g => accdOf g.accd

/-- Every span of a PAIRWISE group has begun to close, so that the runs of all of them are known (R123). -/
def allClosing (r : StepRun) : Bool := (List.range r.spec.spans.length).all fun k => r.closing.contains k

/-- What the runs of a PAIRWISE group were found to be, over all its spans: found once, by the first of its closes (R123). -/
def runsBad (s : State) (r : StepRun) (d : Accd) : Bool :=
  r.runsBad.getD (!(List.range r.spec.spans.length).all fun k => runsOk s r k d)

end Sys2Proof.Machine
end

