-- ==== Sys2Proof/Machine/Engine.lean ====
section
/-! DEFINITION. The matrix array and the vector engine of a receiver unit (R200 to R218): descriptors with their checks, and what an
operation computes and writes. -/

namespace Sys2Proof.Machine

/-- What an operation gives: status, result flags, operand bytes read. -/
structure EngOut where
  status : St := .ok
  flags : Nat := 0
  bytes : Nat := 0
  deriving DecidableEq, Repr

/-- Bytes written to a 16-byte aligned address, each with whether it depends on a poisoned quad: a quad holding such a byte is written
poisoned (Table 14-6). `n` bounds the quads. The Bool says a quad was poisoned. -/
def writeTainted : Nat → State → (q who a : Nat) → List (Byte × Bool) → State × Bool
  | 0, s, _, _, _, _ => (s, false)
  | n + 1, s, q, who, a, bs =>
    if bs.isEmpty then (s, false)
    else
      let c := bs.take 16
      let bad := c.any (·.2)
      let s := if bad then (writePoison 1 s q a).1 else (writeMem s q who a (c.map (·.1))).1
      let r := writeTainted n s q who (a + 16) (bs.drop 16)
      (r.1, r.2 || bad)

/-- A range read in device memory: its bytes, each with whether its quad is poisoned. -/
def readTainted (s : State) (q who a len : Nat) : State × List (Byte × Bool) :=
  let r := readMem s q who a len
  (r.1, (List.zip (List.range len) r.2.bytes).map fun e => (e.2, r.2.bad.contains ((a + e.1) / 16 * 16)))

/-- Two byte ranges overlap. -/
def rangesMeet (a b : Nat × Nat) : Bool := decide (a.1 < b.1 + b.2) && decide (b.1 < a.1 + a.2)

/-- No two ranges of a list overlap. -/
def noMeet : List (Nat × Nat) → Bool
  | [] => true
  | a :: t => t.all (fun b => !rangesMeet a b) && noMeet t

/-! ## Matrix operations -/

/-- A matrix operation descriptor (Table 9-1). -/
structure Mxop where
  afmt : Nat
  bfmt : Nat
  cfmt : Nat
  opts : Nat
  m : Nat
  k : Nat
  n : Nat
  a : Nat
  b : Nat
  c : Nat
  astr : Nat
  bstr : Nat
  cstr : Nat
  seed : Nat
  tag : Nat
  deriving DecidableEq, Repr

/-- The fields from the 64 bytes. -/
def mxopOf (b : List Byte) : Mxop :=
  { afmt := leAt b 6 1, bfmt := leAt b 7 1, cfmt := leAt b 8 1, opts := leAt b 9 1, m := leAt b 10 2, k := leAt b 12 2, n := leAt b 14 2,
    a := leAt b 16 8, b := leAt b 24 8, c := leAt b 32 8, astr := leAt b 40 4, bstr := leAt b 44 4, cstr := leAt b 48 4,
    seed := leAt b 52 4, tag := leAt b 56 8 }

/-- PAIRWISE. -/
def Mxop.pairwise (d : Mxop) : Bool := bitOf d.opts 0
/-- STOCHASTIC. -/
def Mxop.stoch (d : Mxop) : Bool := bitOf d.opts 1
/-- ACC_IN. -/
def Mxop.accIn (d : Mxop) : Bool := bitOf d.opts 2
/-- LEGACY. -/
def Mxop.legacy (d : Mxop) : Bool := bitOf d.opts 3
/-- COMPLEX. -/
def Mxop.cplx (d : Mxop) : Bool := bitOf d.opts 4
/-- An integer operation. -/
def Mxop.integer (d : Mxop) : Bool := d.afmt < 5 || d.afmt == 10

/-- Bytes of an element: a pair with `cplx`, CI16 being one already. -/
def elemSize (cplx : Bool) (fmt : Nat) : Nat := if fmt = 10 then 4 else if cplx then 2 * featSize fmt else featSize fmt

/-- The format pairs of Table 9-2. -/
def pairOk (d : Mxop) : Bool :=
  if d.cplx then (d.afmt == 10 && d.bfmt == 10) || ((d.afmt == 7 || d.afmt == 8) && (d.bfmt == 7 || d.bfmt == 8))
  else (decide (5 ≤ d.afmt) && decide (d.afmt ≤ 8) && decide (5 ≤ d.bfmt) && decide (d.bfmt ≤ 8)) ||
    (d.afmt == 3 && d.bfmt == 3) || (decide (d.afmt ≤ 1) && decide (d.bfmt ≤ 1))

/-- The rows of an operand in memory (R204): the first one's address, their stride, the bytes of each and how many. -/
structure Rows where
  at_ : Nat
  stride : Nat
  len : Nat
  n : Nat
  deriving DecidableEq, Repr

/-- The operands A, B and C. -/
def mxRows (d : Mxop) : List Rows :=
  [⟨d.a, d.astr, d.k * elemSize d.cplx d.afmt, d.m⟩, ⟨d.b, d.bstr, d.n * elemSize d.cplx d.bfmt, d.k⟩,
   ⟨d.c, d.cstr, d.n * elemSize d.cplx d.cfmt, d.m⟩]

/-- The byte ranges of an operand's rows. -/
def Rows.ranges (r : Rows) : List (Nat × Nat) := (List.range r.n).map fun i => (r.at_ + i * r.stride, r.len)

/-- The byte ranges of A, B and C. -/
def mxRanges (d : Mxop) : List (Nat × Nat) := (mxRows d).flatMap (·.ranges)

/-- Two operands share a byte (R205): some row of `a` meets the first row of `b` that does not end before it. -/
def Rows.meet (a b : Rows) : Bool :=
  a.ranges.any fun r =>
    let j := if r.1 < b.at_ + b.len then 0 else (r.1 - b.at_ - b.len) / max 1 b.stride + 1
    decide (j < b.n) && rangesMeet r (b.at_ + j * b.stride, b.len)

/-- No two operands of a list share a byte. -/
def rowsApart : List Rows → Bool
  | [] => true
  | a :: t => t.all (fun b => !a.meet b) && rowsApart t

/-- The checks of Table 9-1 and R205. -/
def mxopOk (b : List Byte) : Bool :=
  let d := mxopOf b
  leAt b 0 4 == 0x504F584D && leAt b 4 2 == 1 && pairOk d && decide (d.cfmt ≤ 10) && decide (d.opts < 32) &&
  decide (1 ≤ d.m) && decide (1 ≤ d.k) && decide (d.k ≤ 4096) && decide (1 ≤ d.n) && decide (d.n ≤ 4096) &&
  d.a % 16 == 0 && d.b % 16 == 0 && d.c % 16 == 0 && !isHost d.a && !isHost d.b && !isHost d.c &&
  d.astr % 16 == 0 && d.bstr % 16 == 0 && d.cstr % 16 == 0 && decide (d.k * elemSize d.cplx d.afmt ≤ d.astr) &&
  decide (d.n * elemSize d.cplx d.bfmt ≤ d.bstr) && decide (d.n * elemSize d.cplx d.cfmt ≤ d.cstr) &&
  (!d.integer || (!d.pairwise && !d.stoch && (!d.accIn || d.cfmt == 4))) &&
  (d.stoch || (d.seed == 0 && d.tag == 0)) && rowsApart (mxRows d)

/-- A complex value as FP32 words, real part first, with what it depends on and raised. -/
structure CV where
  re : Nat := 0
  im : Nat := 0
  bad : Bool := false
  sat : Bool := false
  deriving DecidableEq, Repr

/-- A format's encoding at byte `off` as FP32 (R65). -/
def fpAt (fmt : Nat) (bs : List Byte) (off : Nat) : Nat :=
  match Fmt.ofCode fmt with
  | some f => (convert1 f .fp32 (leAt bs off f.size)).1
  | none => 0

/-- An element as FP32 values. -/
def elemFp (cplx : Bool) (fmt : Nat) (bs : List (Byte × Bool)) (ix : Nat) : CV :=
  let z := elemSize cplx fmt
  let e := (bs.drop (ix * z)).take z
  let b := e.map (·.1)
  let bad := e.any (·.2)
  if fmt = 10 then { re := fpAt 3 b 0, im := fpAt 3 b 2, bad := bad }
  else { re := fpAt fmt b 0, im := if cplx then fpAt fmt b (z / 2) else 0, bad := bad }

/-- An element as integers. -/
def elemInt (cplx : Bool) (fmt : Nat) (bs : List (Byte × Bool)) (ix : Nat) : Int × Int × Bool :=
  let z := elemSize cplx fmt
  let e := (bs.drop (ix * z)).take z
  let b := e.map (·.1)
  let bad := e.any (·.2)
  if fmt = 10 then (signed 16 (leAt b 0 2), signed 16 (leAt b 2 2), bad)
  else match Fmt.ofCode fmt with
    | some f => (intCode f (leAt b 0 z), 0, bad)
    | none => (0, 0, bad)

/-- The exact product of two FP32 values, a multiple of 2^-298 (R124, R213). -/
def exactMul (a b : Val) : Val :=
  match a, b with
  | .nan s, _ => .nan s
  | _, .nan s => .nan s
  | .inf s, y => if y.finite ∧ y.toInt = 0 then .nan false else .inf (s != y.neg)
  | x, .inf t => if x.toInt = 0 then .nan false else .inf (x.neg != t)
  | x, y => if x.toInt * y.toInt = 0 then (if x.neg != y.neg then .negZero else .num 0) else .num (x.toInt * y.toInt / (one320 : Int))

/-- -a; a NaN stays as it is (R64). -/
def negVal : Val → Val
  | .num n => if n = 0 then .negZero else .num (-n)
  | .negZero => .num 0
  | .inf s => .inf !s
  | .nan s => .nan s

/-- a × b + c × d, or a × b - c × d, over FP32 words, rounded once (R213). -/
def mulAdd2 (a b c d : Nat) (neg : Bool) : Nat :=
  let p := exactMul (ofFp32 c) (ofFp32 d)
  (encodeVal .fp32 (addVal (exactMul (ofFp32 a) (ofFp32 b)) (if neg then negVal p else p))).1

/-- A term or running sum of R207: its exact parts, what it depends on and what was raised. -/
structure Term where
  re : Val := .num 0
  im : Val := .num 0
  bad : Bool := false
  sat : Bool := false
  deriving DecidableEq, Repr

/-- An element as a term. -/
def CV.term (x : CV) : Term := { re := ofFp32 x.re, im := ofFp32 x.im, bad := x.bad, sat := x.sat }

/-- A rounded addition of two terms (R124, R207). -/
def addTerm (c : FCtx) (pos site : Nat) (x y : Term) : Term :=
  let r := froundTo c pos site (addVal x.re y.re)
  let i := froundTo c pos site (addVal x.im y.im)
  { re := ofFp32 r.w, im := ofFp32 i.w, bad := x.bad || y.bad, sat := x.sat || y.sat || r.sat || i.sat }

/-- The product at position k (R207, R208): exact; the parts of a complex one are each a rounded addition of two exact products, which
draws as an addition of position k (DEDUCED, log 79). -/
def mulTerm (c : FCtx) (cplx : Bool) (k : Nat) (x y : CV) : Term :=
  let mul := fun (a b : Nat) => exactMul (ofFp32 a) (ofFp32 b)
  let bad := x.bad || y.bad
  if cplx then
    addTerm c k (siteWord 6 0 0) { re := mul x.re y.re, im := mul x.re y.im, bad := bad } { re := negVal (mul x.im y.im), im := mul x.im y.re }
  else { re := mul x.re y.re, bad := bad }

/-- ORDERED: terms folded in ascending position, the first as it stands (R207, R208, R218). -/
def foldTerms (c : FCtx) (site : Nat) : Nat → Term → List Term → Term
  | _, acc, [] => acc
  | k, acc, t :: ts => foldTerms c site (k + 1) (addTerm c k site acc t) ts

/-- PAIRWISE: the node of 2^level positions at `lo` over a list of terms; positions past the end hold +0. -/
def treeTerms (c : FCtx) (kind : Nat) (ts : List Term) : Nat → Nat → Term
  | 0, lo => nth {} ts lo
  | level + 1, lo =>
    addTerm c lo (siteWord kind 0 (level + 1)) (treeTerms c kind ts level lo) (treeTerms c kind ts level (lo + 2 ^ level))

/-- A sum of terms under ORDER. -/
def sumTerms (c : FCtx) (pairwise : Bool) (kind : Nat) (ts : List Term) : Term :=
  if pairwise then treeTerms c kind ts (treeLevel ts.length) 0
  else match ts with
    | [] => {}
    | t :: r => foldTerms c (siteWord kind 0 0) 1 t r

/-- A floating-point output element (R207, R208). -/
def mxFloat (d : Mxop) (i j : Nat) (cin : CV) (as bs : List CV) : Term :=
  let c : FCtx := { stoch := d.stoch, model := d.seed, tag := d.tag ^^^ (i * 2 ^ 32 + j), block := 1 }
  let ps := (List.zip (List.range as.length) (List.zip as bs)).map fun p => mulTerm c d.cplx p.1 p.2.1 p.2.2
  if d.pairwise then
    let r := sumTerms c true 6 ps
    if d.accIn then addTerm c 0 (siteWord 6 0 (treeLevel ps.length + 1)) r cin.term else r
  else if d.accIn then foldTerms c (siteWord 6 0 0) 0 cin.term ps
  else sumTerms c false 6 ps

/-- The encoding of a result element in CFMT (R65), from the exact or FP32 values of its parts. -/
def encodeElem (cplx : Bool) (fmt : Nat) (re im : Val) : List Byte × CvFlags :=
  match Fmt.ofCode fmt with
  | none => ([], {})
  | some f =>
    if fmt = 10 then
      let a := encodeVal .s16 re
      let b := encodeVal .s16 im
      (toLe 2 a.1 ++ toLe 2 b.1, a.2.or b.2)
    else
      let a := encodeVal f re
      if cplx then
        let b := encodeVal f im
        (toLe f.size a.1 ++ toLe f.size b.1, a.2.or b.2)
      else (toLe f.size a.1, a.2)

/-- The flags of a conversion as result flags (R67). -/
def cvFlags (c : CvFlags) : Nat := flagIf c.sat fSat ||| flagIf c.nanin fNanin

/-- The exact integer output at replay count r (R209): the products of its parts, each rounded from P / 2^(8r). -/
def mxIntSum (cplx : Bool) (r : Nat) (cin : Int × Int) (ps : List ((Int × Int) × (Int × Int))) : Int × Int :=
  ps.foldl (fun a p =>
    let x := p.1
    let y := p.2
    if cplx then
      (a.1 + coarse r (x.1 * y.1) + coarse r (-(x.2 * y.2)), a.2 + coarse r (x.1 * y.2) + coarse r (x.2 * y.1))
    else (a.1 + coarse r (x.1 * y.1), a.2)) (coarse r cin.1, coarse r cin.2)

/-- Outside S32. -/
def outS32 (x : Int) : Bool := decide (x < -(2 ^ 31)) || decide (2 ^ 31 - 1 < x)

/-- An exact integer brought into S32; the Bool says it saturated. -/
def satS32 (x : Int) : Int × Bool := if x < -(2 ^ 31) then (-(2 ^ 31), true) else if 2 ^ 31 - 1 < x then (2 ^ 31 - 1, true) else (x, false)

/-- The rows of an operand read one after another. -/
def readRows (s : State) (q who a stride len : Nat) : Nat → State × List (List (Byte × Bool))
  | 0 => (s, [])
  | n + 1 =>
    let r := readRows s q who a stride len n
    let x := readTainted r.1 q who (a + n * stride) len
    (x.1, r.2 ++ [x.2])

/-- The replay count of an output tile (R209): the least r below 3 at which no exact output leaves S32, else 3. -/
def tileReplays (out : Nat → Nat → Nat → Int × Int) (is js : List Nat) : Nat :=
  ((List.range 3).find? fun r => is.all fun i => js.all fun j => !outS32 (out r i j).1 && !outS32 (out r i j).2).getD 3

/-- The rows (columns) of tile t. -/
def tileIx (n t : Nat) : List Nat := (List.range (min 64 (n - 64 * t))).map (64 * t + ·)

/-- A matrix operation on a checked descriptor (R204 to R209). -/
def matrixOp (s : State) (q who : Nat) (d : Mxop) : State × EngOut :=
  let za := elemSize d.cplx d.afmt
  let zb := elemSize d.cplx d.bfmt
  let zc := elemSize d.cplx d.cfmt
  let ra := readRows s q who d.a d.astr (d.k * za) d.m
  let rb := readRows ra.1 q who d.b d.bstr (d.n * zb) d.k
  let rc := if d.accIn then readRows rb.1 q who d.c d.cstr (d.n * zc) d.m else (rb.1, [])
  let s := rc.1
  let arow := fun i => nth [] ra.2 i
  let brow := fun k => nth [] rb.2 k
  let ks := List.range d.k
  let bands := cdiv d.m (if d.legacy then 64 else 2048)
  let read0 := d.m * d.k * za * cdiv d.n 64 + d.k * d.n * zb * bands + (if d.accIn then d.m * d.n * zc else 0)
  let write := fun (s : State) (row : Nat → List (Byte × Bool)) =>
    (List.range d.m).foldl (fun (a : State × Bool) i =>
      let w := writeTainted (d.n * zc / 16 + 1) a.1 q who (d.c + i * d.cstr) (row i)
      (w.1, a.2 || w.2)) (s, false)
  if d.integer then
    let el := fun (fmt : Nat) (bs : List (Byte × Bool)) ix => let x := elemInt d.cplx fmt bs ix; ((x.1, x.2.1), x.2.2)
    let cin := fun i j => if d.accIn then
        let b := (((nth [] rc.2 i).drop (j * zc)).take zc).map (·.1)
        (signed 32 (leAt b 0 4), if d.cplx then signed 32 (leAt b 4 4) else 0)
      else ((0 : Int), (0 : Int))
    let out := fun r i j => mxIntSum d.cplx r (cin i j) (ks.map fun k => ((el d.afmt (arow i) k).1, (el d.bfmt (brow k) j).1))
    let bad := fun i j => (ks.any fun k => (el d.afmt (arow i) k).2 || (el d.bfmt (brow k) j).2) ||
      (d.accIn && (((nth [] rc.2 i).drop (j * zc)).take zc).any (·.2))
    let reps := (List.range (cdiv d.m 64)).map fun ti => (List.range (cdiv d.n 64)).map fun tj =>
      tileReplays out (tileIx d.m ti) (tileIx d.n tj)
    let rep := fun i j => nth 0 (nth [] reps (i / 64)) (j / 64)
    let cell := fun i j =>
      let r := rep i j
      let v := out r i j
      let a := satS32 v.1
      let b := satS32 v.2
      let e := encodeElem d.cplx d.cfmt (.num (a.1 * 2 ^ (8 * r) * (one320 : Int))) (.num (b.1 * 2 ^ (8 * r) * (one320 : Int)))
      (e.1, cvFlags e.2 ||| flagIf (a.2 || b.2) fSat ||| flagIf (decide (0 < r)) fScaled)
    let fl := (List.range d.m).foldl (fun a i => (List.range d.n).foldl (fun a j => a ||| (cell i j).2) a) 0
    let extra := ((List.range (cdiv d.m 64)).map fun ti => ((List.range (cdiv d.n 64)).map fun tj =>
      nth 0 (nth [] reps ti) tj * (tileIx d.m ti).length * d.k * za).sum).sum
    let w := write s fun i => (List.range d.n).flatMap fun j => (cell i j).1.map fun b => (b, bad i j)
    (w.1, { status := if w.2 then .integrity else .ok, flags := fl, bytes := read0 + extra })
  else
    let cin := fun i j => if d.accIn then elemFp d.cplx d.cfmt (nth [] rc.2 i) j else ({} : CV)
    let cell := fun i j =>
      let v := mxFloat d i j (cin i j) (ks.map fun k => elemFp d.cplx d.afmt (arow i) k) (ks.map fun k => elemFp d.cplx d.bfmt (brow k) j)
      let e := encodeElem d.cplx d.cfmt v.re v.im
      (e.1, cvFlags e.2 ||| flagIf v.sat fSat, v.bad)
    let fl := (List.range d.m).foldl (fun a i => (List.range d.n).foldl (fun a j => a ||| (cell i j).2.1) a) 0
    let w := write s fun i => (List.range d.n).flatMap fun j => (cell i j).1.map fun b => (b, (cell i j).2.2)
    (w.1, { status := if w.2 then .integrity else .ok, flags := fl, bytes := read0 })

/-! ## Vector operations -/

/-- A vector operation descriptor (Table 9-3). -/
structure Vxop where
  steps : List Nat
  opts : Nat
  len : Nat
  seed : Nat
  tag : Nat
  ins : List Nat
  infmt : Nat
  outfmt : Nat
  red : Nat
  varDiv : Bool
  row : Nat
  out0 : Nat
  out1 : Nat
  redAddr : Nat
  consts : List Nat
  deriving DecidableEq, Repr

/-- The fields from the 192 bytes. -/
def vxopOf (b : List Byte) : Vxop :=
  { steps := (List.range (leAt b 6 1)).map fun i => leAt b (0x70 + 4 * i) 4, opts := leAt b 7 1, len := leAt b 8 4, seed := leAt b 12 4,
    tag := leAt b 16 8, ins := (List.range 4).map fun n => leAt b (0x18 + 8 * n) 8, infmt := leAt b 0x38 2, outfmt := leAt b 0x3A 1,
    red := leAt b 0x3B 1 % 8, varDiv := bitOf (leAt b 0x3B 1) 3, row := if leAt b 0x3C 4 = 0 then leAt b 8 4 else leAt b 0x3C 4,
    out0 := leAt b 0x40 8, out1 := leAt b 0x48 8, redAddr := leAt b 0x50 8, consts := (List.range 4).map fun n => leAt b (0x58 + 4 * n) 4 }

/-- CPLX. -/
def Vxop.cplx (d : Vxop) : Bool := bitOf d.opts 0
/-- PAIRWISE. -/
def Vxop.pairwise (d : Vxop) : Bool := bitOf d.opts 1
/-- STOCHASTIC. -/
def Vxop.stoch (d : Vxop) : Bool := bitOf d.opts 2
/-- RED_EXACT. -/
def Vxop.redExact (d : Vxop) : Bool := bitOf d.opts 3
/-- MASKED. -/
def Vxop.masked (d : Vxop) : Bool := bitOf d.opts 4
/-- Format of input n. -/
def Vxop.inFmt (d : Vxop) (n : Nat) : Nat := fieldOf d.infmt (4 * n + 3) (4 * n)
/-- Format of an output. -/
def Vxop.outFmt (d : Vxop) (n : Nat) : Nat := fieldOf d.outfmt (4 * n + 3) (4 * n)

/-- OP of a step word (Table 9-4). -/
def stOp (w : Nat) : Nat := fieldOf w 4 0
/-- SRC_A. -/
def stA (w : Nat) : Nat := fieldOf w 9 5
/-- SRC_B. -/
def stB (w : Nat) : Nat := fieldOf w 14 10
/-- SRC_C. -/
def stC (w : Nat) : Nat := fieldOf w 19 15
/-- DEST. -/
def stDest (w : Nat) : Nat := fieldOf w 21 20

/-- Operands an operation takes (Table 9-5); 0 for a code that names none. -/
def opArity (op : Nat) : Nat :=
  if [1, 2, 3, 5, 6, 18].contains op then 2 else if [4, 17].contains op then 3 else if 7 ≤ op ∧ op ≤ 19 then 1 else 0

/-- Input stream n is used. -/
def Vxop.usesIn (d : Vxop) (n : Nat) : Bool :=
  d.steps.any fun w => stA w == n || (decide (2 ≤ opArity (stOp w)) && stB w == n) || (opArity (stOp w) == 3 && stC w == n)

/-- A source of step i names a constant, an index, a used input or an earlier step. -/
def srcOk (d : Vxop) (i x : Nat) : Bool :=
  if x ≤ 3 then nth 0 d.ins x != 0 && !(x == 3 && d.masked) && decide (d.inFmt x ≤ 10) && (d.inFmt x != 10 || d.cplx)
  else decide (x ≤ 9) || (decide (16 ≤ x) && decide (x < 16 + i))

/-- One step word obeys Table 9-4 and R213 to R215. -/
def stepOk (d : Vxop) (i w : Nat) : Bool :=
  let n := opArity (stOp w)
  n != 0 && decide (w < 2 ^ 22) && srcOk d i (stA w) && (if 2 ≤ n then srcOk d i (stB w) else stB w == 0) &&
  (if 3 ≤ n then srcOk d i (stC w) else stC w == 0) && (stOp w != 9 || d.cplx) &&
  (stOp w != 18 || decide (stB w ≤ 3) || decide (16 ≤ stB w))

/-- Bytes of `len` elements written in a format (R66, R215): without CPLX, one CI16 takes two elements. -/
def outBytes (cplx : Bool) (fmt len : Nat) : Nat := if fmt = 10 ∧ !cplx then 4 * cdiv len 2 else len * elemSize cplx fmt

/-- The output n is some step's DEST. -/
def Vxop.dest (d : Vxop) (n : Nat) : Bool := d.steps.any fun w => stDest w == n

/-- Rows of the reduction. -/
def Vxop.rows (d : Vxop) : Nat := d.len / max 1 d.row

/-- Bytes of a row's reduction result. -/
def Vxop.redSize (d : Vxop) : Nat := if d.red = 5 ∨ (d.cplx ∧ d.red = 1) then 8 else 4

/-- The streams in use as (address, length). -/
def vxRanges (d : Vxop) : List (Nat × Nat) :=
  ((List.range 4).filter d.usesIn).map (fun n => (nth 0 d.ins n, d.len * elemSize d.cplx (d.inFmt n))) ++
  (if d.masked then [(nth 0 d.ins 3, cdiv d.len 8)] else []) ++
  (if d.dest 1 ∨ d.red = 6 then [(d.out0, outBytes d.cplx (d.outFmt 0) d.len)] else []) ++
  (if d.dest 2 then [(d.out1, outBytes d.cplx (d.outFmt 1) d.len)] else []) ++
  (if d.red ≠ 0 ∧ d.red ≠ 6 then [(d.redAddr, d.rows * d.redSize)] else [])

/-- The checks of Table 9-3, Table 9-4, R212, R213 and R215. -/
def vxopOk (b : List Byte) : Bool :=
  let d := vxopOf b
  let n := leAt b 6 1
  let once := fun (x : Nat) => decide ((d.steps.filter fun w => stDest w == x).length ≤ 1)
  leAt b 0 4 == 0x504F5856 && leAt b 4 2 == 1 && decide (1 ≤ n) && decide (n ≤ 16) && decide (d.opts < 32) &&
  decide (1 ≤ d.len) && decide (d.len ≤ 2 ^ 24) && (d.stoch || (d.seed == 0 && d.tag == 0)) &&
  ((List.range 4).all fun k => nth 0 d.ins k % 16 == 0 && !isHost (nth 0 d.ins k) && decide (d.inFmt k ≤ 10) &&
    (nth 0 d.ins k == 0 || d.usesIn k || (k == 3 && d.masked))) &&
  decide (d.outFmt 0 ≤ 10) && decide (d.outFmt 1 ≤ 10) && decide (leAt b 0x3B 1 < 16) && decide (d.red ≤ 6) &&
  d.len % max 1 d.row == 0 && decide (1 ≤ d.row) && d.out0 % 16 == 0 && d.out1 % 16 == 0 && d.redAddr % 16 == 0 &&
  !isHost d.out0 && !isHost d.out1 && !isHost d.redAddr && (d.red != 0 || d.redAddr == 0) &&
  leAt b 0x68 8 == 0 && allZero (sub b (0x70 + 4 * n) (0xC0 - (0x70 + 4 * n))) &&
  ((List.zip (List.range n) d.steps).all fun e => stepOk d e.1 e.2) && once 1 && once 2 && once 3 &&
  (d.red != 0) == d.dest 3 && (d.out0 != 0) == (d.dest 1 || d.red == 6) && (d.out1 != 0) == d.dest 2 &&
  !(d.dest 1 && d.red == 6) && (!d.masked || (d.red == 6 && nth 0 d.ins 3 != 0)) && noMeet (vxRanges d)

/-- The constant 1.0. -/
def one32 : Nat := 0x3F800000

/-- A small count as FP32, exact (R211). -/
def natFp (n : Nat) : Nat := toFp32 (.num ((n : Int) * (one320 : Int)))

/-- a + b rounded (R124). -/
def add32 (a b : Nat) : Nat := (encodeVal .fp32 (addVal (ofFp32 a) (ofFp32 b))).1

/-- a - b rounded (R124). -/
def sub32 (a b : Nat) : Nat := (encodeVal .fp32 (addVal (ofFp32 a) (negVal (ofFp32 b)))).1

/-- -a. -/
def neg32 (a : Nat) : Nat := (a + 2 ^ 31) % 2 ^ 32

/-- a × b rounded. -/
def mul32 (a b : Nat) : Nat := (encodeVal .fp32 (exactMul (ofFp32 a) (ofFp32 b))).1

/-- a × b + c rounded once. -/
def fma32 (a b c : Nat) : Nat := (encodeVal .fp32 (addVal (exactMul (ofFp32 a) (ofFp32 b)) (ofFp32 c))).1

/-- a × b ± c × d + e rounded once (complex FMA). -/
def mulAdd3 (a b c d e : Nat) (neg : Bool) : Nat :=
  let p := exactMul (ofFp32 c) (ofFp32 d)
  (encodeVal .fp32 (addVal (addVal (exactMul (ofFp32 a) (ofFp32 b)) (if neg then negVal p else p)) (ofFp32 e))).1

/-- MIN or MAX (Table 9-5). -/
def minmax (isMax : Bool) (a b : Nat) : Nat :=
  let va := ofFp32 a
  let vb := ofFp32 b
  if va.isNan then canonNan .fp32 va.neg
  else if vb.isNan then canonNan .fp32 vb.neg
  else
    let lt := if va.toInt = vb.toInt ∧ va.finite ∧ vb.finite then va.neg && !vb.neg
      else match keyOfFp a, keyOfFp b with | some x, some y => decide (x < y) | _, _ => false
    if isMax then (if lt then b else a) else (if lt then a else b)

/-- The real-only functions of Table 9-5. -/
def unary (op a : Nat) : Nat :=
  let v := ofFp32 a
  let w := BitVec.ofNat 32 a
  if op = 7 then a % 2 ^ 31
  else if op = 16 then sigmoidOf a
  else
    match v with
    | .nan s => canonNan .fp32 s
    | .inf neg =>
      if op = 11 then (if neg then 2 ^ 31 else 0)
      else if op = 12 then (if neg then nan32 else 0)
      else if op = 13 then (if neg then 0 else 0x7F800000)
      else if op = 14 then (if neg then nan32 else 0x7F800000)
      else (if neg then neg32 one32 else one32)
    | v =>
      let zero := v.toInt = 0
      if op = 11 then (if zero then (if v.neg then 0xFF800000 else 0x7F800000) else keepUlp 1 (fxDiv fxOne v.toInt) (Config.rcp w).toNat)
      else if op = 12 then
        (if v = .num 0 then 0x7F800000 else if v.toInt < 0 then nan32 else keepUlp 1 (fxExp (-(fxLog v.toInt.toNat / 2))) (Config.rsqrt w).toNat)
      else if op = 13 then keepUlp 2 (fxExp v.toInt) (Config.exp w).toNat
      else if op = 14 then (if zero then 0xFF800000 else if v.toInt < 0 then nan32 else keepUlp 2 (fxLog v.toInt.toNat) (Config.log w).toNat)
      else keepUlp 2 (fxTanh v.toInt) (Config.tanh w).toNat

/-- The lane PERM names (R214); none where it reads +0 and raises OOR. -/
def permLane (vl a : Nat) : Option Nat :=
  match ofFp32 a with
  | .num n => if n < 0 then none else let p := n.toNat / one320; if p < vl then some p else none
  | .negZero => if 0 < vl then some 0 else none
  | _ => none

/-- One step on one lane (Table 9-5), PERM apart. -/
def stepLane (cplx : Bool) (op : Nat) (a b c : CV) : CV :=
  let bad := a.bad || (decide (2 ≤ opArity op) && b.bad) || (opArity op == 3 && c.bad)
  let mk := fun (re im : Nat) => ({ re := re, im := if cplx then im else 0, bad := bad } : CV)
  if op = 1 then mk (add32 a.re b.re) (add32 a.im b.im)
  else if op = 2 then mk (sub32 a.re b.re) (sub32 a.im b.im)
  else if op = 3 then
    (if cplx then mk (mulAdd2 a.re b.re a.im b.im true) (mulAdd2 a.re b.im a.im b.re false)
     else mk (mul32 a.re b.re) 0)
  else if op = 4 then
    (if cplx then mk (mulAdd3 a.re b.re a.im b.im c.re true) (mulAdd3 a.re b.im a.im b.re c.im false) else mk (fma32 a.re b.re c.re) 0)
  else if op = 5 then mk (minmax false a.re b.re) 0
  else if op = 6 then mk (minmax true a.re b.re) 0
  else if op = 8 then mk (neg32 a.re) (neg32 a.im)
  else if op = 9 then mk a.re (neg32 a.im)
  else if op = 10 then mk (mulAdd2 a.re a.re a.im a.im false) 0
  else if op = 17 then
    (match keyOfFp a.re with
     | some k => if 0 < k then mk b.re b.im else mk c.re c.im
     | none => mk c.re c.im)
  else if op = 19 then mk a.re a.im
  else mk (unary op a.re) 0

/-- A source of a step, over the lanes of a group. -/
def srcLanes (d : Vxop) (g vl : Nat) (xs : List (List CV)) (ts : List (List CV)) (x : Nat) : List CV :=
  if x ≤ 3 then nth [] xs x
  else if x ≤ 7 then List.replicate vl { re := nth 0 d.consts (x - 4) }
  else if x = 8 then (List.range vl).map fun l => { re := natFp l }
  else if x = 9 then (List.range vl).map fun l => { re := natFp (256 * g + l) }
  else nth [] ts (x - 16)

/-- The steps of one group over its lanes: every step's values, and whether OOR was raised. -/
def runGroup (d : Vxop) (g vl : Nat) (xs : List (List CV)) : List Nat → List (List CV) → Bool → List (List CV) × Bool
  | [], ts, oor => (ts, oor)
  | w :: ws, ts, oor =>
    let a := srcLanes d g vl xs ts (stA w)
    let b := srcLanes d g vl xs ts (stB w)
    let c := srcLanes d g vl xs ts (stC w)
    if stOp w = 18 then
      let r := (List.range vl).map fun l =>
        let p := permLane vl (nth ({} : CV) a l).re
        match p with
        | some p => ({ nth ({} : CV) b p with bad := (nth ({} : CV) a l).bad || (nth ({} : CV) b p).bad }, false)
        | none => (({ bad := (nth ({} : CV) a l).bad } : CV), true)
      runGroup d g vl xs ws (ts ++ [r.map (·.1)]) (oor || r.any (·.2))
    else
      let r := (List.range vl).map fun l => stepLane d.cplx (stOp w) (nth ({} : CV) a l) (nth ({} : CV) b l) (nth ({} : CV) c l)
      runGroup d g vl xs ws (ts ++ [r]) oor

/-- The values a DEST collects over all groups. -/
def destValues (d : Vxop) (gs : List (List (List CV))) (n : Nat) : List CV :=
  match findIx (fun w => stDest w == n) d.steps with
  | some i => gs.flatMap fun ts => nth [] ts i
  | none => []

/-- The elements of an output stream as its format takes them (R66): without CPLX, a CI16 takes two, real part first. -/
def pairUp : List CV → List CV
  | a :: b :: t => { re := a.re, im := b.re, bad := a.bad || b.bad } :: pairUp t
  | [a] => [a]
  | [] => []

/-- The bytes of an output stream with taint, and the flags (R215). -/
def outStream (cplx : Bool) (fmt : Nat) (vs : List CV) : List (Byte × Bool) × Nat :=
  let vs := if fmt = 10 ∧ !cplx then pairUp vs else vs
  let es := vs.map fun v => (encodeElem cplx fmt (ofFp32 v.re) (ofFp32 v.im), v.bad)
  (es.flatMap fun e => e.1.1.map fun b => (b, e.2), es.foldl (fun a e => a ||| cvFlags e.1.2) 0)

/-- Specials of a sum: NaN for a NaN or infinities of both signs, an infinity, or none (R216). -/
def sumSpecial (vs : List Val) : Option Nat :=
  match vs.find? (·.isNan) with
  | some v => some (canonNan .fp32 v.neg)
  | none =>
    let p := vs.any (· == .inf false)
    let n := vs.any (· == .inf true)
    if p && n then some nan32 else if p then some 0x7F800000 else if n then some 0xFF800000 else none

/-- One part of a row's SUM, exact (R216). -/
def sumExact (ws : List Nat) : Nat × Bool :=
  let vs := ws.map ofFp32
  match sumSpecial vs with
  | some w => (w, false)
  | none => let e := encodeVal .fp32 (.num ((vs.map (·.toInt)).sum)); (e.1, e.2.sat)

/-- A row's SUMSQ, exact. -/
def sumsqExact (ws : List Nat) : Nat × Bool :=
  let vs := ws.map ofFp32
  match vs.find? (·.isNan) with
  | some v => (canonNan .fp32 v.neg, false)
  | none => if vs.any fun v => !v.finite then (0x7F800000, false) else ratFp32 ((vs.map fun v => v.toInt * v.toInt).sum) one320

/-- The result bytes of a row's reduction and whether it went beyond range (R216, R218). -/
def reduceRow (d : Vxop) (q : Nat) (vs : List CV) : List Byte × Bool :=
  let c : FCtx := { stoch := d.stoch, model := d.seed, tag := d.tag ^^^ q, block := 1 }
  let ws := vs.map (·.re)
  if d.red = 1 then
    if d.redExact then
      let a := sumExact ws
      let b := sumExact (vs.map (·.im))
      (toLe 4 a.1 ++ (if d.cplx then toLe 4 b.1 else []), a.2 || (d.cplx && b.2))
    else
      let r := sumTerms c d.pairwise 7 (vs.map (·.term))
      let a := encodeVal .fp32 r.re
      let b := encodeVal .fp32 r.im
      (toLe 4 a.1 ++ (if d.cplx then toLe 4 b.1 else []), r.sat || a.2.sat || (d.cplx && b.2.sat))
  else if d.red = 2 then
    if d.redExact then (let a := sumsqExact ws; (toLe 4 a.1, a.2))
    else
      let r := sumTerms c d.pairwise 7 (vs.map fun v => { re := exactMul (ofFp32 v.re) (ofFp32 v.re), bad := v.bad })
      let a := encodeVal .fp32 r.re
      (toLe 4 a.1, r.sat || a.2.sat)
  else if d.red = 3 ∨ d.red = 4 then
    match ws with
    | [] => (toLe 4 0, false)
    | w :: t => (toLe 4 (t.foldl (fun a b => minmax (d.red == 4) a b) w), false)
  else
    let fin := vs.all fun v => (ofFp32 v.re).finite
    let nan := canonNan .fp32 (match (ws.map ofFp32).find? (·.isNan) with | some v => v.neg | none => false)
    if !fin ∨ (ws.length = 1 ∧ d.varDiv) then (toLe 4 nan ++ toLe 4 nan, false)
    else
      let xs := ws.map fun w => (ofFp32 w).toInt
      let r := meanVar d.varDiv false ws.length xs.sum ((xs.map fun x => x * x).sum / (one320 : Int))
      (toLe 4 r.1 ++ toLe 4 r.2.1, r.2.2)

/-- Output tiles open once the array has read `p` operand bytes (R206, R219): those of the band in progress. -/
def openTiles (d : Mxop) (p : Nat) : Nat :=
  let band := if d.legacy then 64 else 2048
  let sweeps := (List.range (cdiv d.n 64)).flatMap fun j => (List.range (cdiv d.m band)).map fun b =>
    let rows := min band (d.m - band * b)
    let cols := min 64 (d.n - 64 * j)
    (cdiv rows 64, rows * d.k * elemSize d.cplx d.afmt + d.k * cols * elemSize d.cplx d.bfmt +
      (if d.accIn then rows * cols * elemSize d.cplx d.cfmt else 0))
  (sweeps.foldl (fun (a : Nat × Nat) x => if p < a.2 then a else (x.1, a.2 + x.2)) (1, 0)).1

/-- Operand bytes of one element of a vector operation's input streams. -/
def Vxop.elemBytes (d : Vxop) : Nat := ((List.range 4).map fun n => if d.usesIn n then elemSize d.cplx (d.inFmt n) else 0).sum

/-- VL of the group in progress once the engine has read `p` operand bytes (R210, R219). -/
def groupVl (d : Vxop) (p : Nat) : Nat := min 256 (d.len - 256 * (min (p / max 1 d.elemBytes) (d.len - 1) / 256))

/-- A vector operation on a checked descriptor (R210 to R218). -/
def vectorOp (s : State) (q who : Nat) (d : Vxop) : State × EngOut :=
  let rd := (List.range 4).foldl (fun (a : State × List (List (Byte × Bool))) n =>
    if d.usesIn n then
      let x := readTainted a.1 q who (nth 0 d.ins n) (d.len * elemSize d.cplx (d.inFmt n))
      (x.1, a.2 ++ [x.2])
    else (a.1, a.2 ++ [[]])) (s, [])
  let mk := if d.masked then readTainted rd.1 q who (nth 0 d.ins 3) (cdiv d.len 8) else (rd.1, [])
  let xs := (List.range 4).map fun n =>
    if d.usesIn n then (List.range d.len).map fun e => elemFp d.cplx (d.inFmt n) (nth [] rd.2 n) e else []
  let gs := (List.range (cdiv d.len 256)).map fun g =>
    let vl := min 256 (d.len - 256 * g)
    runGroup d g vl (xs.map fun x => (x.drop (256 * g)).take vl) d.steps [] false
  let ts := gs.map (·.1)
  let oor := gs.any (·.2)
  let o0 := outStream d.cplx (d.outFmt 0) (destValues d ts 1)
  let o1 := outStream d.cplx (d.outFmt 1) (destValues d ts 2)
  let rows := chunk (max 1 d.row) d.rows (destValues d ts 3)
  let write := fun (s : State) (a : Nat) (bs : List (Byte × Bool)) => writeTainted (bs.length / 16 + 1) s q who a bs
  let w0 := write mk.1 d.out0 o0.1
  let w1 := write w0.1 d.out1 o1.1
  let bytes := ((List.range 4).map fun n => if d.usesIn n then d.len * elemSize d.cplx (d.inFmt n) else 0).sum +
    (if d.masked then cdiv d.len 8 else 0)
  let fl := o0.2 ||| o1.2 ||| flagIf oor fOor
  if d.red = 6 then
    let key := fun (q : Nat) => 1 + (d.opts / 2 % 4) + 4 * (d.seed + 2 ^ 32 * (d.tag ^^^ q))
    let rs := (List.zip (List.range rows.length) rows).map fun (x : Nat × List CV) =>
      let masked := fun i => let e := x.1 * d.row + i; d.masked && bitOf (nth ((0 : Byte), false) mk.2 (e / 8)).1.toNat (e % 8)
      let ix := (List.range x.2.length).filter fun i => !masked i
      let sm := softmaxOf (key x.1) (ix.map fun i => (nth ({} : CV) x.2 i).re)
      let bad := x.2.any (·.bad) || (d.masked && (List.range x.2.length).any fun i =>
        (nth ((0 : Byte), false) mk.2 ((x.1 * d.row + i) / 8)).2)
      let pick := fun (i : Nat) => match findIx (· == i) ix with
        | some j => ({ re := nth 0 sm.1 j, bad := bad } : CV)
        | none => ({ bad := bad } : CV)
      ((List.range x.2.length).map pick, sm.2)
    let o := outStream d.cplx (d.outFmt 0) (rs.flatMap (·.1))
    let w := write w1.1 d.out0 o.1
    (w.1, { status := if w1.2 || w.2 then .integrity else .ok, flags := rs.foldl (fun a r => a ||| r.2) (fl ||| o.2), bytes := bytes })
  else if d.red = 0 then
    (w1.1, { status := if w0.2 || w1.2 then .integrity else .ok, flags := fl, bytes := bytes })
  else
    let rs := (List.zip (List.range rows.length) rows).map fun x => (reduceRow d x.1 x.2, x.2.any (·.bad))
    let w := write w1.1 d.redAddr (rs.flatMap fun r => r.1.1.map fun b => (b, r.2))
    (w.1, { status := if w0.2 || w1.2 || w.2 then .integrity else .ok, flags := fl ||| flagIf (rs.any fun r => r.1.2) fSat,
            bytes := bytes })

end Sys2Proof.Machine
end

