-- ==== Sys2Proof/Machine/Local.lean ====
section
/-! DEFINITION. The on-chip stores beside device memory: the local memory of the cores (R280, R281), matrix-array accumulator memory, the
queue state store and Sage SRAM (R27, R337), each quad decoded at each access (R336, R342, R343). -/

namespace Sys2Proof.Machine

/-- Sender ID of unit u's core (Table 12-1). -/
def coreId (u : Nat) : Nat := 0x20 + u

/-- The sender IDs of the 24 cores (Table 12-1). -/
def coreIds : List Nat := [0x08, 0x09, 0x0A, 0x0B] ++ (List.range 20).map (0x10 + ·)

/-- A receiver unit. -/
def rxu (s : State) (u : Nat) : Rxu := sget {} s.rxus u
/-- A receiver unit changed. -/
def modRxu (s : State) (u : Nat) (f : Rxu → Rxu) : State := { s with rxus := sset s.rxus u (f (rxu s u)) }

/-! ## Stores 8 to 11 -/

/-- The byte address of a quad within its on-chip store: its folded address without the store's mark, in quads (Table 14-3). -/
def chipAddr (f : Nat) : Nat := f % 2 ^ 54 * 16

/-- The bytes that an on-chip store holds (log 48). -/
def chip (s : State) (store : Nat) : List Host.Cell := sget [] s.onChip store

/-- The bytes of an on-chip store changed. -/
def setChip (s : State) (store : Nat) (m : List Host.Cell) : State := { s with onChip := sset s.onChip store m }

/-- The sequencer firmware image written into the firmware region of every core (R282). -/
def writeFirmware (s : State) (fw : List Byte) : State :=
  setChip s 9 (coreIds.foldl (fun m id => mwrite m (chipAddr (id * 2 ^ 20)) fw) (chip s 9))

/-! ## Local memory of a receiver unit's core -/

/-- A range of the task region (Table 12-2). -/
def inTask (a len : Nat) : Bool := decide (0x10000 ≤ a) && decide (a + len ≤ 0x40000)

/-- Quads that a range touches. -/
def rangeQuads (a len : Nat) : List Nat := (List.range (cdiv (a % 16 + len) 16)).map fun i => (a / 16 + i) * 16

/-- The folded address of a quad of core `id`'s local memory (Table 14-3). -/
def localFold (id a : Nat) : Nat := 6 * 2 ^ 54 + id * 2 ^ 20 + a / 16 % 2 ^ 14

/-- The core of a receiver unit whose task region holds the quad that a folded address of store 9 names, and the address there. -/
def localQuad (f : Nat) : Option (Nat × Nat) :=
  let id := f / 2 ^ 20 % 256
  let a := f % 2 ^ 14 * 16
  if 0x20 ≤ id ∧ id ≤ 0x23 ∧ inTask a 16 then some (id - 0x20, a) else none

/-- Bytes of unit u's task region as they are stored. -/
def localBytes (s : State) (u a len : Nat) : List Byte := mread (rxu s u).mem a len

/-- A quad of local memory written as the poisoned code word. -/
def localPoison (s : State) (u a : Nat) : State :=
  modRxu (setQuad s 9 (localFold (coreId u) a) {}) u fun x =>
    { x with mem := mwrite x.mem a (List.replicate 16 0), bad := if x.bad.contains a then x.bad else x.bad ++ [a] }

/-- What a quad of local memory decodes to (R336). -/
def localClass (s : State) (u a : Nat) : QuadClass :=
  let v := quadState s 9 (localFold (coreId u) a)
  classify (v.poison || (rxu s u).bad.contains a) (le (localBytes s u a 16) == 0) v.err.toNat v.adx.toNat

/-- A quad of local memory read (R336, R343): the counters, a UE written back as poison, and whether it is delivered poisoned. -/
def localRead1 (s : State) (u a : Nat) : State × Bool :=
  if quadState s 9 (localFold (coreId u) a) = {} then
    (if (rxu s u).bad.contains a then (countPoison s 9, true) else (s, false))
  else match localClass s u a with
  | .clean => (s, false)
  | .poisoned => (countPoison s 9, true)
  | .ce p => let s := countCe s 9; if p then (countPoison s 9, true) else (s, false)
  | .ue => (countPoison (localPoison (countUe s 9 (coreId u) (16 * localFold (coreId u) a)) u a) 9, true)
  | .ae => (countPoison (countAe s 9 (coreId u) (16 * localFold (coreId u) a)) 9, true)

/-- A quad of local memory stored anew as its error pattern leaves it after correction. -/
def localFix (s : State) (u a : Nat) : State :=
  let f := localFold (coreId u) a
  let d := le (localBytes s u a 16) ^^^ (residualOf (quadState s 9 f) / 2 ^ 18 % 2 ^ 128)
  modRxu (setQuad s 9 f {}) u fun x => { x with mem := mwrite x.mem a (toLe 16 d) }

/-- A quad of local memory read for a write of a part of it (R342): corrected where that can be done, else poisoned. -/
def localResolve (s : State) (u a : Nat) : State :=
  let f := localFold (coreId u) a
  if quadState s 9 f = {} then s
  else match localClass s u a with
    | .clean => localFix s u a
    | .poisoned => s
    | .ce p => if p then countCe s 9 else localFix (countCe s 9) u a
    | .ue => localPoison (countUe s 9 (coreId u) (16 * f)) u a
    | .ae => localPoison (countAe s 9 (coreId u) (16 * f)) u a

/-- A quad of local memory read by its scrubber (R346, R343). -/
def localScrub (s : State) (u a : Nat) : State :=
  let f := localFold (coreId u) a
  if quadState s 9 f = {} then s
  else match localClass s u a with
    | .clean => s
    | .poisoned => s
    | .ce p => if p then localPoison (countCe s 9) u a else localFix (countCe s 9) u a
    | .ue => localPoison (countUe s 9 0xFF (16 * f)) u a
    | .ae => countAe s 9 0xFF (16 * f)

/-- The quads of a range read in turn; the Bool says one was delivered poisoned. -/
def localScan (u : Nat) : State → List Nat → State × Bool
  | s, [] => (s, false)
  | s, a :: t =>
    let r := localRead1 s u a
    let rest := localScan u r.1 t
    (rest.1, r.2 || rest.2)

/-- The data bytes of a range of local memory: stored bytes, with a residual error's bits changed. -/
def localRead (s : State) (u a len : Nat) : List Byte :=
  let bs := localBytes s u a len
  if s.quads.isEmpty then bs
  else (List.zip (List.range len) bs).map fun e =>
    e.2 ^^^ BitVec.ofNat 8 (residualOf (quadState s 9 (localFold (coreId u) (a + e.1))) / 2 ^ (18 + 8 * ((a + e.1) % 16)))

/-- A range of local memory loaded or fetched (R281): none where a quad of it is delivered poisoned. -/
def localLoad (s : State) (u a len : Nat) : State × Option (List Byte) :=
  let r := localScan u s (rangeQuads a len)
  (r.1, if r.2 then none else some (localRead s u a len))

/-- Bytes stored into local memory: whole quads replace; a part of a quad is merged, and leaves a poisoned one poisoned (R281, R342). A
reservation on a word that they touch is lost (log 55). -/
def localWrite (s : State) (u a : Nat) (bs : List Byte) : State :=
  let whole := fun (b : Nat) => decide (a ≤ b) && decide (b + 16 ≤ a + bs.length)
  let s := (rangeQuads a bs.length).foldl (fun s b =>
    if whole b then setQuad s 9 (localFold (coreId u) b) {} else localResolve s u b) s
  modRxu s u fun x =>
    let bad := x.bad.filter fun b => !whole b
    let m := if bad.isEmpty then mwrite x.mem a bs else
      (List.zip (List.range bs.length) bs).foldl (fun m e => if bad.contains ((a + e.1) / 16 * 16) then m else mset m (a + e.1) e.2) x.mem
    let keep := x.reserved.filter fun r => decide (r + 4 ≤ a) || decide (a + bs.length ≤ r)
    { x with mem := m, bad := bad, reserved := keep }

end Sys2Proof.Machine
end

