-- ==== Sys2Proof/Machine/Ring.lean ====
section
/-! DEFINITION. The Utrid ring above the link: membership (R309, R310), ring queues (R319 to R323) and the chain reduction
(R324 to R328), with the close of a group by its output unit (Table 6-1). The payload layouts of MARK, CHAIN_HEAD, NOTICE and
MEMBERSHIP flits are the model's (log 17). -/

namespace Sys2Proof.Machine

/-! ## Membership -/

/-- The partners of this device's UP ports. -/
def ownPeers (s : State) : List Nat := ((List.range 4).filter fun p => (uport s p).st == 2).map fun p => (uport s p).peer

/-- The ranks reached from a set over the partners that notices name. `n` bounds the hops. -/
def closure (ns : SMap NoticeRec) : Nat → List Nat → List Nat
  | 0, l => l
  | n + 1, l => closure ns n ((l ++ l.flatMap fun r => (sget ({} : NoticeRec) ns r).peers).dedup)

/-- The membership that the notices give (R310): the ranks this device's partners lead to, with their READY bits. -/
def computeMember (s : State) : Member :=
  let me := s.glb.rank
  let ns := sset s.utr.notices me { seq := s.utr.msgCount, peers := ownPeers s, ready := ownReady s }
  let live := closure ns 16 [me]
  { live := ((List.range 16).map fun r => if live.contains r then 2 ^ r else 0).sum,
    ready := ((List.range 16).filter fun r => live.contains r).map fun r => (r, (sget ({} : NoticeRec) ns r).ready) }

/-- A membership adopted (R310): the epoch changes, and messages for peers move where they now can. -/
def adoptEpoch (s : State) (e : Nat) (m : Member) : State :=
  let s := regSet s (utrCom 0xC) (BitVec.ofNat 32 e)
  let s := regSet s (utrCom 8) (BitVec.ofNat 32 m.live)
  let s := regSet s (utrCom 0x18) (BitVec.ofNat 32 ((ranksOf m.live).head?.getD 0))
  let s := modUtr (regOr s (utrCom 0x10) 1) fun u => { u with books := sset u.books e m }
  forwardPeers (forgetFar s)

/-- Every port of the topology is UP, straight or through a bypass. -/
def allPortsUp (s : State) : Bool := (List.range 4).all fun p => !portUsed s p || (uport s p).st == 2

/-- The coordinator floods a new membership where the notices give another than the one in force (R310); the first one waits until every
port of the topology is UP. -/
def coordinate (s : State) : State :=
  let m := computeMember s
  let lowest := (ranksOf m.live).head? == some s.glb.rank
  let changed := decide (m ≠ bookOf s (epochNow s))
  if !lowest ∨ !changed ∨ (epochNow s = 0 ∧ !allPortsUp s) then s
  else
    let e := epochNow s + 1
    let bs := (List.range 16).flatMap fun r => toLe 8 (sget 0 m.ready r)
    let f := mkFlit { type := 0x30, vc := 4, first := true, last := true, src := s.glb.rank, seq := m.live, epoch := e } bs []
    flood (adoptEpoch s e m) none f

/-- The payload of a status notice: kind 0, its partners, its READY bits. -/
def statusBytes (s : State) : List Byte :=
  let ps := ownPeers s
  [0, BitVec.ofNat 8 ps.length] ++ padTo 6 (ps.map fun r => BitVec.ofNat 8 r) ++ toLe 8 (ownReady s)

/-- A notice of this rank flooded on the management channel. -/
def floodNotice (s : State) (bs : List Byte) : State :=
  let m := nextMsg s
  flood m.2 none (mkFlit { type := 0x31, vc := 4, first := true, last := true, src := s.glb.rank, seq := m.1, epoch := epochNow s } bs [])

/-- This rank saw a port or a READY bit change (R310): it floods its status, and the membership is worked out again. -/
def noticeChange (s : State) : State :=
  if s.glb.topo = 0 then s else coordinate (floodNotice s (statusBytes s))

/-! ## Ring queues -/

/-- Ring queue q. -/
def rq (s : State) (q : Nat) : RingQ := sget {} s.utr.rqs q
/-- Ring queue q changed. -/
def modRq (s : State) (q : Nat) (f : RingQ → RingQ) : State := modUtr s fun u => { u with rqs := sset u.rqs q (f (rq s q)) }

/-- MODEL of ring-queue entry n. -/
def ringModel (s : State) (n : Nat) : Nat := regField s (utrCom (0x2000 + 4 * n)) 23 18

/-- The last live coordinate before `c` going up, around the dimension (R321); none where `c` is alone. -/
def lastBefore (cs : List Nat) (c : Nat) : Option Nat :=
  if cs.length ≤ 1 then none
  else some (nth 0 cs (((findIx (· == c) cs).getD 0 + cs.length - 1) % cs.length))

/-- The rank at which a multicast that starts or turns here ends going east (`true`) or south (R321). -/
def castEnd (s : State) (east : Bool) : Option Nat :=
  let me := s.glb.rank
  if east then (lastBefore (liveCoords s true) (colOf s me)).map fun x => rankAt s x (rowOf s me)
  else if topology s = 2 then (lastBefore (liveCoords s false) (rowOf s me)).map fun y => rankAt s (colOf s me) y
  else none

/-- Where a multicast flit goes on from here: port, channel and the rank it ends at. `from_` is none on the origin, else the port and
channel it came in on and its DST (R314, R321). -/
def castNext (s : State) (from_ : Option (Nat × Nat × Nat)) : List (Nat × Nat × Nat) :=
  let me := s.glb.rank
  let out := fun (p : Nat) (inVc : Option Nat) (turn : Bool) (dst : Nat) => (p, outVc s 0 inVc turn p, dst)
  let south := fun (inVc : Option Nat) => match castEnd s false with | some d => [out 2 inVc true d] | none => []
  match from_ with
  | none => (match castEnd s true with | some d => [out 1 none false d] | none => []) ++ south none
  | some (p, vc, dst) =>
    if isColumn p then (if dst = me then [] else [out 2 (some vc) false dst])
    else (if dst = me then [] else [out 1 (some vc) false dst]) ++ south (some vc)

/-- The flit is forwarded on every way it goes. -/
def castFlit (s : State) (f : Flit) (ways : List (Nat × Nat × Nat)) : State :=
  ways.foldl (fun s w => sendFlit s w.1 w.2.1 { f with hdr := fhdrQuad { fhdrOf f.hdr with dst := w.2.2 } }) s

/-- The origin multicasts a step (R320): its MARK, then its records, each numbered by the ring-queue sequence. -/
def castStep (s : State) (q first n g : Nat) : State :=
  let ways := castNext s none
  let base := (rq s q).next
  let h : FHdr := { vc := 0, src := s.glb.rank, epoch := epochNow s, queue := q }
  let mark := mkFlit { h with type := 2, first := true, last := true, seq := base } (toLe 4 n ++ [BitVec.ofNat 8 g]) []
  let s := castFlit s mark ways
  let s := (List.range n).foldl (fun s i =>
    let a := ringBase s q + (first + i) % ringSlots s q * recStride s q
    let size := le (mread s.mem (a + 12) 2)
    let len := if 32 ≤ size ∧ size ≤ recStride s q then size else recStride s q
    let r := readMem s q 0xF8 a len
    let bad := r.2.bad.map fun b => (b - a) / 16
    (mkMessage { h with type := 1, seq := base + i } 64 true r.2.bytes bad).foldl (fun s f => castFlit s f ways) r.1) s
  modRq s q fun k => { k with next := (base + n) % 2 ^ 32, started := true }

/-- Flits of the queue's multicast still wait on a port of the origin (R322: it stops sending). -/
def castWaiting (s : State) (q : Nat) : Bool :=
  (List.range 4).any fun p => (uport s p).wait.any fun x => decide (x.1 < 2) && (fhdrOf x.2.hdr).queue == q

/-- A step of a ring queue that this rank does not form (R322, R323): an empty contribution will stand in for it once every earlier
step of the queue has its reduction number. -/
def skipStep (s : State) (q : Nat) : State :=
  match ringEntry s q with
  | some n => modRq s q fun k => { k with skips := k.skips ++ [(s.nextUid, ringModel s n)] }
  | none => s

/-- The marks not yet formed are skipped, and the records of the step in progress are discarded (R322, R323). -/
def dropMarks (s : State) (q : Nat) : State :=
  let s := (rq s q).marks.foldl (fun s _ => skipStep s q) s
  let s := modRq s q fun k => { k with marks := [], asm := [], asmBad := [] }
  modQueue s q fun k => { k with pi := k.formed }

/-- A gap was found (R323). -/
def foundGap (s : State) (q : Nat) : State :=
  modRq (regOr (dropMarks s q) (utrCom 0x10) 2) q fun k => { k with gap := true }

/-- This rank is to copy the queue's multicast: the queue is a bound ring queue here and this rank serves the model. -/
def copies (s : State) (q : Nat) : Bool := (ringEntry s q).isSome && bound s q && isRecord s q && !(rq s q).passing

/-- A MARK arrives (R320, R323). A rank that passes the multicast through takes it up again at the first mark under an epoch in which it
is READY (R322). -/
def takeMark (s : State) (q : Nat) (h : FHdr) (bs : List Byte) : State :=
  let back := (rq s q).passing && (match ringEntry s q with
    | some n => memberReady (bookOf s h.epoch) s.glb.rank (ringModel s n)
    | none => false)
  let s := if back then modRq s q fun k => { k with passing := false, gap := true } else s
  if !copies s q then (if (rq s q).passing then skipStep s q else s)
  else
    let k := rq s q
    let s := if k.started ∧ k.next ≠ h.seq ∧ !k.gap then foundGap s q else s
    let k := rq s q
    let mark : MarkRec := { first := h.seq, count := leAt bs 0 4, group := leAt bs 4 1, epoch := h.epoch }
    let idle := (cmdsOf s q).isEmpty
    let w := BitVec.ofNat 32 h.seq
    let s := if k.gap ∨ !k.started then
        modQueue s q fun x => { x with formed := w, pi := w, ci := if idle then w else x.ci }
      else s
    modRq s q fun k => { k with marks := k.marks ++ [mark], next := h.seq, started := true, gap := false }

/-- A RECORD flit is taken (R321, R323): its bytes join the record, and the last puts the whole record into the ring, poisoned quads
poisoned. -/
def takeRecord (s : State) (q : Nat) (h : FHdr) (f : Flit) : State :=
  let k := rq s q
  if !copies s q ∨ k.gap then s
  else if !k.started ∨ k.next ≠ h.seq then foundGap s q
  else
    let old := if h.first then [] else k.asm
    let oldBad := if h.first then [] else k.asmBad
    let asm := old ++ payBytes f
    let bad := oldBad ++ (payPoison f).map (· + old.length / 16)
    if !h.last then modRq s q fun k => { k with asm := asm, asmBad := bad }
    else
      let p := (queue s q).pi
      let a := ringBase s q + p.toNat % ringSlots s q * recStride s q
      let s := ingest s q [asm.take (recStride s q)]
      let s := bad.foldl (fun s i => (writePoison 1 s q (a + 16 * i)).1) s
      modRq s q fun k => { k with asm := [], asmBad := [], next := (k.next + 1) % 2 ^ 32, told := false }

/-- A hedge that takes records of the queue's steps has no free skid entry (R105, R322). -/
def skidFull (s : State) (q : Nat) : Bool :=
  s.steps.any fun r => r.q == q && (List.range r.spec.spans.length).any fun k =>
    (receivers r k).any fun h => decide (Config.skidDepth ≤ (skid s h r.bg).length)

/-- The copy of a multicast flit can be accepted (R321, R322): a record's first flit needs room in the queue's ring and in the skids of its
hedges. -/
def copyFits (s : State) (h : FHdr) : Bool :=
  !copies s h.queue || (rq s h.queue).gap || h.type == 2 || !h.first || (decide (0 < ringRoom s h.queue) && !skidFull s h.queue)

/-- The rank that holds the multicast reports itself to the origin where DETACH is set (R322). -/
def reportHold (s : State) (q : Nat) : State :=
  if regBit s (qfeReg q 0x34) 9 ∧ !(rq s q).told then
    floodNotice (modRq s q fun k => { k with told := true }) ([1, BitVec.ofNat 8 s.glb.rank] ++ toLe 2 q)
  else s

/-! ## Reductions -/

/-- The 32 bytes of a CHAIN_HEAD flit (R325; layout log 17). -/
def chainHdr (s : State) (n : Nat) (accd : List Byte) (b epoch : Nat) : List Byte :=
  let d := accdOf accd
  toLe 4 d.model ++ toLe 1 n ++ toLe 1 d.mode ++ toLe 1 (leAt accd 9 1) ++ toLe 1 d.blockLog2 ++ toLe 2 (entrySlices s n) ++
    toLe 2 d.outputs ++ toLe 4 (entryTrees s n) ++ toLe 4 b ++ toLe 4 epoch ++ toLe 4 d.blocks ++ toLe 4 0

/-- The group shape that a chain header gives. -/
def hdrAccd (b : List Byte) : Accd :=
  let o := leAt b 6 1
  { outputs := leAt b 10 2, mode := leAt b 5 1, pairwise := bitOf o 0, stoch := bitOf o 1, stats := bitOf o 2, varDiv := bitOf o 3,
    legacy := bitOf o 4, blockLog2 := leAt b 7 1, tileRecs := 16, model := leAt b 0 4, trees := 0, blocks := leAt b 24 4 }

/-- Bytes of one record in a chain (R325). -/
def chainRec (b : List Byte) : Nat := 16 + 80 * rpr (hdrAccd b)

/-- The two headers name the same reduction in the sense of R326: all but the epoch and the indication. -/
def sameGroup (a b : List Byte) : Bool := a.take 20 == b.take 20 && sub a 24 4 == sub b 24 4

/-- A rank's addition to one record of the chain: rows, ADDED, FLAGS, N, and a NaN made or carried on. -/
structure Added where
  rows : List Nat
  added : Nat
  flags : Nat
  n : Nat
  nan : Bool := false
  sat : Bool := false
  deriving DecidableEq, Repr

/-- The slot j of output o's PAIRWISE stack in packed rows. -/
def stackSlot (d : Accd) (rows : List Nat) (o j : Nat) : Nat :=
  let per := if 2 ^ 20 < d.blocks then 2 else 1
  nth 0 rows (o * per + j / 20) / 2 ^ (32 * (j % 20)) % 2 ^ 32

/-- The slots of output o's PAIRWISE stack packed into its rows. -/
def packStack (d : Accd) (st : SMap Nat) : List Nat :=
  let per := if 2 ^ 20 < d.blocks then 2 else 1
  (List.range per).map fun k => ((List.range 20).map fun j => sget 0 st (20 * k + j) * 2 ^ (32 * j)).sum

/-- The highest bit set of a mask. -/
def topBit (m : Nat) : Nat := Nat.log2 m

/-- PAIRWISE: the slice node of output o pushed onto the stack, the nodes of missing slices before it as +0 (R326). -/
def pushSlice (c : FCtx) (d : Accd) (lvl slice added o : Nat) (rows : List Nat) (ns : List PNode) : List Nat × FRes :=
  let st := (List.range 40).foldl (fun m j => sset m j (stackSlot d rows o j)) []
  let from_ := if added = 0 then 0 else topBit added + 1
  let st := (List.range (slice - from_)).foldl (fun (m : SMap Nat × FRes) i =>
    let r := pairPush c o 0 (40 - lvl) lvl ((from_ + i) * 2 ^ lvl) {} m.1
    (r.1, r.2.raise m.2)) (st, {})
  let v := pairValue c o ns lvl (slice * 2 ^ lvl)
  let r := pairPush c o 0 (40 - lvl) lvl (slice * 2 ^ lvl) v st.1
  (packStack d r.1, (r.2.raise v).raise st.2)

/-- This rank's contribution added to a record of the chain (R326). `lvl` is the level of a slice's node. -/
def addRecord (d : Accd) (lvl served low own : Nat) (r : OutRec) (rows : List Nat) (added flags n : Nat) : Added :=
  let c : FCtx := { stoch := d.stoch, model := d.model, tag := r.tag, block := 2 ^ d.blockLog2 }
  let fl := flags ||| r.flags
  if d.exact then
    let vs := (List.range (rpr d)).map fun j => exCombine (signed 640 (nth 0 rows j)) (signed 640 (nth 0 r.rows j))
    let sat := vs.any exSat
    { rows := vs.map (unsigned 640), added := added ||| served, flags := fl ||| flagIf sat fSat, n := n + own, sat := sat }
  else if d.pairwise then
    let xs := (List.range d.outputs).map fun o =>
      let per := if 2 ^ 20 < d.blocks then 2 else 1
      pushSlice c d lvl (topBit served) added o rows (nth [] r.nodes o) |> fun x => (x.1, x.2, per)
    { rows := xs.flatMap (·.1), added := added ||| served, flags := fl ||| flagIf (xs.any fun x => x.2.1.sat) fSat, n := n + own,
      nan := xs.any fun x => x.2.1.nan, sat := xs.any fun x => x.2.1.sat }
  else
    let word := fun (l : List Nat) (o : Nat) => nth 0 l (o / 20) / 2 ^ (32 * (o % 20)) % 2 ^ 32
    let xs := (List.range d.outputs).map fun o =>
      if added = 0 then ({ w := word r.rows o } : FRes) else fadd c low (siteWord 5 o 0) (word rows o) (word r.rows o)
    { rows := packRows (xs.map (·.w)), added := added ||| served, flags := fl ||| flagIf (xs.any (·.sat)) fSat, n := n + own,
      nan := xs.any (·.nan), sat := xs.any (·.sat) }

/-- The level of a slice's node in the tree (R318). -/
def sliceLevel (s : State) (n : Nat) (d : Accd) : Nat := Nat.log2 (max 1 (entryTrees s n / 2 ^ d.blockLog2))

/-- Trees that a rank counts for one record: TREES of its served slices (R327). -/
def treesOf (d : Accd) (served : Nat) : Nat := if d.stats then d.trees * bitsSet served else 0

/-- The 16-byte record quad and the rows of a record in the chain. -/
def chainBytes (a : Added) (pos : Nat) : List Byte :=
  toLe 2 a.added ++ toLe 2 a.flags ++ toLe 4 a.n ++ toLe 4 pos ++ toLe 4 0 ++ a.rows.flatMap (toLe 80)

/-- What the hedges that make an addition note of it (R124, R135). -/
def noteAdded (s : State) (uid : Option Nat) (a : Added) : State :=
  match (uid.bind (findStep s)).bind fun r => (takers r 0).head? with
  | some h => regOr s (hdgReg h 0x114) (flagIf a.nan 8 + flagIf a.sat 1)
  | none => s

/-- A record of the reduction as this rank passes it on: with its contribution where it adds, unchanged otherwise (R326). A record whose
hedge partials are not all present is not added. -/
def passRecord (s : State) (red : Red) (adds : Bool) (pos : Nat) (rows : List Nat) (added flags n : Nat) : State × Added :=
  let d := accdOf red.accd
  let same : Added := { rows := rows, added := added, flags := flags, n := n }
  match (if adds && shas red.recs pos then some (sget ({} : OutRec) red.recs pos) else none) with
  | none => (s, same)
  | some r =>
    if r.gone ≠ 0 ∨ red.served = 0 then (s, same)
    else
      let a := addRecord d (sliceLevel s red.entry d) red.served red.low (treesOf d red.served) r rows added flags n
      (noteAdded s red.uid a, a)

/-- A reduction changed. -/
def modRed (s : State) (n seq : Nat) (f : Red → Red) : State :=
  modUtr s fun u => { u with reds := u.reds.map fun r => if r.entry = n ∧ r.seq = seq then f r else r }

/-- A reduction of this device. -/
def findRed (s : State) (n seq : Nat) : Option Red := s.utr.reds.find? fun r => r.entry == n && r.seq == seq

/-- The reduction leaves this device. -/
def dropRed (s : State) (n seq : Nat) : State :=
  modUtr s fun u => { u with reds := u.reds.filter fun r => !(r.entry == n && r.seq == seq) }

/-- The closes of a command that wait with the reduction: hedge and close. -/
def redCloses (s : State) (uid : Nat) : List (Nat × Close) :=
  (List.range 16).filterMap fun h => match (hedge s h).closes with
    | c :: _ => if c.uid = uid ∧ c.stage = 1 then some (h, c) else none
    | [] => none

/-- A non-root close ends (R328): its rows return and the command completes OK with DETAIL 0. -/
def endNonRoot (s : State) (red : Red) : State :=
  let s := dropRed s red.entry red.seq
  match red.uid with
  | none => s
  | some uid =>
    match findStep s uid with
    | none => s
    | some r =>
      let s := (redCloses s uid).foldl (fun s x => endClose s x.1 r x.2) s
      complete { s with rotations := s.rotations.filter (·.uid != uid) } uid .ok

/-- One record at the end of the chain as the output unit takes it (R327, R131). -/
def rootRecord (s : State) (red : Red) (x : Nat × Nat × Nat × Nat × List Nat) (bad : List Nat) : OutRec :=
  let d := accdOf red.accd
  let (pos, added, flags, n, rows) := x
  let own := sget ({} : OutRec) red.recs pos
  let lost := entrySlices s red.entry &&& (0xFFFF ^^^ (added &&& 0xFFFF))
  let part := decide (lost ≠ 0)
  let c : FCtx := { stoch := d.stoch, model := d.model, tag := own.tag, block := 2 ^ d.blockLog2 }
  let lvl := sliceLevel s red.entry d
  let fl := flags ||| (own.flags &&& fCancel) ||| flagIf part fPart
  let base : OutRec := { pos := pos, tag := own.tag, flags := fl, old := own.old, ranks := lost, rows := rows,
                         ns := List.replicate d.outputs n, bad := bad, tiles := own.tiles }
  if d.float ∧ d.pairwise then
    { base with nodes := (List.range d.outputs).map fun o =>
        pendingNodes 0 (if added = 0 then 0 else (topBit added + 1) * 2 ^ lvl) fun j => stackSlot d rows o j }
  else if d.float ∧ part then
    let word := fun (o : Nat) => nth 0 rows (o / 20) / 2 ^ (32 * (o % 20)) % 2 ^ 32
    let xs := (List.range d.outputs).map fun o => fadd c 0 (siteWord 5 o 0) (word o) 0
    { base with rows := packRows (xs.map (·.w)), nan := xs.any (·.nan) }
  else base

/-- The chain has ended at the root: its output units close the group at step 4 of Table 6-1 (R327), or refuse it (R326, R327). -/
def endRoot (s : State) (red : Red) (kept : List (Nat × Nat × Nat × Nat × List Nat)) (bad : List (Nat × List Nat)) (refuse : Bool) : State :=
  let s := dropRed s red.entry red.seq
  match red.uid with
  | none => s
  | some uid =>
    match (findStep s uid).filter fun r => (queue s r.q).st != .retiring, findCmd s uid with
    | some r, some cmd =>
      let d := accdOf red.accd
      let uneven := d.stats && kept.any fun x => x.2.2.2.1 != d.trees * bitsSet x.2.1
      (redCloses s uid).foldl (fun s x =>
        if refuse ∨ red.mismatch ∨ uneven then failClose s x.1 r x.2 .format
        else
          let lo := spanStart r.spec.records r.spec.spans.length x.2.span
          let hi := spanStart r.spec.records r.spec.spans.length (x.2.span + 1)
          let recs := (kept.filter fun k => decide (lo ≤ k.1) && decide (k.1 < hi)).map fun k =>
            rootRecord s red k (sget [] bad k.1)
          closeRecords (regOr s (hdgReg x.1 0x114) (flagIf (recs.any (·.nan)) 8)) x.1 r x.2 cmd d recs) s
    | _, _ => s

/-- The rank that the chain goes to after this one, none where it ends here: the next higher live rank, then the root (R325). -/
def chainNext (s : State) (root : Nat) : Option Nat :=
  let me := s.glb.rank
  match (ranksOf (liveNow s)).find? fun r => decide (me < r) with
  | some r => some r
  | none => if root = me then none else some root

/-- This device is the head of the chain: the lowest live rank. -/
def isHead (s : State) : Bool := (ranksOf (liveNow s)).all fun r => decide (s.glb.rank ≤ r)

/-- A CHAIN flit leaves for a rank (R325). -/
def sendChain (s : State) (dst type seq : Nat) (first last : Bool) (epoch : Nat) (bs : List Byte) (bad : List Nat) : State :=
  let h : FHdr := { type := type, vc := 2, first := first, last := last, src := s.glb.rank, dst := dst, seq := seq, epoch := epoch }
  sendUnicast s none (mkFlit h bs bad)

/-- CHAIN_DATA flits of a byte string, LAST on the final one where `last` holds. `n` bounds the flits. -/
def sendData (dst seq epoch : Nat) : Nat → State → List Byte → List Nat → Bool → State
  | 0, s, _, _, _ => s
  | n + 1, s, bs, bad, last =>
    if bs.isEmpty then s
    else
      let rest := bs.drop 128
      let s := sendChain s dst 0x11 seq false (last && rest.isEmpty) epoch (bs.take 128) bad
      sendData dst seq epoch n s rest (bad.filterMap fun i => if 8 ≤ i then some (i - 8) else none) last

/-- Poisoned quads of a list of records laid out one after another: every quad of a poisoned row. -/
def rowQuads (base : Nat) (rows : List Nat) : List Nat := rows.flatMap fun j => (List.range 5).map fun q => base + 1 + 5 * j + q

/-- The head of a chain starts it once its own contribution is whole (R325). -/
def startChain (s : State) (red : Red) : State :=
  let b := leAt red.hdr 16 4
  let d := accdOf red.accd
  let x := (List.range b).foldl (fun (a : State × List (Nat × Added)) pos =>
    let y := passRecord a.1 red true pos (List.replicate (rpr d) 0) 0 0 0
    (y.1, a.2 ++ [(pos, y.2)])) (s, [])
  let badOf := fun (pos : Nat) => (sget ({} : OutRec) red.recs pos).bad
  match chainNext s red.root with
  | none => endRoot x.1 red (x.2.map fun y => (y.1, y.2.added, y.2.flags, y.2.n, y.2.rows)) (x.2.map fun y => (y.1, badOf y.1)) false
  | some dst =>
    let size := chainRec red.hdr / 16
    let bad := x.2.flatMap fun y => rowQuads (y.1 * size) (badOf y.1)
    let s := sendChain x.1 dst 0x10 red.seq true false red.epoch red.hdr []
    let bytes := x.2.flatMap fun y => chainBytes y.2 y.1
    let s := sendData dst red.seq red.epoch (bytes.length / 128 + 1) s bytes bad true
    if red.root = s.glb.rank then modRed s red.entry red.seq fun r => { r with passed := true } else endNonRoot s red

/-- A close's partials, and its epoch, enter the reduction under its number (R324); the head starts the chain when every span has
combined. -/
def startReduce (s : State) (h : Nat) (r : StepRun) (g : Group) (d : Accd) (recs : List OutRec) (low : Nat) : State :=
  match modelEntry s d.model with
  | none => s
  | some n =>
    let seqReg := utrCom (0x1014 + 32 * n)
    let known := s.utr.reds.any fun x => x.uid == some r.uid
    let root := match ringEntry s r.q with | some e => ringOrigin s e | none => entryRoot s n
    let s := if known then s else
      let red : Red := { entry := n, seq := regNat s seqReg, uid := some r.uid, epoch := g.epoch, served := servedMask s g.epoch n d.exact,
                         root := root, low := low, accd := g.accd, hdr := chainHdr s n g.accd r.spec.records g.epoch,
                         spansLeft := r.spec.spans.length }
      modUtr (regAdd s seqReg 1) fun u => { u with reds := u.reds ++ [red] }
    match s.utr.reds.find? fun x => x.uid == some r.uid with
    | none => s
    | some red =>
      let put := recs.foldl (fun m (x : OutRec) => sset m x.pos x) red.recs
      let red := { red with recs := put, spansLeft := red.spansLeft - 1, low := min red.low low }
      let s := dropTokens (setStage (modRed s n red.seq fun _ => red) h 1) (ownOut h)
      if red.spansLeft = 0 ∧ isHead s then startChain s red else s

/-- Steps 2 and 3 of Table 6-1 by the output unit of hedge h: the partials are combined, and the group enters the chain or is converted and
written. -/
def combineClose (s : State) (h : Nat) (r : StepRun) (c : Close) (cmd : Cmd) (g : Group) : State :=
  let d := accdOf g.accd
  let x := combineSpan s r c.span c.cancel d
  let sat := x.2.any fun k => hasFlag (k.flags ^^^ (k.flags &&& k.old)) fSat
  let s := regOr x.1 (hdgReg h 0x114) (flagIf (x.2.any (·.nan)) 8 + flagIf sat 1)
  let low := (((receivers r c.span).filterMap fun k => (group s k c.group).bind (·.runStart)).min?).getD 0
  let s := freeOthers s ((spanHs r.spec c.span).filter (· != h)) c.group
  if r.spec.reduce then startReduce s h r g d x.2 low else closeRecords s h r c cmd d x.2

/-- A PAIRWISE close whose group's runs are refused (R123): ORDER on the span's hedges, and no results. -/
def refuseRuns (s : State) (h : Nat) (r : StepRun) (c : Close) : State :=
  failClose ((spanHs r.spec c.span).foldl (fun s x => regOr s (hdgReg x 0x114) 4) s) h r c .format

/-- OUTPUT_CLOSE (Table 6-1): the close at the head of hedge h's output unit combines its span's partials once it holds its tokens. A
destroyed queue's closes write nothing (R137). -/
def outputClose (s : State) (h : Nat) : State :=
  match (hedge s h).closes with
  | [] => s
  | c :: _ =>
    match findStep s c.uid, findCmd s c.uid, group s h c.group with
    | some r, some cmd, some g =>
      let d := accdOf g.accd
      if c.stage ≠ 0 ∨ (d.pairwise ∧ !allClosing r) ∨ (queue s r.q).st = .retiring then s
      else
        let t := askTokens s (ownOut h) (role s h == 2) 2
        if !t.2 then t.1
        else
          let bad := d.pairwise && runsBad t.1 r d
          let s := modStep t.1 r.uid fun x => { x with runsBad := some bad }
          if bad then refuseRuns s h r c else combineClose s h r c cmd g
    | _, _, _ => s

/-! ## Chains that arrive -/

/-- The chain in progress from a rank. -/
def findChain (s : State) (src : Nat) : Option Chain := s.utr.chains.find? fun c => c.src == src

/-- The chain of a rank replaced, or ended. -/
def setChain (s : State) (src : Nat) (c : Option Chain) : State :=
  modUtr s fun u => { u with chains := (u.chains.filter fun x => x.src != src) ++ c.toList }

/-- A CHAIN_HEAD for this rank (R326): none while the rank's own close has not combined. -/
def takeHead (s : State) (f : Flit) : Option State :=
  let h := fhdrOf f.hdr
  let b := sub (payBytes f) 0 32
  let n := leAt b 4 1
  match findRed s n h.seq with
  | none => none
  | some red =>
    if red.spansLeft ≠ 0 then none
    else
      let diff := red.uid.isSome && !sameGroup b red.hdr
      let skew := red.uid.isSome && !diff && leAt b 20 4 != red.epoch
      let ends := red.root == s.glb.rank && (red.passed || (chainNext s red.root).isNone)
      let s := if diff then regOr s (utrCom 0x10) 16 else s
      let s := if skew ∧ !red.passed then regOr s (utrCom 0x10) 8 else s
      let s := modRed s n h.seq fun r => { r with mismatch := r.mismatch || diff || bitOf (leAt b 28 4) 0 }
      let b2 := if diff then b.take 28 ++ toLe 4 1 else b
      let c : Chain := { src := h.src, entry := n, seq := h.seq, epoch := leAt b 20 4, hdr := b2, ends := ends,
                         adds := red.uid.isSome && !diff && !skew && !red.passed }
      let s := setChain s h.src (some c)
      some (if ends then s
        else match chainNext s red.root with
          | some dst => sendChain s dst 0x10 h.seq true false (leAt b 20 4) b2 []
          | none => s)

/-- The whole records at the front of a chain's input pass (R325, R326). `n` bounds the records. -/
def passRecords1 (red : Red) : Nat → State → Chain → State × Chain
  | 0, s, c => (s, c)
  | n + 1, s, c =>
    let size := chainRec c.hdr
    if c.inBuf.length < size then (s, c)
    else
      let b := c.inBuf.take size
      let q := size / 16
      let mine := c.inBad.filter fun i => decide (i < q)
      let rows := (List.range (q / 5)).map fun j => leAt b (16 + 80 * j) 80
      let badRows := (List.range (q / 5)).filter fun j => mine.any fun i => i == 0 || (i - 1) / 5 == j
      let own := if c.adds then (sget ({} : OutRec) red.recs c.ix).bad else []
      let bads := (badRows ++ own).dedup
      let x := passRecord s red c.adds c.ix rows (leAt b 0 2) (leAt b 2 2) (leAt b 4 4)
      let fl := x.2.flags ||| flagIf (!bads.isEmpty) fInteg
      let keep := c.kept ++ [(c.ix, x.2.added, fl, x.2.n, x.2.rows)]
      let c2 : Chain := { c with ix := c.ix + 1, inBuf := c.inBuf.drop size, inBad := c.inBad.filterMap fun i => if q ≤ i then some (i - q) else none }
      let ob := c.outBuf.length / 16
      let obs := c.outBad ++ (if mine.contains 0 then [ob] else []) ++ rowQuads ob bads
      let c3 := if c.ends then { c2 with kept := keep, keptBad := sset c.keptBad c.ix bads }
        else { c2 with outBuf := c.outBuf ++ chainBytes x.2 c.ix, outBad := obs }
      passRecords1 red n x.1 c3

/-- A CHAIN_DATA flit for this rank (R325 to R328): whole records are passed on or kept, and the last flit ends the reduction here. A
chain of no reduction known here is discarded. -/
def takeData (s : State) (f : Flit) : State :=
  let h := fhdrOf f.hdr
  match findChain s h.src with
  | none => dropFlit s false
  | some c =>
    match findRed s c.entry c.seq with
    | none => dropFlit (setChain s h.src none) false
    | some red =>
      let c := { c with inBad := c.inBad ++ (payPoison f).map (· + c.inBuf.length / 16), inBuf := c.inBuf ++ payBytes f }
      let x := passRecords1 red (c.inBuf.length / chainRec c.hdr + 1) s c
      let s := x.1
      let c := x.2
      let refuse := bitOf (leAt c.hdr 28 4) 0
      if c.ends then
        if h.last then
          endRoot (setChain s h.src none) red c.kept c.keptBad refuse
        else setChain s h.src (some c)
      else
        match chainNext s red.root with
        | none => setChain s h.src none
        | some dst =>
          let whole := if h.last then c.outBuf.length else c.outBuf.length / 128 * 128
          let s := sendData dst c.seq c.epoch (c.outBuf.length / 128 + 1) s (c.outBuf.take whole) (c.outBad.filter fun i => decide (16 * i < whole)) h.last
          if h.last then
            let s := setChain s h.src none
            if red.root = s.glb.rank then modRed s red.entry red.seq fun r => { r with passed := true } else endNonRoot s red
          else
            let later := c.outBad.filterMap fun i => if whole ≤ 16 * i then some (i - whole / 16) else none
            setChain s h.src (some { c with outBuf := c.outBuf.drop whole, outBad := later })

/-! ## Management flits -/

/-- The count is newer than the last one seen from the rank. -/
def newer (s : State) (src seq : Nat) : Bool :=
  !shas s.utr.notices src ||
    (let d := (seq + 2 ^ 32 - (sget ({} : NoticeRec) s.utr.notices src).seq) % 2 ^ 32
     d != 0 && decide (d < 2 ^ 31))

/-- A ring queue whose model entry this rank has lost passes through (R322). -/
def passThrough (s : State) (n : Nat) : State :=
  (List.range 64).foldl (fun s e =>
    if regBit s (utrCom (0x2000 + 4 * e)) 31 ∧ ringModel s e = n then
      let q := regField s (utrCom (0x2000 + 4 * e)) 13 0
      modRq (dropMarks s q) q fun k => { k with passing := true }
    else s) s

/-- A NOTICE arrives (R310, R322): it is flooded on, and the membership is worked out again. A repeat is dropped. -/
def takeNotice (s : State) (p : Nat) (f : Flit) : State :=
  let h := fhdrOf f.hdr
  let bs := payBytes f
  if h.src = s.glb.rank ∨ !newer s h.src h.seq then s
  else
    let s := flood s (some p) f
    let old := sget ({} : NoticeRec) s.utr.notices h.src
    let put := fun (s : State) (v : NoticeRec) => modUtr s fun u => { u with notices := sset u.notices h.src v }
    if leAt bs 0 1 = 0 then
      let ps := (List.range (min 4 (leAt bs 1 1))).map fun i => leAt bs (2 + i) 1 % 16
      coordinate (put s { seq := h.seq, peers := ps, ready := leAt bs 8 8 })
    else if leAt bs 0 1 = 1 then
      let q := leAt bs 2 2
      let s := put s { old with seq := h.seq }
      if (rq s q).reports.contains (leAt bs 1 1) then s else modRq s q fun k => { k with reports := k.reports ++ [leAt bs 1 1] }
    else
      let r := leAt bs 1 1 % 16
      let n := leAt bs 2 1 % 64
      let s := put s { old with seq := h.seq }
      let off := utrCom (0x1004 + 32 * n)
      if r = s.glb.rank then
        coordinate (passThrough (regSetField s off 31 31 0) n)
      else
        let v := sget ({} : NoticeRec) s.utr.notices r
        coordinate (modUtr s fun u => { u with notices := sset u.notices r { v with ready := setField v.ready n n 0 } })

/-- A MEMBERSHIP arrives (R310): a newer epoch is adopted and flooded on. -/
def takeMembership (s : State) (p : Nat) (f : Flit) : State :=
  let h := fhdrOf f.hdr
  if h.epoch ≤ epochNow s then s
  else
    let bs := payBytes f
    let live := h.seq % 2 ^ 16
    let m : Member := { live := live, ready := (ranksOf live).map fun r => (r, leAt bs (8 * r) 8) }
    flood (adoptEpoch s h.epoch m) (some p) f

/-! ## The receive buffers -/

/-- The flit at the head of a channel's receive buffer is used, or has to wait (none). -/
def useFlit (s : State) (p vc : Nat) (f : Flit) : Option State :=
  let h := fhdrOf f.hdr
  let me := s.glb.rank
  let away := fun (_ : Unit) =>
    match routePort s h.dst with
    | none => some (sendUnicast s (some (p, vc)) f)
    | some o =>
      let turn := isColumn o && !isColumn p
      if creditReady s o (outVc s (vc / 2 * 2) (some vc) turn o) then some (sendUnicast s (some (p, vc)) f) else none
  if h.type = 1 ∨ h.type = 2 then
    let ways := castNext s (some (p, vc, h.dst))
    if !(ways.all fun w => creditReady s w.1 w.2.1) then none
    else if !copyFits s h then none
    else
      let s := castFlit s f ways
      some (if h.type = 2 then takeMark s h.queue h (payBytes f) else takeRecord s h.queue h f)
  else if h.type = 0x30 then some (takeMembership s p f)
  else if h.type = 0x31 then some (takeNotice s p f)
  else if h.dst ≠ me then away ()
  else if h.type = 0x10 then takeHead s f
  else if h.type = 0x11 then some (takeData s f)
  else if h.type = 0x20 ∧ h.len = 1 then some (takeReceipt s h.src (leAt (payBytes f) 0 1))
  else if h.type = 0x20 then
    if (chan s (0x40 + h.src) 0).queue.length < Config.mbxSlots then
      let b := (List.range 16).map fun i => BitVec.ofNat 32 (leAt (payBytes f) (4 * i) 4)
      some (modChan s (0x40 + h.src) 0 fun c => { c with queue := c.queue ++ [b] })
    else none
  else if h.type = 0x21 then
    match (chan s (0x40 + h.src) 0).word with
    | some _ => none
    | none => some (modChan s (0x40 + h.src) 0 fun c => { c with word := some (BitVec.ofNat 32 (leAt (payBytes f) 0 4)) })
  else some s

/-- A multicast held for want of ring room is reported (R322). -/
def noteHeld (s : State) (f : Flit) : State :=
  let h := fhdrOf f.hdr
  if h.type = 1 ∧ !copyFits s h then reportHold s h.queue else s

/-- The heads of a port's receive buffers used as far as they can be. `n` bounds the flits. -/
def pumpVc : Nat → State → Nat → Nat → State
  | 0, s, _, _ => s
  | n + 1, s, p, vc =>
    match sget [] (uport s p).rx vc with
    | [] => s
    | f :: _ => match useFlit s p vc f with
      | some t => pumpVc n (takeRx t p vc) p vc
      | none => noteHeld s f

/-- Steps skipped enter their empty contributions once every earlier step of their queue has its number (R323). -/
def flushSkips (s : State) : State :=
  s.utr.rqs.foldl (fun s x =>
    x.2.skips.foldl (fun s k =>
      let open_ := s.steps.any fun t => t.q == x.1 && decide (t.uid < k.1) && !s.utr.reds.any fun r => r.uid == some t.uid
      if open_ ∨ !(rq s x.1).skips.contains k then s
      else
        let seqReg := utrCom (0x1014 + 32 * k.2)
        let root := match ringEntry s x.1 with | some e => ringOrigin s e | none => entryRoot s k.2
        let red : Red := { entry := k.2, seq := regNat s seqReg, root := root }
        let s := modRq s x.1 fun r => { r with skips := r.skips.drop 1 }
        modUtr (regAdd s seqReg 1) fun u => { u with reds := u.reds ++ [red] }) s) s

/-- Whatever the receive buffers hold moves on as far as it can (log 16), and so do the messages for peers' hosts (R300). -/
def utrPump (s : State) : State :=
  let s := if s.utr.rqs.any fun x => !x.2.skips.isEmpty then flushSkips s else s
  let s := if s.utr.ports.all fun x => x.2.rx.all fun y => y.2.isEmpty then s
    else (List.range 4).foldl (fun s p => (List.range 6).foldl (fun s vc =>
      pumpVc ((sget [] (uport s p).rx vc).length) s p vc) s) s
  forwardPeers s

/-- A flit of a row arrives at a port: it is received, and what the buffers hold moves on. A flit of another type than the row's, or at a
port that is not UP, is no such event (log 8). -/
def flitArrives (s : State) (p : Nat) (types : List Nat) (f : Flit) : State :=
  if !types.contains (fhdrOf f.hdr).type then s
  else utrPump (receiveFlit s p f)

/-! ## Ports -/

/-- Cabled hops from this device out of port p to a rank of its row or column (R308), 1 to the size of the dimension. -/
def cableHops (s : State) (p r : Nat) : Nat :=
  let me := s.glb.rank
  let size := max 1 (if isColumn p then ringY s else ringX s)
  let from_ := if isColumn p then rowOf s me else colOf s me
  let to_ := if isColumn p then rowOf s r else colOf s r
  (if p = 1 ∨ p = 2 then to_ + size - from_ - 1 else from_ + size - to_ - 1) % size + 1

/-- The greeting agrees with this device (R309): topology, RING_ID, the opposite port, and a rank in the port's direction: the one it is
cabled to, or one further on where a bypass lies between (log 18). -/
def greetOk (s : State) (p : Nat) (g : Greeting) : Bool :=
  let me := s.glb.rank
  g.topo.toNat == s.glb.topo && g.ringId.toNat == ringId s && g.port.val == opposite p &&
  decide (g.rank.val < ringX s * ringY s) &&
  (if isColumn p then colOf s g.rank == colOf s me else rowOf s g.rank == rowOf s me) &&
  g.viaBypass == decide (1 < cableHops s p g.rank.val)

/-- PORT_TRAINED (R303, R309). -/
def trained (s : State) (p : Nat) (g : Greeting) : State :=
  let u := uport s p
  if u.st ≠ 1 ∨ !u.en.en ∨ !s.glb.bypassOpen then s
  else if !greetOk s p g then
    regOr (modPort s p fun u => { u with bypass := g.viaBypass }) (utrPort p 4) (2 ^ 17)
  else
    let s := restartLink s p g.rank.val
    let s := modPort s p fun u => { u with st := 2, rate := if g.viaBypass then 1 else 2, lock := 15, peer := g.rank.val,
                                           bypass := g.viaBypass }
    utrPump (noticeChange s)

/-- PORT_LINK_LOST (R330, R332): an UP link goes down and trains again; a port under shutdown ends it. -/
def linkLost (s : State) (p : Nat) : State :=
  let u := uport s p
  if u.en.disabling then
    let on := u.en.pendOn || u.retrain
    let s := portDown s p (if on ∧ s.glb.bypassOpen then 1 else 0)
    noticeChange (modPort s p fun u => { u with en := { en := on }, retrain := false })
  else if u.st = 2 then noticeChange (portDown s p 1)
  else s

/-- A write of `UTR_PORT_CTL`.EN (R268, R333). -/
def portEn (s : State) (p : Nat) (on : Bool) : State :=
  let u := uport s p
  if !on ∧ u.en.disabling then modPort s p fun u => { u with en := { u.en with en := false, pendOn := false }, retrain := false }
  else if on ∧ !portUsed s p then s
  else if on then
    let s := modPort s p fun u => { u with en := u.en.write true false }
    if (uport s p).en.en ∧ !(uport s p).en.disabling ∧ u.st = 0 ∧ portUsed s p ∧ s.glb.bypassOpen then
      modPort s p fun u => { u with st := 1 }
    else s
  else
    let busy := decide (u.st = 2)
    let s := modPort s p fun u => { u with en := u.en.write false busy }
    if !busy then modPort s p fun u => { u with st := 0 } else s

/-- RETRAIN (R332): a shutdown of the port, after which it trains again. -/
def retrainRun (s : State) (p : Nat) : State :=
  let u := uport s p
  if u.st = 2 ∧ !u.en.disabling then
    modPort s p fun u => { u with en := { u.en with disabling := true }, retrain := true }
  else s

/-- REPLAY_RETRAIN (R305): after eight consecutive replays of one flit the port retrains. -/
def replayRetrainRun (s : State) (p : Nat) : State :=
  let u := uport s p
  if u.st = 2 ∧ 8 ≤ u.replays ∧ !u.en.disabling then noticeChange (portDown s p 1) else s

/-- CREDIT (R311): HELD rises, and waiting flits go. -/
def creditRun (s : State) (p vc n : Nat) : State :=
  if (uport s p).st ≠ 2 then s
  else utrPump (modPort s p fun u => txPump u.wait.length { u with held := sset u.held vc (min 128 (heldOf u vc + n)) })

/-- ACK (R305). -/
def ackRun (s : State) (p sq : Nat) : State :=
  if (uport s p).st ≠ 2 then s else utrPump (modPort s p fun u => ackTo { u with replays := 0, replayAt := none } sq)

/-- REPLAY (R305). -/
def replayRun (s : State) (p sq : Nat) : State := if (uport s p).st ≠ 2 then s else replayFrom s p sq

/-- CREDIT_SNAP_REQUEST (R312). -/
def snapRequest (s : State) (p : Nat) : State :=
  modPort s p fun u => { u with snapWait := List.range 6, snapValid := false }

/-- Every credit that the partner has returned has come (R312): what is neither held nor buffered are flits not yet acknowledged. -/
def creditsHome (u : UPort) (vc buffered : Nat) : Bool :=
  decide (heldOf u vc + buffered ≤ 128) &&
  decide (128 ≤ heldOf u vc + buffered + (u.unacked.filter fun f => (fhdrOf f.hdr).vc == vc).length)

/-- SNAP (R312): a channel's counts are latched where no credit return is outstanding; VALID when every channel has latched. -/
def snapRun (s : State) (p vc buffered : Nat) : State :=
  let u := uport s p
  if u.st ≠ 2 ∨ !u.snapWait.contains vc ∨ !creditsHome u vc buffered then s
  else
    let held := heldOf u vc
    modPort s p fun u =>
      { u with snapWait := u.snapWait.filter (· != vc), snapValid := (u.snapWait.filter (· != vc)).isEmpty,
               creds := sset u.creds vc (held, 128 - held - buffered, buffered) }

/-! ## The bypass (R329 to R331, R434) -/

/-- The conditions of R329, FORCE_CLOSE and a pending reopen aside. -/
def mayOpen (s : State) : Bool :=
  s.glb.topo != 0 && (s.glb.dev == .running || s.glb.dev == .draining) && s.glb.vka && s.glb.bypassN && !regBit s 0x14 0 &&
  !s.glb.pendingOpen

/-- The ports the topology uses. -/
def usedPorts (s : State) : List Nat := (List.range 4).filter (portUsed s)

/-- The switches open and the device joins the ring (Table 13-6): Sage enables the ports, and they train. -/
def joinRing (s : State) : State :=
  if !mayOpen s ∨ s.glb.bypassOpen then s
  else (usedPorts s).foldl (fun s p => modPort s p fun u => { u with en := { en := true }, st := 1 })
    { s with glb := { s.glb with bypassOpen := true } }

/-- The switches conduct (R329): every link of the device is lost at once. -/
def leaveRing (s : State) : State :=
  if !s.glb.bypassOpen then s
  else (usedPorts s).foldl (fun s p => modPort (portDown s p 0) p fun u => { u with en := u.en.done, retrain := false })
    { s with glb := { s.glb with bypassOpen := false } }

/-- The bypass follows its conditions (R329). -/
def followBypass (s : State) : State := if mayOpen s then joinRing s else leaveRing s

/-- FORCE_CLOSE (R434). -/
def forceCloseRun (s : State) (on : Bool) : State :=
  let was := regBit s 0x14 0
  if on then
    let s := regSetField { s with glb := { s.glb with pendingOpen := false } } 0x14 0 0 1
    if !s.glb.bypassOpen then s
    else (usedPorts s).foldl (fun s p =>
        if (uport s p).st = 2 then modPort s p fun u => { u with en := { disabling := true } }
        else modPort s p fun u => { u with en := {}, st := 0 }) { s with glb := { s.glb with bypassOpen := false } }
  else if !was then s
  else
    let s := regSetField s 0x14 0 0 0
    if (usedPorts s).all fun p => (uport s p).st == 0 then followBypass s
    else { s with glb := { s.glb with pendingOpen := true } }

/-- BYPASS_REOPEN (R434): once every port has reached OFF. -/
def bypassReopenRun (s : State) : State :=
  if s.glb.pendingOpen && (usedPorts s).all fun p => (uport s p).st == 0 && !(uport s p).en.disabling then
    followBypass { s with glb := { s.glb with pendingOpen := false } }
  else s

/-! ## The model table (R316) -/

/-- A REDUCE group of a MODEL_ID is open on the device. -/
def reduceOpen (s : State) (model : Nat) : Bool :=
  s.steps.any (fun r => r.spec.reduce && match stepGroup s r.spec with | some g => (accdOf g.accd).model == model | none => false) ||
  s.utr.reds.any fun r => (accdOf r.accd).model == model && r.uid.isSome

/-- A write to a model-table entry's register at byte offset `o` of the entry (R316): READY is each device's own and starts a new epoch;
the other fields change only while no REDUCE group of the model is open. -/
def modelWrite (s : State) (n o : Nat) (w : Word) : State :=
  let off := utrCom (0x1000 + 32 * n + o)
  let old := regGet s off
  let shut := reduceOpen s (regNat s (utrCom (0x1000 + 32 * n)))
  let v := w.toNat
  if o = 4 then
    let v := setField (setField v 30 20 0) 31 31 0
    let s := regSet s off (BitVec.ofNat 32 ((if shut then setField old.toNat 31 31 0 else v) + b2n (bitOf w.toNat 31) * 2 ^ 31))
    if bitOf w.toNat 31 != bitOf old.toNat 31 then noticeChange s else s
  else if shut then s
  else regSet s off (BitVec.ofNat 32 (if o = 8 then v % 2 ^ 24 else v))

end Sys2Proof.Machine
end

