-- ==== Sys2Proof/Machine/Rxu.lean ====
section
/-! DEFINITION. The receiver units up to the slot task: streams and capture rings (R171 to R175), gain control and preamble detection
(R176 to R178), the gain control port (R179 to R181), strobes and capture windows (R182, R183). -/

namespace Sys2Proof.Machine

/-! ## Streams by number -/

/-- Local stream l of unit u. -/
def stream (s : State) (u l : Nat) : Stream := sget {} (rxu s u).streams l
/-- A local stream changed. -/
def modStream (s : State) (u l : Nat) (f : Stream → Stream) : State :=
  modRxu s u fun x => { x with streams := sset x.streams l (f (stream s u l)) }
/-- The gain loop of a local stream changed. -/
def modAgc (s : State) (u l : Nat) (f : Agc → Agc) : State := modStream s u l fun x => { x with agc := f x.agc }
/-- The oldest open task of a stream changed. -/
def modTask (s : State) (u l : Nat) (f : Task → Task) : State :=
  modStream s u l fun x => { x with tasks := match x.tasks with | t :: r => f t :: r | [] => [] }

/-- A field of receiver unit u's Pleach entry. -/
def unitEntry (s : State) (u off len : Nat) : Nat := plAt s (0x880 + 32 * u + off) len
/-- LANES of unit u; 0 disables it. -/
def unitLanes (s : State) (u : Nat) : Nat := unitEntry s u 0 1
/-- A field of global stream g's Pleach entry. -/
def streamEntry (s : State) (g off len : Nat) : Nat := plAt s (0x900 + 16 * g + off) len
/-- The global stream that is local stream l of unit u (R173). -/
def globalOf (s : State) (u l : Nat) : Option Nat :=
  (List.range 16).find? fun g => streamEntry s g 0 1 == u && streamEntry s g 1 1 == l
/-- The local streams of unit u, ascending. -/
def localsOf (s : State) (u : Nat) : List Nat := (List.range 8).filter fun l => (globalOf s u l).isSome
/-- CAP_SAMPLES of a local stream. -/
def capSamples (s : State) (u l : Nat) : Nat := match globalOf s u l with | some g => streamEntry s g 8 4 | none => 0
/-- Base of unit u's scratchpad (Table 14-4). -/
def rxuScratch (u : Nat) : Nat := Config.rxuScratchBase + u * Config.rxuScratchSize
/-- Base of a stream's capture ring: the rings lie one after another from the start of the scratchpad, on 64-byte boundaries (log). -/
def ringAt (s : State) (u l : Nat) : Nat :=
  rxuScratch u + (((List.range l).filter fun k => (globalOf s u k).isSome).map fun k => alignUp (4 * capSamples s u k) 64).sum
/-- SHARED_SLOT (R182). -/
def sharedSlot (s : State) : Bool := bitOf (plAt s 9 1) 0
/-- The unit's link, gain control and gain port run (R174, R175, R179): EN is 1, and the device serves. -/
def unitOn (s : State) (u : Nat) : Bool := (rxu s u).en.en && served s && unitLanes s u != 0

/-! ## Gain control (R176 to R178) -/

/-- Register of a local stream's gain loop, at offset o of its block (Table 8-9). -/
def agcReg (u l o : Nat) : Nat := rxuReg u (0x1000 + 0x20 * l + o)
/-- CLASS in force: 0 AUTO_FREEZE, 1 TRACK, 2 MANUAL. -/
def Agc.cls (a : Agc) : Nat := fieldOf a.ctl.toNat 1 0
/-- MANUAL_GAIN in force. -/
def Agc.manual (a : Agc) : Nat := fieldOf a.range.toNat 23 16
/-- A word queued for the gain port; the Bool says an older one was replaced (R181). -/
def Agc.queue (a : Agc) (g : Nat) : Agc × Bool := ({ a with pend := some g }, a.pend.isSome)
/-- The window being gathered is abandoned. -/
def Agc.newWindow (a : Agc) : Agc := { a with winN := 0, winSum := 0, winClip := 0, wins := [] }

/-- A word queued for a stream's transceiver (R181). -/
def queueGain (s : State) (u l g : Nat) : State :=
  let r := (stream s u l).agc.queue g
  let s := modAgc s u l fun _ => r.1
  if r.2 then regOr s (agcReg u l 0x18) (2 ^ 25) else s

/-- The loop with the registers of Table 8-9 in force. -/
def agcLatched (s : State) (u l : Nat) (a : Agc) : Agc :=
  { a with ctl := regGet s (agcReg u l 0), hi := regGet s (agcReg u l 4), lo := regGet s (agcReg u l 8), range := regGet s (agcReg u l 0xC) }

/-- The loop's registers take effect (R177). An entry into MANUAL, or a MANUAL_GAIN that changes there, stops the window, sets G and queues
one gain word (R176): MANUAL_GAIN as it stands, whether or not it lies from GAIN_MIN to GAIN_MAX (DESIGN CHOICE, log 70). -/
def latchAgc (s : State) (u l : Nat) : State :=
  let a := (stream s u l).agc
  let b := agcLatched s u l a
  if b.cls ≠ 2 then modAgc s u l fun _ => b
  else
    let s := modAgc s u l fun _ => { b.newWindow with g := b.manual }
    if a.cls = 2 ∧ a.manual = b.manual then s else queueGain s u l b.manual

/-- The parts of a CI16 sample. -/
def sampleRe (w : Word) : Int := signed 16 (w.toNat % 65536)
/-- The imaginary part of a CI16 sample. -/
def sampleIm (w : Word) : Int := signed 16 (w.toNat / 65536)
/-- I² + Q². -/
def samplePower (w : Word) : Nat := (sampleRe w * sampleRe w + sampleIm w * sampleIm w).toNat
/-- Either part is at an end of the range. -/
def sampleClips (w : Word) : Bool :=
  sampleRe w == -32768 || sampleRe w == 32767 || sampleIm w == -32768 || sampleIm w == 32767

/-- 256 × C ≥ DET_THR × E over the newest samples, newest first (R178); samples before the first count as 0. -/
def detects (det : Nat) (xs : List Word) : Bool :=
  let lag := fieldOf det 7 0
  let n := 2 ^ fieldOf det 11 8
  let win := xs.take n
  let old := (xs.drop lag).take n
  let c := (List.zip win old).foldl (fun (a : Int × Int) p =>
    let x := p.1
    let y := p.2
    (a.1 + sampleRe x * sampleRe y + sampleIm x * sampleIm y, a.2 + sampleIm x * sampleRe y - sampleRe x * sampleIm y)) (0, 0)
  let e := (win.map samplePower).sum
  decide (fieldOf det 19 12 * (e * e) ≤ 256 * (c.1 * c.1 + c.2 * c.2).toNat)

/-- One captured sample in the gain window (R177); a detection stops the loop of AUTO_FREEZE (Table 8-3). -/
def Agc.gather (a : Agc) (w : Word) : Agc :=
  if a.cls = 2 ∨ (a.cls = 0 ∧ (a.frozen ∨ a.lateFreeze ∨ a.found ≠ [])) then a
  else
    let n := 2 ^ fieldOf a.ctl.toNat 5 2
    let sm := a.winSum + samplePower w
    let cl := a.winClip + b2n (sampleClips w)
    if a.winN + 1 < n then { a with winN := a.winN + 1, winSum := sm, winClip := cl }
    else { a with winN := 0, winSum := 0, winClip := 0, wins := a.wins ++ [(sm / n, cl)] }

/-- One captured sample in the preamble detector (R178): it fires once when the condition has held for DET_HOLD samples. -/
def Agc.watch (a : Agc) (det ix : Nat) (xs : List Word) : Agc :=
  let blanked := (a.cls = 0 ∧ (a.frozen ∨ a.found ≠ [])) ∨ (match a.blank with | some b => decide (ix < b) | none => false) = true
  if blanked then { a with hold := 0 }
  else if !detects det xs then { a with hold := 0 }
  else
    let b := { a with hold := a.hold + 1 }
    if b.hold = fieldOf det 27 20 then { b with found := b.found ++ [ix] } else b

/-- One sample of a stream: its history, window and detector. -/
def Stream.sample (x : Stream) (det : Nat) (w : Word) : Stream :=
  let xs := (w :: x.recent).take 1279
  { x with samples := x.samples + 1, recent := xs, agc := (x.agc.gather w).watch det x.samples xs }

/-- Windows that are still open MAX_TAIL samples after their closing strobe close (R183). -/
def Stream.endTails (x : Stream) : Stream :=
  match x.run with
  | some r =>
    let past := fun (t : Task) => match t.stop with | some p => decide (p + leAt r.desc 0x14 4 ≤ x.samples) | none => false
    { x with tasks := x.tasks.map fun t => if past t then { t with closed := true } else t }
  | none => x

/-- A sample written into the capture ring (R175), and what the loop and the detector make of it while they run. -/
def putSample (s : State) (u l : Nat) (w : Word) : State :=
  let x := stream s u l
  let a := ringAt s u l + 4 * (x.samples % max 1 (capSamples s u l))
  let s := (writeMem s 0 (0xF0 + u) a (toLe 4 w.toNat)).1
  if unitOn s u then modStream s u l fun x => (x.sample (regNat s (agcReg u l 0x10)) w).endTails
  else modStream s u l fun x => ({ x with samples := x.samples + 1, recent := (w :: x.recent).take 1279 } : Stream).endTails

/-- A window of a stream holds zeroed samples (R174): its open tasks carry LINK. -/
def noteLink (s : State) (u l : Nat) : State :=
  if (stream s u l).tasks.any (!·.closed) then
    regOr (modStream s u l fun x => { x with tasks := x.tasks.map fun t => if t.closed then t else { t with link := true } }) (rxuReg u 4) (2 ^ 10)
  else s

/-- Samples arrive: the unit's EN is 1, or open tasks of a unit that is being disabled run to completion (R188). -/
def capturing (s : State) (u : Nat) : Bool :=
  ((rxu s u).en.en || (rxu s u).en.disabling) && served s && unitLanes s u != 0

/-- SAMPLE_CAPTURE (R174, R175): a multiblock's samples, zeros where its CRC-12 failed or the link is down. The link does not run while EN
is 0, so that what an open task of a unit being disabled still captures is zeros (DEDUCED, log 69). -/
def captureRun (s : State) (u : Nat) (mb : Multiblock) : State :=
  if !capturing s u then s
  else
    let up := (rxu s u).linkUp
    let s := if up ∧ !mb.crcOk then regOr (regCount s (rxuReg u 0x104) 1) (rxuReg u 0x100) (2 ^ 17) else s
    let zero := !up || !mb.crcOk
    (localsOf s u).foldl (fun s l =>
      let ws := nth [] mb.samples l
      let s := if zero ∧ ws ≠ [] then noteLink s u l else s
      ws.foldl (fun s w => putSample s u l (if zero then 0 else w)) s) s

/-- LINK_DOWN (R174, R198): the lanes of `lanes` have lost lock; with none, alignment is lost on a lane. Either takes the link down. -/
def linkDownRun (s : State) (u : Nat) (lanes : BitVec 8) : State :=
  if !unitOn s u then s
  else
    let x := rxu s u
    let s := modRxu s u fun x => { x with linkUp := false, aligned := false, lock := x.lock &&& (255 - lanes.toNat) }
    if x.linkUp then regOr s (rxuReg u 0x100) (2 ^ 16) else s

/-- LINK_RETURN (R174): every lane has locked, at a boundary of a clock that has a phase. -/
def linkReturnRun (s : State) (u : Nat) : State :=
  if !unitOn s u ∨ (rxu s u).linkUp ∨ !(rxu s u).phase then s
  else modRxu s u fun x => { x with linkUp := true, aligned := true, lock := 2 ^ unitLanes s u - 1 }

/-- SYSREF_EDGE (R174): the local extended multiblock clock takes its phase. -/
def sysrefRun (s : State) (u : Nat) : State := modRxu s u fun x => { x with phase := true }

/-- DEVCLK_STOP (R174): the clock keeps its phase only for as long as DEVCLK runs. -/
def devclkStopRun (s : State) (u : Nat) : State := modRxu s u fun x => { x with phase := false }

/-- G after a window (R177) with the mean power p and the clipped count c; whether a CLIP_STEP was taken. -/
def Agc.step (a : Agc) (p c : Nat) : Nat × Bool :=
  let f := fun hi lo => fieldOf a.ctl.toNat hi lo
  let clip := decide (0 < f 25 18) && decide (f 25 18 ≤ c)
  let g : Int := if clip then (a.g : Int) - f 17 14 else if a.hi.toNat < p then (a.g : Int) - f 13 10
    else if p < a.lo.toNat then (a.g : Int) + f 9 6 else a.g
  let lo : Int := fieldOf a.range.toNat 7 0
  let hi : Int := fieldOf a.range.toNat 15 8
  ((max lo (min hi g)).toNat, clip)

/-- AGC_WINDOW_END (R177): the loop updates G from the oldest window gathered, queues a changed G, and its registers take effect. -/
def agcWindowEnd (s : State) (u l : Nat) : State :=
  let a := (stream s u l).agc
  match a.wins with
  | [] => s
  | w :: rest =>
    let r := a.step w.1 w.2
    let s := modAgc s u l fun a => { a with wins := rest, g := r.1 }
    let s := if r.2 then regOr s (agcReg u l 0x18) (2 ^ 24) else s
    let s := if r.1 ≠ a.g then queueGain s u l r.1 else s
    latchAgc s u l

/-- MAX_MSG of the stream's run. -/
def maxMsg (x : Stream) : Nat := match x.run with | some r => leAt r.desc 0x0A 2 | none => 0

/-- A detection at sample ix noted in the task whose window holds it (R178, R183, Table 8-6). -/
def noteMsg (x : Stream) (ix gain : Nat) : Stream :=
  let inWin := fun (t : Task) => decide (t.start ≤ ix) && (match t.stop with | some p => decide (ix < p) | none => true)
  match x.tasks.findIdx? inWin with
  | none => x
  | some i =>
    let mm := maxMsg x
    { x with tasks := (List.zip (List.range x.tasks.length) x.tasks).map fun e =>
        let t := e.2
        if e.1 ≠ i then t
        else if t.messages < mm then
          { t with messages := t.messages + 1, gain := gain, lastAt := ix, dets := t.dets ++ [{ at_ := ix, gain := gain, seq := t.messages }] }
        else { t with excess := true, dets := t.dets ++ [{ at_ := ix, gain := gain, seq := t.messages, excess := true }] } }

/-- The task whose window holds sample ix carries FREEZE_LATE. -/
def noteLate (x : Stream) (ix : Nat) : Stream :=
  let inWin := fun (t : Task) => decide (t.start ≤ ix) && (match t.stop with | some p => decide (ix < p) | none => true)
  { x with tasks := x.tasks.map fun t => if inWin t then { t with freezeLate := true } else t }

/-- PREAMBLE_DETECTION (R178, Table 8-3): the oldest detection not yet acted on. In AUTO_FREEZE the loop stops and a word not yet sent is
discarded; the stream freezes at the G of the last frame completed, at once, or when a frame of it that is on the port completes. -/
def preambleRun (s : State) (u l : Nat) : State :=
  let a := (stream s u l).agc
  match a.found with
  | [] => s
  | ix :: rest =>
    let gain := if a.cls = 2 then a.manual else a.gDone
    if a.cls ≠ 0 then modStream s u l fun x => noteMsg { x with agc := { a with found := rest } } ix gain
    else
      let b := { a.newWindow with found := rest, pend := none, release := none }
      let c := if a.lateFreeze then { a with found := rest }
        else if (match (rxu s u).gcpCur with | some c => c.1 == l | none => false) then { b with lateFreeze := true, frozenAt := ix }
        else { b with frozen := true, frozenG := a.gDone, frozenAt := ix }
      modStream s u l fun x => noteMsg { x with agc := c } ix gain

/-- Step 4 and 5 of Table 8-3: a frozen stream is released and resumes SEARCH from the frozen G, with a new window; where the freeze still
waits for a frame, the release waits with it. -/
def releaseFreeze (s : State) (u l : Nat) : State :=
  let a := (stream s u l).agc
  if a.frozen then latchAgc (modAgc s u l fun a => { a.newWindow with frozen := false, g := a.frozenG, release := none, hold := 0 }) u l
  else if a.lateFreeze then modAgc s u l fun a => { a with release := some 0 }
  else s

/-- FREEZE_RELEASE: the release sample set by the slot program has been reached. -/
def freezeReleaseRun (s : State) (u l : Nat) : State :=
  match (stream s u l).agc.release with
  | some r => if r ≤ (stream s u l).samples then releaseFreeze s u l else s
  | none => s

/-- MAX_HOLD_EXPIRY: MAX_HOLD samples after the detection. -/
def maxHoldRun (s : State) (u l : Nat) : State :=
  let n := regField s (agcReg u l 0x14) 19 0
  if n ≠ 0 ∧ (stream s u l).agc.frozenAt + n ≤ (stream s u l).samples then releaseFreeze s u l else s

/-- SETTLE_EXPIRY: SETTLE samples after a gain frame. -/
def settleRun (s : State) (u l : Nat) : State :=
  match (stream s u l).agc.blank with
  | some b => if b ≤ (stream s u l).samples then modAgc s u l fun a => { a with blank := none } else s
  | none => s

/-- A gain-loop register value obeys the ranges of Table 8-10 (R199): offset o of the stream's block. -/
def agcValueOk (o v : Nat) : Bool :=
  if o = 0 then decide (fieldOf v 1 0 ≤ 2) && decide (4 ≤ fieldOf v 5 2) && decide (fieldOf v 5 2 ≤ 10)
  else if o = 0xC then decide (fieldOf v 7 0 ≤ fieldOf v 15 8)
  else if o = 0x10 then decide (1 ≤ fieldOf v 7 0) && decide (3 ≤ fieldOf v 11 8) && decide (fieldOf v 11 8 ≤ 10) && decide (1 ≤ fieldOf v 27 20)
  else true

/-- MANUAL_GAIN_WRITE (R176, R177, R199): a write of `RXU_AGC_CTLs` or `RXU_AGC_RANGEs`. In MANUAL the loop is off and the write takes effect
at once; elsewhere it does at the next window boundary or at release, or when the unit is enabled. -/
def manualGainRun (s : State) (u l : Nat) (toRange : Bool) (v : Word) : State :=
  let o := if toRange then 0xC else 0
  let keep := if toRange then v else v &&& 0x3FFFFFF
  if !agcValueOk o v.toNat then s
  else
    let s := regSet s (agcReg u l o) keep
    if unitOn s u && (stream s u l).agc.cls == 2 then latchAgc s u l else s

/-! ## The gain control port (R179 to R181) -/

/-- One bit of CRC-8 (R180). -/
def crc8Bit (c : Nat) : Nat := if 128 ≤ c then (2 * c % 256) ^^^ 0x07 else 2 * c
/-- CRC-8 of the octets, most significant bit first. -/
def crc8 (os : List Nat) : Nat :=
  os.foldl (fun c o => crc8Bit (crc8Bit (crc8Bit (crc8Bit (crc8Bit (crc8Bit (crc8Bit (crc8Bit (c ^^^ o))))))))) 0

/-- A gain frame (Table 8-4). -/
def gainFrame (l reg g sq : Nat) : Nat :=
  let top := l * 2 ^ 20 + reg * 2 ^ 12 + g * 2 ^ 4 + sq % 16
  top * 256 + crc8 [top / 65536, top / 256 % 256, top % 256]

/-- GAIN_FRAME_START (R181): the next pending word in round robin over local stream index. -/
def gainStartRun (s : State) (u : Nat) : State :=
  if !unitOn s u ∨ (rxu s u).gcpCur.isSome then s
  else
    match nextAfter (rxu s u).gcpLast ((List.range 8).filter fun l => (stream s u l).agc.pend.isSome) with
    | none => s
    | some l =>
      let a := (stream s u l).agc
      let g := a.pend.getD 0
      let w := gainFrame l (fieldOf a.range.toNat 31 24) g (rxu s u).gcpSeq
      let s := modAgc s u l fun a => { a with pend := none }
      modRxu s u fun x => { x with gcpLast := some l, gcpCur := some (l, g), gcpSeq := (x.gcpSeq + 1) % 16, gcpSent := x.gcpSent ++ [BitVec.ofNat 32 w] }

/-- A freeze that waited for a frame takes hold at its G, which is the GAIN_WORD of what was detected since (Table 8-3); a release that came
meanwhile follows. -/
def freezeLate (s : State) (u l g : Nat) : State :=
  let ix := (stream s u l).agc.frozenAt
  let fix := fun (m : Msg) => if ix ≤ m.at_ then { m with gain := g } else m
  let s := modAgc s u l fun a => { a with frozen := true, frozenG := g, lateFreeze := false }
  let s := modStream s u l fun x => { noteLate x ix with tasks := (noteLate x ix).tasks.map fun t =>
    { t with dets := t.dets.map fix, current := t.current.map fix, gain := if 0 < t.messages ∧ ix ≤ t.lastAt then g else t.gain } }
  freezeReleaseRun (regOr s (agcReg u l 0x18) (2 ^ 26)) u l

/-- GAIN_FRAME_DONE (R178, R181): the transceiver holds the frame's G; blanking begins; a freeze that waited for the frame follows. -/
def gainDoneRun (s : State) (u : Nat) : State :=
  match (rxu s u).gcpCur with
  | none => s
  | some (l, g) =>
    let s := modRxu s u fun x => { x with gcpCur := none }
    let s := regAdd s (rxuReg u 0x3004) 1
    let settle := regField s (agcReg u l 0x14) 31 20
    let s := modAgc s u l fun a => { a with gDone := g, blank := some ((stream s u l).samples + settle) }
    if (stream s u l).agc.lateFreeze then freezeLate s u l g else s

/-! ## Strobes and windows (R182, R183) -/

/-- The closing strobe of a task's window (R183): it closes at once, unless a message is in progress and MAX_TAIL leaves it a tail. That a
message is in progress until the slot program has ended it or taken the next is a DESIGN CHOICE (log 71). -/
def closeStrobe (x : Stream) (t : Task) : Task :=
  let tail := match x.run with | some r => leAt r.desc 0x14 4 | none => 0
  { t with stop := some x.samples, closed := t.closed || tail == 0 || (t.current.isNone && t.dets.isEmpty && x.agc.found.isEmpty) }

/-- The strobe opens the next task of a stream's run, and ends the window of the one before (R183). -/
def openTask (s : State) (u l : Nat) : State :=
  modStream s u l fun x =>
    let old := x.tasks.map fun t => if t.stop.isNone then closeStrobe x t else t
    match x.run with
    | some r =>
      if 0 < r.left ∧ unitOn s u then
        { x with tasks := old ++ [{ n := (rxu s u).strobes, start := x.samples }],
                 run := some { r with left := r.left - 1, n0 := some (r.n0.getD (rxu s u).strobes) } }
      else { x with tasks := old }
    | none => { x with tasks := old }

/-- A strobe of unit u is counted (R182). -/
def strobeUnit (s : State) (u : Nat) : State :=
  let s := modRxu s u fun x => { x with strobes := x.strobes + 1 }
  (localsOf s u).foldl (fun s l => openTask s u l) s

/-- The units that SLOT_IN[i] strobes. -/
def strobedBy (s : State) (i : Nat) : List Nat := if sharedSlot s then (if i = 0 then [0, 1, 2, 3] else []) else [i]

/-- A strobe that arrives on line i while its SLOT_EN bit is set counts toward a watch event (R259): where the line's count has come to
SLOT_DIV, the event is due and the count returns to 0. -/
def countWatch (s : State) (i : Nat) : State :=
  let n := sget 0 s.watchLines i + 1
  if !regBit s watchCfg (2 + i) then s
  else if regField s watchCfg 23 8 ≤ n then
    { s with watchLines := sset s.watchLines i 0, watchDue := sset s.watchDue i (sget 0 s.watchDue i + 1) }
  else { s with watchLines := sset s.watchLines i n }

/-- SLOT_STROBE up to the opening of tasks (R182): the rising edge counts for its units, and toward a watch event. -/
def strobeCount (s : State) (i : Nat) : State :=
  (strobedBy s i).foldl (fun s u => strobeUnit s u) (countWatch s i)

/-- CAPTURE_WINDOW_CLOSE (R183): the oldest window that has had its closing strobe and runs into its tail closes. -/
def windowCloseRun (s : State) (u l : Nat) : State :=
  let x := stream s u l
  match x.tasks.findIdx? fun t => !t.closed && t.stop.isSome with
  | none => s
  | some i => modStream s u l fun x => { x with tasks := (List.zip (List.range x.tasks.length) x.tasks).map fun e =>
      if e.1 = i then { e.2 with closed := true } else e.2 }

end Sys2Proof.Machine
end

