-- ==== Sys2Proof/Machine/Abandon.lean ====
section
/-! DEFINITION. Taking a queue's work away from the engines: what KILL (R264), DRAIN (R263) and a destroy (R270) share. -/

namespace Sys2Proof.Machine

/-- Every value of a keyed map changed. -/
def mapVals {α : Type} (f : α → α) (m : SMap α) : SMap α := m.map fun p => (p.1, f p.2)

/-! ## Contexts and runs that end early (R188, R293) -/

/-- Context c of unit u. -/
def ctx (s : State) (u c : Nat) : Ctx := sget {} (rxu s u).ctxs c
/-- A context changed. -/
def modCtx (s : State) (u c : Nat) (f : Ctx → Ctx) : State :=
  modRxu s u fun x => { x with ctxs := sset x.ctxs c (f (ctx s u c)) }

/-- The EXTRACT jobs of a context whose records are still due (R83, Table 3-15): under DECODE, with the extractor on or the record in progress
when it was turned off, and the message in progress not lost. -/
def extractsDue (s : State) (u c : Nat) : Nat :=
  let x := rxu s u
  let y := stream s u c
  let js := (ctx s u c).jobs.filter fun j => leAt j.block 0 1 == 4 && (x.rex.en || x.rexWait == some (c, j.tk))
  let llr := match y.run with | some r => leAt r.desc 7 1 == 1 | none => true
  if llr || (y.tasks.headD {}).lost then 0 else js.length

/-- The record that the extractor was to finish before it is off is written or discarded (R84, R268). -/
def rexDone (s : State) (u : Nat) : State := modRxu s u fun x => { x with rex := x.rex.done, rexWait := none }

/-- The records that a context still owes are discarded (Table 3-16). -/
def dropExtracts (s : State) (u c : Nat) : State :=
  let s := if extractsDue s u c = 0 then s else regOr s (rxuReg u 0x6004) 4
  match (rxu s u).rexWait with
  | some w => if w.1 = c then rexDone s u else s
  | none => s

/-- The context of a stream ends without reaching END (R293): its jobs, its issued ops and outcomes not yet recorded are gone. It keeps
its area while its run lasts. -/
def endCtx (s : State) (u c : Nat) : State :=
  let s := modCtx (dropExtracts s u c) u c fun k => { area := k.area, placed := k.placed }
  let s := modRxu s u fun x => { x with eng := mapVals (fun e => e.filter fun j => j.uid.isSome || j.c != c) x.eng }
  { s with ticketOps := s.ticketOps.filter fun t => !(t.u == u && t.c == c),
           ticketsReady := s.ticketsReady.filter fun t => !(t.u == u && t.c == c),
           moves := s.moves.filter fun t => !(t.u == u && t.c == c) }

/-- A stream's run is over: its context goes, and its network program when no other context uses it (R290). -/
def closeRun (s : State) (u c : Nat) : State :=
  let s := endCtx s u c
  let s := modStream s u c fun x => { x with run := none, tasks := [] }
  modRxu s u fun x =>
    let ps := x.progs.map fun p => { p with users := p.users.filter (· != c) }
    { x with ctxs := sdel x.ctxs c, progs := ps.filter fun p => !p.users.isEmpty }

/-- What the run of a stream may reach: what its SLOT_RUN may (R223). -/
def runReach (s : State) (u c : Nat) : Reach :=
  match (stream s u c).run with
  | some r => reachOf s r.uid r.q
  | none => { q := sget 0 s.ctxQueue (8 * u + c) }

/-- The streams that run slot tasks for a queue, as (unit, local stream). -/
def runsOf (s : State) (q : Nat) : List (Nat × Nat) :=
  s.rxus.flatMap fun x => (x.2.streams.filter fun y => match y.2.run with | some r => r.q == q && !r.void | none => false).map fun y => (x.1, y.1)

/-- A run of a destroyed or killed queue (R188): its oldest open task goes on without its context and without results; the later ones are
abandoned. -/
def voidRun (s : State) (u c : Nat) : State :=
  if (stream s u c).tasks.isEmpty then closeRun s u c
  else
    modStream (endCtx s u c) u c fun x =>
      { x with run := x.run.map fun r => { r with left := 0, void := true },
               tasks := (x.tasks.take 1).map fun t => { t with begun := true, ended := true, current := none, dets := [] } }

/-- A slot task of the queue is open. -/
def tasksOpen (s : State) (q : Nat) : Bool :=
  s.rxus.any fun x => x.2.streams.any fun y => (match y.2.run with | some r => r.q == q | none => false) && !y.2.tasks.isEmpty

/-! ## Engines -/

/-- The hedges that run a step of the queue. -/
def hedgesRunning (s : State) (q : Nat) : List Nat :=
  (List.range 16).filter fun h => match (hedge s h).run with
    | some r => (match findStep s r.uid with | some t => t.q == q | none => false)
    | none => false

/-- The arrays that are being loaded for the queue. -/
def arraysLoading (s : State) (q : Nat) : List Nat :=
  (s.arrays.filter fun x => match x.2.loads.head? with | some j => j.started && j.q == q && j.why != .reload | none => false).map (·.1)

/-- The operations of the queue that a matrix array or vector engine has begun, as (unit, engine) (R202). -/
def opsBegun (s : State) (q : Nat) : List (Nat × Nat) :=
  s.rxus.flatMap fun x => (x.2.eng.filter fun e => e.2.any fun j => j.q == q && j.left.isSome).map fun e => (x.1, e.1)

/-- An engine runs an atomic unit of the queue (R248): a hedge a step, an array a load, a receiver unit a slot task, a matrix array or
vector engine an operation. -/
def unitRuns (s : State) (q : Nat) : Bool :=
  !(hedgesRunning s q).isEmpty || !(arraysLoading s q).isEmpty || tasksOpen s q || !(opsBegun s q).isEmpty

/-- The operations of a queue that an engine has begun leave it (R202, R264). -/
def stopOps (s : State) (q : Nat) : State :=
  (opsBegun s q).foldl (fun s x => dropTokens (modRxu s x.1 fun r =>
    { r with eng := sset r.eng x.2 ((sget [] r.eng x.2).filter fun j => !(j.q == q && j.left.isSome)) }) (ownEngine x.1 x.2)) s

/-- The units in progress are abandoned without being finished (R264): an array that was being loaded is left EMPTY. -/
def stopUnits (s : State) (q : Nat) : State :=
  let s := stopOps s q
  let s := (hedgesRunning s q).foldl (fun s h => match (hedge s h).run with
    | some r => stepOver s h r.arrays
    | none => s) s
  (arraysLoading s q).foldl (fun s n =>
    dropTokens (modArr s n fun a => { a with st := .empty, img := none, held := none, loads := a.loads.drop 1 }) (ownLoad n)) s

/-- Loads whose image the data mover carries end at the burst they have reached (R248, R263, R270), and leave their arrays EMPTY. -/
def stopMoverLoads (s : State) (q : Nat) : State :=
  ((arraysLoading s q).filter fun n => match (arr s n).loads.head? with | some j => moverLoad j.why | none => false).foldl (fun s n =>
    dropTokens (modArr s n fun a => { a with st := .empty, img := none, held := none, loads := a.loads.drop 1 }) (ownLoad n)) s

/-- A load made for a command. -/
def loadOf (uid : Nat) (j : LoadJob) : Bool :=
  match j.why with | .cmd u => u == uid | .copy u => u == uid | .rotation u => u == uid | .reload => false

/-- Tokens asked for or held by engines that have nothing left to run go back. -/
def freeIdleTokens (s : State) : State :=
  let s := (List.range 16).foldl (fun s h =>
    let s := if (hedge s h).run.isNone && (hedge s h).chosen.isNone then dropTokens s (ownStep h) else s
    if (hedge s h).closes.isEmpty then dropTokens s (ownOut h) else s) s
  let s := if s.movers.isEmpty && s.moves.isEmpty && s.rotations.isEmpty then dropTokens s ownMover else s
  let s := s.arrays.foldl (fun s x => if x.2.loads.isEmpty then dropTokens s (ownLoad x.1) else s) s
  s.rxus.foldl (fun s x => (List.range 4).foldl (fun s e =>
    if (sget [] x.2.eng e).isEmpty then dropTokens s (ownEngine x.1 e) else s) s) s

/-- Hedge h has nothing more to do with a command: a step of it that runs is abandoned, a claim made for it goes back, and its records,
opens and closes leave. -/
def dropOnHedge (s : State) (uid h : Nat) : State :=
  let s := match (hedge s h).run with
    | some r => if r.uid == uid then stepOver s h r.arrays else s
    | none => s
  let s := if (hedge s h).chosen == some uid then dropTokens (modHedge s h fun e => { e with chosen := none }) (ownStep h) else s
  let s := if (match (hedge s h).closes.head? with | some c => c.uid == uid | none => false) then dropTokens s (ownOut h) else s
  freeRecords (modHedge s h fun e => { e with opens := e.opens.filter (·.uid != uid), closes := e.closes.filter (·.uid != uid) }) h uid

/-- A reduction of a command goes on without it. -/
def releaseRed (uid : Nat) (r : Red) : Red := if r.uid == some uid then { r with uid := none } else r

/-- Everything the engines hold of a command goes, the command itself apart: waiting loads, records, slots and borrows, opens, closes,
claims, lists, engine operations, frames; a reduction it took part in goes on without results (R137). -/
def dropWork (s : State) (uid : Nat) : State :=
  let s := (List.range 16).foldl (fun s h => dropOnHedge s uid h) s
  let s := { s with arrays := mapVals (fun a => { a with loads := a.loads.filter fun j => j.started || !loadOf uid j }) s.arrays }
  let s := { s with steps := s.steps.filter (·.uid != uid), rotations := s.rotations.filter (·.uid != uid),
                    claimsWaiting := s.claimsWaiting.filter (· != uid), movers := s.movers.filter (·.uid != uid),
                    macs := mapVals (fun m => { m with tx := m.tx.filter (·.uid != uid) }) s.macs,
                    rxus := mapVals (fun x => { x with eng := mapVals (fun e => e.filter (·.uid != some uid)) x.eng }) s.rxus,
                    ranks := sdel s.ranks uid,
                    utr := { s.utr with reds := s.utr.reds.map (releaseRed uid) } }
  freeIdleTokens s

/-- The groups of a queue return to free on every hedge (R137, R138). -/
def dropQueueGroups (s : State) (q : Nat) : State :=
  (List.range 16).foldl (fun s h =>
    (((hedge s h).groups.filter fun g => g.2.q == q).map (·.1)).foldl (fun s g => dropGroup s h g) s) s

/-- The ops that the queue's slot tasks issued and that are dispatched go without outcomes (R293). -/
def dropTickets (s : State) (q : Nat) : State :=
  let cs := s.cmds.filter fun c => match c.src with | .ticket _ _ _ => cmdQueue s c == q | .queue _ => false
  cs.foldl (fun s c =>
    let s := dropWork s c.uid
    { s with cmds := s.cmds.filter (·.uid != c.uid) }) s

/-- The begun INDIRECTs of a stopped queue (R236): none dispatches a further slot, they will complete with the stop's status, and CI passes
one whose last slot had not been dispatched. -/
def stopIndirects (s : State) (q : Nat) (st : St) : State :=
  modQueue s q fun k =>
    { k with ci := match sendingInd k with | some n => if n.sent < n.count then k.ci + 1 else k.ci | none => k.ci,
             indirects := k.indirects.map fun n => { n with stop := some st } }

/-- A command of a stopped queue ends with the stop's status; an INDIRECT when the last of its dispatched slots does (R236, R241). -/
def endStopped (s : State) (q : Nat) (st : St) (c : Cmd) : State :=
  let s := dropWork s c.uid
  if c.op = 11 ∧ c.sub.isNone then
    match (queue s q).indirects.find? fun n => n.uid == c.uid with
    | some n => if n.over then indirectDone s q n else s
    | none => complete s c.uid st
  else complete s c.uid st

/-- The queue's dispatched commands end with a status, in dispatch order. -/
def completeAll (s : State) (q : Nat) (st : St) : State :=
  let s := stopIndirects s q st
  (cmdsOf s q).foldl (fun s c => endStopped s q st c) s

/-- The group that a step names stands open for it on its first hedge (R126). -/
def groupStands (s : State) (r : StepRun) : Bool :=
  match group s ((allHedges r.spec).headD 0) r.spec.group with
  | some g => g.q == r.q && g.hedges == hedgeMask r.spec && g.span == (spanHs r.spec 0).length && g.records == r.spec.records
  | none => false

/-- A step of a drained queue closes its group with the sums that have landed (R138, R159): it carries the close flag and the group is open
or closing for it, or it is a rotation's. -/
def closesUnderDrain (s : State) (r : StepRun) : Bool :=
  !rotEnds s r.uid && (!r.spec.opens || r.opened) && (r.spec.closes || (findRot s r.uid).isSome) &&
  (!r.closing.isEmpty || groupStands s r)

/-- The spans of a step whose close has not begun. -/
def spansOpen (r : StepRun) : List Nat := (List.range r.spec.spans.length).filter fun k => !r.closing.contains k

/-- A kept step of a drained queue (R138, R159): it will complete DRAINED, its records leave, nothing of its rotation goes on but the
claim, and every span whose close has not begun closes with CANCEL. -/
def drainClose (s : State) (uid : Nat) : State :=
  match findStep s uid with
  | none => s
  | some r =>
    let s := modRot (addStatus s uid .drained) uid fun t => { t with waitMark := none, loadsLeft := [], loading := false }
    let s := { s with arrays := mapVals (fun a => { a with loads := a.loads.filter fun j => j.started || !loadOf uid j }) s.arrays }
    let s := (allHedges r.spec).foldl (fun s h => freeRecords s h uid) s
    (spansOpen r).foldl (fun s k => beginClose s r k true) s

/-- The queue's groups that no kept step closes return to free (R138). -/
def dropUnclosed (s : State) (q : Nat) (keep : List Nat) : State :=
  let kept := keep.filterMap (findStep s)
  (List.range 16).foldl (fun s h =>
    (((hedge s h).groups.filter fun g => g.2.q == q &&
      !kept.any fun r => r.spec.group == g.1 && (allHedges r.spec).contains h).map (·.1)).foldl (fun s g => dropGroup s h g) s) s

end Sys2Proof.Machine
end

