-- ==== Sys2Proof/Machine/Seq.lean ====
section
/-! DEFINITION. The sequencer core of a receiver unit as network programs see it (R278 to R293): contexts and their turns,
tickets and outcomes, and the engine-op instructions. -/

namespace Sys2Proof.Machine

/-! ## Contexts -/

/-- A register of a context; x0 reads 0. -/
def ctxReg (k : Ctx) (r : Nat) : Word := if r = 0 then 0 else sget 0 k.regs r

/-- A register of a context written; a write of x0 is discarded. -/
def Ctx.put (k : Ctx) (r : Nat) (w : Word) : Ctx := if r = 0 then k else { k with regs := sset k.regs r w }

/-- The queue whose slot task a context runs (R285). -/
def ctxOwner (s : State) (u c : Nat) : Nat := sget 0 s.ctxQueue (8 * u + c)

/-- The context that runs on a core. -/
def runningOn (s : State) (u : Nat) : Option Nat :=
  ((rxu s u).ctxs.find? fun x => x.2.st == .running).map (·.1)

/-- With no context running, the next ready one in ascending local stream order runs (R290). -/
def schedule (s : State) (u : Nat) : State :=
  if (runningOn s u).isSome then s
  else
    match nextAfter (rxu s u).lastCtx (((rxu s u).ctxs.filter fun x => x.2.st == .ready).map (·.1)) with
    | none => s
    | some c => modRxu (modCtx s u c fun k => { k with st := .running }) u fun x => { x with lastCtx := some c }

/-- The running instruction has been carried out: the pc passes it, and it counts as retired (R279). -/
def retire (s : State) (u c : Nat) (f : Ctx → Ctx) : State :=
  modRxu (modCtx s u c fun k => let k := f k; { k with pc := k.pc + 4 }) u fun x => { x with retired := x.retired + 1 }

/-- An exception in U-mode ends a context (R292): the trap registers record it; its outstanding tickets go on. -/
def trapCtx (s : State) (u c cause : Nat) : State :=
  let pc := (ctx s u c).pc
  let s := modRxu s u fun x => { x with lastTrap := BitVec.ofNat 32 (cause % 256 + c * 256), epc := pc }
  let s := regOr s (mgtReg (0x4000 + 0x40 * coreId u)) (2 ^ 8)
  let s := modTask s u c fun t => { t with ended := true, bad := true }
  schedule (modCtx s u c fun k => { k with st := .none }) u

/-! ## Tickets (R284) -/

/-- An outcome word. -/
def outcomeWord (st : St) (flags : Nat) : Word := BitVec.ofNat 32 (st.code + flags % 65536 * 65536)

/-- How many tickets back a ticket was issued, modulo 2^32: 1 for the last one, 0 for the next. -/
def Ctx.back (k : Ctx) (tk : Word) : Nat := (BitVec.ofNat 32 k.next - tk).toNat

/-- The ticket is one of the context's last 64. -/
def Ctx.recent (k : Ctx) (tk : Word) : Bool := decide (1 ≤ k.back tk) && decide (k.back tk ≤ Config.keptTickets)

/-- What a WAIT or POLL of a ticket returns; none while it is pending. -/
def outcomeOf (k : Ctx) (tk : Word) : Option Word :=
  if k.out.any fun x => x.1 == tk then none
  else match k.outcomes.find? fun x => x.1 == tk && k.recent tk with
    | some x => some x.2
    | none => some (if k.back tk ≠ 0 ∧ k.back tk ≤ k.next then 0xFE else 0xFF)

/-- A context issues its next ticket to a target. -/
def newTicket (s : State) (u c rd tgt : Nat) : State × Word :=
  let n := BitVec.ofNat 32 (ctx s u c).next
  (modCtx s u c fun k => ({ k with next := k.next + 1, out := k.out ++ [(n, tgt)] } : Ctx).put rd n, n)

/-- A ticket's outcome is ready (R284). -/
def ready (s : State) (u c : Nat) (n : Word) (st : St) (fl : Nat) : State :=
  { s with ticketsReady := s.ticketsReady ++ [{ u := u, c := c, n := n, status := st, flags := fl }] }

/-- An ECALL or a mailbox name in U-mode (R301): the core reaches the host and the other receiver-unit cores. -/
def mayTalk (u r : Nat) : Bool := r == 0 || (decide (0x20 ≤ r) && decide (r ≤ 0x23) && r != coreId u)

/-- What EOP.MWAIT waits for holds. -/
def mwaitHolds (s : State) (u : Nat) (arg : Word) : Bool :=
  let r := fieldOf arg.toNat 7 0
  if bitOf arg.toNat 8 then !(chan s (coreId u) r).go
  else !(chan s r (coreId u)).queue.isEmpty || (chan s r (coreId u)).word.isSome

/-- The fields of a unit-local job block that Table 12-5 names, by KIND, as (offset, width). -/
def jobFields (kind : Nat) : List (Nat × Nat) :=
  match kind with
  | 2 => [(0, 1), (1, 1), (2, 2), (4, 4), (8, 8), (0x10, 8)]
  | 3 => [(0, 1), (1, 1), (4, 4), (8, 8), (0x10, 8)]
  | 4 => [(0, 1), (4, 4), (8, 8), (0x10, 4), (0x14, 4), (0x18, 4)]
  | 5 => [(0, 1), (4, 4), (8, 8), (0x10, 8)]
  | 6 => [(0, 1), (8, 8)]
  | _ => [(0, 1)]

/-- The slot descriptor of a stream's run. -/
def slotDesc (s : State) (u c : Nat) : List Byte := match (stream s u c).run with | some r => r.desc | none => []

/-- The trellis block of a stream's run, as its start check read it (R192). -/
def trellisBlock (s : State) (u c : Nat) : List Byte := match (stream s u c).run with | some r => r.trellis | none => []

/-- A unit-local job block obeys Table 12-5 (R286). -/
def jobOk (s : State) (u c : Nat) (b : List Byte) : Bool :=
  let kind := leAt b 0 1
  let d := slotDesc s u c
  decide (1 ≤ kind) && decide (kind ≤ 6) &&
  ((List.range 0x30).all fun i => (jobFields kind).any (fun f => decide (f.1 ≤ i) && decide (i < f.1 + f.2)) || leAt b i 1 == 0) &&
  (match kind with
   | 2 => (leAt b 1 1 == 7 || leAt b 1 1 == 9) && decide (1 ≤ leAt b 2 2) && decide (leAt b 2 2 ≤ 4096) &&
       decide (2 ^ leAt d 0x0C 1 + leAt d 0x10 2 ≤ leAt b 4 4)
   | 3 => leAt d 7 1 == 0 && decide (leAt b 1 1 < leAt (trellisBlock s u c) 0x12 1) && decide (leAt b 4 4 ≤ 65536)
   | 5 => decide (1 ≤ leAt b 4 4) && decide (leAt b 4 4 ≤ 32768)
   | _ => true)

/-- The status that an op block for FRONT, MATRIX or VECTOR is refused with, OK where it is accepted (R285, Table 12-4). -/
def opCheck (s : State) (u c tgt : Nat) (b : List Byte) : St :=
  let op := slotOp b
  let allowed := if tgt = 0 then [0, 4, 8, 9, 10].contains op else if tgt = 1 then op == 6 else op == 7
  if 0x40 ≤ op then .priv
  else if !allowed || slotIrq b || (decide (1 ≤ tgt) && leAt b 0x18 1 != u) then .format
  else slotCheck s (ctxOwner s u c) false b

/-- EOP.ISSUE with a free ticket (R283, R285, R286). -/
def doIssue (s : State) (u c rd : Nat) (addr tgt : Word) (b : List Byte) : State :=
  let a := addr.toNat
  let t := tgt.toNat % 4
  let r := newTicket s u c rd t
  let s := r.1
  let n := r.2
  if 4 ≤ tgt.toNat ∨ a % 64 ≠ 0 then ready s u c n .format 0
  else if t = 3 then
    if !jobOk s u c b then ready s u c n .format 0
    else
      let j : Job := { tk := n, addr := a, block := b }
      modCtx s u c fun k => { k with jobs := k.jobs ++ [j] }
  else
    match opCheck s u c t b with
    | .ok => { s with ticketOps := s.ticketOps ++ [{ u := u, c := c, n := n, target := t, slot := b,
                                                      wins := (reachNow s (ctxOwner s u c)).wins }] }
    | st => ready s u c n st 0

/-- EOP.MOVE with a free ticket (R283, R287): it waits for a burst of the data mover (R16). -/
def doMove (s : State) (u c rd : Nat) (addr arg : Word) (b : List Byte) : State :=
  let a := addr.toNat
  let len := fieldOf arg.toNat 12 0
  let dev := leAt b 0 8
  let q := ctxOwner s u c
  let r := newTicket s u c rd 4
  let s := r.1
  if len % 16 ≠ 0 ∨ len = 0 ∨ 4096 < len ∨ a % 16 ≠ 0 ∨ dev % 16 ≠ 0 then ready s u c r.2 .format 0
  else if !reaches s (runReach s u c) dev len then ready s u c r.2 .aperture 0
  else
    let m : MoveOp := { u := u, c := c, n := r.2, q := q, loc := a, dev := dev, len := len, out := bitOf arg.toNat 31 }
    { s with moves := s.moves ++ [m] }

/-- The ENQUEUE slot that an EOP.ENQ stands for. -/
def enqSlot (t n : Nat) : List Byte := [BitVec.ofNat 8 12] ++ List.replicate 23 0 ++ toLe 2 t ++ toLe 2 n ++ List.replicate 36 0

/-- EOP.ENQ with a free ticket (R283, R288): it acts as an ENQUEUE of the owning queue, with slots from local memory. -/
def doEnq (s : State) (u : UIx) (c : LIx) (rd : Nat) (addr arg : Word) (b : List Byte) : State :=
  let n := fieldOf arg.toNat 24 16 + 1
  let t := fieldOf arg.toNat 15 0
  let q := ctxOwner s u.val c.val
  let r := newTicket s u.val c.val rd 5
  let s := r.1
  let slot := enqSlot t n
  if 2 ^ 25 ≤ arg.toNat ∨ addr.toNat % 64 ≠ 0 ∨ 256 < n ∨ 16384 ≤ t then ready s u.val c.val r.2 .format 0
  else if enqueuePriv s q slot then ready s u.val c.val r.2 .priv 0
  else
    let cmd : Cmd := { uid := s.nextUid, src := .ticket u c r.2, op := 12, slot := slot, data := b }
    let s := { s with cmds := s.cmds ++ [cmd], nextUid := s.nextUid + 1 }
    if !enqueueOk s t n then complete s cmd.uid .format
    else if ticketWaits s u.val c.val r.2 then s else enqueueTry s cmd

/-- An engine op loads its operand (R280, R281): a poisoned quad raises an access fault. -/
def withLocal (s : State) (u c a len : Nat) (f : State → List Byte → State) : State :=
  let r := localLoad s u a len
  match r.2 with
  | some b => f r.1 b
  | none => trapCtx r.1 u c 5

/-- Slots that an EOP.ENQ takes, by its rs2. -/
def enqLen (arg : Word) : Nat := 64 * (fieldOf arg.toNat 24 16 + 1)

/-- The instruction that a context is blocked in goes on where it can. -/
def unblock (s : State) (u : UIx) (c : LIx) : State :=
  let k := ctx s u.val c.val
  let go := fun (s : State) => retire s u.val c.val fun k => { k with st := .ready }
  let free := decide (k.out.length < Config.maxTickets)
  let on := withLocal s u.val c.val
  match k.st with
  | .blocked (.issue rd a t) => if free then on a.toNat 64 fun s b => go (doIssue s u.val c.val rd a t b) else s
  | .blocked (.move rd a t) => if free then on (a.toNat - 16) 16 fun s b => go (doMove s u.val c.val rd a t b) else s
  | .blocked (.enq rd a t) => if free then on a.toNat (enqLen t) fun s b => go (doEnq s u c rd a t b) else s
  | .blocked (.wait rd tk) => match outcomeOf k tk with
    | some w => go (modCtx s u.val c.val fun k => k.put rd w)
    | none => s
  | .blocked (.mwait rd arg) => if mwaitHolds s u.val arg then go (modCtx s u.val c.val fun k => k.put rd 0) else s
  | _ => s

/-- Every blocked context of a unit looks again, and the core takes its next context. -/
def wake (s : State) (u : UIx) : State :=
  schedule ((List.finRange 8).foldl (fun s c => unblock s u c) s) u.val

/-- A context that waits in WFI goes on (R279). -/
def endWfi (s : State) (u c : Nat) : State :=
  if (ctx s u c).st = .blocked .wfi then retire s u c fun k => { k with st := .ready } else s

/-- A mailbox channel changed from `old` to `s`: a block or word that arrived at a core, or GO that cleared at one, ends the waits of that
core's contexts in WFI, and the others look again (R279, R283). -/
def mailEvent (old s : State) (snd rcv : Nat) : State :=
  let o := chan old snd rcv
  let c := chan s snd rcv
  let cleared := o.go && !c.go
  let came := decide (o.queue.length < c.queue.length) || (o.word.isNone && c.word.isSome)
  (List.finRange 4).foldl (fun s u =>
    if (coreId u.val = snd ∧ cleared) ∨ (coreId u.val = rcv ∧ came) then
      wake ((List.range 8).foldl (fun s c => endWfi s u.val c) s) u
    else s) s

/-- A send channel written (R295, R296, R298, Table 12-7). -/
def txWrite (s : State) (snd rcv o v : Nat) : State :=
  if !chanExists s snd rcv then s
  else if o < 0x40 then dataWrite s snd rcv (o / 4) (BitVec.ofNat 32 v)
  else if o = 0x40 then
    let t := if bitOf v 3 then modChan s snd rcv fun c => { c with ignored := false } else s
    let t := if bitOf v 0 then goRun t snd rcv else t
    mailEvent s (if bitOf v 1 then withdrawRun t snd rcv else t) snd rcv
  else if o = 0x44 then mailEvent s (wordSend s snd rcv (BitVec.ofNat 32 v)) snd rcv
  else if o = 0x48 then (if bitOf v 1 then modChan s snd rcv fun c => { c with ovTx := false } else s)
  else s

/-- A receive channel written (R297, Table 12-7). -/
def rxWrite (s : State) (snd rcv o v : Nat) : State :=
  if !chanExists s snd rcv then s
  else if o = 0x44 then (if bitOf v 0 then mailEvent s (takeRun s snd rcv) snd rcv else s)
  else if o = 0x4C then (if bitOf v 1 then modChan s snd rcv fun c => { c with ovRx := false } else s)
  else s

/-- Every mailbox wait of every core looks again. -/
def wakeAll (s : State) : State := (List.finRange 4).foldl (fun s u => wake s u) s

/-! ## The instructions -/

/-- An instruction of the context that runs on unit u's core; nothing where none runs (log 8). -/
def onCore (s : State) (u : UIx) (f : State → LIx → Ctx → State) : State :=
  match runningOn s u.val with
  | some c => if h : c < 8 then f s ⟨c, h⟩ (ctx s u.val c) else s
  | none => s

/-- The running context blocks, and the core takes its next one (R290). -/
def blockIn (s : State) (u c : Nat) (b : Block) : State := schedule (modCtx s u c fun k => { k with st := .blocked b }) u

/-- EOP.ISSUE: an op block outside the task region or poisoned raises an access fault (R280, R281). -/
def eopIssueRun (s : State) (u : UIx) (rd rs1 rs2 : Nat) : State :=
  onCore s u fun s c k =>
    let a := ctxReg k rs1
    if !inTask a.toNat 64 then trapCtx s u.val c.val 5
    else if Config.maxTickets ≤ k.out.length then blockIn s u.val c.val (.issue rd a (ctxReg k rs2))
    else withLocal s u.val c.val a.toNat 64 fun s b => retire (doIssue s u.val c.val rd a (ctxReg k rs2) b) u.val c.val id

/-- EOP.MOVE. -/
def eopMoveRun (s : State) (u : UIx) (rd rs1 rs2 : Nat) : State :=
  onCore s u fun s c k =>
    let a := ctxReg k rs1
    let len := fieldOf (ctxReg k rs2).toNat 12 0
    if !inTask (a.toNat - 16) (len + 16) ∨ a.toNat < 16 then trapCtx s u.val c.val 5
    else if Config.maxTickets ≤ k.out.length then blockIn s u.val c.val (.move rd a (ctxReg k rs2))
    else withLocal s u.val c.val (a.toNat - 16) 16 fun s b =>
      retire (doMove s u.val c.val rd a (ctxReg k rs2) b) u.val c.val id

/-- EOP.ENQ. -/
def eopEnqRun (s : State) (u : UIx) (rd rs1 rs2 : Nat) : State :=
  onCore s u fun s c k =>
    let a := ctxReg k rs1
    let t := ctxReg k rs2
    if !inTask a.toNat (enqLen t) then trapCtx s u.val c.val 5
    else if Config.maxTickets ≤ k.out.length then blockIn s u.val c.val (.enq rd a t)
    else withLocal s u.val c.val a.toNat (enqLen t) fun s b => retire (doEnq s u c rd a t b) u.val c.val id

/-- EOP.WAIT. -/
def eopWaitRun (s : State) (u : UIx) (rd rs1 : Nat) : State :=
  onCore s u fun s c k =>
    match outcomeOf k (ctxReg k rs1) with
    | some w => retire s u.val c.val fun k => k.put rd w
    | none => blockIn s u.val c.val (.wait rd (ctxReg k rs1))

/-- EOP.POLL. -/
def eopPollRun (s : State) (u : UIx) (rd rs1 : Nat) : State :=
  onCore s u fun s c _ => retire s u.val c.val fun k => k.put rd ((outcomeOf k (ctxReg k rs1)).getD 0x80)

/-- EOP.MWAIT: a channel that U-mode may not reach raises an access fault (R301). -/
def eopMwaitRun (s : State) (u : UIx) (rd rs1 : Nat) : State :=
  onCore s u fun s c k =>
    let arg := ctxReg k rs1
    if !mayTalk u.val (fieldOf arg.toNat 7 0) then trapCtx s u.val c.val 5
    else if mwaitHolds s u.val arg then retire s u.val c.val fun k => k.put rd 0
    else blockIn s u.val c.val (.mwait rd arg)

/-- WFI (R279). -/
def wfiRun (s : State) (u : UIx) : State := onCore s u fun s c _ => blockIn s u.val c.val .wfi

/-- ECALL YIELD (R291): the core goes to the next ready context; this one resumes at the next switch. -/
def yieldRun (s : State) (u : UIx) : State :=
  onCore s u fun s c _ => schedule (retire s u.val c.val fun k => { k with st := .ready }) u.val

/-- ECALL END (R291): the task is over. -/
def endRun (s : State) (u : UIx) : State :=
  onCore s u fun s c _ =>
    let s := retire s u.val c.val fun k => { k with st := .none }
    schedule (modTask s u.val c.val fun t => { t with ended := true }) u.val

/-- The message in progress is not delivered (Table 8-6). -/
def dropMessage (t : Task) : Task := { t with dropped := t.dropped + 1, current := none }

/-- ECALL NOTE (R291): a0 [0] HDR_FAIL, which also releases the freeze, [1] TB_MISMATCH, [2] one message to DROPPED. -/
def noteRun (s : State) (u : UIx) : State :=
  onCore s u fun s c k =>
    let a0 := (ctxReg k 10).toNat
    let s := modTask s u.val c.val fun t =>
      let t := { t with hdrFail := t.hdrFail || bitOf a0 0, tb := t.tb || bitOf a0 1 }
      if bitOf a0 2 then dropMessage t else t
    let s := if bitOf a0 0 then releaseFreeze s u.val c.val else s
    retire s u.val c.val id

/-- U_MODE_EXCEPTION (R292). -/
def exceptionRun (s : State) (u : UIx) (cause : Nat) : State := onCore s u fun s c _ => trapCtx s u.val c.val cause

end Sys2Proof.Machine
end

