-- ==== Sys2Proof/Machine/Slottask.lean ====
section
/-! DEFINITION. Slot runs and slot tasks (R182 to R188): the start checks of SLOT_RUN with its trellis block (R192), network program
(R289, R290) and extraction program (R81), the start of a task's context, its status entry, its deadline, and the enables of the unit
and its extractor. -/

namespace Sys2Proof.Machine

/-! ## Start checks -/

/-- KIND is LLR_OUT. -/
def sdLlr (d : List Byte) : Bool := leAt d 7 1 == 1
/-- DROP_LATE. -/
def sdDropLate (d : List Byte) : Bool := bitOf (leAt d 9 1) 0
/-- CAL_EN. -/
def sdCal (d : List Byte) : Bool := bitOf (leAt d 9 1) 1
/-- DEADLINE. -/
def sdDeadline (d : List Byte) : Nat := leAt d 8 1

/-- The limits of Table 8-5, for a stream with a capture ring of `cap` samples. -/
def slotDescOk (d : List Byte) (cap : Nat) : Bool :=
  let f := fun o n => leAt d o n
  f 0 4 == 0x44544C53 && f 4 2 == 1 && decide (f 6 1 ≤ 15) && decide (f 7 1 ≤ 1) && decide (1 ≤ f 8 1) && decide (f 8 1 ≤ 8) &&
  decide (f 9 1 ≤ 3) && decide (1 ≤ f 0xA 2) && decide (f 0xA 2 ≤ 256) && decide (6 ≤ f 0xC 1) && decide (f 0xC 1 ≤ 12) &&
  f 0xD 1 != 0 && f 0xE 1 != 0 && decide (f 0xF 1 ≤ 4) && decide (2 * f 0x10 2 ≤ 2 ^ f 0xC 1) && decide (f 0x12 2 ≤ f 0x10 2) &&
  decide (2 * f 0x14 4 ≤ cap) && (sdCal d || (f 0x30 8 == 0 && f 0x38 8 == 0)) && f 0x40 8 % 32 == 0 &&
  decide (1 ≤ f 0x48 2) && decide (f 0x48 2 ≤ 4096) && f 0x58 8 == 0 &&
  (if sdLlr d then f 0x20 8 == 0 && f 0x28 8 == 0 && decide (1 ≤ f 0x4A 2) && decide (f 0x4A 2 ≤ 64) && f 0x4C 4 % 16 == 0 && f 0x50 8 % 16 == 0
   else f 0x4A 2 == 0 && f 0x4C 4 == 0 && f 0x50 8 == 0)

/-- A trellis parameter block obeys Table 8-7 and R192. -/
def trellisOk (b : List Byte) : Bool :=
  let k := leAt b 6 1
  let n := leAt b 7 1
  let pats := leAt b 0x12 1
  leAt b 0 4 == 0x534C5254 && leAt b 4 2 == 1 && decide (3 ≤ k) && decide (k ≤ 9) && (n == 2 || n == 3) &&
  ([8, 10, 12].all fun o => decide (leAt b o 2 < 2 ^ k)) && (n == 3 || leAt b 12 2 == 0) && decide (leAt b 14 1 ≤ 1) && decide (leAt b 15 1 ≤ 1) &&
  decide (1 ≤ pats) && decide (pats ≤ 8) && allZero (sub b 0x13 13) &&
  (List.range 8).all fun p =>
    let w := leAt b (0x20 + 4 * p) 4
    if p < pats then decide (1 ≤ fieldOf w 27 24) && decide (fieldOf w 27 24 ≤ 8) && decide (w < 2 ^ 28) else w == 0

/-- The fields of a network program header obey Table 12-6, its CHECK apart. -/
def netHdrOk (b : List Byte) : Bool :=
  leAt b 0 4 == 0x4B534154 && leAt b 4 2 == 1 && leAt b 6 2 == 0 && leAt b 8 4 % 16 == 0 && decide (16 ≤ leAt b 8 4) &&
  decide (leAt b 8 4 ≤ 131072) && leAt b 12 4 % 16 == 0 && leAt b 16 4 % 16 == 0 && leAt b 20 4 % 16 == 0 && decide (256 ≤ leAt b 20 4) &&
  leAt b 24 4 % 2 == 0 && decide (leAt b 24 4 < leAt b 8 4)

/-- The pieces of the task region in use on a core, as (start, length). -/
def taskAreas (x : Rxu) : List (Nat × Nat) :=
  ((x.progs.filter (·.placed)).map fun p => (p.base, p.code)) ++ ((x.ctxs.filter (·.2.placed)).map fun k => k.2.area)

/-- The lowest place of the task region where `n` bytes fit (log). -/
def taskPlace (as : List (Nat × Nat)) (n : Nat) : Option Nat :=
  let starts := 0x10000 :: as.map fun a => a.1 + a.2
  (starts.filter fun b => decide (b + n ≤ 0x40000) && as.all fun a => a.2 == 0 || decide (b + n ≤ a.1) || decide (a.1 + a.2 ≤ b)).min?

/-- A context that runs, or whose tickets may still write its memory. -/
def Ctx.busy (k : Ctx) : Bool := k.st != .none || !k.out.isEmpty

/-- The core with nothing in the task region but what busy contexts use. -/
def Rxu.unplaceIdle (x : Rxu) : Rxu :=
  { x with ctxs := mapVals (fun k => { k with placed := k.placed && k.busy }) x.ctxs,
           progs := x.progs.map fun p => { p with placed := p.placed && p.users.any fun l => (sget ({} : Ctx) x.ctxs l).busy } }

/-- Context l's program and then its own area placed where there is room (R290). -/
def Rxu.place (x : Rxu) (l : Nat) : Option Rxu :=
  match x.progs.find? fun p => p.users.contains l with
  | none => none
  | some p =>
    let withCode := if p.placed then some x else (taskPlace (taskAreas x) p.code).map fun b =>
      { x with progs := x.progs.map fun r => if r.addr == p.addr then { r with placed := true, base := b } else r,
               mem := mwrite x.mem b p.text, bad := x.bad.filter fun q => !(decide (b ≤ q) && decide (q < b + p.code)) }
    withCode.bind fun x =>
      let k := sget ({} : Ctx) x.ctxs l
      if k.placed then some x
      else (taskPlace (taskAreas x) k.area.2).map fun b => { x with ctxs := sset x.ctxs l { k with area := (b, k.area.2), placed := true } }

/-- A place for context l, what no context uses making room where it has to. -/
def Rxu.tryPlace (x : Rxu) (l : Nat) : Option Rxu := (x.place l).or (x.unplaceIdle.place l)

/-- A network program read and checked at the start of a run (R289, R290): it is known once, and the context needs an area of its own. What
all of them need together must not exceed the task region. -/
def loadNet (s : State) (o : Reach) (u l a : Nat) : State × St :=
  match readStruct s o (coreId u) a 32 64 with
  | (s, .stop st) => (s, st)
  | (s, .ok b) =>
    let code := leAt b 8 4
    let data := leAt b 12 4
    let own := data + leAt b 16 4 + leAt b 20 4
    if !netHdrOk b ∨ 0x30000 < own then (s, .format)
    else if !reaches s o a (32 + code + data) then (s, .aperture)
    else
      let r := readMem s o.q (coreId u) (a + 32) (code + data)
      let s := r.1
      let x := rxu s u
      let known := x.progs.any fun p => p.addr.toNat == a
      let total := (x.progs.map (·.code)).sum + (x.ctxs.map fun k => k.2.area.2).sum + own + (if known then 0 else code)
      if r.2.poison then (s, .integrity)
      else if crc32 r.2.bytes ≠ leAt b 28 4 ∨ 0x30000 < total then (s, .format)
      else
        let p : Loaded := { addr := BitVec.ofNat 64 a, text := r.2.bytes.take code, code := code, entry := leAt b 24 4,
                            data := r.2.bytes.drop code, zero := leAt b 16 4, stack := leAt b 20 4 }
        let ps := if known then x.progs else x.progs ++ [p]
        (modRxu s u fun x => { x with progs := ps.map fun p => if p.addr.toNat == a then { p with users := p.users ++ [l] } else p,
                                      ctxs := sset x.ctxs l { area := (0, own) } }, .ok)

/-- The reserved hedge that serves unit u (R99). -/
def servedBy (s : State) (u : Nat) : Nat :=
  let hs := reservedHedges s
  nth 15 hs (u % max 1 hs.length)

/-- The calibration operands of a run: a TILE_RECORDS above the SLOTS of the reserved hedge's partition 0 fails (R190). -/
def calOk (s : State) (o : Reach) (u : Nat) (d : List Byte) : State × St :=
  if !sdCal d then (s, .ok)
  else
    match readStruct s o (coreId u) (leAt d 0x38 8) 32 32 with
    | (s, .stop st) => (s, st)
    | (s, .ok b) => (s, if slotCount s (servedBy s u) 0 < (accdOf b).tileRecs then .format else .ok)

/-- The trellis block of a run read and checked (R192), in device or host memory (R222). -/
def trellisCheck (s : State) (o : Reach) (u : Nat) (d : List Byte) : State × Got (List Byte) :=
  if sdLlr d then (s, .ok [])
  else
    match readAny s o (coreId u) (leAt d 0x20 8) 64 64 with
    | (s, .stop st) => (s, .stop st)
    | (s, .ok b) => (s, if trellisOk b then .ok b else .stop .format)

/-- The device ranges that a slot descriptor names outright. -/
def slotDescRanges (d : List Byte) : List (Nat × Nat) :=
  [(leAt d 0x40 8, 32 * leAt d 0x48 2)] ++ (if sdLlr d then [(leAt d 0x50 8, leAt d 0x4A 2 * leAt d 0x4C 4)] else [])

/-- A run that ends before it starts. -/
def refuseRun (s : State) (c : Cmd) (u : Nat) (st : St) : State :=
  complete (if st = .format then regOr s (rxuReg u 4) (2 ^ 12) else s) c.uid st

/-- The checks of a run whose descriptor obeys Table 8-5: its ranges, its trellis block, its calibration and its network program. -/
def runChecks (s : State) (o : Reach) (u l : Nat) (d : List Byte) : State × Got (List Byte) :=
  if !((slotDescRanges d).all fun r => reaches s o r.1 r.2) then (s, .stop .aperture)
  else
    match trellisCheck s o u d with
    | (s, .stop st) => (s, .stop st)
    | (s, .ok t) =>
      match calOk s o u d with
      | (s, .ok) =>
        match loadNet s o u l (leAt d 0x18 8) with
        | (s, .ok) => (s, .ok t)
        | (s, st) => (s, .stop st)
      | (s, st) => (s, .stop st)

/-- SLOT_RUN (R183, R184, R367): the checks, and the run taken up; its first task opens at the next strobe. -/
def slotRunRun (s : State) (c : Cmd) : State :=
  let o := cmdReach s c
  let u := leAt c.slot 0x1A 1
  if !bitOf (bgUnits s (queueBg s o.q)) u then complete s c.uid .format
  else
    match readAny s o (coreId u) (op10 c.slot) 96 64 with
    | (s, .stop st) => refuseRun s c u st
    | (s, .ok d) =>
      match (localsOf s u).find? fun l => globalOf s u l == some (leAt d 6 1) with
      | none => refuseRun s c u .format
      | some l =>
        if !slotDescOk d (capSamples s u l) ∨ (stream s u l).run.isSome then refuseRun s c u .format
        else
          match runChecks s o u l d with
          | (s, .stop st) => refuseRun s c u st
          | (s, .ok t) =>
            let s := { s with ctxQueue := sset s.ctxQueue (8 * u + l) o.q }
            modStream s u l fun x => { x with run := some { uid := c.uid, q := o.q, desc := d, trellis := t, left := opB18 c.slot }, tasks := [] }

/-! ## Extraction programs (R76, R81) -/

/-- An extraction entry (Table 3-12). -/
structure XEntry where
  src : Nat
  bits : Nat
  flags : Nat
  feature : Nat
  unavail : Nat
  deriving DecidableEq, Repr

/-- SIDE. -/
def XEntry.side (e : XEntry) : Bool := bitOf e.flags 2
/-- ORDER_LE. -/
def XEntry.orderLe (e : XEntry) : Bool := bitOf e.flags 1

/-- Entry i of an extraction program. -/
def xEntry (b : List Byte) (i : Nat) : XEntry :=
  let o := 32 + 16 * i
  { src := leAt b o 2, bits := leAt b (o + 2) 1, flags := leAt b (o + 3) 1, feature := leAt b (o + 4) 2, unavail := leAt b (o + 8) 4 }

/-- An entry obeys R81 under a schema; ORDER_LE asks the same of every entry, a side value's code and BITS of 0 among them. -/
def xEntryOk (sch : Schema) (b : List Byte) (i : Nat) : Bool :=
  let o := 32 + 16 * i
  let e := xEntry b i
  decide (e.flags < 16) && leAt b (o + 6) 2 == 0 && leAt b (o + 12) 4 == 0 && decide (e.feature < 1024) && (sch.feat e.feature).isSome &&
  (!e.orderLe || (e.src % 8 == 0 && e.bits % 8 == 0)) &&
  (if e.side then e.bits == 0 && decide (e.src ≤ 6) else decide (1 ≤ e.bits) && decide (e.bits ≤ 32))

/-- An extraction program that passes the checks of R81, with its schema. -/
structure Xprg where
  queue : Nat
  options : Nat
  schema : Schema
  entries : List XEntry
  deriving DecidableEq, Repr

/-- The extraction program of a run read and checked (R76, R81). One that cannot be read, being misaligned, poisoned or outside the run's
windows, its schema likewise, and one whose QUEUE names no queue, is refused too (DESIGN CHOICE, log 73). -/
def readXprg (s : State) (o : Reach) (u a : Nat) : State × Option Xprg :=
  match readStruct s o (coreId u) a 32 64 with
  | (s, .stop _) => (s, none)
  | (s, .ok h) =>
    let n := leAt h 6 2
    if leAt h 0 4 ≠ 0x47525058 ∨ leAt h 4 2 ≠ 1 ∨ n = 0 ∨ 256 < n ∨ 16384 ≤ leAt h 12 2 ∨ 4 ≤ leAt h 14 1 ∨ leAt h 15 1 ≠ 0 ∨ leAt h 24 8 ≠ 0 then (s, none)
    else
      match readStruct s o (coreId u) a (32 + 16 * n) 64 with
      | (s, .stop _) => (s, none)
      | (s, .ok b) =>
        match readSchema s o (coreId u) (leAt h 16 8) with
        | (s, .stop _) => (s, none)
        | (s, .ok sch) =>
          let es := (List.range n).map (xEntry b)
          if sch.id = leAt h 8 4 && (List.range n).all (xEntryOk sch b) && allDistinct (es.map (·.feature)) then
            (s, some { queue := leAt h 12 2, options := leAt h 14 1, schema := sch, entries := es })
          else (s, none)

/-! ## The start and end of a task -/

/-- The address in `ra` at a task's start, which acts as ECALL 0 (R291): an even address of the firmware region, where no program lies. -/
def endPc : Word := BitVec.ofNat 32 (Config.endAddr.toNat % 0x8000 * 2)

/-- The context of a task, placed, enters its network program (R291): data, zero area and stack anew; the descriptor's copy lies in the
lowest 96 bytes of the stack (log). -/
def startCtx (s : State) (u l : Nat) (d : List Byte) (n : DWord) : State :=
  let x := rxu s u
  match x.progs.find? fun p => p.users.contains l with
  | none => s
  | some p =>
    let area := (sget ({} : Ctx) x.ctxs l).area
    let bytes := p.data ++ List.replicate p.zero 0 ++ padTo p.stack d
    let bad := x.bad.filter fun b => !(decide (area.1 ≤ b) && decide (b < area.1 + area.2))
    let w := fun (v : Nat) => BitVec.ofNat 32 v
    let regs : SMap Word := [(1, endPc), (2, w (area.1 + area.2)), (3, w area.1), (10, w (area.1 + p.data.length + p.zero)),
      (11, w l), (12, w (n.toNat % 2 ^ 32)), (13, w (n.toNat / 2 ^ 32))]
    let k : Ctx := { st := .ready, regs := regs, pc := w (p.base + p.entry), area := area, placed := true }
    schedule (modRxu s u fun x => { x with mem := mwrite x.mem area.1 bytes, bad := bad, ctxs := sset x.ctxs l k }) u

/-- The extraction program of a DECODE run obeys R81 at the start of a task. -/
def programOk (s : State) (u l : Nat) (d : List Byte) : State × Bool :=
  if sdLlr d then (s, true)
  else let r := readXprg s (runReach s u l) u (leAt d 0x28 8); (r.1, r.2.isSome)

/-- The oldest open task of a stream begins, once its context has its place in the task region (R81, R290): a refused extraction program
ends it with FORMAT. -/
def beginTask (s : State) (u l : Nat) : State :=
  let x := stream s u l
  match x.run, x.tasks with
  | some r, t :: _ =>
    if t.begun then s
    else
      match (rxu s u).tryPlace l with
      | none => s
      | some y =>
        let s := modTask (modRxu s u fun _ => y) u l fun t => { t with begun := true }
        match programOk s u l r.desc with
        | (s, true) => startCtx s u l r.desc t.n
        | (s, false) => modTask (regOr s (rxuReg u 0x6004) 2) u l fun t => { t with ended := true, refused := true }
  | _, _ => s

/-- Every oldest task of a unit that can begin does. -/
def beginTasks (s : State) (u : Nat) : State := (localsOf s u).foldl (fun s l => beginTask s u l) s

/-- The deadline strobe of a task has been counted (R185). -/
def taskLate (s : State) (u : Nat) (r : SlotRun) (t : Task) : Bool :=
  decide (t.n.toNat + sdDeadline r.desc ≤ (rxu s u).strobes.toNat)

/-- The flag word of a task's status and LLR headers (Table 8-6). -/
def taskFlags (late : Bool) (t : Task) : Nat := flagIf late fLate ||| flagIf t.oor fOor

/-- The position of a task in its run. -/
def taskIndex (r : SlotRun) (t : Task) : Nat := (t.n - r.n0.getD t.n).toNat

/-- The LLR region of a task. -/
def llrRegion (r : SlotRun) (t : Task) : Nat := leAt r.desc 0x50 8 + taskIndex r t % max 1 (leAt r.desc 0x4A 2) * leAt r.desc 0x4C 4

/-- An LLR block header (R196). -/
def llrHeader (s : State) (u : Nat) (r : SlotRun) (t : Task) (count : Nat) : List Byte :=
  toLe 8 t.n.toNat ++ toLe 1 (leAt r.desc 6 1) ++ toLe 1 1 ++ toLe 2 (taskFlags (taskLate s u r t) t) ++ toLe 4 count

/-- A status entry (Table 8-6). -/
def statusEntry (r : SlotRun) (t : Task) (late : Bool) (strobes : Nat) : List Byte :=
  let left := (t.dets.filter fun m => !m.excess).length + b2n t.current.isSome
  let cond := b2n t.link + 2 * b2n t.overrun + 4 * b2n t.freezeLate + 8 * b2n t.hdrFail + 16 * b2n t.tb + 32 * b2n t.excess
  toLe 8 t.n.toNat ++ toLe 1 (leAt r.desc 6 1) ++ toLe 1 t.gain ++ toLe 2 (taskFlags late t) ++ toLe 2 t.messages ++ toLe 2 t.records ++
    toLe 2 (t.dropped + left) ++ toLe 2 t.fallback ++ toLe 4 cond ++ toLe 4 strobes ++ toLe 4 0

/-- Tokens taken for good (R383): what the pool lacks is owed and taken as tokens return. -/
def holdRx (s : State) (n : Nat) : State :=
  let k := min n s.pwr.pool
  { s with pwr := { s.pwr with pool := s.pwr.pool - k, rx := s.pwr.rx + k, rxOwed := s.pwr.rxOwed + (n - k) } }

/-- A permanent holding given up: what is owed first, then what is held. -/
def releaseRx (s : State) (n : Nat) : State :=
  let o := min n s.pwr.rxOwed
  let k := min (n - o) s.pwr.rx
  returnTokens { s with pwr := { s.pwr with rxOwed := s.pwr.rxOwed - o, rx := s.pwr.rx - k } } k

/-- TOKENS_RX (R175). -/
def tokensRx (s : State) : Nat := plAt s 0x10 2

/-- The unit's capture path and gain control start (R174 to R176): the registers take effect, G enters its range, and a stream in MANUAL
queues its gain word. -/
def startUnit (s : State) (u : Nat) : State :=
  let s := holdRx s (tokensRx s)
  (localsOf s u).foldl (fun s l =>
    let s := modAgc s u l fun a =>
      let b := agcLatched s u l { a.newWindow with frozen := false, lateFreeze := false, found := [], hold := 0, release := none, blank := none }
      { b with g := if b.cls = 2 then b.manual else max (fieldOf b.range.toNat 7 0) (min (fieldOf b.range.toNat 15 8) b.g) }
    let a := (stream s u l).agc
    if a.cls = 2 then queueGain s u l a.manual else s) s

/-- The unit's EN goes to 0: the link, the gain port with a frame on it and the gain loops stop, and its permanent tokens return (R174,
R175, R179). -/
def stopUnit (s : State) (u : Nat) : State :=
  let off := fun (y : Stream) =>
    ({ y with agc := { y.agc.newWindow with frozen := false, lateFreeze := false, pend := none, found := [], release := none } } : Stream)
  let s := modRxu s u fun x => { x with linkUp := false, aligned := false, lock := 0, gcpCur := none, streams := mapVals off x.streams }
  releaseRx s (tokensRx s)

/-- The unit's shutdown is over when its last open task has written its status (R188). -/
def unitDone (s : State) (u : Nat) : State :=
  let x := rxu s u
  if !x.en.disabling ∨ (x.streams.any fun y => !y.2.tasks.isEmpty) then s
  else
    let s := modRxu s u fun x => { x with en := x.en.done }
    if (rxu s u).en.en then startUnit s u else s

/-- A run goes without a result, and with it the unit's shutdown where it was the last (R188, R268). -/
def closeRunDone (s : State) (u l : Nat) : State := unitDone (closeRun s u l) u

/-- A run of a destroyed or killed queue (R188), and the unit's shutdown where it had no open task. -/
def voidRunDone (s : State) (u l : Nat) : State := unitDone (voidRun s u l) u

/-- A run ends with a status (R183, R188). -/
def endRunWith (s : State) (u l : Nat) (r : SlotRun) (st : St) : State :=
  let s := closeRun s u l
  let s := if st = .format then regOr s (rxuReg u 4) (2 ^ 12) else s
  unitDone (complete s r.uid st) u

/-- The oldest task of a stream is complete: it leaves, and the next begins or the run ends. An exception ends the run (R292); a refused
extraction program gives the run status FORMAT, and later tasks open as before (R81; DESIGN CHOICE, log 73). -/
def taskDone (s : State) (u l : Nat) (r : SlotRun) (t : Task) : State :=
  let s := modStream (endCtx s u l) u l fun x => { x with tasks := x.tasks.drop 1 }
  let s := regAdd s (rxuReg u 0x10) 1
  let s := unitsDone s r.q 1
  let st := if t.refused then r.status.firstBad .format else r.status
  let s := modStream s u l fun x => { x with run := x.run.map fun k => { k with status := st } }
  let s := if t.bad then endRunWith s u l r .format
    else if (stream s u l).tasks.isEmpty ∧ r.left = 0 then endRunWith s u l r st
    else s
  unitDone (beginTasks s u) u

/-- The header with COUNT 0 that follows the last LLR block of a task where it fits (R196). -/
def endLlr (s : State) (u l : Nat) (r : SlotRun) (t : Task) : State :=
  if sdLlr r.desc ∧ t.llrUsed + 16 ≤ leAt r.desc 0x4C 4 then
    modTask (writeMem s r.q (0xF0 + u) (llrRegion r t + t.llrUsed) (llrHeader s u r t 0)).1 u l id
  else s

/-- The status entry of the oldest task written, and what follows (R185, R187); a run without results writes nothing (R188). -/
def writeStatus (s : State) (u l : Nat) (r : SlotRun) (t : Task) : State :=
  if r.void then beginTasks (closeRunDone s u l) u
  else
    let late := taskLate s u r t
    let s := endLlr s u l r t
    let a := leAt r.desc 0x40 8 + 32 * (taskIndex r t % max 1 (leAt r.desc 0x48 2))
    let s := (writeMem s r.q (coreId u) a (statusEntry r t late (rxu s u).strobes.toNat)).1
    let s := if late then regOr (regCount s (rxuReg u 0x14) 1) (rxuReg u 4) (2 ^ 8) else s
    let s := if t.overrun then regOr s (rxuReg u 4) (2 ^ 9) else s
    let s := if 0 < t.fallback then regOr s (rxuReg u 4) (2 ^ 11) else s
    taskDone s u l r t

/-- A detection not delivered lost its samples to the ring (R175). -/
def noteOverrun (x : Stream) (cap : Nat) (t : Task) : Task :=
  if t.dets.any fun m => decide (m.at_ + cap < x.samples) then { t with overrun := true } else t

/-- SLOT_STATUS_WRITE (R185): the window has closed, the context has ended, and everything it issued has landed. -/
def slotStatusRun (s : State) (u l : Nat) : State :=
  let x := stream s u l
  match x.run, x.tasks with
  | some r, t :: _ =>
    if t.closed && t.ended && (ctx s u l).out.isEmpty then writeStatus s u l r (noteOverrun x (capSamples s u l) t) else s
  | _, _ => s

/-- DEADLINE_EXPIRY (R83, R186, R293): a DROP_LATE task stops at its deadline strobe; records not written are discarded and the status is
written at once. -/
def deadlineRun (s : State) (u l : Nat) : State :=
  let x := stream s u l
  match x.run, x.tasks with
  | some r, t :: _ =>
    if !sdDropLate r.desc || !taskLate s u r t || r.void then s
    else
      let n := extractsDue s u l
      let s := if n = 0 then s else regCount s (rxuReg u 0x6010) n
      let mine := s.cmds.filter fun c => match c.src with | .ticket v k _ => v.val == u && k.val == l | .queue _ => false
      let s := mine.foldl (fun s c => let s := dropWork s c.uid; { s with cmds := s.cmds.filter (·.uid != c.uid) }) s
      writeStatus (endCtx s u l) u l r (noteOverrun x (capSamples s u l) { t with closed := true, ended := true, halted := true })
  | _, _ => s

/-- SLOT_STROBE (R182, R183): the strobe counts, and tasks that come to be the oldest of their streams begin. -/
def slotStrobeRun (s : State) (i : Nat) : State :=
  let s := strobeCount s i
  (strobedBy s i).foldl beginTasks s

/-! ## Enables -/

/-- The runs of a unit that is being disabled (R188): no further task opens, and they end DRAINED. -/
def drainUnitRuns (s : State) (u : Nat) : State :=
  (localsOf s u).foldl (fun s l =>
    let x := stream s u l
    match x.run with
    | none => s
    | some r =>
      if r.void then s
      else if x.tasks.isEmpty then endRunWith s u l r .drained
      else modStream s u l fun x => { x with run := some { r with left := 0, status := .drained } }) s

/-- The runs of a queue whose action is DRAIN (R263): no further task opens, and they end DRAINED, one without an open task when the drain
is complete. -/
def drainQueueRuns (s : State) (q : Nat) : State :=
  (runsOf s q).foldl (fun s y => modStream s y.1 y.2 fun x => { x with run := x.run.map fun r => { r with left := 0, status := .drained } }) s

/-- RXU_EN_WRITE (R175, R188, R268); the Pleach image may take the unit out of use (R427). -/
def rxuEnRun (s : State) (u : Nat) (on : Bool) : State :=
  if on ∧ unitLanes s u = 0 then s else
  let e := (rxu s u).en
  let s1 := modRxu s u fun x => { x with en := e.write on true }
  if on then (if !e.en ∧ !e.disabling then startUnit s1 u else s1)
  else if e.en then unitDone (drainUnitRuns (stopUnit s1 u) u) u
  else s1

/-- The EXTRACTs of a unit that have come to their turn and owe a record, as (context, ticket), with the stamps of their decodings. -/
def extractsNow (s : State) (u : Nat) : List (Nat × Nat × Word) :=
  (localsOf s u).filterMap fun l =>
    match (ctx s u l).out.find? fun x => x.2 == 3, (ctx s u l).jobs.head? with
    | some o, some j =>
      if o.1 = j.tk ∧ leAt j.block 0 1 = 4 ∧ 0 < extractsDue s u l then
        some (((stream s u l).tasks.headD {}).decoded, l, j.tk)
      else none
    | _, _ => none

/-- The EXTRACT that the extractor works on: of those at their turn, that of the earliest decoding (R82; DESIGN CHOICE, log 74). -/
def extractFirst (s : State) (u : Nat) : Option (Nat × Word) :=
  let xs := extractsNow s u
  match (xs.map (·.1)).min? with
  | some m => (xs.find? fun x => x.1 == m).map (·.2)
  | none => none

/-- REX_EN_WRITE (R84, R268, Table 3-15): the record in progress when EN is cleared is completed. -/
def rexEnRun (s : State) (u : Nat) (on : Bool) : State :=
  let w := extractFirst s u
  modRxu s u fun x =>
    { x with rex := x.rex.write on w.isSome, rexWait := if !on ∧ x.rex.en then w else x.rexWait }

end Sys2Proof.Machine
end

