-- ==== Sys2Proof/Machine/Viterbi.lean ====
section
/-! DEFINITION. The trellis decoder's computation (R193 to R195): the full-block Viterbi decoder with integer metrics, descrambling and
what is stripped. No state of the machine is named here. -/

namespace Sys2Proof.Machine

/-- A trellis code (Table 8-7): constraint length, generators, tail biting, descrambling, bits stripped, and the pattern of the block. -/
structure Code where
  k : Nat
  gens : List Nat
  tailBite : Bool
  descramble : Bool
  strip : Nat
  mask : Nat
  period : Nat
  deriving DecidableEq, Repr

/-- The code that a trellis parameter block defines, with pattern p. -/
def codeOf (b : List Byte) (p : Nat) : Code :=
  let w := leAt b (0x20 + 4 * p) 4
  { k := leAt b 6 1, gens := (List.range (leAt b 7 1)).map fun i => leAt b (8 + 2 * i) 2, tailBite := leAt b 14 1 == 1,
    descramble := leAt b 15 1 == 1, strip := leAt b 0x10 2, mask := fieldOf w 23 0, period := max 1 (fieldOf w 27 24) }

/-- Parity of the bits of a number below 2^9. -/
def parity9 (x : Nat) : Nat := ((List.range 9).foldl (fun a i => a + b2n (bitOf x i)) 0) % 2

/-- Coded bit i of input t is sent (R193). -/
def Code.sent (c : Code) (t i : Nat) : Bool := bitOf c.mask (t % c.period * c.gens.length + i)

/-- LLRs that a block of n input bits holds. -/
def Code.llrs (c : Code) (n : Nat) : Nat :=
  ((List.range n).map fun t => ((List.range c.gens.length).filter fun i => c.sent t i).length).sum

/-- The LLRs of one input after another, dropped positions 0 (R193). -/
def Code.spread (c : Code) : Nat → Nat → List Int → List (List Int)
  | 0, _, _ => []
  | n + 1, t, ls =>
    let r := (List.range c.gens.length).foldl (fun (a : List Int × List Int) i =>
      if c.sent t i then (a.1 ++ [a.2.headD 0], a.2.drop 1) else (a.1 ++ [0], a.2)) ([], ls)
    r.1 :: c.spread n (t + 1) r.2

/-- The metric of a branch: the LLR of each coded bit, + for a 0 bit and - for a 1 bit (R194). -/
def Code.branch (c : Code) (reg : Nat) (ls : List Int) : Int :=
  ((List.zip c.gens ls).map fun x => if parity9 (x.1 &&& reg) = 0 then x.2 else -x.2).sum

/-- The branch into state x from the predecessor whose oldest bit is o, with the metrics so far. -/
def Code.into (c : Code) (ms : List (Option Int)) (ls : List Int) (x o : Nat) : Option Int :=
  (nth none ms ((2 * x + o) % 2 ^ (c.k - 1))).map fun m => m + c.branch (2 * x + o) ls

/-- One step into one state: the metric that survives, the oldest bit of the surviving predecessor, and the difference to the discarded
branch (R194, R195). A tie survives from the predecessor whose oldest bit is 0. -/
def Code.select (c : Code) (ms : List (Option Int)) (ls : List Int) (x : Nat) : Option Int × Nat × Option Nat :=
  match c.into ms ls x 0, c.into ms ls x 1 with
  | some a, some b => if b ≤ a then (some a, 0, some (a - b).toNat) else (some b, 1, some (b - a).toNat)
  | some a, none => (some a, 0, none)
  | none, some b => (some b, 1, none)
  | none, none => (none, 0, none)

/-- The decoder forward over a block: the last metrics, and each step's decisions, newest first. -/
def Code.forward (c : Code) : List (List Int) → List (Option Int) → List (List (Nat × Option Nat)) → List (Option Int) × List (List (Nat × Option Nat))
  | [], ms, ds => (ms, ds)
  | ls :: t, ms, ds =>
    let r := (List.range (2 ^ (c.k - 1))).map (c.select ms ls)
    c.forward t (r.map (·.1)) (r.map (·.2) :: ds)

/-- The path back from a state: its bits in order, its first state, and the smallest difference on it. -/
def Code.trace (c : Code) : List (List (Nat × Option Nat)) → Nat → List Bool → Nat → List Bool × Nat × Nat
  | [], x, bits, m => (bits, x, m)
  | d :: t, x, bits, m =>
    let e := nth (0, none) d x
    c.trace t ((2 * x + e.1) % 2 ^ (c.k - 1)) (bitOf x (c.k - 2) :: bits) (match e.2 with | some v => min m v | none => m)

/-- The state with the largest metric, the lowest index winning a tie. -/
def bestState (ms : List (Option Int)) : Nat :=
  ((List.range ms.length).foldl (fun (a : Nat × Option Int) i =>
    match a.2, nth none ms i with
    | none, some v => (i, some v)
    | some w, some v => if w < v then (i, some v) else a
    | _, none => a) (0, none)).1

/-- Viterbi decoding of a block (R194): the input bits, PATH_MARGIN, and whether a tail-biting path starts in another state. -/
def Code.decode (c : Code) (ls : List (List Int)) : List Bool × Nat × Bool :=
  let n := 2 ^ (c.k - 1)
  if c.tailBite then
    let first := c.forward ls (List.replicate n (some 0)) []
    let second := c.forward ls first.1 []
    let x := bestState second.1
    let r := c.trace second.2 x [] (2 ^ 31 - 1)
    (r.1, r.2.2, decide (r.2.1 ≠ x))
  else
    let start := (List.range n).map fun i => if i = 0 then some (0 : Int) else none
    let r := c.trace (c.forward ls start []).2 0 [] (2 ^ 31 - 1)
    (r.1, r.2.2, false)

/-- Descrambling with x^7 + x^4 + 1, the first seven decoded bits being the scrambler's own (Table 8-7). `hist` holds the last seven
bits of the scrambler, newest first. -/
def descrambleFrom : List Bool → List Bool → List Bool
  | _, [] => []
  | hist, b :: t =>
    if hist.length < 7 then false :: descrambleFrom (b :: hist) t
    else
      let x := nth false hist 6 != nth false hist 3
      (b != x) :: descrambleFrom (x :: hist.take 6) t

/-- The PSDU bits of a decoded block (R195). -/
def Code.psdu (c : Code) (bits : List Bool) : List Bool :=
  let b := (if c.descramble then descrambleFrom [] bits else bits).drop c.strip
  if c.tailBite then b else b.take (b.length - (c.k - 1))

end Sys2Proof.Machine
end

