-- ==== Sys2Proof/Machine/Jobs.lean ====
section
/-! DEFINITION. Unit-local jobs (R75 to R83, R189 to R196, R286), the engines of a receiver unit with MATRIX and VECTOR (R200 to R203), and
the completion of tickets (R284). -/

namespace Sys2Proof.Machine

/-- A job's turn: the oldest of its context's unit-local tickets, and of the KIND named (R284). -/
def jobTurn (s : State) (u c : Nat) (tk : Word) (kind : Nat) : Option Job :=
  match (ctx s u c).jobs.find? fun j => j.tk == tk with
  | some j => if leAt j.block 0 1 = kind ∧ !ticketWaits s u c tk then some j else none
  | none => none

/-- A job ends: its result bytes go into its block, and its outcome is ready (R286). Work issued for a queue is its progress (R20; DEDUCED,
log 78). -/
def jobDone (s : State) (u c : Nat) (j : Job) (st : St) (fl : Nat) (result : List Byte) : State :=
  let s := progress s (ctxOwner s u c)
  let s := if result.isEmpty then s else localWrite s u (j.addr + 0x30) (padTo 16 result)
  ready (modCtx s u c fun k => { k with jobs := k.jobs.filter fun i => i.tk != j.tk }) u c j.tk st fl

/-- The oldest open task of a stream. -/
def headTask (s : State) (u c : Nat) : Task := (stream s u c).tasks.headD {}

/-- The message in progress, where there is one, ends undelivered. -/
def endMessage (t : Task) : Task := if t.current.isSome then dropMessage t else t

/-- DETECT (R286): the next detection in the task's window, or NONE once the window has closed. -/
def detectRun (s : State) (u c : Nat) (tk : Word) : State :=
  match jobTurn s u c tk 1 with
  | none => s
  | some j =>
    let t := headTask s u c
    match t.dets with
    | m :: rest =>
      let s := modTask s u c fun t =>
        { endMessage t with dets := rest, lost := false, current := if m.excess then none else some m }
      jobDone s u c j .ok 0 (toLe 8 (m.at_ - t.start) ++ toLe 4 (2 * b2n m.excess))
    | [] =>
      if t.closed then jobDone (modTask s u c endMessage) u c j .ok 0 (toLe 8 0 ++ toLe 4 1) else s

/-- RELEASE (R286, Table 8-3): the release sample, or a release at once where it has passed. -/
def releaseRun (s : State) (u c : Nat) (tk : Word) : State :=
  match jobTurn s u c tk 6 with
  | none => s
  | some j =>
    let at_ := leAt j.block 8 8
    let abs := (headTask s u c).start + at_
    let s := if at_ = 0 ∨ abs ≤ (stream s u c).samples then releaseFreeze s u c
      else if (stream s u c).agc.frozen ∨ (stream s u c).agc.lateFreeze then modAgc s u c fun a => { a with release := some abs } else s
    jobDone s u c j .ok 0 []

/-- An FFT or TRELLIS job joins the queue of its engine (R200). -/
def joinEngine (s : State) (u e : Nat) (j : EngJob) : State :=
  if (sget [] (rxu s u).eng e).any fun k => k.uid == j.uid && k.c == j.c && k.job == j.job then s
  else modRxu s u fun x => { x with eng := sset x.eng e (sget [] x.eng e ++ [j]) }

/-- FFT (R189): the job is issued to the FFT unit. -/
def fftRun (s : State) (u c : Nat) (tk : Word) : State :=
  match jobTurn s u c tk 2 with
  | none => s
  | some j => joinEngine s u 2 { c := c, q := ctxOwner s u c, job := j }

/-- TRELLIS (R194): the job is issued to the trellis decoder. -/
def trellisRun (s : State) (u c : Nat) (tk : Word) : State :=
  match jobTurn s u c tk 3 with
  | none => s
  | some j => joinEngine s u 3 { c := c, q := ctxOwner s u c, job := j }

/-! ## The FFT unit (R189) -/

/-- Bytes written at any address, with taint: a quad that holds a tainted byte is written poisoned (Table 14-6). `n` bounds the quads. -/
def writeSpan : Nat → State → (q who a : Nat) → List (Byte × Bool) → State × Bool
  | 0, s, _, _, _, _ => (s, false)
  | n + 1, s, q, who, a, bs =>
    if bs.isEmpty then (s, false)
    else
      let k := min (16 - a % 16) bs.length
      let c := bs.take k
      let bad := c.any (·.2)
      let s := if bad then (writePoison 1 s q (a / 16 * 16)).1 else (writeMem s q who a (c.map (·.1))).1
      let r := writeSpan n s q who (a + k) (bs.drop k)
      (r.1, r.2 || bad)

/-- The samples of a stream from index i, read from its capture ring; the Bool says one of them was poisoned. -/
def ringSamples (s : State) (u c i n : Nat) : State × List Word × Bool :=
  let cap := max 1 (capSamples s u c)
  (List.range n).foldl (fun (a : State × List Word × Bool) k =>
    let r := readMem a.1 0 (0xF0 + u) (ringAt s u c + 4 * ((i + k) % cap)) 4
    (r.1, a.2.1 ++ [BitVec.ofNat 32 (le r.2.bytes)], a.2.2 || r.2.poison)) (s, [], false)

/-- The bins of one symbol as bytes: FP32 pairs, or FP16 pairs rounded to nearest, ties to even (R189). -/
def fftBytes (half : Bool) (xs : List Word) : List Byte :=
  (List.range xs.length).flatMap fun k =>
    let v := fftBin xs k
    if half then toLe 2 (convert1 .fp32 .fp16 v.1).1 ++ toLe 2 (convert1 .fp32 .fp16 v.2).1
    else toLe 4 v.1 ++ toLe 4 v.2

/-- The symbols of an FFT job one after another, from symbol i. -/
def fftSymbols (half : Bool) (u c q n first stride dst : Nat) : Nat → State → Nat → Bool → State × Bool
  | 0, s, _, bad => (s, bad)
  | k + 1, s, i, bad =>
    let r := ringSamples s u c (first + i * stride) n
    let size := if half then 4 * n else 8 * n
    let w := writeSpan (size / 16 + 2) r.1 q (0xF0 + u) (dst + i * size) ((fftBytes half r.2.1).map fun b => (b, r.2.2))
    fftSymbols half u c q n first stride dst k w.1 (i + 1) (bad || w.2)

/-- The FFT job at the head of the unit (R189, R286): it waits until its samples are captured; a message whose samples were overwritten is
lost (R175). The Bool says the job ended. -/
def fftDone (s : State) (u : Nat) (e : EngJob) : State × Bool :=
  let c := e.c
  let b := e.job.block
  let d := slotDesc s u c
  let n := 2 ^ leAt d 0x0C 1
  let syms := leAt b 2 2
  let stride := leAt b 4 4
  let first := (headTask s u c).start + leAt b 8 8 + leAt d 0x10 2 - leAt d 0x12 2
  let half := leAt b 1 1 == 7
  let size := syms * (if half then 4 * n else 8 * n)
  let x := stream s u c
  if x.samples < first + (syms - 1) * stride + n then (s, false)
  else if !reaches s (runReach s u c) (leAt b 0x10 8) size then (jobDone s u c e.job .aperture 0 [], true)
  else
    let gone := decide (first + capSamples s u c < x.samples)
    let s := if !gone then s else
      regOr (modTask s u c fun t =>
        let t := { t with overrun := true }
        if t.current.isSome then { dropMessage t with lost := true } else t) (rxuReg u 4) (2 ^ 9)
    let r := fftSymbols half u c e.q n first stride (leAt b 0x10 8) syms s 0 false
    (jobDone r.1 u c e.job (if r.2 then .integrity else .ok) 0 [], true)

/-! ## The trellis decoder (R192 to R195) -/

/-- A message completes decoding: its place in the unit's order of decodings (R82). -/
def stampDecoded (s : State) (u c : Nat) : State :=
  let n := (rxu s u).decodes + 1
  modTask (modRxu s u fun x => { x with decodes := n }) u c fun t => { t with decoded := n }

/-- The TRELLIS job at the head of the decoder. -/
def trellisDone (s : State) (u : Nat) (e : EngJob) : State × Bool :=
  let c := e.c
  let b := e.job.block
  let code := codeOf (trellisBlock s u c) (leAt b 1 1)
  let n := leAt b 4 4
  let len := code.llrs n
  if !reaches s (runReach s u c) (leAt b 8 8) len then (jobDone s u c e.job .aperture 0 [], true)
  else
    let r := readMem s e.q (0xF0 + u) (leAt b 8 8) len
    let ls := code.spread n 0 (r.2.bytes.map fun x => signed 8 x.toNat)
    let v := code.decode ls
    let psdu := code.psdu v.1
    let out := bitsBytes psdu
    if !reaches r.1 (runReach s u c) (leAt b 0x10 8) out.length then (jobDone r.1 u c e.job .aperture 0 [], true)
    else
      let w := writeSpan (out.length / 16 + 2) r.1 e.q (0xF0 + u) (leAt b 0x10 8) (out.map fun x => (x, r.2.poison))
      let s := if v.2.2 then modTask w.1 u c fun t => { t with tb := true } else w.1
      (jobDone (stampDecoded s u c) u c e.job (if w.2 then .integrity else .ok) 0 (toLe 4 psdu.length ++ toLe 4 v.2.1 ++ toLe 4 (b2n v.2.2)), true)

/-! ## The extractor (R75 to R83) -/

/-- The raw value of a MESSAGE field (R77). -/
def fieldRaw (psdu : List Byte) (e : XEntry) : Nat :=
  if e.orderLe then leAt psdu (e.src / 8) (e.bits / 8)
  else (List.range e.bits).foldl (fun a i => 2 * a + b2n ((nth 0 psdu ((e.src + i) / 8)).getLsbD (7 - (e.src + i) % 8))) 0

/-- What a message gives an extraction program: its PSDU and length in bits, FCS result, margin, LLR magnitudes, gain and stream. -/
structure MsgVals where
  psdu : List Byte
  bits : Nat
  fcsCheck : Bool
  fcsOk : Bool
  margin : Nat
  mean : Nat
  least : Nat
  gain : Nat
  strm : Nat
  deriving DecidableEq, Repr

/-- An integer as an exact value. -/
def intVal (i : Int) : Val := .num (i * (one320 : Int))

/-- The exact value of an entry, none where its feature is absent (R77 to R79). -/
def entryVal (m : MsgVals) (e : XEntry) : Option Val :=
  if e.side then
    match e.src with
    | 0 => some (intVal m.bits)
    | 1 => if m.fcsCheck then some (intVal (b2n m.fcsOk)) else none
    | 2 => some (intVal m.margin)
    | 3 => some (ofFp32 m.mean)
    | 4 => some (ofFp32 m.least)
    | 5 => some (intVal m.gain)
    | _ => some (intVal m.strm)
  else
    let raw := fieldRaw m.psdu e
    if m.bits < e.src + e.bits then none
    else if bitOf e.flags 3 ∧ raw = e.unavail % 2 ^ e.bits then none
    else some (intVal (if bitOf e.flags 0 then signed e.bits raw else raw))

/-- The bytes of a feature, and whether a conversion saturated (R65). -/
def featureBytes (f : Feature) (v : Val) : List Byte × Bool :=
  match Fmt.ofCode f.fmt with
  | some .ci16 => let r := encodeVal .s16 v; (toLe 2 r.1 ++ toLe 2 0, r.2.sat)
  | some g => let r := encodeVal g v; (toLe g.size r.1, r.2.sat)
  | none => ([], false)

/-- A record with the bytes `bs` at `off`. -/
def putBytes (r : List Byte) (off : Nat) (bs : List Byte) : List Byte := r.take off ++ bs ++ r.drop (off + bs.length)

/-- A record with the presence bit of feature i set (R57). -/
def putPresence (r : List Byte) (i : Nat) : List Byte :=
  putBytes r (16 + i / 8) [nth 0 r (16 + i / 8) ||| BitVec.ofNat 8 (2 ^ (i % 8))]

/-- A record built by an extraction program (R75), and whether a conversion saturated. -/
def buildRecord (x : Xprg) (tag : Nat) (m : MsgVals) : List Byte × Bool :=
  let hdr := toLe 8 tag ++ toLe 4 x.schema.id ++ toLe 2 x.schema.size ++ toLe 1 (0x10 + m.strm)
  x.entries.foldl (fun (a : List Byte × Bool) e =>
    match entryVal m e, x.schema.feat e.feature with
    | some v, some f =>
      let b := featureBytes f v
      (putPresence (putBytes a.1 f.off b.1) e.feature, a.2 || b.2)
    | _, _ => a) (padTo x.schema.size hdr, false)

/-- The TAG of a message's record (R75). -/
def msgTag (n : DWord) (strm sq : Nat) : Nat := n.toNat % 2 ^ 32 * 2 ^ 32 + strm * 2 ^ 24 + sq % 2 ^ 24

/-- The FCS of a PSDU matches (R80); one of less than 32 bits or of no whole number of octets fails the check (DESIGN CHOICE, log 76). -/
def fcsMatches (psdu : List Byte) (bits : Nat) : Bool :=
  decide (32 ≤ bits) && bits % 8 == 0 &&
    leAt psdu (bits / 8 - 4) 4 == crc32 (psdu.take (bits / 8 - 4))

/-- The message that an EXTRACT delivers: the one in progress, or one that no DETECT gave. Its sequence number is its place among the
detections of the slot, or the next after those of the records before it where that is more (R75; DEDUCED, log 72). -/
def extractMsg (t : Task) : Msg :=
  let m := t.current.getD { gain := t.gain }
  { m with seq := max m.seq t.nextSeq }

/-- The extractor has ended with the record that a clearing of its EN found in progress, where this was it (R84, R268). -/
def extractEnds (s : State) (u c : Nat) (j : Job) : State := if (rxu s u).rexWait == some (c, j.tk) then rexDone s u else s

/-- The extractor takes this message: it is on, or this was the record in progress when it was turned off (Table 3-15). -/
def extractorTakes (s : State) (u c : Nat) (j : Job) : Bool := (rxu s u).rex.en || (rxu s u).rexWait == some (c, j.tk)

/-- EXTRACT ends without a record or block, and its message undelivered; DROP is set where a record was due (Tables 3-15 and 3-16). -/
def notBuilt (s : State) (u c : Nat) (j : Job) (st : St) (built : Bool) : State :=
  let s := if !sdLlr (slotDesc s u c) && extractorTakes s u c j then regOr s (rxuReg u 0x6004) 4 else s
  let s := modTask s u c fun t => if t.lost then t else { dropMessage t with current := none, nextSeq := (extractMsg t).seq + 1 }
  jobDone (extractEnds s u c j) u c j st 0 (toLe 4 (if built then 0 else 2))

/-- EXTRACT ends with a record or an LLR block written. -/
def written (s : State) (u c : Nat) (j : Job) : State :=
  let s := modTask s u c fun t => { t with records := t.records + 1, current := none, nextSeq := (extractMsg t).seq + 1 }
  jobDone (extractEnds s u c j) u c j .ok 0 (toLe 4 1)

/-- A message's record built and written under DECODE (R75 to R83): it waits while the ring has no free slot, and for the records of earlier
decodings (R82). A poisoned PSDU yields no record and status INTEGRITY (DESIGN CHOICE, log 77). -/
def extractRecord (s : State) (u c : Nat) (j : Job) (r : SlotRun) (t : Task) : State :=
  let b := j.block
  let bits := leAt b 4 4
  let len := cdiv bits 8
  if extractFirst s u ≠ some (c, j.tk) then s
  else if !reaches s (runReach s u c) (leAt b 8 8) len then notBuilt s u c j .aperture false
  else
    let p := readMem s r.q (0xF0 + u) (leAt b 8 8) len
    if p.2.poison then notBuilt p.1 u c j .integrity false
    else
      match readXprg p.1 (runReach s u c) u (leAt r.desc 0x28 8) with
      | (s, none) => notBuilt s u c j .format false
      | (s, some x) =>
        let m := extractMsg t
        let strm := leAt r.desc 6 1
        let check := bitOf x.options 0
        let ok := fcsMatches p.2.bytes bits
        let vals : MsgVals := { psdu := p.2.bytes, bits := bits, fcsCheck := check, fcsOk := ok, margin := leAt b 0x10 4, mean := leAt b 0x14 4,
                                least := leAt b 0x18 4, gain := m.gain, strm := strm }
        if check && bitOf x.options 1 && !ok then
          notBuilt (regCount s (rxuReg u 0x600C) 1) u c j .ok false
        else if !ingestOk s x.queue then
          notBuilt (regCount s (rxuReg u 0x6014) 1) u c j .ok true
        else if ringRoom s x.queue = 0 then s
        else
          let rec_ := buildRecord x (msgTag t.n strm m.seq) vals
          let s := if rec_.2 then regOr s (rxuReg u 0x6004) 1 else s
          written (regAdd (ingest s x.queue [rec_.1]) (rxuReg u 0x6008) 1) u c j

/-- A message's LLR block written under LLR_OUT (R196): PSDU names its S8 LLRs and PSDU_BITS their number (log). -/
def extractLlrs (s : State) (u c : Nat) (j : Job) (r : SlotRun) (t : Task) : State :=
  let n := leAt j.block 4 4
  let size := 16 + alignUp n 16
  if !reaches s (runReach s u c) (leAt j.block 8 8) n then notBuilt s u c j .aperture false
  else if leAt r.desc 0x4C 4 < t.llrUsed + size then notBuilt s u c j .ok false
  else
    let p := readMem s r.q (0xF0 + u) (leAt j.block 8 8) n
    if p.2.poison then notBuilt p.1 u c j .integrity false
    else
      let bytes := llrHeader p.1 u r t n ++ padTo (alignUp n 16) p.2.bytes
      let s := (writeMem p.1 r.q (0xF0 + u) (llrRegion r t + t.llrUsed) bytes).1
      written (modTask s u c fun t => { t with llrUsed := t.llrUsed + size }) u c j

/-- EXTRACT (R75, R286): a message that lost samples, or one met while the extractor is off, yields nothing. -/
def extractRun (s : State) (u c : Nat) (tk : Word) : State :=
  match jobTurn s u c tk 4, (stream s u c).run with
  | some j, some r =>
    let t := headTask s u c
    if t.lost ∨ !extractorTakes s u c j then notBuilt s u c j .ok false
    else if sdLlr r.desc then extractLlrs s u c j r t
    else extractRecord s u c j r t
  | _, _ => s

/-! ## Calibration (R190, R191) -/

/-- The output descriptor of a calibration step: IDENTITY, no fusion. -/
def identityOutd : List Byte := padTo 64 (toLe 4 0x4454554F ++ toLe 2 1)

/-- A calibration record with its TAG, its SEL feature and presence bit as R190 gives them. -/
def calRecord (sch : Option Schema) (n : DWord) (strm i : Nat) (r : List Byte) : List Byte :=
  let tag := n.toNat % 2 ^ 32 * 2 ^ 32 + strm * 2 ^ 24 + 2 ^ 23 + i % 2 ^ 23
  let r := putBytes r 0 (toLe 8 tag)
  match sch.bind (·.feat 11) with
  | some f => putPresence (putBytes r f.off (featureBytes f (intVal (i % 2 : Nat))).1) 11
  | none => r

/-- The records of a job given their TAG and SEL, from record i (R190). -/
def calPrepare (sch : Option Schema) (size q u : Nat) (n : DWord) (strm base : Nat) : Nat → State → Nat → State
  | 0, s, _ => s
  | k + 1, s, i =>
    let r := readMem s q (coreId u) (base + i * size) size
    let s := (writeMem r.1 q (coreId u) (base + i * size) (calRecord sch n strm i r.2.bytes)).1
    calPrepare sch size q u n strm base k s (i + 1)

/-- Records that one calibration step may hold (R190): whole tiles within the reserved hedge's partition 0 and its rows. -/
def calLimit (s : State) (u : Nat) (d : Accd) : Nat :=
  let tile := max 1 d.tileRecs
  let rows := Config.accRows / (tile * max 1 (rpr d)) * tile
  alignDown (min (slotCount s (servedBy s u) 0) rows) tile

/-- The accumulation descriptor of a stream's calibration, as it stands in memory. -/
def calAccd (s : State) (u c : Nat) : Accd := accdOf (mread s.mem (leAt (slotDesc s u c) 0x38 8) 32)

/-- The key of a calibration's results. -/
def calKey (u c : Nat) : Nat := 8 * u + c

/-- The next step of a calibration is submitted to the reserved hedge (R190). -/
def calSubmit (s : State) (u : UIx) (c : LIx) (j : CalJob) : State :=
  let d := slotDesc s u.val c.val
  let size := peekSize s (leAt d 0x30 8)
  let n := min (2 * j.blocks - j.sent) (calLimit s u.val (calAccd s u.val c.val))
  let cmd : Cmd := { uid := s.nextUid, src := .ticket u c j.tk, op := 2, wins := (runReach s u.val c.val).wins }
  let sp : StepSpec := { batch := j.recs + j.sent * size, stride := size, records := n, schema := leAt d 0x30 8, accd := leAt d 0x38 8,
                         group := u.val, opens := true, closes := true, spans := [[servedBy s u.val]], recv := true,
                         calib := some (u.val, calKey u.val c.val), outdImm := identityOutd }
  let s := { s with cmds := s.cmds ++ [cmd], nextUid := s.nextUid + 1, calOut := sdel s.calOut (calKey u.val c.val),
                    steps := s.steps ++ [{ uid := cmd.uid, q := ctxOwner s u.val c.val, bg := 64 + u.val, spec := sp }] }
  modCtx s u.val c.val fun k => { k with cal := some { j with inFlight := n } }

/-- The scale and offset of blocks without calibration. -/
def plainScale : List Byte := toLe 4 0x3F800000 ++ toLe 4 0

/-- CALIBRATE (R190, R191): without CAL_EN every block uses 1.0 and 0; otherwise the unit completes the records and submits the first
step. -/
def calibrateRun (s : State) (u : UIx) (c : LIx) (tk : Word) : State :=
  match jobTurn s u.val c.val tk 5, (stream s u.val c.val).run with
  | some j, some r =>
    let d := r.desc
    let blocks := leAt j.block 4 4
    let recs := leAt j.block 8 8
    let out := leAt j.block 0x10 8
    let size := peekSize s (leAt d 0x30 8)
    if (ctx s u.val c.val).cal.isSome then s
    else if !reaches s (runReach s u.val c.val) out (8 * blocks) then jobDone s u.val c.val j .aperture 0 []
    else if !sdCal d then
      jobDone (writeMem s r.q (coreId u.val) out (List.replicate blocks plainScale).flatten).1 u.val c.val j .ok 0 (toLe 4 0)
    else if !reaches s (runReach s u.val c.val) recs (2 * blocks * size) then jobDone s u.val c.val j .aperture 0 []
    else if calLimit s u.val (calAccd s u.val c.val) = 0 ∨ recs % 16 ≠ 0 then jobDone s u.val c.val j .format 0 []
    else
      let t := headTask s u.val c.val
      let sch := parseSchema (mread s.mem (leAt d 0x30 8) (schemaBytes (schemaFeatures (mread s.mem (leAt d 0x30 8) 16))))
      let s := calPrepare sch size r.q u.val t.n (leAt d 6 1) recs (2 * blocks) s 0
      calSubmit s u c { tk := tk, addr := j.addr, blocks := blocks, recs := recs, out := out }
  | _, _ => s

/-- One result of a calibration step: its value, and whether it may be used (R191). -/
def calValue (outs : List (Nat × List Byte)) (i : Nat) : Nat × Bool :=
  match outs.find? fun x => x.1 == i with
  | some x =>
    let v := leAt x.2 32 4
    (v, leAt x.2 12 2 &&& (fInteg + fPart + fSat + fNanin) == 0 && (ofFp32 v).finite)
  | none => (0, false)

/-- The blocks of a finished step get their scale and offset; the number of fallbacks (R191). -/
def calWrite (s : State) (u q out b0 n : Nat) (outs : List (Nat × List Byte)) : State × Nat :=
  (List.range (n / 2)).foldl (fun (a : State × Nat) i =>
    let x := calValue outs (2 * i)
    let y := calValue outs (2 * i + 1)
    let ok := x.2 && y.2
    let bs := if ok then toLe 4 x.1 ++ toLe 4 y.1 else plainScale
    ((writeMem a.1 q (coreId u) (out + 8 * (b0 + i)) bs).1, if ok then a.2 else a.2 + 1)) (s, 0)

/-- A ticket's outcome recorded (R284): it leaves the outstanding ones, the outcomes of the last 64 tickets are kept, and what waits looks
again. -/
def recordOutcome (s : State) (u : UIx) (c : Nat) (tk : Word) (st : St) (fl : Nat) : State :=
  let s := modCtx s u.val c fun k =>
    { k with out := k.out.filter fun x => x.1 != tk, outcomes := ((tk, outcomeWord st fl) :: k.outcomes).filter fun x => k.recent x.1 }
  wake (endWfi s u.val c) u

/-- A calibration step has ended: its blocks are written, and the next step is submitted, or the job ends (R190). A step that was
refused ends the job. -/
def calNext (s : State) (u : UIx) (c : LIx) (j : CalJob) (st : St) (fl : Nat) : State :=
  let outs := sget [] s.calOut (calKey u.val c.val)
  let refused := outs.isEmpty
  let w := if refused then (s, 0) else calWrite s u.val (ctxOwner s u.val c.val) j.out (j.sent / 2) j.inFlight outs
  let j := { j with sent := j.sent + j.inFlight, fallback := j.fallback + w.2, flags := j.flags ||| fl, status := j.status.firstBad st }
  let s := if 0 < w.2 then regOr w.1 (rxuReg u.val 4) (2 ^ 11) else w.1
  let s := modTask s u.val c.val fun t => { t with fallback := t.fallback + w.2 }
  if !refused ∧ j.sent < 2 * j.blocks then calSubmit s u c j
  else
    let s := localWrite s u.val (j.addr + 0x30) (padTo 16 (toLe 4 j.fallback))
    let s := modCtx s u.val c.val fun k => { k with cal := none, jobs := k.jobs.filter fun i => i.tk != j.tk }
    recordOutcome { s with calOut := sdel s.calOut (calKey u.val c.val) } u c.val j.tk j.status j.flags

/-- TICKET_COMPLETE (R284): the work of an issued ticket has ended, and earlier tickets of its target are complete. -/
def ticketRun (s : State) (u : UIx) (c : LIx) (tk : Word) : State :=
  match s.ticketsReady.find? fun t => t.u == u.val && t.c == c.val && t.n == tk with
  | none => s
  | some t =>
    if ticketWaits s u.val c.val tk then s
    else
      let s := { s with ticketsReady := s.ticketsReady.filter fun t => !(t.u == u.val && t.c == c.val && t.n == tk) }
      match (ctx s u.val c.val).cal with
      | some j => if j.tk = tk then calNext s u c j t.status t.flags else recordOutcome s u c.val tk t.status t.flags
      | none => recordOutcome s u c.val tk t.status t.flags

/-! ## MATRIX, VECTOR and the engines (R200 to R203) -/

/-- MATRIX and VECTOR (R201, R285, R367): the operation is issued to engine e of the unit that UNIT names. -/
def engineRun (e : Nat) (s : State) (c : Cmd) : State :=
  let u := leAt c.slot 0x18 1
  let q := cmdQueue s c
  let own := match c.src with | .ticket v _ _ => v.val == u | .queue _ => bitOf (bgUnits s (queueBg s q)) u
  if !own then complete s c.uid .format else joinEngine s u e { uid := some c.uid, q := q }

/-- `RXU_MXA_STAT` bits of an operation's flags (Table 9-8). -/
def mxaSticky (fl : Nat) : Nat := flagIf (hasFlag fl fSat) (2 ^ 8) + flagIf (hasFlag fl fScaled) (2 ^ 9) + flagIf (hasFlag fl fNanin) (2 ^ 10)

/-- `RXU_VEC_STAT` bits of an operation's flags (Table 9-8). -/
def vecSticky (fl : Nat) : Nat :=
  flagIf (hasFlag fl fSat) (2 ^ 8) + flagIf (hasFlag fl fNanin) (2 ^ 9) + flagIf (hasFlag fl fOor) (2 ^ 10) +
  flagIf (hasFlag fl fEmpty) (2 ^ 11) + flagIf (hasFlag fl fNanrow) (2 ^ 12)

/-- Work units of 64 KiB that an operation's operand bytes make, with the remainder carried (R202). -/
def engineUnits (s : State) (u e bytes : Nat) : State × Nat :=
  let n := sget 0 (rxu s u).engBytes e + bytes
  (modRxu s u fun x => { x with engBytes := sset x.engBytes e (n % 65536) }, n / 65536)

/-- An operation's flags go where R203 says. -/
def engineFlags (s : State) (u : Nat) (c : Cmd) (fl : Nat) : State :=
  match c.src with
  | .queue _ => addFlags s c.uid fl
  | .ticket _ l _ =>
    let s := addFlags s c.uid fl
    if hasFlag fl fOor then modTask s u l.val fun t => { t with oor := true } else s

/-- A range lies in the unit's own scratchpad, in system SRAM or in LPDDR5X (R201). -/
def operandPlace (s : State) (u : Nat) (r : Nat × Nat) : Bool :=
  match storeOf s r.1 with
  | some (3, _) => decide (rxuScratch u ≤ r.1) && decide (r.1 + r.2 ≤ rxuScratch u + Config.rxuScratchSize)
  | some (2, _) => false
  | some (_, e) => decide (r.1 + r.2 ≤ e)
  | none => false

/-- What an operation computes and writes, on its descriptor's bytes. -/
def operate (s : State) (u e q : Nat) (b : List Byte) : State × EngOut :=
  if e = 0 then matrixOp s q (0xF0 + u) (mxopOf b) else vectorOp s q (0xF0 + u) (vxopOf b)

/-- The first register of an engine (Table 9-7). -/
def engineBase (e : Nat) : Nat := if e = 0 then 0x4000 else 0x5000

/-- The checks with which an operation starts (R201, R205, R212, R215, R223), on its descriptor, which may lie in host memory (R222); one
refused with FORMAT sets FORMAT in its engine's STAT. -/
def operationChecks (s : State) (u e : Nat) (c : Cmd) : State × Got (List Byte) :=
  let o := cmdReach s c
  let refuse := fun (s : State) => (regOr s (rxuReg u (engineBase e)) (if e = 0 then 2 ^ 11 else 2 ^ 13), Got.stop St.format)
  match readAny s o (0xF0 + u) (op10 c.slot) (if e = 0 then 64 else 192) 64 with
  | (s, .stop .format) => refuse s
  | (s, .stop st) => (s, .stop st)
  | (s, .ok b) =>
    let ok := if e = 0 then mxopOk b else vxopOk b
    let ranges := if e = 0 then mxRanges (mxopOf b) else vxRanges (vxopOf b)
    if !ok || !ranges.all (operandPlace s u) then refuse s
    else if !ranges.all (fun r => reaches s o r.1 r.2) then (s, .stop .aperture)
    else (s, .ok b)

/-- An operation begins (R202): none where its checks end it; else the operation with its descriptor and its work units still to run. -/
def operationBegin (s : State) (u e : Nat) (j : EngJob) (c : Cmd) : State × Option EngJob :=
  match operationChecks s u e c with
  | (s, .stop st) => (complete s c.uid st, none)
  | (s, .ok b) =>
    let n := (operate s u e j.q b).2.bytes
    (s, some { j with job := { block := b }, left := some (max 1 (cdiv n 65536)), pos := 0 })

/-- The operand bytes that an operation reads are counted (R202, Table 9-8, R260), with the work units they make. -/
def countBytes (s : State) (u e q n : Nat) : State × Nat :=
  let r := engineUnits s u e n
  (unitsDone (regAdd r.1 (rxuReg u (engineBase e + 4)) r.2) q r.2, r.2)

/-- The last work unit of an operation: its results are written, its flags raised (R203), and it completes. -/
def operationEnd (s : State) (u e : Nat) (j : EngJob) (c : Cmd) : State × Nat :=
  let r := operate s u e j.q j.job.block
  let n := countBytes r.1 u e j.q (r.2.bytes - j.pos)
  let s := regOr n.1 (rxuReg u (engineBase e)) (if e = 0 then mxaSticky r.2.flags else vecSticky r.2.flags)
  (complete (engineFlags s u c r.2.flags) c.uid r.2.status, n.2)

/-- An engine's list with one operation taken out, or put in another's place. -/
def putJob (s : State) (u e : Nat) (j : EngJob) (new : Option EngJob) : State :=
  modRxu s u fun x => { x with eng := sset x.eng e ((sget [] x.eng e).filterMap fun k => if k == j then new else some k) }

/-- An operation is the work of a slot task. -/
def taskJob (s : State) (j : EngJob) : Bool := match j.uid.bind (findCmd s) with | some c => fromTicket c | none => true

/-- The operation may begin: not one of a queue being destroyed, and of a drained one only that of an open slot task (R263, R270). -/
def jobMayRun (s : State) (j : EngJob) : Bool :=
  (queue s j.q).st != .retiring && ((queue s j.q).acting == .none || ((queue s j.q).acting == .drain && taskJob s j))

/-- Nominal cost of a unit of an engine (Table 16-4). -/
def engineCost (e : Nat) : Nat := if e = 0 then 24 else if e = 1 then 8 else if e = 2 then 4 else 2

/-- The operation whose unit runs next: the one begun; else those of open slot tasks, in the order issued (R249); then queues by turns
(R247). -/
def nextOp (s : State) (t : Turn) (l : List EngJob) : Option EngJob :=
  let ready := l.filter (jobMayRun s)
  match l.find? (·.left.isSome) with
  | some j => some j
  | none => match ready.find? (taskJob s) with
    | some j => some j
    | none => (pickTurn t (ready.map (·.q))).bind fun q => ready.find? fun j => j.q == q

/-- The turn state of an engine with `n` work units of an operation charged (R248): those of a slot task count toward its queue's turn or
its next one, but take none (R249, R285). -/
def chargeTurn (s : State) (t : Turn) (j : EngJob) (n : Nat) : Turn :=
  if t.cur = some j.q then { t with used := t.used + n }
  else if taskJob s j then { t with overruns := sset t.overruns j.q (sget 0 t.overruns j.q + n) }
  else { Turn.begin_ s t j.q with used := n }

/-- The turn ends with an operation (R248) where the allowance is used, or the queue has nothing more ready on the engine's list `l`. -/
def closeTurn (s : State) (t : Turn) (j : EngJob) (l : List EngJob) : Turn :=
  if taskJob s j then t
  else if t.allow ≤ t.used ∨ !((l.filter (jobMayRun s)).any fun k => k.q == j.q && k.uid != j.uid) then t.over else t

/-- An operation leaves its engine. -/
def leaveEngine (s : State) (u e : Nat) (j : EngJob) (t : Turn) : State :=
  let s := modRxu (putJob s u e j none) u fun x => { x with engTurn := sset x.engTurn e t }
  dropTokens s (ownEngine u e)

/-- A work unit of a MATRIX or VECTOR operation that has begun (R202, R270): the last one writes its results; an operation of a queue being
destroyed ends with the unit, what it has not written discarded. `t` is the engine's turn and `l` its list. -/
def operationUnit (s : State) (u e : Nat) (j : EngJob) (c : Cmd) (t : Turn) (l : List EngJob) : State :=
  let left := j.left.getD 1
  if (queue s j.q).st = .retiring then
    let r := countBytes s u e j.q 65536
    leaveEngine r.1 u e j (chargeTurn s t j r.2)
  else if left ≤ 1 then
    let r := operationEnd s u e j c
    leaveEngine r.1 u e j (closeTurn s (chargeTurn s t j r.2) j l)
  else
    let r := countBytes s u e j.q 65536
    let s := putJob r.1 u e j (some { j with left := some (left - 1), pos := j.pos + 65536 })
    dropTokens (modRxu s u fun x => { x with engTurn := sset x.engTurn e (chargeTurn s t j r.2) }) (ownEngine u e)

/-- ENGINE_OP_DONE (R200, R202, R247): the operation whose turn it is takes the tokens of a work unit and runs it; with its last one it
finishes and writes its results. A job of the FFT unit or the trellis decoder is one unit; one that waits for its samples stays. -/
def engineDoneRun (s : State) (u e : Nat) : State :=
  let l := sget [] (rxu s u).eng e
  let t := sget ({} : Turn) (rxu s u).engTurn e
  if !served s then s
  else
    match nextOp s t l with
    | none => s
    | some j =>
      let k := askTokens s (ownEngine u e) (taskJob s j) (engineCost e)
      if !k.2 then k.1
      else if 2 ≤ e then
        let r := if e = 2 then fftDone k.1 u j else trellisDone k.1 u j
        if r.2 then leaveEngine r.1 u e j t else s
      else
        match j.uid.bind (findCmd s) with
        | none => leaveEngine k.1 u e j t
        | some c =>
          if j.left.isSome then operationUnit k.1 u e j c t l
          else
            match operationBegin k.1 u e j c with
            | (s1, none) => leaveEngine s1 u e j t
            | (s1, some b) => operationUnit (putJob s1 u e j (some b)) u e b c t l

/-- The number of an engine. -/
def engineIx : Engine → Nat
  | .matrix => 0 | .vector => 1 | .fft => 2 | .trellis => 3

end Sys2Proof.Machine
end

