-- ==== Sys2Proof/Machine/Rotation.lean ====
section
/-! DEFINITION. Rotations (R151 to R163) and the data mover (R164 to R168). -/

namespace Sys2Proof.Machine

/-! ## Rotation descriptors -/

/-- The positions of an ARRAY_MASK, ascending. -/
def maskArrays (m : Nat) : List Nat := (List.range 8).filter fun a => bitOf m a

/-- ARRAY_MASK of a rotation descriptor (Table 7-1). -/
def rdArrays (b : List Byte) : List Nat := maskArrays (leAt b 6 1)
/-- STAGE_DEPTH. -/
def rdDepth (b : List Byte) : Nat := leAt b 7 1
/-- IMAGES. -/
def rdImages (b : List Byte) : Nat := leAt b 8 4
/-- HEDGE_MASK. -/
def rdHedges (b : List Byte) : List Nat := maskHedges (leAt b 0xC 2)
/-- RSTRIDE. -/
def rdStride (b : List Byte) : Nat := leAt b 0xE 2
/-- IMAGE_TABLE. -/
def rdTable (b : List Byte) : Nat := leAt b 0x10 8
/-- BATCH_ADDR. -/
def rdBatch (b : List Byte) : Nat := leAt b 0x18 8
/-- RECORDS. -/
def rdRecords (b : List Byte) : Nat := leAt b 0x20 4
/-- MAX_IMAGE. -/
def rdMax (b : List Byte) : Nat := leAt b 0x24 4
/-- STAGE_ADDR. -/
def rdStage (b : List Byte) : Nat := leAt b 0x28 8
/-- STAGE_BYTES. -/
def rdStageBytes (b : List Byte) : Nat := leAt b 0x30 4

/-- Images of a rotation: the table's, or those that a REDUCE rotation keeps (R318). -/
def rotImages (r : Rotation) : Nat := match r.kept with | some l => l.length | none => rdImages r.desc

/-- The image-table entry of a rotation's image i. -/
def tableIx (r : Rotation) (i : Nat) : Nat := match r.kept with | some l => nth 0 l i | none => i

/-- Rounds of a rotation (R156); one without images where a REDUCE rotation keeps none. -/
def rotRounds (r : Rotation) : Nat := max 1 (cdiv (rotImages r) (max 1 (rdArrays r.desc).length))

/-- First and end image of round k. -/
def roundImages (r : Rotation) (k : Nat) : Nat × Nat :=
  let p := (rdArrays r.desc).length
  (min (k * p) (rotImages r), min ((k + 1) * p) (rotImages r))

/-- The checks of R154 and Table 7-1 on a descriptor, the schema, the accumulation mode and withdrawn arrays apart. -/
def rotDescOk (s : State) (q : Nat) (b : List Byte) : Bool :=
  let hs := rdHedges b
  let ps := rdArrays b
  leAt b 0 4 == 0x44544F52 && leAt b 4 2 == 1 && leAt b 0x34 12 == 0 && !ps.isEmpty && !hs.isEmpty && decide (rdDepth b ≤ 2) &&
  decide (1 ≤ rdImages b) && decide (rdImages b ≤ 1048576) && rdTable b % 32 == 0 && rdBatch b % 16 == 0 && decide (1 ≤ rdRecords b) &&
  rdMax b % 64 == 0 && rdStage b % 64 == 0 &&
  (if rdDepth b = 0 then rdStage b == 0 && rdStageBytes b == 0
   else inSram (rdStage b) (rdStageBytes b) && decide ((rdDepth b + 1) * ps.length * rdMax b ≤ rdStageBytes b)) &&
  (hs.all fun h => role s h == 1 && bitOf (bgHedges s (queueBg s q)) h) &&
  (ps.all fun p => hs.all fun h => !pinnedArr s h p && shapeOf s h p == shapeOf s (nth 0 hs 0) p) &&
  (ps.all fun p => hs.all fun h => (arr s (arrIx h p)).st != .withdrawn) &&
  rdStride b % 16 == 0 && decide (cdiv (rdRecords b) hs.length ≤ queueStep s q)

/-- The ranges a rotation descriptor names (R223). -/
def rotRanges (b : List Byte) (size : Nat) : List (Nat × Nat) :=
  [(rdTable b, 32 * rdImages b), (rdBatch b, (rdRecords b - 1) * rdStride b + size)] ++
    (if rdDepth b = 0 then [] else [(rdStage b, rdStageBytes b)])

/-- The claim of a rotation may be granted (R155): no running rotation claims any of its positions. -/
def claimFree (s : State) (b : List Byte) : Bool :=
  (rdHedges b).all fun h => (rdArrays b).all fun p => (claimedBy s (arrIx h p)).isNone

/-! ## Rounds -/

/-- An image table entry (Table 7-2). -/
structure ImgEntry where
  addr : Nat
  size : Nat
  wait : Bool
  fence : Nat
  value : DWord
  deriving DecidableEq, Repr

/-- The image-table entry of a rotation's image i, read and checked (R160, R223, R256). -/
def imgEntry (s : State) (r : Rotation) (i : Nat) : State × Got ImgEntry :=
  match readAny s (reachOf s r.uid r.q) 0xFD (rdTable r.desc + 32 * tableIx r i) 32 32 with
  | (s, .stop st) => (s, .stop st)
  | (s, .ok b) =>
    let e : ImgEntry := { addr := leAt b 0 8, size := leAt b 8 4, wait := bitOf (leAt b 0xC 2) 0, fence := leAt b 0xE 2,
                          value := BitVec.ofNat 64 (leAt b 0x10 8) }
    if e.addr % 64 ≠ 0 ∨ isHost e.addr ∨ rdMax r.desc < e.size ∨ 2 ≤ leAt b 0xC 2 ∨ leAt b 0x18 8 ≠ 0 ∨
       (e.wait ∧ 4096 ≤ e.fence) ∨ (!e.wait ∧ (e.fence ≠ 0 ∨ e.value ≠ 0)) then (s, .stop .format)
    else if e.wait ∧ !mayFence s r.q e.fence then (s, .stop .priv)
    else if !reaches s (reachOf s r.uid r.q) e.addr e.size then (s, .stop .aperture)
    else (s, .ok e)

/-- The TREE_INDEX of each segment of the image at an address, as its header places them. -/
def imageTrees (s : State) (q a : Nat) : State × List Nat :=
  let h := readMem s q 0xFD a 64
  let n := min 256 (hdrOf h.2.bytes).segs
  let r := readMem h.1 q 0xFD (a + (hdrOf h.2.bytes).segOff) (16 * n)
  (r.1, (List.range n).map fun i => (segOf (sub r.2.bytes (16 * i) 16)).tree.toNat)

/-- Which of the table's entries from `i` on a REDUCE rotation keeps: those of slices this device serves (R318); an image of two slices
refuses the rotation. `n` bounds the entries. -/
def keepEntries (r : Rotation) (trees mask : Nat) : Nat → State → Nat → State × Got (List Nat)
  | 0, s, _ => (s, .ok [])
  | n + 1, s, i =>
    match imgEntry s r i with
    | (s, .stop st) => (s, .stop st)
    | (s, .ok e) =>
      let x := imageTrees s r.q e.addr
      let sl := x.2.map (· / max 1 trees)
      let lo := (sl.min?).getD 0
      if !(sl.all (· == lo)) then (x.1, .stop .format)
      else
        match keepEntries r trees mask n x.1 (i + 1) with
        | (s, .stop st) => (s, .stop st)
        | (s, .ok l) => (s, .ok (if bitOf mask lo then i :: l else l))

/-- The entries of a rotation's table are divided (R156, R318); the epoch of a REDUCE rotation's group is fixed here, where the
division is made. -/
def divideTable (s : State) (u : Nat) : State :=
  match findRot s u, findStep s u with
  | some r, some t =>
    if !t.spec.reduce then s
    else
      let d := accdOf (mread s.mem t.spec.accd 32)
      match modelEntry s d.model with
      | none => s
      | some n =>
        let e := epochNow s
        match keepEntries r (entryTrees s n) (servedMask s e n d.exact) (rdImages r.desc) s 0 with
        | (s, .stop st) => stopRotation s u st
        | (s, .ok l) =>
          let sp := { t.spec with epoch := some e }
          modRot (modStep s u fun t => { t with spec := sp }) u fun r => { r with kept := some l }
  | _, _ => s

/-- The waiting claim at the head is granted where it may be (R155). -/
def grantClaim (s : State) : State :=
  match s.claimsWaiting with
  | [] => s
  | u :: rest =>
    match findRot s u with
    | none => { s with claimsWaiting := rest }
    | some r =>
      if claimFree s r.desc then
        let s := modRot { s with claimsWaiting := rest } u fun r => { r with stage := .running }
        divideTable ((rdHedges r.desc).foldl (fun s h => regSet s (hdgReg h 0x184) 0) s) u
      else s

/-- ROTATE (R152, R154, R155): the descriptor is copied and checked, and the claim waits its turn. -/
def rotateRun (s : State) (c : Cmd) : State :=
  let q := cmdQueue s c
  match readStruct s (cmdReach s c) 0xFC (op10 c.slot) 64 64 with
  | (s, .stop st) => complete s c.uid st
  | (s, .ok b) =>
    match readSchema s (cmdReach s c) 0xFC (op18 c.slot) with
    | (s, .stop st) => complete s c.uid st
    | (s, .ok sch) =>
      match readStruct s (cmdReach s c) 0xFC (op20 c.slot) 32 32 with
      | (s, .stop st) => complete s c.uid st
      | (s, .ok a) =>
        if !rotDescOk s q b ∨ rdStride b < sch.size ∨ (accdOf a).fixed then complete s c.uid .format
        else if !((rotRanges b sch.size).all fun x => reaches s (cmdReach s c) x.1 x.2) then complete s c.uid .aperture
        else
          let sp : StepSpec := { batch := rdBatch b, stride := rdStride b, records := rdRecords b, schema := op18 c.slot,
                                 accd := op20 c.slot, outd := op28 c.slot, group := leAt c.slot 0x36 1 % 64, opens := true,
                                 closes := false, reduce := stReduce c.slot, spans := (rdHedges b).map fun h => [h], arrays := some [] }
          let first := s.claimsWaiting.isEmpty
          let s := { s with steps := s.steps ++ [{ uid := c.uid, q := q, bg := queueBg s q, spec := sp }],
                            rotations := s.rotations ++ [{ uid := c.uid, q := q, desc := b }],
                            claimsWaiting := s.claimsWaiting ++ [c.uid] }
          if first then grantClaim s else s

/-- The rotation of a queue that has been granted its claim. -/
def queueRot (s : State) (q : Nat) : Option Rotation := s.rotations.find? fun r => r.q == q && r.stage == .running

/-- A WAIT mark holds the data mover at image i (R162): the bit, and the mark noted. -/
def holdMark (s : State) (r : Rotation) (i : Nat) (e : ImgEntry) : State :=
  regOr (modRot s r.uid fun r => { r with waitMark := some (i, e.value) }) (memReg 0x8000) 4

/-- What a WAIT entry does when the data mover reaches it (R162, R163, R255): nothing where its fence has reached the value, the end of the
rotation where that carries ERR. -/
inductive MarkSays where
  | go | hold | error
  deriving DecidableEq, Repr

/-- The mark of image i. -/
def markSays (s : State) (r : Rotation) (i : Nat) (e : ImgEntry) : MarkSays :=
  if !e.wait || r.released.contains i then .go
  else if !reached s e.fence e.value then .hold
  else if (fence s e.fence).err then .error else .go

/-- `bs` quads copied from `src` to `dst`, a poisoned one carried on poisoned (R168); the Bool says a host access was refused (R412).
`n` bounds the quads. -/
def copyQuads : Nat → State → (q src dst : Nat) → State × Bool
  | 0, s, _, _, _ => (s, false)
  | n + 1, s, q, src, dst =>
    let r := readMem s q 0xFD src 16
    if r.2.ap then (r.1, true)
    else
      let w := if r.2.poison then writePoison 1 r.1 q dst else writeMem r.1 q 0xFD dst r.2.bytes
      let s := if r.2.poison then regOr w.1 (memReg 0x8000) 2 else w.1
      if w.2 then (s, true) else copyQuads n s q (src + 16) (dst + 16)

/-- The staging address of image i (R162): slot (round mod (depth + 1)), one MAX_IMAGE for each position. -/
def stageAt (b : List Byte) (i : Nat) : Nat :=
  let p := max 1 (rdArrays b).length
  rdStage b + (i / p % (rdDepth b + 1) * p + i % p) * rdMax b

/-- A list of queue q issued before command `uid` still stands at the data mover (R235). -/
def earlierList (s : State) (q uid : Nat) : Bool := s.movers.any fun m => m.q == q && decide (m.uid < uid)

/-- The queue's transfers go on: no stall action and no destroy has stopped them. -/
def transfersRun (s : State) (q : Nat) : Bool := (queue s q).acting == .none && (queue s q).st != .retiring

/-- Rounds whose staging slots are free again: their multicast has read them whole (Table 7-3, step 8). -/
def roundsRead (r : Rotation) : Nat := r.round + if r.loading && decide (r.bytes ≤ r.moved) then 1 else 0

/-- The rotation has an image to fetch (R158, R162): its round's slot is free, no mark holds it, and it does not stop. -/
def mayFetch (s : State) (r : Rotation) : Bool :=
  r.stage == .running && r.stopping.isNone && rdDepth r.desc != 0 && decide (r.fetched < rotImages r) &&
  decide (r.fetched / max 1 (rdArrays r.desc).length ≤ roundsRead r + rdDepth r.desc) && r.waitMark.isNone &&
  !earlierList s r.q r.uid && transfersRun s r.q

/-- STAGING_FETCH_DONE (R158, R162): every image of the next round stands in its staging slot; the round is staged. -/
def stagingFetch (s : State) (q : Nat) : State :=
  match queueRot s q with
  | none => s
  | some r =>
    if rdDepth r.desc ≠ 0 ∧ r.staged < rotRounds r ∧ r.stopping.isNone ∧ (roundImages r r.staged).2 ≤ r.fetched then
      modRot s r.uid fun r => { r with staged := r.staged + 1 }
    else s

/-- WAIT_MARK_RELEASED (R162, R163, R255): the fence has reached the value; ERR stops the rotation. -/
def releaseMark (s : State) (q : Nat) : State :=
  match queueRot s q with
  | none => s
  | some r =>
    match r.waitMark with
    | none => s
    | some (i, v) =>
      match imgEntry s r i with
      | (s, .stop st) => stopRotation s r.uid st
      | (s, .ok e) =>
        if !reached s e.fence v ∨ r.stopping.isSome then s
        else if (fence s e.fence).err then stopRotation s r.uid .fenceErr
        else modRot s r.uid fun r => { r with waitMark := none, released := r.released ++ [i] }

/-- A hedge is ready for the next round's images (Table 7-3, steps 2 and 3; for round 0 its records stand in its slots); one whose EN is
0 takes no further round (R159). -/
def roundReady (s : State) (r : Rotation) (t : StepRun) (h : Nat) : Bool :=
  (hedge s h).en.en && !(hedge s h).restructuring &&
  (if r.round = 0 then
    (placed s h (bgPart s t.bg) t.uid).length == spanCount t.spec (spanOf t.spec h) && !earlierOn s t.q t.uid h
   else t.ended.contains h) &&
  (rdArrays r.desc).all fun p => !searching s (arrIx h p) && !(arr s (arrIx h p)).checking && (arr s (arrIx h p)).st != .loading

/-- The entries of a round read one after another (STAGE_DEPTH 0), or their addresses in staging. -/
def roundEntries (s : State) (r : Rotation) : List Nat → State × Got (List (Nat × ImgEntry))
  | [] => (s, .ok [])
  | i :: t =>
    match imgEntry s r i with
    | (s, .stop st) => (s, .stop st)
    | (s, .ok e) =>
      match roundEntries s r t with
      | (s, .stop st) => (s, .stop st)
      | (s, .ok es) => (s, .ok ((i, e) :: es))

/-- Every hedge begins to load the images of a round (Table 7-3, steps 4 and 5). -/
def loadRound (s : State) (r : Rotation) (t : StepRun) (es : List (Nat × ImgEntry)) : State :=
  let hs := rdHedges r.desc
  let pos := rdArrays r.desc
  let p := max 1 pos.length
  let ns := es.flatMap fun x => hs.map fun h => arrIx h (nth 0 pos (x.1 % p))
  let src := fun (x : Nat × ImgEntry) => if rdDepth r.desc = 0 then x.2.addr else stageAt r.desc x.1
  let s := modRot s r.uid fun r => { r with loading := true, loadsLeft := ns, moved := 0, bytes := (es.map (·.2.size)).sum,
                                            srcs := es.map fun x => (src x, x.2.size) }
  es.foldl (fun s x =>
    let job : LoadJob := { why := .rotation r.uid, q := r.q, addr := BitVec.ofNat 64 x.2.addr, src := BitVec.ofNat 64 (src x),
                           size := some x.2.size, schema := some (BitVec.ofNat 64 t.spec.schema) }
    hs.foldl (fun s h => queueLoadFirst s (arrIx h (nth 0 pos (x.1 % p))) job) s) s

/-- Bytes moved counted into data mover units with the remainder carried over (R168). -/
def moverUnits (s : State) (q bytes : Nat) : State :=
  let n := (s.moverBytes + bytes) / 4096
  unitsDone (regAdd { s with moverBytes := (s.moverBytes + bytes) % 4096 } (memReg 0x8004) n) q n

/-- A round's images have loaded on every hedge: a refused image stops the rotation at once (R160); otherwise the round's step may
start. -/
def roundLoaded (s : State) (u : Nat) : State :=
  match findRot s u with
  | none => s
  | some r =>
    if r.stopping.isSome then endRotation s u
    else if r.loading ∧ r.failed ≠ .ok then stopRotation s u r.failed
    else if !(r.loading && r.loadsLeft.isEmpty) then s
    else
      let im := roundImages r r.round
      let last := r.round + 1 = rotRounds r
      let s := modStep s u fun t => { t with checked := false, sch := [], sets := [], started := [], ended := [], spec := { t.spec with
        arrays := some ((rdArrays r.desc).take (im.2 - im.1)), opens := decide (r.round = 0), closes := decide last } }
      modRot s u fun r => { r with loading := false, loaded := true, round := r.round + 1 }

/-- ROUND_MULTICAST_START (R158, R162): once every hedge is ready and the round is staged, its images go out; a hedge that it
waits for is marked HELD. -/
def roundStart (s : State) (q : Nat) : State :=
  match queueRot s q with
  | none => s
  | some r =>
    match findStep s r.uid with
    | none => s
    | some t =>
      let im := roundImages r r.round
      let staged := rdDepth r.desc == 0 || decide (r.round < r.staged)
      if r.loading ∨ r.stopping.isSome ∨ r.waitMark.isSome ∨ rotRounds r ≤ r.round ∨ !staged ∨ earlierList s q r.uid ∨
         !transfersRun s q then s
      else if !(rdHedges r.desc).all fun h => roundReady s r t h then
        (rdHedges r.desc).foldl (fun s h => if roundReady s r t h then s else regOr s (hdgReg h 0x188) 2) s
      else
        match roundEntries s r ((List.range (im.2 - im.1)).map (im.1 + ·)) with
        | (s, .stop st) => stopRotation s r.uid st
        | (s, .ok es) =>
          match es.find? fun x => rdDepth r.desc == 0 && markSays s r x.1 x.2 != .go with
          | some x => if markSays s r x.1 x.2 = .error then stopRotation s r.uid .fenceErr else holdMark s r x.1 x.2
          | none => let s := loadRound s r t es; if es.isEmpty then roundLoaded s r.uid else s

/-! ## The data mover -/

/-- A stream descriptor's fields (Table 7-4). -/
structure Sdesc where
  src : Nat
  dst : Nat
  elem : Nat
  dims : Nat
  flags : Nat
  hedges : Nat
  fence : Nat
  array : Nat
  value : Nat
  counts : List Nat
  sstr : List Int
  dstr : List Int
  deriving DecidableEq, Repr

/-- The fields from the 128 bytes. -/
def sdescOf (b : List Byte) : Sdesc :=
  { src := leAt b 0 8, dst := leAt b 8 8, elem := leAt b 0x10 4, dims := leAt b 0x14 1, flags := leAt b 0x15 1, hedges := leAt b 0x16 2,
    fence := leAt b 0x18 2, array := leAt b 0x1A 1, value := leAt b 0x20 8,
    counts := (List.range 4).map fun k => leAt b (0x28 + 4 * k) 4,
    sstr := (List.range 4).map fun k => signed 64 (leAt b (0x38 + 8 * k) 8),
    dstr := (List.range 4).map fun k => signed 64 (leAt b (0x58 + 8 * k) 8) }

/-- DEP_FENCE. -/
def Sdesc.depFence (d : Sdesc) : Bool := bitOf d.flags 1
/-- TARGET 1: an array load. -/
def Sdesc.toArray (d : Sdesc) : Bool := bitOf d.flags 2
/-- Bytes the descriptor moves (R165). -/
def Sdesc.bytes (d : Sdesc) : Nat := d.elem * d.counts.foldl (· * ·) 1

/-- The smallest range that holds every byte of one side: lowest address and length (R167, R223). -/
def boxOf (base elem : Nat) (counts : List Nat) (strides : List Int) : Int × Nat :=
  let e := List.zip counts strides
  let lo := (e.map fun x => if x.2 < 0 then ((x.1 : Int) - 1) * x.2 else 0).foldl (· + ·) 0
  let hi := (e.map fun x => if x.2 < 0 then 0 else ((x.1 : Int) - 1) * x.2).foldl (· + ·) 0
  ((base : Int) + lo, (hi - lo).toNat + elem)

/-- R167 on a descriptor's fields and bytes, the claim and roles of TARGET 1 apart. -/
def sdescOk (b : List Byte) : Bool :=
  let d := sdescOf b
  let sb := boxOf d.src d.elem d.counts d.sstr
  let db := boxOf d.dst d.elem d.counts d.dstr
  d.src % 16 == 0 && d.dst % 16 == 0 && (d.sstr.all (· % 16 == 0)) && (d.dstr.all (· % 16 == 0)) &&
  d.elem % 16 == 0 && decide (16 ≤ d.elem) && decide (d.elem ≤ 2 ^ 30) && decide (1 ≤ d.dims) && decide (d.dims ≤ 5) &&
  d.counts.all (· != 0) &&
  ((List.range 4).all fun k => decide (k + 1 < d.dims) || (nth 0 d.counts k == 1 && nth 0 d.sstr k == 0 && nth 0 d.dstr k == 0)) &&
  decide (d.flags < 8) && leAt b 0x1B 5 == 0 && leAt b 0x78 8 == 0 &&
  (if d.depFence then decide (d.fence < 4096) else d.fence == 0 && d.value == 0) &&
  (if d.toArray then d.dims == 1 && decide (d.array ≤ 7) && d.hedges != 0 && d.dst == 0
   else d.hedges == 0 && d.array == 0 && (decide (sb.1 + sb.2 ≤ db.1) || decide (db.1 + db.2 ≤ sb.1)))

/-- The conditions of R167 on TARGET 1 that depend on the state. -/
def sdescArrays (s : State) (d : Sdesc) : Bool :=
  !d.toArray || (maskHedges d.hedges).all fun h => role s h == 1 && (claimedBy s (arrIx h d.array)).isNone

/-- A box lies in reach (R223). -/
def boxReaches (s : State) (o : Reach) (x : Int × Nat) : Bool := decide (0 ≤ x.1) && reaches s o x.1.toNat x.2

/-- The mover job of a command. -/
def findMover (s : State) (uid : Nat) : Option Mover := s.movers.find? (·.uid == uid)

/-- A mover job changed. -/
def modMover (s : State) (uid : Nat) (f : Mover → Mover) : State :=
  { s with movers := s.movers.map fun m => if m.uid == uid then f m else m }

/-- A stream list ends: the command completes with its status, DETAIL the descriptors completed. -/
def endList (s : State) (m : Mover) (st : St) : State :=
  let s := if st = .format then regOr s (memReg 0x8000) 1 else s
  let s := modCmd { s with movers := s.movers.filter (·.uid != m.uid) } m.uid fun c => { c with detail := m.ix }
  complete s m.uid st

/-- COPY (R164 to R168, R367): the list joins the data mover's work. -/
def copyRun (s : State) (c : Cmd) : State :=
  if op10 c.slot % 64 ≠ 0 ∨ !bitOf (bgUnits s (queueBg s (cmdQueue s c))) 4 then complete s c.uid .format
  else { s with movers := s.movers ++ [{ uid := c.uid, q := cmdQueue s c, list := BitVec.ofNat 64 (op10 c.slot),
                                         count := leAt c.slot 0x18 4 }] }

/-- The element coordinates of index e, dimension 1 fastest (R165). -/
def coords : List Nat → Nat → List Nat
  | [], _ => []
  | c :: t, e => e % c :: coords t (e / c)

/-- The address of byte `off` of the descriptor's stream on one side. -/
def streamAt (base elem : Nat) (counts : List Nat) (strides : List Int) (off : Nat) : Nat :=
  let ix := coords counts (off / elem)
  ((base : Int) + (List.zip ix strides).foldl (fun a x => a + (x.1 : Int) * x.2) 0 + ((off % elem : Nat) : Int)).toNat

/-- Quads of a burst moved from stream offset `off` on; the Bool says a host access was refused (R412). -/
def moveQuads : Nat → State → Nat → Sdesc → Nat → State × Bool
  | 0, s, _, _, _ => (s, false)
  | n + 1, s, q, d, off =>
    let x := copyQuads 1 s q (streamAt d.src d.elem d.counts d.sstr off) (streamAt d.dst d.elem d.counts d.dstr off)
    if x.2 then x else moveQuads n x.1 q d (off + 16)

/-- The descriptor that a job has reached: read and checked (R167, R223, R256), its mark judged (R166). The Bool says that its data may
move. -/
def reachDesc (s : State) (m : Mover) : State × Bool :=
  if m.checked then (s, !m.held)
  else
    match readAny s (reachOf s m.uid m.q) 0xFD (m.list.toNat + 128 * m.ix) 128 64 with
    | (s, .stop st) => (endList s m st, false)
    | (s, .ok b) =>
      let d := sdescOf b
      if !sdescOk b ∨ !sdescArrays s d then (endList s m .format, false)
      else if d.depFence ∧ !mayFence s m.q d.fence then (endList s m .priv, false)
      else if !boxReaches s (reachOf s m.uid m.q) (boxOf d.src d.elem d.counts d.sstr) ∨
          (!d.toArray ∧ !boxReaches s (reachOf s m.uid m.q) (boxOf d.dst d.elem d.counts d.dstr)) then (endList s m .aperture, false)
      else
        let hold := d.depFence && !m.released && !(reached s d.fence (BitVec.ofNat 64 d.value) && !(fence s d.fence).err)
        let s := modMover s m.uid fun m => { m with checked := true, held := hold, desc := b, moved := 0 }
        (if hold then regOr s (memReg 0x8000) 4 else s, !hold)

/-- A descriptor is done: the next one, or the end of the list. -/
def descDone (s : State) (uid : Nat) : State :=
  match findMover s uid with
  | none => s
  | some m =>
    let m := { m with ix := m.ix + 1, moved := 0, checked := false, held := false, released := false, sending := false, desc := [] }
    let s := modMover s uid fun _ => m
    if m.ix = m.count then endList s m .ok else s

/-- A command of the list's queue issued before it has not finished its work on the data mover (R235): a list, or a rotation with a
round still to multicast. A slot task's list waits for none (R284 orders its tickets). -/
def listWaits (s : State) (m : Mover) : Bool :=
  match findCmd s m.uid with
  | some c => !fromTicket c && ((s.movers.any fun x => x.q == m.q && decide (x.uid < m.uid) && match findCmd s x.uid with
      | some d => !fromTicket d
      | none => true) ||
      s.rotations.any fun r => r.q == m.q && decide (r.uid < m.uid) && (r.loading || decide (r.round < rotRounds r)))
  | none => false

/-- A multicast can move a burst (R168): bytes are left, and every receiving array's load for `why` has begun. -/
def mayMulticast (s : State) (why : LoadFor) (ns : List Nat) (moved bytes : Nat) : Bool :=
  !ns.isEmpty && decide (moved < bytes) && ns.all fun n => match (arr s n).loads.head? with
    | some j => j.started && j.why == why
    | none => false

/-- Jobs that have a burst to run: not held at a mark, not waiting for array loads to begin or end, their queue not stopped, and in their
turn (R235). -/
def readyMovers (s : State) : List Mover :=
  s.movers.filter fun m => !m.held && (!m.sending || mayMulticast s (.copy m.uid) m.loadsLeft m.moved (leAt m.desc 0x10 4)) &&
    !listWaits s m && match findCmd s m.uid with | some c => mayAct s c | none => false

/-- Rotations whose round has a burst to multicast. -/
def readyRots (s : State) : List Rotation :=
  s.rotations.filter fun r => r.stopping.isNone && r.loading && mayMulticast s (.rotation r.uid) r.loadsLeft r.moved r.bytes && transfersRun s r.q

/-- Rotations with a burst of a staging fetch to run. -/
def readyFetches (s : State) : List Rotation := s.rotations.filter (mayFetch s)

/-- EOP.MOVEs that may have their burst, those of a slot task that DRAIN lets finish too (R263, R284): the first of each context. -/
def readyMoves (s : State) : List MoveOp :=
  s.moves.filter fun m => (transfersRun s m.q || (queue s m.q).acting == .drain) &&
    match s.moves.find? fun x => x.u == m.u && x.c == m.c with | some x => x.n == m.n | none => false

/-- The queues that have a burst to run. -/
def burstQueues (s : State) : List Nat :=
  (readyMovers s).map (·.q) ++ (readyRots s).map (·.q) ++ (readyFetches s).map (·.q) ++ (readyMoves s).map (·.q)

/-- A burst of queue q is over (R247, R248): its tokens go back, and one unit of its turn is used. -/
def burstOver (s : State) (q : Nat) : State :=
  let s := dropTokens s ownMover
  { s with moverTurn := takeTurn s s.moverTurn q 1 ((burstQueues s).contains q) }

/-- `n` bytes of an image read for the hedges that load it (R168): each quad once, by the data mover. -/
def sendQuads (s : State) (q a n : Nat) : State :=
  let r := readMem s q 0xFD a n
  if r.2.poison then regOr r.1 (memReg 0x8000) 2 else r.1

/-- Where offset `off` of a round's bytes lies: the source address, and the bytes left of its image. -/
def roundSource : List (Nat × Nat) → Nat → Nat × Nat
  | [], _ => (0, 0)
  | (a, n) :: t, off => if off < n then (a + off, n - off) else roundSource t (off - n)

/-- The next burst of a round's multicast (R158, R168). -/
def roundBurst (s : State) (r : Rotation) : State :=
  let t := askTokens s ownMover false 8
  if !t.2 then t.1
  else
    let x := roundSource r.srcs r.moved
    let n := min 4096 x.2
    let s := moverUnits (sendQuads t.1 r.q x.1 n) r.q n
    burstOver (modRot s r.uid fun r => { r with moved := r.moved + n }) r.q

/-- The next part of the image being fetched, whose source and size the rotation holds (R158, R162): it counts no unit (R168). -/
def fetchPart (s : State) (r : Rotation) (e : Nat × Nat) : State :=
  let t := askTokens s ownMover false 8
  if !t.2 then t.1
  else
    let n := min 4096 (e.2 - r.fetchAt)
    let s := (copyQuads (cdiv n 16) t.1 r.q (e.1 + r.fetchAt) (stageAt r.desc r.fetched + r.fetchAt)).1
    let whole := decide (e.2 ≤ r.fetchAt + n)
    burstOver (modRot s r.uid fun r => if whole then { r with fetched := r.fetched + 1, fetching := none, fetchAt := 0 }
      else { r with fetchAt := r.fetchAt + n }) r.q

/-- The next burst of a staging fetch (R158, R160, R162): an entry that the data mover reaches is read and checked, and its mark judged. -/
def fetchBurst (s : State) (r : Rotation) : State :=
  match r.fetching with
  | some e => fetchPart s r e
  | none =>
    match imgEntry s r r.fetched with
    | (s, .stop st) => stopRotation s r.uid st
    | (s, .ok e) =>
      match markSays s r r.fetched e with
      | .hold => holdMark s r r.fetched e
      | .error => stopRotation s r.uid .fenceErr
      | .go => fetchPart (modRot s r.uid fun r => { r with fetching := some (e.addr, e.size) }) r (e.addr, e.size)

/-- The quads of a MOVE, one after another (R287): a poisoned source quad is written poisoned; the Bool says a host access was refused
(R412). -/
def moveLocal : Nat → State → (u q l d : Nat) → Bool → State × Bool
  | 0, s, _, _, _, _, _ => (s, false)
  | n + 1, s, u, q, l, d, out =>
    let x : State × Bool :=
      if out then
        let r := localLoad s u l 16
        match r.2 with
        | none => writePoison 1 r.1 q d
        | some bs => writeMem r.1 q (coreId u) d bs
      else
        let r := readMem s q (coreId u) d 16
        (if r.2.ap then r.1 else if r.2.poison then localPoison r.1 u l else localWrite r.1 u l r.2.bytes, r.2.ap)
    if x.2 then x else moveLocal n x.1 u q (l + 16) (d + 16) out

/-- The burst of an EOP.MOVE (R16, R26, R287): its ticket's outcome is ready. -/
def moveBurst (s : State) (m : MoveOp) : State :=
  let t := askTokens s ownMover true 8
  if !t.2 then t.1
  else
    let x := moveLocal (m.len / 16) t.1 m.u m.q m.loc m.dev m.out
    let s := { x.1 with moves := x.1.moves.filter fun y => !(y.u == m.u && y.c == m.c && y.n == m.n) }
    let s := ready (if x.2 then s else moverUnits s m.q m.len) m.u m.c m.n (if x.2 then .aperture else .ok) 0
    burstOver s m.q

/-- The next burst of a list (R164 to R168): a descriptor reached is read and checked, a TARGET 1 descriptor's loads are asked for, its
image is multicast, or the next part of a copy is moved. -/
def listBurst (s : State) (m : Mover) : State :=
  let r := reachDesc s m
  if !r.2 then r.1
  else
    match findMover r.1 m.uid with
    | none => r.1
    | some m =>
      let d := sdescOf m.desc
      if d.toArray ∧ !m.sending then
        let ns := (maskHedges d.hedges).map fun h => arrIx h d.array
        let src := BitVec.ofNat 64 d.src
        let job : LoadJob := { why := .copy m.uid, q := m.q, addr := src, src := src, size := some d.elem }
        ns.foldl (fun s n => queueLoad s n job) (modMover r.1 m.uid fun m => { m with loadsLeft := ns, moved := 0, sending := true })
      else
        let slotTask := match findCmd r.1 m.uid with | some c => fromTicket c | none => false
        let t := askTokens r.1 ownMover slotTask 8
        if !t.2 then t.1
        else
          let n := min 4096 (d.bytes - m.moved)
          let x := if d.toArray then (sendQuads t.1 m.q (d.src + m.moved) n, false) else moveQuads (n / 16) t.1 m.q d m.moved
          if x.2 then burstOver (endList x.1 m .aperture) m.q
          else
            let s := moverUnits x.1 m.q n
            burstOver (if !d.toArray ∧ m.moved + n = d.bytes then descDone s m.uid
              else modMover s m.uid fun m => { m with moved := m.moved + n }) m.q

/-- The queue's next burst: of a slot task's MOVE, a list, a round's multicast, or a staging fetch. -/
def queueBurst (s : State) (q : Nat) : State :=
  match (readyMoves s).find? fun m => m.q == q with
  | some m => moveBurst s m
  | none =>
    match (readyMovers s).find? fun m => m.q == q with
    | some m => listBurst s m
    | none =>
      match (readyRots s).find? fun r => r.q == q with
      | some r => roundBurst s r
      | none =>
        match (readyFetches s).find? fun r => r.q == q with
        | some r => fetchBurst s r
        | none => s

/-- DMV_BURST_DONE (R164 to R168, R247): the data mover's next burst of up to 4 KiB, for the queue whose turn it is. -/
def burst (s : State) : State :=
  if !served s then s
  else match pickTurn s.moverTurn (burstQueues s) with
    | none => s
    | some q => queueBurst s q

/-- The array loads of a TARGET 1 descriptor have ended: a refused image ends the list (log 35). -/
def copyLoaded (s : State) (uid : Nat) : State :=
  match findMover s uid with
  | none => s
  | some m =>
    if !(m.loadsLeft.isEmpty && m.sending) then s
    else if m.failed ≠ .ok then endList s m m.failed
    else descDone s uid

/-- ARRAY_LOAD_DONE with what follows for the load's owner. -/
def loadDoneAll (s : State) (n : Nat) : State :=
  match (arr s n).loads with
  | [] => s
  | j :: _ =>
    let s := loadDone s n
    match j.why with
    | .rotation u => roundLoaded s u
    | .copy u => copyLoaded s u
    | _ => s

/-- ARRAY_LOAD_START with what follows for a load refused at its start. -/
def loadStartAll (s : State) (n : Nat) : State :=
  match (arr s n).loads with
  | [] => s
  | j :: _ =>
    let s := loadStart s n
    match j.why with
    | .rotation u => roundLoaded s u
    | .copy u => copyLoaded s u
    | _ => s

/-- DEP_FENCE_RELEASED (R166, R255): the mark that holds a command's list is judged as a FENCE_WAIT is. -/
def releaseDep (s : State) (uid : Nat) : State :=
  match findMover s uid with
  | none => s
  | some m =>
    let d := sdescOf m.desc
    if !m.held ∨ !reached s d.fence (BitVec.ofNat 64 d.value) then s
    else if (fence s d.fence).err then endList s m .fenceErr
    else modMover s uid fun m => { m with held := false, released := true }

end Sys2Proof.Machine
end

