-- ==== Sys2Proof/Machine/Visit.lean ====
section
/-! DEFINITION. QUEUE_VISIT (R250): the front end's visit to the next pending queue, forming steps of RECORD queues (R226) and of ring
queues under their marks (R319, R320). -/

namespace Sys2Proof.Machine

/-- A formed step begins, or completes with what its checks gave; `epoch` is the marked epoch of a ring queue. -/
def startFormed (s : State) (c : Cmd) (st : St) (epoch : Option Nat) : State :=
  if st ≠ .ok then complete s c.uid st
  else modStep (stepRun s c) c.uid fun r => { r with spec := { r.spec with epoch := epoch } }

/-- A standing step of a ring queue has RING.REDUCE (R319). -/
def ringStepOk (s : State) (q : Nat) : Bool := (ringEntry s q).isNone || stReduce (queue s q).standing

/-- A step of n records in group g formed and started. -/
def formAndStart (s : State) (q : QIx) (n g : Nat) (epoch : Option Nat) : State :=
  let f := formStep s q n g
  startFormed f.1 f.2.1 (if ringStepOk s q.val then f.2.2 else .format) epoch

/-- The next marked step of a ring queue on a rank that is not its origin (R320): its records have arrived and its epoch is in force. -/
def formMarked (s : State) (q : QIx) : State :=
  match (rq s q.val).marks with
  | [] => s
  | m :: rest =>
    if epochNow s < m.epoch ∨ ((queue s q.val).pi - (queue s q.val).formed).toNat < m.count then s
    else formAndStart (modRq s q.val fun k => { k with marks := rest }) q m.count m.group (some m.epoch)

/-- One step of a RECORD queue formed where it can be (R226, R320); a standing slot with BARRIER or FETCH_HOLD holds it back while an earlier
step is outstanding (R235). -/
def formVisit (s : State) (q : QIx) : State :=
  if holds235 (queue s q.val).standing && !(cmdsOf s q.val).isEmpty then s
  else if ringForeign s q.val then formMarked s q
  else
    let n := formCount s q.val
    let g := recordGroup s q.val (queue s q.val).stepK
    if n = 0 then s
    else if (ringEntry s q.val).isNone then formAndStart s q n g none
    else if castWaiting s q.val then s
    else formAndStart (castStep s q.val (queue s q.val).formed.toNat n g) q n g (some (epochNow s))

/-- The queue that the front end visits next (R247, R250). -/
def nextVisit (s : State) : Option Nat :=
  let qs := visitable s
  let kernel := qs.filter (· < 64)
  if kernel.isEmpty then nextAfter s.front.lastUser qs else nextAfter s.front.lastKernel kernel

/-- The front end's order moves past queue q. -/
def visited (s : State) (q : Nat) : State :=
  { s with front := if q < 64 then { s.front with lastKernel := some q } else { s.front with lastUser := some q } }

/-- One visit to queue q (R231, R242, R250): an IDLE queue whose pending bit is set becomes ACTIVE; slots are fetched and checked, or a
step is formed; a queue with nothing left goes to IDLE. -/
def visitQueue (s : State) (q : QIx) : State :=
  let s := modQueue s q.val fun k => if k.st = .idle then { k with st := .active } else k
  let s := if isRecord s q.val then formVisit s q else flushRefused 20 (fetchSome 16 s q.val) q
  idleSequence s q.val

/-- QUEUE_VISIT: where the visit meets a host access that has to wait, it changes nothing but the order (R410, R412). -/
def queueVisitRun (s : State) : State :=
  match nextVisit s with
  | none => s
  | some q =>
    if h : q < 16384 then
      let t := visitQueue s ⟨q, h⟩
      visited (if t.hostWait then { settle s t with hostWait := false } else t) q
    else s

end Sys2Proof.Machine
end

