-- ==== Sys2Proof/Machine/Stall.lean ====
section
/-! DEFINITION. Watch events and stall detection (R259 to R266), detaching a hedge or a rank (R107, R265, R322), destroying a queue
(R269 to R273), and the hedge's enable, rejoin and snapshot (R107 to R109, R129, R268). -/

namespace Sys2Proof.Machine

/-! ## Judging a queue (R261) -/

/-- A step waits only for hedges that run another queue's step: its records stand in their slots everywhere. -/
def stepWaitsTurn (s : State) (r : StepRun) : Bool :=
  let left := (allHedges r.spec).filter fun h => !r.missing.contains h && !r.ended.contains h
  !left.isEmpty && allPlaced s r && left.all fun h => match (hedge s h).run with
    | some x => (match findStep s x.uid with | some t => t.q != r.q | none => false)
    | none => false

/-- A close waits behind another queue's on the output unit of its span. -/
def closeWaitsTurn (s : State) (r : StepRun) : Bool :=
  let mine := (List.range 16).filter fun h => (hedge s h).closes.any fun c => c.uid == r.uid
  !mine.isEmpty && mine.all fun h => match (hedge s h).closes with
    | c :: _ => (match findStep s c.uid with | some t => t.q != r.q | none => false)
    | [] => false

/-- A load waits for arrays that another queue's steps search. -/
def loadWaitsTurn (s : State) (q : Nat) (c : Cmd) : Bool :=
  !c.waits.isEmpty && c.waits.all fun n => searching s n && match (hedge s (n / 8)).run with
    | some x => (match findStep s x.uid with | some t => t.q != q | none => false)
    | none => false

/-- An engine operation waits while another queue's has the turn. -/
def opWaitsTurn (s : State) (uid : Nat) : Bool :=
  s.rxus.any fun x => x.2.eng.any fun e => e.2.any (fun j => j.uid == some uid) &&
    match nextOp s (sget ({} : Turn) x.2.engTurn e.1) e.2 with
    | some j => j.uid != some uid
    | none => false

/-- A list waits while another queue has the data mover's turn. -/
def listWaitsTurn (s : State) (m : Mover) : Bool :=
  !m.held && ((readyMovers s).any fun x => x.uid == m.uid) && match pickTurn s.moverTurn (burstQueues s) with
    | some q => q != m.q
    | none => false

/-- A rotation's multicast waits while another queue has the data mover's turn. -/
def roundWaitsTurn (s : State) (r : Rotation) : Bool :=
  ((readyRots s).any fun x => x.uid == r.uid) && match pickTurn s.moverTurn (burstQueues s) with
    | some q => q != r.q
    | none => false

/-- Fence waits count as judged work for the queue (`FENCE_STALL`). -/
def fenceStall (s : State) (q : Nat) : Bool := regBit s (qfeReg q 0x34) 10

/-- A dispatched command does not count as judged work (R261). The wait of an INDIRECT is that of its slots. -/
def excused (s : State) (q : Nat) (c : Cmd) : Bool :=
  if c.op = 9 then !fenceStall s q
  else if c.op = 11 then true
  else if c.op = 1 then loadWaitsTurn s q c
  else if c.op = 4 then
    match findMover s c.uid with
    | some m => (m.held && !fenceStall s q) || listWaitsTurn s m
    | none => false
  else if c.op = 6 ∨ c.op = 7 then opWaitsTurn s c.uid
  else
    match findStep s c.uid with
    | none => false
    | some r =>
      let rot := match findRot s c.uid with
        | some t => t.stage == .claiming || roundWaitsTurn s t || (t.waitMark.isSome && !fenceStall s q)
        | none => false
      rot || ((List.range 16).any fun h => (hedge s h).opens.any fun o => o.uid == c.uid) || stepWaitsTurn s r || closeWaitsTurn s r

/-- The queue has outstanding work that counts (R261): published entries behind an enable, or a command that is not excused. -/
def judgedNow (s : State) (q : Nat) : Bool :=
  let k := queue s q
  (k.en && k.pi != k.ci) || s.cmds.any fun c => cmdQueue s c == q && !excused s q c

/-- QUIET of a queue at a watch event (R261). -/
def quietNext (k : Queue) (judged : Bool) : Nat :=
  if k.progress then 0 else if judged && k.judged then min 255 (k.quiet + 1) else 0

/-- The stall settings of a queue in force since the last watch event (R251). -/
def stallCfg (s : State) (q : Nat) : Nat := (queue s q).stallCfg.toNat

/-- STALL_THR of a queue. -/
def stallThr (s : State) (q : Nat) : Nat := fieldOf (stallCfg s q) 7 0

/-- One queue at a watch event: the stall settings written since the last one take effect (R251), an action in progress counts it, QUIET
is updated (R261), and a stall is due where QUIET has reached a nonzero STALL_THR (R262). -/
def watchQueue (s : State) (q : Nat) (k : Queue) : Queue :=
  let k := if k.acting = .none then k else { k with watch := k.watch + 1 }
  let j := judgedNow s q
  let n := quietNext k j
  let thr := regField s (qfeReg q 0x34) 7 0
  { k with stallCfg := regGet s (qfeReg q 0x34), quiet := n, judged := j, progress := false,
           stallDue := decide (0 < thr) && decide (thr ≤ n) }

/-- A watch event (R259, R261): it is counted, and every queue is judged. -/
def watchEvent (s : State) : State :=
  regAdd { s with queues := s.queues.map fun x => (x.1, watchQueue s x.1 x.2) } watchCount 1

/-- A write to `GLB_WATCH_POKE` (R259). -/
def watchPokeRun (s : State) : State := if regBit s watchCfg 1 then watchEvent s else s

/-- A rising edge on WATCH (R259). -/
def watchPinRun (s : State) : State := if regBit s watchCfg 0 then watchEvent s else s

/-- The strobe of line i that reached SLOT_DIV makes its watch event (R259). -/
def slotWatchRun (s : State) (i : Nat) : State :=
  match sget 0 s.watchDue i with
  | 0 => s
  | n + 1 => watchEvent { s with watchDue := sset s.watchDue i n }

/-! ## Detaching -/

/-- The hedges whose full skids hold the multicast of a queue's sending step (R265; DESIGN CHOICE, log 12): every span that has records
left is held, and these are all its hedges that are full, each with its span. -/
def holders (s : State) (r : StepRun) : List (Nat × List Nat) :=
  let ks := (List.range r.spec.spans.length).filter fun k => decide (sget 0 r.sent k < spanCount r.spec k)
  let full := fun k => (receivers r k).filter fun h => decide (Config.skidDepth ≤ (skid s h r.bg).length)
  if ks.any fun k => (full k).isEmpty then [] else ks.flatMap fun k => (full k).map fun h => (h, spanHs r.spec k)

/-- A step that a detachment takes from hedge h (R107): of the span, and not run there yet. Rotations keep their hedges (R159). -/
def losesHedge (s : State) (h : Nat) (span : List Nat) (r : StepRun) : Bool :=
  (allHedges r.spec).contains h && spanHs r.spec (spanOf r.spec h) == span && !r.started.contains h && !r.missing.contains h &&
  (findRot s r.uid).isNone

/-- What a step that loses hedge h leaves there: nothing is searched, its group goes on without what the step was to add (R107, R131),
and a claim made for it goes back. -/
def loseHedge (s : State) (h : Nat) (r : StepRun) : State :=
  let s := modStep s r.uid fun r => { r with missing := r.missing ++ [h], sets := sdel r.sets h }
  let s := if r.checked then modGroup s h r.spec.group fun g => { g with lost := true } else s
  if (hedge s h).chosen == some r.uid then dropTokens (modHedge s h fun e => { e with chosen := none }) (ownStep h) else s

/-- A hedge detached from a span (R107, stage 1): the steps of the span that it has not run lose it; their skid entries and slots are
freed at the end of the step it runs, or at once; and what waited for it alone goes on. -/
def detachHedge (s : State) (h : Nat) (span : List Nat) : State :=
  let lost := s.steps.filter (losesHedge s h span)
  let s := lost.foldl (fun s r => loseHedge s h r) (modHedge s h fun e => { e with detachedFrom := e.detachedFrom ++ [span] })
  let s := if (hedge s h).run.isSome then modHedge s h fun e => { e with freeDetached := e.freeDetached ++ lost.map (·.uid) }
    else lost.foldl (fun s r => freeRecords s h r.uid) s
  lost.foldl (fun s r => stepFollow (noteTaken s r.uid) r.uid h) s

/-- The origin of a ring queue clears READY for the model on the ranks that reported themselves (R322). -/
def detachRanks (s : State) (q : Nat) : State :=
  match ringEntry s q with
  | none => s
  | some e =>
    let n := ringModel s e
    let s := (rq s q).reports.foldl (fun s r =>
      let v := sget ({} : NoticeRec) s.utr.notices r
      let s := modUtr s fun u => { u with notices := sset u.notices r { v with ready := setField v.ready n n 0 } }
      floodNotice s [2, BitVec.ofNat 8 r, BitVec.ofNat 8 n]) s
    coordinate (modRq s q fun k => { k with reports := [] })

/-- `DETACHED` is set and QUIET returns to 0 (R265). -/
def noteDetached (s : State) (q : Nat) : State :=
  modQueue (regOr s (qfeReg q 0x38) (2 ^ 12)) q fun k => { k with quiet := 0 }

/-- What DETACH does for the queue (R265): none where no detachable hedge or rank is the cause. -/
def tryDetach (s : State) (q : Nat) : Option State :=
  if !bitOf (stallCfg s q) 9 then none
  else
    let byHedge := match sendingStep s q with
      | some r => if (findRot s r.uid).isSome then [] else holders s r
      | none => []
    match byHedge with
    | h :: hs => some (noteDetached ((h :: hs).foldl (fun s x => detachHedge s x.1 x.2) s) q)
    | [] => if (rq s q).reports.isEmpty then none else some (noteDetached (detachRanks s q) q)

/-! ## Stalls -/

/-- KILL (R264): units abandoned, groups and slot runs ended, every dispatched command KILLED; the action is then over (R266). -/
def killQueue (s : State) (q : Nat) : State :=
  let s := modQueue s q fun k => { k with acting := .kill }
  let s := stopUnits s q
  let s := (runsOf s q).foldl (fun s x => voidRunDone s x.1 x.2) s
  let s := dropQueueGroups (dropTickets s q) q
  actionDone (completeAll s q .killed) q

/-- DRAIN_QUEUE_COMPLETE (R263, R138): every engine has finished its unit. Runs without an open task end; groups with a dispatched close
begin to close with CANCEL; everything else completes DRAINED, and groups without a dispatched close return to free. -/
def drainComplete (s : State) (q : Nat) : State :=
  if (queue s q).acting ≠ .drain ∨ (queue s q).acked ∨ unitRuns s q then s
  else
    let s := modQueue s q fun k => { k with acked := true }
    let s := dropTickets ((runsOf s q).foldl (fun s x => closeRunDone s x.1 x.2) s) q
    let keep := (s.steps.filter fun r => r.q == q && closesUnderDrain s r).map (·.uid)
    let s := dropUnclosed (keep.foldl drainClose s) q keep
    let s := stopIndirects s q .drained
    let s := ((cmdsOf s q).filter fun c => !keep.contains c.uid).foldl (fun s c => endStopped s q .drained c) s
    if (queue s q).acting = .drain ∧ (cmdsOf s q).isEmpty then actionDone s q else s

/-- The queue enters STALLED and its action begins (R262 to R264). -/
def enterStalled (s : State) (q : Nat) : State :=
  let s := modQueue s q fun k =>
    { k with st := .stalled, wasDis := k.st == .disabling, en := false, window := [], watch := 0, acked := false }
  let s := raiseQueue (regOr s (qfeReg q 0x38) (2 ^ 10)) q
  if bitOf (stallCfg s q) 8 then killQueue s q
  else drainQueueRuns (stopMoverLoads (modQueue s q fun k => { k with acting := .drain }) q) q

/-- STALL_DECLARED (R262, R265): QUIET has reached a nonzero STALL_THR. -/
def stallRun (s : State) (q : Nat) : State :=
  let k := queue s q
  if !k.stallDue ∨ k.quiet < stallThr s q ∨ k.acting ≠ .none ∨ !(k.st == .idle || k.st == .active || k.st == .disabling) then s
  else
    let s := modQueue s q fun k => { k with stallDue := false }
    match tryDetach s q with
    | some t => t
    | none => enterStalled s q

/-- DRAIN_ESCALATION (R266): a DRAIN that has not finished after STALL_THR further watch events becomes a KILL. -/
def escalateRun (s : State) (q : Nat) : State :=
  let k := queue s q
  if k.acting ≠ .drain ∨ stallThr s q = 0 ∨ k.watch < stallThr s q then s
  else killQueue (regOr s (qfeReg q 0x38) (2 ^ 11)) q

/-! ## Destroying a queue -/

/-- A destroy is accepted (Table 11-2, step 1): RETIRING, nothing further fetched or formed, ENQUEUEs that wait for it cancelled (R258), slot
runs ended as R188 says. -/
def destroyStart (s : State) (q : Nat) (origin : Option Nat) (noFenceErr : Bool) : State :=
  let s := modQueue s q fun k => { k with st := .retiring, acting := .destroy, window := [], watch := 0, acked := false, pend := false,
                                          pendOn := false, origin := origin, noFenceErr := noFenceErr }
  let s := if (rq s q).marks.isEmpty then s else dropMarks s q
  let s := (s.cmds.filter fun c => c.op == 12 && !c.queued && opB18 c.slot == q).foldl (fun s c => complete s c.uid .cancelled) s
  (runsOf s q).foldl (fun s x => voidRunDone s x.1 x.2) (stopMoverLoads s q)

/-- QUEUE_DESTROY (R269). -/
def queueDestroyRun (s : State) (c : Cmd) : State :=
  let t := leAt c.slot 0x18 2
  if !bound s t ∨ t = cmdQueue s c ∨ t < 64 then complete s c.uid .format
  else destroyStart s t (some c.uid) (bitOf (leAt c.slot 0x1A 1) 0)

/-- A write of 1 to `QFE_CTL`.DESTROY (R269): it acts on a bound kernel queue. -/
def destroyWrite (s : State) (q : Nat) : State := if q < 64 ∧ bound s q then destroyStart s q none false else s

/-- The runs that the queue no longer has a use for. -/
def voidRuns (s : State) (q : Nat) : List (Nat × Nat) :=
  s.rxus.flatMap fun x => (x.2.streams.filter fun y => match y.2.run with | some r => r.q == q && r.void | none => false).map fun y => (x.1, y.1)

/-- DESTROY_ACK_TIMEOUT (R273): the engines that have not acknowledged are reset, and then acknowledge. -/
def destroyTimeout (s : State) (q : Nat) : State :=
  let k := queue s q
  if k.acting ≠ .destroy ∨ stallThr s q = 0 ∨ k.watch < stallThr s q ∨ !unitRuns s q then s
  else
    let s := stopUnits (regOr s (qfeReg q 0x38) (2 ^ 11)) q
    (voidRuns s q).foldl (fun s x => closeRunDone s x.1 x.2) s

/-- `n` slots read from address `a` on, 64 bytes apart in the ring or in a buffer. -/
def slotsAt (s : State) (q : Nat) : List Nat → State × List (List Byte)
  | [] => (s, [])
  | a :: t =>
    let r := readMem s q 0xFC a 64
    let rest := slotsAt r.1 q t
    (rest.1, (if r.2.ap || r.2.poison then [] else r.2.bytes) :: rest.2)

/-- Ring indices published and not dispatched: from CI, past an INDIRECT that still occupies it, to PI. -/
def unsentIndices (k : Queue) : List Word :=
  let start := match sendingInd k with | some n => if n.sent < n.count then k.ci + 1 else k.ci | none => k.ci
  (List.range (k.pi - start).toNat).map fun i => start + BitVec.ofNat 32 i

/-- Addresses of the slots of the running buffer that were not dispatched. -/
def unsentBuffer (k : Queue) : List Nat :=
  match sendingInd k with
  | some n => (List.range (n.count - n.sent)).map fun i => n.buf.toNat + 64 * (n.sent + i)
  | none => []

/-- The fence signals among slots (R271), as (fence, value): those that would have been carried out. -/
def fenceSlots (s : State) (q : Nat) (inBuf : Bool) (slots : List (List Byte)) : List (Nat × DWord) :=
  (slots.filter fun b => b.length == 64 && slotOp b == 8 && slotCheck s q inBuf b == .ok && mayFence s q (leAt b 0x18 2)).map
    fun b => (leAt b 0x18 2, BitVec.ofNat 64 (leAt b 0x10 8))

/-- A CANCELLED completion for a published slot (R272). -/
def cancelSlot (s : State) (q : Nat) (x : Word × List Byte) : State :=
  let b := if x.2.length = 64 then x.2 else List.replicate 64 0
  writeCompletion s q (slotUser b) 0 0 x.1 .cancelled (slotIrq b)

/-- DESTROY_ACKS_DONE (Table 11-2, steps 3 to 6): groups and claims are released, CANCELLED completions written, fences signalled
with the error flag, and the queue is FREE. -/
def destroyFinish (s : State) (q : Nat) : State :=
  let k := queue s q
  if k.acting ≠ .destroy ∨ unitRuns s q then s
  else
    let ixs := if isRecord s q then [] else unsentIndices k
    let ring := slotsAt s q (ixs.map (slotAddr s q))
    let buf := slotsAt ring.1 q (unsentBuffer k)
    let s := buf.1
    let fs := fenceSlots s q false ring.2 ++ fenceSlots s q true buf.2
    let s := dropQueueGroups (dropTickets s q) q
    let s := completeAll s q .cancelled
    let s := (List.zip ixs ring.2).foldl (fun s x => cancelSlot s q x) s
    let s := if k.noFenceErr then s else fs.foldl (fun s f => signal s f.1 f.2 true) s
    let s := (voidRuns s q).foldl (fun s x => closeRunDone s x.1 x.2) s
    let s := setQueue s q {}
    match k.origin with
    | some u => complete s u .ok
    | none => s

/-! ## Hedge registers -/

/-- A write of `HDG_CTL`.EN (R268, Table 4-7); a hedge of role OFF ignores it (R427), and one being restructured latches it (R377). -/
def hedgeEnRun (s : State) (h : Nat) (on : Bool) : State :=
  if (hedge s h).restructuring then modHedge s h fun e => { e with en := { e.en with pendOn := on } }
  else if on ∧ role s h = 0 then s
  else modHedge s h fun e => { e with en := e.en.write on e.run.isSome }

/-- A write of 1 to `HDG_CTL`.REJOIN (R107, stage 4). -/
def rejoinRun (s : State) (h : Nat) : State := modHedge s h fun e => if e.detachedFrom.isEmpty then e else { e with rejoin := true }

/-- HEDGE_REJOINED: the first batch boundary after the request; the hedge is in its spans again, and DETACHED clears. -/
def rejoinedRun (s : State) (h : Nat) : State :=
  modHedge s h fun e => if e.rejoin then { e with detachedFrom := [], rejoin := false } else e

/-- A write of 1 to `HDG_SNAP_CTL`.TAKE (R109): a request pending already stands. -/
def hdgSnapRequest (s : State) (h : Nat) : State :=
  modHedge s h fun e => if e.snapReq then e else { e with snapReq := true, snapValid := false }

/-- The counts of a partition: free, reserved and occupied slots (R102). -/
def partCounts (s : State) (h p : Nat) : Nat × Nat × Nat :=
  let occ := (part s h p).occ.length
  let rsvd := min (slotCount s h p - occ) (borrowedOpen s h p)
  (slotCount s h p - occ - rsvd, rsvd, occ)

/-- HDG_SNAPSHOT_LATCH (R106, R109, R129): the requested snapshot is taken. -/
def hdgSnapLatch (s : State) (h : Nat) : State :=
  if !(hedge s h).snapReq then s
  else
    let put := fun (s : State) (off v : Nat) => regSet s (hdgReg h off) (BitVec.ofNat 32 v)
    let s := (List.range 4).foldl (fun s p =>
      let c := partCounts s h p
      put (put (put s (0x84 + 16 * p) c.1) (0x88 + 16 * p) c.2.1) (0x8C + 16 * p) c.2.2) s
    let s := put (put (put s 0x100 (freeRows s h)) 0x104 (rowsOfGroups s h false)) 0x108 (rowsOfGroups s h true)
    modHedge s h fun e => { e with snapReq := false, snapValid := true }

end Sys2Proof.Machine
end

