-- ==== Sys2Proof/Machine/Irq.lean ====
section
/-! DEFINITION. Interrupt aggregation (R435, R436): the sources of `GLB_IRQ_STAT`, and the vector raised when an unmasked source rises. -/

namespace Sys2Proof.Machine

/-- A host receive channel holds a block or a word (R302). -/
def mbxWaits (s : State) : Bool :=
  s.chans.any fun x => decide (x.1 % 256 = 0) && (!x.2.queue.isEmpty || x.2.word.isSome)

/-- Queues in STALLED now (`FNW_STALLED`). -/
def stalledCount (s : State) : Nat := (s.queues.filter fun x => x.2.st == .stalled).length

/-- The sources of Table 18-8 as the low 11 bits of `GLB_IRQ_STAT`. -/
def irqSources (s : State) : Nat :=
  let hs := List.range 16
  let us := List.range 4
  b2n (regBit s 0x18 0) + 2 * b2n (mbxWaits s) + 4 * b2n (regField s (memReg 0x20) 6 0 != 0) + 8 * b2n (regField s (pwrReg 0x48) 6 0 != 0) +
  16 * b2n (hs.any fun h => regField s (hdgReg h 4) 9 8 != 0 || regBit s (hdgReg h 0x188) 0) +
  32 * b2n (us.any fun u => regField s (rxuReg u 4) 12 8 != 0 || regBit s (rxuReg u 0x100) 16) +
  64 * b2n (regField s (utrCom 0x10) 4 0 != 0 || us.any fun p => regField s (utrPort p 4) 17 16 != 0) +
  128 * b2n (regField s (hifReg 4) 3 0 != 0 || us.any fun m => regField s (macReg m 4) 10 8 != 0) +
  256 * b2n (stalledCount s != 0) +
  512 * b2n (regBit s (mgtReg 0x8030) 16 || regBit s (mgtReg 0x8060) 16 || regBit s (mgtReg 0x8050) 2) +
  1024 * b2n (coreIds.any fun id => regBit s (mgtReg (0x4000 + 0x40 * id)) 8)

/-- The unmasked sources that read 1. -/
def irqActive (s : State) : Nat := irqSources s &&& (0x7FF - regField s 0x1C 10 0)

/-- The device vector raised (R415). -/
def raiseDevice (s : State) : State := raiseVec s (regField s 0x20 10 0)

/-- What ends every command: from `s` it led to `t`, and the device vector is raised where an unmasked source came to read 1, by itself or
by its mask bit being cleared (R436). -/
def finish (s t : State) : State :=
  if t.glb.dev = .off ∨ t.glb.dev = .reset then t
  else if irqActive t &&& (0x7FF - irqActive s) = 0 then t else raiseDevice t

/-- REARM (R436). -/
def rearmRun (s : State) : State := if irqActive s = 0 then s else raiseDevice s

/-- A write of `GLB_IRQ_MASK` (R436). -/
def irqMaskRun (s : State) (v : Word) : State := regSet s 0x1C (BitVec.ofNat 32 (v.toNat % 2 ^ 11))

end Sys2Proof.Machine
end

