-- ==== Sys2Proof/Machine/Sagelog.lean ====
section
/-! DEFINITION. Sage's event log and state record (R402 to R404), the device state with its interrupt source, FAULT (R344, R356,
R360, R397) and the return of everything to its reset value (R299, R433, R440, R449). -/

namespace Sys2Proof.Machine

/-! ## Log and records -/

/-- Positions of a bank's record area. -/
def recSlots : Nat := 256

/-- A new generation of the state record written (R404, R402): GENERATION g goes to bank g mod 2. -/
def writeRecord (s : State) : State :=
  let g := s.sage
  let gen := g.cur.gen + 1
  let bank := gen % 2
  let pos := sget 0 g.recNext bank
  let kept := if pos % 16 = 0 then g.recs.filter fun e => !(e.bank == bank && decide (pos ≤ e.pos) && decide (e.pos < pos + 16)) else g.recs
  let r : StateRec := { g.cur with bank := bank, pos := pos, gen := gen, logSeq := g.logSeq, trips := g.trips,
                                   tjMax := max g.cur.tjMax g.tjSeen, lastHold := g.holdSeen }
  { s with sage := { g with recs := kept ++ [r], recNext := sset g.recNext bank ((pos + 1) % recSlots), cur := r } }

/-- The 32 bytes of a log entry (Table 16-10). -/
def logBytes (e : LogEntry) : List Byte :=
  let b := toLe 4 e.seq ++ toLe 4 e.boot ++ toLe 4 e.watch ++ toLe 2 e.code ++ toLe 1 e.source ++ toLe 1 e.sev ++ padTo 12 e.data
  b ++ toLe 4 (crc32 b)

/-- WCLASS of a record: bits [2n+1:2n] hold array n's class. -/
def classBits (m : SMap Nat) : Nat := (m.map fun x => x.2 % 4 * 4 ^ x.1).sum

/-- The 256 bytes of a state record (Table 16-12). -/
def recBytes (r : StateRec) : List Byte :=
  if r.gen = 0 then List.replicate 256 0
  else
    let b := padTo 252 (toLe 4 0x52545350 ++ toLe 2 1 ++ toLe 2 0 ++ toLe 4 r.gen ++ toLe 4 r.boots ++ toLe 16 r.wdraw ++
      toLe 32 (classBits r.wclass) ++ toLe 4 r.logSeq ++ toLe 2 r.trips ++ toLe 2 (unsigned 16 r.tjMax) ++ toLe 2 r.lastFault ++
      toLe 1 r.lastHold)
    b ++ toLe 4 (crc32 b)

/-- The record in force at BOOT (R404): the valid one with the highest GENERATION, or all 0. -/
def recordInForce (rs : List StateRec) : StateRec := rs.foldl (fun a r => if a.gen ≤ r.gen then r else a) {}

/-- A BUDGET entry (code 0x0040). -/
def logBudget (s : State) : State :=
  logEvent s 0x40 1 0 (toLe 2 (regField s (pwrReg 0) 9 0) ++ toLe 2 s.pwr.effective ++ toLe 1 (b2n s.pwr.clampTo.isSome))

/-! ## The device state -/

/-- The device changes state (R355, R435): the STATE source is set. -/
def setDev (s : State) (d : Dev) : State :=
  if s.glb.dev = d then s else regOr { s with glb := { s.glb with dev := d } } 0x18 1

/-- HOLD with a reason (R357): it is reported, and logged. -/
def enterHold (s : State) (reason : Nat) : State :=
  let s := setDev { s with glb := { s.glb with reason := reason, startPending := false }, sage := { s.sage with holdSeen := reason } } .hold
  logEvent (leaveRing (regSetField s (mgtReg 0x8000) 15 8 reason)) 2 1 2 (toLe 1 reason)

/-- The device is powered: in any state but OFF. -/
def powered (s : State) : Bool := s.glb.dev != .off

/-- FAULT (R360): every engine stops at once, the bypass conducts, and Sage records the cause. In RESET Sage does not run. -/
def enterFault (s : State) (cause : Nat) (data : List Byte) : State :=
  if s.glb.dev = .off ∨ s.glb.dev = .reset ∨ s.glb.dev = .fault then s
  else
    let s := leaveRing (setDev { s with glb := { s.glb with reason := 0, targetReset := false, startPending := false } } .fault)
    let s := logEvent s 3 1 3 (toLe 2 cause ++ data)
    writeRecord { s with sage := { s.sage with cur := { s.sage.cur with lastFault := cause } } }

/-- SAGE_EXCEPTION (Table 15-2). -/
def sageExceptionRun (s : State) (mcause mepc : Word) : State := enterFault s 2 (toLe 4 mcause.toNat ++ toLe 4 mepc.toNat)

/-- THERMAL_TRIP (R397): THERMTRIP_N goes low, the core's island switches open, and Sage enters FAULT. -/
def thermalTripRun (s : State) : State :=
  if s.glb.dev = .off ∨ s.glb.thermtrip then s
  else
    let s := { s with glb := { s.glb with thermtrip := true } }
    if s.glb.dev = .reset then s
    else
      let s := logEvent { s with sage := { s.sage with trips := min 0xFFFF (s.sage.trips + 1) } } 0x22 1 3 (toLe 2 (unsigned 16 s.pwr.tj))
      if s.glb.dev = .fault then s else enterFault s 3 []

/-! ## RESET -/

/-- The registers whose fields are preserved across RESET (P), the ones that Sage's own state gives apart (R9). -/
def keptRegs (s : State) : SMap Word :=
  s.regs.filter fun x => x.1 == mgtReg 0x8008 || x.1 == hifReg 8 || x.1 == hifReg 0xC

/-- Everything returns to its reset value (R433, R299): what stays is the PCIe function, host memory, the pins, what Sage holds in flash and
fuses, the P fields, and the commands waiting. -/
def resetAll (s : State) : State :=
  let g := s.glb
  { pending := s.pending, freeTick := s.freeTick, host := s.host, hostPoison := s.hostPoison, hif := s.hif, regs := keptRegs s,
    sage := { s.sage with comps := [], body := [], fw := [] },
    glb := { revision := g.revision, strapAuto := g.strapAuto, strapTopo := g.strapTopo, strapRank := g.strapRank, resetN := g.resetN,
             bypassN := g.bypassN, vka := g.vka, railsOk := g.railsOk, refclk := g.refclk, thermtrip := g.thermtrip,
             density := g.density, linkEcc := g.linkEcc } }

/-- RESET_N_ASSERT (R440): RESET from any powered state. -/
def resetAssertRun (s : State) : State :=
  let s := { s with glb := { s.glb with resetN := false } }
  if powered s then
    let t := resetAll s
    { t with glb := { t.glb with dev := .reset } }
  else s

/-- POWER_UP (Table 19-6, R356): the rails reach regulation, and the device enters RESET; VDD_AON has been removed since any trip. -/
def powerUpRun (s : State) : State :=
  if s.glb.dev ≠ .off then s
  else { s with glb := { s.glb with dev := .reset, railsOk := true, thermtrip := false } }

/-- RAIL_LOSS (R449): a hardware-detected rail falls below its minimum, and the device returns to OFF; P fields hold 0 at power-on (R9), and
the PCIe function is unpowered with the rest. -/
def railLossRun (s : State) : State :=
  let t := resetAll s
  { t with regs := [], hif := {}, glb := { t.glb with dev := .off, railsOk := false },
           pwr := {}, sage := { t.sage with holdSeen := 0, tjSeen := 0 } }

end Sys2Proof.Machine
end

