-- ==== Sys2Proof/Machine/Power.lean ====
section
/-! DEFINITION. The token book's budget and grants (R387 to R392), the governor and its alarms (R383 to R386, R395 to R398), and the
confirmation of voltage steps (R384). -/

namespace Sys2Proof.Machine

/-! ## The book -/

/-- The least `n` below the bound with n^25 · d^25 ≥ a^25 · 2^k: ⌈(a / d) · 2^(k / 25)⌉. -/
def ceilPow (a d : Nat) (k : Int) : Nat :=
  let up := a ^ 25 * 2 ^ k.toNat
  let dn := d ^ 25 * 2 ^ (-k).toNat
  ((List.range 1024).find? fun n => decide (up ≤ n ^ 25 * dn)).getD 1023

/-- The leakage holding at VDD_CORE of `mv` millivolts (R388). -/
def leakTokens (s : State) (mv : Nat) : Nat := ceilPow (4 * Config.leakNom * mv ^ 3) (750 ^ 3) (s.pwr.tj - 85)

/-- FACTOR at VDD_CORE of `mv` millivolts and the measured pace (R388); 256 before the first pass. -/
def factorAt (s : State) (mv : Nat) : Nat :=
  if s.pwr.paceCore = 0 then s.pwr.factor else cdiv (256 * mv ^ 2 * 2500) (750 ^ 2 * s.pwr.paceCore)

/-- Owed holdings take what the pool has (R388, R390). -/
def payOwed (s : State) : State :=
  let l := min s.pwr.pool s.pwr.leakOwed
  let x := min (s.pwr.pool - l) s.pwr.rxOwed
  { s with pwr := { s.pwr with pool := s.pwr.pool - l - x, leak := s.pwr.leak + l, leakOwed := s.pwr.leakOwed - l,
                               rx := s.pwr.rx + x, rxOwed := s.pwr.rxOwed - x } }

/-- MIN_BUDGET (R391). -/
def minBudget (s : State) : Nat := s.pwr.edge + s.pwr.rx + s.pwr.rxOwed + s.pwr.leak + s.pwr.leakOwed + 64

/-- The clamp follows MIN_BUDGET, and EFFECTIVE moves toward where the budget is to settle (R390, R391). -/
def moveBudget (s : State) : State :=
  let m := minBudget s
  let was := s.pwr.clampTo
  let now : Option Nat := if regField s (pwrReg 0) 9 0 < m then some m else none
  let s := { s with pwr := { s.pwr with clampTo := now } }
  let s := if now.isSome then regOr s (pwrReg 0x48) (2 ^ 5) else s
  let g := budgetGoal s
  let s :=
    if s.pwr.effective ≤ g then
      payOwed { s with pwr := { s.pwr with pool := s.pwr.pool + (g - s.pwr.effective), effective := g } }
    else
      let r := min s.pwr.pool (s.pwr.effective - g)
      { s with pwr := { s.pwr with pool := s.pwr.pool - r, effective := s.pwr.effective - r } }
  if was.isSome == now.isSome then s else logBudget s

/-- TARGET_WRITE (R390, R391): a value outside 240 to 740 is ignored. -/
def targetRun (s : State) (v : Nat) : State :=
  if v < 240 ∨ 740 < v then s
  else
    let t := moveBudget (regSetField s (pwrReg 0) 9 0 v)
    if t.sage.logSeq = s.sage.logSeq then logBudget t else t

/-- The book as BOOT loads it (R366, R387, R391): TOKENS_EDGE and the leakage holding are taken, and the rest is the pool. -/
def loadBook (s : State) (budget edge : Nat) : State :=
  let s := regSetField s (pwrReg 0) 9 0 budget
  let leak := leakTokens s s.pwr.vcoreSet
  let hold := edge + leak
  let eff := max budget (hold + 64)
  moveBudget { s with pwr := { s.pwr with edge := edge, leak := leak, effective := eff, pool := eff - hold } }

/-- The leakage holding follows a new value (R388). -/
def setLeak (s : State) (n : Nat) : State :=
  let p := s.pwr
  if p.leak + p.leakOwed ≤ n then payOwed { s with pwr := { p with leakOwed := n - p.leak } }
  else if p.leak ≤ n then { s with pwr := { p with leakOwed := n - p.leak } }
  else returnTokens { s with pwr := { p with leak := n, leakOwed := 0 } } (p.leak - n)

/-- The claim that is granted next (R389): the head of the receive class, else of the other class. -/
def headClaim (s : State) : Option Claim :=
  match s.pwr.waiting.find? (·.recv) with
  | some c => some c
  | none => if s.pwr.crit then none else s.pwr.waiting.head?

/-- TOKEN_CLAIM_GRANTED (R387 to R389): the head claim is granted at the size of the moment where the pool meets it. -/
def grantRun (s : State) : State :=
  if s.pwr.brownout || s.pwr.regCond || s.pwr.leakOwed + s.pwr.rxOwed != 0 then s
  else
    match headClaim s with
    | none => s
    | some c =>
      let n := claimSize s c.nom
      if s.pwr.pool < n then s
      else { s with pwr := { s.pwr with pool := s.pwr.pool - n, held := s.pwr.held ++ [{ c with cost := n }],
                                        waiting := s.pwr.waiting.filter (·.owner != c.owner) } }

/-- Tokens held (R387). -/
def heldTokens (p : Pwr) : Nat := p.edge + p.rx + p.leak + p.topup + (p.held.map (·.cost)).sum

/-- A write of 1 to `PWR_SNAP_CTL`.TAKE (R392). -/
def pwrSnapRequest (s : State) : State :=
  if s.pwr.snapReq then s else { s with pwr := { s.pwr with snapReq := true, snapValid := false } }

/-- PWR_SNAPSHOT_LATCH (R392). -/
def pwrSnapLatch (s : State) : State :=
  if !s.pwr.snapReq then s
  else
    let w := s.pwr.pool % 1024 + heldTokens s.pwr % 1024 * 2 ^ 10 + s.pwr.effective % 1024 * 2 ^ 20
    regSet { s with pwr := { s.pwr with snapReq := false, snapValid := true } } (pwrReg 0xC) (BitVec.ofNat 32 w)

/-! ## The governor -/

/-- VDD_CORE's floor in mV (R384). -/
def vcoreFloor (s : State) : Nat := if (List.range 4).any fun u => (rxu s u).en.en then max 550 (plAt s 0xE 2) else 550

/-- The highest reading and its sensor (R395). -/
def hottest (l : List (BitVec 8)) : Int × Nat :=
  (List.zip (List.range l.length) l).foldl (fun a x => if a.1 < signed 8 x.2.toNat then (signed 8 x.2.toNat, x.1) else a)
    (signed 8 (nth (0 : BitVec 8) l 0).toNat, 0)

/-- WARN and CRIT entered and left (Table 16-7). -/
def thermal (s : State) (hot : Nat) : State :=
  let w := (regField s (pwrReg 0x44) 7 0 : Int)
  let c := (regField s (pwrReg 0x44) 15 8 : Int)
  let t := s.pwr.tj
  let data := toLe 2 (unsigned 16 t) ++ toLe 1 hot
  let s := if w ≤ t ∧ !s.pwr.warn then logEvent (regOr { s with pwr := { s.pwr with warn := true } } (pwrReg 0x48) 1) 0x20 1 1 data
    else if t < w - 5 then { s with pwr := { s.pwr with warn := false } } else s
  if c ≤ t ∧ !s.pwr.crit then logEvent (regOr { s with pwr := { s.pwr with crit := true } } (pwrReg 0x48) 2) 0x21 1 2 data
  else if t < c - 5 then { s with pwr := { s.pwr with crit := false } } else s

/-- TJ seen; a rise of 5 °C or more over TJ_MAX writes a new state record (R404). -/
def noteTj (s : State) : State :=
  let s := { s with sage := { s.sage with tjSeen := max s.sage.tjSeen s.pwr.tj } }
  if s.sage.cur.tjMax + 5 ≤ s.pwr.tj then writeRecord s else s

/-- The rails as measured (Table 16-8): a rail low withholds claims, a rail high or low is a VOLT alarm, a regulator fault a REG_FAULT. -/
def checkRails (s : State) (g : Governor) : State :=
  let low := fun (set_ meas : Nat) => decide (meas + 50 < set_) || decide (meas < 520)
  let rail := fun (r set_ meas : Nat) => toLe 2 r ++ toLe 2 set_ ++ toLe 2 meas
  let lowC := low s.pwr.vcoreSet g.vcore.toNat
  let lowM := low s.pwr.vmatchSet g.vmatch.toNat
  let highC := decide (s.pwr.vcoreSet + 50 < g.vcore.toNat)
  let highM := decide (s.pwr.vmatchSet + 50 < g.vmatch.toNat)
  let volt := lowC || lowM || highC || highM || g.overRail.isSome
  let new := volt && !s.pwr.voltCond
  let newReg := g.regFault.isSome && !s.pwr.regCond
  let s := { s with pwr := { s.pwr with brownout := lowC || lowM, voltCond := volt, regCond := g.regFault.isSome } }
  let s := if volt then regOr s (pwrReg 0x48) 4 else s
  let s := if g.regFault.isSome then regOr s (pwrReg 0x48) 8 else s
  let s := if !new then s
    else if lowC || highC then logEvent s 0x30 1 2 (rail 0x40 s.pwr.vcoreSet g.vcore.toNat)
    else if lowM || highM then logEvent s 0x30 1 2 (rail 0x41 s.pwr.vmatchSet g.vmatch.toNat)
    else match g.overRail with
      | some r => logEvent s 0x30 1 2 (rail r.1.toNat (nominalMv r.1.toNat) r.2.toNat)
      | none => s
  match newReg, g.regFault with
  | true, some r => logEvent s 0x31 1 2 (toLe 2 r.1.toNat ++ toLe 2 r.2.toNat)
  | _, _ => s
where
  /-- The nominal value of a fixed rail by its PMBus address, in mV (Table 19-4). -/
  nominalMv (r : Nat) : Nat :=
    if r = 0x42 then 800 else if r = 0x43 then 500 else if r = 0x44 then 1050 else if r = 0x45 then 750
    else if r = 0x46 then 1200 else if r = 0x47 then 1800 else 0

/-- The heads of both classes. -/
def headOwners (s : State) : List Claim :=
  (s.pwr.waiting.find? (·.recv)).toList ++ (s.pwr.waiting.find? fun c => !c.recv).toList

/-- A head claim waited through the whole pass with the pool below its size (Table 16-3, row 3). -/
def headStarved (s : State) : Bool :=
  (headOwners s).any fun c => s.pwr.waitedOwners.contains c.owner && decide (s.pwr.pool < claimSize s c.nom)

/-- The top-up of a step to `mv` (R386): by how much running claims and leakage would grow. -/
def topUp (s : State) (mv : Nat) : Nat :=
  let f := factorAt s mv
  (s.pwr.held.map fun c => cdiv (c.nom * f) 256 - c.cost).sum + (leakTokens s mv - s.pwr.leak)

/-- VDD_CORE is set (R384): the regulator's confirmation is awaited. -/
def setCore (s : State) (mv : Nat) : State := { s with pwr := { s.pwr with vcoreSet := mv, avs := some (false, mv) } }

/-- The action of Table 16-3; `overNow` is the power condition of this pass. No row lowers VDD_CORE below the receive-path floor (R15). -/
def govern (s : State) (overNow : Bool) : State :=
  let v := s.pwr.vcoreSet
  let vmax := regField s (pwrReg 0x28) 9 0
  let w := (regField s (pwrReg 0x44) 7 0 : Int)
  if regBit s (pwrReg 0x28) 16 ∨ s.pwr.avs.isSome then s
  else if vmax < v then (if vcoreFloor s < v then setCore s (v - 10) else s)
  else if w ≤ s.pwr.tj ∨ (overNow ∧ s.pwr.tooPower) ∨ headStarved s then (if vcoreFloor s < v then setCore s (v - 10) else s)
  else
    let t := topUp s (v + 10)
    if s.pwr.waiting.isEmpty ∧ s.pwr.effective ≤ 8 * s.pwr.pool ∧ s.pwr.tj < w - 5 ∧ v < vmax ∧ t ≤ s.pwr.pool then
      if s.pwr.held.isEmpty then setCore s (v + 10)
      else
        let own := s.pwr.held.map (·.owner)
        setCore { s with pwr := { s.pwr with pool := s.pwr.pool - t, topup := s.pwr.topup + t, topupOwners := own } } (v + 10)
    else s

/-- The core is powered: the staggered start has finished (R393). -/
def corePowered (s : State) : Bool := decide (14 ≤ s.pwr.startStep) && s.glb.dev != .off && s.glb.dev != .reset && s.glb.dev != .boot

/-- GOVERNOR_PASS (R383, R385, R388, R391, R395 to R398): the measurements of a pass and what Sage makes of them. -/
def governorRun (s : State) (g : Governor) : State :=
  if !corePowered s then s
  else
    let h := hottest g.sensors
    let s := { s with glb := { s.glb with refclk := true },
                      pwr := { s.pwr with paceCore := g.paceCore.toNat, paceMatch := g.paceMatch.toNat, tj := h.1, sensors := g.sensors,
                                          vcoreMeas := g.vcore.toNat, vmatchMeas := g.vmatch.toNat, power := g.power } }
    let s := checkRails (noteTj (thermal s h.2)) g
    let s := { s with pwr := { s.pwr with factor := factorAt s s.pwr.vcoreSet } }
    let s := moveBudget (setLeak s (leakTokens s s.pwr.vcoreSet))
    let much := decide (105 * s.pwr.effective < 100 * g.power)
    let t := govern s much
    { t with pwr := { t.pwr with tooPower := much, waitedOwners := (headOwners s).map (·.owner) } }

/-- AVS_SETTLE (R384): the awaited rail has settled within 10 mV with no fault; VDD_MATCH then follows VDD_CORE. -/
def settleRun1 (s : State) (r : Settle) : State :=
  match s.pwr.avs with
  | none => s
  | some (isMatch, mv) =>
    if r.isMatch ≠ isMatch ∨ !r.ok ∨ mv + 10 < r.mv.toNat ∨ r.mv.toNat + 10 < mv then s
    else
      let want := max 600 s.pwr.vcoreSet
      if s.pwr.vmatchSet ≠ want then { s with pwr := { s.pwr with vmatchSet := want, avs := some (true, want) } }
      else { s with pwr := { s.pwr with avs := none } }

/-- SER_REFCLK_LOSS (R383): no pass completes, and the pace registers read 0. -/
def refclkLossRun (s : State) : State :=
  regOr { s with glb := { s.glb with refclk := false }, pwr := { s.pwr with paceCore := 0, paceMatch := 0 } } (pwrReg 0x48) (2 ^ 4)

/-- REGULATOR_FAULT (R394): a fault during the staggered start stops it. -/
def regulatorFaultRun (s : State) (rail : BitVec 8) (status : BitVec 16) : State :=
  if s.glb.dev ≠ .boot ∨ s.glb.bootStep ≠ 7 ∨ s.pwr.stopped then s
  else
    let s := regOr { s with pwr := { s.pwr with stopped := true } } (pwrReg 0x48) 8
    logEvent s 0x31 1 2 (toLe 2 rail.toNat ++ toLe 2 status.toNat)

/-- ALARM_N is driven low (R399). -/
def alarmLow (s : State) : Bool := s.pwr.crit || s.pwr.voltCond || s.pwr.regCond || s.pwr.stopped || s.glb.dev == .fault

/-! ## VKA_3V3 and BYPASS_N -/

/-- VKA_3V3_LOSS (R329, Table 16-8): the bypass conducts; Sage raises VOLT and logs it where it runs. -/
def vkaLossRun (s : State) : State :=
  if !s.glb.vka then s
  else
    let s := followBypass { s with glb := { s.glb with vka := false } }
    if s.glb.dev = .off ∨ s.glb.dev = .reset then s
    else logEvent (regOr s (pwrReg 0x48) 4) 0x30 1 1 (toLe 2 0 ++ toLe 2 3300)

/-- VKA_3V3_RETURN (R329). -/
def vkaReturnRun (s : State) : State := followBypass { s with glb := { s.glb with vka := true } }

/-- A change on BYPASS_N (R329). -/
def bypassPinRun (s : State) (level : Bool) : State := followBypass { s with glb := { s.glb with bypassN := level } }

end Sys2Proof.Machine
end

