-- ==== Sys2Proof/Machine/HostIf.lean ====
section
/-! DEFINITION. The PCIe function (R406 to R415): BAR4, requests refused, MSI-X unmasking, link and power events, translations and host
read completions; and the Ethernet ports' enable and link events (R421 to R424). -/

namespace Sys2Proof.Machine

/-! ## BAR4 (R409) -/

/-- `HIF_BAR4_BASE`. -/
def bar4Base (s : State) : Nat := regNat s (hifReg 8) + 2 ^ 32 * regNat s (hifReg 0xC)

/-- The pieces of a range that lie in one quad each, as (address, length); `n` bounds them. -/
def quadPieces : Nat → Nat → Nat → List (Nat × Nat)
  | 0, _, _ => []
  | n + 1, a, len =>
    if len = 0 then []
    else
      let k := min (16 - a % 16) len
      (a, k) :: quadPieces n (a + k) (len - k)

/-- BAR4 reaches device memory in this state (Table 15-1). -/
def bar4Served (s : State) : Bool := s.glb.dev == .structured || s.glb.dev == .running || s.glb.dev == .draining

/-- The pieces of a BAR4 read, one after another: bytes, and whether one is returned with EP. -/
def bar4Read : State → List (Nat × Nat) → State × List Byte × Bool
  | s, [] => (s, [], false)
  | s, p :: t =>
    let r : State × Rd :=
      if mapped s p.1 p.2 then readMem s 0 0 p.1 p.2 else (regOr s (hifReg 4) 2, { bytes := List.replicate p.2 0 })
    let rest := bar4Read r.1 t
    (rest.1, r.2.bytes ++ rest.2.1, r.2.poison || rest.2.2)

/-- One piece of a BAR4 write with its byte enables: a quad enabled whole is replaced, a part is merged (R342). -/
def bar4Piece (s : State) (a : Nat) (bs : List (Byte × Bool)) : State :=
  if !mapped s a bs.length then regOr s (hifReg 4) 2
  else if bs.all (·.2) then (writeMem s 0 0 a (bs.map (·.1))).1
  else (List.zip (List.range bs.length) bs).foldl (fun s e => if e.2.2 then (writeMem s 0 0 (a + e.1) [e.2.1]).1 else s) s

/-- The pieces of a BAR4 write; a poisoned request writes every quad it touches as poisoned. -/
def bar4Write (poisoned : Bool) : State → List (Nat × Nat) → List (Byte × Bool) → State
  | s, [], _ => s
  | s, p :: t, bs =>
    let s :=
      if poisoned then (if mapped s p.1 p.2 then (writePoison 1 s 0 (p.1 / 16 * 16)).1 else regOr s (hifReg 4) 2)
      else bar4Piece s p.1 (bs.take p.2)
    bar4Write poisoned s t (bs.drop p.2)

/-- BAR4_ACCESS (R409, Table 15-1). An access beyond the BAR's size is not routed to the function. -/
def bar4Run (s : State) (op : Bar4Op) : State :=
  match op with
  | .read off len =>
    if s.hif.bar4Size < off + len ∨ s.glb.dev = .off then s
    else if !bar4Served s then { s with busData := List.replicate len 0, busEp := false }
    else
      let a := bar4Base s + off
      let r := bar4Read s (quadPieces (len / 16 + 2) a len)
      { r.1 with busData := r.2.1, busEp := r.2.2 }
  | .write off data poisoned =>
    if s.hif.bar4Size < off + data.length ∨ !bar4Served s then s
    else
      let a := bar4Base s + off
      bar4Write poisoned s (quadPieces (data.length / 16 + 2) a data.length) data

/-- BAR_REQUEST_REFUSED (R409): BAD_SIZE; what the requester of a read sees is the root complex's own. -/
def barRefusedRun (s : State) (isRead : Bool) : State :=
  if s.glb.dev = .off ∨ s.glb.dev = .reset then s
  else
    let s := regOr s (hifReg 4) 1
    if isRead then answer { s with freeTick := s.freeTick + 1, busEp := false } (Config.failedRead s.freeTick) else s

/-- A BAR0 request at an offset (R6, R408, R409): one that is not aligned is refused, and one beyond the 32 MiB does not reach the function. -/
def bar0 (s : State) (off : Nat) (isRead : Bool) (f : State → State) : State :=
  if 0x2000000 ≤ off then s else if off % 4 ≠ 0 then barRefusedRun s isRead else f s

/-! ## MSI-X, link and power (R410, R415) -/

/-- MSIX_UNMASK: a vector, or the function, is unmasked, and each held message that may go is sent. -/
def msixUnmaskRun (s : State) (v : Option Nat) : State :=
  match v with
  | some n => flushVecs { s with hif := { s.hif with table := sset s.hif.table n { sget ({} : MsixEntry) s.hif.table n with masked := false } } }
  | none => flushVecs { s with hif := { s.hif with funcMask := false } }

/-- PCIE_CONVENTIONAL_RESET (R410): configuration space, BAR assignments and the MSI-X table; `HIF_BAR4_BASE` stays. -/
def pcieResetRun (s : State) : State := { s with hif := { ({} : Hif) with msgs := s.hif.msgs } }

/-- BUS_MASTER_CLEAR (R410). -/
def busClearRun (s : State) (d3hot : Bool) : State :=
  if d3hot then { s with hif := { s.hif with d3hot := true } } else { s with hif := { s.hif with bme := false } }

/-- BUS_MASTER_RESUME (R410). -/
def busResumeRun (s : State) (d0 : Bool) : State :=
  flushVecs (if d0 then { s with hif := { s.hif with d3hot := false } } else { s with hif := { s.hif with bme := true } })

/-! ## Translations and host reads (R412, R413) -/

/-- ATS_INVALIDATION (R412): the translations of the pages named leave the cache; the requests of earlier commands have been issued. -/
def atsInvalidateRun (s : State) (r : AtsRange) : State :=
  let hit := fun (e : AtsEntry) => e.pasid == r.pasid.map (·.toNat) && decide (r.page.toNat ≤ e.page) && decide (e.page < r.page.toNat + r.count)
  { s with hif := { s.hif with cache := s.hif.cache.filter fun e => !hit e } }

/-- ATS_TRANSLATION_COMPLETION (R412): the answer to a translation request enters the cache, the oldest entry leaving a full one; an
answer to no request is ignored. -/
def atsCompleteRun (s : State) (r : AtsReply) : State :=
  let p := r.pasid.map (·.toNat)
  let key := fun (e : AtsEntry) => e.pasid == p && e.page == r.page.toNat
  if !s.hif.asked.any key then s
  else
    let e : AtsEntry := { pasid := p, page := r.page.toNat, grant := r.grant.map fun g => (g.1.toNat, g.2.1, g.2.2) }
    let kept := s.hif.cache.filter fun x => !key x
    let kept := kept.drop (kept.length + 1 - Config.atsEntries)
    { s with hif := { s.hif with cache := kept ++ [e], asked := s.hif.asked.filter fun x => !key x } }

/-- The host quads from an address, as byte addresses. -/
def hostQuads (a n : Nat) : List Nat := (List.range n).map fun i => a / 16 * 16 + 16 * i

/-- Host quads whose reads deliver poison from now on (R413). -/
def poisonHost (s : State) (a n : Nat) : State :=
  let new := (hostQuads a n).filter fun b => !s.hostPoison.contains b
  regOr { s with hostPoison := s.hostPoison ++ new } (hifReg 4) 8

/-- HOST_READ_COMPLETION (R413): with EP every quad of the read is delivered as poisoned and CPL_ERR is set; without it the quads are
delivered clean. -/
def hostReadRun (s : State) (r : HostRead) : State :=
  if s.glb.dev = .off ∨ s.glb.dev = .reset then s
  else if r.ep then poisonHost s r.addr.toNat r.quads
  else
    let qs := hostQuads r.addr.toNat r.quads
    { s with hostPoison := s.hostPoison.filter fun b => !qs.contains b }

/-- COMPLETION_TIMEOUT (R413). -/
def timeoutRun (s : State) (a n : Nat) : State :=
  if s.glb.dev = .off ∨ s.glb.dev = .reset then s else poisonHost s a n

/-! ## Ethernet ports (R421 to R424) -/

/-- Commands whose last frame has been handed over complete (R424). -/
def framesGone (s : State) (us : List Nat) : State :=
  us.foldl (fun s u => complete s u (match findCmd s u with | some c => c.status | none => .ok)) s

/-- Every waiting frame goes where the port may send (R424). -/
def sendWaiting (s : State) (m : Nat) : State :=
  if macMaySend s m then
    let r := sendAll (txCount s m + 1) s m
    macIdle (framesGone r.1 r.2) m
  else s

/-- Waiting result frames are discarded and counted, and their commands complete, while the link is down with DROP_DOWN set (R424). -/
def dropWaiting (s : State) (m : Nat) : State :=
  if (mac s m).link ∨ !regBit s (macReg m 0) 7 then s
  else
    let n := ((mac s m).tx.map fun j => j.frames.length).sum
    let us := (mac s m).tx.map (·.uid)
    macIdle (framesGone (regCount (modMac s m fun k => { k with tx := [] }) (macReg m 0x5C) n) us) m

/-- ETH_LINK_DOWN. -/
def ethDownRun (s : State) (m : Nat) : State :=
  if (mac s m).link then dropWaiting (regOr (modMac s m fun k => { k with link := false }) (macReg m 4) 0x100) m else s

/-- ETH_LINK_UP. -/
def ethUpRun (s : State) (m : Nat) : State := sendWaiting (modMac s m fun k => { k with link := true }) m

/-- MAC_EN_WRITE (R268, R422). -/
def macEnRun (s : State) (m : Nat) (on : Bool) : State :=
  sendWaiting (modMac s m fun k => { k with en := k.en.write on (!k.rx.isEmpty || !k.tx.isEmpty) }) m

/-- FRAME_RING_ADMIT (R421). -/
def ringAdmitRun (s : State) (m : Nat) : State := if served s then macIdle (admitFrame s m) m else s

/-- ETH_FRAME_RECEIVED (R416 to R421), in the states in which flows run (Table 15-1). -/
def ethFrameRun (s : State) (m : Nat) (f : List Byte) : State := if served s then frameReceived s m f else s

end Sys2Proof.Machine
end

