-- ==== Sys2Proof/Machine/Sha.lean ====
section
/-! DEFINITION. SHA-256 and the verification of ECDSA P-256 signatures (R363, R364). The manual names both and does not define
them: the text is that of FIPS 180-4 and FIPS 186-4 (PRESUMED, log 21). -/

namespace Sys2Proof.Machine

/-! ## SHA-256 -/

/-- The largest x with x^k at most n, found bit by bit from bit `b - 1` down, above `x`. -/
def rootFloor (k n : Nat) : Nat → Nat → Nat
  | 0, x => x
  | b + 1, x => rootFloor k n b (if (x + 2 ^ b) ^ k ≤ n then x + 2 ^ b else x)

/-- The first 32 bits of the fractional part of the k-th root of p (FIPS 180-4, 4.2.2 and 5.3.3). -/
def rootBits (k p : Nat) : Word := BitVec.ofNat 32 (rootFloor k (p * 2 ^ (32 * k)) 40 0)

/-- The first 64 primes. -/
def primes64 : List Nat := (List.range 312).filter fun p => decide (2 ≤ p) && (List.range p).all fun d => decide (d < 2) || p % d != 0

/-- The round constants: cube roots. -/
def shaK : List Word := primes64.map (rootBits 3)

/-- The initial hash value: square roots. -/
def shaInit : List Word := (primes64.take 8).map (rootBits 2)

/-- The rotations of a word to the right by each amount, added without carry. -/
def xorRots (x : Word) (ks : List Nat) : Word := ks.foldl (fun acc k => acc ^^^ x.rotateRight k) 0

/-- The next word of the schedule from those before it, the newest first. -/
def shaNext (w : List Word) : Word :=
  let at_ := nth (0 : Word) w
  (xorRots (at_ 1) [17, 19] ^^^ at_ 1 >>> 10) + at_ 6 + (xorRots (at_ 14) [7, 18] ^^^ at_ 14 >>> 3) + at_ 15

/-- One round: the variables move down by one place, with what the round adds at the first and the fifth. -/
def shaRound (v : List Word) (kw : Word) : List Word :=
  let at_ := nth (0 : Word) v
  let choose := at_ 6 ^^^ (at_ 4 &&& (at_ 5 ^^^ at_ 6))
  let most := (at_ 0 &&& (at_ 1 ||| at_ 2)) ||| (at_ 1 &&& at_ 2)
  let t := at_ 7 + xorRots (at_ 4) [6, 11, 25] + choose + kw
  (t + xorRots (at_ 0) [2, 13, 22] + most) :: v.take 3 ++ (at_ 3 + t) :: (v.drop 4).take 3

/-- The rounds of a block: each takes its constant and a word of the schedule, whose last sixteen words stand newest first. -/
def shaRounds : List Word → List Word → List Word → List Word → List Word
  | [], _, _, v => v
  | k :: ks, [], w, v => let x := shaNext w; shaRounds ks [] (x :: w.take 15) (shaRound v (k + x))
  | k :: ks, m :: ms, w, v => shaRounds ks ms (m :: w) (shaRound v (k + m))

/-- The hash value after one 64-byte block. -/
def shaBlock (h : List Word) (b : List Byte) : List Word :=
  List.zipWith (· + ·) h (shaRounds shaK ((chunk 4 16 b).map fun x => BitVec.ofNat 32 (be x)) [] h)

/-- A message with the padding of FIPS 180-4, 5.1.1. -/
def shaPad (bs : List Byte) : List Byte :=
  let tail := toBe 8 (8 * bs.length)
  let zeros := 64 * cdiv (bs.length + 9) 64 - (bs.length + 9)
  bs ++ BitVec.ofNat 8 128 :: List.replicate zeros 0 ++ tail

/-- SHA-256 of a byte string. -/
def sha256 (bs : List Byte) : List Byte :=
  ((chunk 64 (cdiv (bs.length + 9) 64) (shaPad bs)).foldl shaBlock shaInit).flatMap fun w => toBe 4 w.toNat

/-! ## P-256 -/

/-- The field prime. -/
def p256P : Nat := 0xffffffff00000001000000000000000000000000ffffffffffffffffffffffff
/-- The order of the base point. -/
def p256N : Nat := 0xffffffff00000000ffffffffffffffffbce6faada7179e84f3b9cac2fc632551
/-- The coefficient b. -/
def p256B : Nat := 0x5ac635d8aa3a93e7b3ebbd55769886bc651d06b0cc53b0f63bce3c3e27d2604b
/-- The base point. -/
def p256G : Nat × Nat :=
  (0x6b17d1f2e12c4247f8bce6e563a440f277037d812deb33a0f4a13945d898c296,
   0x4fe342e2fe1a7f9b8ee7eb4a7c0f9e162bce33576b315ececbb6406837bf51f5)

/-- `x` to the power given by the low `n` bits of `e`, modulo `m`. -/
def powMod (m : Nat) : Nat → Nat → Nat → Nat
  | 0, _, _ => 1 % m
  | n + 1, x, e =>
    let r := powMod m n (x * x % m) (e / 2)
    if e % 2 = 1 then x * r % m else r

/-- The inverse modulo a prime. -/
def invMod (m x : Nat) : Nat := powMod m 256 (x % m) (m - 2)

/-- The difference modulo the field prime. -/
def subP (a b : Nat) : Nat := (a + p256P - b % p256P) % p256P

/-- The sum of two points of the curve; none is the point at infinity. -/
def ecAdd (p q : Option (Nat × Nat)) : Option (Nat × Nat) :=
  match p, q with
  | none, q => q
  | p, none => p
  | some (x1, y1), some (x2, y2) =>
    if x1 = x2 ∧ (y1 + y2) % p256P = 0 then none
    else
      let l := if x1 = x2 then (subP (3 * x1 * x1) 3) * invMod p256P (2 * y1) % p256P
        else subP y2 y1 * invMod p256P (subP x2 x1) % p256P
      let x := subP (subP (l * l) x1) x2
      some (x, subP (l * subP x1 x) y1)

/-- A point times the low `n` bits of `k`. -/
def ecMul : Nat → Nat → Option (Nat × Nat) → Option (Nat × Nat)
  | 0, _, _ => none
  | n + 1, k, p =>
    let r := ecMul n (k / 2) (ecAdd p p)
    if k % 2 = 1 then ecAdd p r else r

/-- The point lies on the curve. -/
def onCurve (q : Nat × Nat) : Bool :=
  decide (q.1 < p256P) && decide (q.2 < p256P) && q.2 * q.2 % p256P == subP (q.1 * q.1 * q.1 + p256B) (3 * q.1)

/-- An ECDSA P-256 signature (r, s) of a message by the public key q verifies, with SHA-256 as its hash. -/
def ecdsaOk (q : Nat × Nat) (r s : Nat) (msg : List Byte) : Bool :=
  if r = 0 ∨ s = 0 ∨ p256N ≤ r ∨ p256N ≤ s ∨ !onCurve q then false
  else
    let w := invMod p256N s
    let z := be (sha256 msg)
    match ecAdd (ecMul 256 (z * w % p256N) (some p256G)) (ecMul 256 (r * w % p256N) (some q)) with
    | some x => x.1 % p256N == r
    | none => false

end Sys2Proof.Machine
end

