-- ==== Sys2Proof/Machine/Gate.lean ====
section
/-! DEFINITION. The slot directory and components (R361 to R364), the gate between declarants (R369), and the Pleach body's defaults and
structure checks (R366, Table 15-10). -/

namespace Sys2Proof.Machine

/-! ## Components -/

/-- Where an image is read from: `len` bytes at an offset. -/
abbrev Reader := (off len : Nat) → List Byte

/-- A field of an image. -/
def rdAt (r : Reader) (off len : Nat) : Nat := le (r off len)

/-- Offset and length of component k (Table 15-4). -/
def compAt (r : Reader) (k : Nat) : Nat × Nat := (rdAt r (0x10 + 8 * k) 4, rdAt r (0x14 + 8 * k) 4)

/-- A range of two levels is in order. -/
def rangeOk (w : Nat) : Bool := decide (fieldOf w 15 0 ≤ fieldOf w 31 16)

/-- The MAGIC of component k. -/
def compMagic (k : Nat) : Nat := nth 0 [0x57464753, 0x57465153, 0x48434C50] k

/-- The largest body of component k (R363). -/
def bodyLimit (k : Nat) : Nat := nth 0 [458752, 65536, 2560] k

/-- ACCEPT fields of a header, in the order of the kinds. -/
def acceptWords (h : List Byte) : List Nat := (List.range 4).map fun j => leAt h (0x10 + 4 * j) 4

/-- A component's header and length pass R363; `size` is the length of the image that holds it. -/
def headerFields (r : Reader) (size k : Nat) : Bool :=
  let at_ := compAt r k
  let h := r at_.1 128
  let body := leAt h 0x20 4
  let signed := bitOf (leAt h 7 1) 0
  at_.1 % 4096 == 0 && decide (4096 ≤ at_.1) && decide (at_.1 + at_.2 ≤ size) && at_.2 == 128 + body + (if signed then 128 else 0) &&
  leAt h 0 4 == compMagic k && leAt h 4 2 == 1 && leAt h 6 1 == k + 1 && decide (leAt h 7 1 < 2) && decide (leAt h 0xC 2 ≤ 32) &&
  leAt h 0xE 2 == 0 && leAt h 0x24 4 == 0 && (sub h 0x48 56).all (· == 0) &&
  decide (body ≤ bodyLimit k) && (k != 2 || body == 2560) &&
  ((List.zip (List.range 4) (acceptWords h)).all fun x => if x.1 = k then x.2 == 0 else rangeOk x.2)

/-- The body of component k (R363). -/
def compBody (r : Reader) (k : Nat) : List Byte := r ((compAt r k).1 + 128) (leAt (r (compAt r k).1 128) 0x20 4)

/-- A component's DIGEST is that of its body (R363). -/
def digestOk (r : Reader) (k : Nat) : Bool := sub (r (compAt r k).1 128) 0x28 32 == sha256 (compBody r k)

/-- A component passes R363. -/
def headerOk (r : Reader) (size k : Nat) : Bool := headerFields r size k && digestOk r k

/-- The key slot under which a signed component is accepted (R364). -/
def signerOf (s : State) (r : Reader) (k : Nat) : Option Nat :=
  let at_ := compAt r k
  let h := r at_.1 128
  let b := r (at_.1 + 128 + leAt h 0x20 4) 128
  let digest := sha256 (b.take 64)
  match (List.range 4).find? fun i => sget [] s.sage.keys i == digest && shas s.sage.keys i && !s.sage.revoked.contains i with
  | some i =>
    if ecdsaOk (be (sub b 0 32), be (sub b 32 32)) (be (sub b 64 32)) (be (sub b 96 32)) h && decide (s.sage.floor ≤ leAt h 0xC 2) then
      some i else none
  | none => none

/-- A component passes R364. -/
def signatureOk (s : State) (r : Reader) (k : Nat) : Bool :=
  if bitOf (leAt (r (compAt r k).1 128) 7 1) 0 then (signerOf s r k).isSome else !s.sage.signedOnly

/-- What a component declares. -/
def compOfImage (s : State) (r : Reader) (k : Nat) : Comp :=
  let h := r (compAt r k).1 128
  { provides := leAt h 8 2, steppings := leAt h 0xA 2, sec := leAt h 0xC 2, accSage := leAt h 0x10 4, accSeq := leAt h 0x14 4,
    accPleach := leAt h 0x18 4, accDrv := leAt h 0x1C 4,
    signer := if bitOf (leAt h 7 1) 0 then signerOf s r k else none }

/-- ACCEPT of a declarant for kind k (0 Sage firmware, 1 sequencer firmware, 2 Pleach, 3 driver). -/
def Comp.accept (c : Comp) (k : Nat) : Nat := nth 0 [c.accSage, c.accSeq, c.accPleach, c.accDrv] k

/-- A level lies within a range (R369). -/
def levelIn (lv w : Nat) : Bool := decide (fieldOf w 15 0 ≤ lv) && decide (lv ≤ fieldOf w 31 16)

/-- Every pair of declarants accepts each other's level (R369). -/
def pairsOk (ds : List (Nat × Comp)) : Bool :=
  ds.all fun x => ds.all fun y => x.1 == y.1 || levelIn y.2.provides (x.2.accept y.1)

/-- A declarant's STEPPINGS includes the device's stepping (R3). -/
def steppingOk (s : State) (c : Comp) : Bool := bitOf c.steppings (s.glb.revision / 16)

/-- The declarants with their kinds. -/
def withKinds (cs : List Comp) : List (Nat × Comp) := List.zip [0, 1, 2] cs

/-- The driver's declaration as its registers stand (Table 15-12). -/
def driverComp (s : State) : Comp :=
  { provides := regField s (mgtReg 0x8040) 15 0, steppings := regField s (mgtReg 0x8040) 23 16, accSage := regNat s (mgtReg 0x8044),
    accSeq := regNat s (mgtReg 0x8048), accPleach := regNat s (mgtReg 0x804C) }

/-- The declaration that was accepted last, as a declarant; none while none stands. -/
def acceptedDriver (s : State) : List (Nat × Comp) := if driverOk s then [(3, driverComp s)] else []

/-- Checks 3 to 6 of Table 15-3 on an image; `drv` adds the driver to the pairs. None where all pass, else the HOLD reason. -/
def compChecks (s : State) (r : Reader) (size : Nat) (drv : List (Nat × Comp)) : Option Nat :=
  if !(List.range 3).all (headerOk r size) then some 2
  else if !(List.range 3).all (signatureOk s r) then some 5
  else
    let cs := (List.range 3).map (compOfImage s r)
    if !(cs.all (steppingOk s) && drv.all fun d => steppingOk s d.2) then some 3
    else if !pairsOk (withKinds cs ++ drv) then some 4
    else none

/-! ## Slots -/

/-- A byte of a bank's slot region; erased flash reads 0xFF. -/
def norByte (s : State) (bank off : Nat) : Byte := mget s.sage.flash (bank * 2 ^ 23 + off) ^^^ 0xFF

/-- A bank's slot region as an image. -/
def norReader (s : State) (bank : Nat) : Reader := fun off len => (List.range len).map fun i => norByte s bank (off + i)

/-- SEQUENCE of a slot directory. -/
def dirSeq (r : Reader) : Nat := rdAt r 8 4

/-- The slot is a candidate (R362). -/
def candidate (r : Reader) : Bool :=
  rdAt r 0 4 == 0x544F4C53 && rdAt r 4 2 == 1 && rdAt r 0x28 4 == crc32 (r 0 0x28) &&
  dirSeq r != 0 && dirSeq r != 0xFFFFFFFF && rdAt r 0x40 4 == 0

/-- The slot that BOOT chooses (Table 15-3, step 2): SLOT_SEL's, or the candidate with the higher SEQUENCE. -/
def chooseSlot (s : State) : Option Nat :=
  let a := candidate (norReader s 0)
  let b := candidate (norReader s 1)
  let sel := regField s (mgtReg 0x8008) 1 0
  if sel = 1 ∧ a then some 0
  else if sel = 2 ∧ b then some 1
  else if a ∧ b then some (if dirSeq (norReader s 0) < dirSeq (norReader s 1) then 1 else 0)
  else if a then some 0
  else if b then some 1
  else none

/-! ## The Pleach body -/

/-- The body with bytes from `off` replaced. -/
def patchBody (b : List Byte) (off : Nat) (v : List Byte) : List Byte := b.take off ++ v ++ b.drop (off + v.length)

/-- Field of a body. -/
def bAt (b : List Byte) (off len : Nat) : Nat := leAt b off len
/-- Field of hedge h's entry in a body. -/
def bHedge (b : List Byte) (h off len : Nat) : Nat := bAt b (0x80 + 64 * h + off) len
/-- Field of binding group g's entry in a body. -/
def bGroup (b : List Byte) (g off len : Nat) : Nat := bAt b (0x480 + 16 * g + off) len
/-- Field of receiver unit u's entry in a body. -/
def bUnit (b : List Byte) (u off len : Nat) : Nat := bAt b (0x880 + 32 * u + off) len
/-- Field of global stream n's entry in a body. -/
def bStream (b : List Byte) (n off len : Nat) : Nat := bAt b (0x900 + 16 * n + off) len

/-- The defaults of R366: hedge 15 serves the receivers where no hedge is reserved for them. -/
def bodyDefaults (b : List Byte) : List Byte :=
  let units := (List.range 4).any fun u => bUnit b u 0 1 != 0
  let reserved := (List.range 16).any fun h => bHedge b h 0 1 == 2
  if units && !reserved then
    let e := 0x80 + 64 * 15
    let b1 := patchBody (patchBody b e [2]) (e + 2) [0xFF]
    let b2 := if bAt b (e + 1) 1 = 0 then patchBody (patchBody b1 (e + 1) [1]) (e + 8) (toLe 4 (8 + 4096 * 2 ^ 16)) else b1
    let b3 := if bAt b (e + 3) 1 = 0 then patchBody b2 (e + 3) [64] else b2
    patchBody b3 (e + 0x20) (List.replicate 32 0)
  else b

/-- Ranges of reserved bytes of a body (Tables 15-6 to 15-8). -/
def bodyReserved : List (Nat × Nat) :=
  [(0x14, 108)] ++ ((List.range 16).flatMap fun h => [(0x80 + 64 * h + 6, 2), (0x80 + 64 * h + 0x18, 8)]) ++
  ((List.range 64).map fun g => (0x480 + 16 * g + 11, 5)) ++
  ((List.range 4).flatMap fun u => [(0x880 + 32 * u + 6, 2), (0x880 + 32 * u + 12, 20)]) ++
  ((List.range 16).flatMap fun n => [(0x900 + 16 * n + 2, 2), (0x900 + 16 * n + 12, 4)])

/-- Reserved bytes and bits are 0. -/
def bodyZeros (b : List Byte) : Bool :=
  (bodyReserved.all fun r => (sub b r.1 r.2).all (· == 0)) && decide (bAt b 9 1 < 2) &&
  ((List.range 64).all fun g => decide (bGroup b g 3 1 < 2) && decide (bGroup b g 10 1 < 32))

/-- TOPOLOGY and its sizes agree with R307 and the straps. -/
def topoOk (s : State) (b : List Byte) : Bool :=
  let t := bAt b 0 1
  let n := bAt b 1 1
  let x := bAt b 2 1
  let y := bAt b 3 1
  s.glb.topo == t && decide (t ≤ 2) &&
  (if t = 0 then n == 0 && x == 0 && y == 0
   else if t = 1 then decide (2 ≤ n) && decide (n ≤ 16) && x == 0 && y == 0 && decide (s.glb.rank < n)
   else n == 0 && decide (2 ≤ x) && decide (x ≤ 4) && decide (2 ≤ y) && decide (y ≤ 4) && decide (s.glb.rank < x * y))

/-- A hedge entry's fields are in range (Table 15-10, R101). -/
def hedgeEntryOk (b : List Byte) (h : Nat) : Bool :=
  let role := bHedge b h 0 1
  let parts := bHedge b h 1 1
  if role = 0 then (sub b (0x80 + 64 * h) 64).all (· == 0)
  else
    decide (role ≤ 2) && decide (1 ≤ parts) && decide (parts ≤ 4) && decide (1 ≤ bHedge b h 3 1) && decide (bHedge b h 3 1 ≤ 64) &&
    ((List.range 8).all fun a => fieldOf (bHedge b h 4 2) (2 * a + 1) (2 * a) != 3) &&
    ((List.range 8).all fun a => bitOf (bHedge b h 2 1) a || bHedge b h (0x20 + 4 * a) 4 == 0) &&
    ((List.range 4).all fun p =>
      let w := bHedge b h (8 + 4 * p) 4
      if p < parts then decide (1 ≤ fieldOf w 7 0) && decide (fieldOf w 7 0 ≤ 128) && fieldOf w 15 8 == 0 && decide (1 ≤ fieldOf w 31 16)
      else w == 0) &&
    decide (((List.range 4).map fun p => 64 * bHedge b h (8 + 4 * p) 1 * bHedge b h (10 + 4 * p) 2).sum ≤ 2097152) &&
    (role != 2 || bHedge b h 2 1 == 0xFF)

/-- The floors of a partition's groups (R103). -/
def floorSum (b : List Byte) (h p : Nat) : Nat :=
  ((List.range 64).map fun g =>
    if bitOf (bGroup b g 3 1) 0 && bitOf (bGroup b g 0 2) h && bGroup b g 2 1 == p then bGroup b g 6 2 else 0).sum

/-- A binding group entry passes Table 15-10. -/
def groupEntryOk (b : List Byte) (g : Nat) : Bool :=
  !bitOf (bGroup b g 3 1) 0 ||
  (decide (bGroup b g 4 2 ≤ bGroup b g 6 2) && decide (16 ≤ bGroup b g 8 2) && decide (bGroup b g 8 2 ≤ 8192) &&
   (List.range 16).all fun h => !bitOf (bGroup b g 0 2) h ||
     (bHedge b h 0 1 == 1 && decide (bGroup b g 2 1 < bHedge b h 1 1) &&
      decide (floorSum b h (bGroup b g 2 1) ≤ bHedge b h (10 + 4 * bGroup b g 2 1) 2)))

/-- The global streams of a unit. -/
def bStreams (b : List Byte) (u : Nat) : List Nat := (List.range 16).filter fun n => bStream b n 0 1 == u

/-- The scratchpad that a unit's capture rings take (R173). -/
def ringBytes (b : List Byte) (u : Nat) : Nat := ((bStreams b u).map fun n => alignUp (4 * bStream b n 8 4) 64).sum

/-- A receiver unit passes R171 to R173 and Table 8-1. -/
def unitEntryOk (b : List Byte) (u : Nat) : Bool :=
  let l := bUnit b u 0 1
  if l = 0 then true
  else
    let ss := bStreams b u
    let m := 2 * ss.length
    let sp := bUnit b u 2 1
    let e := bUnit b u 3 1
    let rate := bStream b (nth 0 ss 0) 4 4
    [1, 2, 4, 8].contains l && bUnit b u 1 1 % l == 0 && decide (bUnit b u 1 1 + l ≤ 16) && [1, 2, 4].contains sp &&
    decide (1 ≤ e) && decide (e ≤ 16) && decide (bUnit b u 4 2 ≤ 32 * e - 1) &&
    decide (1 ≤ ss.length) && decide (ss.length ≤ 8) && (m * sp * 2) % l == 0 && decide (1 ≤ m * sp * 2 / l) &&
    decide (m * sp * 2 / l ≤ 256) && allDistinct (ss.map fun n => bStream b n 1 1) &&
    (ss.all fun n => decide (bStream b n 1 1 < 8) && bStream b n 4 4 == rate && decide (1 ≤ bStream b n 8 4)) &&
    decide (1000000 ≤ rate) && decide (rate ≤ 245760000) && decide (ss.length * rate ≤ 983040000) &&
    decide (m * 16 * rate * 66 ≤ 24750000000 * 64 * l) && decide (6000000000 * 64 * l ≤ m * 16 * rate * 66) &&
    decide (ringBytes b u + bUnit b u 8 4 ≤ Config.rxuScratchSize)

/-- The lanes of a unit's link. -/
def bLanes (b : List Byte) (u : Nat) : List Nat := (List.range (bUnit b u 0 1)).map (bUnit b u 1 1 + ·)

/-- Table 15-10, the memory fitted apart. -/
def bodyOk (s : State) (b : List Byte) : Bool :=
  b.length == 2560 && topoOk s b && decide (1 ≤ bAt b 8 1) && decide (bAt b 8 1 ≤ 3) && decide (3200 ≤ bAt b 10 2) &&
  decide (bAt b 10 2 ≤ 8533) && (List.range 16).all (hedgeEntryOk b) &&
  decide (((List.range 16).filter fun h => bHedge b h 0 1 == 2).length ≤ 4) && (List.range 64).all (groupEntryOk b) &&
  (List.range 4).all (unitEntryOk b) && allDistinct ((List.range 4).flatMap (bLanes b)) &&
  ((List.range 16).all fun n => decide (bStream b n 0 1 < 4) || bStream b n 0 1 == 0xFF) &&
  decide (240 ≤ bAt b 0xC 2) && decide (bAt b 0xC 2 ≤ 740) && decide (550 ≤ bAt b 0xE 2) && decide (bAt b 0xE 2 ≤ 850) &&
  decide (bAt b 0x10 2 * ((List.range 4).filter fun u => bUnit b u 0 1 != 0).length + bAt b 0x12 2 ≤ bAt b 0xC 2) && bodyZeros b

/-- The Pleach body of an image, with the defaults of R366. -/
def imageBody (r : Reader) : List Byte := bodyDefaults (r ((compAt r 2).1 + 128) 2560)

/-- The body of the Sage or sequencer firmware of an image (component 0 or 1). -/
def firmwareOf (r : Reader) (k : Nat) : List Byte :=
  let a := (compAt r k).1
  r (a + 128) (leAt (r a 128) 0x20 4)

/-- The memory fitted is what the body names (R340). -/
def memoryFits (s : State) (b : List Byte) : Bool := bAt b 8 1 == s.glb.density

end Sys2Proof.Machine
end

