-- ==== Sys2Proof/Machine/Boot.lean ====
section
/-! DEFINITION. Start-up (Table 15-3, Table 16-6), the device commands and the drain (R355 to R360, R431 to R433), the driver's
declaration (R369, R370) and the update and boot commands (R371 to R374). -/

namespace Sys2Proof.Machine

/-! ## BOOT -/

/-- Sage starts (Table 15-3, step 1): the state record in force is found, and a new generation counts the BOOT (R404). -/
def startSage (s : State) : State :=
  let r := recordInForce s.sage.recs
  let hold := if s.sage.holdSeen = 0 then r.lastHold else s.sage.holdSeen
  let s := { s with sage := { s.sage with cur := { r with boots := r.boots + 1 }, holdSeen := hold, trips := max s.sage.trips r.trips,
                                          tjSeen := max s.sage.tjSeen r.tjMax } }
  let s := if r.lastFault = 3 then regOr s (pwrReg 0x48) (2 ^ 6) else s
  let cand := b2n (candidate (norReader s 0)) * 2 + b2n (candidate (norReader s 1)) * 4
  writeRecord (regSetField s (mgtReg 0x8000) 2 1 (cand / 2))

/-- Steps 2 to 6 of Table 15-3 on the image chosen (`slot` none: the staged one), and the start of step 7: the Sage
firmware runs from Sage SRAM (log 48). -/
def bootImage (s : State) (r : Reader) (size : Nat) (slot : Option Nat) : State :=
  let heads := (List.range 3).all (headerOk r size)
  let s := if heads then { s with sage := { s.sage with comps := (List.range 3).map (compOfImage s r) } } else s
  match compChecks s r size [] with
  | some reason => enterHold s reason
  | none =>
    let lv := fun (k : Nat) => (nth ({} : Comp) s.sage.comps k).provides
    let seq := match slot with | some _ => dirSeq r | none => 0
    let s := regSetField s (mgtReg 0x8000) 0 0 (slot.getD 0)
    let s := regSetField s (mgtReg 0x8000) 3 3 (b2n slot.isNone)
    let s := regSet s (mgtReg 0x8004) (BitVec.ofNat 32 seq)
    let s := regSet s (mgtReg 0x8010) (BitVec.ofNat 32 (lv 0 + lv 1 * 2 ^ 16))
    let s := regSetField s (mgtReg 0x8014) 15 0 (lv 2)
    let s := logEvent s 1 1 0 (toLe 2 (slot.getD 2) ++ toLe 4 seq ++ toLe 2 (lv 0) ++ toLe 2 (lv 1) ++ toLe 2 (lv 2))
    let s := setChip s 11 (mwrite [] 0 (firmwareOf r 0))
    { s with sage := { s.sage with body := imageBody r, fw := firmwareOf r 1 }, glb := { s.glb with bootStep := 7 }, pwr := { s.pwr with startStep := 0 } }

/-- BOOT from flash (Table 15-3, steps 1 to 7). -/
def bootFlash (s : State) : State :=
  let s := startSage { s with glb := { s.glb with dev := .boot, bootStep := 1 } }
  match chooseSlot s with
  | none => enterHold s 1
  | some b => bootImage s (norReader s b) 0x400000 (some b)

/-- The device leaves RESET (R440): the straps are sampled and BOOT begins, where the pin, the rails and the trip latch allow it; else it
stays in RESET. -/
def leaveReset (s : State) : State :=
  let g := s.glb
  if g.resetN ∧ g.railsOk ∧ !g.thermtrip then
    bootFlash { s with glb := { g with autostart := g.strapAuto, topo := g.strapTopo, rank := g.strapRank } }
  else { s with glb := { g with dev := .reset } }

/-- The device goes through RESET (R433). -/
def doReset (s : State) : State := leaveReset (resetAll s)

/-- RESET_N_RELEASE (R440); also the first event after `State.reset` (log 1). -/
def resetReleaseRun (s : State) : State :=
  let s := { s with glb := { s.glb with resetN := true } }
  if s.glb.dev = .reset ∨ (s.glb.dev = .boot ∧ s.glb.bootStep = 0) then leaveReset s else s

/-- The hedges and ports that Sage enables on entering RUNNING (Tables 4-7, 13-9). -/
def enterRunning (s : State) : State :=
  let s := setDev { s with glb := { s.glb with reason := 0, startPending := false, targetReset := false } } .running
  let s := (List.range 16).foldl (fun s h => if role s h = 0 then s else hedgeEnRun s h true) s
  followBypass s

/-- The withdrawn arrays that the state record names are withdrawn again (R352). -/
def restoreWithdrawn (s : State) : State :=
  (List.range 128).foldl (fun s n =>
    if bitOf s.sage.cur.wdraw n then setArr s n { st := .withdrawn, cls := sget 0 s.sage.cur.wclass n } else s) s

/-- Usable bytes by density code (Table 14-5). -/
def usableOf (d : Nat) : Nat := 16 * (2 ^ (30 + d) / 448) * 384

/-- Steps 8 to 11 of Table 15-3; hedges whose role is OFF are powered off at step 10 (R393). -/
def finishBoot (s : State) : State :=
  let b := s.sage.body
  let s := writeFirmware s s.sage.fw
  if !bodyOk s b ∨ !memoryFits s b then enterHold s 6
  else
    let w := BitVec.ofNat 32
    let s := { s with pleach := b, glb := { s.glb with bootStep := 11 } }
    let s := regSet s (memReg 0) (w (0xFFFF + s.glb.density * 2 ^ 16 + b2n s.glb.linkEcc * 2 ^ 18))
    let s := regSet (regSet s (memReg 4) (w (usableOf s.glb.density))) (memReg 8) (w (usableOf s.glb.density / 2 ^ 32))
    let s := (List.range 16).foldl (fun s h => modHedge s h fun e => { e with off := role s h == 0 }) s
    let s := loadBook (restoreWithdrawn s) (bAt b 0xC 2) (bAt b 0x12 2)
    let s := setDev s .structured
    if s.glb.autostart then enterRunning s else s

/-- STAGGER_CONFIRM (R393): the awaited step is confirmed; after step 14, BOOT continues (Table 16-6, step 15). -/
def staggerRun (s : State) : State :=
  if s.glb.dev ≠ .boot ∨ s.glb.bootStep ≠ 7 ∨ s.pwr.stopped ∨ 14 ≤ s.pwr.startStep then s
  else
    let s := { s with pwr := { s.pwr with startStep := s.pwr.startStep + 1 } }
    if s.pwr.startStep = 14 then finishBoot s else s

/-! ## Draining -/

/-- DRAINING is entered (R358): every bound queue and every enabled unit loses EN. -/
def enterDraining (s : State) (reason : Nat) (toReset : Bool) : State :=
  let s := setDev { s with glb := { s.glb with reason := if toReset then 0 else reason, targetReset := toReset, startPending := false } } .draining
  let s := (s.queues.map (·.1)).foldl (fun s q => if bound s q && (queue s q).en then enWrite s q false else s) s
  (List.range 4).foldl (fun s u => if (rxu s u).en.en then rxuEnRun s u false else s) s

/-- A queue no longer holds up the drain (R358). -/
def queueDrained (k : Queue) : Bool :=
  k.st == .free || k.st == .bound || (k.st == .stalled && k.acting == .none)

/-- The drain is complete (R358). -/
def drained1 (s : State) : Bool :=
  (s.queues.all fun x => queueDrained x.2) &&
  (s.rxus.all fun x => !x.2.en.disabling && x.2.streams.all fun y => y.2.tasks.isEmpty) &&
  s.utr.chains.isEmpty && s.utr.reds.isEmpty

/-- DRAIN_COMPLETE (R358, R359, Table 15-2). -/
def drainDone (s : State) : State :=
  if s.glb.dev ≠ .draining ∨ !drained1 s then s
  else if s.glb.targetReset then doReset s
  else
    let start := s.glb.startPending
    let s := enterHold s s.glb.reason
    if start then enterRunning s else s

/-! ## Device commands (Table 18-7) -/

/-- A command is ignored (R432). -/
def cmdIgnored (s : State) : State := regOr s 8 (2 ^ 24)

/-- The host reaches `GLB_CMD` in this state (Table 15-1, R428). -/
def cmdServed (s : State) : Bool := s.glb.dev != .off && s.glb.dev != .reset && s.glb.dev != .boot

/-- A command with the right key. -/
def keyed (s : State) (key : BitVec 16) (f : State → State) : State :=
  if !cmdServed s then s else if key.toNat = 0x5356 then f s else cmdIgnored s

/-- START (Table 18-7). -/
def startCmd (s : State) : State :=
  match s.glb.dev with
  | .hold => if s.glb.reason = 7 then enterRunning s else cmdIgnored s
  | .structured => if driverOk s || s.glb.autostart then enterRunning s else cmdIgnored s
  | .draining => if !s.glb.targetReset && s.glb.reason == 7 then { s with glb := { s.glb with startPending := true } } else cmdIgnored s
  | _ => cmdIgnored s

/-- HOLD (Table 18-7). -/
def holdCmd (s : State) : State :=
  match s.glb.dev with
  | .structured => enterHold s 7
  | .running => enterDraining s 7 false
  | .draining => if !s.glb.targetReset && s.glb.reason == 7 then { s with glb := { s.glb with startPending := false } } else cmdIgnored s
  | _ => cmdIgnored s

/-- RESET (Table 18-7). -/
def resetCmd (s : State) : State :=
  match s.glb.dev with
  | .hold => doReset s
  | .structured => doReset s
  | .fault => doReset s
  | .running => enterDraining s 0 true
  | .draining => { s with glb := { s.glb with targetReset := true, startPending := false, reason := 0 } }
  | _ => s

/-! ## The driver's declaration (R369, R370) -/

/-- What the gate says of the declaration: none where it is accepted, else the reason. -/
def declareCheck (s : State) : Option Nat :=
  let d := driverComp s
  if !steppingOk s d then some 3
  else if !pairsOk (withKinds s.sage.comps ++ [(3, d)]) then some 4
  else none

/-- DECLARE (R370). -/
def declareRun (s : State) : State :=
  if s.glb.dev ≠ .hold ∧ s.glb.dev ≠ .structured ∧ s.glb.dev ≠ .running ∧ s.glb.dev ≠ .draining then s
  else
    match declareCheck s with
    | none =>
      let s := regOr s (mgtReg 0x8050) 2
      regSetField s (mgtReg 0x8014) 31 16 (driverComp s).provides
    | some reason =>
      let s := regSetField (regSetField s (mgtReg 0x8050) 2 1 2) (mgtReg 0x8014) 31 16 0
      match s.glb.dev with
      | .hold => regSetField { s with glb := { s.glb with reason := reason }, sage := { s.sage with holdSeen := reason } } (mgtReg 0x8000) 15 8 reason
      | .structured => enterHold s reason
      | .running => enterDraining s reason false
      | _ => if s.glb.targetReset then s else { s with glb := { s.glb with reason := reason, startPending := false } }

/-! ## Updates (R371 to R374) -/

/-- An update command ends (Table 15-13): RESULT and DONE, and a log entry. -/
def updDone (s : State) (cmd result : Nat) : State :=
  let s := regOr (regSetField s (mgtReg 0x8030) 15 8 result) (mgtReg 0x8030) (2 ^ 16)
  logEvent s 0x50 1 (if result = 0 then 0 else 1) (toLe 1 cmd ++ toLe 1 result)

/-- The device state allows the command (Table 15-9); in OFF, RESET and BOOT the register is not served (R428). -/
def updServed (s : State) : Bool :=
  s.glb.dev == .hold || s.glb.dev == .structured || s.glb.dev == .running || s.glb.dev == .draining

/-- The staged address and length. -/
def stagedAt (s : State) : Nat × Nat := (regNat s (mgtReg 0x8020) + 2 ^ 32 * regNat s (mgtReg 0x8024), regField s (mgtReg 0x8028) 22 0)

/-- The staged slot image (R372), read from shared system SRAM: none where it does not lie there whole, or a quad of it is poisoned. -/
def stagedImage (s : State) : State × Option (List Byte) :=
  let a := stagedAt s
  if a.1 % 64 ≠ 0 ∨ !inSram a.1 a.2 ∨ a.2 < 4096 ∨ 0x400000 < a.2 then (s, none)
  else
    let r := readMem s 0 1 a.1 a.2
    (r.1, if r.2.ap || r.2.poison then none else some r.2.bytes)

/-- A staged image as an image. -/
def bytesReader (bs : List Byte) : Reader := fun off len => sub bs off len

/-- The checks that PROGRAM and BOOT_STAGED make first (R372). -/
def stagedChecks (s : State) (bs : List Byte) (drv : List (Nat × Comp)) : Option Nat :=
  let r := bytesReader bs
  if rdAt r 0 4 ≠ 0x544F4C53 ∨ rdAt r 4 2 ≠ 1 then some 2
  else
    match compChecks s r bs.length drv with
    | some x => some x
    | none => if bodyOk s (imageBody r) then none else some 6

/-- The slot not in use (R373). -/
def otherSlot (s : State) : Nat :=
  if regBit s (mgtReg 0x8000) 3 then
    let a := candidate (norReader s 0)
    let b := candidate (norReader s 1)
    if a ∧ b then (if dirSeq (norReader s 1) < dirSeq (norReader s 0) then 1 else 0) else if a then 1 else 0
  else 1 - regField s (mgtReg 0x8000) 0 0

/-- SEQUENCE of the slot to be written (R374). -/
def nextSeq (s : State) : Nat :=
  let q := fun (b : Nat) => if candidate (norReader s b) then dirSeq (norReader s b) else 0
  max (q 0) (q 1) + 1

/-- A slot region erased and programmed: the staged bytes with SEQUENCE, DIR_CRC and, last, COMMIT. -/
def writeSlot (s : State) (bank seq : Nat) (bs : List Byte) : State :=
  let dir := sub bs 0 8 ++ toLe 4 seq ++ sub bs 12 0x1C
  let img := dir ++ toLe 4 (crc32 dir) ++ sub bs 0x2C 0x14 ++ toLe 4 0 ++ bs.drop 0x44
  let base := bank * 2 ^ 23
  let kept := s.sage.flash.filter fun c => !(decide (base ≤ c.1) && decide (c.1 < base + 0x400000))
  { s with sage := { s.sage with flash := mwrite kept base (img.map fun b => b ^^^ 0xFF) } }

/-- PROGRAM (R372 to R374). -/
def programRun (s : State) : State :=
  if !updServed s then s
  else if s.glb.dev = .draining then updDone s 1 0x11
  else
    match stagedImage s with
    | (s, none) => updDone s 1 2
    | (s, some bs) =>
      match stagedChecks s bs (acceptedDriver s) with
      | some x => updDone s 1 x
      | none =>
        if 0xFFFFFFFF ≤ nextSeq s then updDone s 1 0x11
        else updDone (writeSlot s (otherSlot s) (nextSeq s) bs) 1 0

/-- BOOT_STAGED (R372): the device passes through BOOT with the staged image. -/
def bootStagedRun (s : State) : State :=
  if !updServed s then s
  else if s.glb.dev ≠ .hold then updDone s 2 0x11
  else
    match stagedImage s with
    | (s, none) => updDone s 2 2
    | (s, some bs) =>
      match stagedChecks s bs [] with
      | some x => updDone s 2 x
      | none =>
        let g := s.glb
        let t := resetAll s
        let t := { t with glb := { t.glb with dev := .boot, bootStep := 1, autostart := g.autostart, topo := g.topo, rank := g.rank } }
        bootImage (startSage (updDone (regOr t 0x18 1) 2 0)) (bytesReader bs) bs.length none

/-- REBOOT (Table 15-9). -/
def rebootRun (s : State) : State :=
  if !updServed s then s
  else if s.glb.dev ≠ .hold then updDone s 3 0x11
  else
    let g := s.glb
    let t := resetAll s
    bootFlash { updDone (regOr t 0x18 1) 3 0 with glb := { t.glb with autostart := g.autostart, topo := g.topo, rank := g.rank } }

/-- RAISE_FLOOR (Table 15-9): the floor rises to the least SEC_VERSION of the running components. -/
def raiseFloorRun (s : State) : State :=
  if !updServed s then s
  else if s.glb.dev ≠ .running then updDone s 4 0x11
  else
    let least := ((s.sage.comps.map (·.sec)).min?).getD 0
    updDone { s with sage := { s.sage with floor := max s.sage.floor least } } 4 0

/-- FUSE_KEY (Table 15-9): the 32 bytes at the staged address go into the lowest unused key slot. -/
def fuseKeyRun (s : State) : State :=
  if !updServed s then s
  else if s.glb.dev = .draining then updDone s 5 0x11
  else
    match (List.range 4).find? fun i => !shas s.sage.keys i with
    | none => updDone s 5 0x11
    | some i =>
      let a := (stagedAt s).1
      if a % 64 ≠ 0 ∨ !inSram a 32 then updDone s 5 0x11
      else
        let r := readMem s 0 1 a 32
        if r.2.ap ∨ r.2.poison then updDone r.1 5 2
        else updDone { r.1 with sage := { r.1.sage with keys := sset r.1.sage.keys i r.2.bytes } } 5 0

/-- REVOKE_KEY (Table 15-9): refused if a running component is signed by the key. -/
def revokeKeyRun (s : State) : State :=
  if !updServed s then s
  else
    let i := regField s (mgtReg 0x8028) 1 0
    if s.glb.dev ≠ .running ∨ (s.sage.comps.any fun c => c.signer == some i) then updDone s 6 0x11
    else updDone { s with sage := { s.sage with revoked := if s.sage.revoked.contains i then s.sage.revoked else s.sage.revoked ++ [i] } } 6 0

/-- SIGNED_ONLY (Table 15-9): refused unless every running component is signed. -/
def signedOnlyRun (s : State) : State :=
  if !updServed s then s
  else if s.glb.dev ≠ .running ∨ (s.sage.comps.any fun c => c.signer.isNone) then updDone s 7 0x11
  else updDone { s with sage := { s.sage with signedOnly := true } } 7 0

end Sys2Proof.Machine
end

