-- ==== Sys2Proof/Machine/Restruct.lean ====
section
/-! DEFINITION. Restructuring a hedge (R375 to R377). -/

namespace Sys2Proof.Machine

/-- A Pleach component alone, as an image whose directory names it as component 2. -/
def componentReader (bs : List Byte) : Reader := fun off len =>
  if off < 0x1000 then sub (List.replicate 0x20 (0 : Byte) ++ toLe 4 0x1000 ++ toLe 4 bs.length ++ List.replicate 0xFD8 0) off len
  else sub bs (off - 0x1000) len

/-- Checks 3 to 6 of Table 15-3 on a Pleach component against the running firmware and the driver (R375). -/
def pleachChecks (s : State) (bs : List Byte) : Option Nat :=
  let r := componentReader bs
  if !headerOk r (0x1000 + bs.length) 2 then some 2
  else if !signatureOk s r 2 then some 5
  else
    let c := compOfImage s r 2
    if !steppingOk s c then some 3
    else if !pairsOk (withKinds (s.sage.comps.take 2 ++ [c]) ++ acceptedDriver s) then some 4
    else none

/-- A queue of the binding group is bound. -/
def groupBound (s : State) (g : Nat) : List Nat := (s.queues.map (·.1)).filter fun q => bound s q && queueBg s q == g

/-- A binding-group entry may change as it does (R375): no queue of it is bound, or only HEDGES gains or loses the hedge while STEP_MAX
stays at or above each bound queue's STEP. -/
def groupChangeOk (s : State) (b : List Byte) (h g : Nat) : Bool :=
  let old := sub s.pleach (0x480 + 16 * g) 16
  let new := sub b (0x480 + 16 * g) 16
  old == new || (groupBound s g).isEmpty ||
  (old.drop 6 == new.drop 6 && sub old 2 2 == sub new 2 2 &&
   (List.range 16).all (fun i => i == h || bitOf (leAt old 0 2) i == bitOf (leAt new 0 2) i) &&
   (groupBound s g).all fun q => decide (queueStep s q ≤ leAt new 4 2))

/-- The body differs from the running one only where it may (R375). -/
def changesOk (s : State) (b : List Byte) (h : Nat) : Bool :=
  b.take 0x80 == s.pleach.take 0x80 && b.drop 0x880 == s.pleach.drop 0x880 &&
  ((List.range 16).all fun k => k == h || sub b (0x80 + 64 * k) 64 == sub s.pleach (0x80 + 64 * k) 64) &&
  (List.range 64).all (groupChangeOk s b h)

/-- The hedge has nothing in it (R375). -/
def hedgeIdle (s : State) (h : Nat) : Bool :=
  let e := hedge s h
  !e.en.en && !e.en.disabling && e.run.isNone && e.groups.isEmpty && e.opens.isEmpty && e.closes.isEmpty &&
  ((List.range 8).all fun a => (claimedBy s (arrIx h a)).isNone) && (e.skids.all fun x => x.2.isEmpty) &&
  (e.parts.all fun x => x.2.occ.isEmpty && x.2.borrows.isEmpty)

/-- The change would leave no reserved hedge while a receiver unit is enabled (R375). -/
def losesReserved (s : State) (b : List Byte) (h : Nat) : Bool :=
  role s h == 2 && bHedge b h 0 1 != 2 && !((List.range 16).any fun k => bHedge b k 0 1 == 2) &&
  (List.range 4).any fun u => (rxu s u).en.en

/-- Why the restructure is refused (`MGT_RST_STAT`.RESULT), if it is. -/
def restructRefused (s : State) (bs b : List Byte) (h : Nat) : Option Nat :=
  match pleachChecks s bs with
  | some x => some x
  | none =>
    if !bodyOk s b ∨ !changesOk s b h ∨ losesReserved s b h then some 6
    else if !hedgeIdle s h then some 0x11
    else none

/-- `MGT_RST_STAT` as a restructure leaves it. -/
def rstDone (s : State) (h result : Nat) : State :=
  let r := mgtReg 0x8060
  regOr (regSetField (regSetField (regSetField s r 3 0 h) r 4 4 0) r 15 8 result) r (2 ^ 16)

/-- The restructure at the head of the waiting ones is checked: refused with FORMAT, or accepted (Table 15-12a, step 1). -/
def judgeRestruct (s : State) (x : Restruct) : State :=
  match restructRefused s x.body (bodyDefaults (sub x.body 128 2560)) x.h with
  | some r => complete (rstDone { s with restructs := s.restructs.drop 1 } x.h r) x.uid .format
  | none =>
    let s := { s with restructs := { x with accepted := true, comp := compOfImage s (componentReader x.body) 2 } :: s.restructs.drop 1 }
    let s := regSetField (regSetField s (mgtReg 0x8060) 3 0 x.h) (mgtReg 0x8060) 4 4 1
    modHedge s x.h fun e => { e with restructuring := true }

/-- RESTRUCTURE (R375, R376): the component is read, and checked at once unless an earlier restructure has not completed. One in host memory is
refused (R222). -/
def restructureCmd (s : State) (c : Cmd) : State :=
  let q := cmdQueue s c
  let h := leAt c.slot 0x18 1
  let a := op10 c.slot
  let hd := readMem s q 0xFC a 128
  if isHost a then complete s c.uid .format
  else if hd.2.ap then complete hd.1 c.uid .aperture
  else if hd.2.poison then complete hd.1 c.uid .integrity
  else
    let size := 128 + min 2560 (leAt hd.2.bytes 0x20 4) + (if bitOf (leAt hd.2.bytes 7 1) 0 then 128 else 0)
    let r := readMem hd.1 q 0xFC a size
    if r.2.ap then complete r.1 c.uid .aperture
    else if r.2.poison then complete r.1 c.uid .integrity
    else
      let x : Restruct := { uid := c.uid, h := h, body := r.2.bytes }
      let s : State := { r.1 with restructs := r.1.restructs ++ [x] }
      if s.restructs.length = 1 then judgeRestruct s x else s

/-- Arrays whose shape or PIN_MODEL changes become EMPTY (Table 15-12a, step 2); a withdrawn one stays withdrawn. -/
def reshape (s : State) (b : List Byte) (h : Nat) : State :=
  (List.range 8).foldl (fun s a =>
    let n := arrIx h a
    let sameShape := fieldOf (bHedge b h 4 2) (2 * a + 1) (2 * a) == shapeOf s h a
    let samePin := bHedge b h (0x20 + 4 * a) 4 == pinModel s h a
    let sameBit := bitOf (bHedge b h 2 1) a == bitOf (hEntry s h 2 1) a
    let s := if sameShape && samePin then s
      else modArr s n fun x => if x.st = .withdrawn then x else { integ := x.integ, cls := x.cls, loads := x.loads.filter fun j => !j.started }
    if sameBit && samePin then s else modArr s n fun x => { x with pinned := none }) s

/-- RESTRUCTURE_RUN (Table 15-12a): the accepted restructure runs; one that waited is checked first. -/
def restructureRun1 (s : State) : State :=
  match s.restructs with
  | [] => s
  | x :: _ =>
    if !x.accepted then (if (findCmd s x.uid).isSome then judgeRestruct s x else { s with restructs := s.restructs.drop 1 })
    else
      let b := bodyDefaults (sub x.body 128 2560)
      let s := reshape { s with restructs := s.restructs.drop 1 } b x.h
      let s := { s with pleach := b, sage := { s.sage with comps := s.sage.comps.take 2 ++ [x.comp] } }
      let s := regSetField s (mgtReg 0x8014) 15 0 x.comp.provides
      let s := modHedge s x.h fun e =>
        { e with restructuring := false, off := role s x.h == 0, en := { en := e.en.pendOn && role s x.h != 0 } }
      complete (rstDone s x.h 0) x.uid .ok

end Sys2Proof.Machine
end

