-- ==== Sys2Proof/Machine/RegView.lean ====
section
/-! DEFINITION. What a read of each BAR0 register returns (Table 18-3 and the chapters' register tables): the register file, with the
fields that report other state laid over it; and the reading commands (R8, R277, R428). -/

namespace Sys2Proof.Machine

/-! ## Views, block by block -/

/-- GLB (Table 18-6). -/
def glbView (s : State) (o : Nat) : Nat :=
  let g := s.glb
  match o with
  | 0x00 => 0x48001F4B
  | 0x04 => g.revision
  | 0x08 => g.dev.code + g.reason * 2 ^ 8 + b2n g.targetReset * 2 ^ 16 + b2n g.startPending * 2 ^ 17 + b2n g.autostart * 2 ^ 18 +
      b2n (driverOk s) * 2 ^ 19 + b2n (regBit s 8 24) * 2 ^ 24
  | 0x14 => b2n (regBit s 0x14 0) + b2n g.pendingOpen * 2 + b2n (g.bypassOpen && g.topo != 0) * 4 + b2n (!g.bypassN) * 8 + b2n g.vka * 16
  | 0x18 => irqSources s
  | 0x1C => regNat s 0x1C
  | 0x20 => regNat s 0x20
  | _ => 0

/-- A front-end core or hedge sequencer has work in hand (log 6): commands dispatched; a step, load or close of its hedge. -/
def firmwareBusy (s : State) (id : Nat) : Bool :=
  if id < 0x10 then s.cmds.any fun c => !c.queued
  else
    let h := hedge s (id - 0x10)
    h.run.isSome || !h.closes.isEmpty || (List.range 8).any fun a => (arr s (8 * (id - 0x10) + a)).st == .loading

/-- `MGT_SEQ_STAT`.STATE of a core: held in reset from step 8 of Table 15-3 until STRUCTURED; a receiver unit's core then reports its
contexts, the others whether they have work (log 6). -/
def seqState (s : State) (id : Nat) : Nat :=
  if !corePowered s then 0
  else if s.glb.bootStep < 11 then 4
  else if id < 0x20 then 1 + b2n (firmwareBusy s id)
  else
    let cs := (rxu s (id - 0x20)).ctxs.filter fun x => x.2.st != .none
    if cs.isEmpty then 1 else if cs.any fun x => x.2.st == .running || x.2.st == .ready then 2 else 3

/-- Open contexts of a core. -/
def seqContexts (s : State) (id : Nat) : Nat :=
  if id < 0x20 then 0 else ((rxu s (id - 0x20)).ctxs.filter fun x => x.2.st != .none).length

/-- A core's registers (Table 12-7); what the firmware of the other cores has retired is a free value (log 6). -/
def seqView (s : State) (id o : Nat) : Nat :=
  if !coreIds.contains id then 0
  else if o = 0 then seqState s id + seqContexts s id * 8 + b2n (regBit s (mgtReg (0x4000 + 0x40 * id)) 8) * 2 ^ 8
  else if id < 0x20 then (if o = 4 then (Config.firmwareRetired id s.freeTick).toNat else 0)
  else
    let x := rxu s (id - 0x20)
    if o = 4 then x.retired.toNat % 2 ^ 32 else if o = 8 then x.lastTrap.toNat % 2 ^ 11 else if o = 0xC then x.epc.toNat else 0

/-- `MGT_BOOT_FUSE`. -/
def fuseView (s : State) : Nat :=
  let bits := fun (f : Nat → Bool) => ((List.range 4).map fun i => if f i then 2 ^ i else 0).sum
  bits (fun i => shas s.sage.keys i) + bits (fun i => s.sage.revoked.contains i) * 2 ^ 4 + b2n s.sage.signedOnly * 2 ^ 8 + s.sage.floor * 2 ^ 16

/-- MGT (Tables 12-8 and 15-13). -/
def mgtView (s : State) (o : Nat) : Nat :=
  if 0x10000 ≤ o ∧ o < 0x20000 then txView s 0 ((o - 0x10000) / 0x100) (o % 0x100)
  else if 0x20000 ≤ o ∧ o < 0x30000 then rxView s ((o - 0x20000) / 0x100) 0 (o % 0x100)
  else if 0x3000 ≤ o ∧ o < 0x300C then
    let j := (o - 0x3000) / 4
    ((List.range 32).map fun b => if mbxPending s (32 * j + b) then 2 ^ b else 0).sum
  else if 0x4000 ≤ o ∧ o < 0x4000 + 0x40 * 0x24 then seqView s ((o - 0x4000) / 0x40) (o % 0x40)
  else if o = 0x800C then fuseView s
  else if o = 0x802C then 0
  else if 0x8000 ≤ o ∧ o ≤ 0x8060 then regNat s (mgtReg o)
  else 0

/-- QFE queue registers (Tables 10-12 and 11-6). -/
def qfeView (s : State) (q o : Nat) : Nat :=
  let k := queue s q
  let r := regNat s (qfeReg q o)
  if o = 0 then k.st.code + b2n k.en * 2 ^ 3 + b2n k.pendOn * 2 ^ 4 + b2n (decide (q < 64)) * 2 ^ 7
  else if o = 0x28 then k.pi.toNat
  else if o = 0x2C then k.ci.toNat
  else if o = 0x38 then k.quiet + k.acting.code * 2 ^ 8 + fieldOf r 12 10 * 2 ^ 10
  else r

/-- FNW (Table 11-6). -/
def fnwView (s : State) (o : Nat) : Nat :=
  if o < 0x10000 then
    let f := o / 16
    let r := regNat s (fnwReg f (o % 16))
    match o % 16 with
    | 0 => (fence s f).value.toNat % 2 ^ 32
    | 12 => b2n (fence s f).err + fieldOf r 12 1 * 2
    | _ => r
  else if o = 0x10000 then regNat s watchCfg
  else if o = 0x10004 then regNat s watchCount
  else if o = 0x10008 then stalledCount s
  else 0

/-- `HDG_STAT`.STATE (Table 4-8): a hedge whose role is not OFF reads IDLE with EN 0 (DEDUCED from Table 15-12a, step 5; log 32). -/
def hedgeState (s : State) (h : Nat) : Nat :=
  let e := hedge s h
  if e.restructuring then 4 else if e.en.disabling then 3 else if e.run.isSome then 2 else if e.off || role s h == 0 then 0 else 1

/-- `HDG_ROT_CLAIM` (Table 7-8): the positions that rotations hold, the queue of the one granted first (DESIGN CHOICE where several hold
disjoint positions, log 67), and whether a claim waits. -/
def rotClaim (s : State) (h : Nat) : Nat :=
  let claims := fun (st : RotStage) => s.rotations.filter fun r => r.stage == st && (rdHedges r.desc).contains h
  let held := claims .running
  ((List.range 8).map fun p => if held.any fun r => bitOf (leAt r.desc 6 1) p then 2 ^ p else 0).sum +
    (match held with | r :: _ => r.q * 2 ^ 16 | [] => 0) + b2n (!(claims .claiming).isEmpty) * 2 ^ 30

/-- HDG (Tables 4-6 to 4-11, 5-9, 6-10, 7-8). The closes waiting for the output unit are those it has not begun (DESIGN CHOICE, log 32). -/
def hdgView (s : State) (h o : Nat) : Nat :=
  let e := hedge s h
  let r := regNat s (hdgReg h o)
  let code := fun (a : Nat) => if (arr s (arrIx h a)).retest then 1 else (arr s (arrIx h a)).st.code
  if o = 0 then b2n e.en.en + b2n e.en.disabling * 2 + b2n e.en.pendOn * 4 + b2n (!e.detachedFrom.isEmpty) * 8
  else if o = 4 then hedgeState s h + fieldOf r 10 8 * 2 ^ 8
  else if o = 8 then role s h + (hParts s h - 1) * 4 + hEntry s h 2 1 * 2 ^ 8 + hEntry s h 4 2 * 2 ^ 16
  else if o = 0xC then ((List.range 8).map fun a => code a * 16 ^ a).sum
  else if o = 0x10 then e.units.toNat
  else if o = 0x14 then e.searches.toNat % 2 ^ 32
  else if o = 0x1C then b2n e.snapReq + b2n e.snapValid * 2
  else if 0x20 ≤ o ∧ o < 0x40 then (match (arr s (arrIx h ((o - 0x20) / 4))).img with | some im => im.model.toNat | none => 0)
  else if 0x80 ≤ o ∧ o < 0xC0 ∧ o % 16 = 0 then
    let p := (o - 0x80) / 16
    if p < hParts s h then hEntry s h (8 + 4 * p) 1 + slotCount s h p * 2 ^ 16 else 0
  else if o = 0xC0 then min 0xFFFF (e.skids.map fun x => x.2.length).sum
  else if o = 0x10C then e.groups.length + min 255 e.opens.length * 2 ^ 8
  else if o = 0x110 then maxGroups s h
  else if o = 0x148 then min 255 (e.closes.filter fun c => c.stage == 0).length
  else if o = 0x180 then rotClaim s h
  else r

/-- `RXU_STAT`.STATE (Table 8-10). -/
def unitState (s : State) (u : Nat) : Nat :=
  let x := rxu s u
  if x.en.disabling then 3
  else if x.streams.any fun y => !y.2.tasks.isEmpty then 2
  else if x.en.en then 1 else 0

/-- `RXU_AGC_STATs` (Table 8-10). -/
def agcStat (s : State) (u l : Nat) : Nat :=
  let a := (stream s u l).agc
  let st := if !unitOn s u || (globalOf s u l).isNone then 0 else if a.cls = 2 then 3 else if a.frozen then 2 else 1
  st + a.gDone % 256 * 2 ^ 8 + a.frozenG % 256 * 2 ^ 16

/-- The global streams of a unit, as `RXU_MAP`.STREAMS. -/
def unitStreams (s : State) (u : Nat) : Nat :=
  ((List.range 8).map fun l => match globalOf s u l with | some g => 2 ^ g | none => 0).sum

/-- The operation that an engine of a unit has begun and not ended (R202). -/
def opRunning (x : Rxu) (e : Nat) : Option EngJob := (sget [] x.eng e).find? (·.left.isSome)

/-- RXU (Tables 3-14 to 3-16, 8-10, 9-8). -/
def rxuView (s : State) (u o : Nat) : Nat :=
  let x := rxu s u
  let r := regNat s (rxuReg u o)
  if o = 0 then b2n x.en.en + b2n x.en.disabling * 2 + b2n x.en.pendOn * 4
  else if o = 4 then unitState s u + fieldOf r 12 8 * 2 ^ 8
  else if o = 8 then x.strobes.toNat % 2 ^ 32
  else if o = 0x18 then unitStreams s u + unitLanes s u * 2 ^ 16 + unitEntry s u 1 1 % 16 * 2 ^ 20 + b2n (sharedSlot s) * 2 ^ 24
  else if o = 0x100 then x.lock + b2n x.aligned * 2 ^ 8 + fieldOf r 17 16 * 2 ^ 16
  else if 0x1000 ≤ o ∧ o < 0x1100 ∧ o % 0x20 = 0x18 then
    let l := (o - 0x1000) / 0x20
    agcStat s u l + fieldOf r 26 24 * 2 ^ 24
  else if o = 0x4000 then b2n (opRunning x 0).isSome + fieldOf r 11 8 * 2 ^ 8
  else if o = 0x4008 then (match opRunning x 0 with | some j => openTiles (mxopOf j.job.block) j.pos | none => 0)
  else if o = 0x5000 then b2n (opRunning x 1).isSome + fieldOf r 13 8 * 2 ^ 8
  else if o = 0x5008 then (match opRunning x 1 with | some j => groupVl (vxopOf j.job.block) j.pos | none => 0)
  else if o = 0x6000 then b2n x.rex.en + b2n x.rex.disabling * 2 + b2n x.rex.pendOn * 4
  else r

/-- UTR (Table 13-9). -/
def utrView (s : State) (o : Nat) : Nat :=
  if o < 0x40000 then
    let p := o / 0x10000
    let u := uport s p
    let r := regNat s (utrPort p (o % 0x10000))
    let k := o % 0x10000
    if k = 0 then b2n u.en.en + b2n u.en.disabling * 2 + b2n u.en.pendOn * 4
    else if k = 4 then (if u.en.disabling then 3 else u.st) + u.rate * 8 + u.lock * 2 ^ 8 + fieldOf r 19 16 * 2 ^ 16
    else if k = 8 then u.peer + b2n (u.st == 2) * 16 + b2n u.bypass * 32
    else if k = 0x18 then b2n (!u.snapWait.isEmpty) + b2n u.snapValid * 2
    else if 0x20 ≤ k ∧ k < 0x38 then
      let c := sget ((0, 0, 0) : Nat × Nat × Nat) u.creds ((k - 0x20) / 4)
      c.1 + c.2.1 * 2 ^ 8 + c.2.2 * 2 ^ 16
    else r
  else
    let k := o - 0x40000
    if k = 0 then
      let x := ringX s
      let y := ringY s
      s.glb.topo + s.glb.rank * 4 + (x * y - 1) * 2 ^ 6 + (if topology s = 2 then (x - 1) * 2 ^ 10 + (y - 1) * 2 ^ 12 else 0)
    else if k = 4 then ringId s
    else regNat s (utrCom k)

/-- `MEM_ARR_FAULTn`. -/
def arrFaultView (a : Arr) : Nat := a.integ + a.cls * 2 ^ 16 + b2n a.checking * 2 ^ 18

/-- Bytes of staging slots that hold fetched images (`MEM_DMV_STAGE`): whole slots of the rounds fetched in part or whole whose multicast
has not read them. -/
def stagedBytes (s : State) : Nat :=
  (s.rotations.map fun r =>
    let p := max 1 (rdArrays r.desc).length
    if rdDepth r.desc = 0 then 0 else (cdiv r.fetched p - roundsRead r) * (p * rdMax r.desc)).sum

/-- MEM (Tables 14-9 and 7-8); MEM_ARR_WDRAW keeps what the state record names across RESET (R9). -/
def memView (s : State) (o : Nat) : Nat :=
  if 0x200 ≤ o ∧ o < 0x210 then
    ((List.range 32).map fun b => if (arr s (8 * (o - 0x200) + b)).st == .withdrawn || bitOf s.sage.cur.wdraw (8 * (o - 0x200) + b) then 2 ^ b else 0).sum
  else if o = 0x210 then 0
  else if 0x400 ≤ o ∧ o < 0x600 then arrFaultView (arr s ((o - 0x400) / 4))
  else if o = 0x8008 then stagedBytes s
  else regNat s (memReg o)

/-- `PWR_WAIT` (Table 16-14). -/
def waitView (s : State) : Nat :=
  match s.pwr.waiting with
  | [] => 0
  | c :: _ => min 255 s.pwr.waiting.length + claimSize s c.nom % 256 * 2 ^ 8 + b2n (!c.recv) * 2 ^ 16

/-- PWR (Table 16-14). -/
def pwrView (s : State) (o : Nat) : Nat :=
  let p := s.pwr
  let r := regNat s (pwrReg o)
  match o with
  | 0x00 => fieldOf r 9 0 + p.effective * 2 ^ 16
  | 0x04 => p.pool + heldTokens p * 2 ^ 16
  | 0x08 => b2n p.snapReq + b2n p.snapValid * 2
  | 0x10 => waitView s
  | 0x14 => p.factor + p.leak * 2 ^ 16
  | 0x20 => p.vcoreSet + p.vcoreMeas * 2 ^ 16
  | 0x24 => p.vmatchSet + p.vmatchMeas * 2 ^ 16
  | 0x30 => p.paceCore
  | 0x34 => p.paceMatch
  | 0x40 => unsigned 9 p.tj + (hottest p.sensors).2 * 2 ^ 16
  | 0x48 => fieldOf r 6 0 + b2n (alarmLow s) * 2 ^ 16
  | 0x4C => p.startStep + b2n (s.glb.dev == .boot && s.glb.bootStep == 7 && decide (p.startStep < 14) && !p.stopped) * 2 ^ 8 +
      b2n p.stopped * 2 ^ 9
  | _ => r

/-- An MSI-X table entry's words, and the PBA (R415). -/
def msixView (s : State) (o : Nat) : Nat :=
  if o < 0x88000 then
    let e := sget ({} : MsixEntry) s.hif.table ((o - 0x80000) / 16)
    match o % 16 with
    | 0 => e.addr.toNat % 2 ^ 32
    | 4 => e.addr.toNat / 2 ^ 32
    | 8 => e.data.toNat
    | _ => b2n e.masked
  else if o < 0x88100 then ((List.range 32).map fun b => if s.hif.pba.contains (8 * (o - 0x88000) + b) then 2 ^ b else 0).sum
  else 0

/-- HIF (Table 17-9, R415). -/
def hifView (s : State) (o : Nat) : Nat :=
  if 0x10000 ≤ o ∧ o < 0x14000 then
    let m := (o - 0x10000) / 0x1000
    let k := mac s m
    let r := regNat s (macReg m (o % 0x1000))
    if o % 0x1000 = 0 then b2n k.en.en + b2n k.en.disabling * 2 + b2n k.en.pendOn * 4 + fieldOf r 21 3 * 8
    else if o % 0x1000 = 4 then b2n k.link + fieldOf r 10 8 * 2 ^ 8
    else r
  else if 0x80000 ≤ o then msixView s o
  else regNat s (hifReg o)

/-- A register of BAR0 as a number (Table 18-1). -/
def regView (s : State) (off : Nat) : Nat :=
  if off < 0x100000 then glbView s off
  else if off < 0x200000 then mgtView s (off - 0x100000)
  else if off < 0x300000 then qfeView s ((off - 0x200000) / 64) (off % 64)
  else if off < 0x304000 then regNat s off
  else if off < 0x400000 then 0
  else if off < 0x800000 then fnwView s (off - 0x400000)
  else if off < 0x1800000 then hdgView s ((off - 0x800000) / 0x100000) (off % 0x100000)
  else if off < 0x1C00000 then rxuView s ((off - 0x1800000) / 0x100000) (off % 0x100000)
  else if off < 0x1D00000 then utrView s (off - 0x1C00000)
  else if off < 0x1E00000 then memView s (off - 0x1D00000)
  else if off < 0x1F00000 then pwrView s (off - 0x1E00000)
  else hifView s (off - 0x1F00000)

/-! ## Access by device state (R428) -/

/-- The host's reads of BAR0 registers are served. -/
def hostReads (s : State) : Bool :=
  s.glb.dev == .hold || s.glb.dev == .structured || s.glb.dev == .running || s.glb.dev == .draining || s.glb.dev == .fault

/-- The host's writes of BAR0 registers are served; FAULT serves few. -/
def hostWrites (s : State) : Bool :=
  s.glb.dev == .hold || s.glb.dev == .structured || s.glb.dev == .running || s.glb.dev == .draining

/-- What a BAR0 read returns (R428): 0 where the state does not permit the access. -/
def regRead (s : State) (off : Nat) : Word :=
  if hostReads s || (s.glb.dev == .boot && decide (off < 0xC)) then BitVec.ofNat 32 (regView s off) else 0

/-- What a read of queue q's doorbell page at offset `o` returns (R228, Table 10-4). -/
def doorbellRead (s : State) (q o : Nat) : Word :=
  let k := queue s q
  if !served s || k.st == .free || k.st == .retiring then 0
  else if o = 0 then k.pi
  else if o = 4 then k.ci
  else if o = 8 then BitVec.ofNat 32 k.st.code
  else 0

/-! ## Reading commands -/

/-- The offsets of RC registers (Tables 3-14, 5-8, 8-9, 13-8, 14-8, 17-8) whose value stands in the register file. -/
def rcReg (off : Nat) : Bool :=
  if 0x800000 ≤ off ∧ off < 0x1800000 then off % 0x100000 == 0x118
  else if 0x1800000 ≤ off ∧ off < 0x1C00000 then [0x14, 0x104, 0x600C, 0x6010, 0x6014].contains (off % 0x100000)
  else if 0x1C00000 ≤ off ∧ off < 0x1C40000 then [0xC, 0x10, 0x14].contains (off % 0x10000)
  else if off = utrCom 0x14 then true
  else if memReg 0x100 ≤ off ∧ off < memReg 0x1E0 then off % 4 == 0
  else if macReg 0 0 ≤ off ∧ off < macReg 4 0 then [0x48, 0x4C, 0x50, 0x54, 0x58, 0x5C].contains (off % 0x1000)
  else false

/-- The high word that a read of a low word latches: its register and its value (R108, R198, R277). -/
def latchOf (s : State) (off : Nat) : Option (Nat × Nat) :=
  if 0x400000 ≤ off ∧ off < 0x410000 ∧ off % 16 = 0 then some (off + 4, (fence s ((off - 0x400000) / 16)).value.toNat / 2 ^ 32)
  else if 0x800000 ≤ off ∧ off < 0x1800000 ∧ off % 0x100000 = 0x14 then
    some (off + 4, (hedge s ((off - 0x800000) / 0x100000)).searches.toNat / 2 ^ 32)
  else if 0x1800000 ≤ off ∧ off < 0x1C00000 ∧ off % 0x100000 = 8 then
    some (off + 4, (rxu s ((off - 0x1800000) / 0x100000)).strobes.toNat / 2 ^ 32)
  else none

/-- What a register read does beside returning the value: an RC register clears (R8, R84, R354), `MGT_MBX_RX_WORD` with its channel's FULL
(R298), and a low word latches its high word (R277). -/
def readEffect (s : State) (off : Nat) : State :=
  if !hostReads s then s
  else if rcReg off then regSet s off 0
  else if 0x120000 ≤ off ∧ off < 0x130000 ∧ off % 0x100 = 0x48 then wordTaken s ((off - 0x120000) / 0x100) 0
  else match latchOf s off with
    | some x => regSet s x.1 (BitVec.ofNat 32 x.2)
    | none => s

/-- A register read (R8): the value is returned, and the read has its effect. -/
def regReadRun (s : State) (off : Nat) : State := readEffect (answer { s with busEp := false } (regRead s off)) off

/-- RC_COUNTER_READ (R8, R84, R354). -/
def rcReadRun (s : State) (off : Nat) : State := regReadRun s off

/-- LATCHING_READ (R277). -/
def latchReadRun (s : State) (off : Nat) : State := regReadRun s off

end Sys2Proof.Machine
end

