-- ==== Sys2Proof/WellFormed.lean ====
section
/-! DEFINITION. Which commands are well formed: the operands that a type does not bound by itself. An ill-formed command
names nothing the device has: a register of a channel that does not exist reads 0 and ignores writes (R302), a BAR0 request that is not
aligned is refused (R409), and of the others there is no such event. -/

namespace Sys2Proof

/-- The mailbox endpoints (R278, R294): the host 0x00, Sage 0x01, the 24 cores, and the peer hosts 0x40 to 0x4F. -/
def EndPt.isEndpoint (e : EndPt) : Bool :=
  let n := e.toNat
  n == 0 || n == 1 || (0x08 ≤ n && n ≤ 0x0B) || (0x10 ≤ n && n ≤ 0x23)

/-- A peer host's ID 0x40 + k (R294). -/
def EndPt.isPeer (e : EndPt) : Bool := 0x40 ≤ e.toNat && e.toNat ≤ 0x4F

/-- The channels that exist (R294): every ordered pair of distinct endpoints of this device, and the host with each peer. -/
def channelExists (snd rcv : EndPt) : Bool :=
  (EndPt.isEndpoint snd && EndPt.isEndpoint rcv && snd != rcv) ||
    (snd == 0 && EndPt.isPeer rcv) || (EndPt.isPeer snd && rcv == 0)

/-- A flit is nine quads (R306), each with one reading at most. -/
def Flit.shape (f : Flit) : Bool := f.pay.length == 8 && f.poison.length == 9 && decide ((f.errs.map (·.quad)).Nodup)

/-- The stores that have a quad scrubber of their own (R346): codes 1 to 3 and 7 to 11. -/
def scrubbedStore (s : Fin 14) : Bool := (1 ≤ s.val && s.val ≤ 3) || (7 ≤ s.val && s.val ≤ 11)

/-- A naturally aligned 32-bit access inside the 32 MiB of BAR0 (R6, R408). -/
def bar0Offset (off : Nat) : Bool := off < 0x2000000 && off % 4 == 0

/-- The well-formed commands. -/
def Instr.wellFormed : Instr → Bool
  | .go snd rcv | .mbxBlockCommit snd rcv | .withdraw snd rcv | .mbxWordSend snd rcv _ | .take snd rcv
  | .mbxWordRead snd rcv => channelExists snd rcv
  | .rcCounterRead off | .latchingRead off | .registerWrite off _ => bar0Offset off
  | .bar4Access (.read _ len) => 0 < len
  | .bar4Access (.write _ data _) => data != []
  | .governorPass g => g.sensors.length == 24
  | .sampleCapture _ mb => mb.samples.length ≤ 8
  | .sramScrubQuad r => scrubbedStore r.store
  | .tileReplay _ tile => tile < 512
  | .recordFlit _ f | .markFlit _ f | .chainHeadFlit _ f | .chainDataFlit _ f | .mgtBlockFlit _ f
  | .mgtWordFlit _ f | .noticeFlit _ f | .membershipFlit _ f => f.shape
  | .atsInvalidation r => 0 < r.count
  | .hostReadCompletion r => 0 < r.quads
  | .completionTimeout _ quads => 0 < quads
  | _ => true

end Sys2Proof
end

