-- ==== Sys2Proof/Machine/Integrity.lean ====
section
/-! DEFINITION. Scrubbing (R345 to R348), the check, test, withdrawal and retest of a faulty array (R349 to R352). -/

namespace Sys2Proof.Machine

/-! ## Scrubbing of stored quads -/

/-- A small unit of work that claims and returns its tokens within one event may run (R26, R389): nothing waits or is owed, and the pool
meets it. -/
def tokensSpare (s : State) (c : Nat) : Bool :=
  noneAhead s false && decide (claimSize s c ≤ s.pwr.pool) && decide (s.pwr.leakOwed + s.pwr.rxOwed = 0)

/-- The accumulator row and quad that a folded address of store 7 names (Table 14-3), as (hedge, row, quad). -/
def accQuad (f : Nat) : Nat × Nat × Nat := (f / 2 ^ 20 % 16, f / 8 % 2 ^ 13, f % 8)

/-- The data of a stored quad (stores 0 to 3 and 7 to 11; the units' task regions are Local.lean's). -/
def quadData (s : State) (store f : Nat) : Nat :=
  if store ≤ 3 then le (mread s.mem (16 * f) 16)
  else if store = 7 then
    let x := accQuad f
    (sget (0 : BitVec 640) (hedge s x.1).acc x.2.1).toNat / 2 ^ (128 * x.2.2) % 2 ^ 128
  else le (mread (chip s store) (chipAddr f) 16)

/-- The data of a stored quad written back by its scrubber. -/
def putQuadData (s : State) (store f v : Nat) : State :=
  if store ≤ 3 then { s with mem := mwrite s.mem (16 * f) (toLe 16 v) }
  else if store = 7 then
    let x := accQuad f
    modHedge s x.1 fun e =>
      let row := (sget (0 : BitVec 640) e.acc x.2.1).toNat
      { e with acc := sset e.acc x.2.1 (BitVec.ofNat 640 (setField row (128 * x.2.2 + 127) (128 * x.2.2) v)) }
  else setChip s store (mwrite (chip s store) (chipAddr f) (toLe 16 v))

/-- The class of a stored quad as its scrubber reads it (R336). -/
def scrubClass (s : State) (store f : Nat) : QuadClass :=
  let v := quadState s store f
  classify v.poison (quadData s store f == 0) v.err.toNat v.adx.toNat

/-- A stored quad read by its scrubber (R345, R346): a CE is corrected in place, a UE becomes the poisoned code word (R343). The address
reported (R353) is the device address of stores 0 to 3, else f × 16: both are 16 times f. -/
def scrubQuad (s : State) (store f : Nat) : State :=
  let v := quadState s store f
  match (if store = 9 then localQuad f else none) with
  | some x => localScrub s x.1 x.2
  | none =>
    if v = {} then s
    else match scrubClass s store f with
      | .clean => s
      | .poisoned => s
      | .ce p =>
        let d := quadData s store f ^^^ (residualOf v / 2 ^ 18 % 2 ^ 128)
        setQuad (putQuadData (countCe s store) store f (if p then 0 else d)) store f { poison := p }
      | .ue =>
        let s := setQuad (putQuadData (countUe s store 0xFF (16 * f)) store f 0) store f { poison := true }
        if store = 10 ∨ store = 11 then enterFault s 1 [] else s
      | .ae => countAe s store 0xFF (16 * f)

/-- LPDDR_SCRUB_STRIPE (R345): the next stripe of 24 quads is read, in ascending channel and stripe order. -/
def lpddrScrubRun (s : State) : State :=
  let stripes := usable s / (16 * 384)
  if !regBit s (memReg 0x10) 0 || decide (stripes = 0) || !tokensSpare s 2 then s
  else
    let k := s.scrubAt % (16 * stripes)
    let base := (16 * (k % stripes) + k / stripes) * 24
    let s := (List.range 24).foldl (fun s i => scrubQuad s 0 (base + i)) s
    if k + 1 = 16 * stripes then regAdd { s with scrubAt := 0 } (memReg 0x14) 1 else { s with scrubAt := k + 1 }

/-- SRAM_SCRUB_QUAD (R346, R344): an on-chip scrubber reads one quad of its store. -/
def sramScrubRun (s : State) (r : QuadRef) : State :=
  let store := r.store.val
  let f := r.f.toNat
  let inStore : Bool :=
    if store ≤ 3 then (match storeOf s (16 * f) with | some x => x.1 == store | none => false)
    else f / 2 ^ 54 == store - 3
  if regBit s (memReg 0x10) 6 && powered s && s.glb.dev != .reset && scrubbedStore r.store && inStore then scrubQuad s store f else s

/-! ## Arrays -/

/-- The item that an overlay entry of an array's store belongs to (R347). -/
def itemOf (store low : Nat) : ArrItem :=
  if store = 4 then .row (Fin.ofNat 4096 (low / 32))
  else if store = 5 then .leaf (Fin.ofNat 4096 (low / 32))
  else .bin (Fin.ofNat 3072 low)

/-- The overlay entries of an array in stores 4, 5 and 6: store, low bits of f. -/
def arrFaults (s : State) (n : Nat) : List (Nat × Nat) :=
  [4, 5, 6].flatMap fun k => (arrOverlay s k (k - 3) n).map fun e => (k, e.1)

/-- One quad of an array read by the scrubber or the check: counters, and whether it is a CE or UE, which is not corrected in place. -/
def arrScrubQuad (s : State) (who n : Nat) (x : Nat × Nat) : State × Bool :=
  let f := arrFold (x.1 - 3) n + x.2
  let v := quadState s x.1 f
  match classify v.poison v.poison v.err.toNat v.adx.toNat with
  | .clean => (s, false)
  | .poisoned => (s, false)
  | .ce _ => (countCe s x.1, true)
  | .ue => (countUe s x.1 who (16 * f), true)
  | .ae => (countAe s x.1 who (16 * f), false)

/-- The quads of an array read in turn; the items found with a CE or UE. -/
def arrScrub (who n : Nat) : State → List (Nat × Nat) → State × List ArrItem
  | s, [] => (s, [])
  | s, x :: t =>
    let r := arrScrubQuad s who n x
    let rest := arrScrub who n r.1 t
    (rest.1, if r.2 then itemOf x.1 x.2 :: rest.2 else rest.2)

/-- ARRAY_SCRUB_READ (R347, R348): a row, slot or table quad is read; one with a CE or UE is to be rewritten from the image. -/
def arrayScrubRun (s : State) (n : Nat) (w : ArrItem) : State :=
  let a := arr s n
  if !regBit s (memReg 0x10) 7 || a.st == .loading || a.st == .withdrawn || a.checking || !corePowered s then s
  else
    let r := arrScrub 0xFF n s ((arrFaults s n).filter fun x => itemOf x.1 x.2 == w)
    if r.2.isEmpty || a.img.isNone || a.rewrites.contains w then r.1
    else modArr r.1 n fun a => { a with rewrites := a.rewrites ++ [w] }

/-- An item rewritten from the image in device memory (R55, R347); it stays as it is where a quad of the image there is poisoned. The
Bool says that it was rewritten. -/
def rewriteItem (s : State) (n : Nat) (w : ArrItem) : State × Bool :=
  match (arr s n).held, (arr s n).img with
  | some at_, some im =>
    let a := at_.toNat
    let hd := readMem s 0 0xFE a 64
    let h := hdrOf hd.2.bytes
    let span : Nat × Nat := match w with
      | .row r => (h.rowOff + r.val * shapeRowBytes im.shape, shapeRowBytes im.shape)
      | .leaf r => (h.leafOff + 16 * r.val, 16)
      | .bin q =>
        if q.val < 1024 then (h.cmpOff + 16 * q.val, 16)
        else if q.val < 2816 then (h.setOff + 16 * (q.val - 1024), 16)
        else (h.cmpOff, 16)
    let r := readMem hd.1 0 0xFE (a + span.1) span.2
    if hd.2.ap || hd.2.poison || r.2.ap || r.2.poison then (r.1, false)
    else
      let b := r.2.bytes
      let im2 : ArrImage := match w with
        | .row r =>
          let p := rowPlanes im.shape b
          if p == neverRow im.shape then { im with rows := sdel im.rows r.val } else { im with rows := sset im.rows r.val p }
        | .leaf r => { im with leaves := if leAt b 0 16 = 0 then sdel im.leaves r.val else sset im.leaves r.val (BitVec.ofNat 128 (leAt b 0 16)) }
        | .bin q =>
          if q.val < 1024 then
            { im with comps := (List.zip (List.range im.comps.length) im.comps).map fun c =>
                if c.1 / 2 = q.val then compOf (leAt b (8 * (c.1 % 2)) 8) else c.2 }
          else if q.val < 2816 then
            let k := q.val - 1024
            { im with sets := (List.zip (List.range im.sets.length) im.sets).map fun c =>
                if c.1 = k / 32 then BitVec.ofNat 4096 (setField c.2.toNat (128 * (k % 32) + 127) (128 * (k % 32)) (leAt b 0 16)) else c.2 }
          else im
      let s := modArr r.1 n fun a => { a with img := some im2 }
      let gone := (arrFaults s n).filter fun x => itemOf x.1 x.2 == w
      (gone.foldl (fun s x =>
        let f := arrFold (x.1 - 3) n + x.2
        let v := quadState s x.1 f
        setQuad s x.1 f (if v.hard then { err := v.err, hard := true } else {})) s, true)
  | _, _ => (s, false)

/-- ARRAY_ROW_REWRITE (R347, R17, R89): the oldest item waiting is rewritten once no step searches the array. -/
def arrayRewriteRun (s : State) (n : Nat) : State :=
  match (arr s n).rewrites with
  | [] => s
  | w :: t =>
    if searching s n || (arr s n).st != .ready || !tokensSpare s 1 then s
    else modArr (rewriteItem s n w).1 n fun a => { a with rewrites := t }

/-- Several items rewritten; the Bool says that all were. -/
def rewriteAll (n : Nat) : State → List ArrItem → State × Bool
  | s, [] => (s, true)
  | s, w :: t =>
    let r := rewriteItem s n w
    let rest := rewriteAll n r.1 t
    (rest.1, r.2 && rest.2)

/-- ARRAY_CHECK (R349): every quad is read, every item with a CE or UE is rewritten and read back; a clean read-back ends the check with
class STORAGE, and in every other case the pattern test runs. -/
def arrayCheckRun (s : State) (n : Nat) : State :=
  let a := arr s n
  if !a.checking || a.testing || a.retest then s
  else
    let r := arrScrub 0xFE n s (arrFaults s n)
    let w := rewriteAll n r.1 r.2
    let back := arrScrub 0xFE n w.1 ((arrFaults w.1 n).filter fun x => r.2.contains (itemOf x.1 x.2))
    modArr back.1 n fun a =>
      if !r.2.isEmpty && w.2 && back.2.isEmpty then { a with st := .ready, cls := 1, checking := false, checkDue := false, checked := true, rewrites := [] }
      else { a with testing := true }

/-- An array is withdrawn (R350, R351): it holds no image, the record and the log say so, and a rotation that claimed it stops (R160). -/
def withdrawArray (s : State) (n cls : Nat) : State :=
  let s := modArr s n fun a => { a with st := .withdrawn, img := none, held := none, cls := cls, checking := false, testing := false,
                                        checkDue := false, checked := true, rewrites := [] }
  let s := logEvent (regOr s (memReg 0x20) 0x10) 0x12 4 2 (toLe 1 n ++ toLe 1 cls)
  let c := s.sage.cur
  let s := writeRecord { s with sage := { s.sage with
    cur := { c with wdraw := if bitOf c.wdraw n then c.wdraw else c.wdraw + 2 ^ n, wclass := sset c.wclass n cls } } }
  match claimedBy s n with
  | some u => stopRotation s u .integrity
  | none => s

/-- The image of an array's last LOAD read again after the pattern test, and the check run again (R350). -/
def reloadTested (s : State) (n : Nat) : State :=
  let a := arr s n
  let addr : Option DWord := match a.home with | some m => some m.addr | none => a.held
  match addr with
  | none => modArr s n fun a => { a with st := .empty, img := none, held := none, checking := false, testing := false, checkDue := false }
  | some at_ =>
    let sch := loadSchema s { schema := a.home.bind (·.schema) }
    let r := match sch.2 with
      | some (.stop _) => (sch.1, none)
      | some (.ok d) => readImage sch.1 0 n at_.toNat none .reload (parseSchema d)
      | none => readImage sch.1 0 n at_.toNat none .reload none
    match r.2 with
    | some im =>
      let c := arrScrub 0xFE n (clearArrQuads r.1 n) (arrFaults (clearArrQuads r.1 n) n)
      if !c.2.isEmpty then withdrawArray c.1 n 1
      else modArr c.1 n fun a =>
        { a with st := .ready, img := some im, held := some at_, cls := 2, checking := false, testing := false, checkDue := false,
                 checked := true, rewrites := [] }
    | none => modArr r.1 n fun a =>
        { a with st := .empty, img := none, held := none, checking := false, testing := false, checkDue := false, rewrites := [] }

/-- ARRAY_TEST_DONE (R350): the outcome says what the pattern test of the silicon found; after a test that passes, the image is reloaded
and checked. -/
def arrayTestRun (s : State) (n : Nat) (o : TestOutcome) : State :=
  if !(arr s n).testing then s
  else if o.cellFail then withdrawArray s n 1
  else if o.logicFail then withdrawArray s n 3
  else reloadTested s n

/-- RETEST (R352): a write of the index of a withdrawn array starts its pattern test. -/
def retestRun (s : State) (v : Word) : State :=
  let n := v.toNat % 128
  if (arr s n).st = .withdrawn ∧ !(arr s n).retest then modArr s n fun a => { a with retest := true, checking := true } else s

/-- RETEST_DONE (R352). -/
def retestDoneRun (s : State) (n : Nat) (o : TestOutcome) : State :=
  if !(arr s n).retest then s
  else if o.cellFail ∨ o.logicFail then
    let s := modArr s n fun a => { a with retest := false, checking := false, cls := if o.cellFail then 1 else 3 }
    logEvent s 0x13 4 0 (toLe 1 n ++ toLe 1 0)
  else
    let s := setArr s n {}
    let c := s.sage.cur
    let s := writeRecord { s with sage := { s.sage with
      cur := { c with wdraw := if bitOf c.wdraw n then c.wdraw - 2 ^ n else c.wdraw, wclass := sdel c.wclass n } } }
    logEvent s 0x13 4 0 (toLe 1 n ++ toLe 1 1)

end Sys2Proof.Machine
end

