-- ==== Sys2Proof/Machine/Sagereq.lean ====
section
/-! DEFINITION. Sage's requests over the block channels between the host and Sage (R401, Table 16-9). -/

namespace Sys2Proof.Machine

/-- Sage's firmware or boot ROM serves requests in these states (R400, Table 15-1, R428). -/
def sageServes (s : State) : Bool := s.glb.dev != .off && s.glb.dev != .reset && s.glb.dev != .boot

/-- The request at the head of the host's channel to Sage, where Sage may take it: its answer to an earlier one has committed. -/
def sageRequest (s : State) : Option (List Word) :=
  if !sageServes s || (chan s 1 0).go then none else (chan s 0 1).queue.head?

/-- The words of a byte string. -/
def wordsOf (bs : List Byte) : List Word := (List.range (cdiv bs.length 4)).map fun i => BitVec.ofNat 32 (leAt bs (4 * i) 4)

/-- The answer block: OP and TAG repeated, the status, and the data from word 1; it commits where the queue has room (R295). -/
def sageAnswer (s : State) (w0 : Word) (status : Nat) (data : List Word) : State :=
  let block := BitVec.ofNat 32 (w0.toNat % 2 ^ 16 + status * 2 ^ 16) :: (data ++ List.replicate (15 - data.length) 0)
  let s := takeRun s 0 1
  let s := modChan s 1 0 fun c => { c with data := List.zip (List.range 16) block }
  commitRun (goRun s 1 0) 1 0

/-- The log entry with the lowest SEQ at or above `n` (LOG_READ). -/
def logFrom (es : List LogEntry) (n : Nat) : Option LogEntry :=
  es.foldl (fun (a : Option LogEntry) e =>
    if e.seq < n then a else match a with
      | some b => if e.seq < b.seq then some e else a
      | none => some e) none

/-- SENSORS: 24 temperatures, two voltages and the power of the last pass. -/
def sensorWords (s : State) : List Word :=
  wordsOf (padTo 24 s.pwr.sensors) ++ [BitVec.ofNat 32 s.pwr.vcoreMeas, BitVec.ofNat 32 s.pwr.vmatchMeas, BitVec.ofNat 32 s.pwr.power]

/-- A request served: `op` is the row's OP. A head request of another of the four operations is left to its own row; an unknown OP is answered
BAD_OP. -/
def serveSage (s : State) (op : Nat) (f : State → List Word → State × Nat × List Word) : State :=
  match sageRequest s with
  | none => s
  | some b =>
    let w0 := nth (0 : Word) b 0
    let got := w0.toNat % 256
    if got = 0 ∨ 4 < got then sageAnswer s w0 1 []
    else if got ≠ op then s
    else if w0.toNat / 2 ^ 16 ≠ 0 then sageAnswer s w0 2 []
    else
      let r := f s b
      sageAnswer r.1 w0 r.2.1 r.2.2

/-- SENSORS (Table 16-9). -/
def sensorsRun (s : State) : State := serveSage s 1 fun s _ => (s, 0, sensorWords s)

/-- LOG_READ. -/
def logReadRun (s : State) : State :=
  serveSage s 2 fun s b => match logFrom s.sage.log (nth (0 : Word) b 1).toNat with
    | some e => (s, 0, wordsOf (logBytes e))
    | none => (s, 3, [])

/-- STATE_READ. -/
def stateReadRun (s : State) : State :=
  serveSage s 3 fun s b =>
    let o := (nth (0 : Word) b 1).toNat
    if o % 32 ≠ 0 ∨ 256 ≤ o then (s, 2, []) else (s, 0, wordsOf (sub (recBytes s.sage.cur) o 32))

/-- LOG_MARK. -/
def logMarkRun (s : State) : State :=
  serveSage s 4 fun s b =>
    let t := logEvent s 0x60 0 0 ((List.range 3).flatMap fun i => toLe 4 (nth (0 : Word) b (1 + i)).toNat)
    (t, 0, [BitVec.ofNat 32 t.sage.logSeq])

end Sys2Proof.Machine
end

