-- ==== Sys2Proof/Machine/CmdBase.lean ====
section
/-! DEFINITION. What every meaning shares: the device states in which a command of its kind acts (Table 15-1, R428), the end of a command (R436,
log 4), and a command that names nothing. -/

namespace Sys2Proof.Machine

/-- A command ends: one that met a host access that has to wait changes nothing (log 4); an interrupt source that rose raises the device
vector (R436). -/
def done (s t : State) : Host.Outcome State Fault Refusal := .next (finish s (settle s t))

/-- An event of the engines or of the flows: in the states in which they run (Table 15-1); in others there is no such event (log 8). -/
def flows (s : State) (f : State → State) : Host.Outcome State Fault Refusal := done s (if served s then f s else s)

/-- A host write of a register that has a row of its own: ignored in a state that does not permit it (R428). -/
def host (s : State) (f : State → State) : Host.Outcome State Fault Refusal := done s (if hostWrites s then f s else s)

/-- An event of the powered core, in every state but FAULT (Table 15-1). -/
def alive (s : State) (f : State → State) : Host.Outcome State Fault Refusal :=
  done s (if corePowered s && s.glb.dev != .fault then f s else s)

/-- A command whose operands name nothing that can come about (WellFormed.lean): there is no such event, and nothing changes (log 8). -/
def checked (i : Instr) (s : State) (o : Host.Outcome State Fault Refusal) : Host.Outcome State Fault Refusal :=
  if i.wellFormed then o else done s s

/-- The outstanding command of a source with an opcode (R254, R258), begun: the oldest. -/
def cmdOfSrc (s : State) (src : Src) (op : Nat) : Option Cmd := s.cmds.find? fun c => c.src == src && c.op == op && !c.queued

/-- The outstanding FENCE_WAIT of a source whose fence has reached its value (R254), the oldest. -/
def waitOf (s : State) (src : Src) : Option Cmd :=
  s.cmds.find? fun c => c.src == src && c.op == 9 && !c.queued && reached s (opB18 c.slot) (BitVec.ofNat 64 (op10 c.slot))

/-- An operation on a command that was found. -/
def withCmd (s : State) (c : Option Cmd) (f : State → Cmd → State) : State :=
  match c with
  | some c => f s c
  | none => s

/-- An operation on a source's stream list that a DEP_FENCE mark holds (R166). -/
def withMover (s : State) (src : Src) (f : State → Nat → State) : State :=
  match s.movers.find? fun m => m.held && (match findCmd s m.uid with | some c => c.src == src | none => false) with
  | some m => f s m.uid
  | none => s

/-- The endpoint `e` may act on its channel with `other` now (Table 15-1, R428): the host's registers are served, Sage or a core runs. -/
def endpointActs (s : State) (e other : Nat) : Bool :=
  if e = 0 then hostWrites s || (s.glb.dev == .fault && other == 1)
  else if e = 1 then sageServes s
  else if e < 0x40 then corePowered s && s.glb.dev != .fault
  else false

/-- A mailbox command of endpoint `e` on the channel from `snd` to `rcv`: what waits for the channel looks again (R285), and a message held on
the ring may move (R300). -/
def mailCmd (s : State) (snd rcv e : Nat) (f : State → State) : Host.Outcome State Fault Refusal :=
  done s (if endpointActs s e (if e = snd then rcv else snd) then utrPump (mailEvent s (f s) snd rcv) else s)

/-- The channel hardware's own act on a channel (R295). -/
def mailDev (s : State) (snd rcv : Nat) (f : State → State) : Host.Outcome State Fault Refusal :=
  done s (if sageServes s then utrPump (mailEvent s (f s) snd rcv) else s)

end Sys2Proof.Machine
end

