-- ==== Sys2Proof/Machine/CmdHedge.lean ====
section
/-! DEFINITION. Meanings of the events of hedges, output units and rotations (R53, R85 to R109, R120, R127, R136, R148, R152 to R163). -/

namespace Sys2Proof.Machine

/-- HEDGE_REJOINED (R107). -/
def execHedgeRejoined (h : HIx) (s : State) : Host.Outcome State Fault Refusal :=
  flows s fun s => rejoinedRun s h.val

/-- HDG_SNAPSHOT_LATCH (R109). -/
def execHdgSnapshotLatch (h : HIx) (s : State) : Host.Outcome State Fault Refusal :=
  alive s fun s => hdgSnapLatch s h.val

/-- HEDGE_STEP_START (R89). -/
def execHedgeStepStart (h : HIx) (s : State) : Host.Outcome State Fault Refusal :=
  flows s fun s => stepStart s h.val

/-- HEDGE_STEP_END (R88). -/
def execHedgeStepEnd (h : HIx) (s : State) : Host.Outcome State Fault Refusal :=
  flows s fun s => utrPump (stepEnd s h.val)

/-- TILE_REPLAY (R120). -/
def execTileReplay (h : HIx) (tile : Nat) (s : State) : Host.Outcome State Fault Refusal :=
  checked (.tileReplay h tile) s (flows s fun s => Machine.tileReplay s h.val tile)

/-- ARRAY_LOAD_START (R89). -/
def execArrayLoadStart (n : AIx) (s : State) : Host.Outcome State Fault Refusal :=
  flows s fun s => loadStartAll s n.val

/-- ARRAY_LOAD_DONE (R54). -/
def execArrayLoadDone (n : AIx) (s : State) : Host.Outcome State Fault Refusal :=
  flows s fun s => loadDoneAll s n.val

/-- GROUP_OPEN_GRANTED (R127). -/
def execGroupOpenGranted (h : HIx) (s : State) : Host.Outcome State Fault Refusal :=
  flows s fun s => grantOpen s h.val

/-- POOL_BORROW_GRANTED (R104). -/
def execPoolBorrowGranted (h : HIx) (part : Fin 4) (s : State) : Host.Outcome State Fault Refusal :=
  flows s fun s => poolBorrow s h.val part.val

/-- MULTICAST_RECORD_SEND (R105). -/
def execMulticastRecordSend (q : QIx) (s : State) : Host.Outcome State Fault Refusal :=
  flows s fun s => multicastSend s q.val

/-- SKID_TO_SLOT (R105). -/
def execSkidToSlot (h : HIx) (bg : Fin 64) (s : State) : Host.Outcome State Fault Refusal :=
  flows s fun s => utrPump (Machine.skidToSlot s h.val bg.val)

/-- OUTPUT_CLOSE (R136). -/
def execOutputClose (h : HIx) (s : State) : Host.Outcome State Fault Refusal :=
  flows s fun s => utrPump (Machine.outputClose s h.val)

/-- TOPK_MERGE (R148). -/
def execTopkMerge (h : HIx) (s : State) : Host.Outcome State Fault Refusal :=
  flows s fun s => Machine.topkMerge s h.val

/-- ROTATION_CLAIM_GRANTED (R155). -/
def execRotationClaimGranted (s : State) : Host.Outcome State Fault Refusal :=
  flows s grantClaim

/-- STAGING_FETCH_DONE (R162). -/
def execStagingFetchDone (q : QIx) (s : State) : Host.Outcome State Fault Refusal :=
  flows s fun s => stagingFetch s q.val

/-- ROUND_MULTICAST_START (R158). -/
def execRoundMulticastStart (q : QIx) (s : State) : Host.Outcome State Fault Refusal :=
  flows s fun s => roundStart s q.val

/-- WAIT_MARK_RELEASED (R162). -/
def execWaitMarkReleased (q : QIx) (s : State) : Host.Outcome State Fault Refusal :=
  flows s fun s => releaseMark s q.val

/-- DMV_BURST_DONE (R168). -/
def execDmvBurstDone (s : State) : Host.Outcome State Fault Refusal :=
  flows s burst

/-- DEP_FENCE_RELEASED (R166). -/
def execDepFenceReleased (src : Src) (s : State) : Host.Outcome State Fault Refusal :=
  flows s fun s => withMover s src releaseDep

end Sys2Proof.Machine
end

