-- ==== Sys2Proof/Machine/RegWrite.lean ====
section
/-! DEFINITION. A host write of a BAR0 register (R8): RW fields take the value, W1C bits clear, fields that a row of the command table
has act as that row, and each register's own rule for values it ignores. -/

namespace Sys2Proof.Machine

/-! ## Kinds of field -/

/-- W1C bits of a register of the file. -/
def w1c (s : State) (off v mask : Nat) : State :=
  let old := regNat s off
  regSet s off (BitVec.ofNat 32 (old - (old &&& (v &&& mask))))

/-- RW bits of a register of the file. -/
def rw (s : State) (off v mask : Nat) : State := regSet s off (BitVec.ofNat 32 (v &&& mask))

/-- A field [hi:lo] of `v` that is ignored where `ok` is false: the old field stays in its place. -/
def keepUnless (ok : Bool) (old v hi lo : Nat) : Nat := if ok then v else setField v hi lo (fieldOf old hi lo)

/-! ## Rows that are register writes -/

/-- DB_PI_WRITE (R228, R229). -/
def dbPiRun (s : State) (q : Nat) (v : Word) : State :=
  let k := queue s q
  if !served s || k.st == .free || k.st == .retiring then s
  else if piAccepted s q v then setPi s q v
  else regOr s (qfeReg q 4) 1

/-- BIND (R224, R225, R361): a write of 1 to `QFE_CTL`.BIND of a kernel queue; refused outside the states in which flows run, without an
accepted driver, or by Table 10-2. A queue that is not FREE is left as it is. -/
def bindRun (s : State) (q : Nat) : State :=
  if 64 ≤ q then s
  else if (queue s q).st != .free then regOr s (qfeReg q 4) 2
  else if served s && driverOk s && bindOk s q (bindRegs s q) then bindQueue s q (bindRegs s q)
  else regOr s (qfeReg q 4) 2

/-- A write of `QFE_CTL` (R224, R225, Table 10-12): with BIND or DESTROY at 1 it acts only as that command, and EN is ignored; above queue 63
BIND is refused and DESTROY does nothing. -/
def qfeCtlWrite (s : State) (q v : Nat) : State :=
  if !bitOf v 5 && !bitOf v 6 then enWrite s q (bitOf v 3)
  else if 64 ≤ q then (if bitOf v 5 then regOr s (qfeReg q 4) 2 else s)
  else if bitOf v 6 ∧ (queue s q).st ≠ .free then destroyWrite s q
  else if bitOf v 5 then bindRun s q
  else s

/-- `QFE_SCHED_STALL` written (R251, R276): a threshold of 0 clears QUIET. -/
def stallWrite (s : State) (q v : Nat) : State :=
  let s := rw s (qfeReg q 0x34) v 0x7FF
  if v % 256 = 0 then modQueue s q fun k => { k with quiet := 0 } else s

/-- A queue's registers (R224, R244, R276). -/
def qfeWrite (s : State) (q o v : Nat) : State :=
  let off := qfeReg q o
  let put := fun (mask : Nat) => if q < 64 ∧ (queue s q).st = .free then rw s off v mask else s
  match o with
  | 0x00 => qfeCtlWrite s q v
  | 0x04 => w1c s off v 0x1F
  | 0x08 => put 0xFFFFFFFF
  | 0x0C => put 0xFFFFFFFF
  | 0x10 => put 0xFFFFFF3F
  | 0x14 => put 0xFFFFFFFF
  | 0x18 => put 0xFFFFFFFF
  | 0x1C => put 0xFFF
  | 0x20 => put 0x1FFFFF
  | 0x24 => put 0x1FFFF3F
  | 0x30 => if v % 2 ^ 16 = 0 then s else rw s off v 0xFFFF
  | 0x34 => stallWrite s q v
  | 0x38 => w1c s off v 0x1C00
  | _ => s

/-- Aperture registers (R245). -/
def aprWrite (s : State) (off v : Nat) : State := rw s off v (if off % 8 = 0 then 0xFFFFF000 else 0x7FFFFFFF)

/-- FNW (Table 11-6). -/
def fnwWrite (s : State) (o v : Nat) : State :=
  if o < 0x10000 then
    let f := o / 16
    match o % 16 with
    | 8 => rw s (fnwReg f 8) v 0x1FFFFF
    | 12 =>
      let s := rw s (fnwReg f 12) v 0x1FFE
      if bitOf v 0 then setFence s f { fence s f with err := false } else s
    | _ => s
  else if o = 0x10000 then rw s watchCfg (keepUnless (fieldOf v 23 8 != 0) (regNat s watchCfg) v 23 8) 0xFFFF3F
  else s

/-- HDG (Tables 4-7, 4-8, 4-11, 5-9, 6-10, 7-8). -/
def hdgWrite (s : State) (h o v : Nat) : State :=
  let off := hdgReg h o
  match o with
  | 0x00 =>
    let s := hedgeEnRun s h (bitOf v 0)
    if bitOf v 4 then rejoinRun s h else s
  | 0x04 => w1c s off v 0x700
  | 0x1C => if bitOf v 0 then hdgSnapRequest s h else s
  | 0x114 => w1c s off v 0xF
  | 0x140 => w1c s off v 0x1F
  | 0x188 => w1c s off v 3
  | _ => s

/-- The gain registers of a local stream (R176, R199): a field outside its range ignores the write; where the loop is off, or in MANUAL, the
write takes effect at once. -/
def agcWrite (s : State) (u l o v : Nat) : State :=
  let off := agcReg u l o
  match o with
  | 0x00 => manualGainRun s u l false (BitVec.ofNat 32 v)
  | 0x0C => manualGainRun s u l true (BitVec.ofNat 32 v)
  | 0x10 => if agcValueOk 0x10 v then rw s off v 0xFFFFFFF else s
  | 0x14 => rw s off v 0xFFFFFFFF
  | 0x18 => w1c s off v 0x7000000
  | _ =>
    if o = 4 ∨ o = 8 then
      let s := rw s off v 0xFFFFFFFF
      if unitOn s u && (stream s u l).agc.cls == 2 then latchAgc s u l else s
    else s

/-- RXU (Tables 3-15, 3-16, 8-10, 9-8). -/
def rxuWrite (s : State) (u o v : Nat) : State :=
  let off := rxuReg u o
  if 0x1000 ≤ o ∧ o < 0x1100 then agcWrite s u ((o - 0x1000) / 0x20) (o % 0x20) v
  else
    match o with
    | 0x0000 => rxuEnRun s u (bitOf v 0)
    | 0x0004 => w1c s off v 0x1F00
    | 0x0100 => w1c s off v 0x30000
    | 0x3000 => if 2 ≤ v % 256 ∧ Config.devclk u ≤ 50 * (v % 256) then rw s off v 0xFF else s
    | 0x4000 => w1c s off v 0xF00
    | 0x5000 => w1c s off v 0x3F00
    | 0x6000 => rexEnRun s u (bitOf v 0)
    | 0x6004 => w1c s off v 7
    | _ => s

/-- An entry of `UTR_RQn` names a bound queue. -/
def rqBound (s : State) (w : Nat) : Bool := bitOf w 31 && bound s (fieldOf w 13 0)

/-- UTR (Table 13-9, R316, R334). -/
def utrWrite (s : State) (o v : Nat) : State :=
  if o < 0x40000 then
    let p := o / 0x10000
    let off := utrPort p (o % 0x10000)
    match o % 0x10000 with
    | 0x00 =>
      let s := portEn s p (bitOf v 0)
      if bitOf v 3 then retrainRun s p else s
    | 0x04 => w1c s off v 0xF0000
    | 0x18 => if bitOf v 0 then snapRequest s p else s
    | _ => s
  else
    let k := o - 0x40000
    if k = 0x10 then w1c s (utrCom 0x10) v 0x1F
    else if 0x1000 ≤ k ∧ k < 0x1800 ∧ k % 32 ≤ 0x10 then modelWrite s ((k - 0x1000) / 32) (k % 32) (BitVec.ofNat 32 v)
    else if 0x2000 ≤ k ∧ k < 0x2100 then
      if rqBound s (regNat s (utrCom k)) || rqBound s v then s else rw s (utrCom k) v 0x80FFFFFF
    else s

/-- MEM (Tables 14-9 and 7-8). -/
def memWrite (s : State) (o v : Nat) : State :=
  let off := memReg o
  match o with
  | 0x10 => rw s off (keepUnless (decide (4 ≤ fieldOf v 4 1)) (regNat s off) v 4 1) 0xFF
  | 0x20 => w1c s off v 0x7F
  | 0x30 => rw s off v 0xFFFF
  | 0x210 => retestRun s (BitVec.ofNat 32 v)
  | 0x8000 => w1c s off v 7
  | _ => s

/-- PWR (Table 16-14, R390). -/
def pwrWrite (s : State) (o v : Nat) : State :=
  let off := pwrReg o
  match o with
  | 0x00 => targetRun s (v % 1024)
  | 0x08 => if bitOf v 0 then pwrSnapRequest s else s
  | 0x28 => rw s off (keepUnless (decide (600 ≤ v % 1024) && decide (v % 1024 ≤ 850)) (regNat s off) v 9 0) 0x103FF
  | 0x44 => if fieldOf v 15 8 ≤ v % 256 ∨ 125 < fieldOf v 15 8 then s else rw s off v 0xFFFF
  | 0x48 => w1c s off v 0x7F
  | _ => s

/-- `HIF_BAR4_BASE` (R409): a base that is no multiple of the BAR4 size is ignored. -/
def baseWrite (s : State) (o v : Nat) : State :=
  let base := if o = 8 then v + 2 ^ 32 * regNat s (hifReg 0xC) else regNat s (hifReg 8) + 2 ^ 32 * v
  if base % s.hif.bar4Size = 0 then rw s (hifReg o) v 0xFFFFFFFF else s

/-- The registers of MAC port m (Table 17-9). -/
def macWrite (s : State) (m o v : Nat) : State :=
  let off := macReg m o
  if 0x100 ≤ o ∧ o < 0x200 then
    (match o % 16 with
     | 0 => rw s off v 0x3FFF0001
     | 4 => rw s off v 0xFFFFFFFF
     | 8 => rw s off v 0x3FFF
     | _ => s)
  else if (0x20 ≤ o ∧ o < 0x30) ∨ (0xA0 ≤ o ∧ o < 0xB0) then rw s off v 0xFFFFFFFF
  else
    match o with
    | 0x00 =>
      let n := fieldOf v 21 8
      let s := rw s off (keepUnless (decide (64 ≤ n) && decide (n ≤ 9216)) (regNat s off) v 21 8) 0x3FFFF8
      dropWaiting (macEnRun s m (bitOf v 0)) m
    | 0x04 => w1c s off v 0x700
    | 0x08 => rw s off v 0xFFFFFFFF
    | 0x0C => rw s off v 0xFFFF
    | 0x10 => rw s off v 0x3FFF
    | 0x14 => rw s off v 0xFFFF
    | 0x18 => rw s off v 0xFFFFFFFF
    | 0x80 => rw s off v 0xFFFFFF
    | 0x84 => rw s off v 0xFFFFFFFF
    | 0x88 => rw s off v 0xFFFF
    | 0x8C => rw s off v 0xFFFFFFFF
    | 0x90 => rw s off v 0xFFFFFFFF
    | _ => s

/-- The MSI-X table (R415): address, data, and the mask bit, whose clearing sends a held message. -/
def msixWrite (s : State) (o v : Nat) : State :=
  if 0x88000 ≤ o then s
  else
    let n := (o - 0x80000) / 16
    let e := sget ({} : MsixEntry) s.hif.table n
    let put := fun (e : MsixEntry) => { s with hif := { s.hif with table := sset s.hif.table n e } }
    match o % 16 with
    | 0 => put { e with addr := BitVec.ofNat 64 (e.addr.toNat / 2 ^ 32 * 2 ^ 32 + v / 4 * 4) }
    | 4 => put { e with addr := BitVec.ofNat 64 (v * 2 ^ 32 + e.addr.toNat % 2 ^ 32) }
    | 8 => put { e with data := BitVec.ofNat 32 v }
    | _ => flushVecs (put { e with masked := bitOf v 0 })

/-- HIF (Table 17-9). -/
def hifWrite (s : State) (o v : Nat) : State :=
  if 0x80000 ≤ o then msixWrite s o v
  else if 0x10000 ≤ o ∧ o < 0x14000 then macWrite s ((o - 0x10000) / 0x1000) (o % 0x1000) v
  else
    match o with
    | 0 => rw s (hifReg 0) v 1
    | 4 => w1c s (hifReg 4) v 0xF
    | 8 => baseWrite s 8 v
    | 0xC => baseWrite s 0xC v
    | _ => s

/-! ## GLB and MGT -/

/-- A write of `GLB_CMD` (Table 18-6, R432). -/
def cmdWrite (s : State) (v : Nat) : State :=
  let key := BitVec.ofNat 16 (v / 2 ^ 16)
  match v % 8 with
  | 1 => keyed s key startCmd
  | 2 => keyed s key holdCmd
  | 3 => keyed s key resetCmd
  | _ => if cmdServed s then cmdIgnored s else s

/-- GLB (Table 18-6). -/
def glbWrite (s : State) (o v : Nat) : State :=
  match o with
  | 0x08 => w1c s 8 v (2 ^ 24)
  | 0x0C => cmdWrite s v
  | 0x10 => watchPokeRun s
  | 0x14 => forceCloseRun s (bitOf v 0)
  | 0x18 =>
    let s := w1c s 0x18 v 1
    if bitOf v 31 then rearmRun s else s
  | 0x1C => irqMaskRun s (BitVec.ofNat 32 v)
  | 0x20 => rw s 0x20 v 0x7FF
  | _ => s

/-- An update command written to `MGT_UPD_CMD` (Table 15-9); 0 names none. -/
def updWrite (s : State) (v : Nat) : State :=
  match v % 8 with
  | 1 => programRun s
  | 2 => bootStagedRun s
  | 3 => rebootRun s
  | 4 => raiseFloorRun s
  | 5 => fuseKeyRun s
  | 6 => revokeKeyRun s
  | 7 => signedOnlyRun s
  | _ => s

/-- MGT (Tables 12-8 and 15-13). -/
def mgtWrite (s : State) (o v : Nat) : State :=
  let off := mgtReg o
  if 0x10000 ≤ o ∧ o < 0x20000 then txWrite s 0 ((o - 0x10000) / 0x100) (o % 0x100) v
  else if 0x20000 ≤ o ∧ o < 0x30000 then rxWrite s ((o - 0x20000) / 0x100) 0 (o % 0x100) v
  else if 0x4000 ≤ o ∧ o < 0x4900 then
    (if o % 0x40 = 0 ∧ coreIds.contains ((o - 0x4000) / 0x40) then w1c s off v 0x100 else s)
  else
    match o with
    | 0x8008 => rw s off v 3
    | 0x8020 => rw s off v 0xFFFFFFFF
    | 0x8024 => rw s off v 0xFFFFFFFF
    | 0x8028 => rw s off v 0x7FFFFF
    | 0x802C => updWrite s v
    | 0x8030 => w1c s off v 0x30000
    | 0x8040 => rw s off v 0xFFFFFF
    | 0x8044 => rw s off v 0xFFFFFFFF
    | 0x8048 => rw s off v 0xFFFFFFFF
    | 0x804C => rw s off v 0xFFFFFFFF
    | 0x8050 =>
      let s := w1c s off v 4
      if bitOf v 0 then declareRun s else s
    | 0x8060 => w1c s off v 0x10000
    | _ => s

/-! ## The write -/

/-- A register written, whatever the state (Table 18-1). -/
def regPut (s : State) (off v : Nat) : State :=
  if off < 0x100000 then glbWrite s off v
  else if off < 0x200000 then mgtWrite s (off - 0x100000) v
  else if off < 0x300000 then qfeWrite s ((off - 0x200000) / 64) (off % 64) v
  else if off < 0x304000 then aprWrite s off v
  else if off < 0x400000 then s
  else if off < 0x800000 then fnwWrite s (off - 0x400000) v
  else if off < 0x1800000 then hdgWrite s ((off - 0x800000) / 0x100000) (off % 0x100000) v
  else if off < 0x1C00000 then rxuWrite s ((off - 0x1800000) / 0x100000) (off % 0x100000) v
  else if off < 0x1D00000 then utrWrite s (off - 0x1C00000) v
  else if off < 0x1E00000 then memWrite s (off - 0x1D00000) v
  else if off < 0x1F00000 then pwrWrite s (off - 0x1E00000) v
  else hifWrite s (off - 0x1F00000) v

/-- In FAULT only `GLB_CMD` and the host's channels to and from Sage take writes (R428). -/
def faultWrite (off : Nat) : Bool :=
  off == 0xC || (decide (0x110100 ≤ off) && decide (off < 0x110200)) || (decide (0x120100 ≤ off) && decide (off < 0x120200))

/-- REGISTER_WRITE (R8, R428). -/
def regWriteRun (s : State) (off : Nat) (v : Word) : State :=
  if hostWrites s || (s.glb.dev == .fault && faultWrite off) then regPut s off v.toNat else s

end Sys2Proof.Machine
end

