-- ==== Sys2Proof/Machine/CmdHost.lean ====
section
/-! DEFINITION. Meanings of the rows that are host accesses to registers, BAR4 and the PCIe function (R406 to R415, R428, R432 to R436). -/

namespace Sys2Proof.Machine

/-- DB_PI_WRITE (R229). -/
def execDbPiWrite (q : QIx) (v : Word) (s : State) : Host.Outcome State Fault Refusal :=
  flows s fun s => dbPiRun s q.val v

/-- BIND (R224). -/
def execBind (q : QIx) (s : State) : Host.Outcome State Fault Refusal :=
  host s fun s => bindRun s q.val

/-- DESTROY (R269). -/
def execDestroy (q : QIx) (s : State) : Host.Outcome State Fault Refusal :=
  host s fun s => destroyWrite s q.val

/-- QUEUE_EN_WRITE (R241). -/
def execQueueEnWrite (q : QIx) (en : Bool) (s : State) : Host.Outcome State Fault Refusal :=
  host s fun s => enWrite s q.val en

/-- HEDGE_EN_WRITE (R268). -/
def execHedgeEnWrite (h : HIx) (en : Bool) (s : State) : Host.Outcome State Fault Refusal :=
  host s fun s => hedgeEnRun s h.val en

/-- REJOIN (R107). -/
def execRejoin (h : HIx) (s : State) : Host.Outcome State Fault Refusal :=
  host s fun s => rejoinRun s h.val

/-- HDG_SNAPSHOT_REQUEST (R109). -/
def execHdgSnapshotRequest (h : HIx) (s : State) : Host.Outcome State Fault Refusal :=
  host s fun s => hdgSnapRequest s h.val

/-- RXU_EN_WRITE (R188). -/
def execRxuEnWrite (u : UIx) (en : Bool) (s : State) : Host.Outcome State Fault Refusal :=
  host s fun s => rxuEnRun s u.val en

/-- REX_EN_WRITE (R268). -/
def execRexEnWrite (u : UIx) (en : Bool) (s : State) : Host.Outcome State Fault Refusal :=
  host s fun s => rexEnRun s u.val en

/-- MANUAL_GAIN_WRITE (R176). -/
def execManualGainWrite (u : UIx) (l : LIx) (toRange : Bool) (v : Word) (s : State) : Host.Outcome State Fault Refusal :=
  host s fun s => manualGainRun s u.val l.val toRange v

/-- PORT_EN_WRITE (R268). -/
def execPortEnWrite (p : PIx) (en : Bool) (s : State) : Host.Outcome State Fault Refusal :=
  host s fun s => portEn s p.val en

/-- RETRAIN (R332). -/
def execRetrain (p : PIx) (s : State) : Host.Outcome State Fault Refusal :=
  host s fun s => retrainRun s p.val

/-- CREDIT_SNAP_REQUEST (R312). -/
def execCreditSnapRequest (p : PIx) (s : State) : Host.Outcome State Fault Refusal :=
  host s fun s => snapRequest s p.val

/-- MODEL_READY_WRITE (R316). -/
def execModelReadyWrite (n : MIx) (v : Word) (s : State) : Host.Outcome State Fault Refusal :=
  host s fun s => modelWrite s n.val 4 v

/-- TARGET_WRITE (R390). -/
def execTargetWrite (v : Word) (s : State) : Host.Outcome State Fault Refusal :=
  host s fun s => targetRun s (v.toNat % 1024)

/-- PWR_SNAPSHOT_REQUEST (R392). -/
def execPwrSnapshotRequest (s : State) : Host.Outcome State Fault Refusal :=
  host s pwrSnapRequest

/-- MAC_EN_WRITE (R422). -/
def execMacEnWrite (m : EIx) (en : Bool) (s : State) : Host.Outcome State Fault Refusal :=
  host s fun s => macEnRun s m.val en

/-- START (R432). -/
def execStart (key : BitVec 16) (s : State) : Host.Outcome State Fault Refusal :=
  done s (keyed s key startCmd)

/-- HOLD (R432). -/
def execHold (key : BitVec 16) (s : State) : Host.Outcome State Fault Refusal :=
  done s (keyed s key holdCmd)

/-- RESET (R433). -/
def execReset (key : BitVec 16) (s : State) : Host.Outcome State Fault Refusal :=
  done s (keyed s key resetCmd)

/-- WATCH_POKE (R259). -/
def execWatchPoke (_v : Word) (s : State) : Host.Outcome State Fault Refusal :=
  host s watchPokeRun

/-- FORCE_CLOSE (R434). -/
def execForceClose (on : Bool) (s : State) : Host.Outcome State Fault Refusal :=
  host s fun s => forceCloseRun s on

/-- BYPASS_REOPEN (R434). -/
def execBypassReopen (s : State) : Host.Outcome State Fault Refusal :=
  done s (bypassReopenRun s)

/-- REARM (R436). -/
def execRearm (s : State) : Host.Outcome State Fault Refusal :=
  host s rearmRun

/-- IRQ_MASK_WRITE (R436). -/
def execIrqMaskWrite (v : Word) (s : State) : Host.Outcome State Fault Refusal :=
  host s fun s => irqMaskRun s v

/-- PROGRAM (R373). -/
def execProgram (s : State) : Host.Outcome State Fault Refusal :=
  host s programRun

/-- BOOT_STAGED (R372). -/
def execBootStaged (s : State) : Host.Outcome State Fault Refusal :=
  host s bootStagedRun

/-- REBOOT (R371). -/
def execReboot (s : State) : Host.Outcome State Fault Refusal :=
  host s rebootRun

/-- RAISE_FLOOR (R371). -/
def execRaiseFloor (s : State) : Host.Outcome State Fault Refusal :=
  host s raiseFloorRun

/-- FUSE_KEY (R371). -/
def execFuseKey (s : State) : Host.Outcome State Fault Refusal :=
  host s fuseKeyRun

/-- REVOKE_KEY (R371). -/
def execRevokeKey (s : State) : Host.Outcome State Fault Refusal :=
  host s revokeKeyRun

/-- SIGNED_ONLY (R371). -/
def execSignedOnly (s : State) : Host.Outcome State Fault Refusal :=
  host s signedOnlyRun

/-- DECLARE (R370). -/
def execDeclare (s : State) : Host.Outcome State Fault Refusal :=
  host s declareRun

/-- RETEST (R352). -/
def execRetest (v : Word) (s : State) : Host.Outcome State Fault Refusal :=
  host s fun s => retestRun s v

/-- RC_COUNTER_READ (R8). -/
def execRcCounterRead (off : Nat) (s : State) : Host.Outcome State Fault Refusal :=
  done s (bar0 s off true fun s => rcReadRun s off)

/-- LATCHING_READ (R277). -/
def execLatchingRead (off : Nat) (s : State) : Host.Outcome State Fault Refusal :=
  done s (bar0 s off true fun s => latchReadRun s off)

/-- REGISTER_WRITE (R8). -/
def execRegisterWrite (off : Nat) (v : Word) (s : State) : Host.Outcome State Fault Refusal :=
  done s (bar0 s off false fun s => regWriteRun s off v)

/-- BAR4_ACCESS (R409). -/
def execBar4Access (a : Bar4Op) (s : State) : Host.Outcome State Fault Refusal :=
  done s (bar4Run s a)

/-- BAR_REQUEST_REFUSED (R409). -/
def execBarRequestRefused (isRead : Bool) (s : State) : Host.Outcome State Fault Refusal :=
  done s (barRefusedRun s isRead)

/-- MSIX_UNMASK (R415). -/
def execMsixUnmask (v : Option (Fin 2048)) (s : State) : Host.Outcome State Fault Refusal :=
  done s (msixUnmaskRun s (v.map (·.val)))

/-- PCIE_CONVENTIONAL_RESET (R410). -/
def execPcieConventionalReset (s : State) : Host.Outcome State Fault Refusal :=
  done s (pcieResetRun s)

/-- BUS_MASTER_CLEAR (R410). -/
def execBusMasterClear (d3hot : Bool) (s : State) : Host.Outcome State Fault Refusal :=
  done s (busClearRun s d3hot)

/-- BUS_MASTER_RESUME (R410). -/
def execBusMasterResume (d0 : Bool) (s : State) : Host.Outcome State Fault Refusal :=
  done s (busResumeRun s d0)

/-- ATS_INVALIDATION (R412). -/
def execAtsInvalidation (r : AtsRange) (s : State) : Host.Outcome State Fault Refusal :=
  done s (atsInvalidateRun s r)

/-- ATS_TRANSLATION_COMPLETION (R412). -/
def execAtsTranslationCompletion (r : AtsReply) (s : State) : Host.Outcome State Fault Refusal :=
  done s (atsCompleteRun s r)

/-- HOST_READ_COMPLETION (R413). -/
def execHostReadCompletion (r : HostRead) (s : State) : Host.Outcome State Fault Refusal :=
  done s (hostReadRun s r)

/-- COMPLETION_TIMEOUT (R413). -/
def execCompletionTimeout (addr : BitVec 63) (quads : Nat) (s : State) : Host.Outcome State Fault Refusal :=
  done s (timeoutRun s addr.toNat quads)

end Sys2Proof.Machine
end

