-- ==== Sys2Proof/Machine/CmdMail.lean ====
section
/-! DEFINITION. Meanings of the mailbox rows (R294 to R300) and of Sage's requests (R401). -/

namespace Sys2Proof.Machine

/-- GO (R295). -/
def execGo (snd : EndPt) (rcv : EndPt) (s : State) : Host.Outcome State Fault Refusal :=
  mailCmd s snd.toNat rcv.toNat snd.toNat fun s => goRun s snd.toNat rcv.toNat

/-- MBX_BLOCK_COMMIT (R295). -/
def execMbxBlockCommit (snd : EndPt) (rcv : EndPt) (s : State) : Host.Outcome State Fault Refusal :=
  mailDev s snd.toNat rcv.toNat fun s => commitRun s snd.toNat rcv.toNat

/-- WITHDRAW (R296). -/
def execWithdraw (snd : EndPt) (rcv : EndPt) (s : State) : Host.Outcome State Fault Refusal :=
  mailCmd s snd.toNat rcv.toNat snd.toNat fun s => withdrawRun s snd.toNat rcv.toNat

/-- MBX_WORD_SEND (R298). -/
def execMbxWordSend (snd : EndPt) (rcv : EndPt) (w : Word) (s : State) : Host.Outcome State Fault Refusal :=
  mailCmd s snd.toNat rcv.toNat snd.toNat fun s => wordSend s snd.toNat rcv.toNat w

/-- TAKE (R297). -/
def execTake (snd : EndPt) (rcv : EndPt) (s : State) : Host.Outcome State Fault Refusal :=
  mailCmd s snd.toNat rcv.toNat rcv.toNat fun s => takeRun s snd.toNat rcv.toNat

/-- MBX_WORD_READ (R298). -/
def execMbxWordRead (snd : EndPt) (rcv : EndPt) (s : State) : Host.Outcome State Fault Refusal :=
  mailCmd s snd.toNat rcv.toNat rcv.toNat fun s => wordRead s snd.toNat rcv.toNat

/-- SENSORS (R401). -/
def execSensors (s : State) : Host.Outcome State Fault Refusal :=
  done s (sensorsRun s)

/-- LOG_READ (R401). -/
def execLogRead (s : State) : Host.Outcome State Fault Refusal :=
  done s (logReadRun s)

/-- STATE_READ (R401). -/
def execStateRead (s : State) : Host.Outcome State Fault Refusal :=
  done s (stateReadRun s)

/-- LOG_MARK (R401). -/
def execLogMark (s : State) : Host.Outcome State Fault Refusal :=
  done s (logMarkRun s)

end Sys2Proof.Machine
end

