-- ==== Sys2Proof/Machine/CmdMem.lean ====
section
/-! DEFINITION. Meanings of scrubbing and of array checks, tests and retests (R345 to R352). -/

namespace Sys2Proof.Machine

/-- RETEST_DONE (R352). -/
def execRetestDone (n : AIx) (o : TestOutcome) (s : State) : Host.Outcome State Fault Refusal :=
  alive s fun s => retestDoneRun s n.val o

/-- LPDDR_SCRUB_STRIPE (R345). -/
def execLpddrScrubStripe (s : State) : Host.Outcome State Fault Refusal :=
  alive s lpddrScrubRun

/-- SRAM_SCRUB_QUAD (R346). -/
def execSramScrubQuad (f : QuadRef) (s : State) : Host.Outcome State Fault Refusal :=
  checked (.sramScrubQuad f) s (alive s fun s => sramScrubRun s f)

/-- ARRAY_SCRUB_READ (R347). -/
def execArrayScrubRead (n : AIx) (w : ArrItem) (s : State) : Host.Outcome State Fault Refusal :=
  alive s fun s => arrayScrubRun s n.val w

/-- ARRAY_ROW_REWRITE (R347). -/
def execArrayRowRewrite (n : AIx) (s : State) : Host.Outcome State Fault Refusal :=
  alive s fun s => arrayRewriteRun s n.val

/-- ARRAY_CHECK (R349). -/
def execArrayCheck (n : AIx) (s : State) : Host.Outcome State Fault Refusal :=
  alive s fun s => arrayCheckRun s n.val

/-- ARRAY_TEST_DONE (R350). -/
def execArrayTestDone (n : AIx) (o : TestOutcome) (s : State) : Host.Outcome State Fault Refusal :=
  alive s fun s => arrayTestRun s n.val o

end Sys2Proof.Machine
end

