-- ==== Sys2Proof/Machine/CmdNet.lean ====
section
/-! DEFINITION. Meanings of the Ethernet rows (R416 to R424). -/

namespace Sys2Proof.Machine

/-- ETH_FRAME_RECEIVED (R417). -/
def execEthFrameReceived (m : EIx) (frame : List Byte) (s : State) : Host.Outcome State Fault Refusal :=
  done s (ethFrameRun s m.val frame)

/-- FRAME_RING_ADMIT (R421). -/
def execFrameRingAdmit (m : EIx) (s : State) : Host.Outcome State Fault Refusal :=
  done s (ringAdmitRun s m.val)

/-- ETH_LINK_DOWN (R424). -/
def execEthLinkDown (m : EIx) (s : State) : Host.Outcome State Fault Refusal :=
  done s (ethDownRun s m.val)

/-- ETH_LINK_UP (R424). -/
def execEthLinkUp (m : EIx) (s : State) : Host.Outcome State Fault Refusal :=
  done s (ethUpRun s m.val)

end Sys2Proof.Machine
end

