-- ==== Sys2Proof/Machine/CmdPower.lean ====
section
/-! DEFINITION. Meanings of the events of power, pins, start-up and the device state (R355 to R360, R383 to R399, R440, R449). -/

namespace Sys2Proof.Machine

/-- TOKEN_CLAIM_GRANTED (R389). -/
def execTokenClaimGranted (s : State) : Host.Outcome State Fault Refusal :=
  flows s grantRun

/-- GOVERNOR_PASS (R385). -/
def execGovernorPass (g : Governor) (s : State) : Host.Outcome State Fault Refusal :=
  checked (.governorPass g) s (done s (governorRun s g))

/-- AVS_SETTLE (R384). -/
def execAvsSettle (r : Settle) (s : State) : Host.Outcome State Fault Refusal :=
  done s (settleRun1 s r)

/-- PWR_SNAPSHOT_LATCH (R392). -/
def execPwrSnapshotLatch (s : State) : Host.Outcome State Fault Refusal :=
  done s (pwrSnapLatch s)

/-- BYPASS_N_CHANGE (R329). -/
def execBypassNChange (level : Bool) (s : State) : Host.Outcome State Fault Refusal :=
  done s (bypassPinRun s level)

/-- VKA_3V3_LOSS (R329). -/
def execVkaLoss (s : State) : Host.Outcome State Fault Refusal :=
  done s (vkaLossRun s)

/-- VKA_3V3_RETURN (R329). -/
def execVkaReturn (s : State) : Host.Outcome State Fault Refusal :=
  done s (vkaReturnRun s)

/-- POWER_UP (R356). -/
def execPowerUp (s : State) : Host.Outcome State Fault Refusal :=
  done s (powerUpRun s)

/-- RESET_N_ASSERT (R440). -/
def execResetNAssert (s : State) : Host.Outcome State Fault Refusal :=
  done s (resetAssertRun s)

/-- RESET_N_RELEASE (R440). -/
def execResetNRelease (s : State) : Host.Outcome State Fault Refusal :=
  done s (resetReleaseRun s)

/-- STAGGER_CONFIRM (R393). -/
def execStaggerConfirm (s : State) : Host.Outcome State Fault Refusal :=
  done s (staggerRun s)

/-- REGULATOR_FAULT (R394). -/
def execRegulatorFault (rail : BitVec 8) (status : BitVec 16) (s : State) : Host.Outcome State Fault Refusal :=
  done s (regulatorFaultRun s rail status)

/-- THERMAL_TRIP (R397). -/
def execThermalTrip (s : State) : Host.Outcome State Fault Refusal :=
  done s (thermalTripRun s)

/-- RAIL_LOSS (R449). -/
def execRailLoss (s : State) : Host.Outcome State Fault Refusal :=
  done s (railLossRun s)

/-- SAGE_EXCEPTION (R356). -/
def execSageException (mcause : Word) (mepc : Word) (s : State) : Host.Outcome State Fault Refusal :=
  done s (sageExceptionRun s mcause mepc)

/-- DRAIN_COMPLETE (R358). -/
def execDrainComplete (s : State) : Host.Outcome State Fault Refusal :=
  done s (drainDone s)

/-- SER_REFCLK_LOSS (R383). -/
def execSerRefclkLoss (s : State) : Host.Outcome State Fault Refusal :=
  done s (refclkLossRun s)

end Sys2Proof.Machine
end

