-- ==== Sys2Proof/Machine/CmdQueue.lean ====
section
/-! DEFINITION. Meanings of the command rows (Table 10-8): each runs on its source's next command (R232 to R235, R285). -/

namespace Sys2Proof.Machine

/-- NOP (R233). -/
def execNop (src : Src) (s : State) : Host.Outcome State Fault Refusal :=
  flows s fun s => dispatch s src 0x00 nopRun

/-- COPY (R165). -/
def execCopy (src : Src) (s : State) : Host.Outcome State Fault Refusal :=
  flows s fun s => dispatch s src 0x04 copyRun

/-- MATRIX (R204). -/
def execMatrix (src : Src) (s : State) : Host.Outcome State Fault Refusal :=
  flows s fun s => dispatch s src 0x06 (engineRun 0)

/-- VECTOR (R210). -/
def execVector (src : Src) (s : State) : Host.Outcome State Fault Refusal :=
  flows s fun s => dispatch s src 0x07 (engineRun 1)

/-- FENCE_SIGNAL (R253). -/
def execFenceSignal (src : Src) (s : State) : Host.Outcome State Fault Refusal :=
  flows s fun s => dispatch s src 0x08 fenceSignalRun

/-- FENCE_WAIT (R254). -/
def execFenceWait (src : Src) (s : State) : Host.Outcome State Fault Refusal :=
  flows s fun s => dispatch s src 0x09 fenceWaitRun

/-- PATCH (R237). -/
def execPatch (src : Src) (s : State) : Host.Outcome State Fault Refusal :=
  flows s fun s => dispatch s src 0x0A patchRun

/-- LOAD (R53). -/
def execLoad (q : QIx) (s : State) : Host.Outcome State Fault Refusal :=
  flows s fun s => dispatch s (.queue q) 0x01 loadRun

/-- STEP (R85). -/
def execStep (q : QIx) (s : State) : Host.Outcome State Fault Refusal :=
  flows s fun s => dispatch s (.queue q) 0x02 stepRun

/-- ROTATE (R154). -/
def execRotate (q : QIx) (s : State) : Host.Outcome State Fault Refusal :=
  flows s fun s => dispatch s (.queue q) 0x03 rotateRun

/-- SLOT_RUN (R183). -/
def execSlotRun (q : QIx) (s : State) : Host.Outcome State Fault Refusal :=
  flows s fun s => dispatch s (.queue q) 0x05 slotRunRun

/-- INDIRECT (R236). -/
def execIndirect (q : QIx) (s : State) : Host.Outcome State Fault Refusal :=
  flows s fun s => dispatch s (.queue q) 0x0B indirectRun

/-- ENQUEUE (R258). -/
def execEnqueue (q : QIx) (s : State) : Host.Outcome State Fault Refusal :=
  flows s fun s => dispatch s (.queue q) 0x0C enqueueRun

/-- QUEUE_BIND (R224). -/
def execQueueBind (q : QIx) (s : State) : Host.Outcome State Fault Refusal :=
  flows s fun s => dispatch s (.queue q) 0x40 queueBindRun

/-- QUEUE_DESTROY (R269). -/
def execQueueDestroy (q : QIx) (s : State) : Host.Outcome State Fault Refusal :=
  flows s fun s => dispatch s (.queue q) 0x41 queueDestroyRun

/-- QUEUE_CTL (R238). -/
def execQueueCtl (q : QIx) (s : State) : Host.Outcome State Fault Refusal :=
  flows s fun s => dispatch s (.queue q) 0x42 queueCtlRun

/-- RESTRUCTURE (R375). -/
def execRestructure (q : QIx) (s : State) : Host.Outcome State Fault Refusal :=
  flows s fun s => dispatch s (.queue q) 0x43 restructureCmd

/-- RESTRUCTURE_RUN (R376). -/
def execRestructureRun (s : State) : Host.Outcome State Fault Refusal :=
  alive s restructureRun1

/-- QUEUE_VISIT (R250). -/
def execQueueVisit (s : State) : Host.Outcome State Fault Refusal :=
  flows s fun s => utrPump (queueVisitRun s)

/-- FENCE_WAIT_SATISFIED (R254). -/
def execFenceWaitSatisfied (src : Src) (s : State) : Host.Outcome State Fault Refusal :=
  flows s fun s => withCmd s (waitOf s src) fenceWaitTry

/-- ENQUEUE_COPY (R258). -/
def execEnqueueCopy (src : Src) (s : State) : Host.Outcome State Fault Refusal :=
  flows s fun s => withCmd s (cmdOfSrc s src 0x0C) enqueueTry

end Sys2Proof.Machine
end

