-- ==== Sys2Proof/Machine/CmdRing.lean ====
section
/-! DEFINITION. Meanings of the Utrid rows: training, flits and link control words (R303 to R332). -/

namespace Sys2Proof.Machine

/-- PORT_TRAINED (R309). -/
def execPortTrained (p : PIx) (g : Greeting) (s : State) : Host.Outcome State Fault Refusal :=
  done s (trained s p.val g)

/-- PORT_LINK_LOST (R330). -/
def execPortLinkLost (p : PIx) (s : State) : Host.Outcome State Fault Refusal :=
  done s (linkLost s p.val)

/-- RECORD_FLIT (R321). -/
def execRecordFlit (p : PIx) (f : Flit) (s : State) : Host.Outcome State Fault Refusal :=
  checked (.recordFlit p f) s (done s (flitArrives s p.val [0x01] f))

/-- MARK_FLIT (R320). -/
def execMarkFlit (p : PIx) (f : Flit) (s : State) : Host.Outcome State Fault Refusal :=
  checked (.markFlit p f) s (done s (flitArrives s p.val [0x02] f))

/-- CHAIN_HEAD_FLIT (R326). -/
def execChainHeadFlit (p : PIx) (f : Flit) (s : State) : Host.Outcome State Fault Refusal :=
  checked (.chainHeadFlit p f) s (done s (flitArrives s p.val [0x10] f))

/-- CHAIN_DATA_FLIT (R325). -/
def execChainDataFlit (p : PIx) (f : Flit) (s : State) : Host.Outcome State Fault Refusal :=
  checked (.chainDataFlit p f) s (done s (flitArrives s p.val [0x11] f))

/-- MGT_BLOCK_FLIT (R300). -/
def execMgtBlockFlit (p : PIx) (f : Flit) (s : State) : Host.Outcome State Fault Refusal :=
  checked (.mgtBlockFlit p f) s (done s (flitArrives s p.val [0x20] f))

/-- MGT_WORD_FLIT (R300). -/
def execMgtWordFlit (p : PIx) (f : Flit) (s : State) : Host.Outcome State Fault Refusal :=
  checked (.mgtWordFlit p f) s (done s (flitArrives s p.val [0x21] f))

/-- NOTICE_FLIT (R310). -/
def execNoticeFlit (p : PIx) (f : Flit) (s : State) : Host.Outcome State Fault Refusal :=
  checked (.noticeFlit p f) s (done s (flitArrives s p.val [0x31] f))

/-- MEMBERSHIP_FLIT (R310). -/
def execMembershipFlit (p : PIx) (f : Flit) (s : State) : Host.Outcome State Fault Refusal :=
  checked (.membershipFlit p f) s (done s (flitArrives s p.val [0x30] f))

/-- CREDIT (R311). -/
def execCredit (p : PIx) (vc : Fin 6) (n : BitVec 7) (s : State) : Host.Outcome State Fault Refusal :=
  done s (creditRun s p.val vc.val n.toNat)

/-- ACK (R305). -/
def execAck (p : PIx) (sq : BitVec 18) (s : State) : Host.Outcome State Fault Refusal :=
  done s (ackRun s p.val sq.toNat)

/-- REPLAY (R305). -/
def execReplay (p : PIx) (sq : BitVec 18) (s : State) : Host.Outcome State Fault Refusal :=
  done s (replayRun s p.val sq.toNat)

/-- SNAP (R312). -/
def execSnap (p : PIx) (vc : Fin 6) (buffered : BitVec 8) (s : State) : Host.Outcome State Fault Refusal :=
  done s (snapRun s p.val vc.val buffered.toNat)

/-- REPLAY_RETRAIN (R305). -/
def execReplayRetrain (p : PIx) (s : State) : Host.Outcome State Fault Refusal :=
  done s (replayRetrainRun s p.val)

end Sys2Proof.Machine
end

