-- ==== Sys2Proof/Machine/CmdRxu.lean ====
section
/-! DEFINITION. Meanings of the events of receiver units (R171 to R199). -/

namespace Sys2Proof.Machine

/-- SLOT_STROBE (R182): the strobe counts in every state of the powered core. -/
def execSlotStrobe (line : UIx) (s : State) : Host.Outcome State Fault Refusal :=
  alive s fun s => slotStrobeRun s line.val

/-- CAPTURE_WINDOW_CLOSE (R183). -/
def execCaptureWindowClose (u : UIx) (l : LIx) (s : State) : Host.Outcome State Fault Refusal :=
  flows s fun s => windowCloseRun s u.val l.val

/-- DEADLINE_EXPIRY (R186). -/
def execDeadlineExpiry (u : UIx) (l : LIx) (s : State) : Host.Outcome State Fault Refusal :=
  flows s fun s => deadlineRun s u.val l.val

/-- SLOT_STATUS_WRITE (R185). -/
def execSlotStatusWrite (u : UIx) (l : LIx) (s : State) : Host.Outcome State Fault Refusal :=
  flows s fun s => slotStatusRun s u.val l.val

/-- SAMPLE_CAPTURE (R175). -/
def execSampleCapture (u : UIx) (mb : Multiblock) (s : State) : Host.Outcome State Fault Refusal :=
  checked (.sampleCapture u mb) s (flows s fun s => captureRun s u.val mb)

/-- LINK_DOWN (R174). -/
def execLinkDown (u : LinkLoss) (s : State) : Host.Outcome State Fault Refusal :=
  flows s fun s => linkDownRun s u.unit.val u.lanes

/-- LINK_RETURN (R174). -/
def execLinkReturn (u : UIx) (s : State) : Host.Outcome State Fault Refusal :=
  flows s fun s => linkReturnRun s u.val

/-- SYSREF_EDGE (R174). -/
def execSysrefEdge (u : UIx) (s : State) : Host.Outcome State Fault Refusal :=
  alive s fun s => sysrefRun s u.val

/-- DEVCLK_STOP (R174). -/
def execDevclkStop (u : UIx) (s : State) : Host.Outcome State Fault Refusal :=
  alive s fun s => devclkStopRun s u.val

/-- AGC_WINDOW_END (R177). -/
def execAgcWindowEnd (u : UIx) (l : LIx) (s : State) : Host.Outcome State Fault Refusal :=
  flows s fun s => Machine.agcWindowEnd s u.val l.val

/-- PREAMBLE_DETECTION (R178). -/
def execPreambleDetection (u : UIx) (l : LIx) (s : State) : Host.Outcome State Fault Refusal :=
  flows s fun s => preambleRun s u.val l.val

/-- FREEZE_RELEASE (R178). -/
def execFreezeRelease (u : UIx) (l : LIx) (s : State) : Host.Outcome State Fault Refusal :=
  flows s fun s => freezeReleaseRun s u.val l.val

/-- MAX_HOLD_EXPIRY (R178). -/
def execMaxHoldExpiry (u : UIx) (l : LIx) (s : State) : Host.Outcome State Fault Refusal :=
  flows s fun s => maxHoldRun s u.val l.val

/-- SETTLE_EXPIRY (R178). -/
def execSettleExpiry (u : UIx) (l : LIx) (s : State) : Host.Outcome State Fault Refusal :=
  flows s fun s => settleRun s u.val l.val

/-- GAIN_FRAME_START (R181). -/
def execGainFrameStart (u : UIx) (s : State) : Host.Outcome State Fault Refusal :=
  flows s fun s => gainStartRun s u.val

/-- GAIN_FRAME_DONE (R181). -/
def execGainFrameDone (u : UIx) (s : State) : Host.Outcome State Fault Refusal :=
  flows s fun s => gainDoneRun s u.val

end Sys2Proof.Machine
end

