-- ==== Sys2Proof/Machine/CmdSeq.lean ====
section
/-! DEFINITION. Meanings of the sequencer instructions, tickets and unit-local jobs (R279 to R292). -/

namespace Sys2Proof.Machine

/-- EOP_ISSUE (R283). -/
def execEopIssue (u : UIx) (rd : RIx) (rs1 : RIx) (rs2 : RIx) (s : State) : Host.Outcome State Fault Refusal :=
  flows s fun s => eopIssueRun s u rd.val rs1.val rs2.val

/-- EOP_WAIT (R284). -/
def execEopWait (u : UIx) (rd : RIx) (rs1 : RIx) (s : State) : Host.Outcome State Fault Refusal :=
  flows s fun s => eopWaitRun s u rd.val rs1.val

/-- EOP_POLL (R284). -/
def execEopPoll (u : UIx) (rd : RIx) (rs1 : RIx) (s : State) : Host.Outcome State Fault Refusal :=
  flows s fun s => eopPollRun s u rd.val rs1.val

/-- EOP_MOVE (R287). -/
def execEopMove (u : UIx) (rd : RIx) (rs1 : RIx) (rs2 : RIx) (s : State) : Host.Outcome State Fault Refusal :=
  flows s fun s => eopMoveRun s u rd.val rs1.val rs2.val

/-- EOP_MWAIT (R283). -/
def execEopMwait (u : UIx) (rd : RIx) (rs1 : RIx) (s : State) : Host.Outcome State Fault Refusal :=
  flows s fun s => eopMwaitRun s u rd.val rs1.val

/-- EOP_ENQ (R288). -/
def execEopEnq (u : UIx) (rd : RIx) (rs1 : RIx) (rs2 : RIx) (s : State) : Host.Outcome State Fault Refusal :=
  flows s fun s => eopEnqRun s u rd.val rs1.val rs2.val

/-- WFI (R279). -/
def execWfi (u : UIx) (s : State) : Host.Outcome State Fault Refusal :=
  flows s fun s => wfiRun s u

/-- END (R291). -/
def execEnd (u : UIx) (s : State) : Host.Outcome State Fault Refusal :=
  flows s fun s => endRun s u

/-- YIELD (R291). -/
def execYield (u : UIx) (s : State) : Host.Outcome State Fault Refusal :=
  flows s fun s => yieldRun s u

/-- NOTE (R291). -/
def execNote (u : UIx) (s : State) : Host.Outcome State Fault Refusal :=
  flows s fun s => noteRun s u

/-- U_MODE_EXCEPTION (R292). -/
def execUModeException (u : UIx) (cause : BitVec 8) (s : State) : Host.Outcome State Fault Refusal :=
  flows s fun s => exceptionRun s u cause.toNat

/-- TICKET_COMPLETE (R284). -/
def execTicketComplete (u : UIx) (c : LIx) (tk : Word) (s : State) : Host.Outcome State Fault Refusal :=
  flows s fun s => ticketRun s u c tk

/-- DETECT (R286). -/
def execDetect (u : UIx) (c : LIx) (tk : Word) (s : State) : Host.Outcome State Fault Refusal :=
  flows s fun s => detectRun s u.val c.val tk

/-- FFT (R189). -/
def execFft (u : UIx) (c : LIx) (tk : Word) (s : State) : Host.Outcome State Fault Refusal :=
  flows s fun s => fftRun s u.val c.val tk

/-- TRELLIS (R194). -/
def execTrellis (u : UIx) (c : LIx) (tk : Word) (s : State) : Host.Outcome State Fault Refusal :=
  flows s fun s => trellisRun s u.val c.val tk

/-- EXTRACT (R75). -/
def execExtract (u : UIx) (c : LIx) (tk : Word) (s : State) : Host.Outcome State Fault Refusal :=
  flows s fun s => extractRun s u.val c.val tk

/-- CALIBRATE (R190). -/
def execCalibrate (u : UIx) (c : LIx) (tk : Word) (s : State) : Host.Outcome State Fault Refusal :=
  flows s fun s => calibrateRun s u c tk

/-- RELEASE (R286). -/
def execRelease (u : UIx) (c : LIx) (tk : Word) (s : State) : Host.Outcome State Fault Refusal :=
  flows s fun s => releaseRun s u.val c.val tk

/-- ENGINE_OP_DONE (R202). -/
def execEngineOpDone (u : UIx) (e : Engine) (s : State) : Host.Outcome State Fault Refusal :=
  flows s fun s => engineDoneRun s u.val (engineIx e)

end Sys2Proof.Machine
end

