-- ==== Sys2Proof/Machine/CmdStall.lean ====
section
/-! DEFINITION. Meanings of watch events, stalls, drains and destroys (R259 to R273). -/

namespace Sys2Proof.Machine

/-- WATCH_PIN_EDGE (R259). -/
def execWatchPinEdge (s : State) : Host.Outcome State Fault Refusal :=
  alive s watchPinRun

/-- SLOT_WATCH_EVENT (R259). -/
def execSlotWatchEvent (line : UIx) (s : State) : Host.Outcome State Fault Refusal :=
  alive s fun s => slotWatchRun s line.val

/-- STALL_DECLARED (R262). -/
def execStallDeclared (q : QIx) (s : State) : Host.Outcome State Fault Refusal :=
  flows s fun s => stallRun s q.val

/-- DRAIN_QUEUE_COMPLETE (R263). -/
def execDrainQueueComplete (q : QIx) (s : State) : Host.Outcome State Fault Refusal :=
  flows s fun s => Machine.drainComplete s q.val

/-- DRAIN_ESCALATION (R266). -/
def execDrainEscalation (q : QIx) (s : State) : Host.Outcome State Fault Refusal :=
  flows s fun s => escalateRun s q.val

/-- DESTROY_ACKS_DONE (R270). -/
def execDestroyAcksDone (q : QIx) (s : State) : Host.Outcome State Fault Refusal :=
  flows s fun s => destroyFinish s q.val

/-- DESTROY_ACK_TIMEOUT (R273). -/
def execDestroyAckTimeout (q : QIx) (s : State) : Host.Outcome State Fault Refusal :=
  flows s fun s => destroyTimeout s q.val

end Sys2Proof.Machine
end

