-- ==== Sys2Proof/Machine/Dispatch.lean ====
section
/-! DEFINITION. One arm per row of spec/opcode_table.json. -/

namespace Sys2Proof.Machine

/-- What a command does to everything but the queue of waiting commands. -/
def exec (i : Instr) (s : State) : Host.Outcome State Fault Refusal :=
  match i with
  | .nop src => Sys2Proof.Machine.execNop src s
  | .load q => Sys2Proof.Machine.execLoad q s
  | .step q => Sys2Proof.Machine.execStep q s
  | .rotate q => Sys2Proof.Machine.execRotate q s
  | .copy src => Sys2Proof.Machine.execCopy src s
  | .slotRun q => Sys2Proof.Machine.execSlotRun q s
  | .matrix src => Sys2Proof.Machine.execMatrix src s
  | .vector src => Sys2Proof.Machine.execVector src s
  | .fenceSignal src => Sys2Proof.Machine.execFenceSignal src s
  | .fenceWait src => Sys2Proof.Machine.execFenceWait src s
  | .patch src => Sys2Proof.Machine.execPatch src s
  | .indirect q => Sys2Proof.Machine.execIndirect q s
  | .enqueue q => Sys2Proof.Machine.execEnqueue q s
  | .queueBind q => Sys2Proof.Machine.execQueueBind q s
  | .queueDestroy q => Sys2Proof.Machine.execQueueDestroy q s
  | .queueCtl q => Sys2Proof.Machine.execQueueCtl q s
  | .restructure q => Sys2Proof.Machine.execRestructure q s
  | .restructureRun => Sys2Proof.Machine.execRestructureRun s
  | .dbPiWrite q v => Sys2Proof.Machine.execDbPiWrite q v s
  | .bind q => Sys2Proof.Machine.execBind q s
  | .destroy q => Sys2Proof.Machine.execDestroy q s
  | .queueEnWrite q en => Sys2Proof.Machine.execQueueEnWrite q en s
  | .hedgeEnWrite h en => Sys2Proof.Machine.execHedgeEnWrite h en s
  | .rejoin h => Sys2Proof.Machine.execRejoin h s
  | .hedgeRejoined h => Sys2Proof.Machine.execHedgeRejoined h s
  | .hdgSnapshotRequest h => Sys2Proof.Machine.execHdgSnapshotRequest h s
  | .hdgSnapshotLatch h => Sys2Proof.Machine.execHdgSnapshotLatch h s
  | .rxuEnWrite u en => Sys2Proof.Machine.execRxuEnWrite u en s
  | .rexEnWrite u en => Sys2Proof.Machine.execRexEnWrite u en s
  | .manualGainWrite u l toRange v => Sys2Proof.Machine.execManualGainWrite u l toRange v s
  | .portEnWrite p en => Sys2Proof.Machine.execPortEnWrite p en s
  | .retrain p => Sys2Proof.Machine.execRetrain p s
  | .creditSnapRequest p => Sys2Proof.Machine.execCreditSnapRequest p s
  | .modelReadyWrite n v => Sys2Proof.Machine.execModelReadyWrite n v s
  | .targetWrite v => Sys2Proof.Machine.execTargetWrite v s
  | .pwrSnapshotRequest => Sys2Proof.Machine.execPwrSnapshotRequest s
  | .pwrSnapshotLatch => Sys2Proof.Machine.execPwrSnapshotLatch s
  | .macEnWrite m en => Sys2Proof.Machine.execMacEnWrite m en s
  | .start key => Sys2Proof.Machine.execStart key s
  | .hold key => Sys2Proof.Machine.execHold key s
  | .reset key => Sys2Proof.Machine.execReset key s
  | .watchPoke v => Sys2Proof.Machine.execWatchPoke v s
  | .forceClose on => Sys2Proof.Machine.execForceClose on s
  | .bypassReopen => Sys2Proof.Machine.execBypassReopen s
  | .rearm => Sys2Proof.Machine.execRearm s
  | .irqMaskWrite v => Sys2Proof.Machine.execIrqMaskWrite v s
  | .go snd rcv => Sys2Proof.Machine.execGo snd rcv s
  | .mbxBlockCommit snd rcv => Sys2Proof.Machine.execMbxBlockCommit snd rcv s
  | .withdraw snd rcv => Sys2Proof.Machine.execWithdraw snd rcv s
  | .mbxWordSend snd rcv w => Sys2Proof.Machine.execMbxWordSend snd rcv w s
  | .take snd rcv => Sys2Proof.Machine.execTake snd rcv s
  | .mbxWordRead snd rcv => Sys2Proof.Machine.execMbxWordRead snd rcv s
  | .program => Sys2Proof.Machine.execProgram s
  | .bootStaged => Sys2Proof.Machine.execBootStaged s
  | .reboot => Sys2Proof.Machine.execReboot s
  | .raiseFloor => Sys2Proof.Machine.execRaiseFloor s
  | .fuseKey => Sys2Proof.Machine.execFuseKey s
  | .revokeKey => Sys2Proof.Machine.execRevokeKey s
  | .signedOnly => Sys2Proof.Machine.execSignedOnly s
  | .declare => Sys2Proof.Machine.execDeclare s
  | .retest v => Sys2Proof.Machine.execRetest v s
  | .retestDone n o => Sys2Proof.Machine.execRetestDone n o s
  | .rcCounterRead off => Sys2Proof.Machine.execRcCounterRead off s
  | .latchingRead off => Sys2Proof.Machine.execLatchingRead off s
  | .registerWrite off v => Sys2Proof.Machine.execRegisterWrite off v s
  | .bar4Access a => Sys2Proof.Machine.execBar4Access a s
  | .barRequestRefused isRead => Sys2Proof.Machine.execBarRequestRefused isRead s
  | .msixUnmask v => Sys2Proof.Machine.execMsixUnmask v s
  | .sensors => Sys2Proof.Machine.execSensors s
  | .logRead => Sys2Proof.Machine.execLogRead s
  | .stateRead => Sys2Proof.Machine.execStateRead s
  | .logMark => Sys2Proof.Machine.execLogMark s
  | .eopIssue u rd rs1 rs2 => Sys2Proof.Machine.execEopIssue u rd rs1 rs2 s
  | .eopWait u rd rs1 => Sys2Proof.Machine.execEopWait u rd rs1 s
  | .eopPoll u rd rs1 => Sys2Proof.Machine.execEopPoll u rd rs1 s
  | .eopMove u rd rs1 rs2 => Sys2Proof.Machine.execEopMove u rd rs1 rs2 s
  | .eopMwait u rd rs1 => Sys2Proof.Machine.execEopMwait u rd rs1 s
  | .eopEnq u rd rs1 rs2 => Sys2Proof.Machine.execEopEnq u rd rs1 rs2 s
  | .wfi u => Sys2Proof.Machine.execWfi u s
  | .end_ u => Sys2Proof.Machine.execEnd u s
  | .yield u => Sys2Proof.Machine.execYield u s
  | .note u => Sys2Proof.Machine.execNote u s
  | .uModeException u cause => Sys2Proof.Machine.execUModeException u cause s
  | .ticketComplete u c tk => Sys2Proof.Machine.execTicketComplete u c tk s
  | .detect u c tk => Sys2Proof.Machine.execDetect u c tk s
  | .fft u c tk => Sys2Proof.Machine.execFft u c tk s
  | .trellis u c tk => Sys2Proof.Machine.execTrellis u c tk s
  | .extract u c tk => Sys2Proof.Machine.execExtract u c tk s
  | .calibrate u c tk => Sys2Proof.Machine.execCalibrate u c tk s
  | .release u c tk => Sys2Proof.Machine.execRelease u c tk s
  | .engineOpDone u e => Sys2Proof.Machine.execEngineOpDone u e s
  | .queueVisit => Sys2Proof.Machine.execQueueVisit s
  | .hedgeStepStart h => Sys2Proof.Machine.execHedgeStepStart h s
  | .hedgeStepEnd h => Sys2Proof.Machine.execHedgeStepEnd h s
  | .tileReplay h tile => Sys2Proof.Machine.execTileReplay h tile s
  | .arrayLoadStart n => Sys2Proof.Machine.execArrayLoadStart n s
  | .arrayLoadDone n => Sys2Proof.Machine.execArrayLoadDone n s
  | .groupOpenGranted h => Sys2Proof.Machine.execGroupOpenGranted h s
  | .poolBorrowGranted h part => Sys2Proof.Machine.execPoolBorrowGranted h part s
  | .multicastRecordSend q => Sys2Proof.Machine.execMulticastRecordSend q s
  | .skidToSlot h bg => Sys2Proof.Machine.execSkidToSlot h bg s
  | .outputClose h => Sys2Proof.Machine.execOutputClose h s
  | .topkMerge h => Sys2Proof.Machine.execTopkMerge h s
  | .rotationClaimGranted => Sys2Proof.Machine.execRotationClaimGranted s
  | .stagingFetchDone q => Sys2Proof.Machine.execStagingFetchDone q s
  | .roundMulticastStart q => Sys2Proof.Machine.execRoundMulticastStart q s
  | .waitMarkReleased q => Sys2Proof.Machine.execWaitMarkReleased q s
  | .dmvBurstDone => Sys2Proof.Machine.execDmvBurstDone s
  | .depFenceReleased src => Sys2Proof.Machine.execDepFenceReleased src s
  | .fenceWaitSatisfied src => Sys2Proof.Machine.execFenceWaitSatisfied src s
  | .enqueueCopy src => Sys2Proof.Machine.execEnqueueCopy src s
  | .tokenClaimGranted => Sys2Proof.Machine.execTokenClaimGranted s
  | .governorPass g => Sys2Proof.Machine.execGovernorPass g s
  | .avsSettle r => Sys2Proof.Machine.execAvsSettle r s
  | .watchPinEdge => Sys2Proof.Machine.execWatchPinEdge s
  | .slotWatchEvent line => Sys2Proof.Machine.execSlotWatchEvent line s
  | .stallDeclared q => Sys2Proof.Machine.execStallDeclared q s
  | .drainQueueComplete q => Sys2Proof.Machine.execDrainQueueComplete q s
  | .drainEscalation q => Sys2Proof.Machine.execDrainEscalation q s
  | .destroyAcksDone q => Sys2Proof.Machine.execDestroyAcksDone q s
  | .destroyAckTimeout q => Sys2Proof.Machine.execDestroyAckTimeout q s
  | .slotStrobe line => Sys2Proof.Machine.execSlotStrobe line s
  | .captureWindowClose u l => Sys2Proof.Machine.execCaptureWindowClose u l s
  | .deadlineExpiry u l => Sys2Proof.Machine.execDeadlineExpiry u l s
  | .slotStatusWrite u l => Sys2Proof.Machine.execSlotStatusWrite u l s
  | .sampleCapture u mb => Sys2Proof.Machine.execSampleCapture u mb s
  | .linkDown u => Sys2Proof.Machine.execLinkDown u s
  | .linkReturn u => Sys2Proof.Machine.execLinkReturn u s
  | .sysrefEdge u => Sys2Proof.Machine.execSysrefEdge u s
  | .agcWindowEnd u l => Sys2Proof.Machine.execAgcWindowEnd u l s
  | .preambleDetection u l => Sys2Proof.Machine.execPreambleDetection u l s
  | .freezeRelease u l => Sys2Proof.Machine.execFreezeRelease u l s
  | .maxHoldExpiry u l => Sys2Proof.Machine.execMaxHoldExpiry u l s
  | .settleExpiry u l => Sys2Proof.Machine.execSettleExpiry u l s
  | .gainFrameStart u => Sys2Proof.Machine.execGainFrameStart u s
  | .gainFrameDone u => Sys2Proof.Machine.execGainFrameDone u s
  | .lpddrScrubStripe => Sys2Proof.Machine.execLpddrScrubStripe s
  | .sramScrubQuad f => Sys2Proof.Machine.execSramScrubQuad f s
  | .arrayScrubRead n w => Sys2Proof.Machine.execArrayScrubRead n w s
  | .arrayRowRewrite n => Sys2Proof.Machine.execArrayRowRewrite n s
  | .arrayCheck n => Sys2Proof.Machine.execArrayCheck n s
  | .arrayTestDone n o => Sys2Proof.Machine.execArrayTestDone n o s
  | .portTrained p g => Sys2Proof.Machine.execPortTrained p g s
  | .portLinkLost p => Sys2Proof.Machine.execPortLinkLost p s
  | .recordFlit p f => Sys2Proof.Machine.execRecordFlit p f s
  | .markFlit p f => Sys2Proof.Machine.execMarkFlit p f s
  | .chainHeadFlit p f => Sys2Proof.Machine.execChainHeadFlit p f s
  | .chainDataFlit p f => Sys2Proof.Machine.execChainDataFlit p f s
  | .mgtBlockFlit p f => Sys2Proof.Machine.execMgtBlockFlit p f s
  | .mgtWordFlit p f => Sys2Proof.Machine.execMgtWordFlit p f s
  | .noticeFlit p f => Sys2Proof.Machine.execNoticeFlit p f s
  | .membershipFlit p f => Sys2Proof.Machine.execMembershipFlit p f s
  | .credit p vc n => Sys2Proof.Machine.execCredit p vc n s
  | .ack p sq => Sys2Proof.Machine.execAck p sq s
  | .replay p sq => Sys2Proof.Machine.execReplay p sq s
  | .snap p vc buffered => Sys2Proof.Machine.execSnap p vc buffered s
  | .replayRetrain p => Sys2Proof.Machine.execReplayRetrain p s
  | .bypassNChange level => Sys2Proof.Machine.execBypassNChange level s
  | .vkaLoss => Sys2Proof.Machine.execVkaLoss s
  | .ethFrameReceived m frame => Sys2Proof.Machine.execEthFrameReceived m frame s
  | .frameRingAdmit m => Sys2Proof.Machine.execFrameRingAdmit m s
  | .ethLinkDown m => Sys2Proof.Machine.execEthLinkDown m s
  | .ethLinkUp m => Sys2Proof.Machine.execEthLinkUp m s
  | .pcieConventionalReset => Sys2Proof.Machine.execPcieConventionalReset s
  | .busMasterClear d3hot => Sys2Proof.Machine.execBusMasterClear d3hot s
  | .busMasterResume d0 => Sys2Proof.Machine.execBusMasterResume d0 s
  | .atsInvalidation r => Sys2Proof.Machine.execAtsInvalidation r s
  | .hostReadCompletion r => Sys2Proof.Machine.execHostReadCompletion r s
  | .completionTimeout addr quads => Sys2Proof.Machine.execCompletionTimeout addr quads s
  | .powerUp => Sys2Proof.Machine.execPowerUp s
  | .resetNAssert => Sys2Proof.Machine.execResetNAssert s
  | .resetNRelease => Sys2Proof.Machine.execResetNRelease s
  | .staggerConfirm => Sys2Proof.Machine.execStaggerConfirm s
  | .regulatorFault rail status => Sys2Proof.Machine.execRegulatorFault rail status s
  | .thermalTrip => Sys2Proof.Machine.execThermalTrip s
  | .railLoss => Sys2Proof.Machine.execRailLoss s
  | .sageException mcause mepc => Sys2Proof.Machine.execSageException mcause mepc s
  | .drainComplete => Sys2Proof.Machine.execDrainComplete s
  | .serRefclkLoss => Sys2Proof.Machine.execSerRefclkLoss s
  | .devclkStop u => Sys2Proof.Machine.execDevclkStop u s
  | .vkaReturn => Sys2Proof.Machine.execVkaReturn s
  | .atsTranslationCompletion r => Sys2Proof.Machine.execAtsTranslationCompletion r s

end Sys2Proof.Machine
end

