-- ==== Sys2Proof/Machine/Rv.lean ====
section
/-! DEFINITION. The RV32IMAC instructions of a network program (R279, R280, R291, R292): the base instructions, M, A, C and the counter
CSRs as the RISC-V manuals lay them out (PRESUMED, log 55), and the turn of a core that runs on its own when no command waits. -/

namespace Sys2Proof.Machine

/-- The register-register and register-immediate operations, M among them. -/
inductive RvAlu where
  | add | sub | sll | slt | sltu | xor | srl | sra | or | and
  | mul | mulh | mulhsu | mulhu | div | divu | rem | remu
  deriving DecidableEq, Repr

/-- One instruction in U-mode. `branch` and `load` keep funct3, `amo` keeps funct5. -/
inductive Rv where
  | lui (rd : Nat) (v : Word)
  | auipc (rd : Nat) (v : Word)
  | jal (rd : Nat) (v : Word)
  | jalr (rd rs1 : Nat) (v : Word)
  | branch (f rs1 rs2 : Nat) (v : Word)
  | load (f rd rs1 : Nat) (v : Word)
  | store (f rs1 rs2 : Nat) (v : Word)
  | aluImm (f : RvAlu) (rd rs1 : Nat) (v : Word)
  | alu (f : RvAlu) (rd rs1 rs2 : Nat)
  | amo (f rd rs1 rs2 : Nat)
  | csr (f rd rs1 num : Nat)
  | fence
  | ecall
  | ebreak
  | wfi
  | eop (f rd rs1 rs2 : Nat)
  | illegal
  deriving DecidableEq, Repr

/-! ## Decoding -/

/-- The word of the two's complement number in the low `w` bits of `n`. -/
def sext (w n : Nat) : Word := BitVec.ofInt 32 (signed w n)

/-- The 32-bit I immediate. -/
def immI (w : Nat) : Word := sext 12 (fieldOf w 31 20)
/-- The S immediate. -/
def immS (w : Nat) : Word := sext 12 (fieldOf w 31 25 * 2 ^ 5 + fieldOf w 11 7)
/-- The B immediate. -/
def immB (w : Nat) : Word :=
  sext 13 (fieldOf w 31 31 * 2 ^ 12 + fieldOf w 7 7 * 2 ^ 11 + fieldOf w 30 25 * 2 ^ 5 + fieldOf w 11 8 * 2)
/-- The U immediate. -/
def immU (w : Nat) : Word := BitVec.ofNat 32 (fieldOf w 31 12 * 2 ^ 12)
/-- The J immediate. -/
def immJ (w : Nat) : Word :=
  sext 21 (fieldOf w 31 31 * 2 ^ 20 + fieldOf w 19 12 * 2 ^ 12 + fieldOf w 20 20 * 2 ^ 11 + fieldOf w 30 21 * 2)

/-- The operation of OP-IMM by funct3 and the immediate's upper bits. -/
def rvImmOp (f3 f7 : Nat) : Option RvAlu :=
  match f3 with
  | 0 => some .add
  | 1 => if f7 = 0 then some .sll else none
  | 2 => some .slt
  | 3 => some .sltu
  | 4 => some .xor
  | 5 => if f7 = 0 then some .srl else if f7 = 0x20 then some .sra else none
  | 6 => some .or
  | _ => some .and

/-- The operation of OP by funct3 and funct7. -/
def rvOp (f3 f7 : Nat) : Option RvAlu :=
  if f7 = 1 then
    match f3 with
    | 0 => some .mul
    | 1 => some .mulh
    | 2 => some .mulhsu
    | 3 => some .mulhu
    | 4 => some .div
    | 5 => some .divu
    | 6 => some .rem
    | _ => some .remu
  else if f7 = 0x20 then (if f3 = 0 then some .sub else if f3 = 5 then some .sra else none)
  else if f7 = 0 then rvImmOp f3 0
  else none

/-- The atomic operations by funct5: LR.W, SC.W and the AMOs. -/
def rvAmoOk (f5 rs2 : Nat) : Bool :=
  (f5 == 2 && rs2 == 0) || [3, 1, 0, 4, 0xC, 8, 0x10, 0x14, 0x18, 0x1C].contains f5

/-- A 32-bit instruction. -/
def rvDecode (w : Nat) : Rv :=
  let rd := fieldOf w 11 7
  let f3 := fieldOf w 14 12
  let rs1 := fieldOf w 19 15
  let rs2 := fieldOf w 24 20
  let f7 := fieldOf w 31 25
  match fieldOf w 6 0 with
  | 0x37 => .lui rd (immU w)
  | 0x17 => .auipc rd (immU w)
  | 0x6F => .jal rd (immJ w)
  | 0x67 => if f3 = 0 then .jalr rd rs1 (immI w) else .illegal
  | 0x63 => if f3 = 2 ∨ f3 = 3 then .illegal else .branch f3 rs1 rs2 (immB w)
  | 0x03 => if [0, 1, 2, 4, 5].contains f3 then .load f3 rd rs1 (immI w) else .illegal
  | 0x23 => if f3 < 3 then .store f3 rs1 rs2 (immS w) else .illegal
  | 0x13 =>
    match rvImmOp f3 f7 with
    | some f => .aluImm f rd rs1 (if f3 = 1 ∨ f3 = 5 then BitVec.ofNat 32 rs2 else immI w)
    | none => .illegal
  | 0x33 => match rvOp f3 f7 with | some f => .alu f rd rs1 rs2 | none => .illegal
  | 0x2F => if f3 = 2 ∧ rvAmoOk (f7 / 4) rs2 then .amo (f7 / 4) rd rs1 rs2 else .illegal
  | 0x0F => if f3 < 2 then .fence else .illegal
  | 0x0B => if f3 < 6 ∧ f7 = 0 then .eop f3 rd rs1 rs2 else .illegal
  | 0x73 =>
    if f3 = 0 then (if w = 0x73 then .ecall else if w = 0x00100073 then .ebreak else if w = 0x10500073 then .wfi else .illegal)
    else if f3 = 4 then .illegal else .csr f3 rd rs1 (fieldOf w 31 20)
  | _ => .illegal

/-- The 6-bit immediate of a compressed instruction. -/
def immC (h : Nat) : Word := sext 6 (fieldOf h 12 12 * 2 ^ 5 + fieldOf h 6 2)

/-- The jump offset of C.J and C.JAL. -/
def immCJ (h : Nat) : Word :=
  sext 12 (fieldOf h 12 12 * 2 ^ 11 + fieldOf h 8 8 * 2 ^ 10 + fieldOf h 10 9 * 2 ^ 8 + fieldOf h 6 6 * 2 ^ 7 +
    fieldOf h 7 7 * 2 ^ 6 + fieldOf h 2 2 * 2 ^ 5 + fieldOf h 11 11 * 2 ^ 4 + fieldOf h 5 3 * 2)

/-- The branch offset of C.BEQZ and C.BNEZ. -/
def immCB (h : Nat) : Word :=
  sext 9 (fieldOf h 12 12 * 2 ^ 8 + fieldOf h 6 5 * 2 ^ 6 + fieldOf h 2 2 * 2 ^ 5 + fieldOf h 11 10 * 2 ^ 3 + fieldOf h 4 3 * 2)

/-- Quadrant 0 of the compressed instructions. -/
def rvC0 (h : Nat) : Rv :=
  let r := fieldOf h 4 2 + 8
  let b := fieldOf h 9 7 + 8
  let off := BitVec.ofNat 32 (fieldOf h 5 5 * 2 ^ 6 + fieldOf h 12 10 * 2 ^ 3 + fieldOf h 6 6 * 2 ^ 2)
  match fieldOf h 15 13 with
  | 0 =>
    let n := fieldOf h 10 7 * 2 ^ 6 + fieldOf h 12 11 * 2 ^ 4 + fieldOf h 5 5 * 2 ^ 3 + fieldOf h 6 6 * 2 ^ 2
    if n = 0 then .illegal else .aluImm .add r 2 (BitVec.ofNat 32 n)
  | 2 => .load 2 r b off
  | 6 => .store 2 b r off
  | _ => .illegal

/-- The arithmetic group of quadrant 1. -/
def rvC1Alu (h : Nat) : Rv :=
  let r := fieldOf h 9 7 + 8
  let q := fieldOf h 4 2 + 8
  let sh := BitVec.ofNat 32 (fieldOf h 6 2)
  match fieldOf h 11 10 with
  | 0 => if bitOf h 12 then .illegal else .aluImm .srl r r sh
  | 1 => if bitOf h 12 then .illegal else .aluImm .sra r r sh
  | 2 => .aluImm .and r r (immC h)
  | _ =>
    if bitOf h 12 then .illegal
    else match fieldOf h 6 5 with
      | 0 => .alu .sub r r q
      | 1 => .alu .xor r r q
      | 2 => .alu .or r r q
      | _ => .alu .and r r q

/-- Quadrant 1. -/
def rvC1 (h : Nat) : Rv :=
  let rd := fieldOf h 11 7
  match fieldOf h 15 13 with
  | 0 => .aluImm .add rd rd (immC h)
  | 1 => .jal 1 (immCJ h)
  | 2 => .aluImm .add rd 0 (immC h)
  | 3 =>
    if immC h = 0 then .illegal
    else if rd = 2 then
      .aluImm .add 2 2 (sext 10 (fieldOf h 12 12 * 2 ^ 9 + fieldOf h 4 3 * 2 ^ 7 + fieldOf h 5 5 * 2 ^ 6 + fieldOf h 2 2 * 2 ^ 5 +
        fieldOf h 6 6 * 2 ^ 4))
    else .lui rd (immC h <<< 12)
  | 4 => rvC1Alu h
  | 5 => .jal 0 (immCJ h)
  | 6 => .branch 0 (fieldOf h 9 7 + 8) 0 (immCB h)
  | _ => .branch 1 (fieldOf h 9 7 + 8) 0 (immCB h)

/-- Quadrant 2. -/
def rvC2 (h : Nat) : Rv :=
  let rd := fieldOf h 11 7
  let rs2 := fieldOf h 6 2
  match fieldOf h 15 13 with
  | 0 => if bitOf h 12 then .illegal else .aluImm .sll rd rd (BitVec.ofNat 32 rs2)
  | 2 =>
    if rd = 0 then .illegal
    else .load 2 rd 2 (BitVec.ofNat 32 (fieldOf h 3 2 * 2 ^ 6 + fieldOf h 12 12 * 2 ^ 5 + fieldOf h 6 4 * 2 ^ 2))
  | 4 =>
    if bitOf h 12 then
      (if rs2 ≠ 0 then .alu .add rd rd rs2 else if rd = 0 then .ebreak else .jalr 1 rd 0)
    else if rs2 ≠ 0 then .alu .add rd 0 rs2
    else if rd = 0 then .illegal else .jalr 0 rd 0
  | 6 => .store 2 2 rs2 (BitVec.ofNat 32 (fieldOf h 8 7 * 2 ^ 6 + fieldOf h 12 9 * 2 ^ 2))
  | _ => .illegal

/-- An instruction of 16 bits. -/
def rvCompressed (h : Nat) : Rv :=
  match h % 4 with
  | 0 => rvC0 h
  | 1 => rvC1 h
  | _ => rvC2 h

/-! ## Values -/

/-- The product's upper word. -/
def highWord (x : Int) : Word := BitVec.ofInt 32 (x / 2 ^ 32)

/-- An operation on two words; a division by 0 gives all ones and a remainder by 0 the dividend. -/
def rvCompute (f : RvAlu) (a b : Word) : Word :=
  let sh := b.toNat % 32
  match f with
  | .add => a + b
  | .sub => a - b
  | .sll => a <<< sh
  | .slt => BitVec.ofNat 32 (b2n (decide (a.toInt < b.toInt)))
  | .sltu => BitVec.ofNat 32 (b2n (decide (a.toNat < b.toNat)))
  | .xor => a ^^^ b
  | .srl => a >>> sh
  | .sra => a.sshiftRight sh
  | .or => a ||| b
  | .and => a &&& b
  | .mul => a * b
  | .mulh => highWord (a.toInt * b.toInt)
  | .mulhsu => highWord (a.toInt * (b.toNat : Int))
  | .mulhu => highWord ((a.toNat : Int) * (b.toNat : Int))
  | .div => if b = 0 then BitVec.allOnes 32 else BitVec.ofInt 32 (a.toInt.tdiv b.toInt)
  | .divu => if b = 0 then BitVec.allOnes 32 else a / b
  | .rem => if b = 0 then a else BitVec.ofInt 32 (a.toInt.tmod b.toInt)
  | .remu => if b = 0 then a else a % b

/-- A branch is taken. -/
def rvTaken (f : Nat) (a b : Word) : Bool :=
  match f with
  | 0 => a == b
  | 1 => a != b
  | 4 => decide (a.toInt < b.toInt)
  | 5 => decide (b.toInt ≤ a.toInt)
  | 6 => decide (a.toNat < b.toNat)
  | _ => decide (b.toNat ≤ a.toNat)

/-- The word that an AMO stores, from the word in memory and rs2. -/
def rvAmo (f5 : Nat) (m b : Word) : Word :=
  match f5 with
  | 1 => b
  | 0 => m + b
  | 4 => m ^^^ b
  | 0xC => m &&& b
  | 8 => m ||| b
  | 0x10 => if m.toInt < b.toInt then m else b
  | 0x14 => if m.toInt < b.toInt then b else m
  | 0x18 => if m.toNat < b.toNat then m else b
  | _ => if m.toNat < b.toNat then b else m

/-- A value loaded, by funct3: LB, LH, LW, LBU, LHU. -/
def rvLoaded (f n : Nat) : Word :=
  match f with
  | 0 => sext 8 n
  | 1 => sext 16 n
  | _ => BitVec.ofNat 32 n

/-- The modes of a core (R279): firmware runs in M-mode, a network program in U-mode. -/
inductive RvMode where
  | machine | user
  deriving DecidableEq, Repr

/-- The mode of a unit's core: U-mode while a context runs on it, else the firmware has it (R282, R291). -/
def coreMode (s : State) (u : Nat) : RvMode := if (runningOn s u).isSome then .user else .machine

/-- A CSR read on core `id` (R278, R279): mhartid in M-mode, and the user counters, which all count retired instructions; none for one
whose access raises an illegal-instruction exception. The timer CSRs are absent; the other M-mode CSRs belong to the firmware (R282). -/
def csrRead (s : State) (m : RvMode) (id num : Nat) : Option Word :=
  let n := (rxu s (id - 0x20)).retired.toNat
  if num = 0xF14 then (if m = .machine then some (BitVec.ofNat 32 id) else none)
  else if num = 0xC00 ∨ num = 0xC02 then some (BitVec.ofNat 32 n)
  else if num = 0xC80 ∨ num = 0xC82 then some (BitVec.ofNat 32 (n / 2 ^ 32))
  else none

/-! ## Memory as the core sees it (Table 12-2) -/

/-- A channel register of unit u's core (Table 12-2): the channel's other endpoint, whether it is the send side, and the offset. -/
def coreChan (a : Nat) : Option (Nat × Bool × Nat) :=
  if 0x100000 ≤ a ∧ a < 0x110000 then some ((a - 0x100000) / 0x100, true, a % 0x100)
  else if 0x110000 ≤ a ∧ a < 0x120000 then some ((a - 0x110000) / 0x100, false, a % 0x100)
  else none

/-- U-mode may touch the registers of the channel with `r` (R301); a channel that does not exist reads 0 and ignores writes (R302). -/
def chanOpen (u r : Nat) : Bool := mayTalk u r || !(isEndpoint r && r != coreId u)

/-- A word of a channel read (R297, R298). -/
def chanLoad (s : State) (u r : Nat) (send : Bool) (o : Nat) : State × Word :=
  if send then (s, BitVec.ofNat 32 (txView s (coreId u) r o))
  else
    (if o = 0x48 then wordTaken s r (coreId u) else s, BitVec.ofNat 32 (rxView s r (coreId u) o))

/-- A load of `n` bytes: misaligned, outside the map or poisoned, it traps with the cause given. -/
def coreLoad (s : State) (u a n : Nat) : State × Except Nat Nat :=
  if a % n ≠ 0 then (s, .error 4)
  else if inTask a n then
    let r := localLoad s u a n
    (r.1, match r.2 with | some b => .ok (le b) | none => .error 5)
  else
    match coreChan a with
    | some (r, send, o) => if n = 4 ∧ chanOpen u r then let x := chanLoad s u r send o; (x.1, .ok x.2.toNat) else (s, .error 5)
    | none => (s, .error 5)

/-- A store of `n` bytes, with the cause it traps with where it does. -/
def coreStore (s : State) (u a n v : Nat) : State × Option Nat :=
  if a % n ≠ 0 then (s, some 6)
  else if inTask a n then (localWrite s u a (toLe n v), none)
  else
    match coreChan a with
    | some (r, send, o) =>
      if n = 4 ∧ chanOpen u r then ((if send then txWrite s (coreId u) r o v else rxWrite s r (coreId u) o v), none) else (s, some 7)
    | none => (s, some 7)

/-! ## Execution -/

/-- The instruction has retired: registers change and the pc goes to `pc`. -/
def rvNext (s : State) (u c : Nat) (pc : Word) (f : Ctx → Ctx) : State :=
  modRxu (modCtx s u c fun k => { f k with pc := pc }) u fun x => { x with retired := x.retired + 1 }

/-- LR.W, SC.W and the AMOs on an aligned word of the task region; SC.W loads nothing, so it leaves a poisoned quad poisoned as every store
does (R281). -/
def rvAmoRun (s : State) (u c f5 rd a : Nat) (b pc : Word) : State :=
  let lr := f5 = 2
  if a % 4 ≠ 0 then trapCtx s u c (if lr then 4 else 6)
  else if !inTask a 4 then trapCtx s u c (if lr then 5 else 7)
  else if f5 = 3 then
    let hit := (rxu s u).reserved = some a
    let s := if hit then localWrite s u a (toLe 4 b.toNat) else s
    rvNext (modRxu s u fun x => { x with reserved := none }) u c pc fun k => k.put rd (if hit then 0 else 1)
  else
    let r := localLoad s u a 4
    match r.2 with
    | none => trapCtx r.1 u c (if lr then 5 else 7)
    | some bs =>
      let m := BitVec.ofNat 32 (le bs)
      if lr then modRxu (rvNext r.1 u c pc fun k => k.put rd m) u fun x => { x with reserved := some a }
      else rvNext (localWrite r.1 u a (toLe 4 (rvAmo f5 m b).toNat)) u c pc fun k => k.put rd m

/-- An ECALL: the service in a7 (R291); any other value is an exception. -/
def ecallRun (s : State) (u : UIx) (c : LIx) (k : Ctx) : State :=
  match (ctxReg k 17).toNat with
  | 0 => endRun s u
  | 1 => yieldRun s u
  | 2 => noteRun s u
  | _ => trapCtx s u.val c.val 8

/-- An engine-op instruction (Table 12-3). -/
def eopRun (s : State) (u : UIx) (f rd rs1 rs2 : Nat) : State :=
  match f with
  | 0 => eopIssueRun s u rd rs1 rs2
  | 1 => eopWaitRun s u rd rs1
  | 2 => eopPollRun s u rd rs1
  | 3 => eopMoveRun s u rd rs1 rs2
  | 4 => eopMwaitRun s u rd rs1
  | _ => eopEnqRun s u rd rs1 rs2

/-- One instruction of `n` bytes carried out by the running context. -/
def rvExec (s : State) (u : UIx) (c : LIx) (k : Ctx) (n : Nat) (i : Rv) : State :=
  let pc := k.pc + BitVec.ofNat 32 n
  let next := rvNext s u.val c.val
  let trap := trapCtx s u.val c.val
  match i with
  | .lui rd v => next pc fun k => k.put rd v
  | .auipc rd v => next pc fun x => x.put rd (k.pc + v)
  | .jal rd v => next (k.pc + v) fun k => k.put rd pc
  | .jalr rd rs1 v => next ((ctxReg k rs1 + v) &&& ~~~1) fun k => k.put rd pc
  | .branch f rs1 rs2 v => next (if rvTaken f (ctxReg k rs1) (ctxReg k rs2) then k.pc + v else pc) id
  | .load f rd rs1 v =>
    match coreLoad s u.val (ctxReg k rs1 + v).toNat (2 ^ (f % 4)) with
    | (s, .ok x) => rvNext s u.val c.val pc fun k => k.put rd (rvLoaded f x)
    | (s, .error e) => trapCtx s u.val c.val e
  | .store f rs1 rs2 v =>
    match coreStore s u.val (ctxReg k rs1 + v).toNat (2 ^ f) (ctxReg k rs2).toNat with
    | (s, none) => rvNext s u.val c.val pc id
    | (_, some e) => trap e
  | .aluImm f rd rs1 v => next pc fun k => k.put rd (rvCompute f (ctxReg k rs1) v)
  | .alu f rd rs1 rs2 => next pc fun k => k.put rd (rvCompute f (ctxReg k rs1) (ctxReg k rs2))
  | .amo f rd rs1 rs2 => rvAmoRun s u.val c.val f rd (ctxReg k rs1).toNat (ctxReg k rs2) pc
  | .csr f rd rs1 num =>
    match csrRead s .user (coreId u.val) num with
    | some w => if f % 4 = 1 ∨ rs1 ≠ 0 then trap 2 else next pc fun k => k.put rd w
    | none => trap 2
  | .fence => next pc id
  | .ecall => ecallRun s u c k
  | .ebreak => trap 3
  | .wfi => wfiRun s u
  | .eop f rd rs1 rs2 => eopRun s u f rd rs1 rs2
  | .illegal => trap 2

/-- The running context of unit u's core carries out the instruction at its pc (R279 to R281, R291): the address in `ra` at entry acts as
ECALL 0, and a fetch outside the task region or from a poisoned quad raises an access fault. -/
def coreTurn (s : State) (u : UIx) : State :=
  onCore s u fun s c k =>
    let a := k.pc.toNat
    if k.pc = endPc then endRun s u
    else if !inTask a 2 then trapCtx s u.val c.val 1
    else
      let wide := decide (le (localRead s u.val a 2) % 4 = 3)
      if wide ∧ !inTask a 4 then trapCtx s u.val c.val 1
      else
        let r := localLoad s u.val a (if wide then 4 else 2)
        match r.2 with
        | none => trapCtx r.1 u.val c.val 1
        | some b => if wide then rvExec r.1 u c k 4 (rvDecode (le b)) else rvExec r.1 u c k 2 (rvCompressed (le b))

/-- Some core runs a context. -/
def coresBusy (s : State) : Bool := (List.range 4).any fun u => (runningOn s u).isSome

/-- Each core that runs a context carries out one instruction, the units in ascending order. -/
def coresTurn (s : State) : State := (List.finRange 4).foldl (fun s u => coreTurn s u) s

end Sys2Proof.Machine
end

