-- ==== Sys2Proof/Machine/Step.lean ====
section
/-! DEFINITION. One step of the block: the command at the front of the queue is taken and carried out; with none waiting, the sequencer
cores that run network programs go on by one instruction, and otherwise the block idles. -/

namespace Sys2Proof.Machine

/-- What happens when no command waits (log 4, log 55): each core that runs a context carries out one instruction; with none, nothing. -/
def idle (s : State) : Host.Outcome State Fault Refusal := if served s && coresBusy s then done s (coresTurn s) else .next s

/-- Take the command at the front of the queue and carry it out with the queue's rest; on an empty queue the cores run (log 4). -/
def step (s : State) : Host.Outcome State Fault Refusal :=
  match s.pending with
  | [] => idle s
  | i :: rest => exec i { s with pending := rest }

/-- `s` with the command that a word spells put at the front of its queue; `s` where the word spells none. -/
def State.withFetchWord (s : State) (nbits w : Nat) : State :=
  match decodeTableWord nbits w with
  | some i => { s with pending := i :: s.pending }
  | none => s

end Sys2Proof.Machine
end

