-- ==== Sys2Proof/Machine/Fec.lean ====
section
/-! DEFINITION. What a Utrid port's lanes carry (R303, R304, R306): quads with their SWC-146 check bits, the flit stream cut into codeword
payloads with their link control words, the RS(544,514) code and the four lanes. The field, the generator and the orders that the manual leaves
to IEEE 802.3 are PRESUMED (log 80). -/

namespace Sys2Proof.Machine

/-! ## SWC-146 check bits (R335) -/

/-- The remainder of a polynomial over GF(2) by one of degree `deg`; `n` bounds how far its degree stands above `deg`. -/
def gf2Mod (g deg : Nat) : Nat → Nat → Nat
  | 0, x => x
  | n + 1, x => gf2Mod g deg n (if bitOf x (deg + n) then x ^^^ (g * 2 ^ n) else x)

/-- The product of two polynomials over GF(2); `n` bounds the degree of the second. -/
def gf2Mul (a : Nat) : Nat → Nat → Nat
  | 0, _ => 0
  | n + 1, b => gf2Mul a n b ^^^ (if bitOf b n then a * 2 ^ n else 0)

/-- g(x) = (x + 1) · m1(x) · m3(x). -/
def swcGen : Nat := gf2Mul (gf2Mul 3 9 0x11D) 9 0x177

/-- Check bits [16:0] of a quad with poison flag and folded address. -/
def swcCheck (p : Bool) (d f : Nat) : Nat := gf2Mod swcGen 17 188 (b2n p * 2 ^ 17 + d * 2 ^ 18 + f * 2 ^ 146)

/-- The 146 bits of a stored or travelling quad (Table 14-1). -/
def swcWord (p : Bool) (d f : Nat) : Nat := swcCheck p d f + b2n p * 2 ^ 17 + d * 2 ^ 18

/-! ## The flit stream (R304, R306) -/

/-- The bits of a number, least significant first. -/
def natBits (n x : Nat) : List Bool := (List.range n).map fun i => bitOf x i

/-- The 1,314 bits of a flit: nine quads, each with its 18 check bits. -/
def flitBits (f : Flit) (sq : Nat) : List Bool :=
  (List.range 9).flatMap fun i =>
    let q := flitQuad f i
    let p := nth false f.poison i
    natBits 146 (swcWord p (if p then 0 else q.toNat) (flitFold sq i))

/-- The flit stream of what a port has sent, back to back. -/
def flitStream (u : UPort) : List Bool := (List.zip u.wire u.wireSq).flatMap fun x => flitBits x.1 x.2

/-- The link control word that goes with codeword j; an idle one returns no credits. -/
def controlWord (u : UPort) (j : Nat) : Nat := let w := nth ((0, 0) : Nat × Nat) u.words j; w.1 + w.2

/-- The 5,140-bit payload of codeword j: 5,120 bits of flit stream and the link control word. -/
def payloadBits (u : UPort) (j : Nat) : List Bool :=
  let bs := ((flitStream u).drop (5120 * j)).take 5120
  bs ++ List.replicate (5120 - bs.length) false ++ natBits 20 (controlWord u j)

/-! ## RS(544,514) -/

/-- The product in GF(2^10) with x^10 + x^3 + 1. -/
def gf1024 (a b : Nat) : Nat := gf2Mod 0x409 10 9 (gf2Mul a 10 b)

/-- A polynomial, highest coefficient first, times x + r. -/
def timesRoot (p : List Nat) (r : Nat) : List Nat :=
  List.zipWith (· ^^^ ·) (p ++ [0]) (0 :: p.map (gf1024 r))

/-- α to the powers 0 to n - 1 in GF(2^10), from `x`. -/
def alpha1024 : Nat → Nat → List Nat
  | 0, _ => []
  | n + 1, x => x :: alpha1024 n (gf1024 2 x)

/-- The generator, highest coefficient first: roots α^0 to α^29. -/
def rsGen : List Nat := (alpha1024 30 1).foldl timesRoot [1]

/-- One message symbol shifted into the remainder. -/
def rsShift (g rem : List Nat) (sym : Nat) : List Nat :=
  let fb := nth 0 rem 0 ^^^ sym
  List.zipWith (· ^^^ ·) (rem.drop 1 ++ [0]) ((g.drop 1).map (gf1024 fb))

/-- The 30 parity symbols of a message. -/
def rsParity (msg : List Nat) : List Nat := msg.foldl (rsShift rsGen) (List.replicate 30 0)

/-- The 10-bit symbols of a payload. -/
def symbols (bs : List Bool) : List Nat := (chunk 10 514 bs).map bitsNat

/-- Codeword j that a port sends: 514 message symbols and 30 parity symbols. -/
def codeword (u : UPort) (j : Nat) : List Nat := let m := symbols (payloadBits u j); m ++ rsParity m

/-- What lane l carries of a codeword: the symbols in turn over four lanes (R303). -/
def laneSymbols (cw : List Nat) (l : Nat) : List Nat := ((List.zip (List.range cw.length) cw).filter fun x => x.1 % 4 == l).map (·.2)

/-- A word of 544 symbols is a codeword: it vanishes at α^0 to α^29. -/
def isCodeword (cw : List Nat) : Bool :=
  cw.length == 544 && (alpha1024 30 1).all fun a => cw.foldl (fun acc c => gf1024 acc a ^^^ c) 0 == 0

end Sys2Proof.Machine
end

