-- ==== Sys2Proof/Safety.lean ====
section
/-! DEFINITION. What counts as a safe state and a safe step, in the terms the statements use. -/

namespace Sys2Proof.Machine

/-- Device memory and host memory hold their canonical form: addresses strictly rising, no listed byte 0. -/
def State.canonical (s : State) : Prop := Memory.wf s.mem = true ∧ Memory.wf s.host = true

/-- The state between two commands: no access to the host is waiting (log 4). -/
def State.rested (s : State) : Prop := s.hostWait = false

/-- The device takes work: RUNNING or DRAINING (Table 15-1). -/
def State.flowing (s : State) : Prop := s.rested ∧ served s = true

/-- The host's register writes are served (Table 15-1, R428). -/
def State.hosted (s : State) : Prop := s.rested ∧ hostWrites s = true

/-- The core is powered and the device is not in FAULT. -/
def State.powered (s : State) : Prop := s.rested ∧ corePowered s = true ∧ s.glb.dev ≠ .fault

/-- The command answers a next state from `s`, and `p` holds of it. -/
def Answers (i : Instr) (s : State) (p : State → Prop) : Prop := ∃ t, exec i s = .next t ∧ p t

/-- The commands that are events of the engines and flows, and doorbell writes: they act only while the device takes work (Table 15-1,
R228). -/
def engineEvent : Instr → Bool
  | .nop _ | .copy _ | .matrix _ | .vector _ | .fenceSignal _ | .fenceWait _ | .patch _ | .load _ | .step _ | .rotate _ | .slotRun _
  | .indirect _ | .enqueue _ | .queueBind _ | .queueDestroy _ | .queueCtl _ | .restructure _ | .queueVisit | .fenceWaitSatisfied _
  | .enqueueCopy _ | .dbPiWrite _ _ => true
  | .hedgeRejoined _ | .hedgeStepStart _ | .hedgeStepEnd _ | .arrayLoadStart _ | .arrayLoadDone _ | .groupOpenGranted _
  | .poolBorrowGranted _ _ | .multicastRecordSend _ | .skidToSlot _ _ | .outputClose _ | .topkMerge _ | .rotationClaimGranted
  | .stagingFetchDone _ | .roundMulticastStart _ | .waitMarkReleased _ | .dmvBurstDone | .depFenceReleased _ => true
  | .captureWindowClose _ _ | .deadlineExpiry _ _ | .slotStatusWrite _ _ | .linkDown _ | .linkReturn _ | .sampleCapture _ _
  | .tileReplay _ _ | .agcWindowEnd _ _ | .preambleDetection _ _ | .freezeRelease _ _ | .maxHoldExpiry _ _ | .settleExpiry _ _
  | .gainFrameStart _ | .gainFrameDone _ => true
  | .eopIssue _ _ _ _ | .eopWait _ _ _ | .eopPoll _ _ _ | .eopMove _ _ _ _ | .eopMwait _ _ _ | .eopEnq _ _ _ _ | .wfi _ | .end_ _
  | .yield _ | .note _ | .uModeException _ _ | .ticketComplete _ _ _ | .detect _ _ _ | .fft _ _ _ | .trellis _ _ _ | .extract _ _ _
  | .calibrate _ _ _ | .release _ _ _ | .engineOpDone _ _ => true
  | .stallDeclared _ | .drainQueueComplete _ | .drainEscalation _ | .destroyAcksDone _ | .destroyAckTimeout _ | .tokenClaimGranted => true
  | _ => false

/-- A step from `s` answers a next state. -/
def State.goesOn (s : State) : Prop := ∃ t, step s = .next t

end Sys2Proof.Machine
end

