-- ==== Sys2Proof/Certificates/Slice0/Obligations.lean ====
section
/-! DEFINITION. The statements for the provers. -/

set_option Elab.async false

open Sys2Proof Sys2Proof.Machine

/-! ## The block as a whole -/

/-- The command at the front of the queue is taken and carried out with the queue's rest (log 4). -/
def Obligations.StepTakesTheFrontCommand : Prop :=
  ∀ (s : State) (i : Instr) (rest : List Instr), s.pending = i :: rest → step s = exec i { s with pending := rest }

/-- With no command waiting the block idles: nothing changes where no core runs a context or the device takes no work (log 4, the model's
choice), and otherwise each core carries out one instruction (log 55). -/
def Obligations.IdleStep : Prop :=
  ∀ s : State, s.pending = [] →
    ((∀ u, u < 4 → runningOn s u = none) → step s = .next s) ∧
    (served s = false → step s = .next s) ∧
    (∀ u, u < 4 → runningOn s u ≠ none → served s = true → step s = .next (finish s (settle s (coresTurn s))))

/-- Every command, in every state, answers a next state; and one that names nothing the device has changes nothing: a flit that is not nine
quads, a tile, a store or a reading that does not exist (log 8), and a BAR0 offset beyond the 32 MiB, which does not reach the function (R408). -/
def Obligations.WellFormedCommandsAnswer : Prop :=
  (∀ (i : Instr) (s : State), ∃ t, exec i s = .next t) ∧
  (∀ (s : State) (p : PIx) (f : Flit), f.shape = false →
    exec (.recordFlit p f) s = .next s ∧ exec (.markFlit p f) s = .next s ∧ exec (.chainHeadFlit p f) s = .next s ∧
    exec (.chainDataFlit p f) s = .next s ∧ exec (.mgtBlockFlit p f) s = .next s ∧ exec (.mgtWordFlit p f) s = .next s ∧
    exec (.noticeFlit p f) s = .next s ∧ exec (.membershipFlit p f) s = .next s) ∧
  (∀ (s : State) (h : HIx) (tile : Nat), 512 ≤ tile → exec (.tileReplay h tile) s = .next s) ∧
  (∀ (s : State) (r : QuadRef), scrubbedStore r.store = false → exec (.sramScrubQuad r) s = .next s) ∧
  (∀ (s : State) (g : Governor), g.sensors.length ≠ 24 → exec (.governorPass g) s = .next s) ∧
  (∀ (s : State) (off : Nat) (v : Word), 0x2000000 ≤ off →
    exec (.rcCounterRead off) s = .next s ∧ exec (.latchingRead off) s = .next s ∧ exec (.registerWrite off v) s = .next s)

/-- No command and no idle step leaves an access to the host open: `rested` is kept by every step (log 4). -/
def Obligations.StepsStayRested : Prop :=
  ∀ s t : State, s.rested → step s = .next t → t.rested

/-- What State.reset holds: it is between two accesses with its memories canonical; BOOT with nothing bound, every queue FREE, every hedge and array empty,
every fence 0 without its error flag (R9, R225, R253); that it is BOOT is the model's choice (log 1). -/
def Obligations.ResetState : Prop :=
  (State.reset.rested ∧ State.reset.canonical) ∧
  (State.reset.glb.dev = .boot ∧ State.reset.pending = [] ∧
   (∀ q, (queue State.reset q).st = .free ∧ (queue State.reset q).en = false) ∧
   (∀ n, (arr State.reset n).st = .empty ∧ (arr State.reset n).img = none) ∧
   (∀ f, (fence State.reset f).value = 0 ∧ (fence State.reset f).err = false) ∧
   (∀ h, (hedge State.reset h).run = none ∧ (hedge State.reset h).en.en = false) ∧
   (∀ a, mget State.reset.mem a = 0) ∧ (∀ k, chip State.reset k = []) ∧ regGet State.reset 0x1C = 0x7FF)

/-- R436: a command after which an unmasked source of `GLB_IRQ_STAT` reads 1 that did not before, by its rising or by its mask bit being
cleared, raises the device vector: its message is the last one sent, or its pending bit is set. -/
def Obligations.RisingSourcesRaiseTheVector : Prop :=
  ∀ (i : Instr) (s t : State), exec i s = .next t → t.glb.dev ≠ .off → t.glb.dev ≠ .reset →
    irqActive t &&& (0x7FF - irqActive s) ≠ 0 →
    regField t 0x20 10 0 ∈ t.hif.pba ∨
    ∃ m, t.hif.msgs = m ++ [((sget ({} : MsixEntry) t.hif.table (regField t 0x20 10 0)).addr,
                             (sget ({} : MsixEntry) t.hif.table (regField t 0x20 10 0)).data)]

/-- Table 15-1: outside RUNNING and DRAINING the engines take no work: an event of theirs changes nothing. -/
def Obligations.EnginesRestOutsideRunning : Prop :=
  ∀ (i : Instr) (s : State), engineEvent i = true → served s = false → exec i s = .next s

/-! ## The host interface -/

/-- R229: a write to `DB_PI` of a bound queue is accepted only when the new index is at most SLOTS past both CI and PI; it then sets PI and the pending bit, and
otherwise it sets DB_BAD. R231, R247, R250: the front end visits the next pending queue in turn, kernel queues first, and an empty COMMAND queue goes IDLE. -/
def Obligations.DoorbellsAndVisits : Prop :=
  (∀ (s : State) (q : QIx) (v : Word), s.flowing → bound s q.val = true →
     ((v - (queue s q.val).ci).toNat ≤ ringSlots s q.val ∧ (v - (queue s q.val).pi).toNat ≤ ringSlots s q.val →
       exec (.dbPiWrite q v) s =
         .next (finish s { s with queues := sset s.queues q.val { queue s q.val with pi := v, pend := true } })) ∧
     (ringSlots s q.val < (v - (queue s q.val).ci).toNat ∨ ringSlots s q.val < (v - (queue s q.val).pi).toNat →
       exec (.dbPiWrite q v) s = .next (finish s (regSet s (qfeReg q.val 4) (regGet s (qfeReg q.val 4) ||| 1))))) ∧
  ((∀ s : State, s.flowing → visitable s = [] → s.utr.ports = [] → s.utr.rqs = [] → exec .queueVisit s = .next s) ∧
   (∀ (s : State) (q : QIx), s.flowing → nextVisit s = some q.val → s.utr.ports = [] → s.utr.rqs = [] → isRecord s q.val = false →
     (queue s q.val).st = .active → (queue s q.val).pi = (queue s q.val).ci → (queue s q.val).window = [] → (queue s q.val).indirects = [] →
     Answers .queueVisit s fun t => queue t q.val = { queue s q.val with pend := false, st := .idle } ∧
       (∀ r, q.val ≠ r → queue t r = queue s r) ∧
       t.front = (if q.val < 64 then { s.front with lastKernel := some q.val } else { s.front with lastUser := some q.val }) ∧
       t = { s with queues := t.queues, front := t.front, hif := t.hif }) ∧
   (∀ (s : State) (k : Nat), k ∈ visitable s → k < 64 → ∀ q, nextVisit s = some q → q < 64))

/-- R225, R269, Table 11-1: BIND on a FREE kernel queue whose registers pass Table 10-2 leaves it IDLE with EN set, a refused one sets BIND_REFUSED, DESTROY
takes a bound kernel queue to RETIRING; R268: clearing EN takes a queue to BOUND, or to DISABLING while it has dispatched commands, setting it takes a
BOUND queue to IDLE or ACTIVE, and during a shutdown the write is the latch PENDING_ON. -/
def Obligations.QueueControlWrites : Prop :=
  (∀ (s : State) (q : QIx), s.hosted → q.val < 64 →
     ((queue s q.val).st = .free → served s = true → driverOk s = true → bindOk s q.val (bindRegs s q.val) = true →
       Answers (.bind q) s fun t => (queue t q.val).st = .idle ∧ (queue t q.val).en = true ∧ (queue t q.val).pi = 0 ∧
         (queue t q.val).ci = 0 ∧ (∀ r, q.val ≠ r → queue t r = queue s r) ∧
         t = { s with queues := t.queues, regs := t.regs, hif := t.hif }) ∧
     ((queue s q.val).st ≠ .free ∨ bindOk s q.val (bindRegs s q.val) = false →
       exec (.bind q) s = .next (finish s (regSet s (qfeReg q.val 4) (regGet s (qfeReg q.val 4) ||| 2)))) ∧
     (bound s q.val = true → (rq s q.val).marks = [] → s.cmds = [] → s.rxus = [] → s.arrays = [] →
       exec (.destroy q) s = .next (finish s { s with queues := sset s.queues q.val { queue s q.val with
         st := .retiring, acting := .destroy, window := [], watch := 0, acked := false, pend := false, pendOn := false, origin := none,
         noFenceErr := false } }))) ∧
  (∀ (s : State) (q : QIx) (on : Bool), s.hosted →
     ((queue s q.val).st = .disabling →
       exec (.queueEnWrite q on) s = .next (finish s { s with queues := sset s.queues q.val { queue s q.val with pendOn := on } })) ∧
     ((queue s q.val).st = .idle ∨ (queue s q.val).st = .active →
       Answers (.queueEnWrite q false) s fun t => (queue t q.val).en = false ∧
         (queue t q.val).st = (if (cmdsOf s q.val).isEmpty then .bound else .disabling) ∧
         (queue t q.val).pi = (queue s q.val).pi ∧ (queue t q.val).ci = (queue s q.val).ci ∧
         (∀ r, q.val ≠ r → queue t r = queue s r) ∧ t = { s with queues := t.queues, hif := t.hif }) ∧
     ((queue s q.val).st = .bound →
       Answers (.queueEnWrite q true) s fun t => (queue t q.val).en = true ∧
         (queue t q.val).st = (if (queue s q.val).pi = (queue s q.val).ci then .idle else .active) ∧
         (∀ r, q.val ≠ r → queue t r = queue s r) ∧ t = { s with queues := t.queues, hif := t.hif }))

/-- R268: while a hedge, a receiver unit, an extractor, a Utrid port or a MAC port shuts down, a write of 1 to its enable bit sets
PENDING_ON and a write of 0 clears it, and the shutdown goes on. -/
def Obligations.ShutdownsAreNeverAborted : Prop :=
  ∀ (s : State) (on : Bool), s.hosted →
    (∀ h : HIx, (hedge s h.val).en.disabling = true → (hedge s h.val).restructuring = false → role s h.val ≠ 0 →
      Answers (.hedgeEnWrite h on) s fun t => (hedge t h.val).en = { (hedge s h.val).en with pendOn := on } ∧
        t = { s with hedges := t.hedges, hif := t.hif }) ∧
    (∀ u : UIx, (rxu s u.val).en.disabling = true → (rxu s u.val).en.en = false → unitLanes s u.val ≠ 0 →
      Answers (.rxuEnWrite u on) s fun t => (rxu t u.val).en = { (rxu s u.val).en with pendOn := on } ∧
        t = { s with rxus := t.rxus, hif := t.hif }) ∧
    (∀ u : UIx, (rxu s u.val).rex.disabling = true →
      Answers (.rexEnWrite u on) s fun t => (rxu t u.val).rex = { (rxu s u.val).rex with pendOn := on } ∧
        t = { s with rxus := t.rxus, hif := t.hif }) ∧
    (∀ p : PIx, (uport s p.val).en.disabling = true → (uport s p.val).en.en = false → portUsed s p.val = true →
      Answers (.portEnWrite p on) s fun t => (uport t p.val).en = { (uport s p.val).en with pendOn := on } ∧
        t = { s with utr := t.utr, hif := t.hif }) ∧
    (∀ m : EIx, (mac s m.val).en.disabling = true → (mac s m.val).link = false →
      Answers (.macEnWrite m on) s fun t => (mac t m.val).en = { (mac s m.val).en with pendOn := on } ∧
        t = { s with macs := t.macs, hif := t.hif })

/-- The enable bits outside a shutdown (R97, R188, R198, R308): an enable of a hedge with a role, a unit with lanes or an extractor sets EN, and
an enabled hedge that runs a step keeps running it while it shuts down. -/
def Obligations.EnablesTakeEffect : Prop :=
  ∀ s : State, s.hosted →
    (∀ h : HIx, (hedge s h.val).en.disabling = false → (hedge s h.val).restructuring = false → role s h.val ≠ 0 →
      Answers (.hedgeEnWrite h true) s fun t => (hedge t h.val).en = { (hedge s h.val).en with en := true } ∧
        t = { s with hedges := t.hedges, hif := t.hif }) ∧
    (∀ h : HIx, (hedge s h.val).en = { en := true } → (hedge s h.val).restructuring = false →
      Answers (.hedgeEnWrite h false) s fun t =>
        (hedge t h.val).en = { disabling := (hedge s h.val).run.isSome } ∧ (hedge t h.val).run = (hedge s h.val).run ∧
        t = { s with hedges := t.hedges, hif := t.hif }) ∧
    (∀ u : UIx, (rxu s u.val).en = {} → unitLanes s u.val ≠ 0 →
      Answers (.rxuEnWrite u true) s fun t => (rxu t u.val).en = { en := true } ∧
        t.pwr.rx = s.pwr.rx + min (tokensRx s) s.pwr.pool ∧
        t = { s with rxus := t.rxus, pwr := t.pwr, regs := t.regs, hif := t.hif }) ∧
    (∀ u : UIx, (rxu s u.val).rex.disabling = false →
      Answers (.rexEnWrite u true) s fun t => (rxu t u.val).rex = { (rxu s u.val).rex with en := true } ∧
        t = { s with rxus := t.rxus, hif := t.hif }) ∧
    (∀ p : PIx, (uport s p.val).en = {} → (uport s p.val).st = 0 → portUsed s p.val = true → s.glb.bypassOpen = true →
      Answers (.portEnWrite p true) s fun t => (uport t p.val).en = { en := true } ∧ (uport t p.val).st = 1 ∧
        t = { s with utr := t.utr, hif := t.hif }) ∧
    (∀ m : EIx, (mac s m.val).en.disabling = false → (mac s m.val).link = false →
      Answers (.macEnWrite m true) s fun t => (mac t m.val).en = { (mac s m.val).en with en := true } ∧
        t = { s with macs := t.macs, hif := t.hif })

/-- Rejoining a hedge (R107) and the snapshots of a hedge, a port's credits and the power book (R109, R308, R405): a request clears VALID, and
the latch that answers it sets VALID. -/
def Obligations.RejoinAndSnapshots : Prop :=
  (∀ (s : State) (h : HIx), s.hosted → (hedge s h.val).detachedFrom ≠ [] →
    exec (.rejoin h) s = .next (finish s { s with hedges := sset s.hedges h.val { hedge s h.val with rejoin := true } })) ∧
  (∀ (s : State) (h : HIx), s.flowing → (hedge s h.val).rejoin = true →
    exec (.hedgeRejoined h) s =
      .next (finish s { s with hedges := sset s.hedges h.val { hedge s h.val with detachedFrom := [], rejoin := false } })) ∧
  (∀ (s : State) (h : HIx), s.hosted → (hedge s h.val).snapReq = false →
    exec (.hdgSnapshotRequest h) s =
      .next (finish s { s with hedges := sset s.hedges h.val { hedge s h.val with snapReq := true, snapValid := false } })) ∧
  (∀ (s : State) (h : HIx), s.powered → (hedge s h.val).snapReq = true →
    Answers (.hdgSnapshotLatch h) s fun t => (hedge t h.val) = { hedge s h.val with snapReq := false, snapValid := true } ∧
      regGet t (hdgReg h.val 0x100) = BitVec.ofNat 32 (freeRows s h.val) ∧
      t = { s with hedges := t.hedges, regs := t.regs, hif := t.hif }) ∧
  (∀ (s : State) (p : PIx), s.hosted →
    Answers (.creditSnapRequest p) s fun t =>
      uport t p.val = { uport s p.val with snapWait := [0, 1, 2, 3, 4, 5], snapValid := false } ∧
      t = { s with utr := t.utr, hif := t.hif }) ∧
  (∀ (s : State) (p : PIx) (vc : Fin 6) (n : BitVec 8), s.rested → (uport s p.val).st = 2 → vc.val ∈ (uport s p.val).snapWait →
    (creditsHome (uport s p.val) vc.val n.toNat = true → Answers (.snap p vc n) s fun t =>
      sget (0, 0, 0) (uport t p.val).creds vc.val =
        (heldOf (uport s p.val) vc.val, 128 - heldOf (uport s p.val) vc.val - n.toNat, n.toNat) ∧
      heldOf (uport s p.val) vc.val + (128 - heldOf (uport s p.val) vc.val - n.toNat) + n.toNat = 128 ∧
      vc.val ∉ (uport t p.val).snapWait ∧ t = { s with utr := t.utr, hif := t.hif }) ∧
    (creditsHome (uport s p.val) vc.val n.toNat = false → exec (.snap p vc n) s = .next (finish s s))) ∧
  (∀ s : State, s.hosted → s.pwr.snapReq = false →
    exec .pwrSnapshotRequest s = .next (finish s { s with pwr := { s.pwr with snapReq := true, snapValid := false } })) ∧
  (∀ s : State, s.rested → s.pwr.snapReq = true →
    Answers .pwrSnapshotLatch s fun t => t.pwr = { s.pwr with snapReq := false, snapValid := true } ∧
      (∀ o, o ≠ pwrReg 0xC → regGet t o = regGet s o) ∧ t = { s with pwr := t.pwr, regs := t.regs, hif := t.hif })

/-- A `GLB_CMD` write that is ignored sets CMD_IGNORED and changes nothing else. -/
def cmdSetsIgnored (i : Instr) (s : State) : Prop :=
  exec i s = .next (finish s (regSet s 8 (regGet s 8 ||| BitVec.ofNat 32 (2 ^ 24))))

/-- R432, Table 18-7: START, HOLD and RESET with the right key, by state. -/
def Obligations.GlobalCommandsByState : Prop :=
  ∀ s : State, s.rested →
    (s.glb.dev = .hold ∧ s.glb.reason = 7 ∨ s.glb.dev = .structured ∧ (driverOk s = true ∨ s.glb.autostart = true) →
      Answers (.start 0x5356) s fun t => t.glb.dev = .running ∧ t.glb.reason = 0 ∧ t.queues = s.queues ∧ t.mem = s.mem ∧
        t.fences = s.fences ∧ t.arrays = s.arrays) ∧
    (s.glb.dev = .hold ∧ s.glb.reason ≠ 7 ∨ s.glb.dev = .structured ∧ driverOk s = false ∧ s.glb.autostart = false ∨ s.glb.dev = .running ∨
      s.glb.dev = .fault ∨ s.glb.dev = .draining ∧ (s.glb.reason ≠ 7 ∨ s.glb.targetReset = true) → cmdSetsIgnored (.start 0x5356) s) ∧
    (s.glb.dev = .draining → s.glb.reason = 7 → s.glb.targetReset = false →
      exec (.start 0x5356) s = .next (finish s { s with glb := { s.glb with startPending := true } }) ∧
      exec (.hold 0x5356) s = .next (finish s { s with glb := { s.glb with startPending := false } })) ∧
    (s.glb.dev = .structured → Answers (.hold 0x5356) s fun t => t.glb.dev = .hold ∧ t.glb.reason = 7 ∧ t.queues = s.queues ∧ t.mem = s.mem) ∧
    (s.glb.dev = .running → s.queues = [] → s.rxus = [] →
      Answers (.hold 0x5356) s (fun t => t.glb.dev = .draining ∧ t.glb.reason = 7 ∧ t.glb.targetReset = false ∧ t.mem = s.mem) ∧
      Answers (.reset 0x5356) s (fun t => t.glb.dev = .draining ∧ t.glb.targetReset = true ∧ t.mem = s.mem)) ∧
    (s.glb.dev = .hold ∨ s.glb.dev = .fault ∨ s.glb.dev = .draining ∧ (s.glb.reason ≠ 7 ∨ s.glb.targetReset = true) →
      cmdSetsIgnored (.hold 0x5356) s) ∧
    (s.glb.dev = .hold ∨ s.glb.dev = .structured ∨ s.glb.dev = .fault →
      Answers (.reset 0x5356) s fun t => t.glb.dev ≠ .running ∧ t.queues = [] ∧ t.chans = [] ∧ t.fences = [] ∧ t.mem = [] ∧
        t.hif.table = s.hif.table ∧ t.host = s.host) ∧
    (s.glb.dev = .draining →
      exec (.reset 0x5356) s = .next (finish s { s with glb := { s.glb with targetReset := true, startPending := false, reason := 0 } }))

/-- R436: a write of 1 to REARM raises the device vector while an unmasked source reads 1 and does nothing otherwise; a write of the mask sets its eleven
bits. R415: unmasking a vector, or the function, sends each pending message that no mask holds any more; while Bus Master Enable is clear, in D3hot or
under a function mask the messages stay pending. -/
def Obligations.InterruptRows : Prop :=
  (∀ s : State, s.hosted →
     (irqActive s = 0 → exec .rearm s = .next s) ∧
     (irqActive s ≠ 0 → exec .rearm s = .next (raiseVec s (regField s 0x20 10 0))) ∧
     (∀ v : Word, Answers (.irqMaskWrite v) s fun t => regGet t 0x1C = v &&& 0x7FF ∧ (∀ o, o ≠ 0x1C → regGet t o = regGet s o) ∧
       t = { s with regs := t.regs, hif := { s.hif with msgs := t.hif.msgs, pba := t.hif.pba } })) ∧
  (∀ (s : State) (n : Fin 2048), s.rested →
     let table := sset s.hif.table n.val { sget ({} : MsixEntry) s.hif.table n.val with masked := false }
     (s.hif.funcMask = true ∨ hostBlocked s = true → exec (.msixUnmask (some n)) s = .next { s with hif := { s.hif with table := table } }) ∧
     (s.hif.funcMask = false → hostBlocked s = false →
       Answers (.msixUnmask (some n)) s fun t => n.val ∉ t.hif.pba ∧ t.hif.table = table ∧
         (∀ v, v ∈ t.hif.pba ↔ v ∈ s.hif.pba ∧ (sget ({} : MsixEntry) table v).masked = true) ∧
         t.hif.msgs = s.hif.msgs ++ ((s.hif.pba.filter fun v => !(sget ({} : MsixEntry) table v).masked).map fun v =>
           ((sget ({} : MsixEntry) table v).addr, (sget ({} : MsixEntry) table v).data)) ∧
         t = { s with hif := { s.hif with table := table, msgs := t.hif.msgs, pba := t.hif.pba } }) ∧
     (hostBlocked s = false →
       Answers (.msixUnmask none) s fun t => t.hif.funcMask = false ∧
         (∀ v, v ∈ t.hif.pba ↔ v ∈ s.hif.pba ∧ (sget ({} : MsixEntry) s.hif.table v).masked = true) ∧
         t = { s with hif := { s.hif with funcMask := false, msgs := t.hif.msgs, pba := t.hif.pba } }))

/-- R259, R261, R262: a watch event counts in `FNW_WATCH_COUNT` and updates QUIET of every queue: 0 after progress, one more up to 255 where the
queue was judged at this event and the one before, 0 otherwise; it takes the queue's stall settings as they stand then, and a threshold reached
makes the stall action due. A source that is not enabled, or a line with no counted multiple of SLOT_DIV waiting, makes none. -/
def Obligations.WatchEvents : Prop :=
  ∀ s : State,
    (∀ i : Instr, (s.hosted ∧ (∃ v, i = .watchPoke v) ∧ regBit s watchCfg 1 = true) ∨
        (s.powered ∧ i = .watchPinEdge ∧ regBit s watchCfg 0 = true) ∨
        (s.powered ∧ (∃ l : UIx, i = .slotWatchEvent l ∧ 0 < sget 0 s.watchDue l.val)) →
      Answers i s fun t => regGet t watchCount = regGet s watchCount + 1 ∧
        (∀ q, q ∈ s.queues.map (·.1) → (queue s q).acting = .none →
          (queue t q).quiet = (if (queue s q).progress then 0
            else if judgedNow s q && (queue s q).judged then min 255 ((queue s q).quiet + 1) else 0) ∧
          (queue t q).judged = judgedNow s q ∧ (queue t q).stallCfg = regGet s (qfeReg q 0x34) ∧
          ((queue t q).stallDue = true ↔
            0 < regField s (qfeReg q 0x34) 7 0 ∧ regField s (qfeReg q 0x34) 7 0 ≤ (queue t q).quiet) ∧
          (queue t q).progress = false ∧ (queue t q).st = (queue s q).st ∧ (queue t q).pi = (queue s q).pi) ∧
        (∀ l : UIx, i = .slotWatchEvent l → sget 0 t.watchDue l.val + 1 = sget 0 s.watchDue l.val ∧
          (∀ k, k ≠ l.val → sget 0 t.watchDue k = sget 0 s.watchDue k)) ∧
        t = { s with queues := t.queues, regs := t.regs, watchDue := t.watchDue, hif := t.hif }) ∧
    (∀ v, s.hosted → regBit s watchCfg 1 = false → exec (.watchPoke v) s = .next s) ∧
    (s.powered → regBit s watchCfg 0 = false → exec .watchPinEdge s = .next s) ∧
    (∀ l : UIx, s.powered → sget 0 s.watchDue l.val = 0 → exec (.slotWatchEvent l) s = .next s)

/-- R434: FORCE_CLOSE set while the bypass is open closes it and shuts the ports of the topology down; cleared with a port not yet OFF it sets
PENDING_OPEN, which the reopening ends, once every port is OFF; R329: with RUNNING, VKA and BYPASS_N high the bypass follows the pin and the rail. -/
def Obligations.BypassRows : Prop :=
  ∀ s : State, s.rested →
    (hostWrites s = true → s.glb.bypassOpen = true →
      Answers (.forceClose true) s fun t => t.glb.bypassOpen = false ∧ t.glb.pendingOpen = false ∧ regBit t 0x14 0 = true ∧
        (∀ p, p ∈ usedPorts s → (uport s p).st = 2 → (uport t p).st = 2 ∧ (uport t p).en = { disabling := true }) ∧
        (∀ p, p ∈ usedPorts s → (uport s p).st ≠ 2 → (uport t p).st = 0 ∧ (uport t p).en = {}) ∧
        t = { s with glb := t.glb, regs := t.regs, utr := t.utr, hif := t.hif }) ∧
    (hostWrites s = true → regBit s 0x14 0 = true → (∃ p, p ∈ usedPorts s ∧ (uport s p).st ≠ 0) →
      Answers (.forceClose false) s fun t => t.glb = { s.glb with pendingOpen := true } ∧ regBit t 0x14 0 = false ∧
        t = { s with glb := t.glb, regs := t.regs, hif := t.hif }) ∧
    (s.glb.pendingOpen = true → s.glb.topo ≠ 0 → served s = true → s.glb.vka = true → s.glb.bypassN = true → regBit s 0x14 0 = false →
      s.glb.bypassOpen = false → (∀ p, p ∈ usedPorts s → (uport s p).st = 0 ∧ (uport s p).en.disabling = false) →
      Answers .bypassReopen s fun t => t.glb = { s.glb with pendingOpen := false, bypassOpen := true } ∧
        (∀ p, p ∈ usedPorts s → (uport t p).st = 1 ∧ (uport t p).en = { en := true }) ∧
        t = { s with glb := t.glb, utr := t.utr, hif := t.hif }) ∧
    (s.glb.topo ≠ 0 → served s = true → s.glb.vka = true → regBit s 0x14 0 = false → s.glb.pendingOpen = false → s.glb.bypassOpen = false →
      Answers (.bypassNChange true) s fun t => t.glb = { s.glb with bypassN := true, bypassOpen := true } ∧
        (∀ p, p ∈ usedPorts s → (uport t p).st = 1)) ∧
    (s.glb.topo ≠ 0 → served s = true → s.glb.bypassN = true → regBit s 0x14 0 = false → s.glb.pendingOpen = false → s.glb.bypassOpen = false →
      Answers .vkaReturn s fun t => t.glb = { s.glb with vka := true, bypassOpen := true } ∧ (∀ p, p ∈ usedPorts s → (uport t p).st = 1)) ∧
    (s.glb.bypassOpen = false → exec (.bypassNChange false) s = .next (finish s { s with glb := { s.glb with bypassN := false } })) ∧
    (s.glb.bypassOpen = false → s.glb.vka = true → s.glb.dev ≠ .off → s.glb.dev ≠ .reset →
      Answers .vkaLoss s fun t => t.glb = { s.glb with vka := false } ∧ regBit t (pwrReg 0x48) 2 = true ∧
        t = { s with glb := t.glb, regs := t.regs, sage := t.sage, hif := t.hif })

/-- Table 15-9, R371: what each update and boot command does in the states that allow it, and the RESULT it leaves with DONE set. -/
def Obligations.UpdateCommands : Prop :=
  ∀ s : State, s.rested →
    (s.glb.dev = .hold ∨ s.glb.dev = .structured ∨ s.glb.dev = .running →
      (∀ s1 bs, stagedImage s = (s1, some bs) → stagedChecks s1 bs (acceptedDriver s1) = none → nextSeq s1 < 0xFFFFFFFF →
        Answers .program s fun t => t.sage.flash = (writeSlot s1 (otherSlot s1) (nextSeq s1) bs).sage.flash ∧
          regField t (mgtReg 0x8030) 15 8 = 0 ∧ regBit t (mgtReg 0x8030) 16 = true ∧ t.queues = s.queues ∧ t.glb = s.glb) ∧
      (∀ s1 bs r, stagedImage s = (s1, some bs) → stagedChecks s1 bs (acceptedDriver s1) = some r →
        Answers .program s fun t => t.sage.flash = s.sage.flash ∧ regField t (mgtReg 0x8030) 15 8 = r % 256 ∧ t.glb = s.glb)) ∧
    (s.glb.dev = .hold →
      (Answers .reboot s fun t => (t.glb.dev = .boot ∨ t.glb.dev = .hold) ∧ t.queues = [] ∧ t.fences = [] ∧ t.mem = [] ∧ t.cmds = [] ∧
        t.host = s.host ∧ t.sage.flash = s.sage.flash) ∧
      (∀ s1 bs, stagedImage s = (s1, some bs) → stagedChecks s1 bs [] = none →
        Answers .bootStaged s fun t => (t.glb.dev = .boot ∨ t.glb.dev = .hold) ∧ t.queues = [] ∧ t.fences = [] ∧ t.mem = [] ∧
          t.host = s.host ∧ t.sage.flash = s1.sage.flash)) ∧
    (s.glb.dev = .running →
      (Answers .raiseFloor s fun t => t.sage.floor = max s.sage.floor (((s.sage.comps.map (·.sec)).min?).getD 0) ∧
        t.sage.keys = s.sage.keys ∧ t.sage.revoked = s.sage.revoked ∧ t.sage.signedOnly = s.sage.signedOnly ∧
        t = { s with sage := t.sage, regs := t.regs, hif := t.hif }) ∧
      ((s.sage.comps.any fun c => c.signer == some (regField s (mgtReg 0x8028) 1 0)) = false →
        Answers .revokeKey s fun t => regField s (mgtReg 0x8028) 1 0 ∈ t.sage.revoked ∧ (∀ k, k ∈ s.sage.revoked → k ∈ t.sage.revoked) ∧
          t.sage.keys = s.sage.keys ∧ t = { s with sage := t.sage, regs := t.regs, hif := t.hif }) ∧
      ((s.sage.comps.any fun c => c.signer.isNone) = false →
        Answers .signedOnly s fun t => t.sage.signedOnly = true ∧ t.sage.keys = s.sage.keys ∧
          t = { s with sage := t.sage, regs := t.regs, hif := t.hif })) ∧
    (∀ (k : Nat) (s1 : State) (bs : List Byte), s.glb.dev = .hold ∨ s.glb.dev = .structured ∨ s.glb.dev = .running → k < 4 →
      shas s.sage.keys k = false → (∀ j, j < k → shas s.sage.keys j = true) → (stagedAt s).1 % 64 = 0 → inSram (stagedAt s).1 32 = true →
      readMem s 0 1 (stagedAt s).1 32 = (s1, { bytes := bs }) →
      Answers .fuseKey s fun t => sget [] t.sage.keys k = bs ∧ (∀ j, j ≠ k → sget [] t.sage.keys j = sget [] s.sage.keys j)) ∧
    (∀ i : Instr, (i = .program ∧ s.glb.dev = .draining) ∨ ((i = .reboot ∨ i = .bootStaged) ∧ hostWrites s = true ∧ s.glb.dev ≠ .hold) ∨
        ((i = .raiseFloor ∨ i = .revokeKey ∨ i = .signedOnly) ∧ hostWrites s = true ∧ s.glb.dev ≠ .running) ∨
        (i = .fuseKey ∧ s.glb.dev = .draining) →
      Answers i s fun t => regField t (mgtReg 0x8030) 15 8 = 0x11 ∧ regBit t (mgtReg 0x8030) 16 = true ∧ t.sage.keys = s.sage.keys ∧
        t.sage.flash = s.sage.flash ∧ t = { s with sage := t.sage, regs := t.regs, hif := t.hif })

/-- R370: a driver declaration that passes sets ACCEPTED and the driver's level and moves nothing; one that fails clears ACCEPTED, sets REFUSED
and leads to HOLD with its reason: at once from STRUCTURED, through DRAINING from RUNNING, and by replacing the reason in HOLD. -/
def Obligations.DriverDeclaration : Prop :=
  ∀ s : State, s.hosted →
    (declareCheck s = none →
      Answers .declare s fun t => driverOk t = true ∧ regField t (mgtReg 0x8014) 31 16 = (driverComp s).provides ∧
        t = { s with regs := t.regs, hif := t.hif }) ∧
    (∀ r, declareCheck s = some r →
      (s.glb.dev = .hold → Answers .declare s fun t => driverOk t = false ∧ regBit t (mgtReg 0x8050) 2 = true ∧
        t.glb = { s.glb with reason := r } ∧ t.queues = s.queues ∧ t.mem = s.mem) ∧
      (s.glb.dev = .structured → Answers .declare s fun t => driverOk t = false ∧ t.glb.dev = .hold ∧ t.glb.reason = r ∧
        t.queues = s.queues ∧ t.mem = s.mem) ∧
      (s.glb.dev = .running → s.queues = [] → s.rxus = [] →
        Answers .declare s fun t => driverOk t = false ∧ t.glb.dev = .draining ∧ t.glb.reason = r ∧ t.glb.targetReset = false ∧
          t.mem = s.mem) ∧
      (s.glb.dev = .draining → Answers .declare s fun t => driverOk t = false ∧
        t.glb = (if s.glb.targetReset then s.glb else { s.glb with reason := r, startPending := false }) ∧ t.queues = s.queues))

/-- R8, R277, R298, R406: a read of a register that clears on reading answers its value and leaves 0, and a read of a host channel's word takes the
word; a read of the low half of a latched 64-bit value answers it and latches the high half; an access that is not aligned is refused. A write of QUANTUM to the scheduling register of a queue sets it, a write of 0 is ignored. -/
def Obligations.RegisterAccesses : Prop :=
  ∀ s : State, s.rested → hostReads s = true →
    (∀ off, bar0Offset off = true → rcReg off = true →
      Answers (.rcCounterRead off) s fun t => t.busData = toLe 4 (BitVec.ofNat 32 (regView s off)).toNat ∧ regGet t off = 0 ∧
        (∀ o, o ≠ off → regGet t o = regGet s o) ∧ t = { s with busData := t.busData, busEp := false, regs := t.regs, hif := t.hif }) ∧
    (∀ k : Fin 0x40, chanExists s k.val 0 = true → Answers (.rcCounterRead (0x120048 + 0x100 * k.val)) s fun t =>
      t.busData = toLe 4 (((chan s k.val 0).word.getD 0).toNat) ∧ (chan t k.val 0).word = none ∧ (chan t k.val 0).queue = (chan s k.val 0).queue ∧
      (∀ x, x ≠ chanKey k.val 0 → sget ({} : Chan) t.chans x = sget ({} : Chan) s.chans x) ∧
      t = { s with busData := t.busData, busEp := false, chans := t.chans, hif := t.hif }) ∧
    (∀ off v, ∀ i ∈ [Instr.rcCounterRead off, .latchingRead off, .registerWrite off v], off < 0x2000000 → off % 4 ≠ 0 →
      Answers i s fun t => regBit t (hifReg 4) 0 = true ∧ t.glb = s.glb ∧ t.queues = s.queues ∧ t.mem = s.mem ∧
        (∀ o, o ≠ hifReg 4 → regGet t o = regGet s o)) ∧
    (∀ f : Fin 4096, Answers (.latchingRead (0x400000 + 16 * f.val)) s fun t =>
      t.busData = toLe 4 (fence s f.val).value.toNat ∧
      regGet t (0x400004 + 16 * f.val) = BitVec.ofNat 32 ((fence s f.val).value.toNat / 2 ^ 32) ∧
      (∀ o, o ≠ 0x400004 + 16 * f.val → regGet t o = regGet s o) ∧
      t = { s with busData := t.busData, busEp := false, regs := t.regs, hif := t.hif }) ∧
    (∀ (q : QIx) (v : Word), hostWrites s = true →
      (v.toNat % 2 ^ 16 ≠ 0 → Answers (.registerWrite (qfeReg q.val 0x30) v) s fun t => regGet t (qfeReg q.val 0x30) = v &&& 0xFFFF ∧
        (∀ o, o ≠ qfeReg q.val 0x30 → regGet t o = regGet s o) ∧ t = { s with regs := t.regs, hif := t.hif }) ∧
      (v.toNat % 2 ^ 16 = 0 → exec (.registerWrite (qfeReg q.val 0x30) v) s = .next s))

/-- R409: a BAR4 read of device memory returns the bytes that lie there, a write stores its bytes there and nowhere else (over quads without stored errors); outside STRUCTURED, RUNNING and DRAINING it returns zeros and writes
nothing, and a request to BAR0 or BAR2 that is refused sets BAD_SIZE and changes no memory. Every access keeps the memories canonical. -/
def Obligations.BarAccesses : Prop :=
  ∀ s : State, s.rested →
    (∀ off len, 0 < len → off + len ≤ s.hif.bar4Size → bar4Served s = true → s.quads = [] → bar4Base s + off + len ≤ 2 ^ 63 →
      mapped s (bar4Base s + off) len = true →
      exec (.bar4Access (.read off len)) s = .next (finish s { s with
        busData := (List.range len).map fun k => mget s.mem (bar4Base s + off + k), busEp := false })) ∧
    (∀ off (data : List (Byte × Bool)), data ≠ [] → data.all (·.2) = true → off + data.length ≤ s.hif.bar4Size → bar4Served s = true →
      s.quads = [] → bar4Base s + off + data.length ≤ 2 ^ 63 → mapped s (bar4Base s + off) data.length = true →
      Answers (.bar4Access (.write off data false)) s fun t =>
        (∀ k, (h : k < data.length) → mget t.mem (bar4Base s + off + k) = data[k].1) ∧
        (∀ a, a < bar4Base s + off ∨ bar4Base s + off + data.length ≤ a → mget t.mem a = mget s.mem a) ∧
        t = { s with mem := t.mem, hif := t.hif }) ∧
    (∀ off len, 0 < len → off + len ≤ s.hif.bar4Size → bar4Served s = false → s.glb.dev ≠ .off →
      exec (.bar4Access (.read off len)) s = .next (finish s { s with busData := List.replicate len 0, busEp := false })) ∧
    (∀ off data p, data ≠ [] → bar4Served s = false → exec (.bar4Access (.write off data p)) s = .next s) ∧
    (∀ i t, (∃ a, i = .bar4Access a) → s.canonical → exec i s = .next t → t.canonical) ∧
    (s.glb.dev ≠ .off → s.glb.dev ≠ .reset →
      exec (.barRequestRefused false) s = .next (finish s (regOr s (hifReg 4) 1)) ∧
      Answers (.barRequestRefused true) s fun t => regBit t (hifReg 4) 0 = true ∧ t.freeTick = s.freeTick + 1 ∧ t.mem = s.mem ∧
        t.busData = toLe 4 (Config.failedRead s.freeTick).toNat)

/-- R410: a conventional reset returns the table, the masks, the mapping and Bus Master Enable to their reset values and leaves the device; Bus Master Enable
or D3hot blocks the requests to the host. R412: an invalidation drops the translations of its pages for its PASID and no other. R413: a read completion
with EP, or a completion timeout, poisons every quad it should have returned and sets CPL_ERR. -/
def Obligations.PcieEvents : Prop :=
  (∀ s : State, s.rested →
     (Answers .pcieConventionalReset s fun t => t.hif.table = [] ∧ t.hif.bme = ({} : Hif).bme ∧ t.hif.ats = ({} : Hif).ats ∧
       t.hif.cache = [] ∧ t.glb = s.glb ∧ t.regs = s.regs ∧ t.mem = s.mem ∧ t.queues = s.queues ∧ t = { s with hif := t.hif }) ∧
     (exec (.busMasterClear false) s = .next { s with hif := { s.hif with bme := false } }) ∧
     (exec (.busMasterClear true) s = .next { s with hif := { s.hif with d3hot := true } }) ∧
     (s.hif.d3hot = false → Answers (.busMasterResume false) s fun t => hostBlocked t = false ∧
       (s.hif.funcMask = false → ∀ v, v ∈ t.hif.pba ↔ v ∈ s.hif.pba ∧ (sget ({} : MsixEntry) s.hif.table v).masked = true) ∧
       t = { s with hif := t.hif }) ∧
     (s.hif.bme = true → Answers (.busMasterResume true) s fun t => hostBlocked t = false ∧ t = { s with hif := t.hif })) ∧
  (∀ s : State, s.rested →
     (∀ r : AtsRange, 0 < r.count → Answers (.atsInvalidation r) s fun t =>
       (∀ e, e ∈ t.hif.cache ↔ e ∈ s.hif.cache ∧ ¬(e.pasid = r.pasid.map (·.toNat) ∧ r.page.toNat ≤ e.page ∧ e.page < r.page.toNat + r.count)) ∧
       t = { s with hif := { s.hif with cache := t.hif.cache } }) ∧
     (∀ r : AtsReply, (s.hif.asked.any fun e => e.pasid == r.pasid.map (·.toNat) && e.page == r.page.toNat) = true →
       s.hif.cache.length < Config.atsEntries →
       Answers (.atsTranslationCompletion r) s fun t =>
         { pasid := r.pasid.map (·.toNat), page := r.page.toNat, grant := r.grant.map fun g => (g.1.toNat, g.2.1, g.2.2) } ∈ t.hif.cache ∧
         (t.hif.asked.any fun e => e.pasid == r.pasid.map (·.toNat) && e.page == r.page.toNat) = false ∧ t = { s with hif := t.hif }) ∧
     (∀ r : HostRead, 0 < r.quads → s.glb.dev ≠ .off → s.glb.dev ≠ .reset →
       (r.ep = true → Answers (.hostReadCompletion r) s fun t => (∀ k, k < r.quads → r.addr.toNat / 16 * 16 + 16 * k ∈ t.hostPoison) ∧
         (∀ b, b ∈ s.hostPoison → b ∈ t.hostPoison) ∧ regBit t (hifReg 4) 3 = true ∧
         t = { s with hostPoison := t.hostPoison, regs := t.regs, hif := t.hif }) ∧
       (r.ep = false → Answers (.hostReadCompletion r) s fun t => (∀ k, k < r.quads → r.addr.toNat / 16 * 16 + 16 * k ∉ t.hostPoison) ∧
         t = { s with hostPoison := t.hostPoison, hif := t.hif })) ∧
     (∀ (a : BitVec 63) (n : Nat), 0 < n → s.glb.dev ≠ .off → s.glb.dev ≠ .reset →
       Answers (.completionTimeout a n) s fun t => (∀ k, k < n → a.toNat / 16 * 16 + 16 * k ∈ t.hostPoison) ∧ regBit t (hifReg 4) 3 = true ∧
         t = { s with hostPoison := t.hostPoison, regs := t.regs, hif := t.hif }))

/-- R390: a budget outside 240 to 740 is ignored; a raise, with no clamp and no gain owed, sets EFFECTIVE to TARGET at once and the difference
enters the pool; a cut retires tokens from the pool at once, as many as it needs and the pool holds. -/
def Obligations.BudgetWrites : Prop :=
  ∀ (s : State) (v : Word), s.hosted →
    (v.toNat % 1024 < 240 ∨ 740 < v.toNat % 1024 → exec (.targetWrite v) s = .next s) ∧
    (240 ≤ v.toNat % 1024 → v.toNat % 1024 ≤ 740 → minBudget s ≤ v.toNat % 1024 → s.pwr.clampTo = none → s.pwr.rxOwed = 0 →
      s.pwr.leakOwed = 0 →
      (s.pwr.effective ≤ v.toNat % 1024 →
        Answers (.targetWrite v) s fun t => regField t (pwrReg 0) 9 0 = v.toNat % 1024 ∧ t.pwr.effective = v.toNat % 1024 ∧
          t.pwr.pool = s.pwr.pool + (v.toNat % 1024 - s.pwr.effective) ∧ t.pwr.held = s.pwr.held ∧
          t = { s with pwr := t.pwr, regs := t.regs, sage := t.sage, hif := t.hif }) ∧
      (v.toNat % 1024 < s.pwr.effective →
        Answers (.targetWrite v) s fun t => t.pwr.pool = s.pwr.pool - min s.pwr.pool (s.pwr.effective - v.toNat % 1024) ∧
          t.pwr.effective = s.pwr.effective - min s.pwr.pool (s.pwr.effective - v.toNat % 1024) ∧ t.pwr.held = s.pwr.held))

/-- R176, R332, R316: a gain control word is stored as written, but for a class above 2 or a window outside 4 to 10, which is ignored; a retrain
request on a port in operation shuts it down; a change of a model entry outside an open reduction writes its fields. -/
def Obligations.GainRetrainAndModelWrites : Prop :=
  ∀ s : State, s.hosted →
    (∀ (u : UIx) (l : LIx) (v : Word), unitOn s u.val = false ∨ (stream s u.val l.val).agc.cls ≠ 2 → v.toNat % 4 ≤ 2 → 4 ≤ fieldOf v.toNat 5 2 → fieldOf v.toNat 5 2 ≤ 10 →
      exec (.manualGainWrite u l false v) s = .next (finish s (regSet s (agcReg u.val l.val 0) (v &&& 0x3FFFFFF)))) ∧
    (∀ (u : UIx) (l : LIx) (v : Word), unitOn s u.val = false ∨ (stream s u.val l.val).agc.cls ≠ 2 → fieldOf v.toNat 7 0 ≤ fieldOf v.toNat 15 8 →
      exec (.manualGainWrite u l true v) s = .next (finish s (regSet s (agcReg u.val l.val 0xC) v))) ∧
    (∀ (u : UIx) (l : LIx) (v : Word), v.toNat % 4 = 3 ∨ fieldOf v.toNat 5 2 < 4 ∨ 10 < fieldOf v.toNat 5 2 →
      exec (.manualGainWrite u l false v) s = .next s) ∧
    (∀ p : PIx, (uport s p.val).st = 2 → (uport s p.val).en.disabling = false →
      Answers (.retrain p) s fun t =>
        uport t p.val = { uport s p.val with en := { (uport s p.val).en with disabling := true }, retrain := true } ∧
        (∀ k, p.val ≠ k → uport t k = uport s k) ∧ t = { s with utr := t.utr, hif := t.hif }) ∧
    (∀ (n : MIx) (w : Word), s.glb.topo = 0 → reduceOpen s (regNat s (utrCom (0x1000 + 32 * n.val))) = false →
      Answers (.modelReadyWrite n w) s fun t =>
        regBit t (utrCom (0x1000 + 32 * n.val + 4)) 31 = bitOf w.toNat 31 ∧
        (∀ hi lo, lo ≤ hi → hi < 20 →
          regField t (utrCom (0x1000 + 32 * n.val + 4)) hi lo = fieldOf w.toNat hi lo) ∧
        t = { s with regs := t.regs, hif := t.hif })

/-! ## Mailboxes and Sage -/

/-- The end of a command on a channel: the waits it ends look again (R285), and the messages for peers' hosts move where they can (R300). -/
def mailNext (s u : State) (snd rcv : EndPt) : Host.Outcome State Fault Refusal :=
  .next (finish s (settle s (utrPump (mailEvent s u snd.toNat rcv.toNat))))

/-- The state with one channel replaced. -/
def withChan (s : State) (snd rcv : EndPt) (c : Chan) : State := { s with chans := sset s.chans (chanKey snd.toNat rcv.toNat) c }

/-- R295 to R298, R300: GO, the commit of a block, WITHDRAW, TAKE, and a word sent and read, on every channel that exists; the host of a peer learns
that its block or word was taken, and while no peer can be reached, what was committed for one stays in its channel. -/
def Obligations.MailboxRows : Prop :=
  ∀ (s : State) (snd rcv : EndPt), s.rested → channelExists snd rcv = true → chanExists s snd.toNat rcv.toNat = true →
    (endpointActs s snd.toNat rcv.toNat = true →
      ((chan s snd.toNat rcv.toNat).go = false →
        exec (.go snd rcv) s = mailNext s (withChan s snd rcv { chan s snd.toNat rcv.toNat with go := true, withdrawn := false }) snd rcv) ∧
      ((chan s snd.toNat rcv.toNat).go = true →
        exec (.go snd rcv) s = mailNext s s snd rcv ∧
        exec (.withdraw snd rcv) s =
          mailNext s (withChan s snd rcv { chan s snd.toNat rcv.toNat with go := false, withdrawn := true }) snd rcv) ∧
      (∀ w, (chan s snd.toNat rcv.toNat).word = none →
        exec (.mbxWordSend snd rcv w) s = mailNext s (withChan s snd rcv { chan s snd.toNat rcv.toNat with word := some w }) snd rcv) ∧
      (∀ w, (chan s snd.toNat rcv.toNat).word ≠ none →
        exec (.mbxWordSend snd rcv w) s =
          mailNext s (withChan s snd rcv { chan s snd.toNat rcv.toNat with ovTx := true, ovRx := true }) snd rcv)) ∧
    (sageServes s = true → (chan s snd.toNat rcv.toNat).go = true → (chan s snd.toNat rcv.toNat).queue.length < 4 →
      let u := withChan s snd rcv { chan s snd.toNat rcv.toNat with
        go := false, queue := (chan s snd.toNat rcv.toNat).queue ++ [chanBlock (chan s snd.toNat rcv.toNat)] }
      exec (.mbxBlockCommit snd rcv) s = mailNext s u snd rcv ∧
      (0x40 ≤ rcv.toNat → (∀ k, peerReady s k = false) → (s.utr.ports.all fun x => x.2.rx.all fun y => y.2.isEmpty) = true →
        (s.utr.rqs.any fun x => !x.2.skips.isEmpty) = false → exec (.mbxBlockCommit snd rcv) s = .next (finish s u))) ∧
    (sageServes s = true → 4 ≤ (chan s snd.toNat rcv.toNat).queue.length →
      exec (.mbxBlockCommit snd rcv) s = mailNext s s snd rcv) ∧
    (endpointActs s rcv.toNat snd.toNat = true →
      (∀ b bs, (chan s snd.toNat rcv.toNat).queue = b :: bs →
        let u := withChan s snd rcv { chan s snd.toNat rcv.toNat with queue := bs }
        exec (.take snd rcv) s = mailNext s (if 0x40 ≤ snd.toNat then sendReceipt u (snd.toNat - 0x40) 1 else u) snd rcv) ∧
      (∀ w, (chan s snd.toNat rcv.toNat).word = some w →
        let u := withChan { s with busData := toLe 4 w.toNat } snd rcv { chan s snd.toNat rcv.toNat with word := none }
        exec (.mbxWordRead snd rcv) s = mailNext s (if 0x40 ≤ snd.toNat then sendReceipt u (snd.toNat - 0x40) 2 else u) snd rcv) ∧
      ((chan s snd.toNat rcv.toNat).word = none →
        exec (.mbxWordRead snd rcv) s = mailNext s { s with busData := toLe 4 0 } snd rcv))

/-- Sage has taken the oldest request and answered it: the answer's word 0 repeats OP and TAG with STATUS in [23:16], unused words are 0. -/
def sageAnswered (s t : State) (w0 : Word) (status : Nat) (data : List Word) : Prop :=
  (chan t 0 1).queue = (chan s 0 1).queue.drop 1 ∧
  (chan t 1 0).queue = (chan s 1 0).queue ++
    [BitVec.ofNat 32 (w0.toNat % 2 ^ 16 + status * 2 ^ 16) :: (data ++ List.replicate (15 - data.length) 0)]

/-- R401: what Sage answers to each request it takes, while its own channel has room. -/
def Obligations.SageRequests : Prop :=
  ∀ (s : State) (b : List Word), s.rested → sageServes s = true → (chan s 0 1).queue.head? = some b → (chan s 1 0).go = false →
    (chan s 1 0).queue.length < 4 → (nth (0 : Word) b 0).toNat / 2 ^ 16 = 0 →
    ((nth (0 : Word) b 0).toNat % 256 = 1 → Answers .sensors s fun t => sageAnswered s t (nth (0 : Word) b 0) 0 (sensorWords s) ∧
      t = { s with chans := t.chans, hif := t.hif }) ∧
    ((nth (0 : Word) b 0).toNat % 256 = 2 →
      (∀ e, logFrom s.sage.log (nth (0 : Word) b 1).toNat = some e →
        Answers .logRead s fun t => sageAnswered s t (nth (0 : Word) b 0) 0 (wordsOf (logBytes e)) ∧ t = { s with chans := t.chans, hif := t.hif }) ∧
      (logFrom s.sage.log (nth (0 : Word) b 1).toNat = none →
        Answers .logRead s fun t => sageAnswered s t (nth (0 : Word) b 0) 3 [] ∧ t = { s with chans := t.chans, hif := t.hif })) ∧
    ((nth (0 : Word) b 0).toNat % 256 = 3 →
      ((nth (0 : Word) b 1).toNat % 32 = 0 ∧ (nth (0 : Word) b 1).toNat < 256 →
        Answers .stateRead s fun t =>
          sageAnswered s t (nth (0 : Word) b 0) 0 (wordsOf (sub (recBytes s.sage.cur) (nth (0 : Word) b 1).toNat 32)) ∧
          t = { s with chans := t.chans, hif := t.hif }) ∧
      ((nth (0 : Word) b 1).toNat % 32 ≠ 0 ∨ 256 ≤ (nth (0 : Word) b 1).toNat →
        Answers .stateRead s fun t => sageAnswered s t (nth (0 : Word) b 0) 2 [] ∧ t = { s with chans := t.chans, hif := t.hif })) ∧
    ((nth (0 : Word) b 0).toNat % 256 = 4 →
      Answers .logMark s fun t => sageAnswered s t (nth (0 : Word) b 0) 0 [BitVec.ofNat 32 (s.sage.logSeq + 1)] ∧
        t.sage.logSeq = s.sage.logSeq + 1 ∧ (∃ e, e ∈ t.sage.log ∧ e.seq = s.sage.logSeq + 1 ∧ e.code = 0x60) ∧
        t = { s with chans := t.chans, sage := t.sage, hif := t.hif }) ∧
    ((nth (0 : Word) b 0).toNat % 256 = 0 ∨ 4 < (nth (0 : Word) b 0).toNat % 256 →
      Answers .sensors s fun t => sageAnswered s t (nth (0 : Word) b 0) 1 [] ∧ t = { s with chans := t.chans, hif := t.hif })

/-! ## Memory integrity -/

/-- R345, R346: a stripe of LPDDR5X is read quad by quad and left without a CE or UE, and the scrubber moves on; a quad of any on-chip store that holds
no error stays, a CE is corrected in place and counted, a UE becomes the poisoned code word (R343), which in Sage's and the start-up SRAM leads to FAULT
(R344), and an AE is only counted. R352: a retest of a withdrawn array begins the test, and its end makes the array EMPTY or leaves it WITHDRAWN with the class the test gives. -/
def Obligations.ScrubbingAndRetest : Prop :=
  (∀ (s : State) (n : AIx), s.rested →
     (∀ v : Word, hostWrites s = true → v.toNat % 128 = n.val → (arr s n.val).st ≠ .withdrawn ∨ (arr s n.val).retest = true →
       exec (.retest v) s = .next s) ∧
     (∀ v : Word, hostWrites s = true → v.toNat % 128 = n.val → (arr s n.val).st = .withdrawn → (arr s n.val).retest = false →
       exec (.retest v) s = .next (finish s { s with arrays := sset s.arrays n.val { arr s n.val with retest := true, checking := true } })) ∧
     (∀ o : TestOutcome, corePowered s = true → s.glb.dev ≠ .fault → (arr s n.val).retest = true →
       (o.cellFail = true ∨ o.logicFail = true →
         Answers (.retestDone n o) s fun t =>
           arr t n.val = { arr s n.val with retest := false, checking := false, cls := if o.cellFail then 1 else 3 } ∧
           (∀ k, n.val ≠ k → arr t k = arr s k) ∧ t = { s with arrays := t.arrays, sage := t.sage, regs := t.regs, hif := t.hif }) ∧
       (o.cellFail = false → o.logicFail = false →
         Answers (.retestDone n o) s fun t => arr t n.val = {} ∧ bitOf t.sage.cur.wdraw n.val = false ∧ t.sage.cur.gen = s.sage.cur.gen + 1 ∧
           (∀ k, n.val ≠ k → arr t k = arr s k) ∧ t = { s with arrays := t.arrays, sage := t.sage, regs := t.regs, hif := t.hif }))) ∧
  (∀ s : State, s.powered →
     (regBit s (memReg 0x10) 0 = false ∨ usable s / (16 * 384) = 0 ∨ tokensSpare s 2 = false → exec .lpddrScrubStripe s = .next s) ∧
     (regBit s (memReg 0x10) 0 = true → tokensSpare s 2 = true → usable s / (16 * 384) ≠ 0 →
       let n := usable s / (16 * 384)
       let k := s.scrubAt % (16 * n)
       let base := (16 * (k % n) + k / n) * 24
       (s.quads = [] → k + 1 ≠ 16 * n → exec .lpddrScrubStripe s = .next (finish s { s with scrubAt := k + 1 })) ∧
       (s.quads = [] → k + 1 = 16 * n → exec .lpddrScrubStripe s = .next (finish s (regAdd { s with scrubAt := 0 } (memReg 0x14) 1))) ∧
       Answers .lpddrScrubStripe s fun t => t.scrubAt = (k + 1) % (16 * n) ∧
         (∀ i, i < 24 → scrubClass t 0 (base + i) = .clean ∨ scrubClass t 0 (base + i) = .poisoned ∨ scrubClass t 0 (base + i) = .ae) ∧
         (∀ f, f < base ∨ base + 24 ≤ f → quadState t 0 f = quadState s 0 f) ∧
         (∀ a, a < 16 * base ∨ 16 * (base + 24) ≤ a → mget t.mem a = mget s.mem a) ∧
         t.queues = s.queues ∧ t.arrays = s.arrays ∧ t.hedges = s.hedges)) ∧
  (∀ (s : State) (k : Fin 14) (f : BitVec 59), s.powered → scrubbedStore k = true → regBit s (memReg 0x10) 6 = true →
     (k.val ≤ 3 → ∃ e, storeOf s (16 * f.toNat) = some (k.val, e)) → (3 < k.val → f.toNat / 2 ^ 54 = k.val - 3) →
     (∀ x, k.val = 9 → localQuad f.toNat = some x → exec (.sramScrubQuad ⟨k, f⟩) s = .next (finish s (localScrub s x.1 x.2))) ∧
     ((k.val = 9 → localQuad f.toNat = none) →
       (scrubClass s k.val f.toNat = .clean ∨ scrubClass s k.val f.toNat = .poisoned → exec (.sramScrubQuad ⟨k, f⟩) s = .next s) ∧
       (∀ p, scrubClass s k.val f.toNat = .ce p → exec (.sramScrubQuad ⟨k, f⟩) s = .next (finish s
         (setQuad (putQuadData (countCe s k.val) k.val f.toNat
           (if p then 0 else quadData s k.val f.toNat ^^^ (residualOf (quadState s k.val f.toNat) / 2 ^ 18 % 2 ^ 128)))
           k.val f.toNat { poison := p }))) ∧
       (scrubClass s k.val f.toNat = .ue →
         Answers (.sramScrubQuad ⟨k, f⟩) s fun t => quadState t k.val f.toNat = { poison := true } ∧
           (k.val ≤ 3 → (∀ j, j < 16 → mget t.mem (16 * f.toNat + j) = 0) ∧
             (∀ a, a < 16 * f.toNat ∨ 16 * f.toNat + 16 ≤ a → mget t.mem a = mget s.mem a)) ∧
           (3 < k.val → t.mem = s.mem) ∧ (k.val = 10 ∨ k.val = 11 → t.glb.dev = .fault) ∧ (k.val < 10 → t.glb = s.glb)) ∧
       (scrubClass s k.val f.toNat = .ae → exec (.sramScrubQuad ⟨k, f⟩) s = .next (finish s (countAe s k.val 0xFF (16 * f.toNat))))))

/-- R347, R349, R350, R351: an array's scrubber marks an item with an error for rewriting, the rewrite takes it off the list, a check without an
error starts the pattern test, one that corrects everything makes the array READY with class STORAGE, and a test that fails withdraws it. -/
def Obligations.ArrayIntegrity : Prop :=
  ∀ (s : State) (n : AIx), s.powered →
    (∀ w : ArrItem, regBit s (memReg 0x10) 7 = true → (arr s n.val).st ≠ .loading → (arr s n.val).st ≠ .withdrawn →
      (arr s n.val).checking = false →
      (((arrFaults s n.val).filter fun x => itemOf x.1 x.2 == w) = [] → exec (.arrayScrubRead n w) s = .next s) ∧
      ((arrScrub 0xFF n.val s ((arrFaults s n.val).filter fun x => itemOf x.1 x.2 == w)).2 ≠ [] → (arr s n.val).img ≠ none →
        w ∉ (arr s n.val).rewrites →
        Answers (.arrayScrubRead n w) s fun t => arr t n.val = { arr s n.val with rewrites := (arr s n.val).rewrites ++ [w] } ∧
          (∀ k, n.val ≠ k → arr t k = arr s k) ∧ t.mem = s.mem ∧ t.queues = s.queues)) ∧
    (∀ w rest, (arr s n.val).rewrites = w :: rest → searching s n.val = false → (arr s n.val).st = .ready → tokensSpare s 1 = true →
      (rewriteItem s n.val w).1.hostWait = false →
      Answers (.arrayRowRewrite n) s fun t => (arr t n.val).rewrites = rest ∧ t.queues = s.queues ∧ t.fences = s.fences) ∧
    ((arr s n.val).checking = true → (arr s n.val).testing = false → (arr s n.val).retest = false →
      (arrFaults s n.val = [] →
        exec (.arrayCheck n) s = .next (finish s { s with arrays := sset s.arrays n.val { arr s n.val with testing := true } })) ∧
      (let r := arrScrub 0xFE n.val s (arrFaults s n.val)
       let w := rewriteAll n.val r.1 r.2
       let back := arrScrub 0xFE n.val w.1 ((arrFaults w.1 n.val).filter fun x => r.2.contains (itemOf x.1 x.2))
       r.2 ≠ [] → w.2 = true → back.2 = [] → back.1.hostWait = false →
         Answers (.arrayCheck n) s fun t => (arr t n.val).st = .ready ∧ (arr t n.val).cls = 1 ∧ (arr t n.val).checking = false ∧
           (arr t n.val).testing = (arr back.1 n.val).testing)) ∧
    (∀ o : TestOutcome, (arr s n.val).testing = true → claimedBy s n.val = none →
      (o.cellFail = true ∨ o.logicFail = true →
        Answers (.arrayTestDone n o) s fun t => (arr t n.val).st = .withdrawn ∧ (arr t n.val).img = none ∧
          (arr t n.val).cls = (if o.cellFail then 1 else 3) ∧ bitOf t.sage.cur.wdraw n.val = true ∧ regBit t (memReg 0x20) 4 = true ∧
          (∀ k, n.val ≠ k → arr t k = arr s k) ∧ t = { s with arrays := t.arrays, regs := t.regs, sage := t.sage, hif := t.hif }) ∧
      (o.cellFail = false → o.logicFail = false → (arr s n.val).home = none → (arr s n.val).held = none →
        Answers (.arrayTestDone n o) s fun t => (arr t n.val).st = .empty ∧ (arr t n.val).img = none ∧ (arr t n.val).testing = false ∧
          t = { s with arrays := t.arrays, hif := t.hif }))

/-! ## Ethernet -/

/-- R417 to R421, R424: a frame that passes the filter waits in the buffer, its records enter its queue's ring when that has room for all of them and no earlier frame for the queue waits on any port,
a frame with a bad length or check sequence is counted and dropped, and a link that returns or goes down. -/
def Obligations.EthernetRows : Prop :=
  ∀ (s : State) (m : EIx), s.rested → served s = true →
    (∀ f : List Byte, (mac s m.val).en.en = true → (mac s m.val).link = true →
      (f.length < 64 ∨ maxFrame s m.val < f.length ∨ fcsOk f = false →
        exec (.ethFrameReceived m f) s = .next (finish s (regCount s (macReg m.val 0x48) 1))) ∧
      (64 ≤ f.length → f.length ≤ maxFrame s m.val → fcsOk f = true → filterFrame s m.val (f.take (f.length - 4)) = none →
        exec (.ethFrameReceived m f) s = .next (finish s (regCount s (macReg m.val 0x4C) 1))) ∧
      (∀ p q rs, 64 ≤ f.length → f.length ≤ maxFrame s m.val → fcsOk f = true →
        filterFrame s m.val (f.take (f.length - 4)) = some p → recordsOf s m.val p = some (q, rs) → ingestOk s q = true →
        (((mac s m.val).rx.map (·.size)).sum + f.length ≤ 262144 →
          exec (.ethFrameReceived m f) s = .next (finish s { s with macs := sset s.macs m.val { mac s m.val with
            rx := (mac s m.val).rx ++ [{ q := q, recs := rs, size := f.length, stamp := framesAccepted s }],
            accepted := (mac s m.val).accepted + 1 } })) ∧
        (262144 < ((mac s m.val).rx.map (·.size)).sum + f.length →
          Answers (.ethFrameReceived m f) s fun t => regBit t (macReg m.val 4) 9 = true ∧ t = { s with regs := t.regs, hif := t.hif }))) ∧
    (∀ f : List Byte, (mac s m.val).en.en = false ∨ (mac s m.val).link = false → exec (.ethFrameReceived m f) s = .next s) ∧
    (∀ f rest, (mac s m.val).rx = f :: rest → (mac s m.val).en.disabling = false →
      (ingestOk s f.q = false → Answers (.frameRingAdmit m) s fun t => (mac t m.val).rx = rest ∧ t.queues = s.queues ∧ t.mem = s.mem) ∧
      (ingestOk s f.q = true → f.recs.length ≤ ringRoom s f.q → frameAhead s f = false → ringBase s f.q + ringSlots s f.q * recStride s f.q < 2 ^ 63 →
        Answers (.frameRingAdmit m) s fun t => (mac t m.val).rx = rest ∧
          (queue t f.q).pi = (queue s f.q).pi + BitVec.ofNat 32 f.recs.length ∧ (queue t f.q).pend = true ∧
          (∀ r, f.q ≠ r → queue t r = queue s r)) ∧
      (∀ r, f.recs = [r] → ingestOk s f.q = true → 1 ≤ ringRoom s f.q → frameAhead s f = false → r.length = recStride s f.q → s.quads = [] →
        ringBase s f.q + ringSlots s f.q * recStride s f.q < 2 ^ 63 → 16 ≤ r.length →
        mapped s (ringBase s f.q + (queue s f.q).pi.toNat % ringSlots s f.q * recStride s f.q) r.length = true →
        Answers (.frameRingAdmit m) s fun t =>
          (∀ j, (h : j < r.length) → mget t.mem (ringBase s f.q + (queue s f.q).pi.toNat % ringSlots s f.q * recStride s f.q + j) =
            if j = 14 then BitVec.ofNat 8 (1 + m.val) else r[j]) ∧
          (∀ a, a < ringBase s f.q + (queue s f.q).pi.toNat % ringSlots s f.q * recStride s f.q ∨
              ringBase s f.q + (queue s f.q).pi.toNat % ringSlots s f.q * recStride s f.q + r.length ≤ a → mget t.mem a = mget s.mem a)) ∧
      (ingestOk s f.q = true → ringRoom s f.q < f.recs.length ∨ frameAhead s f = true → exec (.frameRingAdmit m) s = .next s)) ∧
    ((mac s m.val).link = true → regBit s (macReg m.val 0) 7 = false →
      exec (.ethLinkDown m) s =
        .next (finish s (regOr { s with macs := sset s.macs m.val { mac s m.val with link := false } } (macReg m.val 4) 0x100))) ∧
    ((mac s m.val).tx = [] → (mac s m.val).en.disabling = false →
      exec (.ethLinkUp m) s = .next (finish s { s with macs := sset s.macs m.val { mac s m.val with link := true } }))

/-! ## Power -/

/-- R387 to R389: the head claim is granted whole where the pool meets its size, and the tokens only move from the pool to the holder; a receive-class
claim that waits goes before every other claim; a head claim the pool cannot meet waits, and with it every later one of its class. -/
def Obligations.TokenGrants : Prop :=
  ∀ s : State, s.flowing → s.pwr.brownout = false → s.pwr.regCond = false → s.pwr.leakOwed = 0 → s.pwr.rxOwed = 0 →
    ∀ c, headClaim s = some c →
      (claimSize s c.nom ≤ s.pwr.pool → Answers .tokenClaimGranted s fun t => { c with cost := claimSize s c.nom } ∈ t.pwr.held ∧
        t.pwr.pool + claimSize s c.nom = s.pwr.pool ∧ heldTokens t.pwr + t.pwr.pool = heldTokens s.pwr + s.pwr.pool ∧
        (∀ w, w ∈ t.pwr.waiting ↔ w ∈ s.pwr.waiting ∧ w.owner ≠ c.owner) ∧ t = { s with pwr := t.pwr, hif := t.hif }) ∧
      (s.pwr.pool < claimSize s c.nom → exec .tokenClaimGranted s = .next s) ∧
      ((∃ w, w ∈ s.pwr.waiting ∧ w.recv = true) → c.recv = true) ∧ (c.recv = false → s.pwr.crit = false)

/-- R383, R384, R395: a governor pass takes the measured values over, TJ being the highest sensor, and enters WARN at its threshold; a confirmed step
of VDD_CORE is followed by VDD_MATCH at no less than 600 mV; without the reference clock the pace registers read 0. -/
def Obligations.GovernorRows : Prop :=
  ∀ s : State, s.rested →
    (∀ g : Governor, corePowered s = true → g.sensors.length = 24 →
      Answers (.governorPass g) s fun t => t.pwr.sensors = g.sensors ∧ t.pwr.paceCore = g.paceCore.toNat ∧
        t.pwr.paceMatch = g.paceMatch.toNat ∧ t.pwr.vcoreMeas = g.vcore.toNat ∧ t.pwr.power = g.power ∧ t.glb.refclk = true ∧
        (∀ x, x ∈ g.sensors → signed 8 x.toNat ≤ t.pwr.tj) ∧ (∃ x, x ∈ g.sensors ∧ signed 8 x.toNat = t.pwr.tj) ∧
        ((regField s (pwrReg 0x44) 7 0 : Int) ≤ t.pwr.tj → t.pwr.warn = true) ∧
        t = { s with glb := t.glb, pwr := t.pwr, regs := t.regs, sage := t.sage, hif := t.hif }) ∧
    (∀ (mv : Nat) (r : Settle), s.pwr.avs = some (r.isMatch, mv) → r.ok = true → r.mv.toNat ≤ mv + 10 → mv ≤ r.mv.toNat + 10 →
      exec (.avsSettle r) s = .next (finish s { s with pwr :=
        (if s.pwr.vmatchSet = max 600 s.pwr.vcoreSet then { s.pwr with avs := none }
         else { s.pwr with vmatchSet := max 600 s.pwr.vcoreSet, avs := some (true, max 600 s.pwr.vcoreSet) }) })) ∧
    (∀ r : Settle, s.pwr.avs = none ∨ r.ok = false → exec (.avsSettle r) s = .next s) ∧
    (Answers .serRefclkLoss s fun t => t.glb.refclk = false ∧ t.pwr = { s.pwr with paceCore := 0, paceMatch := 0 } ∧
      regBit t (pwrReg 0x48) 4 = true ∧ t = { s with glb := t.glb, pwr := t.pwr, regs := t.regs, hif := t.hif })

/-- Tables 15-2 and 16-6, R393, R394: power and reset at the pins, the staggered start step by step, a regulator fault that stops it, the loss of a rail, and
the end of a drain. R398, R400: the thermal trip and an exception of Sage's firmware lead to FAULT, where the bypass conducts, with the cause in the state
record; the queues and the memory stay to be read. -/
def Obligations.PowerAndResetRows : Prop :=
  (∀ s : State, s.rested →
     (s.glb.dev = .off → exec .powerUp s = .next { s with glb := { s.glb with dev := .reset, railsOk := true, thermtrip := false } }) ∧
     (s.glb.dev ≠ .off → Answers .resetNAssert s fun t => t.glb.dev = .reset ∧ t.glb.resetN = false ∧ t.queues = [] ∧ t.cmds = [] ∧
       t.fences = [] ∧ t.arrays = [] ∧ t.mem = [] ∧ t.chans = [] ∧ t.host = s.host ∧ t.sage.flash = s.sage.flash ∧ t.sage.log = s.sage.log) ∧
     (s.glb.dev = .reset → s.glb.railsOk = true → s.glb.thermtrip = false →
       Answers .resetNRelease s fun t => (t.glb.dev = .boot ∨ t.glb.dev = .hold) ∧ t.glb.resetN = true ∧ t.glb.autostart = s.glb.strapAuto ∧
         t.glb.topo = s.glb.strapTopo ∧ t.glb.rank = s.glb.strapRank ∧ t.queues = s.queues ∧ t.mem = s.mem) ∧
     (s.glb.dev = .boot → s.glb.bootStep = 7 → s.pwr.stopped = false →
       (s.pwr.startStep < 13 →
         exec .staggerConfirm s = .next (finish s { s with pwr := { s.pwr with startStep := s.pwr.startStep + 1 } })) ∧
       (s.pwr.startStep = 13 → bodyOk { s with pwr := { s.pwr with startStep := 14 } } s.sage.body = true →
         memoryFits { s with pwr := { s.pwr with startStep := 14 } } s.sage.body = true → s.glb.autostart = false →
         Answers .staggerConfirm s fun t => t.glb.dev = .structured ∧ t.pleach = s.sage.body ∧ t.pwr.startStep = 14 ∧ t.queues = s.queues) ∧
       (s.pwr.startStep = 13 → bodyOk { s with pwr := { s.pwr with startStep := 14 } } s.sage.body = false →
         Answers .staggerConfirm s fun t => t.glb.dev = .hold ∧ t.glb.reason = 6) ∧
       (∀ rail st, Answers (.regulatorFault rail st) s fun t => t.pwr = { s.pwr with stopped := true } ∧ regBit t (pwrReg 0x48) 3 = true ∧
         t.glb.dev = .boot ∧ t = { s with pwr := t.pwr, regs := t.regs, sage := t.sage, hif := t.hif })) ∧
     (s.glb.dev = .boot → s.pwr.stopped = true → exec .staggerConfirm s = .next s) ∧
     (Answers .railLoss s fun t => t.glb.dev = .off ∧ t.glb.railsOk = false ∧ t.regs = [] ∧ t.queues = [] ∧ t.mem = [] ∧ t.arrays = [] ∧
       t.pwr = {} ∧ t.sage.flash = s.sage.flash ∧ t.sage.log = s.sage.log ∧ t.sage.keys = s.sage.keys ∧ t.host = s.host) ∧
     (s.glb.dev = .draining → drained1 s = true →
       (s.glb.targetReset = false → s.glb.startPending = false →
         Answers .drainComplete s fun t => t.glb.dev = .hold ∧ t.glb.reason = s.glb.reason ∧ t.queues = s.queues ∧ t.fences = s.fences ∧
           t.arrays = s.arrays ∧ t.mem = s.mem) ∧
       (s.glb.targetReset = false → s.glb.startPending = true →
         Answers .drainComplete s fun t => t.glb.dev = .running ∧ t.queues = s.queues ∧ t.mem = s.mem) ∧
       (s.glb.targetReset = true → Answers .drainComplete s fun t => t.glb.dev ≠ .running ∧ t.queues = [] ∧ t.mem = [])) ∧
     (s.glb.dev = .draining → drained1 s = false → exec .drainComplete s = .next s)) ∧
  (∀ s : State, s.rested → s.glb.dev ≠ .off → s.glb.dev ≠ .reset → s.glb.dev ≠ .fault →
     (s.glb.thermtrip = false → Answers .thermalTrip s fun t => t.glb.dev = .fault ∧ t.glb.thermtrip = true ∧ t.glb.bypassOpen = false ∧
       t.sage.cur.lastFault = 3 ∧ t.queues = s.queues ∧ t.mem = s.mem) ∧
     (∀ a b : Word, Answers (.sageException a b) s fun t => t.glb.dev = .fault ∧ t.glb.bypassOpen = false ∧ t.sage.cur.lastFault = 2 ∧
       t.queues = s.queues ∧ t.mem = s.mem))
/-! ## Command slots and the front end -/

/-- What stands behind a dispatched command of a source: refused slots at the head of its queue's window complete in turn (R234). -/
def behind (src : Src) (t : State) : State :=
  match src with
  | .queue q => flushRefused 20 t q
  | .ticket _ _ _ => t

/-- The source's next command has opcode `op`, is `c`, and its work may begin; `t` is the state with it dispatched (R234, R235, R284). -/
def ready (s t : State) (src : Src) (op : Nat) (c : Cmd) : Prop :=
  s.flowing ∧ take s src op = some (t, c) ∧ ∀ q, src = .queue q → frontBusy t c = false

/-- The command leaves the state `u`, ended as every command ends (R436, log 4). -/
def becomes (i : Instr) (s u : State) : Prop := exec i s = .next (finish s (settle s u))

/-- R233, R239 to R241: a NOP completes OK when dispatched: its completion entry stands at its slot of the completion ring and nowhere else in memory,
the queue has made progress, and the command is outstanding no longer; one of a ticket leaves its outcome. -/
def Obligations.NopCompletes : Prop :=
  (∀ (s t : State) (q : QIx) (c : Cmd), ready s t (.queue q) 0 c → findCmd t c.uid = some c → c.src = .queue q → c.sub = none →
    c.record = false → c.user = none → (queue t q.val).window = [] → (queue t q.val).st = .active → (queue t q.val).acting = .none →
    t.quads = [] → t.hostWait = false → slotIrq c.slot = false → regBit t (qfeReg q.val 0x1C) 11 = false →
    cplBase t q.val + 32 * (c.idx.toNat % ringSlots t q.val) + 32 ≤ 2 ^ 63 →
    mapped t (cplBase t q.val + 32 * (c.idx.toNat % ringSlots t q.val)) 32 = true →
    Answers (.nop (.queue q)) s fun v =>
      (∀ k, k < 32 → mget v.mem (cplBase t q.val + 32 * (c.idx.toNat % ringSlots t q.val) + k) =
        nth (0 : Byte) (toLe 8 (slotUser c.slot) ++ toLe 4 c.detail ++ toLe 2 c.flags ++ toLe 2 0 ++ toLe 4 c.idx.toNat ++ toLe 1 0 ++
          toLe 3 0 ++ toLe 2 q.val ++ toLe 6 0) k) ∧
      (∀ a, a < cplBase t q.val + 32 * (c.idx.toNat % ringSlots t q.val) ∨
          cplBase t q.val + 32 * (c.idx.toNat % ringSlots t q.val) + 32 ≤ a → mget v.mem a = mget t.mem a) ∧
      (∀ d, d ∈ v.cmds → d.uid ≠ c.uid) ∧ queue v q.val = { queue t q.val with progress := true } ∧
      (∀ r, q.val ≠ r → queue v r = queue t r) ∧ v.regs = t.regs ∧ v.fences = t.fences ∧ v.arrays = t.arrays ∧ v.hedges = t.hedges) ∧
  (∀ (s t : State) (u : UIx) (l : LIx) (n : Word) (c : Cmd), ready s t (.ticket u l n) 0 c → findCmd t c.uid = some c →
    c.src = .ticket u l n → t.hostWait = false →
    Answers (.nop (.ticket u l n)) s fun v =>
      v.ticketsReady = t.ticketsReady ++ [{ u := u.val, c := l.val, n := n, status := .ok, flags := c.flags }] ∧
      (∀ d, d ∈ v.cmds → d.uid ≠ c.uid) ∧ v.mem = t.mem ∧ v.queues = t.queues ∧ v.fences = t.fences)

/-- R253, R256, R257: a signal a queue may make settles its fence at the greater value, sets ERR with ERROR and leaves every other fence, and raises the
fence's vector only where that changed the fence; one it may not make completes with status PRIV and has no effect. -/
def Obligations.FenceSignals : Prop :=
  (∀ (s t : State) (src : Src) (c : Cmd), ready s t src 8 c →
    (mayFence t (cmdQueue t c) (opB18 c.slot) = true → becomes (.fenceSignal src) s (behind src
      (complete (signal t (opB18 c.slot) (BitVec.ofNat 64 (op10 c.slot)) (bitOf (leAt c.slot 0x1A 1) 0)) c.uid .ok))) ∧
    (mayFence t (cmdQueue t c) (opB18 c.slot) = false → becomes (.fenceSignal src) s (behind src (complete t c.uid .priv)))) ∧
  (∀ (s : State) (q f : Nat), mayFence s q f = true ↔
    q < 64 ∨ (regBit s (fnwReg f 8) 20 = true ∧ regField s (fnwReg f 8) 19 0 = regField s (qfeReg q 0x20) 19 0)) ∧
  (∀ (s : State) (f : Nat) (v : DWord) (err : Bool),
    (fence (signal s f v err) f).value = (if (fence s f).value.toNat < v.toNat then v else (fence s f).value) ∧ (fence (signal s f v err) f).err = ((fence s f).err || err) ∧
    (∀ g, f ≠ g → fence (signal s f v err) g = fence s g) ∧
    ((fence s f).value.toNat < v.toNat ∨ (err = true ∧ (fence s f).err = false) → regBit s (fnwReg f 0xC) 1 = true →
      signal s f v err = raiseVec (setFence s f { value := if (fence s f).value.toNat < v.toNat then v else (fence s f).value, err := (fence s f).err || err })
        (regField s (fnwReg f 0xC) 12 2)) ∧
    (v.toNat ≤ (fence s f).value.toNat → err = false → signal s f v err = setFence s f (fence s f)) ∧
    signal s f v err = { s with fences := (signal s f v err).fences, hif := (signal s f v err).hif })

/-- R254, R272: FENCE_WAIT completes once the value is reached, with FENCE_ERR where ERR is set at that moment and OK otherwise; until then the command
stays outstanding and no later one of its queue is dispatched; one of a queue being destroyed does not complete here; no signal clears ERR. -/
def Obligations.FenceWaits : Prop :=
  (∀ (s t : State) (src : Src) (c : Cmd), ready s t src 9 c → mayFence t (cmdQueue t c) (opB18 c.slot) = true →
    (op10 c.slot % 2 ^ 64 ≤ (fence t (opB18 c.slot)).value.toNat → (queue t (cmdQueue t c)).st ≠ .retiring →
      becomes (.fenceWait src) s (behind src (complete t c.uid (if (fence t (opB18 c.slot)).err then .fenceErr else .ok)))) ∧
    ((fence t (opB18 c.slot)).value.toNat < op10 c.slot % 2 ^ 64 ∨ (queue t (cmdQueue t c)).st = .retiring →
      becomes (.fenceWait src) s (behind src t))) ∧
  (∀ (s t : State) (src : Src) (c : Cmd), ready s t src 9 c → mayFence t (cmdQueue t c) (opB18 c.slot) = false →
    becomes (.fenceWait src) s (behind src (complete t c.uid .priv))) ∧
  (∀ (s : State) (src : Src) (c : Cmd), s.flowing → waitOf s src = some c →
    ((queue s (cmdQueue s c)).st ≠ .retiring →
      becomes (.fenceWaitSatisfied src) s (complete s c.uid (if (fence s (opB18 c.slot)).err then .fenceErr else .ok))) ∧
    ((queue s (cmdQueue s c)).st = .retiring → exec (.fenceWaitSatisfied src) s = .next s)) ∧
  (∀ (s : State) (src : Src), s.flowing → waitOf s src = none → exec (.fenceWaitSatisfied src) s = .next s) ∧
  (∀ (s : State) (q : QIx) (f : Fetched) (c : Cmd), c ∈ s.cmds → c.src = .queue q → c.op = 9 → mayDispatch s q.val f = false) ∧
  (∀ (s : State) (f g : Nat) (v : DWord) (err : Bool), (fence s f).err = true → (fence (signal s g v err) f).err = true)

/-- R237: PATCH copies its 4, 8 or 16 bytes; a range outside the apertures gives APERTURE, a poisoned source writes the destination quad poisoned and
gives INTEGRITY. -/
def Obligations.Patches : Prop :=
  ∀ (s t : State) (src : Src) (c : Cmd), ready s t src 10 c →
    (∀ t1 bs, readMem t (cmdQueue t c) 0xFC (op10 c.slot) (leAt c.slot 0x20 1) = (t1, { bytes := bs }) →
      becomes (.patch src) s (behind src (complete (writeMem t1 (cmdQueue t c) 0xFC (op18 c.slot) bs).1 c.uid
        (if (writeMem t1 (cmdQueue t c) 0xFC (op18 c.slot) bs).2 then .aperture else .ok)))) ∧
    (∀ t1 r, readMem t (cmdQueue t c) 0xFC (op10 c.slot) (leAt c.slot 0x20 1) = (t1, r) → r.ap = true →
      becomes (.patch src) s (behind src (complete t1 c.uid .aperture))) ∧
    (∀ t1 r, readMem t (cmdQueue t c) 0xFC (op10 c.slot) (leAt c.slot 0x20 1) = (t1, r) → r.ap = false → r.poison = true →
      becomes (.patch src) s (behind src (complete (writePoison 1 t1 (cmdQueue t c) (op18 c.slot / 16 * 16)).1 c.uid
        (if (writePoison 1 t1 (cmdQueue t c) (op18 c.slot / 16 * 16)).2 then .aperture else .integrity))))

/-- Device memory reads back what was written: bytes written to a mapped range of device memory without stored errors read back there, every other
byte is as before, and the memories keep their canonical form. -/
def Obligations.MemoryReadsBackWhatWasWritten : Prop :=
  ∀ (s : State) (q who a : Nat) (bs : List Byte), s.quads = [] → bs ≠ [] → a + bs.length ≤ 2 ^ 63 → mapped s a bs.length = true →
    ((writeMem s q who a bs).2 = false) ∧
    (∀ p w, (readMem (writeMem s q who a bs).1 p w a bs.length).2 = { bytes := bs }) ∧
    (∀ b, b < a ∨ a + bs.length ≤ b → mget (writeMem s q who a bs).1.mem b = mget s.mem b) ∧
    (writeMem s q who a bs).1 = { s with mem := (writeMem s q who a bs).1.mem } ∧
    (s.canonical → (writeMem s q who a bs).1.canonical)

/-- R55, R88, R233: LOAD queues a load of its image on the array of every named hedge of its binding group; STEP begins on the hedges it names, those detached
or left out noted, and writes nothing yet; hedges that the queue may not use give FORMAT. -/
def Obligations.LoadAndStepBegin : Prop :=
  (∀ (s t : State) (q : QIx) (c : Cmd), ready s t (.queue q) 1 c →
     ((maskHedges (leAt c.slot 0x20 2)).any (fun h => !bitOf (bgHedges t (queueBg t (cmdQueue t c))) h || role t h == 0) = true →
       becomes (.load q) s (behind (.queue q) (complete t c.uid .format))) ∧
     ((maskHedges (leAt c.slot 0x20 2)).any (fun h => !bitOf (bgHedges t (queueBg t (cmdQueue t c))) h || role t h == 0) = false →
       t.hostWait = false → (queue t q.val).window = [] →
       Answers (.load q) s fun v =>
         (∀ n, (arr v n).loads = (arr t n).loads ++ List.replicate
           (((maskHedges (leAt c.slot 0x20 2)).filter fun h => arrIx h (leAt c.slot 0x22 1) == n).length)
           { why := .cmd c.uid, q := cmdQueue t c, addr := BitVec.ofNat 64 (op10 c.slot), src := BitVec.ofNat 64 (op10 c.slot),
             schema := some (BitVec.ofNat 64 (op18 c.slot)) }) ∧
         v = { t with arrays := v.arrays, cmds := v.cmds, hif := v.hif })) ∧
  (∀ (s t : State) (q : QIx) (c : Cmd), ready s t (.queue q) 2 c →
     (hedgesAllowed t (cmdQueue t c) (allHedges (specOf c.slot)) = true → t.hostWait = false → (queue t q.val).window = [] →
       Answers (.step q) s fun v => v.steps = t.steps ++ [{ uid := c.uid, q := cmdQueue t c, bg := queueBg t (cmdQueue t c), spec := specOf c.slot, missing := (allHedges (specOf c.slot)).filter fun h => leftOut t (cmdQueue t c) (specOf c.slot) h }] ∧
         v = { t with steps := v.steps, hif := v.hif }) ∧
     (hedgesAllowed t (cmdQueue t c) (allHedges (specOf c.slot)) = false →
       becomes (.step q) s (behind (.queue q) (complete t c.uid .format))))

/-- R152, R154, R155: ROTATE copies its descriptor and asks for its claim behind every earlier one; a descriptor, schema or accumulation descriptor that
cannot be read ends it with the reason, and one that breaks R154 with FORMAT. -/
def Obligations.RotateClaims : Prop :=
  ∀ (s t : State) (q : QIx) (c : Cmd), ready s t (.queue q) 3 c → (queue t q.val).window = [] →
    (∀ t1 st, readStruct t (cmdReach t c) 0xFC (op10 c.slot) 64 64 = (t1, .stop st) →
      becomes (.rotate q) s (behind (.queue q) (complete t1 c.uid st))) ∧
    (∀ t1 t2 t3 b sch a, readStruct t (cmdReach t c) 0xFC (op10 c.slot) 64 64 = (t1, .ok b) →
      readSchema t1 (cmdReach t1 c) 0xFC (op18 c.slot) = (t2, .ok sch) → readStruct t2 (cmdReach t2 c) 0xFC (op20 c.slot) 32 32 = (t3, .ok a) →
      (rotDescOk t3 (cmdQueue t c) b = false → becomes (.rotate q) s (behind (.queue q) (complete t3 c.uid .format))) ∧
      (rotDescOk t3 (cmdQueue t c) b = true → sch.size ≤ rdStride b → (accdOf a).fixed = false →
        ((rotRanges b sch.size).all fun x => reaches t3 (cmdReach t3 c) x.1 x.2) = true → t3.claimsWaiting ≠ [] → t3.hostWait = false →
        (queue t3 q.val).window = [] →
        Answers (.rotate q) s fun v => v.claimsWaiting = t3.claimsWaiting ++ [c.uid] ∧
          v.rotations = t3.rotations ++ [{ uid := c.uid, q := cmdQueue t c, desc := b }] ∧
          v = { t3 with claimsWaiting := v.claimsWaiting, rotations := v.rotations, steps := v.steps, hif := v.hif }) ∧
      (rotDescOk t3 (cmdQueue t c) b = true → sch.size ≤ rdStride b → (accdOf a).fixed = false →
        ((rotRanges b sch.size).all fun x => reaches t3 (cmdReach t3 c) x.1 x.2) = true → t3.claimsWaiting = [] →
        ∃ v, becomes (.rotate q) s (behind (.queue q) (grantClaim v)) ∧ v.claimsWaiting = [c.uid] ∧
          v.rotations = t3.rotations ++ [{ uid := c.uid, q := cmdQueue t c, desc := b }] ∧
          v = { t3 with claimsWaiting := v.claimsWaiting, rotations := v.rotations, steps := v.steps }))

/-- R164 to R168: COPY joins the data mover's work where its list is aligned and its group has the data mover, else gives FORMAT; a burst that does not
end its plain descriptor moves on by up to 4 KiB; a dependence mark lets go when its fence is reached, and FENCE_ERR ends the list. -/
def Obligations.DataMoverRows : Prop :=
  (∀ (s t : State) (src : Src) (c : Cmd), ready s t src 4 c →
    (op10 c.slot % 64 = 0 ∧ bitOf (bgUnits t (queueBg t (cmdQueue t c))) 4 = true →
      becomes (.copy src) s (behind src { t with movers := t.movers ++ [{ uid := c.uid, q := cmdQueue t c, list := BitVec.ofNat 64 (op10 c.slot), count := leAt c.slot 0x18 4 }] })) ∧
    (op10 c.slot % 64 ≠ 0 ∨ bitOf (bgUnits t (queueBg t (cmdQueue t c))) 4 = false →
      becomes (.copy src) s (behind src (complete t c.uid .format)))) ∧
  (∀ (s : State) (q : Nat) (m : Mover), s.flowing → pickTurn s.moverTurn (burstQueues s) = some q →
    ((readyMoves s).find? fun m => m.q == q) = none → ((readyMovers s).find? fun m => m.q == q) = some m → findMover s m.uid = some m →
    m.checked = true → m.held = false → (sdescOf m.desc).toArray = false →
    (match findCmd s m.uid with | some c => fromTicket c | none => false) = false → noneAhead s false = true →
    claimSize s 8 ≤ s.pwr.pool → s.pwr.leakOwed = 0 → s.pwr.rxOwed = 0 → holds s ownMover = false →
    let n := min 4096 ((sdescOf m.desc).bytes - m.moved)
    (moveQuads (n / 16) (askTokens s ownMover false 8).1 m.q (sdescOf m.desc) m.moved).2 = false → m.moved + n ≠ (sdescOf m.desc).bytes →
    becomes .dmvBurstDone s (listBurst s m) ∧ findMover (listBurst s m) m.uid = some { m with moved := m.moved + n }) ∧
  (∀ s : State, s.flowing → burstQueues s = [] → exec .dmvBurstDone s = .next s) ∧
  (∀ (s : State) (src : Src) (m : Mover), s.flowing →
    (s.movers.find? fun m => m.held && (match findCmd s m.uid with | some c => c.src == src | none => false)) = some m →
    findMover s m.uid = some m →
    (reached s (sdescOf m.desc).fence (BitVec.ofNat 64 (sdescOf m.desc).value) = false → exec (.depFenceReleased src) s = .next s) ∧
    (reached s (sdescOf m.desc).fence (BitVec.ofNat 64 (sdescOf m.desc).value) = true → (fence s (sdescOf m.desc).fence).err = false →
      Answers (.depFenceReleased src) s fun t => findMover t m.uid = some { m with held := false, released := true } ∧
        t = { s with movers := t.movers, hif := t.hif }) ∧
    (reached s (sdescOf m.desc).fence (BitVec.ofNat 64 (sdescOf m.desc).value) = true → (fence s (sdescOf m.desc).fence).err = true →
      becomes (.depFenceReleased src) s (endList s m .fenceErr)))

/-- The source of a MATRIX or VECTOR may use the unit it names: its core's own, or one of its binding group (R233, R285). -/
def ownUnit (t : State) (c : Cmd) : Bool :=
  match c.src with
  | .ticket v _ _ => v.val == leAt c.slot 0x18 1
  | .queue _ => bitOf (bgUnits t (queueBg t (cmdQueue t c))) (leAt c.slot 0x18 1)

/-- The operation whose work unit an engine runs next in state `s` is `j`, and `s1` holds the tokens of the unit (R202, R247). -/
def nextUnit (s s1 : State) (u : UIx) (e : Engine) (j : EngJob) : Prop :=
  s.flowing ∧ nextOp s (sget ({} : Turn) (rxu s u.val).engTurn (engineIx e)) (sget [] (rxu s u.val).eng (engineIx e)) = some j ∧
  askTokens s (ownEngine u.val (engineIx e)) (taskJob s j) (engineCost (engineIx e)) = (s1, true)

/-- The operation leaves its engine's queue; memory and the outstanding commands are those of `v`. -/
def leaves (v t : State) (u : UIx) (e : Engine) (j : EngJob) : Prop :=
  sget [] (rxu t u.val).eng (engineIx e) = (sget [] (rxu v u.val).eng (engineIx e)).filter (fun k => !(k == j)) ∧ t.mem = v.mem ∧ t.cmds = v.cmds

/-- R200, R202, R204, R233, R270: MATRIX and VECTOR join the engine of the unit they name, where the source may use it, and a unit the source may not
use gives FORMAT. An operation runs one work unit at a time: one that its start checks refuse leaves the queue, one with units left stays with one less
and writes nothing, the last unit writes the results, and one of a queue being destroyed leaves with nothing written. An FFT or TRELLIS job is one unit. -/
def Obligations.EngineCommands : Prop :=
  (∀ (s t : State) (src : Src) (c : Cmd) (e : Nat) (i : Instr), e = 0 ∧ i = .matrix src ∨ e = 1 ∧ i = .vector src → ready s t src (6 + e) c →
    (ownUnit t c = true → ((sget [] (rxu t (leAt c.slot 0x18 1)).eng e).any (fun k => k.uid == some c.uid && k.c == 0 && k.job == {})) = false →
      becomes i s (behind src (modRxu t (leAt c.slot 0x18 1) fun x => { x with eng := sset x.eng e (sget [] x.eng e ++ [{ uid := some c.uid, q := cmdQueue t c }]) }))) ∧
    (ownUnit t c = false → becomes i s (behind src (complete t c.uid .format)))) ∧
  (∀ (s s1 : State) (u : UIx) (e : Engine) (j : EngJob) (c : Cmd), nextUnit s s1 u e j → engineIx e < 2 → j.uid.bind (findCmd s) = some c →
    (j.left = none →
      (∀ v, operationBegin s1 u.val (engineIx e) j c = (v, none) → v.hostWait = false → Answers (.engineOpDone u e) s fun t => leaves v t u e j) ∧
      (∀ v w b n, operationBegin s1 u.val (engineIx e) j c = (v, some b) → b.left = some 1 → (queue v b.q).st ≠ .retiring →
        operationEnd (putJob v u.val (engineIx e) j (some b)) u.val (engineIx e) b c = (w, n) → w.hostWait = false →
        Answers (.engineOpDone u e) s fun t => leaves w t u e b)) ∧
    (∀ k, j.left = some k → (queue s1 j.q).st ≠ .retiring →
      (1 < k → s1.hostWait = false → Answers (.engineOpDone u e) s fun t =>
        sget [] (rxu t u.val).eng (engineIx e) = (sget [] (rxu s1 u.val).eng (engineIx e)).map (fun x =>
          if x == j then { j with left := some (k - 1), pos := j.pos + 65536 } else x) ∧ t.mem = s.mem ∧ t.cmds = s.cmds) ∧
      (∀ w n, k ≤ 1 → operationEnd s1 u.val (engineIx e) j c = (w, n) → w.hostWait = false →
        Answers (.engineOpDone u e) s fun t => leaves w t u e j)) ∧
    (j.left.isSome = true → (queue s1 j.q).st = .retiring → s1.hostWait = false →
      Answers (.engineOpDone u e) s fun t => leaves s1 t u e j)) ∧
  (∀ (s s1 s2 : State) (u : UIx) (e : Engine) (j : EngJob) (ended : Bool), nextUnit s s1 u e j → j.uid = none →
    (e = .fft ∧ fftDone s1 u.val j = (s2, ended) ∨ e = .trellis ∧ trellisDone s1 u.val j = (s2, ended)) →
    (ended = true → s2.hostWait = false → Answers (.engineOpDone u e) s fun t => leaves s2 t u e j) ∧
    (ended = false → exec (.engineOpDone u e) s = .next s)) ∧
  (∀ (s : State) (u : UIx) (e : Engine), s.flowing → sget [] (rxu s u.val).eng (engineIx e) = [] → exec (.engineOpDone u e) s = .next s)

/-- R183, R184, R192, R222, R290: SLOT_RUN opens a run on the stream its descriptor names, with SLOTS strobes left, where every check passes; a unit
outside the group, an unreadable descriptor, a stream that is not the unit's or has a run, or a check that fails ends it with its status. -/
def Obligations.SlotRunOpens : Prop :=
  ∀ (s t : State) (q : QIx) (c : Cmd), ready s t (.queue q) 5 c →
    let u := leAt c.slot 0x1A 1
    (bitOf (bgUnits t (queueBg t (cmdQueue t c))) u = false → becomes (.slotRun q) s (behind (.queue q) (complete t c.uid .format))) ∧
    (bitOf (bgUnits t (queueBg t (cmdQueue t c))) u = true →
      (∀ t1 st, readAny t (cmdReach t c) (coreId u) (op10 c.slot) 96 64 = (t1, .stop st) →
        becomes (.slotRun q) s (behind (.queue q) (refuseRun t1 c u st))) ∧
      (∀ t1 d, readAny t (cmdReach t c) (coreId u) (op10 c.slot) 96 64 = (t1, .ok d) →
        (((localsOf t1 u).find? fun l => globalOf t1 u l == some (leAt d 6 1)) = none →
          becomes (.slotRun q) s (behind (.queue q) (refuseRun t1 c u .format))) ∧
        (∀ l, ((localsOf t1 u).find? fun l => globalOf t1 u l == some (leAt d 6 1)) = some l →
          (slotDescOk d (capSamples t1 u l) = false ∨ (stream t1 u l).run ≠ none →
            becomes (.slotRun q) s (behind (.queue q) (refuseRun t1 c u .format))) ∧
          (slotDescOk d (capSamples t1 u l) = true → (stream t1 u l).run = none →
            (∀ t2 st, runChecks t1 (cmdReach t c) u l d = (t2, .stop st) →
              becomes (.slotRun q) s (behind (.queue q) (refuseRun t2 c u st))) ∧
            (∀ t2 tr, runChecks t1 (cmdReach t c) u l d = (t2, .ok tr) → t2.hostWait = false → (queue t2 q.val).window = [] →
              Answers (.slotRun q) s fun v =>
                (stream v u l).run = some { uid := c.uid, q := cmdQueue t c, desc := d, trellis := tr, left := opB18 c.slot } ∧
                (stream v u l).tasks = [] ∧ v = { t2 with rxus := v.rxus, ctxQueue := v.ctxQueue, hif := v.hif })))))

/-- R236, R258, R263, R270: INDIRECT begins its buffer, behind those of the queue whose slots still run, and stays outstanding; ENQUEUE copies its slots to
the target's PI and advances it where the target is a bound COMMAND queue with room and no earlier ENQUEUE waits for it, waits while there is no room or
its queue is stopped, and gives FORMAT for a target that can never take it. -/
def Obligations.IndirectAndEnqueue : Prop :=
  (∀ (s t : State) (q : QIx) (c : Cmd), ready s t (.queue q) 11 c → c.src = .queue q → t.hostWait = false → (queue t q.val).window = [] →
    Answers (.indirect q) s fun v =>
      (queue v q.val).indirects = (queue t q.val).indirects ++
        [{ uid := c.uid, idx := c.idx, buf := BitVec.ofNat 64 (op10 c.slot), count := leAt c.slot 0x18 4 }] ∧
      (∀ r, q.val ≠ r → queue v r = queue t r) ∧ v = { t with queues := v.queues, hif := v.hif }) ∧
  (∀ (s t : State) (q : QIx) (c : Cmd), ready s t (.queue q) 12 c →
    (enqueueOk t (opB18 c.slot) (leAt c.slot 0x1A 2) = false → becomes (.enqueue q) s (behind (.queue q) (complete t c.uid .format))) ∧
    (enqueueOk t (opB18 c.slot) (leAt c.slot 0x1A 2) = true →
      (enqueueRoom t (opB18 c.slot) (leAt c.slot 0x1A 2) = false ∨ mayAct t c = false → becomes (.enqueue q) s (behind (.queue q) t)) ∧
      (enqueueRoom t (opB18 c.slot) (leAt c.slot 0x1A 2) = true → mayAct t c = true → c.queued = false →
        ((t.cmds.filter fun d => d.op == 12 && !d.queued && opB18 d.slot == opB18 c.slot).head?).map (·.uid) = some c.uid →
        becomes (.enqueue q) s (behind (.queue q)
          (complete (enqueueCopyOne t (cmdQueue t c) (opB18 c.slot) (op10 c.slot) (leAt c.slot 0x1A 2) c.data).1 c.uid
            (enqueueCopyOne t (cmdQueue t c) (opB18 c.slot) (op10 c.slot) (leAt c.slot 0x1A 2) c.data).2))))) ∧
  (∀ (s : State) (src : Src) (c : Cmd), s.flowing → cmdOfSrc s src 0x0C = some c → mayAct s c = false → exec (.enqueueCopy src) s = .next s) ∧
  (∀ (s : State) (src : Src) (c : Cmd), s.flowing → cmdOfSrc s src 0x0C = some c → enqueueRoom s (opB18 c.slot) (leAt c.slot 0x1A 2) = true →
    mayAct s c = true → c.queued = false → ((s.cmds.filter fun d => d.op == 12 && !d.queued && opB18 d.slot == opB18 c.slot).head?).map (·.uid) = some c.uid →
    becomes (.enqueueCopy src) s (complete (enqueueCopyOne s (cmdQueue s c) (opB18 c.slot) (op10 c.slot) (leAt c.slot 0x1A 2) c.data).1 c.uid
      (enqueueCopyOne s (cmdQueue s c) (opB18 c.slot) (op10 c.slot) (leAt c.slot 0x1A 2) c.data).2)) ∧
  (∀ (s : State) (q t a n : Nat) (bs : List Byte), bs ≠ [] →
    (enqueueCopyOne s q t a n bs).2 = .ok ∧
    (queue (enqueueCopyOne s q t a n bs).1 t).pi = (queue s t).pi + BitVec.ofNat 32 n ∧ (queue (enqueueCopyOne s q t a n bs).1 t).pend = true ∧
    ∀ r, t ≠ r → queue (enqueueCopyOne s q t a n bs).1 r = queue s r)

/-- R224, R225, R269, R271: QUEUE_BIND of a good descriptor binds its FREE queue and completes OK, any other gives FORMAT; QUEUE_DESTROY starts the destroy
of another bound queue numbered 64 or above and waits for it; QUEUE_CTL writes EN of another bound queue. -/
def Obligations.QueueCommands : Prop :=
  (∀ (s t : State) (q : QIx) (c : Cmd), ready s t (.queue q) 0x40 c →
    (∀ t1 st, readAny t (cmdReach t c) 0xFC (op10 c.slot) 128 64 = (t1, .stop st) →
      becomes (.queueBind q) s (behind (.queue q) (complete t1 c.uid st))) ∧
    (∀ t1 b, readAny t (cmdReach t c) 0xFC (op10 c.slot) 128 64 = (t1, .ok b) →
      (driverOk t1 = true → 64 ≤ opB18 c.slot → (queue t1 (opB18 c.slot)).st = .free → leAt b 0 4 = 0x444E4251 → leAt b 4 2 = 1 →
        leAt b 6 2 = 0 → leAt b 0x28 8 = 0 → bindOk t1 (opB18 c.slot) (bindOf b) = true →
        becomes (.queueBind q) s (behind (.queue q) (complete (bindQueue t1 (opB18 c.slot) (bindOf b)) c.uid .ok))) ∧
      (opB18 c.slot < 64 ∨ (queue t1 (opB18 c.slot)).st ≠ .free ∨ bindOk t1 (opB18 c.slot) (bindOf b) = false →
        becomes (.queueBind q) s (behind (.queue q) (complete t1 c.uid .format))))) ∧
  (∀ (s t : State) (q : QIx) (c : Cmd), ready s t (.queue q) 0x41 c →
    (bound t (leAt c.slot 0x18 2) = true → leAt c.slot 0x18 2 ≠ cmdQueue t c → 64 ≤ leAt c.slot 0x18 2 →
      becomes (.queueDestroy q) s (behind (.queue q) (destroyStart t (leAt c.slot 0x18 2) (some c.uid) (bitOf (leAt c.slot 0x1A 1) 0)))) ∧
    (bound t (leAt c.slot 0x18 2) = false ∨ leAt c.slot 0x18 2 = cmdQueue t c ∨ leAt c.slot 0x18 2 < 64 →
      becomes (.queueDestroy q) s (behind (.queue q) (complete t c.uid .format)))) ∧
  (∀ (s t : State) (q : QIx) (c : Cmd), ready s t (.queue q) 0x42 c →
    (bound t (opB18 c.slot) = true → opB18 c.slot ≠ cmdQueue t c →
      becomes (.queueCtl q) s (behind (.queue q) (complete (enWrite t (opB18 c.slot) (leAt c.slot 0x1A 1 == 1)) c.uid .ok))) ∧
    (bound t (opB18 c.slot) = false ∨ opB18 c.slot = cmdQueue t c →
      becomes (.queueCtl q) s (behind (.queue q) (complete t c.uid .format)))) ∧
  (∀ (s : State) (q : Nat) (v : BindVals), (queue (bindQueue s q v) q).st = .idle ∧ (queue (bindQueue s q v) q).en = true ∧
    (queue (bindQueue s q v) q).pi = 0 ∧ (queue (bindQueue s q v) q).ci = 0 ∧ ∀ r, q ≠ r → queue (bindQueue s q v) r = queue s r)

/-- R222, R375, R376, Table 15-12a: a RESTRUCTURE of a component in host memory is refused; one that is readable waits behind earlier ones and is judged at the head; one that is accepted holds its hedge, and
its run puts the new body into force, releases the hedge and completes OK. -/
def Obligations.RestructureRows : Prop :=
  (∀ (s t : State) (q : QIx) (c : Cmd), ready s t (.queue q) 0x43 c →
    (isHost (op10 c.slot) = true → becomes (.restructure q) s (behind (.queue q) (complete t c.uid .format))) ∧
    (∀ t1 r, isHost (op10 c.slot) = false → readMem t (cmdQueue t c) 0xFC (op10 c.slot) 128 = (t1, r) → r.ap = true →
      becomes (.restructure q) s (behind (.queue q) (complete t1 c.uid .aperture))) ∧
    (∀ t1 r, isHost (op10 c.slot) = false → readMem t (cmdQueue t c) 0xFC (op10 c.slot) 128 = (t1, r) → r.ap = false → r.poison = true →
      becomes (.restructure q) s (behind (.queue q) (complete t1 c.uid .integrity))) ∧
    (∀ t1 t2 h b, isHost (op10 c.slot) = false → readMem t (cmdQueue t c) 0xFC (op10 c.slot) 128 = (t1, { bytes := h }) →
      readMem t1 (cmdQueue t c) 0xFC (op10 c.slot) (128 + min 2560 (leAt h 0x20 4) + (if bitOf (leAt h 7 1) 0 then 128 else 0)) =
        (t2, { bytes := b }) →
      (t2.restructs ≠ [] → becomes (.restructure q) s (behind (.queue q)
        { t2 with restructs := t2.restructs ++ [{ uid := c.uid, h := leAt c.slot 0x18 1, body := b }] })) ∧
      (t2.restructs = [] → becomes (.restructure q) s (behind (.queue q)
        (judgeRestruct { t2 with restructs := [{ uid := c.uid, h := leAt c.slot 0x18 1, body := b }] }
          { uid := c.uid, h := leAt c.slot 0x18 1, body := b }))))) ∧
  (∀ (s : State) (x : Restruct) (rest : List Restruct), s.restructs = x :: rest →
    restructRefused s x.body (bodyDefaults (sub x.body 128 2560)) x.h = none →
    (hedge (judgeRestruct s x) x.h).restructuring = true ∧ (judgeRestruct s x).cmds = s.cmds ∧ regBit (judgeRestruct s x) (mgtReg 0x8060) 4 = true) ∧
  (∀ (s : State) (x : Restruct) (rest : List Restruct), s.powered → s.restructs = x :: rest → x.accepted = true →
    ∃ v, becomes .restructureRun s (complete v x.uid .ok) ∧ v.restructs = rest ∧ v.pleach = bodyDefaults (sub x.body 128 2560) ∧
      (hedge v x.h).restructuring = false ∧ (∀ h, x.h ≠ h → hedge v h = hedge s h) ∧ v.queues = s.queues ∧ v.cmds = s.cmds ∧ v.mem = s.mem) ∧
  (∀ s : State, s.powered → s.restructs = [] → exec .restructureRun s = .next s)


/-! ## Hedges, arrays and rotations -/

/-- R61, R89, R388: the next ready step begins on a free hedge that holds its tokens, 2 and 2 more for each array it searches, with the searches it has
to run; a claim the hedge made for another step goes back first; a step whose arrays must be reloaded (R17) or that its checks stop does not begin, and a
hedge that may not take a step stays as it is. -/
def Obligations.StepStarts : Prop :=
  ∀ (s : State) (h : HIx), s.flowing →
    (hedgeFree s h.val = false ∨ nextStep s h.val = none → exec (.hedgeStepStart h) s = .next s) ∧
    (∀ r, hedgeFree s h.val = true → nextStep s h.val = some r → (reloadDisplaced s r).2 = true →
      becomes (.hedgeStepStart h) s (reloadDisplaced s r).1) ∧
    (∀ r s1, hedgeFree s h.val = true → nextStep s h.val = some r → (reloadDisplaced s r).2 = false → passChecks s r = (s1, false) →
      becomes (.hedgeStepStart h) s s1) ∧
    (∀ r r1 s1, hedgeFree s h.val = true → nextStep s h.val = some r → (reloadDisplaced s r).2 = false → passChecks s r = (s1, true) →
      findStep s1 r.uid = some r1 →
      let u := if (hedge s1 h.val).chosen = some r1.uid then s1 else dropTokens s1 (ownStep h.val)
      let a := askTokens (modHedge u h.val fun e => { e with chosen := some r1.uid }) (ownStep h.val) (role u h.val == 2)
        (2 + 2 * (setOn u r1 h.val).length)
      (a.2 = false → becomes (.hedgeStepStart h) s a.1) ∧
      (a.2 = true → a.1.hostWait = false → Answers (.hedgeStepStart h) s fun t =>
        (∃ run, (hedge t h.val).run = some run ∧ run.uid = r1.uid ∧ run.arrays = setOn a.1 r1 h.val ∧
          run.searches = passSearches a.1 r1 h.val run.arrays none ∧ run.pending = overflowTiles a.1 r1 h.val run.arrays []) ∧
        holds t (ownStep h.val) = true ∧ (∀ k, h.val ≠ k → hedge t k = hedge a.1 k) ∧
        t = { a.1 with hedges := t.hedges, steps := t.steps, hif := t.hif }))

/-- Nothing waits on the ring or in a mailbox channel, so that an event that lets what waits there move (R300, R311) moves nothing. -/
def ringQuiet (s : State) : Prop := s.utr.ports = [] ∧ s.utr.rqs = [] ∧ s.chans = []

/-- R87, R88, R120, R121: a step that ends on its hedge leaves it free, its searches counted, the step's record slots freed together; a tile that overflowed
is searched again and the replay counted; a hedge with a tile still to replay does not end its step. -/
def Obligations.StepEndsAndReplays : Prop :=
  ∀ (s : State) (h : HIx), s.flowing →
    ((hedge s h.val).run = none → ringQuiet s → exec (.hedgeStepEnd h) s = .next s) ∧
    (∀ run, (hedge s h.val).run = some run → run.pending ≠ [] → ringQuiet s → exec (.hedgeStepEnd h) s = .next s) ∧
    becomes (.hedgeStepEnd h) s (utrPump (stepEnd s h.val)) ∧
    (∀ run r k, (hedge s h.val).run = some run → run.pending = [] → findStep s run.uid = some r → r.spec.closes = false → r.spec.arrays = none →
      (queue s r.q).st ≠ .retiring → (hedge s h.val).freeDetached = [] → s.steps = [r] → findRot s r.uid = none → ringQuiet s → s.quads = [] →
      k < r.spec.spans.length → (∃ x, x ∈ takers r k ∧ x ∉ r.ended ∧ x ≠ h.val) → s.hostWait = false →
      Answers (.hedgeStepEnd h) s fun t => (hedge t h.val).run = none ∧ holds t (ownStep h.val) = false ∧
        (hedge t h.val).searches = (hedge s h.val).searches + BitVec.ofNat 64 run.searches ∧
        (∀ p, placed t h.val p run.uid = []) ∧ (∀ y, findStep t run.uid = some y → h.val ∈ y.ended) ∧
        t.mem = s.mem ∧ t.cmds.length = s.cmds.length ∧ (∀ j, h.val ≠ j → hedge t j = hedge s j)) ∧
    (∀ run r tile, (hedge s h.val).run = some run → findStep s run.uid = some r → tile < 512 → tile ∈ run.pending →
      Answers (.tileReplay h tile) s fun t =>
        (∃ u, (hedge t h.val).run = some u ∧ u.uid = run.uid ∧ u.arrays = run.arrays ∧
          sget 0 u.replays tile = sget 0 run.replays tile + 1 ∧ (∀ x, x ≠ tile → sget 0 u.replays x = sget 0 run.replays x) ∧
          run.searches ≤ u.searches ∧ (∀ x, x ≠ tile → (x ∈ u.pending ↔ x ∈ run.pending))) ∧
        (∀ k, h.val ≠ k → hedge t k = hedge s k) ∧ t.queues = s.queues ∧ t.steps = s.steps ∧ t.fences = s.fences ∧ t.pwr = s.pwr ∧
        (s.quads = [] → t = { s with hedges := t.hedges, regs := t.regs, arrays := t.arrays, cmds := t.cmds, hif := t.hif })) ∧
    (∀ tile, tile < 512 → (hedge s h.val).run = none → exec (.tileReplay h tile) s = .next s)

/-- R53, R54, R61, R89, R98, R351: the load at the head of an array begins once it may and holds its token, leaving the array LOADING and empty of its image;
a load of a withdrawn array, or of another model into a pinned one, ends with FORMAT; a load that is done leaves the array READY with the image read, or
EMPTY; the image of a queue being destroyed is discarded (R270). -/
def Obligations.ArrayLoads : Prop :=
  ∀ (s : State) (n : AIx) (j : LoadJob) (rest : List LoadJob) (uid : Nat), s.flowing → (arr s n.val).loads = j :: rest → j.why = .cmd uid →
    (loadMayStart s n.val j = false → exec (.arrayLoadStart n) s = .next s) ∧
    (loadMayStart s n.val j = true → loadBarred s n.val j = true → becomes (.arrayLoadStart n) s (loadEnded s n.val j .format)) ∧
    (∀ s1, loadMayStart s n.val j = true → loadBarred s n.val j = false → askTokens s (ownLoad n.val) false 1 = (s1, false) →
      becomes (.arrayLoadStart n) s s1) ∧
    (∀ s1, loadMayStart s n.val j = true → loadBarred s n.val j = false → askTokens s (ownLoad n.val) false 1 = (s1, true) →
      (∀ s2, loadSchema s1 j = (s2, some (.stop .integrity)) → becomes (.arrayLoadStart n) s (loadEnded s2 n.val j .integrity)) ∧
      (∀ s2, loadSchema s1 j = (s2, some (.stop .aperture)) → becomes (.arrayLoadStart n) s (loadEnded s2 n.val j .aperture)) ∧
      (∀ s2 g, loadSchema s1 j = (s2, g) → g ≠ some (.stop .integrity) → g ≠ some (.stop .aperture) → s2.hostWait = false →
        Answers (.arrayLoadStart n) s fun t => (arr t n.val).st = .loading ∧ (arr t n.val).img = none ∧
          (∃ c, (arr t n.val).loads = { j with started := true, sch := c } :: rest ∧
            (∀ b, g = some (.ok b) → c = some b) ∧ (g = none → c = none) ∧ (∀ st, g = some (.stop st) → c = some [])) ∧
          (arr t n.val).home = some { addr := j.addr, model := imageModel s2 j.src.toNat, schema := j.schema } ∧
          (∀ k, n.val ≠ k → arr t k = arr s k) ∧ t = { s2 with arrays := t.arrays, hif := t.hif })) ∧
    (j.started = false → exec (.arrayLoadDone n) s = .next s) ∧
    (j.started = true → (queue s j.q).st = .retiring → Answers (.arrayLoadDone n) s fun t =>
      (arr t n.val).st = .empty ∧ (arr t n.val).img = none ∧ (arr t n.val).loads = rest ∧ (∀ k, n.val ≠ k → arr t k = arr s k) ∧
      t = { s with arrays := t.arrays, pwr := t.pwr, hif := t.hif }) ∧
    (j.started = true → (queue s j.q).st ≠ .retiring →
      (j.sch.map parseSchema = some none → becomes (.arrayLoadDone n) s (loadFails s n.val j)) ∧
      (∀ s2 im, j.sch.map parseSchema ≠ some none →
        readImage s j.q n.val j.src.toNat j.size j.why ((j.sch.map parseSchema).bind id) = (s2, some im) →
        ∃ v, becomes (.arrayLoadDone n) s (loadEnded v n.val j .ok) ∧ (arr v n.val).st = .ready ∧ (arr v n.val).img = some im ∧
          (arr v n.val).held = some j.addr ∧ (arr v n.val).integ = 0 ∧ v.mem = s2.mem ∧ v.queues = s2.queues) ∧
      (∀ s2, j.sch.map parseSchema ≠ some none →
        readImage s j.q n.val j.src.toNat j.size j.why ((j.sch.map parseSchema).bind id) = (s2, none) →
        ∃ v, becomes (.arrayLoadDone n) s (loadEnded v n.val j .format) ∧ (arr v n.val).st = .empty ∧ (arr v n.val).img = none ∧ v.mem = s2.mem))

/-- Record r in a slot of partition p of hedge h, in a borrowed slot or one of its group's floor (R102): the slot is the lowest free one. -/
def inSlot (s : State) (h p : Nat) (r : HeldRec) (borrowed : Bool) : HeldRec :=
  { r with bytes := [], bad := [], slot := lowestFree (((part s h p).occ).map (·.slot)) (part s h p).occ.length 0,
           len := min r.len (slotBytes s h p), borrowed := borrowed }

/-- R102 to R105, R107, R127: the open at the head of a hedge's waiting opens is granted on all its hedges at once; the borrow at the head of a partition's
order is granted whole; a multicast sends one record to the skid of every receiving hedge; a skid's oldest record moves into a slot of its step's borrow or
of its group's floor, where its bytes are stored; on a reserved hedge the skids 0 to 3 are the receiver units' (log 63). -/
def Obligations.OpensAndRecordSlots : Prop :=
  ∀ s : State, s.flowing →
    (∀ (h : HIx) o rest r, (hedge s h.val).opens = o :: rest → findStep s o.uid = some r →
      (openReady s r (accdOf r.accdCopy) = true → becomes (.groupOpenGranted h) s (openGroup s r r.accdCopy)) ∧
      (openReady s r (accdOf r.accdCopy) = false → exec (.groupOpenGranted h) s = .next s)) ∧
    (∀ h : HIx, (hedge s h.val).opens = [] → exec (.groupOpenGranted h) s = .next s) ∧
    (∀ (h : HIx) (p : Fin 4) b rest, (part s h.val p.val).waiting = b :: rest →
      (b.n ≤ poolFree s h.val p.val → Answers (.poolBorrowGranted h p) s fun t =>
        part t h.val p.val = { part s h.val p.val with waiting := rest, borrows := (part s h.val p.val).borrows ++ [b] } ∧
        (∀ k, h.val ≠ k → hedge t k = hedge s k) ∧ t = { s with hedges := t.hedges, hif := t.hif }) ∧
      (poolFree s h.val p.val < b.n → exec (.poolBorrowGranted h p) s = .next s)) ∧
    (∀ (q : QIx) r, sendingStep s q.val = some r →
      let ks := (List.range r.spec.spans.length).filter fun k =>
        decide (sget 0 r.sent k < spanCount r.spec k) && (decide (0 < sget 0 r.sent k) || mayBegin s r k) &&
        (receivers r k).all fun h => !(hedge s h).restructuring
      let room := fun (k : Nat) => (receivers r k).all fun h => decide ((skid s h r.bg).length < Config.skidDepth)
      (ks = [] → exec (.multicastRecordSend q) s = .next s) ∧
      (∀ k, ks.find? room = some k → becomes (.multicastRecordSend q) s (sendRecord s r k) ∧
        ∀ h ∈ receivers r k, ∃ x, x ∈ skid (sendRecord s r k) h r.bg ∧ x.uid = r.uid ∧
          x.pos = spanStart r.spec.records r.spec.spans.length k + sget 0 r.sent k) ∧
      (∀ k rest, ks = k :: rest → ks.find? room = none → Answers (.multicastRecordSend q) s fun t =>
        (∀ h ∈ receivers r k, Config.skidDepth ≤ (skid s h r.bg).length → regBit t (hdgReg h 4) 10 = true) ∧
        t = { s with regs := t.regs, hif := t.hif })) ∧
    (∀ q : QIx, sendingStep s q.val = none → exec (.multicastRecordSend q) s = .next s) ∧
    (∀ (h : HIx) (bg : Fin 64) r rest (b : Bool), ringQuiet s → skid s h.val (skidOf s h.val bg.val) = r :: rest →
      let g := skidOf s h.val bg.val
      let p := bgPart s g
      let mine := (part s h.val p).borrows.find? (·.uid == r.uid)
      let n := (inSlot s h.val p r b).len
      let a := recAddr s h.val p (inSlot s h.val p r b).slot
      (if b then ∃ k, mine = some k ∧ ((part s h.val p).occ.filter fun x => x.uid == r.uid && x.borrowed).length < k.n
       else mine = none ∧ floorUsed s h.val p g < bgFloor s g ∧ (g < 64 ∨ 0 < freeSlots s h.val p)) →
      (match findCmd s r.uid with | some c => c.record | none => false) = false →
      Answers (.skidToSlot h bg) s fun t => skid t h.val g = rest ∧
        (part t h.val p).occ = (part s h.val p).occ ++ [inSlot s h.val p r b] ∧ (∀ k, h.val ≠ k → hedge t k = hedge s k) ∧
        t.queues = s.queues ∧ t.cmds = s.cmds ∧
        (r.bad = [] → s.quads = [] → r.bytes.length = n → 0 < n → a + n ≤ 2 ^ 63 → mapped s a n = true →
          (∀ i, i < n → mget t.mem (a + i) = nth 0 r.bytes i) ∧ (∀ x, x < a ∨ a + n ≤ x → mget t.mem x = mget s.mem x)))

/-- R123, R127, R136, R139, R148, Table 6-1: the close at the head of an output unit that holds its tokens combines its span's partial sums, and goes on to its
results, or over the ring, or ends without results where the runs of a PAIRWISE group are refused; a merge waits for every span's close and then ends
the last. A close that ends leaves the output unit, and the group's number is free on every hedge of the span. -/
def Obligations.ClosesAndMerges : Prop :=
  ∀ (s : State) (h : HIx), s.flowing →
    ((hedge s h.val).closes = [] → ringQuiet s → exec (.outputClose h) s = .next s ∧ exec (.topkMerge h) s = .next s) ∧
    (∀ c rest r cmd g s1, (hedge s h.val).closes = c :: rest → findStep s c.uid = some r → findCmd s c.uid = some cmd → group s h.val c.group = some g →
      c.stage = 0 → ((accdOf g.accd).pairwise = true → allClosing r = true) → (queue s r.q).st ≠ .retiring →
      askTokens s (ownOut h.val) (role s h.val == 2) 2 = (s1, true) →
      let bad := (accdOf g.accd).pairwise && runsBad s1 r (accdOf g.accd)
      let v := modStep s1 r.uid fun x => { x with runsBad := some bad }
      let w := utrPump (if bad then refuseRuns v h.val r c else combineClose v h.val r c cmd g)
      becomes (.outputClose h) s w ∧
      (ringQuiet s → w.hostWait = false → bad = true ∨ r.spec.reduce = false →
        Answers (.outputClose h) s fun t =>
          ((hedge t h.val).closes = rest ∧ (∀ x ∈ spanHs r.spec c.span, group t x c.group = none)) ∨
          (hedge t h.val).closes = { c with stage := 2 } :: rest)) ∧
    (∀ c rest r s1, (hedge s h.val).closes = c :: rest → findStep s c.uid = some r → (findCmd s c.uid).isSome = true →
      (group s h.val c.group).isSome = true → c.stage = 0 → (∀ g, group s h.val c.group = some g → (accdOf g.accd).pairwise = true → allClosing r = true) →
      (queue s r.q).st ≠ .retiring → askTokens s (ownOut h.val) (role s h.val == 2) 2 = (s1, false) → becomes (.outputClose h) s (utrPump s1)) ∧
    (∀ (v s1 : State) (r : StepRun) (c : Close) (cmd : Cmd) (d : Accd) (recs : List OutRec) (b : List Byte), r.spec.calib = none →
      r.spec.outdImm = [] → egressOf v cmd = none → readStruct v (stepReach v r) 0xFE r.spec.outd 64 64 = (s1, .ok b) →
      (outdOk d false b = false → closeRecords v h.val r c cmd d recs = refuseOutd s1 h.val r c .format) ∧
      (outdOk d false b = true → (outdOf b).topk = false →
        ((outdRanges d (outdOf b) (resultBase s1 cmd d (outdOf b)) r.spec.records).all fun x => reaches s1 (stepReach s1 r) x.1 x.2) = true →
        closeRecords v h.val r c cmd d recs = spanClosed (endClose
          (recs.foldl (writeResult d (outdOf b) (resultBase s1 cmd d (outdOf b)) h.val r) s1) h.val r c)
          r.uid (rsizeOf d (outdOf b).raw) (if c.cancel then .drained else .ok))) ∧
    (∀ c rest r, (hedge s h.val).closes = c :: rest → findStep s c.uid = some r →
      (c.stage ≠ 2 ∨ r.closed + 1 < r.spec.spans.length ∨ (queue s r.q).st = .retiring → exec (.topkMerge h) s = .next s) ∧
      (c.stage = 2 → r.spec.spans.length ≤ r.closed + 1 → (queue s r.q).st ≠ .retiring →
        let w := spanClosed (endClose (if r.unlisted then s else writeRanks s r (outdOf r.outd)) h.val r c) r.uid 16
          (if c.cancel then .drained else .ok)
        becomes (.topkMerge h) s w ∧
        (w.hostWait = false → Answers (.topkMerge h) s fun t =>
          (hedge t h.val).closes = rest ∧ ∀ x ∈ spanHs r.spec c.span, group t x c.group = none)))

/-- R155, R158, R162, R163: the claim at the head of the waiting ones is granted whole where no running rotation holds a position of it; a round waits for
every hedge, which is marked HELD, and for its staging; a staging fetch moves its image by bursts of up to 4 KiB, and a round is staged when its images
stand; a WAIT mark whose fence is not reached holds, lets go when it is, and its error stops the rotation. -/
def Obligations.RotationEvents : Prop :=
  ∀ s : State, s.flowing →
    (s.claimsWaiting = [] → exec .rotationClaimGranted s = .next s) ∧
    (∀ u rest r, s.claimsWaiting = u :: rest → findRot s u = some r →
      (claimFree s r.desc = false → exec .rotationClaimGranted s = .next s) ∧
      (∀ x, claimFree s r.desc = true → findStep s u = some x → x.spec.reduce = false →
        Answers .rotationClaimGranted s fun t => t.claimsWaiting = rest ∧ (∃ v, findRot t u = some v ∧ v = { r with stage := .running }) ∧
          t = { s with claimsWaiting := rest, rotations := t.rotations, regs := t.regs, hif := t.hif })) ∧
    (∀ (q : Nat) r e s1, pickTurn s.moverTurn (burstQueues s) = some q → ((readyMoves s).find? fun m => m.q == q) = none →
      ((readyMovers s).find? fun m => m.q == q) = none → ((readyRots s).find? fun r => r.q == q) = none →
      ((readyFetches s).find? fun r => r.q == q) = some r → findRot s r.uid = some r → r.fetching = some e →
      askTokens s ownMover false 8 = (s1, true) →
      becomes .dmvBurstDone s (fetchPart s r e) ∧
      findRot (fetchPart s r e) r.uid = some (if e.2 ≤ r.fetchAt + 4096 then { r with fetched := r.fetched + 1, fetching := none, fetchAt := 0 }
        else { r with fetchAt := r.fetchAt + 4096 })) ∧
    (∀ (q : QIx) r, queueRot s q.val = some r → findRot s r.uid = some r →
      (rdDepth r.desc = 0 ∨ rotRounds r ≤ r.staged ∨ r.stopping ≠ none ∨ r.fetched < (roundImages r r.staged).2 →
        exec (.stagingFetchDone q) s = .next s) ∧
      (rdDepth r.desc ≠ 0 → r.staged < rotRounds r → r.stopping = none → (roundImages r r.staged).2 ≤ r.fetched →
        Answers (.stagingFetchDone q) s fun t => findRot t r.uid = some { r with staged := r.staged + 1 } ∧
          t = { s with rotations := t.rotations, hif := t.hif }) ∧
      (∀ t, findStep s r.uid = some t → r.loading = false → r.stopping = none → r.waitMark = none → r.round < rotRounds r →
        (rdDepth r.desc = 0 ∨ r.round < r.staged) → earlierList s q.val r.uid = false → transfersRun s q.val = true →
        (((rdHedges r.desc).all fun h => roundReady s r t h) = false →
          Answers (.roundMulticastStart q) s fun u =>
            (∀ h ∈ rdHedges r.desc, roundReady s r t h = false → regBit u (hdgReg h 0x188) 1 = true) ∧ u = { s with regs := u.regs, hif := u.hif }) ∧
        (((rdHedges r.desc).all fun h => roundReady s r t h) = true →
          let is := (List.range ((roundImages r r.round).2 - (roundImages r r.round).1)).map ((roundImages r r.round).1 + ·)
          (∀ s1 st, roundEntries s r is = (s1, .stop st) → becomes (.roundMulticastStart q) s (stopRotation s1 r.uid st)) ∧
          (∀ s1 es, roundEntries s r is = (s1, .ok es) →
            ((es.find? fun x => rdDepth r.desc == 0 && markSays s1 r x.1 x.2 != .go) = none → es ≠ [] →
              becomes (.roundMulticastStart q) s (loadRound s1 r t es)) ∧
            (∀ x, (es.find? fun x => rdDepth r.desc == 0 && markSays s1 r x.1 x.2 != .go) = some x →
              (markSays s1 r x.1 x.2 = .hold → becomes (.roundMulticastStart q) s (holdMark s1 r x.1 x.2)) ∧
              (markSays s1 r x.1 x.2 = .error → becomes (.roundMulticastStart q) s (stopRotation s1 r.uid .fenceErr)))))) ∧
      (r.loading = true ∨ r.stopping ≠ none ∨ r.waitMark ≠ none ∨ (rdDepth r.desc ≠ 0 ∧ r.staged ≤ r.round) →
        exec (.roundMulticastStart q) s = .next s) ∧
      (∀ i v s1 e, r.waitMark = some (i, v) → imgEntry s r i = (s1, .ok e) →
        (r.stopping = none → reached s1 e.fence v = true → (fence s1 e.fence).err = false → becomes (.waitMarkReleased q) s
          (modRot s1 r.uid fun r => { r with waitMark := none, released := r.released ++ [i] })) ∧
        (r.stopping = none → reached s1 e.fence v = true → (fence s1 e.fence).err = true →
          becomes (.waitMarkReleased q) s (stopRotation s1 r.uid .fenceErr)) ∧
        (reached s1 e.fence v = false ∨ r.stopping ≠ none → becomes (.waitMarkReleased q) s s1)))

/-- R117, R118: EXACT additions that do not saturate give the exact sum, in any order and however the additions are split into partial sums; a
saturated row keeps its bound. -/
def Obligations.ExactSums : Prop :=
  (∀ vs : List Int, exSat (vs.foldl exAdd 0) = false → vs.foldl exAdd 0 = vs.sum) ∧
  (∀ vs ws : List Int, vs.Perm ws → exSat (vs.foldl exAdd 0) = false → exSat (ws.foldl exAdd 0) = false → vs.foldl exAdd 0 = ws.foldl exAdd 0) ∧
  (∀ parts : List (List Int), exSat ((parts.map fun vs => vs.foldl exAdd 0).foldl exCombine 0) = false →
    (parts.map fun vs => vs.foldl exAdd 0).foldl exCombine 0 = (parts.map List.sum).sum) ∧
  (∀ n v : Int, exSat n = true → exAdd n v = n ∧ exCombine n v = n) ∧
  (∀ n v : Int, exSat n = false → (exMax < n + v → exAdd n v = exMax) ∧ (n + v < exMin → exAdd n v = exMin) ∧
    (exMin ≤ n + v → n + v ≤ exMax → exAdd n v = n + v))

/-! ## The Utrid ring -/

/-- R305, R309, R311, R330: a port that trains with an agreeing greeting comes UP with its link sequence at 0, keeping the unacknowledged flits for the
same partner only; any other greeting sets MISMATCH; a lost link trains again or ends a shutdown; CREDIT, ACK, REPLAY and the eighth replay.
A codeword has 544 symbols, the first 514 its payload of 5,140 bits, and a flit 1,314 bits (R303, R304, R306). -/
def Obligations.UtridLink : Prop :=
  ∀ (s : State) (p : PIx), s.rested →
    (∀ g : Greeting, (uport s p.val).st = 1 → (uport s p.val).en.en = true → s.glb.bypassOpen = true →
      (greetOk s p.val g = true → ∃ v, becomes (.portTrained p g) s (utrPump (noticeChange v)) ∧
        (uport v p.val).st = 2 ∧ (uport v p.val).peer = g.rank.val ∧ (uport v p.val).rate = (if g.viaBypass then 1 else 2) ∧
        (uport v p.val).rxSeq = 0 ∧ (uport v p.val).txSeq = (uport v p.val).unacked.length ∧
        (uport v p.val).unacked = (if (uport s p.val).lastPeer = some g.rank.val then (uport s p.val).unacked else []) ∧
        (∀ k, p.val ≠ k → uport v k = uport s k) ∧ v = { s with utr := v.utr, regs := v.regs }) ∧
      (greetOk s p.val g = false →
        Answers (.portTrained p g) s fun t => uport t p.val = { uport s p.val with bypass := g.viaBypass } ∧
          regBit t (utrPort p.val 4) 17 = true ∧ t = { s with utr := t.utr, regs := t.regs, hif := t.hif })) ∧
    (∀ g : Greeting, (uport s p.val).st ≠ 1 → exec (.portTrained p g) s = .next s) ∧
    ((uport s p.val).en.disabling = false → (uport s p.val).st = 2 → ∃ v, becomes (.portLinkLost p) s (noticeChange v) ∧
      (uport v p.val).st = 1 ∧ (uport v p.val).unacked = (uport s p.val).unacked ∧ (uport v p.val).lastPeer = some (uport s p.val).peer ∧
      regBit v (utrPort p.val 4) 16 = true ∧ (∀ k, p.val ≠ k → uport v k = uport s k) ∧ v = { s with utr := v.utr, regs := v.regs }) ∧
    ((uport s p.val).en.disabling = true → ∃ v, becomes (.portLinkLost p) s (noticeChange v) ∧
      (uport v p.val).en = { en := (uport s p.val).en.pendOn || (uport s p.val).retrain } ∧ (uport v p.val).retrain = false ∧
      (uport v p.val).st = (if ((uport s p.val).en.pendOn = true ∨ (uport s p.val).retrain = true) ∧ s.glb.bypassOpen = true then 1 else 0) ∧
      (∀ k, p.val ≠ k → uport v k = uport s k) ∧ v = { s with utr := v.utr, regs := v.regs }) ∧
    ((uport s p.val).en.disabling = false → (uport s p.val).st ≠ 2 → exec (.portLinkLost p) s = .next s) ∧
    ((uport s p.val).st = 2 →
      (∀ (vc : Fin 6) (n : BitVec 7), (uport s p.val).wait = [] → becomes (.credit p vc n) s (utrPump (modPort s p.val fun u =>
        { u with held := sset u.held vc.val (min 128 (heldOf u vc.val + n.toNat)) }))) ∧
      (∀ (vc : Fin 6) (n : BitVec 7) (f : Flit), (uport s p.val).wait = [(vc.val, f)] → 0 < n.toNat → (uport s p.val).en.disabling = false →
        (uport s p.val).unacked.length < 256 → ∃ v, becomes (.credit p vc n) s (utrPump v) ∧
          (uport v p.val).wait = [] ∧ (uport v p.val).wire = (uport s p.val).wire ++ [f] ∧
          (uport v p.val).unacked = (uport s p.val).unacked ++ [f] ∧ (uport v p.val).txSeq = (uport s p.val).txSeq + 1 ∧
          heldOf (uport v p.val) vc.val = min 128 (heldOf (uport s p.val) vc.val + n.toNat) - 1 ∧ v = { s with utr := v.utr }) ∧
      (∀ (sq : BitVec 18) (k : Nat), k < (uport s p.val).unacked.length → k < 2 ^ 18 → (uport s p.val).unacked.length ≤ (uport s p.val).txSeq →
        sq.toNat = ((uport s p.val).txSeq - (uport s p.val).unacked.length + k) % 2 ^ 18 →
        ((uport s p.val).wait = [] → becomes (.ack p sq) s (utrPump (modPort s p.val fun u =>
          { u with replays := 0, replayAt := none, unacked := u.unacked.drop (k + 1) }))) ∧
        becomes (.replay p sq) s (modPort (regOr (regCount s (utrPort p.val 0xC) 1) (utrPort p.val 4) (2 ^ 18)) p.val fun u =>
          { u with wire := u.wire ++ u.unacked.drop k,
                   wireSq := u.wireSq ++ (List.range (u.unacked.drop k).length).map (u.txSeq - u.unacked.length + k + ·), replays := if u.replayAt = some sq.toNat then u.replays + 1 else 1,
                   replayAt := some sq.toNat })) ∧
      (8 ≤ (uport s p.val).replays → (uport s p.val).en.disabling = false → ∃ v, becomes (.replayRetrain p) s (noticeChange v) ∧
        (uport v p.val).st = 1 ∧ (uport v p.val).replays = 0 ∧ (uport v p.val).unacked = (uport s p.val).unacked ∧
        (∀ k, p.val ≠ k → uport v k = uport s k) ∧ v = { s with utr := v.utr, regs := v.regs }) ∧
      ((uport s p.val).replays < 8 → exec (.replayRetrain p) s = .next s)) ∧
    ((uport s p.val).st ≠ 2 → (∀ vc n, exec (.credit p vc n) s = .next s) ∧ (∀ sq, exec (.ack p sq) s = .next s ∧ exec (.replay p sq) s = .next s) ∧
      exec (.replayRetrain p) s = .next s) ∧
    (∀ (u : UPort) (j : Nat), (payloadBits u j).length = 5140 ∧ (codeword u j).length = 544 ∧
      (codeword u j).take 514 = symbols (payloadBits u j) ∧ ∀ (f : Flit) (sq : Nat), (flitBits f sq).length = 1314)

/-- The row of a flit, with the TYPE of Table 13-3 that it carries. -/
def flitRow (p : PIx) (f : Flit) (i : Instr) (type : Nat) : Prop :=
  i = .recordFlit p f ∧ type = 0x01 ∨ i = .markFlit p f ∧ type = 0x02 ∨ i = .chainHeadFlit p f ∧ type = 0x10 ∨
  i = .chainDataFlit p f ∧ type = 0x11 ∨ i = .mgtBlockFlit p f ∧ type = 0x20 ∨ i = .mgtWordFlit p f ∧ type = 0x21 ∨
  i = .noticeFlit p f ∧ type = 0x31 ∨ i = .membershipFlit p f ∧ type = 0x30

/-- R305, R311: a whole flit at an UP port is acknowledged with its link sequence and enters its channel's receive buffer, and one with a quad that
cannot be corrected is discarded, with every later one, after one REPLAY. What the flits at the heads of the buffers do: R300, R310, R320 to R326 (the receipt of one quad that says a peer's host took a message is the
model's: log 17). -/
def Obligations.FlitsArrive : Prop :=
  (∀ (s : State) (p : PIx) (f : Flit) (i : Instr) (type : Nat), s.rested → flitRow p f i type → f.shape = true →
    (fhdrOf f.hdr).type = type →
    ((uport s p.val).st = 2 → ∀ (t : State) (g : Flit), readFlit s p.val f = (t, some g) → (fhdrOf g.hdr).vc < 6 →
      becomes i s (utrPump (modPort t p.val fun u =>
      { u with replaying := false, rxSeq := u.rxSeq + 1, rx := sset u.rx (fhdrOf g.hdr).vc (sget [] u.rx (fhdrOf g.hdr).vc ++ [g]),
               words := u.words ++ [(1, u.rxSeq % 2 ^ 18 * 4)] }))) ∧
    ((uport s p.val).st = 2 → ∀ t : State, readFlit s p.val f = (t, none) → (uport s p.val).replaying = false →
      becomes i s (utrPump (modPort t p.val fun u =>
      { u with replaying := true, words := u.words ++ [(2, u.rxSeq % 2 ^ 18 * 4)] }))) ∧
    ((uport s p.val).st = 2 → (readFlit s p.val f).2 = none → (uport s p.val).replaying = true → becomes i s (utrPump s)) ∧
    (f.errs = [] → (f.poison.all fun b => !b) = true → readFlit s p.val f = (s, some f)) ∧
    (∀ (k : Fin 9) (e : BitVec 146), f.errs = [{ quad := k, err := e }] → classify (nth false f.poison k.val) (flitQuad f k.val == 0) e.toNat 0 = .ue →
      readFlit s p.val f = (countUe s 13 (0xF8 + p.val) (16 * flitFold (uport s p.val).rxSeq k.val), none)) ∧
    ((uport s p.val).st ≠ 2 → becomes i s (utrPump s))) ∧
  (∀ (s : State) (p : PIx) (f : Flit) (i : Instr) (type : Nat), s.rested → flitRow p f i type → f.shape = true →
    (fhdrOf f.hdr).type ≠ type → exec i s = .next s) ∧
  (∀ (s : State) (p vc : Nat) (f : Flit), (fhdrOf f.hdr).dst = s.glb.rank →
    ((fhdrOf f.hdr).type = 0x21 → (chan s (0x40 + (fhdrOf f.hdr).src) 0).word = none →
      useFlit s p vc f = some (modChan s (0x40 + (fhdrOf f.hdr).src) 0 fun c => { c with word := some (BitVec.ofNat 32 (leAt (payBytes f) 0 4)) })) ∧
    ((fhdrOf f.hdr).type = 0x21 → (chan s (0x40 + (fhdrOf f.hdr).src) 0).word ≠ none → useFlit s p vc f = none) ∧
    ((fhdrOf f.hdr).type = 0x20 → (fhdrOf f.hdr).len ≠ 1 → (chan s (0x40 + (fhdrOf f.hdr).src) 0).queue.length < Config.mbxSlots →
      useFlit s p vc f = some (modChan s (0x40 + (fhdrOf f.hdr).src) 0 fun c =>
        { c with queue := c.queue ++ [(List.range 16).map fun i => BitVec.ofNat 32 (leAt (payBytes f) (4 * i) 4)] })) ∧
    ((fhdrOf f.hdr).type = 0x20 → (fhdrOf f.hdr).len ≠ 1 → Config.mbxSlots ≤ (chan s (0x40 + (fhdrOf f.hdr).src) 0).queue.length →
      useFlit s p vc f = none) ∧
    ((fhdrOf f.hdr).type = 0x20 → (fhdrOf f.hdr).len = 1 → useFlit s p vc f = some (modChan s 0 (0x40 + (fhdrOf f.hdr).src) fun c =>
        if leAt (payBytes f) 0 1 = 1 then { c with far := c.far - 1 } else { c with farWord := false })) ∧
    ((fhdrOf f.hdr).type = 0x10 → findRed s (leAt (sub (payBytes f) 0 32) 4 1) (fhdrOf f.hdr).seq = none → useFlit s p vc f = none) ∧
    (∀ red, (fhdrOf f.hdr).type = 0x10 → findRed s (leAt (sub (payBytes f) 0 32) 4 1) (fhdrOf f.hdr).seq = some red → red.spansLeft = 0 →
      red.root = s.glb.rank → red.passed = true → ∃ v, useFlit s p vc f = some v ∧
        (∃ c, findChain v (fhdrOf f.hdr).src = some c ∧ c.ends = true ∧ c.seq = (fhdrOf f.hdr).seq ∧ c.adds = false) ∧
        v = { s with utr := v.utr, regs := v.regs }) ∧
    (∀ c red, (fhdrOf f.hdr).type = 0x11 → findChain s (fhdrOf f.hdr).src = some c → findRed s c.entry c.seq = some red → c.ends = true →
      c.inBuf.length + (payBytes f).length < chainRec c.hdr → (fhdrOf f.hdr).last = false →
      ∃ v, useFlit s p vc f = some v ∧ (∃ d, findChain v (fhdrOf f.hdr).src = some d ∧ d.inBuf = c.inBuf ++ payBytes f ∧ d.kept = c.kept) ∧
        v = { s with utr := v.utr }) ∧
    ((fhdrOf f.hdr).type = 0x11 → findChain s (fhdrOf f.hdr).src = none → useFlit s p vc f = some (regCount s (utrCom 0x14) 1))) ∧
  (∀ (s : State) (p vc : Nat) (f : Flit),
    ((fhdrOf f.hdr).type = 0x30 → (fhdrOf f.hdr).epoch ≤ epochNow s → useFlit s p vc f = some s) ∧
    ((fhdrOf f.hdr).type = 0x30 → epochNow s < (fhdrOf f.hdr).epoch → ∃ v, useFlit s p vc f = some (flood (forwardPeers v) (some p) f) ∧
      epochNow v = (fhdrOf f.hdr).epoch ∧ liveNow v = (fhdrOf f.hdr).seq % 2 ^ 16 ∧ regBit v (utrCom 0x10) 0 = true) ∧
    ((fhdrOf f.hdr).type = 0x31 → (fhdrOf f.hdr).src = s.glb.rank ∨ newer s (fhdrOf f.hdr).src (fhdrOf f.hdr).seq = false →
      useFlit s p vc f = some s) ∧
    ((fhdrOf f.hdr).type = 0x31 → (fhdrOf f.hdr).src ≠ s.glb.rank → newer s (fhdrOf f.hdr).src (fhdrOf f.hdr).seq = true → leAt (payBytes f) 0 1 = 0 →
      ∃ v, useFlit s p vc f = some (coordinate v) ∧ sget ({} : NoticeRec) v.utr.notices (fhdrOf f.hdr).src =
        { seq := (fhdrOf f.hdr).seq, peers := (List.range (min 4 (leAt (payBytes f) 1 1))).map fun i => leAt (payBytes f) (2 + i) 1 % 16,
          ready := leAt (payBytes f) 8 8 } ∧ v.regs = (flood s (some p) f).regs) ∧
    (castNext s (some (p, vc, (fhdrOf f.hdr).dst)) = [] →
      ((fhdrOf f.hdr).type = 2 → useFlit s p vc f = some (takeMark s (fhdrOf f.hdr).queue (fhdrOf f.hdr) (payBytes f))) ∧
      ((fhdrOf f.hdr).type = 1 → copyFits s (fhdrOf f.hdr) = true → useFlit s p vc f = some (takeRecord s (fhdrOf f.hdr).queue (fhdrOf f.hdr) f)) ∧
      ((fhdrOf f.hdr).type = 1 → copyFits s (fhdrOf f.hdr) = false → useFlit s p vc f = none))) ∧
  (∀ (s : State) (q : Nat) (h : FHdr) (f : Flit) (bs : List Byte), copies s q = true →
    ((rq s q).passing = false → (rq s q).started = true → (rq s q).gap = false → (rq s q).next = h.seq →
      rq (takeMark s q h bs) q = { rq s q with marks := (rq s q).marks ++ [{ first := h.seq, count := leAt bs 0 4, group := leAt bs 4 1, epoch := h.epoch }] } ∧
      takeMark s q h bs = { s with utr := (takeMark s q h bs).utr }) ∧
    ((rq s q).gap = false → (rq s q).started = true → (rq s q).next = h.seq → h.first = true →
      (h.last = false → rq (takeRecord s q h f) q = { rq s q with asm := payBytes f, asmBad := payPoison f } ∧
        takeRecord s q h f = { s with utr := (takeRecord s q h f).utr }) ∧
      (h.last = true → payPoison f = [] → takeRecord s q h f =
        modRq (ingest s q [(payBytes f).take (recStride s q)]) q fun k => { k with asm := [], asmBad := [], next := (k.next + 1) % 2 ^ 32, told := false })) ∧
    ((rq s q).gap = false → (rq s q).started = true → (rq s q).next ≠ h.seq →
      (rq (takeRecord s q h f) q).gap = true ∧ (rq (takeRecord s q h f) q).marks = [] ∧ regBit (takeRecord s q h f) (utrCom 0x10) 1 = true))

/-! ## Receiver units -/

/-- Where the status entry of a task lies: STATUS_ADDR of its run's descriptor and its place in the status ring (R185). -/
def statusAt (r : SlotRun) (t : Task) : Nat := leAt r.desc 0x40 8 + 32 * (taskIndex r t % max 1 (leAt r.desc 0x48 2))

/-- R182, R183, R185, R186, R188: a strobe counts on the units it strobes, closes the windows of their open tasks and opens the next task of every run that
has one, a message in progress leaving it a tail of at most MAX_TAIL (R183; that it is in progress as log 71 says is the model's choice);
SLOT_EN strobes count toward a watch event (R259); a window closes; a task whose window is closed and whose context has ended writes its status entry; a DROP_LATE task stops at its deadline,
the records still due counted in `RXU_REX_DROP_LATE` (R83). -/
def Obligations.SlotEvents : Prop :=
  ∀ s : State, s.flowing →
    (∀ line : UIx,
      becomes (.slotStrobe line) s ((strobedBy s line.val).foldl (fun s u => (localsOf s u).foldl (fun s l => beginTask s u l) s) (strobeCount s line.val)) ∧
      (∀ u, u ∈ strobedBy s line.val → (rxu (strobeCount s line.val) u).strobes = (rxu s u).strobes + 1 ∧
        (∀ l r, l ∈ localsOf s u → (stream s u l).run = some r → 0 < r.left → unitOn s u = true →
          (stream (strobeCount s line.val) u l).tasks =
            ((stream s u l).tasks.map fun t => if t.stop.isNone then closeStrobe (stream s u l) t else t) ++
              [{ n := (rxu s u).strobes + 1, start := (stream s u l).samples }] ∧
          (stream (strobeCount s line.val) u l).run = some { r with left := r.left - 1, n0 := some (r.n0.getD ((rxu s u).strobes + 1)) })) ∧
      (∀ u, u ∉ strobedBy s line.val → rxu (strobeCount s line.val) u = rxu s u) ∧
      strobeCount s line.val = { s with rxus := (strobeCount s line.val).rxus, watchLines := (strobeCount s line.val).watchLines,
                                        watchDue := (strobeCount s line.val).watchDue } ∧
      (regBit s watchCfg (2 + line.val) = false → (strobeCount s line.val).watchLines = s.watchLines ∧ (strobeCount s line.val).watchDue = s.watchDue) ∧
      (regBit s watchCfg (2 + line.val) = true → sget 0 s.watchLines line.val + 1 < regField s watchCfg 23 8 →
        sget 0 (strobeCount s line.val).watchLines line.val = sget 0 s.watchLines line.val + 1 ∧ (strobeCount s line.val).watchDue = s.watchDue) ∧
      (regBit s watchCfg (2 + line.val) = true → regField s watchCfg 23 8 ≤ sget 0 s.watchLines line.val + 1 →
        sget 0 (strobeCount s line.val).watchLines line.val = 0 ∧
        sget 0 (strobeCount s line.val).watchDue line.val = sget 0 s.watchDue line.val + 1)) ∧
    (∀ (x : Stream) (t : Task), (closeStrobe x t).stop = some x.samples ∧ (t.closed = true → (closeStrobe x t).closed = true) ∧
      (∀ r, x.run = some r → leAt r.desc 0x14 4 = 0 → (closeStrobe x t).closed = true) ∧
      (t.current = none → t.dets = [] → x.agc.found = [] → (closeStrobe x t).closed = true)) ∧
    (∀ (u : UIx) (l : LIx),
      ((∀ t, t ∈ (stream s u.val l.val).tasks → t.closed = true ∨ t.stop = none) → exec (.captureWindowClose u l) s = .next s) ∧
      (∀ before t after, (stream s u.val l.val).tasks = before ++ t :: after → (∀ x, x ∈ before → x.closed = true ∨ x.stop = none) →
        t.closed = false → t.stop ≠ none →
        exec (.captureWindowClose u l) s = .next (finish s (modStream s u.val l.val fun x => { x with tasks := before ++ { t with closed := true } :: after }))) ∧
      ((stream s u.val l.val).run = none ∨ (stream s u.val l.val).tasks = [] →
        exec (.slotStatusWrite u l) s = .next s ∧ exec (.deadlineExpiry u l) s = .next s) ∧
      (∀ r t rest, (stream s u.val l.val).run = some r → (stream s u.val l.val).tasks = t :: rest →
        (t.closed = false ∨ t.ended = false ∨ (ctx s u.val l.val).out ≠ [] → exec (.slotStatusWrite u l) s = .next s) ∧
        (∀ t1, t1 = noteOverrun (stream s u.val l.val) (capSamples s u.val l.val) t → t.closed = true → t.ended = true → (ctx s u.val l.val).out = [] →
          (r.void = true → becomes (.slotStatusWrite u l) s (beginTasks (closeRunDone s u.val l.val) u.val)) ∧
          (r.void = false → sdLlr r.desc = false → s.quads = [] → mapped s (statusAt r t1) 32 = true → statusAt r t1 + 32 ≤ 2 ^ 63 →
            ∃ v, becomes (.slotStatusWrite u l) s (taskDone v u.val l.val r t1) ∧
              (∀ k, k < 32 → mget v.mem (statusAt r t1 + k) =
                nth (0 : Byte) (statusEntry r t1 (taskLate s u.val r t1) (rxu s u.val).strobes.toNat) k) ∧
              (∀ a, a < statusAt r t1 ∨ statusAt r t1 + 32 ≤ a → mget v.mem a = mget s.mem a) ∧ v = { s with mem := v.mem, regs := v.regs })) ∧
        (sdDropLate r.desc = false ∨ taskLate s u.val r t = false ∨ r.void = true → exec (.deadlineExpiry u l) s = .next s) ∧
        (sdDropLate r.desc = true → taskLate s u.val r t = true → r.void = false → (∀ c v k n, c ∈ s.cmds → c.src = .ticket v k n → ¬(v = u ∧ k = l)) →
          ∀ v, v = regCount s (rxuReg u.val 0x6010) (extractsDue s u.val l.val) →
            becomes (.deadlineExpiry u l) s (writeStatus (endCtx v u.val l.val) u.val l.val r
              (noteOverrun (stream s u.val l.val) (capSamples s u.val l.val) { t with closed := true, ended := true, halted := true })) ∧
            (extractsDue s u.val l.val = 0 → v = s) ∧
            (0 < extractsDue s u.val l.val → regBit (endCtx v u.val l.val) (rxuReg u.val 0x6004) 2 = true ∧
              regNat (endCtx v u.val l.val) (rxuReg u.val 0x6010) =
                min 0xFFFFFFFF (regNat s (rxuReg u.val 0x6010) + extractsDue s u.val l.val)))))

/-- R174, R175, R198: the state of a unit's link and of its lanes, and a captured sample: it lies at its place of the capture ring, as zero where the link is down or the
multiblock's CRC failed, and the sample index goes on; a window whose tail has passed closes. -/
def Obligations.LinkAndCapture : Prop :=
  ∀ (s : State) (u : UIx), s.flowing →
    (∀ lanes : BitVec 8,
      (unitOn s u.val = true → (rxu s u.val).linkUp = true → exec (.linkDown ⟨u, lanes⟩) s = .next (finish s
        (regOr (modRxu s u.val fun x => { x with linkUp := false, aligned := false, lock := x.lock &&& (255 - lanes.toNat) })
          (rxuReg u.val 0x100) (2 ^ 16)))) ∧
      (unitOn s u.val = true → (rxu s u.val).linkUp = false → exec (.linkDown ⟨u, lanes⟩) s = .next (finish s
        (modRxu s u.val fun x => { x with aligned := false, lock := x.lock &&& (255 - lanes.toNat) }))) ∧
      (unitOn s u.val = false → exec (.linkDown ⟨u, lanes⟩) s = .next s)) ∧
    (unitOn s u.val = true → (rxu s u.val).linkUp = false → (rxu s u.val).phase = true → exec (.linkReturn u) s = .next (finish s
      (modRxu s u.val fun x => { x with linkUp := true, aligned := true, lock := 2 ^ unitLanes s u.val - 1 }))) ∧
    (unitOn s u.val = false ∨ (rxu s u.val).phase = false ∨ (rxu s u.val).linkUp = true → exec (.linkReturn u) s = .next s) ∧
    (exec (.sysrefEdge u) s = .next (finish s (modRxu s u.val fun x => { x with phase := true }))) ∧
    (exec (.devclkStop u) s = .next (finish s (modRxu s u.val fun x => { x with phase := false }))) ∧
    (∀ mb : Multiblock, mb.samples.length ≤ 8 → capturing s u.val = false → exec (.sampleCapture u mb) s = .next s) ∧
    (∀ (mb : Multiblock) (l a : Nat) (w v : Word), mb.samples.length ≤ 8 → capturing s u.val = true → localsOf s u.val = [l] → nth [] mb.samples l = [w] →
      a = ringAt s u.val l + 4 * ((stream s u.val l).samples % max 1 (capSamples s u.val l)) →
      v = (if (rxu s u.val).linkUp = true ∧ mb.crcOk = true then w else 0) → s.quads = [] → mapped s a 4 = true → a + 4 ≤ 2 ^ 63 →
      Answers (.sampleCapture u mb) s fun t =>
        (∀ k, k < 4 → mget t.mem (a + k) = nth (0 : Byte) (toLe 4 v.toNat) k) ∧ (∀ b, b < a ∨ a + 4 ≤ b → mget t.mem b = mget s.mem b) ∧
        (stream t u.val l).samples = (stream s u.val l).samples + 1 ∧ (stream t u.val l).recent = (v :: (stream s u.val l).recent).take 1279 ∧
        (stream t u.val l).run = (stream s u.val l).run ∧
        (stream t u.val l).tasks = ({ stream s u.val l with
          samples := (stream s u.val l).samples + 1,
          tasks := if (rxu s u.val).linkUp = true ∧ mb.crcOk = true then (stream s u.val l).tasks
            else (stream s u.val l).tasks.map fun x => if x.closed then x else { x with link := true } } : Stream).endTails.tasks ∧
        ((rxu s u.val).linkUp = true → mb.crcOk = false → regBit t (rxuReg u.val 0x100) 17 = true ∧
          regNat t (rxuReg u.val 0x104) = min 0xFFFFFFFF (regNat s (rxuReg u.val 0x104) + 1)) ∧
        t = { s with mem := t.mem, rxus := t.rxus, regs := t.regs, hif := t.hif }) ∧
    (∀ (x : Stream) (r : SlotRun) (t : Task) (p : Nat), x.run = some r → t ∈ x.tasks → t.stop = some p →
      p + leAt r.desc 0x14 4 ≤ x.samples → { t with closed := true } ∈ x.endTails.tasks)

/-- R177, R178, R181, Table 8-3: the gain loop of a stream after a window, at a detection (a freeze waits for a frame of its stream on the port), when it is
released, after a gain frame and its settling time,
and the gain port that sends one pending word at a time in round robin. -/
def Obligations.GainControl : Prop :=
  (∀ (s : State) (u : UIx) (l : LIx), s.flowing →
    ((stream s u.val l.val).agc.wins = [] → exec (.agcWindowEnd u l) s = .next s) ∧
    (∀ p c rest, (stream s u.val l.val).agc.wins = (p, c) :: rest → fieldOf (regGet s (agcReg u.val l.val 0)).toNat 1 0 ≠ 2 →
      Answers (.agcWindowEnd u l) s fun t => (stream t u.val l.val).agc.wins = rest ∧
        (stream t u.val l.val).agc.g = ((stream s u.val l.val).agc.step p c).1 ∧
        (stream t u.val l.val).agc.ctl = regGet s (agcReg u.val l.val 0) ∧ (stream t u.val l.val).agc.range = regGet s (agcReg u.val l.val 0xC) ∧
        (stream t u.val l.val).agc.pend = (if ((stream s u.val l.val).agc.step p c).1 = (stream s u.val l.val).agc.g
          then (stream s u.val l.val).agc.pend else some ((stream s u.val l.val).agc.step p c).1) ∧
        (((stream s u.val l.val).agc.step p c).2 = true → regBit t (agcReg u.val l.val 0x18) 24 = true) ∧
        (stream t u.val l.val).tasks = (stream s u.val l.val).tasks ∧ t = { s with rxus := t.rxus, regs := t.regs, hif := t.hif }) ∧
    ((stream s u.val l.val).agc.found = [] → exec (.preambleDetection u l) s = .next s) ∧
    (∀ ix rest, (stream s u.val l.val).agc.found = ix :: rest → (stream s u.val l.val).agc.cls = 0 →
      Answers (.preambleDetection u l) s fun t => (stream t u.val l.val).agc.found = rest ∧
        (stream t u.val l.val).samples = (stream s u.val l.val).samples ∧ t = { s with rxus := t.rxus, hif := t.hif } ∧
        ((stream s u.val l.val).agc.lateFreeze = true → (stream t u.val l.val).agc = { (stream s u.val l.val).agc with found := rest }) ∧
        ((stream s u.val l.val).agc.lateFreeze = false → (stream t u.val l.val).agc.pend = none ∧ (stream t u.val l.val).agc.frozenAt = ix ∧
          (stream t u.val l.val).agc.wins = [] ∧ (stream t u.val l.val).agc.release = none ∧
          ((∃ g, (rxu s u.val).gcpCur = some (l.val, g)) → (stream t u.val l.val).agc.lateFreeze = true ∧
            (stream t u.val l.val).agc.frozen = (stream s u.val l.val).agc.frozen) ∧
          ((∀ g, (rxu s u.val).gcpCur ≠ some (l.val, g)) → (stream t u.val l.val).agc.frozen = true ∧
            (stream t u.val l.val).agc.frozenG = (stream s u.val l.val).agc.gDone ∧ (stream t u.val l.val).agc.lateFreeze = false))) ∧
    (∀ ix rest x m, (stream s u.val l.val).agc.found = ix :: rest → (stream s u.val l.val).agc.cls ≠ 0 → (stream s u.val l.val).tasks = [x] →
      x.start ≤ ix → (∀ p, x.stop = some p → ix < p) → m = (if (stream s u.val l.val).agc.cls = 2 then (stream s u.val l.val).agc.manual
        else (stream s u.val l.val).agc.gDone) → x.messages < maxMsg (stream s u.val l.val) →
      exec (.preambleDetection u l) s = .next (finish s (modStream s u.val l.val fun y => { y with agc := { y.agc with found := rest }, tasks := [{ x with messages := x.messages + 1, gain := m, lastAt := ix, dets := x.dets ++ [{ at_ := ix, gain := m, seq := x.messages }] }] }))) ∧
    (∀ i, i = .freezeRelease u l ∧ (∃ r, (stream s u.val l.val).agc.release = some r ∧ r ≤ (stream s u.val l.val).samples) ∨
        i = .maxHoldExpiry u l ∧ regField s (agcReg u.val l.val 0x14) 19 0 ≠ 0 ∧
          (stream s u.val l.val).agc.frozenAt + regField s (agcReg u.val l.val 0x14) 19 0 ≤ (stream s u.val l.val).samples →
      ((stream s u.val l.val).agc.frozen = true → fieldOf (regGet s (agcReg u.val l.val 0)).toNat 1 0 ≠ 2 →
        Answers i s fun t => (stream t u.val l.val).agc.frozen = false ∧ (stream t u.val l.val).agc.g = (stream s u.val l.val).agc.frozenG ∧
          (stream t u.val l.val).agc.release = none ∧ (stream t u.val l.val).agc.wins = [] ∧ (stream t u.val l.val).agc.winN = 0 ∧
          (stream t u.val l.val).tasks = (stream s u.val l.val).tasks ∧ t = { s with rxus := t.rxus, hif := t.hif }) ∧
      ((stream s u.val l.val).agc.frozen = false → (stream s u.val l.val).agc.lateFreeze = false → exec i s = .next s) ∧
      ((stream s u.val l.val).agc.frozen = false → (stream s u.val l.val).agc.lateFreeze = true →
        exec i s = .next (finish s (modAgc s u.val l.val fun a => { a with release := some 0 })))) ∧
    ((∀ r, (stream s u.val l.val).agc.release = some r → (stream s u.val l.val).samples < r) → exec (.freezeRelease u l) s = .next s) ∧
    ((stream s u.val l.val).samples < (stream s u.val l.val).agc.frozenAt + regField s (agcReg u.val l.val 0x14) 19 0 →
      exec (.maxHoldExpiry u l) s = .next s) ∧
    (∀ b, (stream s u.val l.val).agc.blank = some b →
      (b ≤ (stream s u.val l.val).samples →
        exec (.settleExpiry u l) s = .next (finish s (modAgc s u.val l.val fun a => { a with blank := none }))) ∧
      ((stream s u.val l.val).samples < b → exec (.settleExpiry u l) s = .next s)) ∧
    (∀ g, unitOn s u.val = true → (rxu s u.val).gcpCur = none →
      nextAfter (rxu s u.val).gcpLast ((List.range 8).filter fun k => (stream s u.val k).agc.pend.isSome) = some l.val →
      (stream s u.val l.val).agc.pend = some g →
      Answers (.gainFrameStart u) s fun t => (rxu t u.val).gcpCur = some (l.val, g) ∧ (rxu t u.val).gcpLast = some l.val ∧
        (rxu t u.val).gcpSeq = ((rxu s u.val).gcpSeq + 1) % 16 ∧ (stream t u.val l.val).agc.pend = none ∧
        (rxu t u.val).gcpSent = (rxu s u.val).gcpSent ++
          [BitVec.ofNat 32 (gainFrame l.val (fieldOf (stream s u.val l.val).agc.range.toNat 31 24) g (rxu s u.val).gcpSeq)] ∧
        (∀ k, l.val ≠ k → stream t u.val k = stream s u.val k) ∧ t = { s with rxus := t.rxus, hif := t.hif }) ∧
    (unitOn s u.val = false ∨ (rxu s u.val).gcpCur ≠ none → exec (.gainFrameStart u) s = .next s) ∧
    (∀ g, (rxu s u.val).gcpCur = some (l.val, g) →
      Answers (.gainFrameDone u) s fun t => (rxu t u.val).gcpCur = none ∧ (stream t u.val l.val).agc.gDone = g ∧
        (stream t u.val l.val).agc.blank = some ((stream s u.val l.val).samples + regField s (agcReg u.val l.val 0x14) 31 20) ∧
        (stream t u.val l.val).agc.lateFreeze = false ∧
        ((stream s u.val l.val).agc.lateFreeze = false → (stream t u.val l.val).agc.frozen = (stream s u.val l.val).agc.frozen ∧
          (stream t u.val l.val).agc.frozenG = (stream s u.val l.val).agc.frozenG) ∧
        ((stream s u.val l.val).agc.lateFreeze = true → (stream t u.val l.val).agc.frozenG = g ∧ regBit t (agcReg u.val l.val 0x18) 26 = true ∧
          ((stream s u.val l.val).agc.release = none → (stream t u.val l.val).agc.frozen = true) ∧
          ((stream s u.val l.val).agc.release = some 0 → (stream t u.val l.val).agc.frozen = false ∧ (stream t u.val l.val).agc.release = none)) ∧
        regGet t (rxuReg u.val 0x3004) = regGet s (rxuReg u.val 0x3004) + 1 ∧
        (∀ k, l.val ≠ k → stream t u.val k = stream s u.val k) ∧ t = { s with rxus := t.rxus, regs := t.regs, hif := t.hif }) ∧
    ((rxu s u.val).gcpCur = none → exec (.gainFrameDone u) s = .next s)) ∧
  (∀ (a : Agc) (p c lo hi : Nat), lo = fieldOf a.range.toNat 7 0 → hi = fieldOf a.range.toNat 15 8 → lo ≤ hi →
    lo ≤ (a.step p c).1 ∧ (a.step p c).1 ≤ hi ∧
    (fieldOf a.ctl.toNat 25 18 = 0 ∨ c < fieldOf a.ctl.toNat 25 18 → (a.step p c).2 = false ∧
      (p ≤ a.hi.toNat → a.lo.toNat ≤ p → lo ≤ a.g → a.g ≤ hi → (a.step p c).1 = a.g) ∧
      (a.hi.toNat < p → (a.step p c).1 ≤ max lo a.g) ∧ (p ≤ a.hi.toNat → p < a.lo.toNat → (a.step p c).1 = max lo (min hi (a.g + fieldOf a.ctl.toNat 9 6)))) ∧
    (0 < fieldOf a.ctl.toNat 25 18 → fieldOf a.ctl.toNat 25 18 ≤ c → (a.step p c).2 = true ∧
      (fieldOf a.ctl.toNat 17 14 ≤ a.g → (a.step p c).1 = max lo (min hi (a.g - fieldOf a.ctl.toNat 17 14)))))

/-! ## The sequencer cores -/

/-- R283 to R288, R301: the engine-op instructions of the context that runs. An accepted issue takes the next ticket into rd; a block outside the task
region or delivered poisoned (R281) raises an access fault, and with 16 tickets outstanding the context blocks; a MOVE waits for a burst of the data mover;
WAIT blocks until its ticket has an outcome. -/
def Obligations.EngineOps : Prop :=
  ∀ (s : State) (u : UIx) (rd rs1 rs2 : RIx), s.flowing →
    (runningOn s u.val = none → exec (.eopIssue u rd rs1 rs2) s = .next s ∧ exec (.eopWait u rd rs1) s = .next s ∧ exec (.eopPoll u rd rs1) s = .next s ∧
      exec (.eopMove u rd rs1 rs2) s = .next s ∧ exec (.eopMwait u rd rs1) s = .next s ∧ exec (.eopEnq u rd rs1 rs2) s = .next s) ∧
    (∀ (c : LIx) (k : Ctx) (a b : Word), runningOn s u.val = some c.val → k = ctx s u.val c.val → a = ctxReg k rs1.val → b = ctxReg k rs2.val →
      (inTask a.toNat 64 = false → becomes (.eopIssue u rd rs1 rs2) s (trapCtx s u.val c.val 5)) ∧
      (inTask a.toNat 64 = true → Config.maxTickets ≤ k.out.length →
        becomes (.eopIssue u rd rs1 rs2) s (blockIn s u.val c.val (.issue rd.val a b))) ∧
      (∀ s1, inTask a.toNat 64 = true → k.out.length < Config.maxTickets → localLoad s u.val a.toNat 64 = (s1, none) →
        becomes (.eopIssue u rd rs1 rs2) s (trapCtx s1 u.val c.val 5)) ∧
      (∀ s1 bs, inTask a.toNat 64 = true → k.out.length < Config.maxTickets → localLoad s u.val a.toNat 64 = (s1, some bs) →
        (b.toNat < 3 → a.toNat % 64 = 0 → opCheck (newTicket s1 u.val c.val rd.val b.toNat).1 u.val c.val b.toNat bs = .ok →
          Answers (.eopIssue u rd rs1 rs2) s fun t =>
            t.ticketOps = s.ticketOps ++ [{ u := u.val, c := c.val, n := BitVec.ofNat 32 k.next, target := b.toNat, slot := bs,
                                            wins := (reachNow s1 (ctxOwner s1 u.val c.val)).wins }] ∧
            (ctx t u.val c.val).out = k.out ++ [(BitVec.ofNat 32 k.next, b.toNat)] ∧ (ctx t u.val c.val).next = k.next + 1 ∧
            (ctx t u.val c.val).pc = k.pc + 4 ∧ (rd.val ≠ 0 → ctxReg (ctx t u.val c.val) rd.val = BitVec.ofNat 32 k.next) ∧
            (∀ x, x ≠ rd.val → ctxReg (ctx t u.val c.val) x = ctxReg k x) ∧ (rxu t u.val).mem = (rxu s1 u.val).mem ∧
            t = { s1 with rxus := t.rxus, ticketOps := t.ticketOps, hif := t.hif }) ∧
        (b.toNat = 3 → a.toNat % 64 = 0 → jobOk (newTicket s1 u.val c.val rd.val 3).1 u.val c.val bs = true →
          Answers (.eopIssue u rd rs1 rs2) s fun t => (ctx t u.val c.val).jobs =
              k.jobs ++ [{ tk := BitVec.ofNat 32 k.next, addr := a.toNat, block := bs }] ∧
            (ctx t u.val c.val).pc = k.pc + 4 ∧ t = { s1 with rxus := t.rxus, hif := t.hif }) ∧
        (4 ≤ b.toNat ∨ a.toNat % 64 ≠ 0 → Answers (.eopIssue u rd rs1 rs2) s fun t =>
          t.ticketsReady = s.ticketsReady ++ [{ u := u.val, c := c.val, n := BitVec.ofNat 32 k.next, status := .format, flags := 0 }] ∧
          (ctx t u.val c.val).pc = k.pc + 4 ∧ t = { s1 with rxus := t.rxus, ticketsReady := t.ticketsReady, hif := t.hif })) ∧
      (∀ w, outcomeOf k a = some w → Answers (.eopWait u rd rs1) s fun t => (rd.val ≠ 0 → ctxReg (ctx t u.val c.val) rd.val = w) ∧
        (∀ x, x ≠ rd.val → ctxReg (ctx t u.val c.val) x = ctxReg k x) ∧ (ctx t u.val c.val).pc = k.pc + 4 ∧ t = { s with rxus := t.rxus, hif := t.hif }) ∧
      (outcomeOf k a = none → becomes (.eopWait u rd rs1) s (blockIn s u.val c.val (.wait rd.val a))) ∧
      (Answers (.eopPoll u rd rs1) s fun t => (rd.val ≠ 0 → ctxReg (ctx t u.val c.val) rd.val = (outcomeOf k a).getD 0x80) ∧
        (∀ x, x ≠ rd.val → ctxReg (ctx t u.val c.val) x = ctxReg k x) ∧ (ctx t u.val c.val).pc = k.pc + 4 ∧ t = { s with rxus := t.rxus, hif := t.hif }) ∧
      (mayTalk u.val (fieldOf a.toNat 7 0) = false → becomes (.eopMwait u rd rs1) s (trapCtx s u.val c.val 5)) ∧
      (mayTalk u.val (fieldOf a.toNat 7 0) = true →
        (mwaitHolds s u.val a = true → Answers (.eopMwait u rd rs1) s fun t => (rd.val ≠ 0 → ctxReg (ctx t u.val c.val) rd.val = 0) ∧
          (ctx t u.val c.val).pc = k.pc + 4 ∧ t = { s with rxus := t.rxus, hif := t.hif }) ∧
        (mwaitHolds s u.val a = false → becomes (.eopMwait u rd rs1) s (blockIn s u.val c.val (.mwait rd.val a)))) ∧
      (a.toNat < 16 ∨ inTask (a.toNat - 16) (fieldOf b.toNat 12 0 + 16) = false →
        becomes (.eopMove u rd rs1 rs2) s (trapCtx s u.val c.val 5)) ∧
      (16 ≤ a.toNat → inTask (a.toNat - 16) (fieldOf b.toNat 12 0 + 16) = true →
        (Config.maxTickets ≤ k.out.length → becomes (.eopMove u rd rs1 rs2) s (blockIn s u.val c.val (.move rd.val a b))) ∧
        (∀ s1, k.out.length < Config.maxTickets → localLoad s u.val (a.toNat - 16) 16 = (s1, none) →
          becomes (.eopMove u rd rs1 rs2) s (trapCtx s1 u.val c.val 5)) ∧
        (∀ s1 bs d n, k.out.length < Config.maxTickets → localLoad s u.val (a.toNat - 16) 16 = (s1, some bs) → d = leAt bs 0 8 →
          n = fieldOf b.toNat 12 0 → n % 16 = 0 → 0 < n → n ≤ 4096 → a.toNat % 16 = 0 → d % 16 = 0 →
          (reaches (newTicket s1 u.val c.val rd.val 4).1 (runReach (newTicket s1 u.val c.val rd.val 4).1 u.val c.val) d n = true →
            Answers (.eopMove u rd rs1 rs2) s fun t =>
              t.moves = s.moves ++ [{ u := u.val, c := c.val, n := BitVec.ofNat 32 k.next, q := ctxOwner s1 u.val c.val, loc := a.toNat,
                                      dev := d, len := n, out := bitOf b.toNat 31 }] ∧
              (ctx t u.val c.val).out = k.out ++ [(BitVec.ofNat 32 k.next, 4)] ∧ (ctx t u.val c.val).pc = k.pc + 4 ∧
              t = { s1 with rxus := t.rxus, moves := t.moves, hif := t.hif }) ∧
          (reaches (newTicket s1 u.val c.val rd.val 4).1 (runReach (newTicket s1 u.val c.val rd.val 4).1 u.val c.val) d n = false →
            Answers (.eopMove u rd rs1 rs2) s fun t =>
              t.ticketsReady = s.ticketsReady ++ [{ u := u.val, c := c.val, n := BitVec.ofNat 32 k.next, status := .aperture, flags := 0 }] ∧
              (ctx t u.val c.val).pc = k.pc + 4 ∧ t = { s1 with rxus := t.rxus, ticketsReady := t.ticketsReady, hif := t.hif }))) ∧
      (inTask a.toNat (enqLen b) = false → becomes (.eopEnq u rd rs1 rs2) s (trapCtx s u.val c.val 5)) ∧
      (inTask a.toNat (enqLen b) = true →
        (Config.maxTickets ≤ k.out.length → becomes (.eopEnq u rd rs1 rs2) s (blockIn s u.val c.val (.enq rd.val a b))) ∧
        (∀ s1, k.out.length < Config.maxTickets → localLoad s u.val a.toNat (enqLen b) = (s1, none) →
          becomes (.eopEnq u rd rs1 rs2) s (trapCtx s1 u.val c.val 5)) ∧
        (∀ s1 bs, k.out.length < Config.maxTickets → localLoad s u.val a.toNat (enqLen b) = (s1, some bs) →
          becomes (.eopEnq u rd rs1 rs2) s (retire (doEnq s1 u c rd.val a b bs) u.val c.val id)))) ∧
    (∀ a len, s.quads = [] → (∀ x, x ∈ rangeQuads a len → x ∉ (rxu s u.val).bad) →
      localLoad s u.val a len = (s, some (mread (rxu s u.val).mem a len))) ∧
    (∀ (c : LIx) (a b : Word) (q : Nat) (cmd : Cmd) (s1 : State) (bs : List Byte), q = ctxOwner s u.val c.val → s1 = (newTicket s u.val c.val rd.val 5).1 →
      cmd = { uid := s.nextUid, src := .ticket u c (BitVec.ofNat 32 (ctx s u.val c.val).next), op := 12,
              slot := enqSlot (fieldOf b.toNat 15 0) (fieldOf b.toNat 24 16 + 1), data := bs } →
      b.toNat < 2 ^ 25 → a.toNat % 64 = 0 → fieldOf b.toNat 24 16 < 256 → fieldOf b.toNat 15 0 < 16384 →
      enqueuePriv s1 q (enqSlot (fieldOf b.toNat 15 0) (fieldOf b.toNat 24 16 + 1)) = false →
      enqueueOk { s1 with cmds := s1.cmds ++ [cmd], nextUid := s1.nextUid + 1 } (fieldOf b.toNat 15 0) (fieldOf b.toNat 24 16 + 1) = true →
      ticketWaits { s1 with cmds := s1.cmds ++ [cmd], nextUid := s1.nextUid + 1 } u.val c.val (BitVec.ofNat 32 (ctx s u.val c.val).next) = false →
      doEnq s u c rd.val a b bs = enqueueTry { s1 with cmds := s1.cmds ++ [cmd], nextUid := s1.nextUid + 1 } cmd)

/-- R279, R290 to R292: WFI and the services of ECALL for the context that runs, and the exception that ends it, with no other context ready; a core
without a running context takes the ready one next in order. -/
def Obligations.ContextServices : Prop :=
  (∀ (s : State) (u : UIx), s.flowing → runningOn s u.val = none →
    exec (.wfi u) s = .next s ∧ exec (.end_ u) s = .next s ∧ exec (.yield u) s = .next s ∧ exec (.note u) s = .next s ∧
    ∀ cause, exec (.uModeException u cause) s = .next s) ∧
  (∀ (s : State) (u : UIx) (c : LIx) (k : Ctx), s.flowing → runningOn s u.val = some c.val → k = ctx s u.val c.val →
    (∀ x, x ∈ (rxu s u.val).ctxs → x.2.st ≠ .ready) →
    (exec (.wfi u) s = .next (finish s (modCtx s u.val c.val fun k => { k with st := .blocked .wfi }))) ∧
    (∀ x rest, (stream s u.val c.val).tasks = x :: rest →
      (Answers (.end_ u) s fun t => (ctx t u.val c.val).st = .none ∧ (ctx t u.val c.val).pc = k.pc + 4 ∧
        (stream t u.val c.val).tasks = { x with ended := true } :: rest ∧ t = { s with rxus := t.rxus, hif := t.hif }) ∧
      (∀ a0 : Nat, a0 = (ctxReg k 10).toNat → bitOf a0 0 = false → Answers (.note u) s fun t =>
        (stream t u.val c.val).tasks = { x with tb := x.tb || bitOf a0 1, dropped := x.dropped + b2n (bitOf a0 2),
                                                current := if bitOf a0 2 then none else x.current } :: rest ∧
        (ctx t u.val c.val).pc = k.pc + 4 ∧ t = { s with rxus := t.rxus, hif := t.hif }) ∧
      (bitOf (ctxReg k 10).toNat 0 = true → Answers (.note u) s fun t =>
        (∃ y, (stream t u.val c.val).tasks = y :: rest ∧ y.hdrFail = true) ∧ (stream t u.val c.val).agc.frozen = false ∧
        (ctx t u.val c.val).pc = k.pc + 4 ∧ t = { s with rxus := t.rxus, regs := t.regs, hif := t.hif }) ∧
      (∀ cause : BitVec 8, Answers (.uModeException u cause) s fun t => (ctx t u.val c.val).st = .none ∧
        (rxu t u.val).lastTrap = BitVec.ofNat 32 (cause.toNat + c.val * 256) ∧ (rxu t u.val).epc = k.pc ∧
        (stream t u.val c.val).tasks = { x with ended := true, bad := true } :: rest ∧ (ctx t u.val c.val).out = k.out ∧
        regBit t (mgtReg (0x4000 + 0x40 * coreId u.val)) 8 = true ∧ t = { s with rxus := t.rxus, regs := t.regs, hif := t.hif }))) ∧
  (∀ (s : State) (u : UIx) (c : LIx) (k : Ctx), s.flowing → (rxu s u.val).ctxs = [(c.val, k)] → k.st = .running →
    Answers (.yield u) s fun t => (rxu t u.val).ctxs = [(c.val, { k with pc := k.pc + 4 })] ∧ (rxu t u.val).lastCtx = some c.val ∧
      (rxu t u.val).retired = (rxu s u.val).retired + 1 ∧ t = { s with rxus := t.rxus, hif := t.hif }) ∧
  (∀ (s : State) (u : UIx) (c : LIx), s.flowing → runningOn s u.val = some c.val →
    becomes (.yield u) s (schedule (retire s u.val c.val fun k => { k with st := .ready }) u.val)) ∧
  (∀ (s : State) (u d : Nat), runningOn s u = none →
    nextAfter (rxu s u).lastCtx (((rxu s u).ctxs.filter fun x => x.2.st == .ready).map (·.1)) = some d →
    (ctx (schedule s u) u d) = { ctx s u d with st := .running } ∧ (rxu (schedule s u) u).lastCtx = some d ∧
    (∀ c, d ≠ c → ctx (schedule s u) u c = ctx s u c) ∧ schedule s u = { s with rxus := (schedule s u).rxus })

/-- R189, R190, R194, R284, R286: what each unit-local job does when its turn comes, with its outcome ready and its result in its block, and the completion
of a ticket: it is outstanding no longer, its outcome is kept while it is one of the last 64, and a context that waits for it goes on. The extractor takes
the records of a unit in the order of their decodings (R82; which decoding is first: the model's choice, log 74). -/
def Obligations.UnitJobs : Prop :=
  (∀ (s : State) (u : UIx) (c : LIx) (tk : Word), s.flowing →
    ((s.ticketsReady.find? fun t => t.u == u.val && t.c == c.val && t.n == tk) = none ∨ ticketWaits s u.val c.val tk = true →
      exec (.ticketComplete u c tk) s = .next s) ∧
    (∀ x, (s.ticketsReady.find? fun t => t.u == u.val && t.c == c.val && t.n == tk) = some x → ticketWaits s u.val c.val tk = false →
      (ctx s u.val c.val).cal = none →
      ((∀ y, y ∈ (rxu s u.val).ctxs → y.2.st = .none ∨ y.2.st = .running) →
        Answers (.ticketComplete u c tk) s fun t => (ctx t u.val c.val).out = (ctx s u.val c.val).out.filter (fun y => y.1 != tk) ∧
          (ctx t u.val c.val).outcomes = ((tk, outcomeWord x.status x.flags) :: (ctx s u.val c.val).outcomes).filter (fun y => (ctx s u.val c.val).recent y.1) ∧
          t.ticketsReady = s.ticketsReady.filter (fun t => !(t.u == u.val && t.c == c.val && t.n == tk)) ∧
          t = { s with rxus := t.rxus, ticketsReady := t.ticketsReady, hif := t.hif }) ∧
      (∀ k rd, (rxu s u.val).ctxs = [(c.val, k)] → k.st = .blocked (.wait rd tk) → k.recent tk = true →
        Answers (.ticketComplete u c tk) s fun t => (ctx t u.val c.val).st = .running ∧ (ctx t u.val c.val).pc = k.pc + 4 ∧
          (rd ≠ 0 → ctxReg (ctx t u.val c.val) rd = outcomeWord x.status x.flags) ∧
          t = { s with rxus := t.rxus, ticketsReady := t.ticketsReady, hif := t.hif })) ∧
    (jobTurn s u.val c.val tk 1 = none → exec (.detect u c tk) s = .next s) ∧ (jobTurn s u.val c.val tk 2 = none → exec (.fft u c tk) s = .next s) ∧
    (jobTurn s u.val c.val tk 3 = none → exec (.trellis u c tk) s = .next s) ∧
    (jobTurn s u.val c.val tk 4 = none ∨ (stream s u.val c.val).run = none → exec (.extract u c tk) s = .next s) ∧
    (jobTurn s u.val c.val tk 5 = none ∨ (stream s u.val c.val).run = none → exec (.calibrate u c tk) s = .next s) ∧
    (jobTurn s u.val c.val tk 6 = none → exec (.release u c tk) s = .next s) ∧
    (∀ j x, jobTurn s u.val c.val tk 1 = some j → x = headTask s u.val c.val →
      (∀ m rest, x.dets = m :: rest → becomes (.detect u c tk) s (jobDone (modTask s u.val c.val fun t =>
        { endMessage t with dets := rest, lost := false, current := if m.excess then none else some m }) u.val c.val j .ok 0
        (toLe 8 (m.at_ - x.start) ++ toLe 4 (2 * b2n m.excess)))) ∧
      (x.dets = [] → x.closed = true → becomes (.detect u c tk) s (jobDone (modTask s u.val c.val endMessage) u.val c.val j .ok 0 (toLe 8 0 ++ toLe 4 1))) ∧
      (x.dets = [] → x.closed = false → exec (.detect u c tk) s = .next s)) ∧
    (∀ (j : Job) (e : Nat) (i : Instr), (e = 2 ∧ i = .fft u c tk ∨ e = 3 ∧ i = .trellis u c tk) → jobTurn s u.val c.val tk e = some j →
      ((sget [] (rxu s u.val).eng e).any fun k => k.uid == none && k.c == c.val && k.job == j) = false →
      exec i s = .next (finish s (modRxu s u.val fun x =>
        { x with eng := sset x.eng e (sget [] x.eng e ++ [{ c := c.val, q := ctxOwner s u.val c.val, job := j }]) }))) ∧
    (∀ j r t, jobTurn s u.val c.val tk 4 = some j → (stream s u.val c.val).run = some r → t = headTask s u.val c.val →
      (t.lost = true ∨ extractorTakes s u.val c.val j = false →
        becomes (.extract u c tk) s (notBuilt s u.val c.val j .ok false)) ∧
      (t.lost = false → extractorTakes s u.val c.val j = true → sdLlr r.desc = false → extractFirst s u.val ≠ some (c.val, j.tk) →
        exec (.extract u c tk) s = .next s) ∧
      (∀ s1 s2 bs x, t.lost = false → extractorTakes s u.val c.val j = true → sdLlr r.desc = false →
        extractFirst s u.val = some (c.val, j.tk) → reaches s (runReach s u.val c.val) (leAt j.block 8 8) (cdiv (leAt j.block 4 4) 8) = true →
        readMem s r.q (0xF0 + u.val) (leAt j.block 8 8) (cdiv (leAt j.block 4 4) 8) = (s1, { bytes := bs }) →
        readXprg s1 (runReach s u.val c.val) u.val (leAt r.desc 0x28 8) = (s2, some x) → bitOf x.options 0 = false → ingestOk s2 x.queue = true →
        (ringRoom s2 x.queue = 0 → becomes (.extract u c tk) s s2) ∧
        (∀ rec_, 0 < ringRoom s2 x.queue → rec_ = buildRecord x (msgTag t.n (leAt r.desc 6 1) (extractMsg t).seq)
            { psdu := bs, bits := leAt j.block 4 4, fcsCheck := false, fcsOk := fcsMatches bs (leAt j.block 4 4), margin := leAt j.block 0x10 4,
              mean := leAt j.block 0x14 4, least := leAt j.block 0x18 4, gain := (extractMsg t).gain, strm := leAt r.desc 6 1 } → rec_.2 = false →
          becomes (.extract u c tk) s (written (regAdd (ingest s2 x.queue [rec_.1]) (rxuReg u.val 0x6008) 1) u.val c.val j))) ∧
      (∀ s1 bs, t.lost = false → extractorTakes s u.val c.val j = true → sdLlr r.desc = true → reaches s (runReach s u.val c.val) (leAt j.block 8 8) (leAt j.block 4 4) = true →
        t.llrUsed + (16 + alignUp (leAt j.block 4 4) 16) ≤ leAt r.desc 0x4C 4 →
        readMem s r.q (0xF0 + u.val) (leAt j.block 8 8) (leAt j.block 4 4) = (s1, { bytes := bs }) →
        becomes (.extract u c tk) s (written (modTask (writeMem s1 r.q (0xF0 + u.val) (llrRegion r t + t.llrUsed)
          (llrHeader s1 u.val r t (leAt j.block 4 4) ++ padTo (alignUp (leAt j.block 4 4) 16) bs)).1 u.val c.val
          fun t => { t with llrUsed := t.llrUsed + (16 + alignUp (leAt j.block 4 4) 16) }) u.val c.val j))) ∧
    (∀ j r, jobTurn s u.val c.val tk 5 = some j → (stream s u.val c.val).run = some r → (ctx s u.val c.val).cal = none →
      (reaches s (runReach s u.val c.val) (leAt j.block 0x10 8) (8 * leAt j.block 4 4) = false →
        becomes (.calibrate u c tk) s (jobDone s u.val c.val j .aperture 0 [])) ∧
      (reaches s (runReach s u.val c.val) (leAt j.block 0x10 8) (8 * leAt j.block 4 4) = true → sdCal r.desc = false →
        becomes (.calibrate u c tk) s (jobDone (writeMem s r.q (coreId u.val) (leAt j.block 0x10 8)
          (List.replicate (leAt j.block 4 4) (toLe 4 0x3F800000 ++ toLe 4 0)).flatten).1 u.val c.val j .ok 0 (toLe 4 0)))) ∧
    (∀ j, jobTurn s u.val c.val tk 6 = some j →
      (leAt j.block 8 8 = 0 ∨ (headTask s u.val c.val).start + leAt j.block 8 8 ≤ (stream s u.val c.val).samples →
        becomes (.release u c tk) s (jobDone (releaseFreeze s u.val c.val) u.val c.val j .ok 0 [])) ∧
      (leAt j.block 8 8 ≠ 0 → (stream s u.val c.val).samples < (headTask s u.val c.val).start + leAt j.block 8 8 →
        (stream s u.val c.val).agc.frozen = true ∨ (stream s u.val c.val).agc.lateFreeze = true →
        becomes (.release u c tk) s (jobDone (modAgc s u.val c.val fun a =>
          { a with release := some ((headTask s u.val c.val).start + leAt j.block 8 8) }) u.val c.val j .ok 0 [])))) ∧
  (∀ (s : State) (u c : Nat) (j : Job) (st : St) (fl : Nat) (res : List Byte),
    (jobDone s u c j st fl res).ticketsReady = s.ticketsReady ++ [{ u := u, c := c, n := j.tk, status := st, flags := fl }] ∧
    (ctx (jobDone s u c j st fl res) u c).jobs = (ctx s u c).jobs.filter (fun i => i.tk != j.tk) ∧
    (queue (jobDone s u c j st fl res) (ctxOwner s u c)).progress = true ∧
    (res ≠ [] → res.length ≤ 16 → (rxu s u).bad = [] → s.quads = [] → localRead (jobDone s u c j st fl res) u (j.addr + 0x30) 16 = padTo 16 res) ∧
    (s.quads = [] → jobDone s u c j st fl res = { s with rxus := (jobDone s u c j st fl res).rxus, queues := (jobDone s u c j st fl res).queues,
                                                         ticketsReady := (jobDone s u c j st fl res).ticketsReady }))

/-! ## Stalls and destroys -/

/-- R262 to R266: a queue whose QUIET has reached its threshold enters STALLED with EN clear, raises its vector and begins its action; a DRAIN that lasts another
STALL_THR watch events becomes a KILL. R270 to R273: when every engine has acknowledged, a destroyed queue is FREE, after CANCELLED completions for its
published slots and the fences of its published signals with their error flag. -/
def Obligations.StallsAndDestroys : Prop :=
  (∀ (s : State) (q : QIx), s.flowing →
     ((queue s q.val).stallDue = false ∨ (queue s q.val).quiet < stallThr s q.val ∨ (queue s q.val).acting ≠ .none →
       exec (.stallDeclared q) s = .next s) ∧
     (∀ v, (queue s q.val).stallDue = true → stallThr s q.val ≤ (queue s q.val).quiet → (queue s q.val).acting = .none →
       (queue s q.val).st = .idle ∨ (queue s q.val).st = .active ∨ (queue s q.val).st = .disabling → bitOf (stallCfg s q.val) 9 = false →
       v = raiseQueue (regOr (modQueue s q.val fun k => { k with stallDue := false, st := .stalled, wasDis := k.st == .disabling, en := false, window := [], watch := 0, acked := false })
         (qfeReg q.val 0x38) (2 ^ 10)) q.val →
       (bitOf (stallCfg s q.val) 8 = false →
         becomes (.stallDeclared q) s (drainQueueRuns (stopMoverLoads (modQueue v q.val fun k => { k with acting := .drain }) q.val) q.val)) ∧
       (bitOf (stallCfg s q.val) 8 = true → becomes (.stallDeclared q) s (killQueue v q.val))) ∧
     (∀ v, tryDetach (modQueue s q.val fun k => { k with stallDue := false }) q.val = some v → (queue s q.val).stallDue = true →
       stallThr s q.val ≤ (queue s q.val).quiet → (queue s q.val).acting = .none → (queue s q.val).st = .idle ∨ (queue s q.val).st = .active →
       becomes (.stallDeclared q) s v ∧ (queue v q.val).quiet = 0 ∧ regBit v (qfeReg q.val 0x38) 12 = true) ∧
     ((queue s q.val).acting ≠ .drain ∨ (queue s q.val).acked = true ∨ unitRuns s q.val = true → exec (.drainQueueComplete q) s = .next s) ∧
     ((queue s q.val).acting = .drain → (queue s q.val).acked = false → unitRuns s q.val = false → s.cmds = [] → s.steps = [] → s.hedges = [] →
       runsOf s q.val = [] → (queue s q.val).indirects = [] → (queue s q.val).en = false → (queue s q.val).pendOn = false →
       Answers (.drainQueueComplete q) s fun t => queue t q.val = { queue s q.val with acting := .none, watch := 0, acked := false, st := (if (queue s q.val).wasDis then .bound else (queue s q.val).st), wasDis := false } ∧
         (∀ r, q.val ≠ r → queue t r = queue s r) ∧ t = { s with queues := t.queues, hif := t.hif }) ∧
     ((queue s q.val).acting ≠ .drain ∨ stallThr s q.val = 0 ∨ (queue s q.val).watch < stallThr s q.val → exec (.drainEscalation q) s = .next s) ∧
     ((queue s q.val).acting = .drain → 0 < stallThr s q.val → stallThr s q.val ≤ (queue s q.val).watch →
       becomes (.drainEscalation q) s (killQueue (regOr s (qfeReg q.val 0x38) (2 ^ 11)) q.val) ∧
       (s.cmds = [] → s.hedges = [] → s.arrays = [] → s.rxus = [] → (queue s q.val).indirects = [] → (queue s q.val).en = false →
         (queue s q.val).pendOn = false → (queue s q.val).wasDis = false →
         Answers (.drainEscalation q) s fun t => (queue t q.val).acting = .none ∧ (queue t q.val).watch = 0 ∧ (queue t q.val).st = (queue s q.val).st ∧
           (queue t q.val).pi = (queue s q.val).pi ∧ (queue t q.val).ci = (queue s q.val).ci ∧ regBit t (qfeReg q.val 0x38) 11 = true ∧
           (∀ r, q.val ≠ r → queue t r = queue s r) ∧ t = { s with queues := t.queues, regs := t.regs, hif := t.hif }))) ∧
  (∀ (s : State) (q : QIx), s.flowing →
     ((queue s q.val).acting ≠ .destroy ∨ unitRuns s q.val = true → exec (.destroyAcksDone q) s = .next s) ∧
     ((queue s q.val).acting = .destroy → unitRuns s q.val = false → s.cmds = [] → s.hedges = [] → s.rxus = [] → (queue s q.val).indirects = [] →
       isRecord s q.val = false →
       ((queue s q.val).pi = (queue s q.val).ci →
         ((queue s q.val).origin = none → Answers (.destroyAcksDone q) s fun t => queue t q.val = {} ∧ (∀ r, q.val ≠ r → queue t r = queue s r) ∧
           t = { s with queues := t.queues, hif := t.hif }) ∧
         (∀ u, (queue s q.val).origin = some u → ∃ v, becomes (.destroyAcksDone q) s (complete v u .ok) ∧ queue v q.val = {} ∧
           (∀ r, q.val ≠ r → queue v r = queue s r) ∧ v = { s with queues := v.queues })) ∧
       (∀ b, (queue s q.val).pi = (queue s q.val).ci + 1 → (queue s q.val).origin = none → (queue s q.val).noFenceErr = false →
         readMem s q.val 0xFC (slotAddr s q.val (queue s q.val).ci) 64 = (s, { bytes := b }) → b.length = 64 → slotOp b = 8 →
         slotCheck s q.val false b = .ok → mayFence s q.val (leAt b 0x18 2) = true →
         becomes (.destroyAcksDone q) s (setQueue (signal (cancelSlot (stopIndirects s q.val .cancelled) q.val ((queue s q.val).ci, b))
           (leAt b 0x18 2) (BitVec.ofNat 64 (leAt b 0x10 8)) true) q.val {}))) ∧
     ((queue s q.val).acting ≠ .destroy ∨ stallThr s q.val = 0 ∨ (queue s q.val).watch < stallThr s q.val ∨ unitRuns s q.val = false →
       exec (.destroyAckTimeout q) s = .next s) ∧
     ((queue s q.val).acting = .destroy → 0 < stallThr s q.val → stallThr s q.val ≤ (queue s q.val).watch → unitRuns s q.val = true →
       ∃ v, v = stopUnits (regOr s (qfeReg q.val 0x38) (2 ^ 11)) q.val ∧
         becomes (.destroyAckTimeout q) s ((voidRuns v q.val).foldl (fun s x => closeRunDone s x.1 x.2) v)))
end

