-- ==== Sys2Proof/Laws/Map.lean ====
section
/-! SUPPORT. The keyed map and the byte memory: a read after a write gives what was written, a write leaves every other place alone,
and every write keeps the canonical form. -/

set_option Elab.async false

namespace Sys2Proof.Machine

/-! ## The keyed map -/

/-- The key that was set reads what was set. -/
@[simp] theorem sget_sset_same {α : Type} (d : α) (m : SMap α) (k : Nat) (v : α) : sget d (sset m k v) k = v := by
  induction m with
  | nil => simp [sset, sget]
  | cons p t ih =>
    simp only [sset]
    split
    · simp [sget]
    · split
      · simp [sget]
      · simp_all [sget]

/-- Every other key reads as before. -/
@[simp] theorem sget_sset_ne {α : Type} (d : α) (m : SMap α) (k j : Nat) (v : α) (h : k ≠ j) : sget d (sset m k v) j = sget d m j := by
  induction m with
  | nil => simp [sset, sget, h]
  | cons p t ih =>
    simp only [sset]
    split
    · rename_i e; subst e; simp [sget, h]
    · split
      · simp [sget, h]
      · simp [sget, ih]

/-- A key that was deleted reads the default. -/
@[simp] theorem sget_sdel_same {α : Type} (d : α) (m : SMap α) (k : Nat) : sget d (sdel m k) k = d := by
  induction m with
  | nil => rfl
  | cons p t ih =>
    by_cases h : p.1 = k
    · simpa [sdel, h] using ih
    · simpa [sdel, h, sget] using ih

/-- Every other key reads as before a deletion. -/
@[simp] theorem sget_sdel_ne {α : Type} (d : α) (m : SMap α) (k j : Nat) (h : k ≠ j) : sget d (sdel m k) j = sget d m j := by
  induction m with
  | nil => rfl
  | cons p t ih =>
    by_cases e : p.1 = k
    · have : p.1 ≠ j := by omega
      simpa [sdel, e, sget, this, h] using ih
    · simp only [sdel, List.filter_cons, bne_iff_ne, ne_eq, e, not_false_eq_true, ↓reduceIte, sget]
      split
      · rfl
      · simpa [sdel] using ih

/-! ## The byte memory -/

/-- The byte that was set reads what was set. -/
@[simp] theorem mget_mset_same (m : List Host.Cell) (a : Nat) (b : Byte) : mget (mset m a b) a = b := by
  induction m with
  | nil => by_cases h : b = 0#8 <;> simp [mset, mget, h]
  | cons p t ih =>
    obtain ⟨k, v⟩ := p
    simp only [mset]
    split
    · split
      · exact ih
      · simp [mget]
    · rename_i hne
      split
      · simp [mget]
      · simp only [mget, hne, ↓reduceIte]; exact ih

/-- Every other byte reads as before. -/
@[simp] theorem mget_mset_ne (m : List Host.Cell) (a c : Nat) (b : Byte) (h : a ≠ c) : mget (mset m a b) c = mget m c := by
  induction m with
  | nil => by_cases hb : b = 0#8 <;> simp [mset, mget, hb, h]
  | cons p t ih =>
    obtain ⟨k, v⟩ := p
    simp only [mset]
    split
    · rename_i e; subst e; split <;> simp [mget, h, ih]
    · split
      · simp [mget, h]
      · simp [mget, ih]

/-- A rising list above a bound rises above any lower one. -/
theorem cellsFrom_mono (m : List Host.Cell) (x y : Nat) (hxy : x ≤ y) (hc : cellsFrom y m = true) : cellsFrom x m = true := by
  cases m with
  | nil => rfl
  | cons p t =>
    simp only [cellsFrom, Bool.and_eq_true, decide_eq_true_eq] at hc ⊢
    exact ⟨⟨by omega, hc.1.2⟩, hc.2⟩

/-- Setting a byte at or above a bound keeps the rising order above it. -/
theorem cellsFrom_mset : ∀ (m : List Host.Cell) (lo a : Nat) (b : Byte), (b ≠ 0 → lo ≤ a) → cellsFrom lo m = true → cellsFrom lo (mset m a b) = true
  | [], lo, a, b, hl, _ => by
    by_cases h : b = 0#8
    · simp [mset, cellsFrom, h]
    · simp [mset, cellsFrom, h, hl h]
  | (k, v) :: t, lo, a, b, hl, h => by
    simp only [cellsFrom, Bool.and_eq_true, decide_eq_true_eq] at h
    simp only [mset]
    split
    · rename_i e
      subst e
      split
      · rename_i hb
        exact cellsFrom_mono _ lo (k + 1) (by omega) (cellsFrom_mset t (k + 1) k b (fun hn => absurd hb hn) h.2)
      · rename_i hb
        simp only [cellsFrom, Bool.and_eq_true, decide_eq_true_eq, bne_iff_ne, ne_eq]
        exact ⟨⟨hl hb, hb⟩, h.2⟩
    · rename_i hne
      split
      · rename_i hlt
        simp only [cellsFrom, Bool.and_eq_true, decide_eq_true_eq, bne_iff_ne, ne_eq]
        exact ⟨⟨hl hlt.2, hlt.2⟩, ⟨⟨by omega, by simpa using h.1.2⟩, h.2⟩⟩
      · rename_i hlt
        simp only [cellsFrom, Bool.and_eq_true, decide_eq_true_eq]
        refine ⟨h.1, cellsFrom_mset t (k + 1) a b (fun hb => ?_) h.2⟩
        have : ¬ a < k := fun x => hlt ⟨x, hb⟩
        omega

/-- Setting a byte keeps the canonical form. -/
theorem mset_wf (m : List Host.Cell) (a : Nat) (b : Byte) (h : Memory.wf m = true) : Memory.wf (mset m a b) = true :=
  cellsFrom_mset m 0 a b (fun _ => Nat.zero_le a) h

/-- Writing bytes keeps the canonical form. -/
theorem mwrite_wf : ∀ (bs : List Byte) (m : List Host.Cell) (a : Nat), Memory.wf m = true → Memory.wf (mwrite m a bs) = true
  | [], _, _, h => h
  | b :: t, m, a, h => mwrite_wf t (mset m a b) (a + 1) (mset_wf m a b h)

/-- A byte below the bytes written reads as before. -/
theorem mget_mwrite_below : ∀ (bs : List Byte) (m : List Host.Cell) (a c : Nat), c < a → mget (mwrite m a bs) c = mget m c
  | [], _, _, _, _ => rfl
  | b :: t, m, a, c, h => by
    rw [mwrite, mget_mwrite_below t (mset m a b) (a + 1) c (by omega), mget_mset_ne m a c b (by omega)]

/-- A byte outside the bytes written reads as before. -/
theorem mget_mwrite_outside : ∀ (bs : List Byte) (m : List Host.Cell) (a c : Nat), (c < a ∨ a + bs.length ≤ c) →
    mget (mwrite m a bs) c = mget m c
  | [], _, _, _, _ => rfl
  | b :: t, m, a, c, h => by
    rw [mwrite, mget_mwrite_outside t (mset m a b) (a + 1) c (by simp only [List.length_cons] at h; omega),
      mget_mset_ne m a c b (by simp only [List.length_cons] at h; omega)]

/-- The bytes written read as written. -/
theorem mget_mwrite_inside : ∀ (bs : List Byte) (m : List Host.Cell) (a i : Nat), (h : i < bs.length) →
    mget (mwrite m a bs) (a + i) = bs[i]
  | b :: t, m, a, 0, _ => by
    rw [mwrite, show a + 0 = a from rfl, mget_mwrite_below t (mset m a b) (a + 1) a (by omega)]
    exact mget_mset_same m a b
  | b :: t, m, a, i + 1, h => by
    have := mget_mwrite_inside t (mset m a b) (a + 1) i (by simpa using h)
    rw [mwrite, show a + (i + 1) = a + 1 + i by omega, this]
    rfl

/-- A range written reads back as written. -/
theorem mread_mwrite (m : List Host.Cell) (a : Nat) (bs : List Byte) :
    mread (mwrite m a bs) a bs.length = bs := by
  apply List.ext_getElem
  · simp [mread]
  · intro i h1 h2
    simp only [mread, List.getElem_map, List.getElem_range]
    exact mget_mwrite_inside bs m a i h2

end Sys2Proof.Machine
end

