-- ==== Sys2Proof/Laws/State.lean ====
section
/-! SUPPORT. What the named updates of State leave and set: one lemma for each field, true by unfolding. -/

set_option Elab.async false

namespace Sys2Proof.Machine

@[simp] theorem regSet_pending (s : State) (o : Nat) (w : Word) : (regSet s o w).pending = s.pending := rfl
@[simp] theorem regSet_freeTick (s : State) (o : Nat) (w : Word) : (regSet s o w).freeTick = s.freeTick := rfl
@[simp] theorem regSet_busData (s : State) (o : Nat) (w : Word) : (regSet s o w).busData = s.busData := rfl
@[simp] theorem regSet_busEp (s : State) (o : Nat) (w : Word) : (regSet s o w).busEp = s.busEp := rfl
@[simp] theorem regSet_hostWait (s : State) (o : Nat) (w : Word) : (regSet s o w).hostWait = s.hostWait := rfl
@[simp] theorem regSet_regs (s : State) (o : Nat) (w : Word) : (regSet s o w).regs = sset s.regs o w := rfl
@[simp] theorem regSet_glb (s : State) (o : Nat) (w : Word) : (regSet s o w).glb = s.glb := rfl
@[simp] theorem regSet_queues (s : State) (o : Nat) (w : Word) : (regSet s o w).queues = s.queues := rfl
@[simp] theorem regSet_cmds (s : State) (o : Nat) (w : Word) : (regSet s o w).cmds = s.cmds := rfl
@[simp] theorem regSet_nextUid (s : State) (o : Nat) (w : Word) : (regSet s o w).nextUid = s.nextUid := rfl
@[simp] theorem regSet_ticketOps (s : State) (o : Nat) (w : Word) : (regSet s o w).ticketOps = s.ticketOps := rfl
@[simp] theorem regSet_ticketsReady (s : State) (o : Nat) (w : Word) : (regSet s o w).ticketsReady = s.ticketsReady := rfl
@[simp] theorem regSet_pleach (s : State) (o : Nat) (w : Word) : (regSet s o w).pleach = s.pleach := rfl
@[simp] theorem regSet_ctxQueue (s : State) (o : Nat) (w : Word) : (regSet s o w).ctxQueue = s.ctxQueue := rfl
@[simp] theorem regSet_fences (s : State) (o : Nat) (w : Word) : (regSet s o w).fences = s.fences := rfl
@[simp] theorem regSet_watchLines (s : State) (o : Nat) (w : Word) : (regSet s o w).watchLines = s.watchLines := rfl
@[simp] theorem regSet_watchDue (s : State) (o : Nat) (w : Word) : (regSet s o w).watchDue = s.watchDue := rfl
@[simp] theorem regSet_front (s : State) (o : Nat) (w : Word) : (regSet s o w).front = s.front := rfl
@[simp] theorem regSet_cmdTurn (s : State) (o : Nat) (w : Word) : (regSet s o w).cmdTurn = s.cmdTurn := rfl
@[simp] theorem regSet_hedges (s : State) (o : Nat) (w : Word) : (regSet s o w).hedges = s.hedges := rfl
@[simp] theorem regSet_arrays (s : State) (o : Nat) (w : Word) : (regSet s o w).arrays = s.arrays := rfl
@[simp] theorem regSet_steps (s : State) (o : Nat) (w : Word) : (regSet s o w).steps = s.steps := rfl
@[simp] theorem regSet_ranks (s : State) (o : Nat) (w : Word) : (regSet s o w).ranks = s.ranks := rfl
@[simp] theorem regSet_rotations (s : State) (o : Nat) (w : Word) : (regSet s o w).rotations = s.rotations := rfl
@[simp] theorem regSet_claimsWaiting (s : State) (o : Nat) (w : Word) : (regSet s o w).claimsWaiting = s.claimsWaiting := rfl
@[simp] theorem regSet_movers (s : State) (o : Nat) (w : Word) : (regSet s o w).movers = s.movers := rfl
@[simp] theorem regSet_moves (s : State) (o : Nat) (w : Word) : (regSet s o w).moves = s.moves := rfl
@[simp] theorem regSet_moverTurn (s : State) (o : Nat) (w : Word) : (regSet s o w).moverTurn = s.moverTurn := rfl
@[simp] theorem regSet_moverBytes (s : State) (o : Nat) (w : Word) : (regSet s o w).moverBytes = s.moverBytes := rfl
@[simp] theorem regSet_pwr (s : State) (o : Nat) (w : Word) : (regSet s o w).pwr = s.pwr := rfl
@[simp] theorem regSet_hif (s : State) (o : Nat) (w : Word) : (regSet s o w).hif = s.hif := rfl
@[simp] theorem regSet_mem (s : State) (o : Nat) (w : Word) : (regSet s o w).mem = s.mem := rfl
@[simp] theorem regSet_host (s : State) (o : Nat) (w : Word) : (regSet s o w).host = s.host := rfl
@[simp] theorem regSet_macs (s : State) (o : Nat) (w : Word) : (regSet s o w).macs = s.macs := rfl
@[simp] theorem regSet_utr (s : State) (o : Nat) (w : Word) : (regSet s o w).utr = s.utr := rfl
@[simp] theorem regSet_chans (s : State) (o : Nat) (w : Word) : (regSet s o w).chans = s.chans := rfl
@[simp] theorem regSet_rxus (s : State) (o : Nat) (w : Word) : (regSet s o w).rxus = s.rxus := rfl
@[simp] theorem regSet_calOut (s : State) (o : Nat) (w : Word) : (regSet s o w).calOut = s.calOut := rfl
@[simp] theorem regSet_quads (s : State) (o : Nat) (w : Word) : (regSet s o w).quads = s.quads := rfl
@[simp] theorem regSet_onChip (s : State) (o : Nat) (w : Word) : (regSet s o w).onChip = s.onChip := rfl
@[simp] theorem regSet_hostPoison (s : State) (o : Nat) (w : Word) : (regSet s o w).hostPoison = s.hostPoison := rfl
@[simp] theorem regSet_sage (s : State) (o : Nat) (w : Word) : (regSet s o w).sage = s.sage := rfl
@[simp] theorem regSet_restructs (s : State) (o : Nat) (w : Word) : (regSet s o w).restructs = s.restructs := rfl
@[simp] theorem regSet_scrubAt (s : State) (o : Nat) (w : Word) : (regSet s o w).scrubAt = s.scrubAt := rfl

@[simp] theorem setQueue_pending (s : State) (q : Nat) (v : Queue) : (setQueue s q v).pending = s.pending := rfl
@[simp] theorem setQueue_freeTick (s : State) (q : Nat) (v : Queue) : (setQueue s q v).freeTick = s.freeTick := rfl
@[simp] theorem setQueue_busData (s : State) (q : Nat) (v : Queue) : (setQueue s q v).busData = s.busData := rfl
@[simp] theorem setQueue_busEp (s : State) (q : Nat) (v : Queue) : (setQueue s q v).busEp = s.busEp := rfl
@[simp] theorem setQueue_hostWait (s : State) (q : Nat) (v : Queue) : (setQueue s q v).hostWait = s.hostWait := rfl
@[simp] theorem setQueue_regs (s : State) (q : Nat) (v : Queue) : (setQueue s q v).regs = s.regs := rfl
@[simp] theorem setQueue_glb (s : State) (q : Nat) (v : Queue) : (setQueue s q v).glb = s.glb := rfl
@[simp] theorem setQueue_queues (s : State) (q : Nat) (v : Queue) : (setQueue s q v).queues = sset s.queues q v := rfl
@[simp] theorem setQueue_cmds (s : State) (q : Nat) (v : Queue) : (setQueue s q v).cmds = s.cmds := rfl
@[simp] theorem setQueue_nextUid (s : State) (q : Nat) (v : Queue) : (setQueue s q v).nextUid = s.nextUid := rfl
@[simp] theorem setQueue_ticketOps (s : State) (q : Nat) (v : Queue) : (setQueue s q v).ticketOps = s.ticketOps := rfl
@[simp] theorem setQueue_ticketsReady (s : State) (q : Nat) (v : Queue) : (setQueue s q v).ticketsReady = s.ticketsReady := rfl
@[simp] theorem setQueue_pleach (s : State) (q : Nat) (v : Queue) : (setQueue s q v).pleach = s.pleach := rfl
@[simp] theorem setQueue_ctxQueue (s : State) (q : Nat) (v : Queue) : (setQueue s q v).ctxQueue = s.ctxQueue := rfl
@[simp] theorem setQueue_fences (s : State) (q : Nat) (v : Queue) : (setQueue s q v).fences = s.fences := rfl
@[simp] theorem setQueue_watchLines (s : State) (q : Nat) (v : Queue) : (setQueue s q v).watchLines = s.watchLines := rfl
@[simp] theorem setQueue_watchDue (s : State) (q : Nat) (v : Queue) : (setQueue s q v).watchDue = s.watchDue := rfl
@[simp] theorem setQueue_front (s : State) (q : Nat) (v : Queue) : (setQueue s q v).front = s.front := rfl
@[simp] theorem setQueue_cmdTurn (s : State) (q : Nat) (v : Queue) : (setQueue s q v).cmdTurn = s.cmdTurn := rfl
@[simp] theorem setQueue_hedges (s : State) (q : Nat) (v : Queue) : (setQueue s q v).hedges = s.hedges := rfl
@[simp] theorem setQueue_arrays (s : State) (q : Nat) (v : Queue) : (setQueue s q v).arrays = s.arrays := rfl
@[simp] theorem setQueue_steps (s : State) (q : Nat) (v : Queue) : (setQueue s q v).steps = s.steps := rfl
@[simp] theorem setQueue_ranks (s : State) (q : Nat) (v : Queue) : (setQueue s q v).ranks = s.ranks := rfl
@[simp] theorem setQueue_rotations (s : State) (q : Nat) (v : Queue) : (setQueue s q v).rotations = s.rotations := rfl
@[simp] theorem setQueue_claimsWaiting (s : State) (q : Nat) (v : Queue) : (setQueue s q v).claimsWaiting = s.claimsWaiting := rfl
@[simp] theorem setQueue_movers (s : State) (q : Nat) (v : Queue) : (setQueue s q v).movers = s.movers := rfl
@[simp] theorem setQueue_moves (s : State) (q : Nat) (v : Queue) : (setQueue s q v).moves = s.moves := rfl
@[simp] theorem setQueue_moverTurn (s : State) (q : Nat) (v : Queue) : (setQueue s q v).moverTurn = s.moverTurn := rfl
@[simp] theorem setQueue_moverBytes (s : State) (q : Nat) (v : Queue) : (setQueue s q v).moverBytes = s.moverBytes := rfl
@[simp] theorem setQueue_pwr (s : State) (q : Nat) (v : Queue) : (setQueue s q v).pwr = s.pwr := rfl
@[simp] theorem setQueue_hif (s : State) (q : Nat) (v : Queue) : (setQueue s q v).hif = s.hif := rfl
@[simp] theorem setQueue_mem (s : State) (q : Nat) (v : Queue) : (setQueue s q v).mem = s.mem := rfl
@[simp] theorem setQueue_host (s : State) (q : Nat) (v : Queue) : (setQueue s q v).host = s.host := rfl
@[simp] theorem setQueue_macs (s : State) (q : Nat) (v : Queue) : (setQueue s q v).macs = s.macs := rfl
@[simp] theorem setQueue_utr (s : State) (q : Nat) (v : Queue) : (setQueue s q v).utr = s.utr := rfl
@[simp] theorem setQueue_chans (s : State) (q : Nat) (v : Queue) : (setQueue s q v).chans = s.chans := rfl
@[simp] theorem setQueue_rxus (s : State) (q : Nat) (v : Queue) : (setQueue s q v).rxus = s.rxus := rfl
@[simp] theorem setQueue_calOut (s : State) (q : Nat) (v : Queue) : (setQueue s q v).calOut = s.calOut := rfl
@[simp] theorem setQueue_quads (s : State) (q : Nat) (v : Queue) : (setQueue s q v).quads = s.quads := rfl
@[simp] theorem setQueue_onChip (s : State) (q : Nat) (v : Queue) : (setQueue s q v).onChip = s.onChip := rfl
@[simp] theorem setQueue_hostPoison (s : State) (q : Nat) (v : Queue) : (setQueue s q v).hostPoison = s.hostPoison := rfl
@[simp] theorem setQueue_sage (s : State) (q : Nat) (v : Queue) : (setQueue s q v).sage = s.sage := rfl
@[simp] theorem setQueue_restructs (s : State) (q : Nat) (v : Queue) : (setQueue s q v).restructs = s.restructs := rfl
@[simp] theorem setQueue_scrubAt (s : State) (q : Nat) (v : Queue) : (setQueue s q v).scrubAt = s.scrubAt := rfl

@[simp] theorem modQueue_pending (s : State) (q : Nat) (f : Queue → Queue) : (modQueue s q f).pending = s.pending := rfl
@[simp] theorem modQueue_freeTick (s : State) (q : Nat) (f : Queue → Queue) : (modQueue s q f).freeTick = s.freeTick := rfl
@[simp] theorem modQueue_busData (s : State) (q : Nat) (f : Queue → Queue) : (modQueue s q f).busData = s.busData := rfl
@[simp] theorem modQueue_busEp (s : State) (q : Nat) (f : Queue → Queue) : (modQueue s q f).busEp = s.busEp := rfl
@[simp] theorem modQueue_hostWait (s : State) (q : Nat) (f : Queue → Queue) : (modQueue s q f).hostWait = s.hostWait := rfl
@[simp] theorem modQueue_regs (s : State) (q : Nat) (f : Queue → Queue) : (modQueue s q f).regs = s.regs := rfl
@[simp] theorem modQueue_glb (s : State) (q : Nat) (f : Queue → Queue) : (modQueue s q f).glb = s.glb := rfl
@[simp] theorem modQueue_queues (s : State) (q : Nat) (f : Queue → Queue) : (modQueue s q f).queues = sset s.queues q (f (queue s q)) := rfl
@[simp] theorem modQueue_cmds (s : State) (q : Nat) (f : Queue → Queue) : (modQueue s q f).cmds = s.cmds := rfl
@[simp] theorem modQueue_nextUid (s : State) (q : Nat) (f : Queue → Queue) : (modQueue s q f).nextUid = s.nextUid := rfl
@[simp] theorem modQueue_ticketOps (s : State) (q : Nat) (f : Queue → Queue) : (modQueue s q f).ticketOps = s.ticketOps := rfl
@[simp] theorem modQueue_ticketsReady (s : State) (q : Nat) (f : Queue → Queue) : (modQueue s q f).ticketsReady = s.ticketsReady := rfl
@[simp] theorem modQueue_pleach (s : State) (q : Nat) (f : Queue → Queue) : (modQueue s q f).pleach = s.pleach := rfl
@[simp] theorem modQueue_ctxQueue (s : State) (q : Nat) (f : Queue → Queue) : (modQueue s q f).ctxQueue = s.ctxQueue := rfl
@[simp] theorem modQueue_fences (s : State) (q : Nat) (f : Queue → Queue) : (modQueue s q f).fences = s.fences := rfl
@[simp] theorem modQueue_watchLines (s : State) (q : Nat) (f : Queue → Queue) : (modQueue s q f).watchLines = s.watchLines := rfl
@[simp] theorem modQueue_watchDue (s : State) (q : Nat) (f : Queue → Queue) : (modQueue s q f).watchDue = s.watchDue := rfl
@[simp] theorem modQueue_front (s : State) (q : Nat) (f : Queue → Queue) : (modQueue s q f).front = s.front := rfl
@[simp] theorem modQueue_cmdTurn (s : State) (q : Nat) (f : Queue → Queue) : (modQueue s q f).cmdTurn = s.cmdTurn := rfl
@[simp] theorem modQueue_hedges (s : State) (q : Nat) (f : Queue → Queue) : (modQueue s q f).hedges = s.hedges := rfl
@[simp] theorem modQueue_arrays (s : State) (q : Nat) (f : Queue → Queue) : (modQueue s q f).arrays = s.arrays := rfl
@[simp] theorem modQueue_steps (s : State) (q : Nat) (f : Queue → Queue) : (modQueue s q f).steps = s.steps := rfl
@[simp] theorem modQueue_ranks (s : State) (q : Nat) (f : Queue → Queue) : (modQueue s q f).ranks = s.ranks := rfl
@[simp] theorem modQueue_rotations (s : State) (q : Nat) (f : Queue → Queue) : (modQueue s q f).rotations = s.rotations := rfl
@[simp] theorem modQueue_claimsWaiting (s : State) (q : Nat) (f : Queue → Queue) : (modQueue s q f).claimsWaiting = s.claimsWaiting := rfl
@[simp] theorem modQueue_movers (s : State) (q : Nat) (f : Queue → Queue) : (modQueue s q f).movers = s.movers := rfl
@[simp] theorem modQueue_moves (s : State) (q : Nat) (f : Queue → Queue) : (modQueue s q f).moves = s.moves := rfl
@[simp] theorem modQueue_moverTurn (s : State) (q : Nat) (f : Queue → Queue) : (modQueue s q f).moverTurn = s.moverTurn := rfl
@[simp] theorem modQueue_moverBytes (s : State) (q : Nat) (f : Queue → Queue) : (modQueue s q f).moverBytes = s.moverBytes := rfl
@[simp] theorem modQueue_pwr (s : State) (q : Nat) (f : Queue → Queue) : (modQueue s q f).pwr = s.pwr := rfl
@[simp] theorem modQueue_hif (s : State) (q : Nat) (f : Queue → Queue) : (modQueue s q f).hif = s.hif := rfl
@[simp] theorem modQueue_mem (s : State) (q : Nat) (f : Queue → Queue) : (modQueue s q f).mem = s.mem := rfl
@[simp] theorem modQueue_host (s : State) (q : Nat) (f : Queue → Queue) : (modQueue s q f).host = s.host := rfl
@[simp] theorem modQueue_macs (s : State) (q : Nat) (f : Queue → Queue) : (modQueue s q f).macs = s.macs := rfl
@[simp] theorem modQueue_utr (s : State) (q : Nat) (f : Queue → Queue) : (modQueue s q f).utr = s.utr := rfl
@[simp] theorem modQueue_chans (s : State) (q : Nat) (f : Queue → Queue) : (modQueue s q f).chans = s.chans := rfl
@[simp] theorem modQueue_rxus (s : State) (q : Nat) (f : Queue → Queue) : (modQueue s q f).rxus = s.rxus := rfl
@[simp] theorem modQueue_calOut (s : State) (q : Nat) (f : Queue → Queue) : (modQueue s q f).calOut = s.calOut := rfl
@[simp] theorem modQueue_quads (s : State) (q : Nat) (f : Queue → Queue) : (modQueue s q f).quads = s.quads := rfl
@[simp] theorem modQueue_onChip (s : State) (q : Nat) (f : Queue → Queue) : (modQueue s q f).onChip = s.onChip := rfl
@[simp] theorem modQueue_hostPoison (s : State) (q : Nat) (f : Queue → Queue) : (modQueue s q f).hostPoison = s.hostPoison := rfl
@[simp] theorem modQueue_sage (s : State) (q : Nat) (f : Queue → Queue) : (modQueue s q f).sage = s.sage := rfl
@[simp] theorem modQueue_restructs (s : State) (q : Nat) (f : Queue → Queue) : (modQueue s q f).restructs = s.restructs := rfl
@[simp] theorem modQueue_scrubAt (s : State) (q : Nat) (f : Queue → Queue) : (modQueue s q f).scrubAt = s.scrubAt := rfl

@[simp] theorem setHedge_pending (s : State) (h : Nat) (v : Hedge) : (setHedge s h v).pending = s.pending := rfl
@[simp] theorem setHedge_freeTick (s : State) (h : Nat) (v : Hedge) : (setHedge s h v).freeTick = s.freeTick := rfl
@[simp] theorem setHedge_busData (s : State) (h : Nat) (v : Hedge) : (setHedge s h v).busData = s.busData := rfl
@[simp] theorem setHedge_busEp (s : State) (h : Nat) (v : Hedge) : (setHedge s h v).busEp = s.busEp := rfl
@[simp] theorem setHedge_hostWait (s : State) (h : Nat) (v : Hedge) : (setHedge s h v).hostWait = s.hostWait := rfl
@[simp] theorem setHedge_regs (s : State) (h : Nat) (v : Hedge) : (setHedge s h v).regs = s.regs := rfl
@[simp] theorem setHedge_glb (s : State) (h : Nat) (v : Hedge) : (setHedge s h v).glb = s.glb := rfl
@[simp] theorem setHedge_queues (s : State) (h : Nat) (v : Hedge) : (setHedge s h v).queues = s.queues := rfl
@[simp] theorem setHedge_cmds (s : State) (h : Nat) (v : Hedge) : (setHedge s h v).cmds = s.cmds := rfl
@[simp] theorem setHedge_nextUid (s : State) (h : Nat) (v : Hedge) : (setHedge s h v).nextUid = s.nextUid := rfl
@[simp] theorem setHedge_ticketOps (s : State) (h : Nat) (v : Hedge) : (setHedge s h v).ticketOps = s.ticketOps := rfl
@[simp] theorem setHedge_ticketsReady (s : State) (h : Nat) (v : Hedge) : (setHedge s h v).ticketsReady = s.ticketsReady := rfl
@[simp] theorem setHedge_pleach (s : State) (h : Nat) (v : Hedge) : (setHedge s h v).pleach = s.pleach := rfl
@[simp] theorem setHedge_ctxQueue (s : State) (h : Nat) (v : Hedge) : (setHedge s h v).ctxQueue = s.ctxQueue := rfl
@[simp] theorem setHedge_fences (s : State) (h : Nat) (v : Hedge) : (setHedge s h v).fences = s.fences := rfl
@[simp] theorem setHedge_watchLines (s : State) (h : Nat) (v : Hedge) : (setHedge s h v).watchLines = s.watchLines := rfl
@[simp] theorem setHedge_watchDue (s : State) (h : Nat) (v : Hedge) : (setHedge s h v).watchDue = s.watchDue := rfl
@[simp] theorem setHedge_front (s : State) (h : Nat) (v : Hedge) : (setHedge s h v).front = s.front := rfl
@[simp] theorem setHedge_cmdTurn (s : State) (h : Nat) (v : Hedge) : (setHedge s h v).cmdTurn = s.cmdTurn := rfl
@[simp] theorem setHedge_hedges (s : State) (h : Nat) (v : Hedge) : (setHedge s h v).hedges = sset s.hedges h v := rfl
@[simp] theorem setHedge_arrays (s : State) (h : Nat) (v : Hedge) : (setHedge s h v).arrays = s.arrays := rfl
@[simp] theorem setHedge_steps (s : State) (h : Nat) (v : Hedge) : (setHedge s h v).steps = s.steps := rfl
@[simp] theorem setHedge_ranks (s : State) (h : Nat) (v : Hedge) : (setHedge s h v).ranks = s.ranks := rfl
@[simp] theorem setHedge_rotations (s : State) (h : Nat) (v : Hedge) : (setHedge s h v).rotations = s.rotations := rfl
@[simp] theorem setHedge_claimsWaiting (s : State) (h : Nat) (v : Hedge) : (setHedge s h v).claimsWaiting = s.claimsWaiting := rfl
@[simp] theorem setHedge_movers (s : State) (h : Nat) (v : Hedge) : (setHedge s h v).movers = s.movers := rfl
@[simp] theorem setHedge_moves (s : State) (h : Nat) (v : Hedge) : (setHedge s h v).moves = s.moves := rfl
@[simp] theorem setHedge_moverTurn (s : State) (h : Nat) (v : Hedge) : (setHedge s h v).moverTurn = s.moverTurn := rfl
@[simp] theorem setHedge_moverBytes (s : State) (h : Nat) (v : Hedge) : (setHedge s h v).moverBytes = s.moverBytes := rfl
@[simp] theorem setHedge_pwr (s : State) (h : Nat) (v : Hedge) : (setHedge s h v).pwr = s.pwr := rfl
@[simp] theorem setHedge_hif (s : State) (h : Nat) (v : Hedge) : (setHedge s h v).hif = s.hif := rfl
@[simp] theorem setHedge_mem (s : State) (h : Nat) (v : Hedge) : (setHedge s h v).mem = s.mem := rfl
@[simp] theorem setHedge_host (s : State) (h : Nat) (v : Hedge) : (setHedge s h v).host = s.host := rfl
@[simp] theorem setHedge_macs (s : State) (h : Nat) (v : Hedge) : (setHedge s h v).macs = s.macs := rfl
@[simp] theorem setHedge_utr (s : State) (h : Nat) (v : Hedge) : (setHedge s h v).utr = s.utr := rfl
@[simp] theorem setHedge_chans (s : State) (h : Nat) (v : Hedge) : (setHedge s h v).chans = s.chans := rfl
@[simp] theorem setHedge_rxus (s : State) (h : Nat) (v : Hedge) : (setHedge s h v).rxus = s.rxus := rfl
@[simp] theorem setHedge_calOut (s : State) (h : Nat) (v : Hedge) : (setHedge s h v).calOut = s.calOut := rfl
@[simp] theorem setHedge_quads (s : State) (h : Nat) (v : Hedge) : (setHedge s h v).quads = s.quads := rfl
@[simp] theorem setHedge_onChip (s : State) (h : Nat) (v : Hedge) : (setHedge s h v).onChip = s.onChip := rfl
@[simp] theorem setHedge_hostPoison (s : State) (h : Nat) (v : Hedge) : (setHedge s h v).hostPoison = s.hostPoison := rfl
@[simp] theorem setHedge_sage (s : State) (h : Nat) (v : Hedge) : (setHedge s h v).sage = s.sage := rfl
@[simp] theorem setHedge_restructs (s : State) (h : Nat) (v : Hedge) : (setHedge s h v).restructs = s.restructs := rfl
@[simp] theorem setHedge_scrubAt (s : State) (h : Nat) (v : Hedge) : (setHedge s h v).scrubAt = s.scrubAt := rfl

@[simp] theorem modHedge_pending (s : State) (h : Nat) (f : Hedge → Hedge) : (modHedge s h f).pending = s.pending := rfl
@[simp] theorem modHedge_freeTick (s : State) (h : Nat) (f : Hedge → Hedge) : (modHedge s h f).freeTick = s.freeTick := rfl
@[simp] theorem modHedge_busData (s : State) (h : Nat) (f : Hedge → Hedge) : (modHedge s h f).busData = s.busData := rfl
@[simp] theorem modHedge_busEp (s : State) (h : Nat) (f : Hedge → Hedge) : (modHedge s h f).busEp = s.busEp := rfl
@[simp] theorem modHedge_hostWait (s : State) (h : Nat) (f : Hedge → Hedge) : (modHedge s h f).hostWait = s.hostWait := rfl
@[simp] theorem modHedge_regs (s : State) (h : Nat) (f : Hedge → Hedge) : (modHedge s h f).regs = s.regs := rfl
@[simp] theorem modHedge_glb (s : State) (h : Nat) (f : Hedge → Hedge) : (modHedge s h f).glb = s.glb := rfl
@[simp] theorem modHedge_queues (s : State) (h : Nat) (f : Hedge → Hedge) : (modHedge s h f).queues = s.queues := rfl
@[simp] theorem modHedge_cmds (s : State) (h : Nat) (f : Hedge → Hedge) : (modHedge s h f).cmds = s.cmds := rfl
@[simp] theorem modHedge_nextUid (s : State) (h : Nat) (f : Hedge → Hedge) : (modHedge s h f).nextUid = s.nextUid := rfl
@[simp] theorem modHedge_ticketOps (s : State) (h : Nat) (f : Hedge → Hedge) : (modHedge s h f).ticketOps = s.ticketOps := rfl
@[simp] theorem modHedge_ticketsReady (s : State) (h : Nat) (f : Hedge → Hedge) : (modHedge s h f).ticketsReady = s.ticketsReady := rfl
@[simp] theorem modHedge_pleach (s : State) (h : Nat) (f : Hedge → Hedge) : (modHedge s h f).pleach = s.pleach := rfl
@[simp] theorem modHedge_ctxQueue (s : State) (h : Nat) (f : Hedge → Hedge) : (modHedge s h f).ctxQueue = s.ctxQueue := rfl
@[simp] theorem modHedge_fences (s : State) (h : Nat) (f : Hedge → Hedge) : (modHedge s h f).fences = s.fences := rfl
@[simp] theorem modHedge_watchLines (s : State) (h : Nat) (f : Hedge → Hedge) : (modHedge s h f).watchLines = s.watchLines := rfl
@[simp] theorem modHedge_watchDue (s : State) (h : Nat) (f : Hedge → Hedge) : (modHedge s h f).watchDue = s.watchDue := rfl
@[simp] theorem modHedge_front (s : State) (h : Nat) (f : Hedge → Hedge) : (modHedge s h f).front = s.front := rfl
@[simp] theorem modHedge_cmdTurn (s : State) (h : Nat) (f : Hedge → Hedge) : (modHedge s h f).cmdTurn = s.cmdTurn := rfl
@[simp] theorem modHedge_hedges (s : State) (h : Nat) (f : Hedge → Hedge) : (modHedge s h f).hedges = sset s.hedges h (f (hedge s h)) := rfl
@[simp] theorem modHedge_arrays (s : State) (h : Nat) (f : Hedge → Hedge) : (modHedge s h f).arrays = s.arrays := rfl
@[simp] theorem modHedge_steps (s : State) (h : Nat) (f : Hedge → Hedge) : (modHedge s h f).steps = s.steps := rfl
@[simp] theorem modHedge_ranks (s : State) (h : Nat) (f : Hedge → Hedge) : (modHedge s h f).ranks = s.ranks := rfl
@[simp] theorem modHedge_rotations (s : State) (h : Nat) (f : Hedge → Hedge) : (modHedge s h f).rotations = s.rotations := rfl
@[simp] theorem modHedge_claimsWaiting (s : State) (h : Nat) (f : Hedge → Hedge) : (modHedge s h f).claimsWaiting = s.claimsWaiting := rfl
@[simp] theorem modHedge_movers (s : State) (h : Nat) (f : Hedge → Hedge) : (modHedge s h f).movers = s.movers := rfl
@[simp] theorem modHedge_moves (s : State) (h : Nat) (f : Hedge → Hedge) : (modHedge s h f).moves = s.moves := rfl
@[simp] theorem modHedge_moverTurn (s : State) (h : Nat) (f : Hedge → Hedge) : (modHedge s h f).moverTurn = s.moverTurn := rfl
@[simp] theorem modHedge_moverBytes (s : State) (h : Nat) (f : Hedge → Hedge) : (modHedge s h f).moverBytes = s.moverBytes := rfl
@[simp] theorem modHedge_pwr (s : State) (h : Nat) (f : Hedge → Hedge) : (modHedge s h f).pwr = s.pwr := rfl
@[simp] theorem modHedge_hif (s : State) (h : Nat) (f : Hedge → Hedge) : (modHedge s h f).hif = s.hif := rfl
@[simp] theorem modHedge_mem (s : State) (h : Nat) (f : Hedge → Hedge) : (modHedge s h f).mem = s.mem := rfl
@[simp] theorem modHedge_host (s : State) (h : Nat) (f : Hedge → Hedge) : (modHedge s h f).host = s.host := rfl
@[simp] theorem modHedge_macs (s : State) (h : Nat) (f : Hedge → Hedge) : (modHedge s h f).macs = s.macs := rfl
@[simp] theorem modHedge_utr (s : State) (h : Nat) (f : Hedge → Hedge) : (modHedge s h f).utr = s.utr := rfl
@[simp] theorem modHedge_chans (s : State) (h : Nat) (f : Hedge → Hedge) : (modHedge s h f).chans = s.chans := rfl
@[simp] theorem modHedge_rxus (s : State) (h : Nat) (f : Hedge → Hedge) : (modHedge s h f).rxus = s.rxus := rfl
@[simp] theorem modHedge_calOut (s : State) (h : Nat) (f : Hedge → Hedge) : (modHedge s h f).calOut = s.calOut := rfl
@[simp] theorem modHedge_quads (s : State) (h : Nat) (f : Hedge → Hedge) : (modHedge s h f).quads = s.quads := rfl
@[simp] theorem modHedge_onChip (s : State) (h : Nat) (f : Hedge → Hedge) : (modHedge s h f).onChip = s.onChip := rfl
@[simp] theorem modHedge_hostPoison (s : State) (h : Nat) (f : Hedge → Hedge) : (modHedge s h f).hostPoison = s.hostPoison := rfl
@[simp] theorem modHedge_sage (s : State) (h : Nat) (f : Hedge → Hedge) : (modHedge s h f).sage = s.sage := rfl
@[simp] theorem modHedge_restructs (s : State) (h : Nat) (f : Hedge → Hedge) : (modHedge s h f).restructs = s.restructs := rfl
@[simp] theorem modHedge_scrubAt (s : State) (h : Nat) (f : Hedge → Hedge) : (modHedge s h f).scrubAt = s.scrubAt := rfl

@[simp] theorem setArr_pending (s : State) (n : Nat) (v : Arr) : (setArr s n v).pending = s.pending := rfl
@[simp] theorem setArr_freeTick (s : State) (n : Nat) (v : Arr) : (setArr s n v).freeTick = s.freeTick := rfl
@[simp] theorem setArr_busData (s : State) (n : Nat) (v : Arr) : (setArr s n v).busData = s.busData := rfl
@[simp] theorem setArr_busEp (s : State) (n : Nat) (v : Arr) : (setArr s n v).busEp = s.busEp := rfl
@[simp] theorem setArr_hostWait (s : State) (n : Nat) (v : Arr) : (setArr s n v).hostWait = s.hostWait := rfl
@[simp] theorem setArr_regs (s : State) (n : Nat) (v : Arr) : (setArr s n v).regs = s.regs := rfl
@[simp] theorem setArr_glb (s : State) (n : Nat) (v : Arr) : (setArr s n v).glb = s.glb := rfl
@[simp] theorem setArr_queues (s : State) (n : Nat) (v : Arr) : (setArr s n v).queues = s.queues := rfl
@[simp] theorem setArr_cmds (s : State) (n : Nat) (v : Arr) : (setArr s n v).cmds = s.cmds := rfl
@[simp] theorem setArr_nextUid (s : State) (n : Nat) (v : Arr) : (setArr s n v).nextUid = s.nextUid := rfl
@[simp] theorem setArr_ticketOps (s : State) (n : Nat) (v : Arr) : (setArr s n v).ticketOps = s.ticketOps := rfl
@[simp] theorem setArr_ticketsReady (s : State) (n : Nat) (v : Arr) : (setArr s n v).ticketsReady = s.ticketsReady := rfl
@[simp] theorem setArr_pleach (s : State) (n : Nat) (v : Arr) : (setArr s n v).pleach = s.pleach := rfl
@[simp] theorem setArr_ctxQueue (s : State) (n : Nat) (v : Arr) : (setArr s n v).ctxQueue = s.ctxQueue := rfl
@[simp] theorem setArr_fences (s : State) (n : Nat) (v : Arr) : (setArr s n v).fences = s.fences := rfl
@[simp] theorem setArr_watchLines (s : State) (n : Nat) (v : Arr) : (setArr s n v).watchLines = s.watchLines := rfl
@[simp] theorem setArr_watchDue (s : State) (n : Nat) (v : Arr) : (setArr s n v).watchDue = s.watchDue := rfl
@[simp] theorem setArr_front (s : State) (n : Nat) (v : Arr) : (setArr s n v).front = s.front := rfl
@[simp] theorem setArr_cmdTurn (s : State) (n : Nat) (v : Arr) : (setArr s n v).cmdTurn = s.cmdTurn := rfl
@[simp] theorem setArr_hedges (s : State) (n : Nat) (v : Arr) : (setArr s n v).hedges = s.hedges := rfl
@[simp] theorem setArr_arrays (s : State) (n : Nat) (v : Arr) : (setArr s n v).arrays = sset s.arrays n v := rfl
@[simp] theorem setArr_steps (s : State) (n : Nat) (v : Arr) : (setArr s n v).steps = s.steps := rfl
@[simp] theorem setArr_ranks (s : State) (n : Nat) (v : Arr) : (setArr s n v).ranks = s.ranks := rfl
@[simp] theorem setArr_rotations (s : State) (n : Nat) (v : Arr) : (setArr s n v).rotations = s.rotations := rfl
@[simp] theorem setArr_claimsWaiting (s : State) (n : Nat) (v : Arr) : (setArr s n v).claimsWaiting = s.claimsWaiting := rfl
@[simp] theorem setArr_movers (s : State) (n : Nat) (v : Arr) : (setArr s n v).movers = s.movers := rfl
@[simp] theorem setArr_moves (s : State) (n : Nat) (v : Arr) : (setArr s n v).moves = s.moves := rfl
@[simp] theorem setArr_moverTurn (s : State) (n : Nat) (v : Arr) : (setArr s n v).moverTurn = s.moverTurn := rfl
@[simp] theorem setArr_moverBytes (s : State) (n : Nat) (v : Arr) : (setArr s n v).moverBytes = s.moverBytes := rfl
@[simp] theorem setArr_pwr (s : State) (n : Nat) (v : Arr) : (setArr s n v).pwr = s.pwr := rfl
@[simp] theorem setArr_hif (s : State) (n : Nat) (v : Arr) : (setArr s n v).hif = s.hif := rfl
@[simp] theorem setArr_mem (s : State) (n : Nat) (v : Arr) : (setArr s n v).mem = s.mem := rfl
@[simp] theorem setArr_host (s : State) (n : Nat) (v : Arr) : (setArr s n v).host = s.host := rfl
@[simp] theorem setArr_macs (s : State) (n : Nat) (v : Arr) : (setArr s n v).macs = s.macs := rfl
@[simp] theorem setArr_utr (s : State) (n : Nat) (v : Arr) : (setArr s n v).utr = s.utr := rfl
@[simp] theorem setArr_chans (s : State) (n : Nat) (v : Arr) : (setArr s n v).chans = s.chans := rfl
@[simp] theorem setArr_rxus (s : State) (n : Nat) (v : Arr) : (setArr s n v).rxus = s.rxus := rfl
@[simp] theorem setArr_calOut (s : State) (n : Nat) (v : Arr) : (setArr s n v).calOut = s.calOut := rfl
@[simp] theorem setArr_quads (s : State) (n : Nat) (v : Arr) : (setArr s n v).quads = s.quads := rfl
@[simp] theorem setArr_onChip (s : State) (n : Nat) (v : Arr) : (setArr s n v).onChip = s.onChip := rfl
@[simp] theorem setArr_hostPoison (s : State) (n : Nat) (v : Arr) : (setArr s n v).hostPoison = s.hostPoison := rfl
@[simp] theorem setArr_sage (s : State) (n : Nat) (v : Arr) : (setArr s n v).sage = s.sage := rfl
@[simp] theorem setArr_restructs (s : State) (n : Nat) (v : Arr) : (setArr s n v).restructs = s.restructs := rfl
@[simp] theorem setArr_scrubAt (s : State) (n : Nat) (v : Arr) : (setArr s n v).scrubAt = s.scrubAt := rfl

@[simp] theorem modArr_pending (s : State) (n : Nat) (f : Arr → Arr) : (modArr s n f).pending = s.pending := rfl
@[simp] theorem modArr_freeTick (s : State) (n : Nat) (f : Arr → Arr) : (modArr s n f).freeTick = s.freeTick := rfl
@[simp] theorem modArr_busData (s : State) (n : Nat) (f : Arr → Arr) : (modArr s n f).busData = s.busData := rfl
@[simp] theorem modArr_busEp (s : State) (n : Nat) (f : Arr → Arr) : (modArr s n f).busEp = s.busEp := rfl
@[simp] theorem modArr_hostWait (s : State) (n : Nat) (f : Arr → Arr) : (modArr s n f).hostWait = s.hostWait := rfl
@[simp] theorem modArr_regs (s : State) (n : Nat) (f : Arr → Arr) : (modArr s n f).regs = s.regs := rfl
@[simp] theorem modArr_glb (s : State) (n : Nat) (f : Arr → Arr) : (modArr s n f).glb = s.glb := rfl
@[simp] theorem modArr_queues (s : State) (n : Nat) (f : Arr → Arr) : (modArr s n f).queues = s.queues := rfl
@[simp] theorem modArr_cmds (s : State) (n : Nat) (f : Arr → Arr) : (modArr s n f).cmds = s.cmds := rfl
@[simp] theorem modArr_nextUid (s : State) (n : Nat) (f : Arr → Arr) : (modArr s n f).nextUid = s.nextUid := rfl
@[simp] theorem modArr_ticketOps (s : State) (n : Nat) (f : Arr → Arr) : (modArr s n f).ticketOps = s.ticketOps := rfl
@[simp] theorem modArr_ticketsReady (s : State) (n : Nat) (f : Arr → Arr) : (modArr s n f).ticketsReady = s.ticketsReady := rfl
@[simp] theorem modArr_pleach (s : State) (n : Nat) (f : Arr → Arr) : (modArr s n f).pleach = s.pleach := rfl
@[simp] theorem modArr_ctxQueue (s : State) (n : Nat) (f : Arr → Arr) : (modArr s n f).ctxQueue = s.ctxQueue := rfl
@[simp] theorem modArr_fences (s : State) (n : Nat) (f : Arr → Arr) : (modArr s n f).fences = s.fences := rfl
@[simp] theorem modArr_watchLines (s : State) (n : Nat) (f : Arr → Arr) : (modArr s n f).watchLines = s.watchLines := rfl
@[simp] theorem modArr_watchDue (s : State) (n : Nat) (f : Arr → Arr) : (modArr s n f).watchDue = s.watchDue := rfl
@[simp] theorem modArr_front (s : State) (n : Nat) (f : Arr → Arr) : (modArr s n f).front = s.front := rfl
@[simp] theorem modArr_cmdTurn (s : State) (n : Nat) (f : Arr → Arr) : (modArr s n f).cmdTurn = s.cmdTurn := rfl
@[simp] theorem modArr_hedges (s : State) (n : Nat) (f : Arr → Arr) : (modArr s n f).hedges = s.hedges := rfl
@[simp] theorem modArr_arrays (s : State) (n : Nat) (f : Arr → Arr) : (modArr s n f).arrays = sset s.arrays n (f (arr s n)) := rfl
@[simp] theorem modArr_steps (s : State) (n : Nat) (f : Arr → Arr) : (modArr s n f).steps = s.steps := rfl
@[simp] theorem modArr_ranks (s : State) (n : Nat) (f : Arr → Arr) : (modArr s n f).ranks = s.ranks := rfl
@[simp] theorem modArr_rotations (s : State) (n : Nat) (f : Arr → Arr) : (modArr s n f).rotations = s.rotations := rfl
@[simp] theorem modArr_claimsWaiting (s : State) (n : Nat) (f : Arr → Arr) : (modArr s n f).claimsWaiting = s.claimsWaiting := rfl
@[simp] theorem modArr_movers (s : State) (n : Nat) (f : Arr → Arr) : (modArr s n f).movers = s.movers := rfl
@[simp] theorem modArr_moves (s : State) (n : Nat) (f : Arr → Arr) : (modArr s n f).moves = s.moves := rfl
@[simp] theorem modArr_moverTurn (s : State) (n : Nat) (f : Arr → Arr) : (modArr s n f).moverTurn = s.moverTurn := rfl
@[simp] theorem modArr_moverBytes (s : State) (n : Nat) (f : Arr → Arr) : (modArr s n f).moverBytes = s.moverBytes := rfl
@[simp] theorem modArr_pwr (s : State) (n : Nat) (f : Arr → Arr) : (modArr s n f).pwr = s.pwr := rfl
@[simp] theorem modArr_hif (s : State) (n : Nat) (f : Arr → Arr) : (modArr s n f).hif = s.hif := rfl
@[simp] theorem modArr_mem (s : State) (n : Nat) (f : Arr → Arr) : (modArr s n f).mem = s.mem := rfl
@[simp] theorem modArr_host (s : State) (n : Nat) (f : Arr → Arr) : (modArr s n f).host = s.host := rfl
@[simp] theorem modArr_macs (s : State) (n : Nat) (f : Arr → Arr) : (modArr s n f).macs = s.macs := rfl
@[simp] theorem modArr_utr (s : State) (n : Nat) (f : Arr → Arr) : (modArr s n f).utr = s.utr := rfl
@[simp] theorem modArr_chans (s : State) (n : Nat) (f : Arr → Arr) : (modArr s n f).chans = s.chans := rfl
@[simp] theorem modArr_rxus (s : State) (n : Nat) (f : Arr → Arr) : (modArr s n f).rxus = s.rxus := rfl
@[simp] theorem modArr_calOut (s : State) (n : Nat) (f : Arr → Arr) : (modArr s n f).calOut = s.calOut := rfl
@[simp] theorem modArr_quads (s : State) (n : Nat) (f : Arr → Arr) : (modArr s n f).quads = s.quads := rfl
@[simp] theorem modArr_onChip (s : State) (n : Nat) (f : Arr → Arr) : (modArr s n f).onChip = s.onChip := rfl
@[simp] theorem modArr_hostPoison (s : State) (n : Nat) (f : Arr → Arr) : (modArr s n f).hostPoison = s.hostPoison := rfl
@[simp] theorem modArr_sage (s : State) (n : Nat) (f : Arr → Arr) : (modArr s n f).sage = s.sage := rfl
@[simp] theorem modArr_restructs (s : State) (n : Nat) (f : Arr → Arr) : (modArr s n f).restructs = s.restructs := rfl
@[simp] theorem modArr_scrubAt (s : State) (n : Nat) (f : Arr → Arr) : (modArr s n f).scrubAt = s.scrubAt := rfl

@[simp] theorem setFence_pending (s : State) (n : Nat) (v : Fence) : (setFence s n v).pending = s.pending := rfl
@[simp] theorem setFence_freeTick (s : State) (n : Nat) (v : Fence) : (setFence s n v).freeTick = s.freeTick := rfl
@[simp] theorem setFence_busData (s : State) (n : Nat) (v : Fence) : (setFence s n v).busData = s.busData := rfl
@[simp] theorem setFence_busEp (s : State) (n : Nat) (v : Fence) : (setFence s n v).busEp = s.busEp := rfl
@[simp] theorem setFence_hostWait (s : State) (n : Nat) (v : Fence) : (setFence s n v).hostWait = s.hostWait := rfl
@[simp] theorem setFence_regs (s : State) (n : Nat) (v : Fence) : (setFence s n v).regs = s.regs := rfl
@[simp] theorem setFence_glb (s : State) (n : Nat) (v : Fence) : (setFence s n v).glb = s.glb := rfl
@[simp] theorem setFence_queues (s : State) (n : Nat) (v : Fence) : (setFence s n v).queues = s.queues := rfl
@[simp] theorem setFence_cmds (s : State) (n : Nat) (v : Fence) : (setFence s n v).cmds = s.cmds := rfl
@[simp] theorem setFence_nextUid (s : State) (n : Nat) (v : Fence) : (setFence s n v).nextUid = s.nextUid := rfl
@[simp] theorem setFence_ticketOps (s : State) (n : Nat) (v : Fence) : (setFence s n v).ticketOps = s.ticketOps := rfl
@[simp] theorem setFence_ticketsReady (s : State) (n : Nat) (v : Fence) : (setFence s n v).ticketsReady = s.ticketsReady := rfl
@[simp] theorem setFence_pleach (s : State) (n : Nat) (v : Fence) : (setFence s n v).pleach = s.pleach := rfl
@[simp] theorem setFence_ctxQueue (s : State) (n : Nat) (v : Fence) : (setFence s n v).ctxQueue = s.ctxQueue := rfl
@[simp] theorem setFence_fences (s : State) (n : Nat) (v : Fence) : (setFence s n v).fences = sset s.fences n v := rfl
@[simp] theorem setFence_watchLines (s : State) (n : Nat) (v : Fence) : (setFence s n v).watchLines = s.watchLines := rfl
@[simp] theorem setFence_watchDue (s : State) (n : Nat) (v : Fence) : (setFence s n v).watchDue = s.watchDue := rfl
@[simp] theorem setFence_front (s : State) (n : Nat) (v : Fence) : (setFence s n v).front = s.front := rfl
@[simp] theorem setFence_cmdTurn (s : State) (n : Nat) (v : Fence) : (setFence s n v).cmdTurn = s.cmdTurn := rfl
@[simp] theorem setFence_hedges (s : State) (n : Nat) (v : Fence) : (setFence s n v).hedges = s.hedges := rfl
@[simp] theorem setFence_arrays (s : State) (n : Nat) (v : Fence) : (setFence s n v).arrays = s.arrays := rfl
@[simp] theorem setFence_steps (s : State) (n : Nat) (v : Fence) : (setFence s n v).steps = s.steps := rfl
@[simp] theorem setFence_ranks (s : State) (n : Nat) (v : Fence) : (setFence s n v).ranks = s.ranks := rfl
@[simp] theorem setFence_rotations (s : State) (n : Nat) (v : Fence) : (setFence s n v).rotations = s.rotations := rfl
@[simp] theorem setFence_claimsWaiting (s : State) (n : Nat) (v : Fence) : (setFence s n v).claimsWaiting = s.claimsWaiting := rfl
@[simp] theorem setFence_movers (s : State) (n : Nat) (v : Fence) : (setFence s n v).movers = s.movers := rfl
@[simp] theorem setFence_moves (s : State) (n : Nat) (v : Fence) : (setFence s n v).moves = s.moves := rfl
@[simp] theorem setFence_moverTurn (s : State) (n : Nat) (v : Fence) : (setFence s n v).moverTurn = s.moverTurn := rfl
@[simp] theorem setFence_moverBytes (s : State) (n : Nat) (v : Fence) : (setFence s n v).moverBytes = s.moverBytes := rfl
@[simp] theorem setFence_pwr (s : State) (n : Nat) (v : Fence) : (setFence s n v).pwr = s.pwr := rfl
@[simp] theorem setFence_hif (s : State) (n : Nat) (v : Fence) : (setFence s n v).hif = s.hif := rfl
@[simp] theorem setFence_mem (s : State) (n : Nat) (v : Fence) : (setFence s n v).mem = s.mem := rfl
@[simp] theorem setFence_host (s : State) (n : Nat) (v : Fence) : (setFence s n v).host = s.host := rfl
@[simp] theorem setFence_macs (s : State) (n : Nat) (v : Fence) : (setFence s n v).macs = s.macs := rfl
@[simp] theorem setFence_utr (s : State) (n : Nat) (v : Fence) : (setFence s n v).utr = s.utr := rfl
@[simp] theorem setFence_chans (s : State) (n : Nat) (v : Fence) : (setFence s n v).chans = s.chans := rfl
@[simp] theorem setFence_rxus (s : State) (n : Nat) (v : Fence) : (setFence s n v).rxus = s.rxus := rfl
@[simp] theorem setFence_calOut (s : State) (n : Nat) (v : Fence) : (setFence s n v).calOut = s.calOut := rfl
@[simp] theorem setFence_quads (s : State) (n : Nat) (v : Fence) : (setFence s n v).quads = s.quads := rfl
@[simp] theorem setFence_onChip (s : State) (n : Nat) (v : Fence) : (setFence s n v).onChip = s.onChip := rfl
@[simp] theorem setFence_hostPoison (s : State) (n : Nat) (v : Fence) : (setFence s n v).hostPoison = s.hostPoison := rfl
@[simp] theorem setFence_sage (s : State) (n : Nat) (v : Fence) : (setFence s n v).sage = s.sage := rfl
@[simp] theorem setFence_restructs (s : State) (n : Nat) (v : Fence) : (setFence s n v).restructs = s.restructs := rfl
@[simp] theorem setFence_scrubAt (s : State) (n : Nat) (v : Fence) : (setFence s n v).scrubAt = s.scrubAt := rfl

@[simp] theorem answer_pending (s : State) (w : Word) : (answer s w).pending = s.pending := rfl
@[simp] theorem answer_freeTick (s : State) (w : Word) : (answer s w).freeTick = s.freeTick := rfl
@[simp] theorem answer_busData (s : State) (w : Word) : (answer s w).busData = toLe 4 w.toNat := rfl
@[simp] theorem answer_busEp (s : State) (w : Word) : (answer s w).busEp = s.busEp := rfl
@[simp] theorem answer_hostWait (s : State) (w : Word) : (answer s w).hostWait = s.hostWait := rfl
@[simp] theorem answer_regs (s : State) (w : Word) : (answer s w).regs = s.regs := rfl
@[simp] theorem answer_glb (s : State) (w : Word) : (answer s w).glb = s.glb := rfl
@[simp] theorem answer_queues (s : State) (w : Word) : (answer s w).queues = s.queues := rfl
@[simp] theorem answer_cmds (s : State) (w : Word) : (answer s w).cmds = s.cmds := rfl
@[simp] theorem answer_nextUid (s : State) (w : Word) : (answer s w).nextUid = s.nextUid := rfl
@[simp] theorem answer_ticketOps (s : State) (w : Word) : (answer s w).ticketOps = s.ticketOps := rfl
@[simp] theorem answer_ticketsReady (s : State) (w : Word) : (answer s w).ticketsReady = s.ticketsReady := rfl
@[simp] theorem answer_pleach (s : State) (w : Word) : (answer s w).pleach = s.pleach := rfl
@[simp] theorem answer_ctxQueue (s : State) (w : Word) : (answer s w).ctxQueue = s.ctxQueue := rfl
@[simp] theorem answer_fences (s : State) (w : Word) : (answer s w).fences = s.fences := rfl
@[simp] theorem answer_watchLines (s : State) (w : Word) : (answer s w).watchLines = s.watchLines := rfl
@[simp] theorem answer_watchDue (s : State) (w : Word) : (answer s w).watchDue = s.watchDue := rfl
@[simp] theorem answer_front (s : State) (w : Word) : (answer s w).front = s.front := rfl
@[simp] theorem answer_cmdTurn (s : State) (w : Word) : (answer s w).cmdTurn = s.cmdTurn := rfl
@[simp] theorem answer_hedges (s : State) (w : Word) : (answer s w).hedges = s.hedges := rfl
@[simp] theorem answer_arrays (s : State) (w : Word) : (answer s w).arrays = s.arrays := rfl
@[simp] theorem answer_steps (s : State) (w : Word) : (answer s w).steps = s.steps := rfl
@[simp] theorem answer_ranks (s : State) (w : Word) : (answer s w).ranks = s.ranks := rfl
@[simp] theorem answer_rotations (s : State) (w : Word) : (answer s w).rotations = s.rotations := rfl
@[simp] theorem answer_claimsWaiting (s : State) (w : Word) : (answer s w).claimsWaiting = s.claimsWaiting := rfl
@[simp] theorem answer_movers (s : State) (w : Word) : (answer s w).movers = s.movers := rfl
@[simp] theorem answer_moves (s : State) (w : Word) : (answer s w).moves = s.moves := rfl
@[simp] theorem answer_moverTurn (s : State) (w : Word) : (answer s w).moverTurn = s.moverTurn := rfl
@[simp] theorem answer_moverBytes (s : State) (w : Word) : (answer s w).moverBytes = s.moverBytes := rfl
@[simp] theorem answer_pwr (s : State) (w : Word) : (answer s w).pwr = s.pwr := rfl
@[simp] theorem answer_hif (s : State) (w : Word) : (answer s w).hif = s.hif := rfl
@[simp] theorem answer_mem (s : State) (w : Word) : (answer s w).mem = s.mem := rfl
@[simp] theorem answer_host (s : State) (w : Word) : (answer s w).host = s.host := rfl
@[simp] theorem answer_macs (s : State) (w : Word) : (answer s w).macs = s.macs := rfl
@[simp] theorem answer_utr (s : State) (w : Word) : (answer s w).utr = s.utr := rfl
@[simp] theorem answer_chans (s : State) (w : Word) : (answer s w).chans = s.chans := rfl
@[simp] theorem answer_rxus (s : State) (w : Word) : (answer s w).rxus = s.rxus := rfl
@[simp] theorem answer_calOut (s : State) (w : Word) : (answer s w).calOut = s.calOut := rfl
@[simp] theorem answer_quads (s : State) (w : Word) : (answer s w).quads = s.quads := rfl
@[simp] theorem answer_onChip (s : State) (w : Word) : (answer s w).onChip = s.onChip := rfl
@[simp] theorem answer_hostPoison (s : State) (w : Word) : (answer s w).hostPoison = s.hostPoison := rfl
@[simp] theorem answer_sage (s : State) (w : Word) : (answer s w).sage = s.sage := rfl
@[simp] theorem answer_restructs (s : State) (w : Word) : (answer s w).restructs = s.restructs := rfl
@[simp] theorem answer_scrubAt (s : State) (w : Word) : (answer s w).scrubAt = s.scrubAt := rfl

@[simp] theorem modCmd_pending (s : State) (uid : Nat) (f : Cmd → Cmd) : (modCmd s uid f).pending = s.pending := rfl
@[simp] theorem modCmd_freeTick (s : State) (uid : Nat) (f : Cmd → Cmd) : (modCmd s uid f).freeTick = s.freeTick := rfl
@[simp] theorem modCmd_busData (s : State) (uid : Nat) (f : Cmd → Cmd) : (modCmd s uid f).busData = s.busData := rfl
@[simp] theorem modCmd_busEp (s : State) (uid : Nat) (f : Cmd → Cmd) : (modCmd s uid f).busEp = s.busEp := rfl
@[simp] theorem modCmd_hostWait (s : State) (uid : Nat) (f : Cmd → Cmd) : (modCmd s uid f).hostWait = s.hostWait := rfl
@[simp] theorem modCmd_regs (s : State) (uid : Nat) (f : Cmd → Cmd) : (modCmd s uid f).regs = s.regs := rfl
@[simp] theorem modCmd_glb (s : State) (uid : Nat) (f : Cmd → Cmd) : (modCmd s uid f).glb = s.glb := rfl
@[simp] theorem modCmd_queues (s : State) (uid : Nat) (f : Cmd → Cmd) : (modCmd s uid f).queues = s.queues := rfl
@[simp] theorem modCmd_cmds (s : State) (uid : Nat) (f : Cmd → Cmd) : (modCmd s uid f).cmds = s.cmds.map fun c => if c.uid == uid then f c else c := rfl
@[simp] theorem modCmd_nextUid (s : State) (uid : Nat) (f : Cmd → Cmd) : (modCmd s uid f).nextUid = s.nextUid := rfl
@[simp] theorem modCmd_ticketOps (s : State) (uid : Nat) (f : Cmd → Cmd) : (modCmd s uid f).ticketOps = s.ticketOps := rfl
@[simp] theorem modCmd_ticketsReady (s : State) (uid : Nat) (f : Cmd → Cmd) : (modCmd s uid f).ticketsReady = s.ticketsReady := rfl
@[simp] theorem modCmd_pleach (s : State) (uid : Nat) (f : Cmd → Cmd) : (modCmd s uid f).pleach = s.pleach := rfl
@[simp] theorem modCmd_ctxQueue (s : State) (uid : Nat) (f : Cmd → Cmd) : (modCmd s uid f).ctxQueue = s.ctxQueue := rfl
@[simp] theorem modCmd_fences (s : State) (uid : Nat) (f : Cmd → Cmd) : (modCmd s uid f).fences = s.fences := rfl
@[simp] theorem modCmd_watchLines (s : State) (uid : Nat) (f : Cmd → Cmd) : (modCmd s uid f).watchLines = s.watchLines := rfl
@[simp] theorem modCmd_watchDue (s : State) (uid : Nat) (f : Cmd → Cmd) : (modCmd s uid f).watchDue = s.watchDue := rfl
@[simp] theorem modCmd_front (s : State) (uid : Nat) (f : Cmd → Cmd) : (modCmd s uid f).front = s.front := rfl
@[simp] theorem modCmd_cmdTurn (s : State) (uid : Nat) (f : Cmd → Cmd) : (modCmd s uid f).cmdTurn = s.cmdTurn := rfl
@[simp] theorem modCmd_hedges (s : State) (uid : Nat) (f : Cmd → Cmd) : (modCmd s uid f).hedges = s.hedges := rfl
@[simp] theorem modCmd_arrays (s : State) (uid : Nat) (f : Cmd → Cmd) : (modCmd s uid f).arrays = s.arrays := rfl
@[simp] theorem modCmd_steps (s : State) (uid : Nat) (f : Cmd → Cmd) : (modCmd s uid f).steps = s.steps := rfl
@[simp] theorem modCmd_ranks (s : State) (uid : Nat) (f : Cmd → Cmd) : (modCmd s uid f).ranks = s.ranks := rfl
@[simp] theorem modCmd_rotations (s : State) (uid : Nat) (f : Cmd → Cmd) : (modCmd s uid f).rotations = s.rotations := rfl
@[simp] theorem modCmd_claimsWaiting (s : State) (uid : Nat) (f : Cmd → Cmd) : (modCmd s uid f).claimsWaiting = s.claimsWaiting := rfl
@[simp] theorem modCmd_movers (s : State) (uid : Nat) (f : Cmd → Cmd) : (modCmd s uid f).movers = s.movers := rfl
@[simp] theorem modCmd_moves (s : State) (uid : Nat) (f : Cmd → Cmd) : (modCmd s uid f).moves = s.moves := rfl
@[simp] theorem modCmd_moverTurn (s : State) (uid : Nat) (f : Cmd → Cmd) : (modCmd s uid f).moverTurn = s.moverTurn := rfl
@[simp] theorem modCmd_moverBytes (s : State) (uid : Nat) (f : Cmd → Cmd) : (modCmd s uid f).moverBytes = s.moverBytes := rfl
@[simp] theorem modCmd_pwr (s : State) (uid : Nat) (f : Cmd → Cmd) : (modCmd s uid f).pwr = s.pwr := rfl
@[simp] theorem modCmd_hif (s : State) (uid : Nat) (f : Cmd → Cmd) : (modCmd s uid f).hif = s.hif := rfl
@[simp] theorem modCmd_mem (s : State) (uid : Nat) (f : Cmd → Cmd) : (modCmd s uid f).mem = s.mem := rfl
@[simp] theorem modCmd_host (s : State) (uid : Nat) (f : Cmd → Cmd) : (modCmd s uid f).host = s.host := rfl
@[simp] theorem modCmd_macs (s : State) (uid : Nat) (f : Cmd → Cmd) : (modCmd s uid f).macs = s.macs := rfl
@[simp] theorem modCmd_utr (s : State) (uid : Nat) (f : Cmd → Cmd) : (modCmd s uid f).utr = s.utr := rfl
@[simp] theorem modCmd_chans (s : State) (uid : Nat) (f : Cmd → Cmd) : (modCmd s uid f).chans = s.chans := rfl
@[simp] theorem modCmd_rxus (s : State) (uid : Nat) (f : Cmd → Cmd) : (modCmd s uid f).rxus = s.rxus := rfl
@[simp] theorem modCmd_calOut (s : State) (uid : Nat) (f : Cmd → Cmd) : (modCmd s uid f).calOut = s.calOut := rfl
@[simp] theorem modCmd_quads (s : State) (uid : Nat) (f : Cmd → Cmd) : (modCmd s uid f).quads = s.quads := rfl
@[simp] theorem modCmd_onChip (s : State) (uid : Nat) (f : Cmd → Cmd) : (modCmd s uid f).onChip = s.onChip := rfl
@[simp] theorem modCmd_hostPoison (s : State) (uid : Nat) (f : Cmd → Cmd) : (modCmd s uid f).hostPoison = s.hostPoison := rfl
@[simp] theorem modCmd_sage (s : State) (uid : Nat) (f : Cmd → Cmd) : (modCmd s uid f).sage = s.sage := rfl
@[simp] theorem modCmd_restructs (s : State) (uid : Nat) (f : Cmd → Cmd) : (modCmd s uid f).restructs = s.restructs := rfl
@[simp] theorem modCmd_scrubAt (s : State) (uid : Nat) (f : Cmd → Cmd) : (modCmd s uid f).scrubAt = s.scrubAt := rfl

@[simp] theorem modStep_pending (s : State) (uid : Nat) (f : StepRun → StepRun) : (modStep s uid f).pending = s.pending := rfl
@[simp] theorem modStep_freeTick (s : State) (uid : Nat) (f : StepRun → StepRun) : (modStep s uid f).freeTick = s.freeTick := rfl
@[simp] theorem modStep_busData (s : State) (uid : Nat) (f : StepRun → StepRun) : (modStep s uid f).busData = s.busData := rfl
@[simp] theorem modStep_busEp (s : State) (uid : Nat) (f : StepRun → StepRun) : (modStep s uid f).busEp = s.busEp := rfl
@[simp] theorem modStep_hostWait (s : State) (uid : Nat) (f : StepRun → StepRun) : (modStep s uid f).hostWait = s.hostWait := rfl
@[simp] theorem modStep_regs (s : State) (uid : Nat) (f : StepRun → StepRun) : (modStep s uid f).regs = s.regs := rfl
@[simp] theorem modStep_glb (s : State) (uid : Nat) (f : StepRun → StepRun) : (modStep s uid f).glb = s.glb := rfl
@[simp] theorem modStep_queues (s : State) (uid : Nat) (f : StepRun → StepRun) : (modStep s uid f).queues = s.queues := rfl
@[simp] theorem modStep_cmds (s : State) (uid : Nat) (f : StepRun → StepRun) : (modStep s uid f).cmds = s.cmds := rfl
@[simp] theorem modStep_nextUid (s : State) (uid : Nat) (f : StepRun → StepRun) : (modStep s uid f).nextUid = s.nextUid := rfl
@[simp] theorem modStep_ticketOps (s : State) (uid : Nat) (f : StepRun → StepRun) : (modStep s uid f).ticketOps = s.ticketOps := rfl
@[simp] theorem modStep_ticketsReady (s : State) (uid : Nat) (f : StepRun → StepRun) : (modStep s uid f).ticketsReady = s.ticketsReady := rfl
@[simp] theorem modStep_pleach (s : State) (uid : Nat) (f : StepRun → StepRun) : (modStep s uid f).pleach = s.pleach := rfl
@[simp] theorem modStep_ctxQueue (s : State) (uid : Nat) (f : StepRun → StepRun) : (modStep s uid f).ctxQueue = s.ctxQueue := rfl
@[simp] theorem modStep_fences (s : State) (uid : Nat) (f : StepRun → StepRun) : (modStep s uid f).fences = s.fences := rfl
@[simp] theorem modStep_watchLines (s : State) (uid : Nat) (f : StepRun → StepRun) : (modStep s uid f).watchLines = s.watchLines := rfl
@[simp] theorem modStep_watchDue (s : State) (uid : Nat) (f : StepRun → StepRun) : (modStep s uid f).watchDue = s.watchDue := rfl
@[simp] theorem modStep_front (s : State) (uid : Nat) (f : StepRun → StepRun) : (modStep s uid f).front = s.front := rfl
@[simp] theorem modStep_cmdTurn (s : State) (uid : Nat) (f : StepRun → StepRun) : (modStep s uid f).cmdTurn = s.cmdTurn := rfl
@[simp] theorem modStep_hedges (s : State) (uid : Nat) (f : StepRun → StepRun) : (modStep s uid f).hedges = s.hedges := rfl
@[simp] theorem modStep_arrays (s : State) (uid : Nat) (f : StepRun → StepRun) : (modStep s uid f).arrays = s.arrays := rfl
@[simp] theorem modStep_steps (s : State) (uid : Nat) (f : StepRun → StepRun) : (modStep s uid f).steps = s.steps.map fun c => if c.uid == uid then f c else c := rfl
@[simp] theorem modStep_ranks (s : State) (uid : Nat) (f : StepRun → StepRun) : (modStep s uid f).ranks = s.ranks := rfl
@[simp] theorem modStep_rotations (s : State) (uid : Nat) (f : StepRun → StepRun) : (modStep s uid f).rotations = s.rotations := rfl
@[simp] theorem modStep_claimsWaiting (s : State) (uid : Nat) (f : StepRun → StepRun) : (modStep s uid f).claimsWaiting = s.claimsWaiting := rfl
@[simp] theorem modStep_movers (s : State) (uid : Nat) (f : StepRun → StepRun) : (modStep s uid f).movers = s.movers := rfl
@[simp] theorem modStep_moves (s : State) (uid : Nat) (f : StepRun → StepRun) : (modStep s uid f).moves = s.moves := rfl
@[simp] theorem modStep_moverTurn (s : State) (uid : Nat) (f : StepRun → StepRun) : (modStep s uid f).moverTurn = s.moverTurn := rfl
@[simp] theorem modStep_moverBytes (s : State) (uid : Nat) (f : StepRun → StepRun) : (modStep s uid f).moverBytes = s.moverBytes := rfl
@[simp] theorem modStep_pwr (s : State) (uid : Nat) (f : StepRun → StepRun) : (modStep s uid f).pwr = s.pwr := rfl
@[simp] theorem modStep_hif (s : State) (uid : Nat) (f : StepRun → StepRun) : (modStep s uid f).hif = s.hif := rfl
@[simp] theorem modStep_mem (s : State) (uid : Nat) (f : StepRun → StepRun) : (modStep s uid f).mem = s.mem := rfl
@[simp] theorem modStep_host (s : State) (uid : Nat) (f : StepRun → StepRun) : (modStep s uid f).host = s.host := rfl
@[simp] theorem modStep_macs (s : State) (uid : Nat) (f : StepRun → StepRun) : (modStep s uid f).macs = s.macs := rfl
@[simp] theorem modStep_utr (s : State) (uid : Nat) (f : StepRun → StepRun) : (modStep s uid f).utr = s.utr := rfl
@[simp] theorem modStep_chans (s : State) (uid : Nat) (f : StepRun → StepRun) : (modStep s uid f).chans = s.chans := rfl
@[simp] theorem modStep_rxus (s : State) (uid : Nat) (f : StepRun → StepRun) : (modStep s uid f).rxus = s.rxus := rfl
@[simp] theorem modStep_calOut (s : State) (uid : Nat) (f : StepRun → StepRun) : (modStep s uid f).calOut = s.calOut := rfl
@[simp] theorem modStep_quads (s : State) (uid : Nat) (f : StepRun → StepRun) : (modStep s uid f).quads = s.quads := rfl
@[simp] theorem modStep_onChip (s : State) (uid : Nat) (f : StepRun → StepRun) : (modStep s uid f).onChip = s.onChip := rfl
@[simp] theorem modStep_hostPoison (s : State) (uid : Nat) (f : StepRun → StepRun) : (modStep s uid f).hostPoison = s.hostPoison := rfl
@[simp] theorem modStep_sage (s : State) (uid : Nat) (f : StepRun → StepRun) : (modStep s uid f).sage = s.sage := rfl
@[simp] theorem modStep_restructs (s : State) (uid : Nat) (f : StepRun → StepRun) : (modStep s uid f).restructs = s.restructs := rfl
@[simp] theorem modStep_scrubAt (s : State) (uid : Nat) (f : StepRun → StepRun) : (modStep s uid f).scrubAt = s.scrubAt := rfl

@[simp] theorem modRot_pending (s : State) (uid : Nat) (f : Rotation → Rotation) : (modRot s uid f).pending = s.pending := rfl
@[simp] theorem modRot_freeTick (s : State) (uid : Nat) (f : Rotation → Rotation) : (modRot s uid f).freeTick = s.freeTick := rfl
@[simp] theorem modRot_busData (s : State) (uid : Nat) (f : Rotation → Rotation) : (modRot s uid f).busData = s.busData := rfl
@[simp] theorem modRot_busEp (s : State) (uid : Nat) (f : Rotation → Rotation) : (modRot s uid f).busEp = s.busEp := rfl
@[simp] theorem modRot_hostWait (s : State) (uid : Nat) (f : Rotation → Rotation) : (modRot s uid f).hostWait = s.hostWait := rfl
@[simp] theorem modRot_regs (s : State) (uid : Nat) (f : Rotation → Rotation) : (modRot s uid f).regs = s.regs := rfl
@[simp] theorem modRot_glb (s : State) (uid : Nat) (f : Rotation → Rotation) : (modRot s uid f).glb = s.glb := rfl
@[simp] theorem modRot_queues (s : State) (uid : Nat) (f : Rotation → Rotation) : (modRot s uid f).queues = s.queues := rfl
@[simp] theorem modRot_cmds (s : State) (uid : Nat) (f : Rotation → Rotation) : (modRot s uid f).cmds = s.cmds := rfl
@[simp] theorem modRot_nextUid (s : State) (uid : Nat) (f : Rotation → Rotation) : (modRot s uid f).nextUid = s.nextUid := rfl
@[simp] theorem modRot_ticketOps (s : State) (uid : Nat) (f : Rotation → Rotation) : (modRot s uid f).ticketOps = s.ticketOps := rfl
@[simp] theorem modRot_ticketsReady (s : State) (uid : Nat) (f : Rotation → Rotation) : (modRot s uid f).ticketsReady = s.ticketsReady := rfl
@[simp] theorem modRot_pleach (s : State) (uid : Nat) (f : Rotation → Rotation) : (modRot s uid f).pleach = s.pleach := rfl
@[simp] theorem modRot_ctxQueue (s : State) (uid : Nat) (f : Rotation → Rotation) : (modRot s uid f).ctxQueue = s.ctxQueue := rfl
@[simp] theorem modRot_fences (s : State) (uid : Nat) (f : Rotation → Rotation) : (modRot s uid f).fences = s.fences := rfl
@[simp] theorem modRot_watchLines (s : State) (uid : Nat) (f : Rotation → Rotation) : (modRot s uid f).watchLines = s.watchLines := rfl
@[simp] theorem modRot_watchDue (s : State) (uid : Nat) (f : Rotation → Rotation) : (modRot s uid f).watchDue = s.watchDue := rfl
@[simp] theorem modRot_front (s : State) (uid : Nat) (f : Rotation → Rotation) : (modRot s uid f).front = s.front := rfl
@[simp] theorem modRot_cmdTurn (s : State) (uid : Nat) (f : Rotation → Rotation) : (modRot s uid f).cmdTurn = s.cmdTurn := rfl
@[simp] theorem modRot_hedges (s : State) (uid : Nat) (f : Rotation → Rotation) : (modRot s uid f).hedges = s.hedges := rfl
@[simp] theorem modRot_arrays (s : State) (uid : Nat) (f : Rotation → Rotation) : (modRot s uid f).arrays = s.arrays := rfl
@[simp] theorem modRot_steps (s : State) (uid : Nat) (f : Rotation → Rotation) : (modRot s uid f).steps = s.steps := rfl
@[simp] theorem modRot_ranks (s : State) (uid : Nat) (f : Rotation → Rotation) : (modRot s uid f).ranks = s.ranks := rfl
@[simp] theorem modRot_rotations (s : State) (uid : Nat) (f : Rotation → Rotation) : (modRot s uid f).rotations = s.rotations.map fun c => if c.uid == uid then f c else c := rfl
@[simp] theorem modRot_claimsWaiting (s : State) (uid : Nat) (f : Rotation → Rotation) : (modRot s uid f).claimsWaiting = s.claimsWaiting := rfl
@[simp] theorem modRot_movers (s : State) (uid : Nat) (f : Rotation → Rotation) : (modRot s uid f).movers = s.movers := rfl
@[simp] theorem modRot_moves (s : State) (uid : Nat) (f : Rotation → Rotation) : (modRot s uid f).moves = s.moves := rfl
@[simp] theorem modRot_moverTurn (s : State) (uid : Nat) (f : Rotation → Rotation) : (modRot s uid f).moverTurn = s.moverTurn := rfl
@[simp] theorem modRot_moverBytes (s : State) (uid : Nat) (f : Rotation → Rotation) : (modRot s uid f).moverBytes = s.moverBytes := rfl
@[simp] theorem modRot_pwr (s : State) (uid : Nat) (f : Rotation → Rotation) : (modRot s uid f).pwr = s.pwr := rfl
@[simp] theorem modRot_hif (s : State) (uid : Nat) (f : Rotation → Rotation) : (modRot s uid f).hif = s.hif := rfl
@[simp] theorem modRot_mem (s : State) (uid : Nat) (f : Rotation → Rotation) : (modRot s uid f).mem = s.mem := rfl
@[simp] theorem modRot_host (s : State) (uid : Nat) (f : Rotation → Rotation) : (modRot s uid f).host = s.host := rfl
@[simp] theorem modRot_macs (s : State) (uid : Nat) (f : Rotation → Rotation) : (modRot s uid f).macs = s.macs := rfl
@[simp] theorem modRot_utr (s : State) (uid : Nat) (f : Rotation → Rotation) : (modRot s uid f).utr = s.utr := rfl
@[simp] theorem modRot_chans (s : State) (uid : Nat) (f : Rotation → Rotation) : (modRot s uid f).chans = s.chans := rfl
@[simp] theorem modRot_rxus (s : State) (uid : Nat) (f : Rotation → Rotation) : (modRot s uid f).rxus = s.rxus := rfl
@[simp] theorem modRot_calOut (s : State) (uid : Nat) (f : Rotation → Rotation) : (modRot s uid f).calOut = s.calOut := rfl
@[simp] theorem modRot_quads (s : State) (uid : Nat) (f : Rotation → Rotation) : (modRot s uid f).quads = s.quads := rfl
@[simp] theorem modRot_onChip (s : State) (uid : Nat) (f : Rotation → Rotation) : (modRot s uid f).onChip = s.onChip := rfl
@[simp] theorem modRot_hostPoison (s : State) (uid : Nat) (f : Rotation → Rotation) : (modRot s uid f).hostPoison = s.hostPoison := rfl
@[simp] theorem modRot_sage (s : State) (uid : Nat) (f : Rotation → Rotation) : (modRot s uid f).sage = s.sage := rfl
@[simp] theorem modRot_restructs (s : State) (uid : Nat) (f : Rotation → Rotation) : (modRot s uid f).restructs = s.restructs := rfl
@[simp] theorem modRot_scrubAt (s : State) (uid : Nat) (f : Rotation → Rotation) : (modRot s uid f).scrubAt = s.scrubAt := rfl

@[simp] theorem modMover_pending (s : State) (uid : Nat) (f : Mover → Mover) : (modMover s uid f).pending = s.pending := rfl
@[simp] theorem modMover_freeTick (s : State) (uid : Nat) (f : Mover → Mover) : (modMover s uid f).freeTick = s.freeTick := rfl
@[simp] theorem modMover_busData (s : State) (uid : Nat) (f : Mover → Mover) : (modMover s uid f).busData = s.busData := rfl
@[simp] theorem modMover_busEp (s : State) (uid : Nat) (f : Mover → Mover) : (modMover s uid f).busEp = s.busEp := rfl
@[simp] theorem modMover_hostWait (s : State) (uid : Nat) (f : Mover → Mover) : (modMover s uid f).hostWait = s.hostWait := rfl
@[simp] theorem modMover_regs (s : State) (uid : Nat) (f : Mover → Mover) : (modMover s uid f).regs = s.regs := rfl
@[simp] theorem modMover_glb (s : State) (uid : Nat) (f : Mover → Mover) : (modMover s uid f).glb = s.glb := rfl
@[simp] theorem modMover_queues (s : State) (uid : Nat) (f : Mover → Mover) : (modMover s uid f).queues = s.queues := rfl
@[simp] theorem modMover_cmds (s : State) (uid : Nat) (f : Mover → Mover) : (modMover s uid f).cmds = s.cmds := rfl
@[simp] theorem modMover_nextUid (s : State) (uid : Nat) (f : Mover → Mover) : (modMover s uid f).nextUid = s.nextUid := rfl
@[simp] theorem modMover_ticketOps (s : State) (uid : Nat) (f : Mover → Mover) : (modMover s uid f).ticketOps = s.ticketOps := rfl
@[simp] theorem modMover_ticketsReady (s : State) (uid : Nat) (f : Mover → Mover) : (modMover s uid f).ticketsReady = s.ticketsReady := rfl
@[simp] theorem modMover_pleach (s : State) (uid : Nat) (f : Mover → Mover) : (modMover s uid f).pleach = s.pleach := rfl
@[simp] theorem modMover_ctxQueue (s : State) (uid : Nat) (f : Mover → Mover) : (modMover s uid f).ctxQueue = s.ctxQueue := rfl
@[simp] theorem modMover_fences (s : State) (uid : Nat) (f : Mover → Mover) : (modMover s uid f).fences = s.fences := rfl
@[simp] theorem modMover_watchLines (s : State) (uid : Nat) (f : Mover → Mover) : (modMover s uid f).watchLines = s.watchLines := rfl
@[simp] theorem modMover_watchDue (s : State) (uid : Nat) (f : Mover → Mover) : (modMover s uid f).watchDue = s.watchDue := rfl
@[simp] theorem modMover_front (s : State) (uid : Nat) (f : Mover → Mover) : (modMover s uid f).front = s.front := rfl
@[simp] theorem modMover_cmdTurn (s : State) (uid : Nat) (f : Mover → Mover) : (modMover s uid f).cmdTurn = s.cmdTurn := rfl
@[simp] theorem modMover_hedges (s : State) (uid : Nat) (f : Mover → Mover) : (modMover s uid f).hedges = s.hedges := rfl
@[simp] theorem modMover_arrays (s : State) (uid : Nat) (f : Mover → Mover) : (modMover s uid f).arrays = s.arrays := rfl
@[simp] theorem modMover_steps (s : State) (uid : Nat) (f : Mover → Mover) : (modMover s uid f).steps = s.steps := rfl
@[simp] theorem modMover_ranks (s : State) (uid : Nat) (f : Mover → Mover) : (modMover s uid f).ranks = s.ranks := rfl
@[simp] theorem modMover_rotations (s : State) (uid : Nat) (f : Mover → Mover) : (modMover s uid f).rotations = s.rotations := rfl
@[simp] theorem modMover_claimsWaiting (s : State) (uid : Nat) (f : Mover → Mover) : (modMover s uid f).claimsWaiting = s.claimsWaiting := rfl
@[simp] theorem modMover_movers (s : State) (uid : Nat) (f : Mover → Mover) : (modMover s uid f).movers = s.movers.map fun m => if m.uid == uid then f m else m := rfl
@[simp] theorem modMover_moves (s : State) (uid : Nat) (f : Mover → Mover) : (modMover s uid f).moves = s.moves := rfl
@[simp] theorem modMover_moverTurn (s : State) (uid : Nat) (f : Mover → Mover) : (modMover s uid f).moverTurn = s.moverTurn := rfl
@[simp] theorem modMover_moverBytes (s : State) (uid : Nat) (f : Mover → Mover) : (modMover s uid f).moverBytes = s.moverBytes := rfl
@[simp] theorem modMover_pwr (s : State) (uid : Nat) (f : Mover → Mover) : (modMover s uid f).pwr = s.pwr := rfl
@[simp] theorem modMover_hif (s : State) (uid : Nat) (f : Mover → Mover) : (modMover s uid f).hif = s.hif := rfl
@[simp] theorem modMover_mem (s : State) (uid : Nat) (f : Mover → Mover) : (modMover s uid f).mem = s.mem := rfl
@[simp] theorem modMover_host (s : State) (uid : Nat) (f : Mover → Mover) : (modMover s uid f).host = s.host := rfl
@[simp] theorem modMover_macs (s : State) (uid : Nat) (f : Mover → Mover) : (modMover s uid f).macs = s.macs := rfl
@[simp] theorem modMover_utr (s : State) (uid : Nat) (f : Mover → Mover) : (modMover s uid f).utr = s.utr := rfl
@[simp] theorem modMover_chans (s : State) (uid : Nat) (f : Mover → Mover) : (modMover s uid f).chans = s.chans := rfl
@[simp] theorem modMover_rxus (s : State) (uid : Nat) (f : Mover → Mover) : (modMover s uid f).rxus = s.rxus := rfl
@[simp] theorem modMover_calOut (s : State) (uid : Nat) (f : Mover → Mover) : (modMover s uid f).calOut = s.calOut := rfl
@[simp] theorem modMover_quads (s : State) (uid : Nat) (f : Mover → Mover) : (modMover s uid f).quads = s.quads := rfl
@[simp] theorem modMover_onChip (s : State) (uid : Nat) (f : Mover → Mover) : (modMover s uid f).onChip = s.onChip := rfl
@[simp] theorem modMover_hostPoison (s : State) (uid : Nat) (f : Mover → Mover) : (modMover s uid f).hostPoison = s.hostPoison := rfl
@[simp] theorem modMover_sage (s : State) (uid : Nat) (f : Mover → Mover) : (modMover s uid f).sage = s.sage := rfl
@[simp] theorem modMover_restructs (s : State) (uid : Nat) (f : Mover → Mover) : (modMover s uid f).restructs = s.restructs := rfl
@[simp] theorem modMover_scrubAt (s : State) (uid : Nat) (f : Mover → Mover) : (modMover s uid f).scrubAt = s.scrubAt := rfl

@[simp] theorem modRxu_pending (s : State) (u : Nat) (f : Rxu → Rxu) : (modRxu s u f).pending = s.pending := rfl
@[simp] theorem modRxu_freeTick (s : State) (u : Nat) (f : Rxu → Rxu) : (modRxu s u f).freeTick = s.freeTick := rfl
@[simp] theorem modRxu_busData (s : State) (u : Nat) (f : Rxu → Rxu) : (modRxu s u f).busData = s.busData := rfl
@[simp] theorem modRxu_busEp (s : State) (u : Nat) (f : Rxu → Rxu) : (modRxu s u f).busEp = s.busEp := rfl
@[simp] theorem modRxu_hostWait (s : State) (u : Nat) (f : Rxu → Rxu) : (modRxu s u f).hostWait = s.hostWait := rfl
@[simp] theorem modRxu_regs (s : State) (u : Nat) (f : Rxu → Rxu) : (modRxu s u f).regs = s.regs := rfl
@[simp] theorem modRxu_glb (s : State) (u : Nat) (f : Rxu → Rxu) : (modRxu s u f).glb = s.glb := rfl
@[simp] theorem modRxu_queues (s : State) (u : Nat) (f : Rxu → Rxu) : (modRxu s u f).queues = s.queues := rfl
@[simp] theorem modRxu_cmds (s : State) (u : Nat) (f : Rxu → Rxu) : (modRxu s u f).cmds = s.cmds := rfl
@[simp] theorem modRxu_nextUid (s : State) (u : Nat) (f : Rxu → Rxu) : (modRxu s u f).nextUid = s.nextUid := rfl
@[simp] theorem modRxu_ticketOps (s : State) (u : Nat) (f : Rxu → Rxu) : (modRxu s u f).ticketOps = s.ticketOps := rfl
@[simp] theorem modRxu_ticketsReady (s : State) (u : Nat) (f : Rxu → Rxu) : (modRxu s u f).ticketsReady = s.ticketsReady := rfl
@[simp] theorem modRxu_pleach (s : State) (u : Nat) (f : Rxu → Rxu) : (modRxu s u f).pleach = s.pleach := rfl
@[simp] theorem modRxu_ctxQueue (s : State) (u : Nat) (f : Rxu → Rxu) : (modRxu s u f).ctxQueue = s.ctxQueue := rfl
@[simp] theorem modRxu_fences (s : State) (u : Nat) (f : Rxu → Rxu) : (modRxu s u f).fences = s.fences := rfl
@[simp] theorem modRxu_watchLines (s : State) (u : Nat) (f : Rxu → Rxu) : (modRxu s u f).watchLines = s.watchLines := rfl
@[simp] theorem modRxu_watchDue (s : State) (u : Nat) (f : Rxu → Rxu) : (modRxu s u f).watchDue = s.watchDue := rfl
@[simp] theorem modRxu_front (s : State) (u : Nat) (f : Rxu → Rxu) : (modRxu s u f).front = s.front := rfl
@[simp] theorem modRxu_cmdTurn (s : State) (u : Nat) (f : Rxu → Rxu) : (modRxu s u f).cmdTurn = s.cmdTurn := rfl
@[simp] theorem modRxu_hedges (s : State) (u : Nat) (f : Rxu → Rxu) : (modRxu s u f).hedges = s.hedges := rfl
@[simp] theorem modRxu_arrays (s : State) (u : Nat) (f : Rxu → Rxu) : (modRxu s u f).arrays = s.arrays := rfl
@[simp] theorem modRxu_steps (s : State) (u : Nat) (f : Rxu → Rxu) : (modRxu s u f).steps = s.steps := rfl
@[simp] theorem modRxu_ranks (s : State) (u : Nat) (f : Rxu → Rxu) : (modRxu s u f).ranks = s.ranks := rfl
@[simp] theorem modRxu_rotations (s : State) (u : Nat) (f : Rxu → Rxu) : (modRxu s u f).rotations = s.rotations := rfl
@[simp] theorem modRxu_claimsWaiting (s : State) (u : Nat) (f : Rxu → Rxu) : (modRxu s u f).claimsWaiting = s.claimsWaiting := rfl
@[simp] theorem modRxu_movers (s : State) (u : Nat) (f : Rxu → Rxu) : (modRxu s u f).movers = s.movers := rfl
@[simp] theorem modRxu_moves (s : State) (u : Nat) (f : Rxu → Rxu) : (modRxu s u f).moves = s.moves := rfl
@[simp] theorem modRxu_moverTurn (s : State) (u : Nat) (f : Rxu → Rxu) : (modRxu s u f).moverTurn = s.moverTurn := rfl
@[simp] theorem modRxu_moverBytes (s : State) (u : Nat) (f : Rxu → Rxu) : (modRxu s u f).moverBytes = s.moverBytes := rfl
@[simp] theorem modRxu_pwr (s : State) (u : Nat) (f : Rxu → Rxu) : (modRxu s u f).pwr = s.pwr := rfl
@[simp] theorem modRxu_hif (s : State) (u : Nat) (f : Rxu → Rxu) : (modRxu s u f).hif = s.hif := rfl
@[simp] theorem modRxu_mem (s : State) (u : Nat) (f : Rxu → Rxu) : (modRxu s u f).mem = s.mem := rfl
@[simp] theorem modRxu_host (s : State) (u : Nat) (f : Rxu → Rxu) : (modRxu s u f).host = s.host := rfl
@[simp] theorem modRxu_macs (s : State) (u : Nat) (f : Rxu → Rxu) : (modRxu s u f).macs = s.macs := rfl
@[simp] theorem modRxu_utr (s : State) (u : Nat) (f : Rxu → Rxu) : (modRxu s u f).utr = s.utr := rfl
@[simp] theorem modRxu_chans (s : State) (u : Nat) (f : Rxu → Rxu) : (modRxu s u f).chans = s.chans := rfl
@[simp] theorem modRxu_rxus (s : State) (u : Nat) (f : Rxu → Rxu) : (modRxu s u f).rxus = sset s.rxus u (f (rxu s u)) := rfl
@[simp] theorem modRxu_calOut (s : State) (u : Nat) (f : Rxu → Rxu) : (modRxu s u f).calOut = s.calOut := rfl
@[simp] theorem modRxu_quads (s : State) (u : Nat) (f : Rxu → Rxu) : (modRxu s u f).quads = s.quads := rfl
@[simp] theorem modRxu_onChip (s : State) (u : Nat) (f : Rxu → Rxu) : (modRxu s u f).onChip = s.onChip := rfl
@[simp] theorem modRxu_hostPoison (s : State) (u : Nat) (f : Rxu → Rxu) : (modRxu s u f).hostPoison = s.hostPoison := rfl
@[simp] theorem modRxu_sage (s : State) (u : Nat) (f : Rxu → Rxu) : (modRxu s u f).sage = s.sage := rfl
@[simp] theorem modRxu_restructs (s : State) (u : Nat) (f : Rxu → Rxu) : (modRxu s u f).restructs = s.restructs := rfl
@[simp] theorem modRxu_scrubAt (s : State) (u : Nat) (f : Rxu → Rxu) : (modRxu s u f).scrubAt = s.scrubAt := rfl

@[simp] theorem modStream_pending (s : State) (u l : Nat) (f : Stream → Stream) : (modStream s u l f).pending = s.pending := rfl
@[simp] theorem modStream_freeTick (s : State) (u l : Nat) (f : Stream → Stream) : (modStream s u l f).freeTick = s.freeTick := rfl
@[simp] theorem modStream_busData (s : State) (u l : Nat) (f : Stream → Stream) : (modStream s u l f).busData = s.busData := rfl
@[simp] theorem modStream_busEp (s : State) (u l : Nat) (f : Stream → Stream) : (modStream s u l f).busEp = s.busEp := rfl
@[simp] theorem modStream_hostWait (s : State) (u l : Nat) (f : Stream → Stream) : (modStream s u l f).hostWait = s.hostWait := rfl
@[simp] theorem modStream_regs (s : State) (u l : Nat) (f : Stream → Stream) : (modStream s u l f).regs = s.regs := rfl
@[simp] theorem modStream_glb (s : State) (u l : Nat) (f : Stream → Stream) : (modStream s u l f).glb = s.glb := rfl
@[simp] theorem modStream_queues (s : State) (u l : Nat) (f : Stream → Stream) : (modStream s u l f).queues = s.queues := rfl
@[simp] theorem modStream_cmds (s : State) (u l : Nat) (f : Stream → Stream) : (modStream s u l f).cmds = s.cmds := rfl
@[simp] theorem modStream_nextUid (s : State) (u l : Nat) (f : Stream → Stream) : (modStream s u l f).nextUid = s.nextUid := rfl
@[simp] theorem modStream_ticketOps (s : State) (u l : Nat) (f : Stream → Stream) : (modStream s u l f).ticketOps = s.ticketOps := rfl
@[simp] theorem modStream_ticketsReady (s : State) (u l : Nat) (f : Stream → Stream) : (modStream s u l f).ticketsReady = s.ticketsReady := rfl
@[simp] theorem modStream_pleach (s : State) (u l : Nat) (f : Stream → Stream) : (modStream s u l f).pleach = s.pleach := rfl
@[simp] theorem modStream_ctxQueue (s : State) (u l : Nat) (f : Stream → Stream) : (modStream s u l f).ctxQueue = s.ctxQueue := rfl
@[simp] theorem modStream_fences (s : State) (u l : Nat) (f : Stream → Stream) : (modStream s u l f).fences = s.fences := rfl
@[simp] theorem modStream_watchLines (s : State) (u l : Nat) (f : Stream → Stream) : (modStream s u l f).watchLines = s.watchLines := rfl
@[simp] theorem modStream_watchDue (s : State) (u l : Nat) (f : Stream → Stream) : (modStream s u l f).watchDue = s.watchDue := rfl
@[simp] theorem modStream_front (s : State) (u l : Nat) (f : Stream → Stream) : (modStream s u l f).front = s.front := rfl
@[simp] theorem modStream_cmdTurn (s : State) (u l : Nat) (f : Stream → Stream) : (modStream s u l f).cmdTurn = s.cmdTurn := rfl
@[simp] theorem modStream_hedges (s : State) (u l : Nat) (f : Stream → Stream) : (modStream s u l f).hedges = s.hedges := rfl
@[simp] theorem modStream_arrays (s : State) (u l : Nat) (f : Stream → Stream) : (modStream s u l f).arrays = s.arrays := rfl
@[simp] theorem modStream_steps (s : State) (u l : Nat) (f : Stream → Stream) : (modStream s u l f).steps = s.steps := rfl
@[simp] theorem modStream_ranks (s : State) (u l : Nat) (f : Stream → Stream) : (modStream s u l f).ranks = s.ranks := rfl
@[simp] theorem modStream_rotations (s : State) (u l : Nat) (f : Stream → Stream) : (modStream s u l f).rotations = s.rotations := rfl
@[simp] theorem modStream_claimsWaiting (s : State) (u l : Nat) (f : Stream → Stream) : (modStream s u l f).claimsWaiting = s.claimsWaiting := rfl
@[simp] theorem modStream_movers (s : State) (u l : Nat) (f : Stream → Stream) : (modStream s u l f).movers = s.movers := rfl
@[simp] theorem modStream_moves (s : State) (u l : Nat) (f : Stream → Stream) : (modStream s u l f).moves = s.moves := rfl
@[simp] theorem modStream_moverTurn (s : State) (u l : Nat) (f : Stream → Stream) : (modStream s u l f).moverTurn = s.moverTurn := rfl
@[simp] theorem modStream_moverBytes (s : State) (u l : Nat) (f : Stream → Stream) : (modStream s u l f).moverBytes = s.moverBytes := rfl
@[simp] theorem modStream_pwr (s : State) (u l : Nat) (f : Stream → Stream) : (modStream s u l f).pwr = s.pwr := rfl
@[simp] theorem modStream_hif (s : State) (u l : Nat) (f : Stream → Stream) : (modStream s u l f).hif = s.hif := rfl
@[simp] theorem modStream_mem (s : State) (u l : Nat) (f : Stream → Stream) : (modStream s u l f).mem = s.mem := rfl
@[simp] theorem modStream_host (s : State) (u l : Nat) (f : Stream → Stream) : (modStream s u l f).host = s.host := rfl
@[simp] theorem modStream_macs (s : State) (u l : Nat) (f : Stream → Stream) : (modStream s u l f).macs = s.macs := rfl
@[simp] theorem modStream_utr (s : State) (u l : Nat) (f : Stream → Stream) : (modStream s u l f).utr = s.utr := rfl
@[simp] theorem modStream_chans (s : State) (u l : Nat) (f : Stream → Stream) : (modStream s u l f).chans = s.chans := rfl
@[simp] theorem modStream_calOut (s : State) (u l : Nat) (f : Stream → Stream) : (modStream s u l f).calOut = s.calOut := rfl
@[simp] theorem modStream_quads (s : State) (u l : Nat) (f : Stream → Stream) : (modStream s u l f).quads = s.quads := rfl
@[simp] theorem modStream_onChip (s : State) (u l : Nat) (f : Stream → Stream) : (modStream s u l f).onChip = s.onChip := rfl
@[simp] theorem modStream_hostPoison (s : State) (u l : Nat) (f : Stream → Stream) : (modStream s u l f).hostPoison = s.hostPoison := rfl
@[simp] theorem modStream_sage (s : State) (u l : Nat) (f : Stream → Stream) : (modStream s u l f).sage = s.sage := rfl
@[simp] theorem modStream_restructs (s : State) (u l : Nat) (f : Stream → Stream) : (modStream s u l f).restructs = s.restructs := rfl
@[simp] theorem modStream_scrubAt (s : State) (u l : Nat) (f : Stream → Stream) : (modStream s u l f).scrubAt = s.scrubAt := rfl

@[simp] theorem modAgc_pending (s : State) (u l : Nat) (f : Agc → Agc) : (modAgc s u l f).pending = s.pending := rfl
@[simp] theorem modAgc_freeTick (s : State) (u l : Nat) (f : Agc → Agc) : (modAgc s u l f).freeTick = s.freeTick := rfl
@[simp] theorem modAgc_busData (s : State) (u l : Nat) (f : Agc → Agc) : (modAgc s u l f).busData = s.busData := rfl
@[simp] theorem modAgc_busEp (s : State) (u l : Nat) (f : Agc → Agc) : (modAgc s u l f).busEp = s.busEp := rfl
@[simp] theorem modAgc_hostWait (s : State) (u l : Nat) (f : Agc → Agc) : (modAgc s u l f).hostWait = s.hostWait := rfl
@[simp] theorem modAgc_regs (s : State) (u l : Nat) (f : Agc → Agc) : (modAgc s u l f).regs = s.regs := rfl
@[simp] theorem modAgc_glb (s : State) (u l : Nat) (f : Agc → Agc) : (modAgc s u l f).glb = s.glb := rfl
@[simp] theorem modAgc_queues (s : State) (u l : Nat) (f : Agc → Agc) : (modAgc s u l f).queues = s.queues := rfl
@[simp] theorem modAgc_cmds (s : State) (u l : Nat) (f : Agc → Agc) : (modAgc s u l f).cmds = s.cmds := rfl
@[simp] theorem modAgc_nextUid (s : State) (u l : Nat) (f : Agc → Agc) : (modAgc s u l f).nextUid = s.nextUid := rfl
@[simp] theorem modAgc_ticketOps (s : State) (u l : Nat) (f : Agc → Agc) : (modAgc s u l f).ticketOps = s.ticketOps := rfl
@[simp] theorem modAgc_ticketsReady (s : State) (u l : Nat) (f : Agc → Agc) : (modAgc s u l f).ticketsReady = s.ticketsReady := rfl
@[simp] theorem modAgc_pleach (s : State) (u l : Nat) (f : Agc → Agc) : (modAgc s u l f).pleach = s.pleach := rfl
@[simp] theorem modAgc_ctxQueue (s : State) (u l : Nat) (f : Agc → Agc) : (modAgc s u l f).ctxQueue = s.ctxQueue := rfl
@[simp] theorem modAgc_fences (s : State) (u l : Nat) (f : Agc → Agc) : (modAgc s u l f).fences = s.fences := rfl
@[simp] theorem modAgc_watchLines (s : State) (u l : Nat) (f : Agc → Agc) : (modAgc s u l f).watchLines = s.watchLines := rfl
@[simp] theorem modAgc_watchDue (s : State) (u l : Nat) (f : Agc → Agc) : (modAgc s u l f).watchDue = s.watchDue := rfl
@[simp] theorem modAgc_front (s : State) (u l : Nat) (f : Agc → Agc) : (modAgc s u l f).front = s.front := rfl
@[simp] theorem modAgc_cmdTurn (s : State) (u l : Nat) (f : Agc → Agc) : (modAgc s u l f).cmdTurn = s.cmdTurn := rfl
@[simp] theorem modAgc_hedges (s : State) (u l : Nat) (f : Agc → Agc) : (modAgc s u l f).hedges = s.hedges := rfl
@[simp] theorem modAgc_arrays (s : State) (u l : Nat) (f : Agc → Agc) : (modAgc s u l f).arrays = s.arrays := rfl
@[simp] theorem modAgc_steps (s : State) (u l : Nat) (f : Agc → Agc) : (modAgc s u l f).steps = s.steps := rfl
@[simp] theorem modAgc_ranks (s : State) (u l : Nat) (f : Agc → Agc) : (modAgc s u l f).ranks = s.ranks := rfl
@[simp] theorem modAgc_rotations (s : State) (u l : Nat) (f : Agc → Agc) : (modAgc s u l f).rotations = s.rotations := rfl
@[simp] theorem modAgc_claimsWaiting (s : State) (u l : Nat) (f : Agc → Agc) : (modAgc s u l f).claimsWaiting = s.claimsWaiting := rfl
@[simp] theorem modAgc_movers (s : State) (u l : Nat) (f : Agc → Agc) : (modAgc s u l f).movers = s.movers := rfl
@[simp] theorem modAgc_moves (s : State) (u l : Nat) (f : Agc → Agc) : (modAgc s u l f).moves = s.moves := rfl
@[simp] theorem modAgc_moverTurn (s : State) (u l : Nat) (f : Agc → Agc) : (modAgc s u l f).moverTurn = s.moverTurn := rfl
@[simp] theorem modAgc_moverBytes (s : State) (u l : Nat) (f : Agc → Agc) : (modAgc s u l f).moverBytes = s.moverBytes := rfl
@[simp] theorem modAgc_pwr (s : State) (u l : Nat) (f : Agc → Agc) : (modAgc s u l f).pwr = s.pwr := rfl
@[simp] theorem modAgc_hif (s : State) (u l : Nat) (f : Agc → Agc) : (modAgc s u l f).hif = s.hif := rfl
@[simp] theorem modAgc_mem (s : State) (u l : Nat) (f : Agc → Agc) : (modAgc s u l f).mem = s.mem := rfl
@[simp] theorem modAgc_host (s : State) (u l : Nat) (f : Agc → Agc) : (modAgc s u l f).host = s.host := rfl
@[simp] theorem modAgc_macs (s : State) (u l : Nat) (f : Agc → Agc) : (modAgc s u l f).macs = s.macs := rfl
@[simp] theorem modAgc_utr (s : State) (u l : Nat) (f : Agc → Agc) : (modAgc s u l f).utr = s.utr := rfl
@[simp] theorem modAgc_chans (s : State) (u l : Nat) (f : Agc → Agc) : (modAgc s u l f).chans = s.chans := rfl
@[simp] theorem modAgc_calOut (s : State) (u l : Nat) (f : Agc → Agc) : (modAgc s u l f).calOut = s.calOut := rfl
@[simp] theorem modAgc_quads (s : State) (u l : Nat) (f : Agc → Agc) : (modAgc s u l f).quads = s.quads := rfl
@[simp] theorem modAgc_onChip (s : State) (u l : Nat) (f : Agc → Agc) : (modAgc s u l f).onChip = s.onChip := rfl
@[simp] theorem modAgc_hostPoison (s : State) (u l : Nat) (f : Agc → Agc) : (modAgc s u l f).hostPoison = s.hostPoison := rfl
@[simp] theorem modAgc_sage (s : State) (u l : Nat) (f : Agc → Agc) : (modAgc s u l f).sage = s.sage := rfl
@[simp] theorem modAgc_restructs (s : State) (u l : Nat) (f : Agc → Agc) : (modAgc s u l f).restructs = s.restructs := rfl
@[simp] theorem modAgc_scrubAt (s : State) (u l : Nat) (f : Agc → Agc) : (modAgc s u l f).scrubAt = s.scrubAt := rfl

@[simp] theorem modTask_pending (s : State) (u l : Nat) (f : Task → Task) : (modTask s u l f).pending = s.pending := rfl
@[simp] theorem modTask_freeTick (s : State) (u l : Nat) (f : Task → Task) : (modTask s u l f).freeTick = s.freeTick := rfl
@[simp] theorem modTask_busData (s : State) (u l : Nat) (f : Task → Task) : (modTask s u l f).busData = s.busData := rfl
@[simp] theorem modTask_busEp (s : State) (u l : Nat) (f : Task → Task) : (modTask s u l f).busEp = s.busEp := rfl
@[simp] theorem modTask_hostWait (s : State) (u l : Nat) (f : Task → Task) : (modTask s u l f).hostWait = s.hostWait := rfl
@[simp] theorem modTask_regs (s : State) (u l : Nat) (f : Task → Task) : (modTask s u l f).regs = s.regs := rfl
@[simp] theorem modTask_glb (s : State) (u l : Nat) (f : Task → Task) : (modTask s u l f).glb = s.glb := rfl
@[simp] theorem modTask_queues (s : State) (u l : Nat) (f : Task → Task) : (modTask s u l f).queues = s.queues := rfl
@[simp] theorem modTask_cmds (s : State) (u l : Nat) (f : Task → Task) : (modTask s u l f).cmds = s.cmds := rfl
@[simp] theorem modTask_nextUid (s : State) (u l : Nat) (f : Task → Task) : (modTask s u l f).nextUid = s.nextUid := rfl
@[simp] theorem modTask_ticketOps (s : State) (u l : Nat) (f : Task → Task) : (modTask s u l f).ticketOps = s.ticketOps := rfl
@[simp] theorem modTask_ticketsReady (s : State) (u l : Nat) (f : Task → Task) : (modTask s u l f).ticketsReady = s.ticketsReady := rfl
@[simp] theorem modTask_pleach (s : State) (u l : Nat) (f : Task → Task) : (modTask s u l f).pleach = s.pleach := rfl
@[simp] theorem modTask_ctxQueue (s : State) (u l : Nat) (f : Task → Task) : (modTask s u l f).ctxQueue = s.ctxQueue := rfl
@[simp] theorem modTask_fences (s : State) (u l : Nat) (f : Task → Task) : (modTask s u l f).fences = s.fences := rfl
@[simp] theorem modTask_watchLines (s : State) (u l : Nat) (f : Task → Task) : (modTask s u l f).watchLines = s.watchLines := rfl
@[simp] theorem modTask_watchDue (s : State) (u l : Nat) (f : Task → Task) : (modTask s u l f).watchDue = s.watchDue := rfl
@[simp] theorem modTask_front (s : State) (u l : Nat) (f : Task → Task) : (modTask s u l f).front = s.front := rfl
@[simp] theorem modTask_cmdTurn (s : State) (u l : Nat) (f : Task → Task) : (modTask s u l f).cmdTurn = s.cmdTurn := rfl
@[simp] theorem modTask_hedges (s : State) (u l : Nat) (f : Task → Task) : (modTask s u l f).hedges = s.hedges := rfl
@[simp] theorem modTask_arrays (s : State) (u l : Nat) (f : Task → Task) : (modTask s u l f).arrays = s.arrays := rfl
@[simp] theorem modTask_steps (s : State) (u l : Nat) (f : Task → Task) : (modTask s u l f).steps = s.steps := rfl
@[simp] theorem modTask_ranks (s : State) (u l : Nat) (f : Task → Task) : (modTask s u l f).ranks = s.ranks := rfl
@[simp] theorem modTask_rotations (s : State) (u l : Nat) (f : Task → Task) : (modTask s u l f).rotations = s.rotations := rfl
@[simp] theorem modTask_claimsWaiting (s : State) (u l : Nat) (f : Task → Task) : (modTask s u l f).claimsWaiting = s.claimsWaiting := rfl
@[simp] theorem modTask_movers (s : State) (u l : Nat) (f : Task → Task) : (modTask s u l f).movers = s.movers := rfl
@[simp] theorem modTask_moves (s : State) (u l : Nat) (f : Task → Task) : (modTask s u l f).moves = s.moves := rfl
@[simp] theorem modTask_moverTurn (s : State) (u l : Nat) (f : Task → Task) : (modTask s u l f).moverTurn = s.moverTurn := rfl
@[simp] theorem modTask_moverBytes (s : State) (u l : Nat) (f : Task → Task) : (modTask s u l f).moverBytes = s.moverBytes := rfl
@[simp] theorem modTask_pwr (s : State) (u l : Nat) (f : Task → Task) : (modTask s u l f).pwr = s.pwr := rfl
@[simp] theorem modTask_hif (s : State) (u l : Nat) (f : Task → Task) : (modTask s u l f).hif = s.hif := rfl
@[simp] theorem modTask_mem (s : State) (u l : Nat) (f : Task → Task) : (modTask s u l f).mem = s.mem := rfl
@[simp] theorem modTask_host (s : State) (u l : Nat) (f : Task → Task) : (modTask s u l f).host = s.host := rfl
@[simp] theorem modTask_macs (s : State) (u l : Nat) (f : Task → Task) : (modTask s u l f).macs = s.macs := rfl
@[simp] theorem modTask_utr (s : State) (u l : Nat) (f : Task → Task) : (modTask s u l f).utr = s.utr := rfl
@[simp] theorem modTask_chans (s : State) (u l : Nat) (f : Task → Task) : (modTask s u l f).chans = s.chans := rfl
@[simp] theorem modTask_calOut (s : State) (u l : Nat) (f : Task → Task) : (modTask s u l f).calOut = s.calOut := rfl
@[simp] theorem modTask_quads (s : State) (u l : Nat) (f : Task → Task) : (modTask s u l f).quads = s.quads := rfl
@[simp] theorem modTask_onChip (s : State) (u l : Nat) (f : Task → Task) : (modTask s u l f).onChip = s.onChip := rfl
@[simp] theorem modTask_hostPoison (s : State) (u l : Nat) (f : Task → Task) : (modTask s u l f).hostPoison = s.hostPoison := rfl
@[simp] theorem modTask_sage (s : State) (u l : Nat) (f : Task → Task) : (modTask s u l f).sage = s.sage := rfl
@[simp] theorem modTask_restructs (s : State) (u l : Nat) (f : Task → Task) : (modTask s u l f).restructs = s.restructs := rfl
@[simp] theorem modTask_scrubAt (s : State) (u l : Nat) (f : Task → Task) : (modTask s u l f).scrubAt = s.scrubAt := rfl

@[simp] theorem modCtx_pending (s : State) (u c : Nat) (f : Ctx → Ctx) : (modCtx s u c f).pending = s.pending := rfl
@[simp] theorem modCtx_freeTick (s : State) (u c : Nat) (f : Ctx → Ctx) : (modCtx s u c f).freeTick = s.freeTick := rfl
@[simp] theorem modCtx_busData (s : State) (u c : Nat) (f : Ctx → Ctx) : (modCtx s u c f).busData = s.busData := rfl
@[simp] theorem modCtx_busEp (s : State) (u c : Nat) (f : Ctx → Ctx) : (modCtx s u c f).busEp = s.busEp := rfl
@[simp] theorem modCtx_hostWait (s : State) (u c : Nat) (f : Ctx → Ctx) : (modCtx s u c f).hostWait = s.hostWait := rfl
@[simp] theorem modCtx_regs (s : State) (u c : Nat) (f : Ctx → Ctx) : (modCtx s u c f).regs = s.regs := rfl
@[simp] theorem modCtx_glb (s : State) (u c : Nat) (f : Ctx → Ctx) : (modCtx s u c f).glb = s.glb := rfl
@[simp] theorem modCtx_queues (s : State) (u c : Nat) (f : Ctx → Ctx) : (modCtx s u c f).queues = s.queues := rfl
@[simp] theorem modCtx_cmds (s : State) (u c : Nat) (f : Ctx → Ctx) : (modCtx s u c f).cmds = s.cmds := rfl
@[simp] theorem modCtx_nextUid (s : State) (u c : Nat) (f : Ctx → Ctx) : (modCtx s u c f).nextUid = s.nextUid := rfl
@[simp] theorem modCtx_ticketOps (s : State) (u c : Nat) (f : Ctx → Ctx) : (modCtx s u c f).ticketOps = s.ticketOps := rfl
@[simp] theorem modCtx_ticketsReady (s : State) (u c : Nat) (f : Ctx → Ctx) : (modCtx s u c f).ticketsReady = s.ticketsReady := rfl
@[simp] theorem modCtx_pleach (s : State) (u c : Nat) (f : Ctx → Ctx) : (modCtx s u c f).pleach = s.pleach := rfl
@[simp] theorem modCtx_ctxQueue (s : State) (u c : Nat) (f : Ctx → Ctx) : (modCtx s u c f).ctxQueue = s.ctxQueue := rfl
@[simp] theorem modCtx_fences (s : State) (u c : Nat) (f : Ctx → Ctx) : (modCtx s u c f).fences = s.fences := rfl
@[simp] theorem modCtx_watchLines (s : State) (u c : Nat) (f : Ctx → Ctx) : (modCtx s u c f).watchLines = s.watchLines := rfl
@[simp] theorem modCtx_watchDue (s : State) (u c : Nat) (f : Ctx → Ctx) : (modCtx s u c f).watchDue = s.watchDue := rfl
@[simp] theorem modCtx_front (s : State) (u c : Nat) (f : Ctx → Ctx) : (modCtx s u c f).front = s.front := rfl
@[simp] theorem modCtx_cmdTurn (s : State) (u c : Nat) (f : Ctx → Ctx) : (modCtx s u c f).cmdTurn = s.cmdTurn := rfl
@[simp] theorem modCtx_hedges (s : State) (u c : Nat) (f : Ctx → Ctx) : (modCtx s u c f).hedges = s.hedges := rfl
@[simp] theorem modCtx_arrays (s : State) (u c : Nat) (f : Ctx → Ctx) : (modCtx s u c f).arrays = s.arrays := rfl
@[simp] theorem modCtx_steps (s : State) (u c : Nat) (f : Ctx → Ctx) : (modCtx s u c f).steps = s.steps := rfl
@[simp] theorem modCtx_ranks (s : State) (u c : Nat) (f : Ctx → Ctx) : (modCtx s u c f).ranks = s.ranks := rfl
@[simp] theorem modCtx_rotations (s : State) (u c : Nat) (f : Ctx → Ctx) : (modCtx s u c f).rotations = s.rotations := rfl
@[simp] theorem modCtx_claimsWaiting (s : State) (u c : Nat) (f : Ctx → Ctx) : (modCtx s u c f).claimsWaiting = s.claimsWaiting := rfl
@[simp] theorem modCtx_movers (s : State) (u c : Nat) (f : Ctx → Ctx) : (modCtx s u c f).movers = s.movers := rfl
@[simp] theorem modCtx_moves (s : State) (u c : Nat) (f : Ctx → Ctx) : (modCtx s u c f).moves = s.moves := rfl
@[simp] theorem modCtx_moverTurn (s : State) (u c : Nat) (f : Ctx → Ctx) : (modCtx s u c f).moverTurn = s.moverTurn := rfl
@[simp] theorem modCtx_moverBytes (s : State) (u c : Nat) (f : Ctx → Ctx) : (modCtx s u c f).moverBytes = s.moverBytes := rfl
@[simp] theorem modCtx_pwr (s : State) (u c : Nat) (f : Ctx → Ctx) : (modCtx s u c f).pwr = s.pwr := rfl
@[simp] theorem modCtx_hif (s : State) (u c : Nat) (f : Ctx → Ctx) : (modCtx s u c f).hif = s.hif := rfl
@[simp] theorem modCtx_mem (s : State) (u c : Nat) (f : Ctx → Ctx) : (modCtx s u c f).mem = s.mem := rfl
@[simp] theorem modCtx_host (s : State) (u c : Nat) (f : Ctx → Ctx) : (modCtx s u c f).host = s.host := rfl
@[simp] theorem modCtx_macs (s : State) (u c : Nat) (f : Ctx → Ctx) : (modCtx s u c f).macs = s.macs := rfl
@[simp] theorem modCtx_utr (s : State) (u c : Nat) (f : Ctx → Ctx) : (modCtx s u c f).utr = s.utr := rfl
@[simp] theorem modCtx_chans (s : State) (u c : Nat) (f : Ctx → Ctx) : (modCtx s u c f).chans = s.chans := rfl
@[simp] theorem modCtx_calOut (s : State) (u c : Nat) (f : Ctx → Ctx) : (modCtx s u c f).calOut = s.calOut := rfl
@[simp] theorem modCtx_quads (s : State) (u c : Nat) (f : Ctx → Ctx) : (modCtx s u c f).quads = s.quads := rfl
@[simp] theorem modCtx_onChip (s : State) (u c : Nat) (f : Ctx → Ctx) : (modCtx s u c f).onChip = s.onChip := rfl
@[simp] theorem modCtx_hostPoison (s : State) (u c : Nat) (f : Ctx → Ctx) : (modCtx s u c f).hostPoison = s.hostPoison := rfl
@[simp] theorem modCtx_sage (s : State) (u c : Nat) (f : Ctx → Ctx) : (modCtx s u c f).sage = s.sage := rfl
@[simp] theorem modCtx_restructs (s : State) (u c : Nat) (f : Ctx → Ctx) : (modCtx s u c f).restructs = s.restructs := rfl
@[simp] theorem modCtx_scrubAt (s : State) (u c : Nat) (f : Ctx → Ctx) : (modCtx s u c f).scrubAt = s.scrubAt := rfl

@[simp] theorem modMac_pending (s : State) (m : Nat) (f : Mac → Mac) : (modMac s m f).pending = s.pending := rfl
@[simp] theorem modMac_freeTick (s : State) (m : Nat) (f : Mac → Mac) : (modMac s m f).freeTick = s.freeTick := rfl
@[simp] theorem modMac_busData (s : State) (m : Nat) (f : Mac → Mac) : (modMac s m f).busData = s.busData := rfl
@[simp] theorem modMac_busEp (s : State) (m : Nat) (f : Mac → Mac) : (modMac s m f).busEp = s.busEp := rfl
@[simp] theorem modMac_hostWait (s : State) (m : Nat) (f : Mac → Mac) : (modMac s m f).hostWait = s.hostWait := rfl
@[simp] theorem modMac_regs (s : State) (m : Nat) (f : Mac → Mac) : (modMac s m f).regs = s.regs := rfl
@[simp] theorem modMac_glb (s : State) (m : Nat) (f : Mac → Mac) : (modMac s m f).glb = s.glb := rfl
@[simp] theorem modMac_queues (s : State) (m : Nat) (f : Mac → Mac) : (modMac s m f).queues = s.queues := rfl
@[simp] theorem modMac_cmds (s : State) (m : Nat) (f : Mac → Mac) : (modMac s m f).cmds = s.cmds := rfl
@[simp] theorem modMac_nextUid (s : State) (m : Nat) (f : Mac → Mac) : (modMac s m f).nextUid = s.nextUid := rfl
@[simp] theorem modMac_ticketOps (s : State) (m : Nat) (f : Mac → Mac) : (modMac s m f).ticketOps = s.ticketOps := rfl
@[simp] theorem modMac_ticketsReady (s : State) (m : Nat) (f : Mac → Mac) : (modMac s m f).ticketsReady = s.ticketsReady := rfl
@[simp] theorem modMac_pleach (s : State) (m : Nat) (f : Mac → Mac) : (modMac s m f).pleach = s.pleach := rfl
@[simp] theorem modMac_ctxQueue (s : State) (m : Nat) (f : Mac → Mac) : (modMac s m f).ctxQueue = s.ctxQueue := rfl
@[simp] theorem modMac_fences (s : State) (m : Nat) (f : Mac → Mac) : (modMac s m f).fences = s.fences := rfl
@[simp] theorem modMac_watchLines (s : State) (m : Nat) (f : Mac → Mac) : (modMac s m f).watchLines = s.watchLines := rfl
@[simp] theorem modMac_watchDue (s : State) (m : Nat) (f : Mac → Mac) : (modMac s m f).watchDue = s.watchDue := rfl
@[simp] theorem modMac_front (s : State) (m : Nat) (f : Mac → Mac) : (modMac s m f).front = s.front := rfl
@[simp] theorem modMac_cmdTurn (s : State) (m : Nat) (f : Mac → Mac) : (modMac s m f).cmdTurn = s.cmdTurn := rfl
@[simp] theorem modMac_hedges (s : State) (m : Nat) (f : Mac → Mac) : (modMac s m f).hedges = s.hedges := rfl
@[simp] theorem modMac_arrays (s : State) (m : Nat) (f : Mac → Mac) : (modMac s m f).arrays = s.arrays := rfl
@[simp] theorem modMac_steps (s : State) (m : Nat) (f : Mac → Mac) : (modMac s m f).steps = s.steps := rfl
@[simp] theorem modMac_ranks (s : State) (m : Nat) (f : Mac → Mac) : (modMac s m f).ranks = s.ranks := rfl
@[simp] theorem modMac_rotations (s : State) (m : Nat) (f : Mac → Mac) : (modMac s m f).rotations = s.rotations := rfl
@[simp] theorem modMac_claimsWaiting (s : State) (m : Nat) (f : Mac → Mac) : (modMac s m f).claimsWaiting = s.claimsWaiting := rfl
@[simp] theorem modMac_movers (s : State) (m : Nat) (f : Mac → Mac) : (modMac s m f).movers = s.movers := rfl
@[simp] theorem modMac_moves (s : State) (m : Nat) (f : Mac → Mac) : (modMac s m f).moves = s.moves := rfl
@[simp] theorem modMac_moverTurn (s : State) (m : Nat) (f : Mac → Mac) : (modMac s m f).moverTurn = s.moverTurn := rfl
@[simp] theorem modMac_moverBytes (s : State) (m : Nat) (f : Mac → Mac) : (modMac s m f).moverBytes = s.moverBytes := rfl
@[simp] theorem modMac_pwr (s : State) (m : Nat) (f : Mac → Mac) : (modMac s m f).pwr = s.pwr := rfl
@[simp] theorem modMac_hif (s : State) (m : Nat) (f : Mac → Mac) : (modMac s m f).hif = s.hif := rfl
@[simp] theorem modMac_mem (s : State) (m : Nat) (f : Mac → Mac) : (modMac s m f).mem = s.mem := rfl
@[simp] theorem modMac_host (s : State) (m : Nat) (f : Mac → Mac) : (modMac s m f).host = s.host := rfl
@[simp] theorem modMac_macs (s : State) (m : Nat) (f : Mac → Mac) : (modMac s m f).macs = sset s.macs m (f (mac s m)) := rfl
@[simp] theorem modMac_utr (s : State) (m : Nat) (f : Mac → Mac) : (modMac s m f).utr = s.utr := rfl
@[simp] theorem modMac_chans (s : State) (m : Nat) (f : Mac → Mac) : (modMac s m f).chans = s.chans := rfl
@[simp] theorem modMac_rxus (s : State) (m : Nat) (f : Mac → Mac) : (modMac s m f).rxus = s.rxus := rfl
@[simp] theorem modMac_calOut (s : State) (m : Nat) (f : Mac → Mac) : (modMac s m f).calOut = s.calOut := rfl
@[simp] theorem modMac_quads (s : State) (m : Nat) (f : Mac → Mac) : (modMac s m f).quads = s.quads := rfl
@[simp] theorem modMac_onChip (s : State) (m : Nat) (f : Mac → Mac) : (modMac s m f).onChip = s.onChip := rfl
@[simp] theorem modMac_hostPoison (s : State) (m : Nat) (f : Mac → Mac) : (modMac s m f).hostPoison = s.hostPoison := rfl
@[simp] theorem modMac_sage (s : State) (m : Nat) (f : Mac → Mac) : (modMac s m f).sage = s.sage := rfl
@[simp] theorem modMac_restructs (s : State) (m : Nat) (f : Mac → Mac) : (modMac s m f).restructs = s.restructs := rfl
@[simp] theorem modMac_scrubAt (s : State) (m : Nat) (f : Mac → Mac) : (modMac s m f).scrubAt = s.scrubAt := rfl

@[simp] theorem modUtr_pending (s : State) (f : Utr → Utr) : (modUtr s f).pending = s.pending := rfl
@[simp] theorem modUtr_freeTick (s : State) (f : Utr → Utr) : (modUtr s f).freeTick = s.freeTick := rfl
@[simp] theorem modUtr_busData (s : State) (f : Utr → Utr) : (modUtr s f).busData = s.busData := rfl
@[simp] theorem modUtr_busEp (s : State) (f : Utr → Utr) : (modUtr s f).busEp = s.busEp := rfl
@[simp] theorem modUtr_hostWait (s : State) (f : Utr → Utr) : (modUtr s f).hostWait = s.hostWait := rfl
@[simp] theorem modUtr_regs (s : State) (f : Utr → Utr) : (modUtr s f).regs = s.regs := rfl
@[simp] theorem modUtr_glb (s : State) (f : Utr → Utr) : (modUtr s f).glb = s.glb := rfl
@[simp] theorem modUtr_queues (s : State) (f : Utr → Utr) : (modUtr s f).queues = s.queues := rfl
@[simp] theorem modUtr_cmds (s : State) (f : Utr → Utr) : (modUtr s f).cmds = s.cmds := rfl
@[simp] theorem modUtr_nextUid (s : State) (f : Utr → Utr) : (modUtr s f).nextUid = s.nextUid := rfl
@[simp] theorem modUtr_ticketOps (s : State) (f : Utr → Utr) : (modUtr s f).ticketOps = s.ticketOps := rfl
@[simp] theorem modUtr_ticketsReady (s : State) (f : Utr → Utr) : (modUtr s f).ticketsReady = s.ticketsReady := rfl
@[simp] theorem modUtr_pleach (s : State) (f : Utr → Utr) : (modUtr s f).pleach = s.pleach := rfl
@[simp] theorem modUtr_ctxQueue (s : State) (f : Utr → Utr) : (modUtr s f).ctxQueue = s.ctxQueue := rfl
@[simp] theorem modUtr_fences (s : State) (f : Utr → Utr) : (modUtr s f).fences = s.fences := rfl
@[simp] theorem modUtr_watchLines (s : State) (f : Utr → Utr) : (modUtr s f).watchLines = s.watchLines := rfl
@[simp] theorem modUtr_watchDue (s : State) (f : Utr → Utr) : (modUtr s f).watchDue = s.watchDue := rfl
@[simp] theorem modUtr_front (s : State) (f : Utr → Utr) : (modUtr s f).front = s.front := rfl
@[simp] theorem modUtr_cmdTurn (s : State) (f : Utr → Utr) : (modUtr s f).cmdTurn = s.cmdTurn := rfl
@[simp] theorem modUtr_hedges (s : State) (f : Utr → Utr) : (modUtr s f).hedges = s.hedges := rfl
@[simp] theorem modUtr_arrays (s : State) (f : Utr → Utr) : (modUtr s f).arrays = s.arrays := rfl
@[simp] theorem modUtr_steps (s : State) (f : Utr → Utr) : (modUtr s f).steps = s.steps := rfl
@[simp] theorem modUtr_ranks (s : State) (f : Utr → Utr) : (modUtr s f).ranks = s.ranks := rfl
@[simp] theorem modUtr_rotations (s : State) (f : Utr → Utr) : (modUtr s f).rotations = s.rotations := rfl
@[simp] theorem modUtr_claimsWaiting (s : State) (f : Utr → Utr) : (modUtr s f).claimsWaiting = s.claimsWaiting := rfl
@[simp] theorem modUtr_movers (s : State) (f : Utr → Utr) : (modUtr s f).movers = s.movers := rfl
@[simp] theorem modUtr_moves (s : State) (f : Utr → Utr) : (modUtr s f).moves = s.moves := rfl
@[simp] theorem modUtr_moverTurn (s : State) (f : Utr → Utr) : (modUtr s f).moverTurn = s.moverTurn := rfl
@[simp] theorem modUtr_moverBytes (s : State) (f : Utr → Utr) : (modUtr s f).moverBytes = s.moverBytes := rfl
@[simp] theorem modUtr_pwr (s : State) (f : Utr → Utr) : (modUtr s f).pwr = s.pwr := rfl
@[simp] theorem modUtr_hif (s : State) (f : Utr → Utr) : (modUtr s f).hif = s.hif := rfl
@[simp] theorem modUtr_mem (s : State) (f : Utr → Utr) : (modUtr s f).mem = s.mem := rfl
@[simp] theorem modUtr_host (s : State) (f : Utr → Utr) : (modUtr s f).host = s.host := rfl
@[simp] theorem modUtr_macs (s : State) (f : Utr → Utr) : (modUtr s f).macs = s.macs := rfl
@[simp] theorem modUtr_utr (s : State) (f : Utr → Utr) : (modUtr s f).utr = f s.utr := rfl
@[simp] theorem modUtr_chans (s : State) (f : Utr → Utr) : (modUtr s f).chans = s.chans := rfl
@[simp] theorem modUtr_rxus (s : State) (f : Utr → Utr) : (modUtr s f).rxus = s.rxus := rfl
@[simp] theorem modUtr_calOut (s : State) (f : Utr → Utr) : (modUtr s f).calOut = s.calOut := rfl
@[simp] theorem modUtr_quads (s : State) (f : Utr → Utr) : (modUtr s f).quads = s.quads := rfl
@[simp] theorem modUtr_onChip (s : State) (f : Utr → Utr) : (modUtr s f).onChip = s.onChip := rfl
@[simp] theorem modUtr_hostPoison (s : State) (f : Utr → Utr) : (modUtr s f).hostPoison = s.hostPoison := rfl
@[simp] theorem modUtr_sage (s : State) (f : Utr → Utr) : (modUtr s f).sage = s.sage := rfl
@[simp] theorem modUtr_restructs (s : State) (f : Utr → Utr) : (modUtr s f).restructs = s.restructs := rfl
@[simp] theorem modUtr_scrubAt (s : State) (f : Utr → Utr) : (modUtr s f).scrubAt = s.scrubAt := rfl

@[simp] theorem modPort_pending (s : State) (p : Nat) (f : UPort → UPort) : (modPort s p f).pending = s.pending := rfl
@[simp] theorem modPort_freeTick (s : State) (p : Nat) (f : UPort → UPort) : (modPort s p f).freeTick = s.freeTick := rfl
@[simp] theorem modPort_busData (s : State) (p : Nat) (f : UPort → UPort) : (modPort s p f).busData = s.busData := rfl
@[simp] theorem modPort_busEp (s : State) (p : Nat) (f : UPort → UPort) : (modPort s p f).busEp = s.busEp := rfl
@[simp] theorem modPort_hostWait (s : State) (p : Nat) (f : UPort → UPort) : (modPort s p f).hostWait = s.hostWait := rfl
@[simp] theorem modPort_regs (s : State) (p : Nat) (f : UPort → UPort) : (modPort s p f).regs = s.regs := rfl
@[simp] theorem modPort_glb (s : State) (p : Nat) (f : UPort → UPort) : (modPort s p f).glb = s.glb := rfl
@[simp] theorem modPort_queues (s : State) (p : Nat) (f : UPort → UPort) : (modPort s p f).queues = s.queues := rfl
@[simp] theorem modPort_cmds (s : State) (p : Nat) (f : UPort → UPort) : (modPort s p f).cmds = s.cmds := rfl
@[simp] theorem modPort_nextUid (s : State) (p : Nat) (f : UPort → UPort) : (modPort s p f).nextUid = s.nextUid := rfl
@[simp] theorem modPort_ticketOps (s : State) (p : Nat) (f : UPort → UPort) : (modPort s p f).ticketOps = s.ticketOps := rfl
@[simp] theorem modPort_ticketsReady (s : State) (p : Nat) (f : UPort → UPort) : (modPort s p f).ticketsReady = s.ticketsReady := rfl
@[simp] theorem modPort_pleach (s : State) (p : Nat) (f : UPort → UPort) : (modPort s p f).pleach = s.pleach := rfl
@[simp] theorem modPort_ctxQueue (s : State) (p : Nat) (f : UPort → UPort) : (modPort s p f).ctxQueue = s.ctxQueue := rfl
@[simp] theorem modPort_fences (s : State) (p : Nat) (f : UPort → UPort) : (modPort s p f).fences = s.fences := rfl
@[simp] theorem modPort_watchLines (s : State) (p : Nat) (f : UPort → UPort) : (modPort s p f).watchLines = s.watchLines := rfl
@[simp] theorem modPort_watchDue (s : State) (p : Nat) (f : UPort → UPort) : (modPort s p f).watchDue = s.watchDue := rfl
@[simp] theorem modPort_front (s : State) (p : Nat) (f : UPort → UPort) : (modPort s p f).front = s.front := rfl
@[simp] theorem modPort_cmdTurn (s : State) (p : Nat) (f : UPort → UPort) : (modPort s p f).cmdTurn = s.cmdTurn := rfl
@[simp] theorem modPort_hedges (s : State) (p : Nat) (f : UPort → UPort) : (modPort s p f).hedges = s.hedges := rfl
@[simp] theorem modPort_arrays (s : State) (p : Nat) (f : UPort → UPort) : (modPort s p f).arrays = s.arrays := rfl
@[simp] theorem modPort_steps (s : State) (p : Nat) (f : UPort → UPort) : (modPort s p f).steps = s.steps := rfl
@[simp] theorem modPort_ranks (s : State) (p : Nat) (f : UPort → UPort) : (modPort s p f).ranks = s.ranks := rfl
@[simp] theorem modPort_rotations (s : State) (p : Nat) (f : UPort → UPort) : (modPort s p f).rotations = s.rotations := rfl
@[simp] theorem modPort_claimsWaiting (s : State) (p : Nat) (f : UPort → UPort) : (modPort s p f).claimsWaiting = s.claimsWaiting := rfl
@[simp] theorem modPort_movers (s : State) (p : Nat) (f : UPort → UPort) : (modPort s p f).movers = s.movers := rfl
@[simp] theorem modPort_moves (s : State) (p : Nat) (f : UPort → UPort) : (modPort s p f).moves = s.moves := rfl
@[simp] theorem modPort_moverTurn (s : State) (p : Nat) (f : UPort → UPort) : (modPort s p f).moverTurn = s.moverTurn := rfl
@[simp] theorem modPort_moverBytes (s : State) (p : Nat) (f : UPort → UPort) : (modPort s p f).moverBytes = s.moverBytes := rfl
@[simp] theorem modPort_pwr (s : State) (p : Nat) (f : UPort → UPort) : (modPort s p f).pwr = s.pwr := rfl
@[simp] theorem modPort_hif (s : State) (p : Nat) (f : UPort → UPort) : (modPort s p f).hif = s.hif := rfl
@[simp] theorem modPort_mem (s : State) (p : Nat) (f : UPort → UPort) : (modPort s p f).mem = s.mem := rfl
@[simp] theorem modPort_host (s : State) (p : Nat) (f : UPort → UPort) : (modPort s p f).host = s.host := rfl
@[simp] theorem modPort_macs (s : State) (p : Nat) (f : UPort → UPort) : (modPort s p f).macs = s.macs := rfl
@[simp] theorem modPort_chans (s : State) (p : Nat) (f : UPort → UPort) : (modPort s p f).chans = s.chans := rfl
@[simp] theorem modPort_rxus (s : State) (p : Nat) (f : UPort → UPort) : (modPort s p f).rxus = s.rxus := rfl
@[simp] theorem modPort_calOut (s : State) (p : Nat) (f : UPort → UPort) : (modPort s p f).calOut = s.calOut := rfl
@[simp] theorem modPort_quads (s : State) (p : Nat) (f : UPort → UPort) : (modPort s p f).quads = s.quads := rfl
@[simp] theorem modPort_onChip (s : State) (p : Nat) (f : UPort → UPort) : (modPort s p f).onChip = s.onChip := rfl
@[simp] theorem modPort_hostPoison (s : State) (p : Nat) (f : UPort → UPort) : (modPort s p f).hostPoison = s.hostPoison := rfl
@[simp] theorem modPort_sage (s : State) (p : Nat) (f : UPort → UPort) : (modPort s p f).sage = s.sage := rfl
@[simp] theorem modPort_restructs (s : State) (p : Nat) (f : UPort → UPort) : (modPort s p f).restructs = s.restructs := rfl
@[simp] theorem modPort_scrubAt (s : State) (p : Nat) (f : UPort → UPort) : (modPort s p f).scrubAt = s.scrubAt := rfl

@[simp] theorem modChan_pending (s : State) (snd rcv : Nat) (f : Chan → Chan) : (modChan s snd rcv f).pending = s.pending := rfl
@[simp] theorem modChan_freeTick (s : State) (snd rcv : Nat) (f : Chan → Chan) : (modChan s snd rcv f).freeTick = s.freeTick := rfl
@[simp] theorem modChan_busData (s : State) (snd rcv : Nat) (f : Chan → Chan) : (modChan s snd rcv f).busData = s.busData := rfl
@[simp] theorem modChan_busEp (s : State) (snd rcv : Nat) (f : Chan → Chan) : (modChan s snd rcv f).busEp = s.busEp := rfl
@[simp] theorem modChan_hostWait (s : State) (snd rcv : Nat) (f : Chan → Chan) : (modChan s snd rcv f).hostWait = s.hostWait := rfl
@[simp] theorem modChan_regs (s : State) (snd rcv : Nat) (f : Chan → Chan) : (modChan s snd rcv f).regs = s.regs := rfl
@[simp] theorem modChan_glb (s : State) (snd rcv : Nat) (f : Chan → Chan) : (modChan s snd rcv f).glb = s.glb := rfl
@[simp] theorem modChan_queues (s : State) (snd rcv : Nat) (f : Chan → Chan) : (modChan s snd rcv f).queues = s.queues := rfl
@[simp] theorem modChan_cmds (s : State) (snd rcv : Nat) (f : Chan → Chan) : (modChan s snd rcv f).cmds = s.cmds := rfl
@[simp] theorem modChan_nextUid (s : State) (snd rcv : Nat) (f : Chan → Chan) : (modChan s snd rcv f).nextUid = s.nextUid := rfl
@[simp] theorem modChan_ticketOps (s : State) (snd rcv : Nat) (f : Chan → Chan) : (modChan s snd rcv f).ticketOps = s.ticketOps := rfl
@[simp] theorem modChan_ticketsReady (s : State) (snd rcv : Nat) (f : Chan → Chan) : (modChan s snd rcv f).ticketsReady = s.ticketsReady := rfl
@[simp] theorem modChan_pleach (s : State) (snd rcv : Nat) (f : Chan → Chan) : (modChan s snd rcv f).pleach = s.pleach := rfl
@[simp] theorem modChan_ctxQueue (s : State) (snd rcv : Nat) (f : Chan → Chan) : (modChan s snd rcv f).ctxQueue = s.ctxQueue := rfl
@[simp] theorem modChan_fences (s : State) (snd rcv : Nat) (f : Chan → Chan) : (modChan s snd rcv f).fences = s.fences := rfl
@[simp] theorem modChan_watchLines (s : State) (snd rcv : Nat) (f : Chan → Chan) : (modChan s snd rcv f).watchLines = s.watchLines := rfl
@[simp] theorem modChan_watchDue (s : State) (snd rcv : Nat) (f : Chan → Chan) : (modChan s snd rcv f).watchDue = s.watchDue := rfl
@[simp] theorem modChan_front (s : State) (snd rcv : Nat) (f : Chan → Chan) : (modChan s snd rcv f).front = s.front := rfl
@[simp] theorem modChan_cmdTurn (s : State) (snd rcv : Nat) (f : Chan → Chan) : (modChan s snd rcv f).cmdTurn = s.cmdTurn := rfl
@[simp] theorem modChan_hedges (s : State) (snd rcv : Nat) (f : Chan → Chan) : (modChan s snd rcv f).hedges = s.hedges := rfl
@[simp] theorem modChan_arrays (s : State) (snd rcv : Nat) (f : Chan → Chan) : (modChan s snd rcv f).arrays = s.arrays := rfl
@[simp] theorem modChan_steps (s : State) (snd rcv : Nat) (f : Chan → Chan) : (modChan s snd rcv f).steps = s.steps := rfl
@[simp] theorem modChan_ranks (s : State) (snd rcv : Nat) (f : Chan → Chan) : (modChan s snd rcv f).ranks = s.ranks := rfl
@[simp] theorem modChan_rotations (s : State) (snd rcv : Nat) (f : Chan → Chan) : (modChan s snd rcv f).rotations = s.rotations := rfl
@[simp] theorem modChan_claimsWaiting (s : State) (snd rcv : Nat) (f : Chan → Chan) : (modChan s snd rcv f).claimsWaiting = s.claimsWaiting := rfl
@[simp] theorem modChan_movers (s : State) (snd rcv : Nat) (f : Chan → Chan) : (modChan s snd rcv f).movers = s.movers := rfl
@[simp] theorem modChan_moves (s : State) (snd rcv : Nat) (f : Chan → Chan) : (modChan s snd rcv f).moves = s.moves := rfl
@[simp] theorem modChan_moverTurn (s : State) (snd rcv : Nat) (f : Chan → Chan) : (modChan s snd rcv f).moverTurn = s.moverTurn := rfl
@[simp] theorem modChan_moverBytes (s : State) (snd rcv : Nat) (f : Chan → Chan) : (modChan s snd rcv f).moverBytes = s.moverBytes := rfl
@[simp] theorem modChan_pwr (s : State) (snd rcv : Nat) (f : Chan → Chan) : (modChan s snd rcv f).pwr = s.pwr := rfl
@[simp] theorem modChan_hif (s : State) (snd rcv : Nat) (f : Chan → Chan) : (modChan s snd rcv f).hif = s.hif := rfl
@[simp] theorem modChan_mem (s : State) (snd rcv : Nat) (f : Chan → Chan) : (modChan s snd rcv f).mem = s.mem := rfl
@[simp] theorem modChan_host (s : State) (snd rcv : Nat) (f : Chan → Chan) : (modChan s snd rcv f).host = s.host := rfl
@[simp] theorem modChan_macs (s : State) (snd rcv : Nat) (f : Chan → Chan) : (modChan s snd rcv f).macs = s.macs := rfl
@[simp] theorem modChan_utr (s : State) (snd rcv : Nat) (f : Chan → Chan) : (modChan s snd rcv f).utr = s.utr := rfl
@[simp] theorem modChan_chans (s : State) (snd rcv : Nat) (f : Chan → Chan) : (modChan s snd rcv f).chans = sset s.chans (chanKey snd rcv) (f (chan s snd rcv)) := rfl
@[simp] theorem modChan_rxus (s : State) (snd rcv : Nat) (f : Chan → Chan) : (modChan s snd rcv f).rxus = s.rxus := rfl
@[simp] theorem modChan_calOut (s : State) (snd rcv : Nat) (f : Chan → Chan) : (modChan s snd rcv f).calOut = s.calOut := rfl
@[simp] theorem modChan_quads (s : State) (snd rcv : Nat) (f : Chan → Chan) : (modChan s snd rcv f).quads = s.quads := rfl
@[simp] theorem modChan_onChip (s : State) (snd rcv : Nat) (f : Chan → Chan) : (modChan s snd rcv f).onChip = s.onChip := rfl
@[simp] theorem modChan_hostPoison (s : State) (snd rcv : Nat) (f : Chan → Chan) : (modChan s snd rcv f).hostPoison = s.hostPoison := rfl
@[simp] theorem modChan_sage (s : State) (snd rcv : Nat) (f : Chan → Chan) : (modChan s snd rcv f).sage = s.sage := rfl
@[simp] theorem modChan_restructs (s : State) (snd rcv : Nat) (f : Chan → Chan) : (modChan s snd rcv f).restructs = s.restructs := rfl
@[simp] theorem modChan_scrubAt (s : State) (snd rcv : Nat) (f : Chan → Chan) : (modChan s snd rcv f).scrubAt = s.scrubAt := rfl

@[simp] theorem setQuad_pending (s : State) (store n : Nat) (v : QuadState) : (setQuad s store n v).pending = s.pending := rfl
@[simp] theorem setQuad_freeTick (s : State) (store n : Nat) (v : QuadState) : (setQuad s store n v).freeTick = s.freeTick := rfl
@[simp] theorem setQuad_busData (s : State) (store n : Nat) (v : QuadState) : (setQuad s store n v).busData = s.busData := rfl
@[simp] theorem setQuad_busEp (s : State) (store n : Nat) (v : QuadState) : (setQuad s store n v).busEp = s.busEp := rfl
@[simp] theorem setQuad_hostWait (s : State) (store n : Nat) (v : QuadState) : (setQuad s store n v).hostWait = s.hostWait := rfl
@[simp] theorem setQuad_regs (s : State) (store n : Nat) (v : QuadState) : (setQuad s store n v).regs = s.regs := rfl
@[simp] theorem setQuad_glb (s : State) (store n : Nat) (v : QuadState) : (setQuad s store n v).glb = s.glb := rfl
@[simp] theorem setQuad_queues (s : State) (store n : Nat) (v : QuadState) : (setQuad s store n v).queues = s.queues := rfl
@[simp] theorem setQuad_cmds (s : State) (store n : Nat) (v : QuadState) : (setQuad s store n v).cmds = s.cmds := rfl
@[simp] theorem setQuad_nextUid (s : State) (store n : Nat) (v : QuadState) : (setQuad s store n v).nextUid = s.nextUid := rfl
@[simp] theorem setQuad_ticketOps (s : State) (store n : Nat) (v : QuadState) : (setQuad s store n v).ticketOps = s.ticketOps := rfl
@[simp] theorem setQuad_ticketsReady (s : State) (store n : Nat) (v : QuadState) : (setQuad s store n v).ticketsReady = s.ticketsReady := rfl
@[simp] theorem setQuad_pleach (s : State) (store n : Nat) (v : QuadState) : (setQuad s store n v).pleach = s.pleach := rfl
@[simp] theorem setQuad_ctxQueue (s : State) (store n : Nat) (v : QuadState) : (setQuad s store n v).ctxQueue = s.ctxQueue := rfl
@[simp] theorem setQuad_fences (s : State) (store n : Nat) (v : QuadState) : (setQuad s store n v).fences = s.fences := rfl
@[simp] theorem setQuad_watchLines (s : State) (store n : Nat) (v : QuadState) : (setQuad s store n v).watchLines = s.watchLines := rfl
@[simp] theorem setQuad_watchDue (s : State) (store n : Nat) (v : QuadState) : (setQuad s store n v).watchDue = s.watchDue := rfl
@[simp] theorem setQuad_front (s : State) (store n : Nat) (v : QuadState) : (setQuad s store n v).front = s.front := rfl
@[simp] theorem setQuad_cmdTurn (s : State) (store n : Nat) (v : QuadState) : (setQuad s store n v).cmdTurn = s.cmdTurn := rfl
@[simp] theorem setQuad_hedges (s : State) (store n : Nat) (v : QuadState) : (setQuad s store n v).hedges = s.hedges := rfl
@[simp] theorem setQuad_arrays (s : State) (store n : Nat) (v : QuadState) : (setQuad s store n v).arrays = s.arrays := rfl
@[simp] theorem setQuad_steps (s : State) (store n : Nat) (v : QuadState) : (setQuad s store n v).steps = s.steps := rfl
@[simp] theorem setQuad_ranks (s : State) (store n : Nat) (v : QuadState) : (setQuad s store n v).ranks = s.ranks := rfl
@[simp] theorem setQuad_rotations (s : State) (store n : Nat) (v : QuadState) : (setQuad s store n v).rotations = s.rotations := rfl
@[simp] theorem setQuad_claimsWaiting (s : State) (store n : Nat) (v : QuadState) : (setQuad s store n v).claimsWaiting = s.claimsWaiting := rfl
@[simp] theorem setQuad_movers (s : State) (store n : Nat) (v : QuadState) : (setQuad s store n v).movers = s.movers := rfl
@[simp] theorem setQuad_moves (s : State) (store n : Nat) (v : QuadState) : (setQuad s store n v).moves = s.moves := rfl
@[simp] theorem setQuad_moverTurn (s : State) (store n : Nat) (v : QuadState) : (setQuad s store n v).moverTurn = s.moverTurn := rfl
@[simp] theorem setQuad_moverBytes (s : State) (store n : Nat) (v : QuadState) : (setQuad s store n v).moverBytes = s.moverBytes := rfl
@[simp] theorem setQuad_pwr (s : State) (store n : Nat) (v : QuadState) : (setQuad s store n v).pwr = s.pwr := rfl
@[simp] theorem setQuad_hif (s : State) (store n : Nat) (v : QuadState) : (setQuad s store n v).hif = s.hif := rfl
@[simp] theorem setQuad_mem (s : State) (store n : Nat) (v : QuadState) : (setQuad s store n v).mem = s.mem := rfl
@[simp] theorem setQuad_host (s : State) (store n : Nat) (v : QuadState) : (setQuad s store n v).host = s.host := rfl
@[simp] theorem setQuad_macs (s : State) (store n : Nat) (v : QuadState) : (setQuad s store n v).macs = s.macs := rfl
@[simp] theorem setQuad_utr (s : State) (store n : Nat) (v : QuadState) : (setQuad s store n v).utr = s.utr := rfl
@[simp] theorem setQuad_chans (s : State) (store n : Nat) (v : QuadState) : (setQuad s store n v).chans = s.chans := rfl
@[simp] theorem setQuad_rxus (s : State) (store n : Nat) (v : QuadState) : (setQuad s store n v).rxus = s.rxus := rfl
@[simp] theorem setQuad_calOut (s : State) (store n : Nat) (v : QuadState) : (setQuad s store n v).calOut = s.calOut := rfl
@[simp] theorem setQuad_onChip (s : State) (store n : Nat) (v : QuadState) : (setQuad s store n v).onChip = s.onChip := rfl
@[simp] theorem setQuad_hostPoison (s : State) (store n : Nat) (v : QuadState) : (setQuad s store n v).hostPoison = s.hostPoison := rfl
@[simp] theorem setQuad_sage (s : State) (store n : Nat) (v : QuadState) : (setQuad s store n v).sage = s.sage := rfl
@[simp] theorem setQuad_restructs (s : State) (store n : Nat) (v : QuadState) : (setQuad s store n v).restructs = s.restructs := rfl
@[simp] theorem setQuad_scrubAt (s : State) (store n : Nat) (v : QuadState) : (setQuad s store n v).scrubAt = s.scrubAt := rfl

end Sys2Proof.Machine
end

