-- ==== Sys2Proof/Laws/Ops.lean ====
section
/-! SUPPORT. What each shared operation of Machine/RegFile.lean and Machine/Ops.lean can do, said once: the register file, the tables of
queues, hedges, arrays and fences, the counters, and memory; every memory operation keeps the canonical form. -/

set_option Elab.async false

namespace Sys2Proof.Machine

/-! ## The register file -/

@[simp] theorem regGet_regSet_same (s : State) (o : Nat) (w : Word) : regGet (regSet s o w) o = w := by simp [regGet]

@[simp] theorem regGet_regSet_ne (s : State) (o p : Nat) (w : Word) (h : o ≠ p) : regGet (regSet s o w) p = regGet s p := by
  simp [regGet, h]

/-- Sticky bits change the register file alone. -/
theorem regOr_frame (s : State) (o m : Nat) : regOr s o m = { s with regs := (regOr s o m).regs } := by
  unfold regOr; split <;> rfl

/-- A counter changes the register file alone. -/
theorem regAdd_frame (s : State) (o n : Nat) : regAdd s o n = { s with regs := (regAdd s o n).regs } := by
  unfold regAdd; split <;> rfl

/-- A saturating counter changes the register file alone. -/
theorem regCount_frame (s : State) (o n : Nat) : regCount s o n = { s with regs := (regCount s o n).regs } := by
  unfold regCount; split <;> rfl

/-- A field that is set changes the register file alone. -/
theorem regSetField_frame (s : State) (o hi lo v : Nat) :
    regSetField s o hi lo v = { s with regs := (regSetField s o hi lo v).regs } := rfl

/-- Sticky bits that are set read as 1 and leave the others. -/
theorem regGet_regOr (s : State) (o m : Nat) : regGet (regOr s o m) o = regGet s o ||| BitVec.ofNat 32 m := by
  unfold regOr
  split
  · rename_i h; subst h; simp
  · simp

/-- Sticky bits of one register leave the other registers. -/
theorem regGet_regOr_ne (s : State) (o p m : Nat) (h : o ≠ p) : regGet (regOr s o m) p = regGet s p := by
  unfold regOr; split <;> simp [h]

/-! ## Tables -/

@[simp] theorem queue_setQueue_same (s : State) (q : Nat) (v : Queue) : queue (setQueue s q v) q = v := by simp [queue]
@[simp] theorem queue_setQueue_ne (s : State) (q r : Nat) (v : Queue) (h : q ≠ r) : queue (setQueue s q v) r = queue s r := by
  simp [queue, h]
@[simp] theorem queue_modQueue_same (s : State) (q : Nat) (f : Queue → Queue) : queue (modQueue s q f) q = f (queue s q) := by
  simp [modQueue]
@[simp] theorem queue_modQueue_ne (s : State) (q r : Nat) (f : Queue → Queue) (h : q ≠ r) : queue (modQueue s q f) r = queue s r := by
  simp [modQueue, h]
@[simp] theorem hedge_setHedge_same (s : State) (h : Nat) (v : Hedge) : hedge (setHedge s h v) h = v := by simp [hedge]
@[simp] theorem hedge_setHedge_ne (s : State) (h k : Nat) (v : Hedge) (e : h ≠ k) : hedge (setHedge s h v) k = hedge s k := by
  simp [hedge, e]
@[simp] theorem hedge_modHedge_same (s : State) (h : Nat) (f : Hedge → Hedge) : hedge (modHedge s h f) h = f (hedge s h) := by
  simp [modHedge]
@[simp] theorem hedge_modHedge_ne (s : State) (h k : Nat) (f : Hedge → Hedge) (e : h ≠ k) : hedge (modHedge s h f) k = hedge s k := by
  simp [modHedge, e]
@[simp] theorem arr_setArr_same (s : State) (n : Nat) (v : Arr) : arr (setArr s n v) n = v := by simp [arr]
@[simp] theorem arr_setArr_ne (s : State) (n k : Nat) (v : Arr) (e : n ≠ k) : arr (setArr s n v) k = arr s k := by simp [arr, e]
@[simp] theorem arr_modArr_same (s : State) (n : Nat) (f : Arr → Arr) : arr (modArr s n f) n = f (arr s n) := by simp [modArr]
@[simp] theorem arr_modArr_ne (s : State) (n k : Nat) (f : Arr → Arr) (e : n ≠ k) : arr (modArr s n f) k = arr s k := by
  simp [modArr, e]
@[simp] theorem fence_setFence_same (s : State) (n : Nat) (v : Fence) : fence (setFence s n v) n = v := by simp [fence]
@[simp] theorem fence_setFence_ne (s : State) (n k : Nat) (v : Fence) (e : n ≠ k) : fence (setFence s n v) k = fence s k := by
  simp [fence, e]
@[simp] theorem chan_modChan_same (s : State) (a b : Nat) (f : Chan → Chan) : chan (modChan s a b f) a b = f (chan s a b) := by
  simp [chan]
@[simp] theorem rxu_modRxu_same (s : State) (u : Nat) (f : Rxu → Rxu) : rxu (modRxu s u f) u = f (rxu s u) := by simp [rxu]
@[simp] theorem mac_modMac_same (s : State) (m : Nat) (f : Mac → Mac) : mac (modMac s m f) m = f (mac s m) := by simp [mac]

/-! ## The end of a command (R436, log 4) -/

/-- A vector raised changes the MSI-X messages and pending bits alone. -/
theorem raiseVec_frame (s : State) (v : Nat) :
    raiseVec s v = { s with hif := { s.hif with msgs := (raiseVec s v).hif.msgs, pba := (raiseVec s v).hif.pba } } := by
  unfold raiseVec
  dsimp only
  split
  · split <;> rfl
  · rfl

/-- The end of a command changes the MSI-X messages and pending bits alone. -/
theorem finish_frame (s t : State) :
    finish s t = { t with hif := { t.hif with msgs := (finish s t).hif.msgs, pba := (finish s t).hif.pba } } := by
  unfold finish
  split
  · rfl
  · split
    · rfl
    · exact raiseVec_frame t _

/-- A command that meets no host access to wait for settles as it is. -/
theorem settle_of_not_wait (s t : State) (h : t.hostWait = false) : settle s t = t := by simp [settle, h]

/-- A command that met a host access to wait for leaves all but the translations asked for. -/
theorem settle_of_wait (s t : State) (h : t.hostWait = true) : settle s t = { s with hif := { s.hif with asked := t.hif.asked } } := by
  simp [settle, h]

/-- An event of the engines with the flows running. -/
theorem flows_eq (s : State) (f : State → State) (h : served s = true) : flows s f = .next (finish s (settle s (f s))) := by
  simp [flows, h, done]

/-- A served host write. -/
theorem host_eq (s : State) (f : State → State) (h : hostWrites s = true) : host s f = .next (finish s (settle s (f s))) := by
  simp [host, h, done]

/-! ## Counters and the event log leave memory -/

@[simp] theorem regOr_mem (s : State) (o m : Nat) : (regOr s o m).mem = s.mem := by rw [regOr_frame]
@[simp] theorem regOr_host (s : State) (o m : Nat) : (regOr s o m).host = s.host := by rw [regOr_frame]
@[simp] theorem regAdd_mem (s : State) (o n : Nat) : (regAdd s o n).mem = s.mem := by rw [regAdd_frame]
@[simp] theorem regAdd_host (s : State) (o n : Nat) : (regAdd s o n).host = s.host := by rw [regAdd_frame]
@[simp] theorem regCount_mem (s : State) (o n : Nat) : (regCount s o n).mem = s.mem := by rw [regCount_frame]
@[simp] theorem regCount_host (s : State) (o n : Nat) : (regCount s o n).host = s.host := by rw [regCount_frame]
@[simp] theorem logEvent_mem (s : State) (c o v : Nat) (d : List Byte) : (logEvent s c o v d).mem = s.mem := rfl
@[simp] theorem logEvent_host (s : State) (c o v : Nat) (d : List Byte) : (logEvent s c o v d).host = s.host := rfl
@[simp] theorem captureErr_mem (s : State) (a b c d : Nat) : (captureErr s a b c d).mem = s.mem := by unfold captureErr; split <;> simp
@[simp] theorem captureErr_host (s : State) (a b c d : Nat) : (captureErr s a b c d).host = s.host := by unfold captureErr; split <;> simp
@[simp] theorem countCe_mem (s : State) (a : Nat) : (countCe s a).mem = s.mem := by unfold countCe; dsimp only; split <;> simp
@[simp] theorem countCe_host (s : State) (a : Nat) : (countCe s a).host = s.host := by unfold countCe; dsimp only; split <;> simp
@[simp] theorem countUe_mem (s : State) (a b c : Nat) : (countUe s a b c).mem = s.mem := by simp [countUe]
@[simp] theorem countUe_host (s : State) (a b c : Nat) : (countUe s a b c).host = s.host := by simp [countUe]
@[simp] theorem countAe_mem (s : State) (a b c : Nat) : (countAe s a b c).mem = s.mem := by simp [countAe]
@[simp] theorem countAe_host (s : State) (a b c : Nat) : (countAe s a b c).host = s.host := by simp [countAe]
@[simp] theorem countPoison_mem (s : State) (a : Nat) : (countPoison s a).mem = s.mem := by simp [countPoison]
@[simp] theorem countPoison_host (s : State) (a : Nat) : (countPoison s a).host = s.host := by simp [countPoison]
@[simp] theorem xlate_mem (s : State) : (xlate s).mem = s.mem := by simp [xlate]
@[simp] theorem xlate_host (s : State) : (xlate s).host = s.host := by simp [xlate]

/-! ## Every memory operation keeps the canonical form -/

/-- A state with the same memories is as canonical. -/
theorem canonical_of_eq {s t : State} (h : s.canonical) (hm : t.mem = s.mem) (hh : t.host = s.host) : t.canonical := by
  unfold State.canonical at *; rw [hm, hh]; exact h

/-- A write of bytes into device memory. -/
theorem canonical_mwrite {s : State} (h : s.canonical) (a : Nat) (bs : List Byte) :
    ({ s with mem := mwrite s.mem a bs } : State).canonical := ⟨mwrite_wf bs s.mem a h.1, h.2⟩

/-- A quad read. -/
theorem readQuad_canonical {s : State} (h : s.canonical) (who a : Nat) : (readQuad s who a).1.canonical := by
  unfold readQuad
  generalize storeOf s a = o
  cases o with
  | none => exact h
  | some p =>
    dsimp only
    generalize quadState s p.1 (a / 16) = v
    generalize classify v.poison (quadZero s a) v.err.toNat v.adx.toNat = c
    split
    · exact h
    · cases c with
      | clean => exact h
      | poisoned => exact canonical_of_eq h (countPoison_mem s _) (countPoison_host s _)
      | ce b =>
        cases b
        · exact canonical_of_eq h (countCe_mem s _) (countCe_host s _)
        · exact canonical_of_eq h (by simp) (by simp)
      | ue =>
        have hc : (countUe s p.1 who a).canonical := canonical_of_eq h (countUe_mem s _ _ _) (countUe_host s _ _ _)
        have hq := canonical_of_eq (t := setQuad { (countUe s p.1 who a) with mem := mwrite (countUe s p.1 who a).mem a (List.replicate 16 0) }
          p.1 (a / 16) { poison := true }) (canonical_mwrite hc a (List.replicate 16 0)) (setQuad_mem _ _ _ _) (setQuad_host _ _ _ _)
        exact canonical_of_eq hq (countPoison_mem _ _) (countPoison_host _ _)
      | ae => exact canonical_of_eq h (by simp) (by simp)

/-- Quads read one after another. -/
theorem readQuads_canonical (who : Nat) : ∀ (l : List Nat) {s : State}, s.canonical → (readQuads s who l).1.canonical
  | [], _, h => h
  | a :: t, _, h => by
    simp only [readQuads]
    exact readQuads_canonical who t (readQuad_canonical h who a)

/-- A read of memory (R222, R336). -/
theorem readMem_canonical {s : State} (h : s.canonical) (q who a len : Nat) : (readMem s q who a len).1.canonical := by
  unfold readMem
  split
  · dsimp only
    split
    · exact canonical_of_eq h rfl rfl
    · exact canonical_of_eq h (by simp) (by simp)
    · dsimp only
      split
      · exact h
      · exact canonical_of_eq h (by simp) (by simp)
  · split
    · exact h
    · exact readQuads_canonical who _ h

/-- An undetected error's bits change. -/
theorem flipQuad_canonical {s : State} (h : s.canonical) (a e : Nat) : (flipQuad s a e).canonical := canonical_mwrite h _ _

/-- A partial write of a quad (R342). -/
theorem mergeQuad_canonical {s : State} (h : s.canonical) (who a off : Nat) (bs : List Byte) : (mergeQuad s who a off bs).canonical := by
  unfold mergeQuad
  generalize storeOf s a = o
  cases o with
  | none => exact h
  | some p =>
    dsimp only
    generalize quadState s p.1 (a / 16) = v
    generalize classify v.poison (quadZero s a) v.err.toNat v.adx.toNat = c
    have put : ∀ {t : State} (x : Nat), t.canonical →
        (setQuad { (flipQuad t a x) with mem := mwrite (flipQuad t a x).mem (a + off) bs } p.1 (a / 16) {}).canonical := by
      intro t x ht
      exact canonical_of_eq (canonical_mwrite (flipQuad_canonical ht a x) (a + off) bs) (setQuad_mem _ _ _ _) (setQuad_host _ _ _ _)
    have bad : ∀ {t : State}, t.canonical → t.mem = s.mem →
        (setQuad { t with mem := mwrite s.mem a (List.replicate 16 0) } p.1 (a / 16) { poison := true }).canonical := by
      intro t ht hm
      have hq := canonical_mwrite ht a (List.replicate 16 0)
      rw [hm] at hq
      exact canonical_of_eq hq (setQuad_mem _ _ _ _) (setQuad_host _ _ _ _)
    split
    · exact canonical_mwrite h _ _
    · cases c with
      | clean => exact put _ h
      | poisoned => exact h
      | ce b =>
        cases b
        · exact put _ (canonical_of_eq h (countCe_mem s _) (countCe_host s _))
        · exact canonical_of_eq h (countCe_mem s _) (countCe_host s _)
      | ue => exact bad (canonical_of_eq h (countUe_mem s _ _ _) (countUe_host s _ _ _)) (countUe_mem s _ _ _)
      | ae => exact bad (canonical_of_eq h (countAe_mem s _ _ _) (countAe_host s _ _ _)) (countAe_mem s _ _ _)

/-- A write of device memory. -/
theorem writeDevice_canonical (who : Nat) : ∀ (n : Nat) {s : State} (a : Nat) (bs : List Byte), s.canonical →
    (writeDevice who n s a bs).canonical
  | 0, _, _, _, h => h
  | n + 1, s, a, bs, h => by
    simp only [writeDevice]
    split
    · exact h
    · apply writeDevice_canonical who n
      split
      · split
        · exact canonical_of_eq (canonical_mwrite h a _) rfl rfl
        · exact h
      · exact mergeQuad_canonical h _ _ _ _

/-- Host bytes set one after another. -/
theorem foldl_mset_wf {α : Type} (k : α → Nat) (v : α → Byte) : ∀ (l : List α) (m : List Host.Cell), Memory.wf m = true →
    Memory.wf (l.foldl (fun m e => mset m (k e) (v e)) m) = true
  | [], _, h => h
  | e :: t, m, h => foldl_mset_wf k v t _ (mset_wf m (k e) (v e) h)

/-- A write of memory (R222, R342, R412). -/
theorem writeMem_canonical {s : State} (h : s.canonical) (q who a : Nat) (bs : List Byte) : (writeMem s q who a bs).1.canonical := by
  unfold writeMem
  split
  · exact h
  · split
    · dsimp only
      split
      · exact canonical_of_eq h rfl rfl
      · exact canonical_of_eq h (by simp) (by simp)
      · exact ⟨h.1, foldl_mset_wf _ _ _ _ h.2⟩
    · split
      · exact h
      · exact writeDevice_canonical who _ a bs h

/-- Quads written poisoned (R336, R413). -/
theorem writePoison_canonical : ∀ (n : Nat) {s : State} (q a : Nat), s.canonical → (writePoison n s q a).1.canonical
  | 0, _, _, _, h => h
  | n + 1, s, q, a, h => by
    simp only [writePoison]
    apply writePoison_canonical n
    split
    · split
      · split
        · exact canonical_of_eq (writeMem_canonical h q 0 a _) rfl rfl
        · exact canonical_of_eq (writeMem_canonical h q 0 a _) rfl rfl
      · exact writeMem_canonical h q 0 a _
    · split
      · exact canonical_of_eq (canonical_mwrite h _ _) rfl rfl
      · exact h

/-- A command's end keeps the canonical form. -/
theorem finish_canonical {s t : State} (hs : s.canonical) (ht : t.canonical) : (finish s (settle s t)).canonical := by
  rw [finish_frame]
  unfold settle
  split
  · exact canonical_of_eq hs rfl rfl
  · exact canonical_of_eq ht rfl rfl

/-! ## Device memory without stored errors -/

/-- Bytes written one string after another are written as one. -/
theorem mwrite_append : ∀ (x : List Byte) (m : List Host.Cell) (a : Nat) (y : List Byte),
    mwrite m a (x ++ y) = mwrite (mwrite m a x) (a + x.length) y
  | [], _, _, _ => rfl
  | b :: t, m, a, y => by
    rw [List.cons_append, mwrite, mwrite_append t, mwrite, show a + 1 + t.length = a + (b :: t).length by simp; omega]

/-- Without stored errors a partial write of a quad in a store is a plain write. -/
theorem mergeQuad_clean {s : State} (hq : s.quads = []) {who a off : Nat} {bs : List Byte} {x : Nat × Nat} (hs : storeOf s a = some x) :
    mergeQuad s who a off bs = { s with mem := mwrite s.mem (a + off) bs } := by
  simp [mergeQuad, hs, quadState, hq, sget]

/-- The addresses that lie in a store (Table 14-4). -/
theorem storeOf_isSome (s : State) (a : Nat) : (storeOf s a).isSome = true ↔
    a < usable s ∨ (Config.sramBase ≤ a ∧ a < Config.sramBase + Config.sramSize) ∨
    (Config.hedgeScratchBase ≤ a ∧ a < Config.hedgeScratchBase + 16 * Config.hedgeScratchSize) ∨
    (Config.rxuScratchBase ≤ a ∧ a < Config.rxuScratchBase + 4 * Config.rxuScratchSize) := by
  unfold storeOf
  generalize usable s = n
  by_cases h1 : a < n
  · simp [h1]
  · by_cases h2 : Config.sramBase ≤ a ∧ a < Config.sramBase + Config.sramSize
    · rw [if_neg h1, if_pos h2]; exact ⟨fun _ => .inr (.inl h2), fun _ => rfl⟩
    · by_cases h3 : Config.hedgeScratchBase ≤ a ∧ a < Config.hedgeScratchBase + 16 * Config.hedgeScratchSize
      · rw [if_neg h1, if_neg h2, if_pos h3]; exact ⟨fun _ => .inr (.inr (.inl h3)), fun _ => rfl⟩
      · by_cases h4 : Config.rxuScratchBase ≤ a ∧ a < Config.rxuScratchBase + 4 * Config.rxuScratchSize
        · rw [if_neg h1, if_neg h2, if_neg h3, if_pos h4]; exact ⟨fun _ => .inr (.inr (.inr h4)), fun _ => rfl⟩
        · rw [if_neg h1, if_neg h2, if_neg h3, if_neg h4]
          exact ⟨fun h => (nomatch h), fun h => by rcases h with h | h | h | h <;> contradiction⟩

/-- An address of a store, and the quad that holds it, lie in a store. -/
theorem storeOf_quad {s : State} {a : Nat} (h : (storeOf s a).isSome) : (storeOf s (a - a % 16)).isSome := by
  rw [storeOf_isSome] at h ⊢
  simp only [Config.sramBase, Config.sramSize, Config.hedgeScratchBase, Config.hedgeScratchSize, Config.rxuScratchBase, Config.rxuScratchSize] at h ⊢
  omega

/-- Without stored errors a write over a store is a plain write. -/
theorem writeDevice_clean (who : Nat) : ∀ (n : Nat) (s : State) (a : Nat) (bs : List Byte), s.quads = [] →
    (∀ i, i < bs.length → (storeOf s (a + i)).isSome) → bs.length ≤ 16 * n - a % 16 →
    writeDevice who n s a bs = { s with mem := mwrite s.mem a bs }
  | 0, s, a, bs, _, _, hl => by
    have : bs = [] := by cases bs with | nil => rfl | cons => simp at hl
    subst this; rfl
  | n + 1, s, a, bs, hq, hs, hl => by
    simp only [writeDevice]
    split
    · rename_i hb
      have : bs = [] := by simpa using hb
      subst this; rfl
    · rename_i hb
      have hb0 : 0 < bs.length := by cases bs with | nil => simp at hb | cons => simp
      have ha : (storeOf s a).isSome := by simpa using hs 0 hb0
      generalize hk : min (16 - a % 16) bs.length = k
      have hk1 : 0 < k := by omega
      have hkl : k ≤ bs.length := by omega
      have rest : ∀ t : State, t = { s with mem := mwrite s.mem a (bs.take k) } →
          writeDevice who n t (a + k) (bs.drop k) = { s with mem := mwrite s.mem a bs } := by
        intro t ht
        have hq' : t.quads = [] := by rw [ht]; exact hq
        rw [writeDevice_clean who n t (a + k) (bs.drop k) hq', ht]
        · conv_rhs => rw [← List.take_append_drop k bs, mwrite_append]
          simp [Nat.min_eq_left hkl]
        · intro i hi
          have := hs (k + i) (by simp at hi; omega)
          rw [ht, show a + k + i = a + (k + i) by omega]
          exact this
        · simp; omega
      apply rest
      split
      · rename_i h
        obtain ⟨x, hx⟩ := Option.isSome_iff_exists.mp ha
        simp [hx, setQuad, hq, sdel, h.2]
      · obtain ⟨x, hx⟩ := Option.isSome_iff_exists.mp (storeOf_quad ha)
        rw [mergeQuad_clean hq hx, show a - a % 16 + a % 16 = a by omega]

/-- A mapped range lies in its store. -/
theorem mapped_store {s : State} {a n : Nat} (h : mapped s a n = true) (i : Nat) (hi : i < n) : (storeOf s (a + i)).isSome := by
  unfold mapped at h
  split at h
  · rename_i x e he
    simp only [decide_eq_true_eq] at h
    rw [storeOf_isSome]
    unfold storeOf at he
    generalize usable s = u at he ⊢
    by_cases h1 : a < u
    · rw [if_pos h1] at he
      cases he
      exact .inl (by omega)
    · rw [if_neg h1] at he
      by_cases h2 : Config.sramBase ≤ a ∧ a < Config.sramBase + Config.sramSize
      · rw [if_pos h2] at he
        cases he
        exact .inr (.inl ⟨by omega, by omega⟩)
      · rw [if_neg h2] at he
        by_cases h3 : Config.hedgeScratchBase ≤ a ∧ a < Config.hedgeScratchBase + 16 * Config.hedgeScratchSize
        · rw [if_pos h3] at he
          cases he
          exact .inr (.inr (.inl ⟨by omega, by omega⟩))
        · rw [if_neg h3] at he
          by_cases h4 : Config.rxuScratchBase ≤ a ∧ a < Config.rxuScratchBase + 4 * Config.rxuScratchSize
          · rw [if_pos h4] at he
            cases he
            exact .inr (.inr (.inr ⟨by omega, by omega⟩))
          · rw [if_neg h4] at he
            nomatch he
  · simp at h

/-- An address below 2^63 is not the host's. -/
theorem isHost_false {a : Nat} (h : a < 2 ^ 63) : isHost a = false := by
  unfold isHost bitOf
  rw [Nat.div_eq_of_lt h]; rfl

/-- A write to a mapped range of device memory without stored errors is a plain write, and it is accepted. -/
theorem writeMem_clean {s : State} (hq : s.quads = []) {q who a : Nat} {bs : List Byte} (ha : a + bs.length ≤ 2 ^ 63)
    (hb : bs ≠ []) (hm : mapped s a bs.length = true) : writeMem s q who a bs = ({ s with mem := mwrite s.mem a bs }, false) := by
  have h0 : bs.isEmpty = false := by cases bs with | nil => exact absurd rfl hb | cons => rfl
  have hl : 0 < bs.length := List.length_pos_iff.mpr hb
  have hh : isHost a = false := by
    exact isHost_false (by omega)
  unfold writeMem
  simp only [h0, hh, hm, Bool.not_true, Bool.false_eq_true, ↓reduceIte]
  rw [writeDevice_clean who _ s a bs hq (fun i hi => mapped_store hm i hi) (by omega)]

/-- A read of a mapped range of device memory without stored errors delivers its bytes and changes nothing. -/
theorem readMem_clean {s : State} (hq : s.quads = []) {q who a n : Nat} (ha : a < 2 ^ 63) (hm : mapped s a n = true) :
    readMem s q who a n = (s, { bytes := mread s.mem a n }) := by
  have hh : isHost a = false := by
    exact isHost_false ha
  unfold readMem
  simp [hh, hm, oddQuads, hq, readQuads, deviceBytes, mread]

end Sys2Proof.Machine
end

