-- ==== Sys2Proof/Laws/Exec.lean ====
section
/-! SUPPORT. What a command can do, said once: every command ends as `done` says, and so answers a next state. -/

set_option Elab.async false

namespace Sys2Proof.Machine

/-- A checked command that is well-formed is what stands behind the check. -/
theorem checked_ok (i : Instr) (s : State) (o : Host.Outcome State Fault Refusal) (h : i.wellFormed = true) : checked i s o = o := if_pos h

/-- A checked command ends as what stands behind the check does, or changes nothing. -/
theorem checked_done (i : Instr) (s : State) {o : Host.Outcome State Fault Refusal} (h : ∃ u, o = done s u) : ∃ u, checked i s o = done s u := by
  unfold checked
  split
  · exact h
  · exact ⟨s, rfl⟩

/-- Every command ends as `done` says, from some state its meaning computes. -/
theorem exec_done (i : Instr) (s : State) : ∃ u, exec i s = done s u := by
  cases i <;> first
    | exact ⟨_, rfl⟩
    | exact checked_done _ _ ⟨_, rfl⟩

/-- A command's answer is the end of a command (R436, log 4). -/
theorem exec_next {i : Instr} {s t : State} (h : exec i s = .next t) : ∃ u, t = finish s (settle s u) := by
  obtain ⟨u, hu⟩ := exec_done i s
  rw [hu] at h
  exact ⟨u, by injection h with e; exact e.symm⟩

/-! ## From a run function to the command's answer -/

/-- The end of a command changes the host interface's messages and pending bits alone. -/
theorem finish_hif (s t : State) : ∃ h, finish s t = { t with hif := h } := ⟨_, finish_frame s t⟩

/-- The host's unmasked active interrupt sources are eleven bits. -/
theorem irqActive_le (s : State) : irqActive s ≤ 2047 := by
  unfold irqActive
  exact le_trans Nat.and_le_right (by omega)

/-- No source rises where nothing changes. -/
theorem finish_self (s : State) : finish s s = s := by
  have h : irqActive s &&& (2047 - irqActive s) = 0 := by
    have hl := irqActive_le s
    generalize irqActive s = x at hl
    have hx : x = (BitVec.ofNat 11 x).toNat := by simp; omega
    rw [hx]
    generalize BitVec.ofNat 11 x = b
    have : 2047 - b.toNat = (~~~b).toNat := by simp [BitVec.toNat_not]
    rw [this, ← BitVec.toNat_and]
    simp
  unfold finish
  simp [h]

/-- A command that leaves the state settles as it is. -/
theorem settle_self (s : State) : settle s s = s := by unfold settle; split <;> rfl

/-- The end of a command that waits for no host access. -/
theorem done_next {s t : State} (h : t.hostWait = false) : done s t = .next (finish s t) := by
  simp [done, settle_of_not_wait s t h]

/-- A command that leaves the state ends as it began. -/
theorem done_self (s : State) : done s s = .next s := by simp [done, settle_self, finish_self]

/-- What a command answers, from what its run function computes. -/
theorem done_answers {s t : State} {p : State → Prop} (w : t.hostWait = false) (hp : ∀ h, p { t with hif := h }) :
    ∃ v, done s t = .next v ∧ p v := by
  obtain ⟨h, e⟩ := finish_hif s t
  exact ⟨_, done_next w, e ▸ hp h⟩

/-- A served host write, from its run function. -/
theorem host_next {s : State} {f : State → State} (hs : s.hosted) (w : (f s).hostWait = false) : host s f = .next (finish s (f s)) := by
  simp only [host, hs.2, if_true]; exact done_next w

/-- What a served host write answers, from its run function. -/
theorem host_answers {s : State} {f : State → State} {p : State → Prop} (hs : s.hosted) (w : (f s).hostWait = false)
    (hp : ∀ h, p { f s with hif := h }) : ∃ v, host s f = .next v ∧ p v := by
  simp only [host, hs.2, if_true]; exact done_answers w hp

/-- An event of the engines, from its run function. -/
theorem flows_next {s : State} {f : State → State} (hs : s.flowing) (w : (f s).hostWait = false) : flows s f = .next (finish s (f s)) := by
  simp only [flows, hs.2, if_true]; exact done_next w

/-- What an event of the engines answers, from its run function. -/
theorem flows_answers {s : State} {f : State → State} {p : State → Prop} (hs : s.flowing) (w : (f s).hostWait = false)
    (hp : ∀ h, p { f s with hif := h }) : ∃ v, flows s f = .next v ∧ p v := by
  simp only [flows, hs.2, if_true]; exact done_answers w hp

/-- An event of the powered core, from its run function. -/
theorem alive_next {s : State} {f : State → State} (hs : s.powered) (w : (f s).hostWait = false) : alive s f = .next (finish s (f s)) := by
  have : (corePowered s && s.glb.dev != .fault) = true := by simp [hs.2.1, hs.2.2]
  simp only [alive, this, if_true]; exact done_next w

/-- What an event of the powered core answers, from its run function. -/
theorem alive_answers {s : State} {f : State → State} {p : State → Prop} (hs : s.powered) (w : (f s).hostWait = false)
    (hp : ∀ h, p { f s with hif := h }) : ∃ v, alive s f = .next v ∧ p v := by
  have : (corePowered s && s.glb.dev != .fault) = true := by simp [hs.2.1, hs.2.2]
  simp only [alive, this, if_true]; exact done_answers w hp

/-- An event of the engines in a state without flows changes nothing. -/
theorem flows_rest {s : State} (f : State → State) (h : served s = false) : flows s f = .next s := by
  simp [flows, h, done_self]

end Sys2Proof.Machine
end

