-- ==== Sys2Proof/Tests/Slice0.lean ====
section
/-! SUPPORT. Tests: an ill-formed command for each check of WellFormed, worked examples of the spec, and for every statement a concrete state and
operands that meet its hypotheses. -/

set_option Elab.async false

namespace Sys2Proof.Tests
open Sys2Proof Sys2Proof.Machine

/-! ## Small states -/

/-- A Pleach body with a few bytes set. -/
def bodyOf (l : List (Nat × Nat)) : List Byte := mread (l.foldl (fun m x => mset m x.1 (BitVec.ofNat 8 x.2)) []) 0 2560

/-- Hedges 0 and 1 with role 1, hedge 15 reserved, unit 0 with one lane and a 64-sample stream, binding group 0 over hedges 0 and 1 and every unit. -/
def body0 : List Byte := bodyOf [(0x80, 1), (0xC0, 1), (0x440, 2), (0x880, 1), (0x908, 64), (0x480, 3), (0x483, 1), (0x484, 16), (0x486, 4), (0x48A, 0x1F)]

/-- The core powered in a state of the device, with 16 MiB of memory and the body above. -/
def dev (d : Dev) : State :=
  regSet { State.reset with glb := { State.reset.glb with dev := d }, pwr := { State.reset.pwr with startStep := 14 }, pleach := body0 } (memReg 4) 0x1000000

/-- RUNNING. -/
def up : State := dev .running

/-- `State.flowing`, decided. -/
def flowB (s : State) : Bool := !s.hostWait && served s
/-- `State.hosted`, decided. -/
def hostB (s : State) : Bool := !s.hostWait && hostWrites s
/-- `State.powered`, decided. -/
def aliveB (s : State) : Bool := !s.hostWait && corePowered s && s.glb.dev != .fault

/-- Kernel queue 3 with its fields as given, 16 slots at 0x1000 and completions at 0x2000. -/
def withQ (k : Queue) (s : State) : State :=
  regSet (regSet (regSet (setQueue s 3 k) (qfeReg 3 0x10) 4) (qfeReg 3 8) 0x1000) (qfeReg 3 0x14) 0x2000

/-- A command's next state meets a check. -/
def nextB (i : Instr) (s : State) (p : State → Bool) : Bool := match exec i s with | .next t => p t | _ => false

/-! ## Ill-formed commands are refused, one for each check -/

theorem test_refuses_channel_to_itself : Instr.wellFormed (.go 0 0) = false ∧ Instr.wellFormed (.take 0x40 0x41) = false := by decide
theorem test_refuses_register_offset : Instr.wellFormed (.registerWrite 2 0) = false ∧ Instr.wellFormed (.latchingRead 0x2000000) = false := by decide
theorem test_refuses_empty_access : Instr.wellFormed (.bar4Access (.read 0 0)) = false ∧ Instr.wellFormed (.bar4Access (.write 0 [] false)) = false := by decide
/-- A pass of the governor with the sensors given. -/
def passOf (l : List (BitVec 8)) : Governor :=
  { sensors := l, paceCore := 256, paceMatch := 256, vcore := 750, vmatch := 750, power := 100, overRail := none, regFault := none }
theorem test_refuses_short_governor_pass : Instr.wellFormed (.governorPass (passOf [])) = false := by decide
theorem test_refuses_ninth_stream : Instr.wellFormed (.sampleCapture 0 { crcOk := true, samples := List.replicate 9 [] }) = false := by decide
theorem test_refuses_unscrubbed_store : Instr.wellFormed (.sramScrubQuad ⟨0, 0⟩) = false := by decide
theorem test_refuses_tile_512 : Instr.wellFormed (.tileReplay 0 512) = false := by decide
theorem test_refuses_short_flit : Instr.wellFormed (.recordFlit 0 { hdr := 0, pay := [], poison := [] }) = false := by decide
theorem test_refuses_empty_invalidation : Instr.wellFormed (.atsInvalidation { pasid := none, page := 0, count := 0 }) = false := by decide
theorem test_refuses_empty_completion : Instr.wellFormed (.completionTimeout 0 0) = false := by decide
theorem test_no_such_tile : exec (.tileReplay 0 512) State.reset = .next State.reset := by rfl

/-! ## The block as a whole -/

theorem test_step_takes_the_front : ({ up with pending := [.watchPinEdge, .powerUp] } : State).pending = .watchPinEdge :: [.powerUp] := rfl
theorem test_table_gives_no_bits : decodeTableWord 16 0x1234 = none := rfl
theorem test_fetch_word_changes_nothing : State.reset.withFetchWord 16 0x1234 = State.reset := rfl

theorem witness_IdleStep : up.pending = [] ∧ (∀ u : Fin 4, runningOn up u.val = none) ∧ served State.reset = false ∧
    (let s := { up with rxus := sset [] 1 { ctxs := [(0, { st := .running })] } }
     runningOn s 1 = some 0 ∧ served s = true) := by decide +kernel
theorem witness_RisingSources : nextB (.irqMaskWrite 0x7FD) (regSet { up with hif := { up.hif with bme := true } } (memReg 0x20) 1) (fun t =>
    irqActive t == 0) = true ∧
    nextB (.irqMaskWrite 0x7FB) (regSet up (memReg 0x20) 1) (fun t =>
      irqActive t &&& (0x7FF - irqActive (regSet up (memReg 0x20) 1)) == 4 && t.hif.pba == [0]) = true := by decide +kernel
theorem witness_EnginesRest : engineEvent .queueVisit = true ∧ served State.reset = false := by decide

/-! ## Registers that the host writes -/

/-- A bound queue with SLOTS 16 takes an index 16 ahead and refuses 17. -/
theorem witness_DoorbellsAndVisits :
    (let s := withQ { st := .idle, en := true } up
     flowB s = true ∧ bound s 3 = true ∧ (16 - (queue s 3).ci : Word).toNat ≤ ringSlots s 3 ∧ ringSlots s 3 < (17 - (queue s 3).ci : Word).toNat ∧
       nextB (.dbPiWrite 3 16) s (fun t => (queue t 3).pi == 16 && (queue t 3).pend) = true ∧
       nextB (.dbPiWrite 3 17) s (fun t => (queue t 3).pi == 0 && regBit t (qfeReg 3 4) 0) = true) ∧
    (flowB up = true ∧ visitable up = [] ∧ up.utr.ports = [] ∧ up.utr.rqs = []) ∧
    (let s := withQ { st := .active, en := true, pend := true } up
     nextVisit s = some 3 ∧ isRecord s 3 = false ∧ (queue s 3).pi = (queue s 3).ci ∧ (queue s 3).window = [] ∧ (queue s 3).indirects = [] ∧
       3 ∈ visitable s) := by decide +kernel

theorem witness_QueueControlWrites :
    (let s := withQ {} (regSet (regSet (regSet up (mgtReg 0x8050) 2) (qfeReg 3 0x30) 1) (qfeReg 3 0x34) 0)
     let s := regSet s (qfeReg 3 0x10) 0x10004
     hostB s = true ∧ (queue s 3).st = .free ∧ served s = true ∧ driverOk s = true ∧ bindOk s 3 (bindRegs s 3) = true) ∧
    (hostB up = true ∧ bindOk up 3 (bindRegs up 3) = false) ∧
    (let s := withQ { st := .active, en := true } up
     bound s 3 = true ∧ (rq s 3).marks = [] ∧ s.cmds = [] ∧ s.rxus = [] ∧ s.arrays = []) ∧
    (queue (withQ { st := .disabling } up) 3).st = .disabling ∧ (queue (withQ { st := .idle } up) 3).st = .idle ∧
    (queue (withQ { st := .bound } up) 3).st = .bound := by decide +kernel

theorem witness_ShutdownsAreNeverAborted :
    (let s := { up with
       hedges := sset [] 0 { en := { disabling := true } }
       rxus := sset [] 0 { en := { disabling := true }, rex := { disabling := true } }
       utr := { up.utr with ports := sset [] 1 { en := { disabling := true }, st := 2 } }
       macs := sset [] 0 { en := { disabling := true } }
       glb := { up.glb with topo := 1 } }
     hostB s = true ∧ (hedge s 0).en.disabling = true ∧ (hedge s 0).restructuring = false ∧ role s 0 ≠ 0 ∧
     (rxu s 0).en.disabling = true ∧ (rxu s 0).en.en = false ∧ unitLanes s 0 ≠ 0 ∧ (rxu s 0).rex.disabling = true ∧
     (uport s 1).en.disabling = true ∧ (uport s 1).en.en = false ∧ portUsed s 1 = true ∧
     (mac s 0).en.disabling = true ∧ (mac s 0).link = false) := by decide +kernel

theorem witness_EnablesTakeEffect :
    (hostB up = true ∧ (hedge up 0).en.disabling = false ∧ (hedge up 0).restructuring = false ∧ role up 0 ≠ 0 ∧
     (rxu up 0).en = {} ∧ unitLanes up 0 ≠ 0 ∧ (rxu up 0).rex.disabling = false ∧ (mac up 0).en.disabling = false ∧ (mac up 0).link = false) ∧
    (hedge { up with hedges := sset [] 0 { en := { en := true } } } 0).en = { en := true } ∧
    (let s := { up with glb := { up.glb with topo := 1, bypassOpen := true } }
     (uport s 1).en = {} ∧ (uport s 1).st = 0 ∧ portUsed s 1 = true ∧ s.glb.bypassOpen = true) := by decide +kernel

theorem witness_RejoinAndSnapshots :
    (let s := { up with hedges := sset [] 0 { detachedFrom := [[0, 1]], rejoin := true, snapReq := true } }
     hostB s = true ∧ flowB s = true ∧ aliveB s = true ∧ (hedge s 0).detachedFrom ≠ [] ∧ (hedge s 0).rejoin = true ∧ (hedge s 0).snapReq = true) ∧
    (hostB up = true ∧ (hedge up 0).snapReq = false ∧ up.pwr.snapReq = false) ∧
    (let s := { up with utr := { up.utr with ports := sset [] 1 { st := 2, snapWait := [0, 5] } } }
     s.hostWait = false ∧ (uport s 1).st = 2 ∧ 5 ∈ (uport s 1).snapWait ∧ creditsHome (uport s 1) 5 0 = true ∧
     creditsHome (uport s 1) 5 1 = false) ∧
    { up.pwr with snapReq := true }.snapReq = true := by decide +kernel

/-- The device in HOLD for a reason. -/
def heldFor (r : Nat) : State := { dev .hold with glb := { (dev .hold).glb with reason := r } }

theorem witness_GlobalCommandsByState :
    ((heldFor 7).hostWait = false ∧ (heldFor 7).glb.dev = .hold ∧ (heldFor 7).glb.reason = 7) ∧ (heldFor 6).glb.reason ≠ 7 ∧
    (let s := regSet (dev .structured) (mgtReg 0x8050) 2
     s.glb.dev = .structured ∧ driverOk s = true) ∧
    ((dev .structured).glb.dev = .structured ∧ driverOk (dev .structured) = false ∧ (dev .structured).glb.autostart = false) ∧
    (up.glb.dev = .running ∧ up.queues = [] ∧ up.rxus = []) ∧ (dev .fault).glb.dev = .fault ∧
    (let s := { dev .draining with glb := { (dev .draining).glb with reason := 7 } }
     s.glb.dev = .draining ∧ s.glb.reason = 7 ∧ s.glb.targetReset = false) := by decide +kernel

theorem witness_InterruptRows :
    (hostB up = true ∧ irqActive up = 0) ∧
    (let s := regSet (regSet up (memReg 0x20) 1) 0x1C 0
     irqActive s ≠ 0) ∧
    (let s := { up with hif := { up.hif with bme := true, pba := [0, 2047], table := sset [] 2047 { masked := true } } }
     s.hostWait = false ∧ s.hif.funcMask = false ∧ hostBlocked s = false) ∧
    (up.hif.funcMask = true ∨ hostBlocked up = true) := by decide +kernel

theorem witness_WatchEvents :
    (let s := withQ { st := .active, en := true, pi := 1, judged := true, quiet := 254 } (regSet { up with watchDue := sset [] 2 1 } watchCfg 0x803)
     let s := regSet s (qfeReg 3 0x34) 0xFF
     hostB s = true ∧ aliveB s = true ∧ regBit s watchCfg 1 = true ∧ regBit s watchCfg 0 = true ∧ 0 < sget 0 s.watchDue 2 ∧
     3 ∈ s.queues.map (·.1) ∧ (queue s 3).acting = .none ∧
     nextB (.slotWatchEvent 2) s (fun t => (queue t 3).quiet == 255 && (queue t 3).stallDue && stallThr t 3 == 255 && regGet t watchCount == 1) = true) ∧
    (let s := regSet up watchCfg 0x800
     hostB s = true ∧ aliveB s = true ∧ regBit s watchCfg 1 = false ∧ regBit s watchCfg 0 = false ∧ sget 0 s.watchDue 2 = 0) := by decide +kernel

/-- A ring with ports 1 and 3 as given and the bypass open or not. -/
def ringOf (bypassOpen : Bool) (p : UPort) : State :=
  { up with glb := { up.glb with topo := 1, bypassOpen := bypassOpen }, utr := { up.utr with ports := sset (sset [] 1 p) 3 p } }

theorem witness_BypassRows :
    (let s := ringOf true { st := 2, en := { en := true } }
     s.hostWait = false ∧ hostWrites s = true ∧ s.glb.bypassOpen = true ∧ 1 ∈ usedPorts s ∧ (uport s 1).st = 2) ∧
    (let s := ringOf true { st := 1, en := { en := true } }
     1 ∈ usedPorts s ∧ (uport s 1).st ≠ 2) ∧
    (let s := regSet (ringOf false { st := 2 }) 0x14 1
     hostWrites s = true ∧ regBit s 0x14 0 = true ∧ 1 ∈ usedPorts s ∧ (uport s 1).st ≠ 0) ∧
    (let s := ringOf false {}
     let s := { s with glb := { s.glb with pendingOpen := true } }
     s.glb.pendingOpen = true ∧ s.glb.topo ≠ 0 ∧ served s = true ∧ s.glb.vka = true ∧ s.glb.bypassN = true ∧ regBit s 0x14 0 = false ∧
     s.glb.bypassOpen = false ∧ ∀ p ∈ usedPorts s, (uport s p).st = 0 ∧ (uport s p).en.disabling = false) ∧
    (let s := ringOf false {}
     s.glb.topo ≠ 0 ∧ served s = true ∧ s.glb.vka = true ∧ s.glb.bypassN = true ∧ regBit s 0x14 0 = false ∧ s.glb.pendingOpen = false ∧
     s.glb.bypassOpen = false ∧ s.glb.dev ≠ .off ∧ s.glb.dev ≠ .reset) := by decide +kernel

/-- The body of a valid image: every hedge OFF, no unit, no group. -/
def plainBody : List Byte := List.replicate 8 0 ++ [1, 0, 0xA0, 0x0F, 0xF0, 0, 0xBC, 2] ++ List.replicate 2544 0

/-- The SHA-256 digests of no bytes and of that body, computed outside the model. -/
def digestEmpty : List Byte :=
  [0xE3, 0xB0, 0xC4, 0x42, 0x98, 0xFC, 0x1C, 0x14, 0x9A, 0xFB, 0xF4, 0xC8, 0x99, 0x6F, 0xB9, 0x24, 0x27, 0xAE, 0x41, 0xE4, 0x64, 0x9B, 0x93, 0x4C, 0xA4, 0x95, 0x99, 0x1B, 0x78, 0x52, 0xB8, 0x55]
def digestBody : List Byte :=
  [0xCD, 0x66, 0x19, 0x62, 0x49, 0x5F, 0x86, 0x94, 0xD4, 0x87, 0x34, 0x77, 0x49, 0x05, 0xF7, 0xEC, 0x1E, 0x93, 0x24, 0x60, 0xFF, 0x31, 0x5C, 0x6A, 0xFB, 0x3D, 0xE6, 0x90, 0x43, 0x76, 0x86, 0x5B]

/-- A component header of kind k at level 1 for stepping 1, with its digest. -/
def compHeader (k : Nat) (body digest : List Byte) : List Byte :=
  let acc := (List.range 4).flatMap fun j => toLe 4 (if j = k then 0 else 0xFFFF0000)
  toLe 4 (compMagic k) ++ toLe 2 1 ++ toLe 1 (k + 1) ++ toLe 1 0 ++ toLe 2 1 ++ toLe 2 2 ++ toLe 2 0 ++ toLe 2 0 ++ acc ++
    toLe 4 body.length ++ toLe 4 0 ++ digest ++ List.replicate 56 0

/-- A valid unsigned image of three components (Tables 15-4, 15-5). -/
def image0 : List Byte :=
  padTo 4096 (toLe 4 0x544F4C53 ++ toLe 2 1 ++ toLe 2 0 ++ toLe 4 0 ++ toLe 4 0 ++ toLe 4 4096 ++ toLe 4 128 ++ toLe 4 8192 ++ toLe 4 128 ++
    toLe 4 12288 ++ toLe 4 2688) ++
  padTo 4096 (compHeader 0 [] digestEmpty) ++ padTo 4096 (compHeader 1 [] digestEmpty) ++ compHeader 2 plainBody digestBody ++ plainBody

/-- HOLD with the image staged in system SRAM. -/
def staged : State :=
  { regSet (regSet (regSet (dev .hold) (mgtReg 0x8020) 0) (mgtReg 0x8024) 0x1000) (mgtReg 0x8028) 14976 with
    mem := mwrite [] 0x100000000000 image0 }

theorem image0_length : image0.length = 14976 := by decide +kernel
/-- SHA-256 of that body in pieces: its blocks, and the hash values after 9, 17, 25 and 33 of them, computed outside the model. -/
def plainBlocks : List (List Byte) := chunk 64 41 (shaPad plainBody)
def hashAfter : List (List Word) :=
  [[0xF98E4EF9, 0x55B1E96A, 0xA478FFAC, 0x4C01D174, 0x37C639FD, 0x0E8BCE92, 0xD33DB180, 0xECD1A202],
   [0x893F7850, 0x0E4F7FB8, 0x67F30E92, 0x7E20B75D, 0xE5D3EA87, 0xB2C512B1, 0x2E956664, 0xCA482AC8],
   [0x3D8DF60F, 0x77FF41B1, 0xE6215255, 0xCD54D4BB, 0x0A5F807B, 0x0BF316C1, 0x6CA6B8C2, 0xB4B7F881],
   [0x3A22BA63, 0x4D07283F, 0x398135CB, 0x9E18F47B, 0xEE6406B0, 0x66DF9805, 0xCBA379A3, 0x2F55AD1B]]
theorem plain_hash_9 : ((plainBlocks.drop 0).take 9).foldl shaBlock shaInit = nth [] hashAfter 0 := by decide +kernel
theorem plain_hash_17 : ((plainBlocks.drop 9).take 8).foldl shaBlock (nth [] hashAfter 0) = nth [] hashAfter 1 := by decide +kernel
theorem plain_hash_25 : ((plainBlocks.drop 17).take 8).foldl shaBlock (nth [] hashAfter 1) = nth [] hashAfter 2 := by decide +kernel
theorem plain_hash_33 : ((plainBlocks.drop 25).take 8).foldl shaBlock (nth [] hashAfter 2) = nth [] hashAfter 3 := by decide +kernel
theorem plain_hash_41 : (((plainBlocks.drop 33).take 8).foldl shaBlock (nth [] hashAfter 3)).flatMap (fun w => toBe 4 w.toNat) = digestBody := by decide +kernel
theorem plain_blocks : plainBlocks = (plainBlocks.drop 0).take 9 ++ ((plainBlocks.drop 9).take 8 ++ ((plainBlocks.drop 17).take 8 ++
    ((plainBlocks.drop 25).take 8 ++ (plainBlocks.drop 33).take 8))) := by decide +kernel
theorem plain_digest : sha256 plainBody = digestBody := by
  have n : cdiv (plainBody.length + 9) 64 = 41 := by decide +kernel
  unfold sha256
  rw [n, show chunk 64 41 (shaPad plainBody) = plainBlocks from rfl, plain_blocks, List.foldl_append, List.foldl_append, List.foldl_append,
    List.foldl_append, plain_hash_9, plain_hash_17, plain_hash_25, plain_hash_33, plain_hash_41]
theorem empty_digest : sha256 [] = digestEmpty := by decide +kernel
theorem test_image_components : compChecks staged (bytesReader image0) image0.length [] = none := by
  have f : (List.range 3).all (headerFields (bytesReader image0) 14976) = true := by decide +kernel
  have d0 : compBody (bytesReader image0) 0 = [] ∧ sub (bytesReader image0 (compAt (bytesReader image0) 0).1 128) 0x28 32 = digestEmpty := by
    decide +kernel
  have d1 : compBody (bytesReader image0) 1 = [] ∧ sub (bytesReader image0 (compAt (bytesReader image0) 1).1 128) 0x28 32 = digestEmpty := by
    decide +kernel
  have d2 : compBody (bytesReader image0) 2 = plainBody ∧ sub (bytesReader image0 (compAt (bytesReader image0) 2).1 128) 0x28 32 = digestBody := by
    decide +kernel
  have rest : (List.range 3).all (signatureOk staged (bytesReader image0)) = true ∧
      ((List.range 3).map (compOfImage staged (bytesReader image0))).all (steppingOk staged) = true ∧
      pairsOk (withKinds ((List.range 3).map (compOfImage staged (bytesReader image0))) ++ []) = true := by decide +kernel
  have h : (List.range 3).all (headerOk (bytesReader image0) 14976) = true := by
    simp only [List.range, List.range.loop, List.all_cons, List.all_nil, Bool.and_true, Bool.and_eq_true, headerOk, digestOk] at f ⊢
    simp only [f, d0, d1, d2, plain_digest, empty_digest, beq_self_eq_true, and_self]
  simp only [compChecks, image0_length, h, rest.1, rest.2.1, rest.2.2, List.all_nil, Bool.and_true, Bool.not_true, Bool.false_eq_true, ↓reduceIte]
theorem staged_body : bodyOk staged plainBody = true := by decide +kernel
theorem plain_ok {s : State} (h : s.glb.topo = 0) : bodyOk s plainBody = true := by
  have b := staged_body
  have t0 : bAt plainBody 0 1 = 0 := by decide +kernel
  have g : staged.glb.topo = 0 := by decide +kernel
  simp only [bodyOk, topoOk, t0, g, h, ↓reduceIte] at b ⊢
  exact b
theorem image0_body : imageBody (bytesReader image0) = plainBody := by decide +kernel
theorem staged_mem : staged.mem = mwrite [] 0x100000000000 image0 := by simp only [staged]
theorem staged_image : stagedImage staged = (staged, some image0) := by
  have h : readMem staged 0 1 0x100000000000 14976 = (staged, { bytes := image0 }) := by
    rw [readMem_clean (by rfl) (by decide) (by decide +kernel)]
    have := mread_mwrite [] 0x100000000000 image0
    rw [image0_length] at this
    rw [staged_mem, this]
  have a : stagedAt staged = (0x100000000000, 14976) := by decide +kernel
  unfold stagedImage
  rw [a]
  have c : ¬(0x100000000000 % 64 ≠ 0 ∨ (!inSram 0x100000000000 14976) = true ∨ 14976 < 4096 ∨ 0x400000 < 14976) := by decide
  simp only [c, ↓reduceIte, h]
  rfl
theorem staged_checks : stagedChecks staged image0 [] = none := by
  have m : ¬(rdAt (bytesReader image0) 0 4 ≠ 0x544F4C53 ∨ rdAt (bytesReader image0) 4 2 ≠ 1) := by decide +kernel
  unfold stagedChecks
  simp only [m, ↓reduceIte, test_image_components, image0_body, staged_body]

theorem witness_UpdateCommands :
    (staged.hostWait = false ∧ staged.glb.dev = .hold ∧ stagedImage staged = (staged, some image0) ∧ acceptedDriver staged = [] ∧
      stagedChecks staged image0 (acceptedDriver staged) = none ∧ nextSeq staged < 0xFFFFFFFF) ∧
    (up.hostWait = false ∧ up.glb.dev = .running ∧ (up.sage.comps.any fun c => c.signer == some (regField up (mgtReg 0x8028) 1 0)) = false ∧
      (up.sage.comps.any fun c => c.signer.isNone) = false) ∧
    (hostWrites (dev .draining) = true ∧ (dev .draining).glb.dev = .draining) ∧
    (shas (dev .hold).sage.keys 0 = false ∧
      (let s := regSet (dev .hold) (mgtReg 0x8024) 0x1000
       (stagedAt s).1 % 64 = 0 ∧ inSram (stagedAt s).1 32 = true ∧ (readMem s 0 1 (stagedAt s).1 32).2.ap = false ∧
       (readMem s 0 1 (stagedAt s).1 32).2.bad = [])) := by
  refine ⟨⟨rfl, rfl, staged_image, by decide +kernel, ?_, by decide +kernel⟩, by decide +kernel, by decide +kernel, by decide +kernel⟩
  rw [show acceptedDriver staged = [] by decide +kernel]
  exact staged_checks

theorem witness_DriverDeclaration :
    (let s := regSet up (mgtReg 0x8040) 0x20001
     hostB s = true ∧ declareCheck s = none ∧ s.glb.dev = .running) ∧
    (hostB up = true ∧ declareCheck up = some 3 ∧ up.queues = [] ∧ up.rxus = []) ∧
    declareCheck (heldFor 7) = some 3 ∧ declareCheck (dev .structured) = some 3 ∧ declareCheck (dev .draining) = some 3 := by decide +kernel

theorem witness_RegisterAccesses :
    (up.hostWait = false ∧ hostReads up = true ∧ hostWrites up = true ∧ bar0Offset (utrCom 0x14) = true ∧ rcReg (utrCom 0x14) = true) ∧
    (let s := { up with chans := sset [] (chanKey 1 0) { word := some 7 } }
     chanExists s 1 0 = true ∧ nextB (.rcCounterRead 0x120148) s (fun t => t.busData == toLe 4 7 && (chan t 1 0).word.isNone) = true) ∧
    ((0x12 : Nat) < 0x2000000 ∧ 0x12 % 4 ≠ 0) ∧
    ((0x10001 : Word).toNat % 2 ^ 16 ≠ 0 ∧ (0x10000 : Word).toNat % 2 ^ 16 = 0) := by decide +kernel

/-- A write through BAR4 stores its bytes and a read returns them. -/
theorem witness_BarAccesses :
    (up.hostWait = false ∧ bar4Served up = true ∧ up.quads = [] ∧ 0x100 + 4 ≤ up.hif.bar4Size ∧ mapped up (bar4Base up + 0x100) 4 = true ∧
      bar4Base up + 0x100 + 4 ≤ 2 ^ 63 ∧ ([(0xAB, true), (0, true), (1, true), (2, true)] : List (Byte × Bool)).all (·.2) = true) ∧
    nextB (.bar4Access (.write 0x100 [(0xAB, true), (0, true)] false)) up (fun t => mget t.mem (bar4Base up + 0x100) == 0xAB) = true ∧
    ((dev .hold).hostWait = false ∧ bar4Served (dev .hold) = false ∧ (dev .hold).glb.dev ≠ .off ∧ (dev .hold).glb.dev ≠ .reset) ∧
    (Memory.wf up.mem = true ∧ Memory.wf up.host = true) := by decide +kernel

theorem witness_PcieEvents :
    (up.hostWait = false ∧ up.hif.d3hot = false ∧ up.glb.dev ≠ .off ∧ up.glb.dev ≠ .reset ∧ { up.hif with bme := true }.bme = true) ∧
    (let s := { up with hif := { up.hif with asked := [{ pasid := some 7, page := 9, grant := none }] } }
     (s.hif.asked.any fun e => e.pasid == (some (7 : BitVec 20)).map (·.toNat) && e.page == (9 : BitVec 51).toNat) = true ∧
       s.hif.cache.length < Config.atsEntries) := by decide +kernel

/-- The budget in force at 300 with 40 tokens in the pool, none owed. -/
def powered300 : State := { up with pwr := { up.pwr with effective := 300, pool := 40, edge := 20 } }

/-- The limits 240 and 740 are budgets, 239 and 741 are not. -/
theorem witness_BudgetWrites :
    hostB powered300 = true ∧ (239 : Word).toNat % 1024 < 240 ∧ 740 < (741 : Word).toNat % 1024 ∧ 240 ≤ (240 : Word).toNat % 1024 ∧
    (740 : Word).toNat % 1024 ≤ 740 ∧ minBudget powered300 ≤ 240 ∧ powered300.pwr.clampTo = none ∧ powered300.pwr.rxOwed = 0 ∧
    powered300.pwr.leakOwed = 0 ∧ powered300.pwr.effective ≤ 740 ∧ 240 < powered300.pwr.effective ∧
    nextB (.targetWrite 740) powered300 (fun t => t.pwr.effective == 740 && t.pwr.pool == 480) = true ∧
    nextB (.targetWrite 240) powered300 (fun t => t.pwr.effective == 260 && t.pwr.pool == 0) = true := by decide +kernel

theorem witness_GainRetrainAndModelWrites :
    (hostB up = true ∧ unitOn up 0 = false ∧ (0x11 : Word).toNat % 4 ≤ 2 ∧ 4 ≤ fieldOf (0x11 : Word).toNat 5 2 ∧ fieldOf (0x28 : Word).toNat 5 2 ≤ 10 ∧
      fieldOf (0x2005 : Word).toNat 7 0 ≤ fieldOf (0x2005 : Word).toNat 15 8 ∧ (3 : Word).toNat % 4 = 3) ∧
    (let s := ringOf true { st := 2, en := { en := true } }
     (uport s 1).st = 2 ∧ (uport s 1).en.disabling = false) ∧
    (up.glb.topo = 0 ∧ reduceOpen up (regNat up (utrCom 0x1000)) = false) := by decide +kernel

/-! ## Mailboxes, memory, Ethernet and power -/

/-- A ring of four devices, this one rank 0, with every peer live. -/
def ring4 : State :=
  regSet { up with glb := { up.glb with topo := 1, bypassOpen := true }, pleach := (body0.set 0 1).set 1 4 } (utrCom 8) 0xF

theorem witness_MailboxRows :
    (up.hostWait = false ∧ channelExists 0 1 = true ∧ chanExists up 0 1 = true ∧ endpointActs up 0 1 = true ∧ endpointActs up 1 0 = true ∧
      sageServes up = true ∧ (chan up 0 1).go = false ∧ (chan up 0 1).word = none) ∧
    (let s := { up with chans := sset [] (chanKey 0 1) { go := true, queue := [[], [], []], word := some 7 } }
     (chan s 0 1).go = true ∧ (chan s 0 1).queue.length < 4 ∧ (chan s 0 1).queue = [] :: [[], []] ∧ (chan s 0 1).word = some 7) ∧
    (let s := { up with chans := sset [] (chanKey 0 1) { queue := [[], [], [], []] } }
     4 ≤ (chan s 0 1).queue.length) ∧
    (channelExists 0 0x43 = true ∧ chanExists ring4 0 0x43 = true ∧ endpointActs ring4 0 0x43 = true ∧ isPeer ring4 0x43 = true ∧
      bitOf (liveNow ring4) 3 = true) ∧
    (let s := { ring4 with chans := sset [] (chanKey 0 0x43) { go := true } }
     sageServes s = true ∧ (chan s 0 0x43).go = true ∧ (s.utr.ports.all fun x => x.2.rx.all fun y => y.2.isEmpty) = true ∧
     (s.utr.rqs.any fun x => !x.2.skips.isEmpty) = false) ∧
    (let s := { ring4 with chans := sset [] (chanKey 0x43 0) { queue := [[]], word := some 7 } }
     channelExists 0x43 0 = true ∧ (chan s 0x43 0).queue = [[]] ∧ (chan s 0x43 0).word = some 7 ∧ endpointActs s 0 0x43 = true) := by decide +kernel
/-- With no port UP no peer can be reached. -/
theorem witness_MailboxRows_peers (k : Nat) : peerReady ring4 k = false := by
  have h : ∀ p vc, creditReady ring4 p vc = false := fun _ _ => rfl
  unfold peerReady
  split <;> simp [h]

/-- A request to Sage of word 0 and word 1. -/
def asked (a b : Word) : State := { up with chans := sset [] (chanKey 0 1) { queue := [a :: b :: List.replicate 14 0] } }

theorem witness_SageRequests :
    (∀ op : Fin 5, let s := asked (BitVec.ofNat 32 op.val) 0
      s.hostWait = false ∧ sageServes s = true ∧ ((chan s 0 1).queue.head?).isSome = true ∧ (chan s 1 0).go = false ∧
      (chan s 1 0).queue.length < 4 ∧ (nth (0 : Word) (((chan s 0 1).queue.head?).getD []) 0).toNat / 2 ^ 16 = 0) ∧
    logFrom [({ seq := 4 } : LogEntry), { seq := 2 }] 2 = some { seq := 2 } ∧ logFrom [({ seq := 4 } : LogEntry)] 5 = none := by decide +kernel

/-- The quad of system SRAM at its base with an error pattern. -/
def badQuad (e : BitVec 146) : State := regSet { up with quads := sset [] (quadKey 1 (Config.sramBase / 16)) { err := e } } (memReg 0x10) 0xC1
theorem sram_quad : (0x10000000000 : BitVec 59).toNat = Config.sramBase / 16 := by decide

/-- A single symbol in error is corrected, three are a UE (Table 14-5). -/
theorem witness_ScrubbingAndRetest :
    (let s := { up with arrays := sset [] 127 { st := .withdrawn, retest := true, checking := true } }
     s.hostWait = false ∧ corePowered s = true ∧ s.glb.dev ≠ .fault ∧ (arr s 127).retest = true) ∧
    (let s := { up with arrays := sset [] 127 { st := .withdrawn } }
     hostWrites s = true ∧ (0x7F : Word).toNat % 128 = 127 ∧ (arr s 127).st = .withdrawn ∧ (arr s 127).retest = false) ∧
    (let s := regSet { up with pwr := { up.pwr with pool := 100 } } (memReg 0x10) 1
     aliveB s = true ∧ regBit (regSet up (memReg 0x10) 0) (memReg 0x10) 0 = false ∧ regBit s (memReg 0x10) 0 = true ∧ tokensSpare s 2 = true ∧ s.quads = [] ∧
     usable s / (16 * 384) ≠ 0 ∧ s.scrubAt % (16 * (usable s / (16 * 384))) + 1 ≠ 16 * (usable s / (16 * 384)) ∧
     (43679 % (16 * (usable s / (16 * 384))) + 1 = 16 * (usable s / (16 * 384)))) ∧
    (aliveB (badQuad 1) = true ∧ regBit (badQuad 1) (memReg 0x10) 6 = true ∧ ((storeOf (badQuad 1) (16 * (0x10000000000 : BitVec 59).toNat)).map (·.1)) = some 1 ∧
      scrubClass (badQuad 0) 1 (Config.sramBase / 16) = .clean ∧ scrubClass (badQuad 1) 1 (Config.sramBase / 16) = .ce false ∧
      scrubClass (badQuad 0x1001001) 1 (Config.sramBase / 16) = .ue) ∧
    (let s := regSet { up with quads := sset [] (quadKey 1 (Config.sramBase / 16)) { adx := 1 } } (memReg 0x10) 0xC1
     scrubClass s 1 (Config.sramBase / 16) = .ae) ∧
    (scrubbedStore 9 = true ∧ localQuad (6 * 2 ^ 54 + 0x20 * 2 ^ 20 + 0x1000) = some (0, 0x10000) ∧ (6 * 2 ^ 54 + 0x20 * 2 ^ 20 + 0x1000) / 2 ^ 54 = 9 - 3 ∧
      localQuad (6 * 2 ^ 54 + 8 * 2 ^ 20) = none ∧ scrubbedStore 10 = true ∧ (7 * 2 ^ 54) / 2 ^ 54 = 10 - 3) := by decide +kernel
/-- A retest that passes leaves the array EMPTY; an uncorrectable quad of Sage's SRAM leads to FAULT. -/
theorem test_retest_and_sage_quad :
    nextB (.retestDone 127 { cellFail := false, logicFail := false }) { up with arrays := sset [] 127 { st := .withdrawn, retest := true, checking := true } }
      (fun t => (arr t 127).st == .empty) = true ∧
    nextB (.sramScrubQuad ⟨10, 0x1C0000000000000⟩) (regSet { up with quads := sset [] (quadKey 10 (7 * 2 ^ 54)) { err := 0x1001001 } } (memReg 0x10) 0xC1)
      (fun t => t.glb.dev == .fault) = true := by decide +kernel

/-- Array 9 with one error pattern in its row 0, an image and the fields as given. -/
def sickArr (e : BitVec 146) (a : Arr) : State :=
  regSet { up with quads := sset [] (quadKey 4 (arrFold 1 9)) { err := e }, arrays := sset [] 9 a, pwr := { up.pwr with pool := 100 } } (memReg 0x10) 0x80

theorem witness_ArrayIntegrity :
    (let s := sickArr 0x1001001 { st := .ready, img := some {} }
     aliveB s = true ∧ regBit s (memReg 0x10) 7 = true ∧ (arr s 9).checking = false ∧
     (arrScrub 0xFF 9 s ((arrFaults s 9).filter fun x => itemOf x.1 x.2 == .row 0)).2 ≠ [] ∧ (arr s 9).img ≠ none ∧
     ((arrFaults s 9).filter fun x => itemOf x.1 x.2 == .row 1) = []) ∧
    (let s := sickArr 1 { st := .ready, img := some {}, held := some 0x1000, rewrites := [.row 0, .row 1] }
     searching s 9 = false ∧ tokensSpare s 1 = true ∧ (rewriteItem s 9 (.row 0)).1.hostWait = false) ∧
    (let s := sickArr 0 { checking := true }
     aliveB s = true ∧ (arr s 9).checking = true ∧ (arr s 9).testing = false ∧ (arr s 9).retest = false) ∧
    (arrFaults { up with arrays := sset [] 9 { checking := true } } 9 = []) ∧
    (let s := sickArr 1 { st := .ready, checking := true, img := some {}, held := some 0x1000 }
     let r := arrScrub 0xFE 9 s (arrFaults s 9)
     let w := rewriteAll 9 r.1 r.2
     let back := arrScrub 0xFE 9 w.1 ((arrFaults w.1 9).filter fun x => r.2.contains (itemOf x.1 x.2))
     r.2 ≠ [] ∧ w.2 = true ∧ back.2 = [] ∧ back.1.hostWait = false) ∧
    (let s := sickArr 0 { testing := true }
     (arr s 9).testing = true ∧ claimedBy s 9 = none ∧ (arr s 9).home = none ∧ (arr s 9).held = none) := by decide +kernel

/-- A frame to address 0 of a record format frame, 64 bytes with its check sequence. -/
def frame0 : List Byte :=
  let b := List.replicate 12 0 ++ [0x88, 0xB5] ++ [1, 1, 0, 1] ++ List.replicate 12 0 ++
    (toLe 4 0 ++ toLe 4 0 ++ toLe 4 7 ++ toLe 2 16 ++ [0, 0]) ++ List.replicate 14 0
  b ++ toLe 4 (crc32 b)

/-- Port 0 enabled with its link up, taking record frames of stride 16 into record queue 3. -/
def macUp : State :=
  let s := withQ { st := .active, en := true } { up with macs := sset [] 0 { en := { en := true }, link := true } }
  regSet (regSet (regSet (regSet (regSet (regSet s (qfeReg 3 0x10) 0x24) (qfeReg 3 0x24) 0x100) (macReg 0 0) 0x5EE11) (macReg 0 0x100) 0x30001)
    (macReg 0 0x104) 7) (macReg 0 0x108) 16

theorem witness_EthernetRows :
    (macUp.hostWait = false ∧ served macUp = true ∧ (mac macUp 0).en.en = true ∧ (mac macUp 0).link = true ∧ frame0.length = 64 ∧
      frame0.length ≤ maxFrame macUp 0 ∧ fcsOk frame0 = true ∧ (filterFrame macUp 0 (frame0.take 60)).isSome = true ∧
      ((filterFrame macUp 0 (frame0.take 60)).bind (recordsOf macUp 0)).map (·.1) = some 3 ∧ ingestOk macUp 3 = true ∧
      ((mac macUp 0).rx.map (·.size)).sum + frame0.length ≤ 262144) ∧
    (filterFrame (regSet macUp (macReg 0 0) 0x5EE01) 0 (frame0.take 60) = none) ∧
    ((mac up 0).en.en = false ∧ (mac up 0).en.disabling = false ∧ (mac up 0).tx = []) ∧
    (let s := { macUp with macs := sset [] 0 { link := true, rx := [{ q := 3, recs := [List.replicate 16 1], size := 64 }] } }
     (mac s 0).en.disabling = false ∧ ingestOk s 3 = true ∧ 1 ≤ ringRoom s 3 ∧ frameAhead s { q := 3, stamp := 1 } = true ∧
     frameAhead s { q := 3, recs := [List.replicate 16 1], size := 64 } = false ∧ recStride s 3 = 16 ∧
     ringBase s 3 + ringSlots s 3 * recStride s 3 < 2 ^ 63 ∧ s.quads = [] ∧
     mapped s (ringBase s 3 + (queue s 3).pi.toNat % ringSlots s 3 * recStride s 3) 16 = true ∧ (mac s 0).link = true ∧
     regBit s (macReg 0 0) 7 = false) ∧
    ingestOk up 3 = false ∧ ringRoom (setQueue macUp 3 { st := .active, pi := 16 }) 3 < 1 := by decide +kernel

/-- A state with claims that wait. -/
def claims (pool : Nat) (w : List Claim) : State := { up with pwr := { up.pwr with pool := pool, waiting := w } }

theorem witness_TokenGrants :
    (let s := claims 24 [{ owner := 1, nom := 30 }, { owner := 2, nom := 24, recv := true }]
     flowB s = true ∧ s.pwr.brownout = false ∧ s.pwr.regCond = false ∧ s.pwr.leakOwed = 0 ∧ s.pwr.rxOwed = 0 ∧
     headClaim s = some { owner := 2, nom := 24, recv := true } ∧ claimSize s 24 ≤ s.pwr.pool ∧ s.pwr.waiting.any (·.recv) = true) ∧
    (let s := claims 23 [{ owner := 1, nom := 24 }]
     headClaim s = some { owner := 1, nom := 24 } ∧ s.pwr.pool < claimSize s 24) := by decide +kernel

theorem witness_GovernorRows :
    (up.hostWait = false ∧ corePowered up = true ∧ (passOf (List.replicate 24 60)).sensors.length = 24 ∧ up.pwr.avs = none) ∧
    (let s := { up with pwr := { up.pwr with avs := some (false, 740) } }
     let r : Settle := { isMatch := false, ok := true, mv := 750 }
     s.pwr.avs = some (r.isMatch, 740) ∧ r.ok = true ∧ r.mv.toNat ≤ 740 + 10 ∧ 740 ≤ r.mv.toNat + 10) ∧
    ((regField (regSet up (pwrReg 0x44) 60) (pwrReg 0x44) 7 0 : Int) ≤ signed 8 (60 : BitVec 8).toNat) := by decide +kernel

/-- BOOT at the last step of the staggered start, with a body that fits. -/
def starting (n : Nat) (b : List Byte) : State :=
  { dev .boot with glb := { (dev .boot).glb with bootStep := 7, density := 1 }, pwr := { up.pwr with startStep := n }, sage := { up.sage with body := b } }

theorem witness_PowerAndResetRows :
    ((dev .off).hostWait = false ∧ (dev .off).glb.dev = .off ∧ up.glb.dev ≠ .off ∧ up.glb.dev ≠ .reset ∧ up.glb.dev ≠ .fault ∧ up.glb.thermtrip = false) ∧
    (let s := { dev .reset with glb := { (dev .reset).glb with railsOk := true } }
     s.glb.dev = .reset ∧ s.glb.railsOk = true ∧ s.glb.thermtrip = false) ∧
    ((starting 12 []).glb.dev = .boot ∧ (starting 12 []).glb.bootStep = 7 ∧ (starting 12 []).pwr.stopped = false ∧ (starting 12 []).pwr.startStep < 13 ∧
      (starting 13 []).pwr.startStep = 13 ∧ (starting 13 []).glb.autostart = false ∧
      bodyOk (starting 14 []) plainBody = true ∧ memoryFits (starting 14 []) plainBody = true ∧ bodyOk (starting 14 []) [] = false) ∧
    ({ up.pwr with stopped := true }.stopped = true) ∧
    ((dev .draining).glb.dev = .draining ∧ drained1 (dev .draining) = true ∧ (dev .draining).glb.targetReset = false ∧
      (dev .draining).glb.startPending = false ∧ drained1 (withQ { st := .active, en := true, pi := 1 } (dev .draining)) = false) := by
  refine ⟨by decide +kernel, by decide +kernel, ⟨by decide +kernel, by decide +kernel, by decide +kernel, by decide +kernel, by decide +kernel,
    by decide +kernel, plain_ok (by decide +kernel), by decide +kernel, by decide +kernel⟩, by decide +kernel, by decide +kernel⟩

/-! ## Commands of the queues -/

/-- A 64-byte command slot: its opcode, and four double words from offset 0x10. -/
def slotOf (op a b c d : Nat) : List Byte := toLe 8 op ++ toLe 8 0 ++ toLe 8 a ++ toLe 8 b ++ toLe 8 c ++ toLe 8 d ++ List.replicate 16 0

/-- Kernel queue 3 active with one checked slot in its window, over a state. -/
def q3 (slot : List Byte) (s : State) : State := withQ { st := .active, en := true, pi := 1, window := [{ slot := slot }] } s

/-- User queue 64 active with one checked slot, PASID 5, for fences. -/
def q64 (slot : List Byte) (s : State) : State :=
  regSet (setQueue s 64 { st := .active, en := true, pi := 1, window := [{ slot := slot }] }) (qfeReg 64 0x20) 0x100005

/-- The hypotheses `ready` of a statement, decided, with a check of the dispatched command. -/
def readyB (s : State) (src : Src) (op : Nat) (p : State → Cmd → Bool) : Bool :=
  flowB s && match take s src op with
    | some (t, c) => (match src with | .queue _ => !frontBusy t c | .ticket _ _ _ => true) && p t c
    | none => false
/-- A structure read whole. -/
def gotB {α : Type} (g : Got α) (p : α → Bool) : Bool := match g with | .ok a => p a | .stop _ => false
/-- A structure that cannot be read. -/
def stopB {α : Type} (g : Got α) : Bool := match g with | .ok _ => false | .stop _ => true


/-- A ticket of unit 0's context 2 for a command. -/
def tick (slot : List Byte) (s : State) : State := { s with ticketOps := [{ u := 0, c := 2, n := 9, slot := slot }] }

theorem witness_NopCompletes :
    readyB (q3 (slotOf 0 0 0 0 0) up) (.queue 3) 0 (fun t c => (findCmd t c.uid == some c) && c.src == .queue 3 && c.sub.isNone && !c.record &&
      c.user.isNone && (queue t 3).window.isEmpty && (queue t 3).st == .active && (queue t 3).acting == .none && t.quads.isEmpty && !t.hostWait &&
      !slotIrq c.slot && !regBit t (qfeReg 3 0x1C) 11 && decide (cplBase t 3 + 32 * (c.idx.toNat % ringSlots t 3) + 32 ≤ 2 ^ 63) &&
      mapped t (cplBase t 3 + 32 * (c.idx.toNat % ringSlots t 3)) 32) = true ∧
    readyB (tick (slotOf 0 0 0 0 0) up) (.ticket 0 2 9) 0 (fun t c => findCmd t c.uid == some c && c.src == .ticket 0 2 9 && !t.hostWait) = true := by decide +kernel

theorem witness_FenceSignals :
    readyB (q3 (slotOf 8 7 4095 0 0) up) (.queue 3) 8 (fun t c => mayFence t (cmdQueue t c) (opB18 c.slot)) = true ∧
    readyB (q64 (slotOf 8 7 1 0 0) up) (.queue 64) 8 (fun t c => !mayFence t (cmdQueue t c) (opB18 c.slot)) = true ∧
    readyB (q64 (slotOf 8 7 1 0 0) (regSet up (fnwReg 1 8) 0x100005)) (.queue 64) 8 (fun t c => mayFence t (cmdQueue t c) (opB18 c.slot)) = true ∧
    ((fence up 1).value.toNat < (7 : DWord).toNat ∧ regBit (regSet up (fnwReg 1 0xC) 2) (fnwReg 1 0xC) 1 = true) ∧
    (7 : DWord).toNat ≤ (fence { up with fences := sset [] 1 { value := 7 } } 1).value.toNat := by decide +kernel

/-- A wait for 7 with the fence at 7 is satisfied, at 6 it is not. -/
theorem witness_FenceWaits :
    readyB (q3 (slotOf 9 7 1 0 0) { up with fences := sset [] 1 { value := 7 } }) (.queue 3) 9 (fun t c => mayFence t (cmdQueue t c) (opB18 c.slot) &&
      decide (op10 c.slot % 2 ^ 64 ≤ (fence t (opB18 c.slot)).value.toNat)) = true ∧
    readyB (q3 (slotOf 9 7 1 0 0) { up with fences := sset [] 1 { value := 6 } }) (.queue 3) 9 (fun t c =>
      decide ((fence t (opB18 c.slot)).value.toNat < op10 c.slot % 2 ^ 64)) = true ∧
    readyB (q64 (slotOf 9 7 1 0 0) up) (.queue 64) 9 (fun t c => !mayFence t (cmdQueue t c) (opB18 c.slot)) = true ∧
    (let s := { up with fences := sset [] 1 { value := 7, err := true }, cmds := [{ uid := 4, src := .queue 3, op := 9, slot := slotOf 9 7 1 0 0 }] }
     flowB s = true ∧ (waitOf s (.queue 3)).isSome = true ∧ (fence s 1).err = true) ∧
    waitOf up (.queue 3) = none ∧
    (let c : Cmd := { uid := 4, src := .queue 3, op := 9, slot := slotOf 9 8 1 0 0 }
     let s := { up with fences := sset [] 1 { value := 7 }, cmds := [c] }
     waitOf s (.queue 3) = none ∧ c ∈ s.cmds ∧ c.op = 9) := by decide +kernel

/-- A PATCH of one quad, of a quad outside memory, and of a poisoned quad. -/
theorem witness_Patches :
    readyB (q3 (slotOf 10 0x3000 0x4000 16 0) up) (.queue 3) 10 (fun t c =>
      (readMem t (cmdQueue t c) 0xFC (op10 c.slot) (leAt c.slot 0x20 1)).2 == { bytes := List.replicate 16 0 }) = true ∧
    readyB (q3 (slotOf 10 0x10000000 0x4000 16 0) up) (.queue 3) 10 (fun t c =>
      (readMem t (cmdQueue t c) 0xFC (op10 c.slot) (leAt c.slot 0x20 1)).2.ap) = true ∧
    readyB (q3 (slotOf 10 0x3000 0x4000 16 0) { up with quads := sset [] (quadKey 0 0x300) { poison := true } }) (.queue 3) 10 (fun t c =>
      !(readMem t (cmdQueue t c) 0xFC (op10 c.slot) (leAt c.slot 0x20 1)).2.ap &&
      (readMem t (cmdQueue t c) 0xFC (op10 c.slot) (leAt c.slot 0x20 1)).2.poison) = true := by decide +kernel

/-- The last bytes of the device's memory are mapped, one more is not. -/
theorem witness_MemoryReadsBack :
    up.quads = [] ∧ mapped up 0xFFFFFC 4 = true ∧ mapped up 0xFFFFFD 4 = false ∧ 0xFFFFFC + 4 ≤ 2 ^ 63 ∧ Memory.wf up.mem = true := by decide +kernel

/-- A STEP of one record on a hedge mask. -/
def stepSlot (mask : Nat) : List Byte := slotOf 2 0x5000 0x6000 0x7000 0x8000 |>.take 48 |> (· ++ (toLe 4 1 ++ toLe 2 32 ++ toLe 1 0xC0 ++ toLe 1 1 ++ toLe 2 mask ++ toLe 6 0))

theorem witness_LoadAndStepBegin :
    readyB (q3 (slotOf 1 0x5000 0x6000 0x10002 0) up) (.queue 3) 1 (fun t c =>
      !((maskHedges (leAt c.slot 0x20 2)).any fun h => !bitOf (bgHedges t (queueBg t (cmdQueue t c))) h || role t h == 0) &&
      !t.hostWait && (queue t 3).window.isEmpty && maskHedges (leAt c.slot 0x20 2) == [1]) = true ∧
    readyB (q3 (slotOf 1 0x5000 0x6000 0x10004 0) up) (.queue 3) 1 (fun t c =>
      (maskHedges (leAt c.slot 0x20 2)).any fun h => !bitOf (bgHedges t (queueBg t (cmdQueue t c))) h || role t h == 0) = true ∧
    readyB (q3 (stepSlot 3) up) (.queue 3) 2 (fun t c => hedgesAllowed t (cmdQueue t c) (allHedges (specOf c.slot)) && !t.hostWait &&
      (queue t 3).window.isEmpty && allHedges (specOf c.slot) == [0, 1]) = true ∧
    readyB (q3 (stepSlot 7) up) (.queue 3) 2 (fun t c => !hedgesAllowed t (cmdQueue t c) (allHedges (specOf c.slot))) = true := by decide +kernel

/-- Bytes in memory at an address. -/
def at_ (a : Nat) (bs : List Byte) (s : State) : State := { s with mem := mwrite s.mem a bs }
/-- A schema of one feature, FP32 at offset 32. -/
def schema1 : List Byte := toLe 4 0x4D484353 ++ toLe 2 1 ++ toLe 2 1 ++ toLe 4 77 ++ toLe 2 48 ++ toLe 2 0 ++ toLe 4 0x80000020 ++ List.replicate 12 0
/-- A rotation descriptor: one image over hedges 0 and 1 and array 0, one record, a depth. -/
def rotd (ver : Nat) : List Byte := toLe 4 0x44544F52 ++ toLe 2 ver ++ toLe 1 1 ++ toLe 1 0 ++ toLe 4 1 ++ toLe 2 3 ++ toLe 2 48 ++ toLe 8 0x9000 ++
  toLe 8 0xA000 ++ toLe 4 1 ++ toLe 4 0x1000 ++ List.replicate 24 0
/-- An accumulation descriptor's bytes, FP32 mode. -/
def accd0 : List Byte := toLe 8 0 ++ List.replicate 24 0
/-- Queue 3 with a ROTATE whose structures are in memory. -/
def rotating (ver : Nat) (s : State) : State :=
  regSet (at_ 0x5000 (rotd ver) (at_ 0x6000 schema1 (at_ 0x7000 accd0 (q3 (slotOf 3 0x5000 0x6000 0x7000 0) s)))) (qfeReg 3 0x10) 0x100004

/-- The three structures of a ROTATE, read in turn, meet a check. -/
def rotB (t : State) (c : Cmd) (p : State → List Byte → Schema → List Byte → Bool) : Bool :=
  let a := readStruct t (cmdReach t c) 0xFC (op10 c.slot) 64 64
  let b := readSchema a.1 (cmdReach a.1 c) 0xFC (op18 c.slot)
  let d := readStruct b.1 (cmdReach b.1 c) 0xFC (op20 c.slot) 32 32
  gotB a.2 fun x => gotB b.2 fun y => gotB d.2 fun z => p d.1 x y z

theorem witness_RotateClaims :
    readyB (rotating 1 up) (.queue 3) 3 (fun t c => (queue t 3).window.isEmpty && rotB t c fun v b sch a => rotDescOk v (cmdQueue t c) b &&
      decide (sch.size ≤ rdStride b) && !(accdOf a).fixed && (rotRanges b sch.size).all (fun x => reaches v (cmdReach v c) x.1 x.2) &&
      v.claimsWaiting.isEmpty && !v.hostWait) = true ∧
    readyB (rotating 1 { up with claimsWaiting := [70] }) (.queue 3) 3 (fun t c => rotB t c fun v b _ _ => rotDescOk v (cmdQueue t c) b &&
      !v.claimsWaiting.isEmpty) = true ∧
    readyB (rotating 2 up) (.queue 3) 3 (fun t c => rotB t c fun v b _ _ => !rotDescOk v (cmdQueue t c) b) = true ∧
    readyB (q3 (slotOf 3 0x5001 0x6000 0x7000 0) up) (.queue 3) 3 (fun t c => stopB (readStruct t (cmdReach t c) 0xFC (op10 c.slot) 64 64).2) = true := by decide +kernel

/-- A stream descriptor of one dimension of n elements of 64 bytes, with a dependence mark of fence f and value v where told. -/
def sdesc (n flags f v : Nat) : List Byte := toLe 8 0x10000 ++ toLe 8 0x20000 ++ toLe 4 64 ++ toLe 1 1 ++ toLe 1 flags ++ toLe 2 0 ++ toLe 2 f ++ toLe 6 0 ++
  toLe 8 v ++ toLe 4 n ++ toLe 4 1 ++ toLe 4 1 ++ toLe 4 1 ++ toLe 8 64 ++ toLe 24 0 ++ toLe 8 64 ++ toLe 32 0

theorem witness_DataMoverRows :
    readyB (q3 (slotOf 4 0x5000 1 0 0) up) (.queue 3) 4 (fun t c => op10 c.slot % 64 == 0 && bitOf (bgUnits t (queueBg t (cmdQueue t c))) 4) = true ∧
    readyB (q3 (slotOf 4 0x5020 1 0 0) up) (.queue 3) 4 (fun _ c => op10 c.slot % 64 != 0) = true ∧
    (let m : Mover := { uid := 0, q := 3, list := 0x5000, count := 1, checked := true, desc := sdesc 128 0 0 0 }
     let s := { q3 [] up with movers := [m], cmds := [{ uid := 0, src := .queue 3, op := 4 }], pwr := { up.pwr with pool := 8 } }
     flowB s = true ∧ pickTurn s.moverTurn (burstQueues s) = some 3 ∧ (readyMoves s).isEmpty = true ∧ s.pwr.leakOwed = 0 ∧ s.pwr.rxOwed = 0 ∧
     (moveQuads 256 (askTokens s ownMover false 8).1 m.q (sdescOf m.desc) m.moved).2 = false ∧ (readyMovers s).find? (fun m => m.q == 3) = some m ∧
     findMover s m.uid = some m ∧ (sdescOf m.desc).toArray = false ∧ noneAhead s false = true ∧ claimSize s 8 ≤ s.pwr.pool ∧ holds s ownMover = false ∧
     m.moved + min 4096 ((sdescOf m.desc).bytes - m.moved) ≠ (sdescOf m.desc).bytes) ∧
    burstQueues up = [] ∧
    (let m : Mover := { uid := 0, q := 3, list := 0x5000, count := 1, checked := true, held := true, desc := sdesc 128 2 4 9 }
     let s := fun v e => { q3 [] up with movers := [m], cmds := [{ uid := 0, src := .queue 3, op := 4 }], fences := sset [] 4 { value := v, err := e } }
     ((s 8 false).movers.find? fun m => m.held && (match findCmd (s 8 false) m.uid with | some c => c.src == .queue 3 | none => false)) = some m ∧
     reached (s 8 false) (sdescOf m.desc).fence (BitVec.ofNat 64 (sdescOf m.desc).value) = false ∧
     reached (s 9 false) (sdescOf m.desc).fence (BitVec.ofNat 64 (sdescOf m.desc).value) = true ∧ (fence (s 9 true) 4).err = true) := by decide +kernel

/-- A slot descriptor that writes LLR blocks: stream 0, status at 0xA000, network program at 0x9000. -/
def slotd (strm : Nat) : List Byte := toLe 4 0x44544C53 ++ toLe 2 1 ++ toLe 1 strm ++ toLe 1 1 ++ toLe 1 1 ++ toLe 1 0 ++ toLe 2 1 ++ toLe 1 6 ++ toLe 1 1 ++
  toLe 1 1 ++ toLe 1 0 ++ toLe 8 0 ++ toLe 8 0x9000 ++ toLe 32 0 ++ toLe 8 0xA000 ++ toLe 2 1 ++ toLe 2 1 ++ toLe 4 16 ++ toLe 8 0xB000 ++ toLe 8 0
/-- A vector operation of one step, the negative of a constant into four elements at 0x4000 (Tables 9-3 to 9-5). -/
def vxop0 : List Byte := padTo 192 (toLe 4 0x504F5856 ++ toLe 2 1 ++ [1, 0] ++ toLe 4 4 ++ toLe 4 0 ++ toLe 8 0 ++ toLe 32 0 ++ toLe 2 0 ++ [9, 0] ++ toLe 4 0 ++
  toLe 8 0x4000 ++ toLe 40 0 ++ toLe 4 (8 + 4 * 32 + 2 ^ 20))
/-- The vector engine of unit 1 with one operation of queue 3. -/
def opState (k : Queue) (j : EngJob) (c : Cmd) : State :=
  { withQ k up with rxus := sset [] 1 { eng := sset [] 1 [j] }, pwr := { up.pwr with pool := 24 }, cmds := [c] }

theorem witness_EngineCommands :
    readyB (q3 (slotOf 6 0x5000 3 0 0) up) (.queue 3) 6 (fun t c => bitOf (bgUnits t (queueBg t (cmdQueue t c))) (leAt c.slot 0x18 1) &&
      (sget [] (rxu t 3).eng 0).isEmpty) = true ∧
    readyB (q3 (slotOf 7 0x5000 3 0 0) { up with pleach := body0.set 0x48A 7 }) (.queue 3) 7 (fun t c =>
      !bitOf (bgUnits t (queueBg t (cmdQueue t c))) (leAt c.slot 0x18 1)) = true ∧
    (let c : Cmd := { uid := 0, src := .queue 3, op := 7, slot := slotOf 7 0x5000 1 0 0 }
     let j : EngJob := { uid := some 0, q := 3 }
     let s := opState { st := .active, en := true } j c
     let s1 := (askTokens s (ownEngine 1 1) (taskJob s j) (engineCost 1)).1
     flowB s = true ∧ nextOp s (sget ({} : Turn) (rxu s 1).engTurn 1) (sget [] (rxu s 1).eng 1) = some j ∧ (j.uid.bind (findCmd s)).isSome = true ∧
     (askTokens s (ownEngine 1 1) (taskJob s j) (engineCost 1)).2 = true ∧ (operationBegin s1 1 1 j c).2.isNone = true ∧
     (operationBegin s1 1 1 j c).1.hostWait = false ∧
     (let v := operationBegin (at_ 0x5000 vxop0 s1) 1 1 j c
      (v.2.map (·.left)) = some (some 1) ∧ (queue v.1 3).st ≠ .retiring ∧ v.1.hostWait = false)) ∧
    (let c : Cmd := { uid := 0, src := .queue 3, op := 7, slot := slotOf 7 0x5000 1 0 0 }
     let j : EngJob := { uid := some 0, q := 3, left := some 2 }
     let k := { j with left := some 1 }
     (askTokens (opState { st := .active, en := true } j c) (ownEngine 1 1) false (engineCost 1)).2 = true ∧
     nextOp (opState { st := .active, en := true } j c) {} [j] = some j ∧ nextOp (opState { st := .active, en := true } k c) {} [k] = some k ∧
     nextOp (opState { st := .retiring, acting := .destroy } j c) {} [j] = some j) ∧
    (let r : SlotRun := { uid := 4, q := 3, desc := slotd 0, left := 1 }
     let j : EngJob := { c := 0, q := 3, job := { tk := 9, addr := 0x10000, block := padTo 64 ([2, 7] ++ toLe 2 1 ++ toLe 4 64 ++ toLe 8 0 ++ toLe 8 0x10000000) } }
     let s := { q3 [] up with rxus := sset [] 1 { eng := sset [] 2 [j], streams := sset [] 0 { run := some r, tasks := [{}], samples := 4096 } }, pwr := { up.pwr with pool := 24 } }
     nextOp s (sget ({} : Turn) (rxu s 1).engTurn 2) (sget [] (rxu s 1).eng 2) = some j ∧ (fftDone s 1 j).2 = true ∧
     (fftDone { s with rxus := sset [] 1 { streams := sset [] 0 { run := some r, tasks := [{}] } } } 1 j).2 = false) ∧
    sget [] (rxu up 2).eng 3 = [] := by decide +kernel

/-- A network program of 16 code bytes. -/
def net0 : List Byte := toLe 4 0x4B534154 ++ toLe 2 1 ++ toLe 2 0 ++ toLe 4 16 ++ toLe 4 0 ++ toLe 4 0 ++ toLe 4 256 ++ toLe 4 0 ++
  toLe 4 (crc32 (List.replicate 16 0)) ++ List.replicate 16 0
/-- Queue 3 with a SLOT_RUN of two slots on unit 0. -/
def running3 (strm unit : Nat) : State := at_ 0x5000 (slotd strm) (at_ 0x9000 net0 (q3 (slotOf 5 0x5000 (2 + unit * 2 ^ 16) 0 0) up))

theorem witness_SlotRunOpens :
    readyB (running3 0 0) (.queue 3) 5 (fun t c => bitOf (bgUnits t (queueBg t (cmdQueue t c))) (leAt c.slot 0x1A 1) &&
      (let a := readAny t (cmdReach t c) (coreId 0) (op10 c.slot) 96 64
       gotB a.2 fun d => ((localsOf a.1 0).find? fun l => globalOf a.1 0 l == some (leAt d 6 1)) == some 0 &&
        slotDescOk d (capSamples a.1 0 0) && (stream a.1 0 0).run.isNone &&
        (let r := runChecks a.1 (cmdReach t c) 0 0 d
         gotB r.2 (fun _ => true) && !r.1.hostWait && (queue r.1 3).window.isEmpty))) = true ∧
    readyB { running3 0 0 with mem := (at_ 0x5000 (slotd 0) (q3 [] up)).mem } (.queue 3) 5 (fun t c =>
      gotB (readAny t (cmdReach t c) (coreId 0) (op10 c.slot) 96 64).2 fun d => slotDescOk d (capSamples t 0 0) &&
        stopB (runChecks t (cmdReach t c) 0 0 d).2) = true ∧
    readyB (running3 1 0) (.queue 3) 5 (fun t c => gotB (readAny t (cmdReach t c) (coreId 0) (op10 c.slot) 96 64).2 fun d =>
      ((localsOf t 0).find? fun l => globalOf t 0 l == some (leAt d 6 1)).isNone) = true ∧
    readyB (running3 0 5) (.queue 3) 5 (fun t c => !bitOf (bgUnits t (queueBg t (cmdQueue t c))) (leAt c.slot 0x1A 1)) = true ∧
    readyB (q3 (slotOf 5 0x5001 2 0 0) up) (.queue 3) 5 (fun t c =>
      stopB (readAny t (cmdReach t c) (coreId (leAt c.slot 0x1A 1)) (op10 c.slot) 96 64).2) = true := by decide +kernel

/-- Queue 64 bound with 16 slots and a PI. -/
def target (pi : Word) (s : State) : State := regSet (setQueue s 64 { st := .active, en := true, pi := pi }) (qfeReg 64 0x10) 4

/-- A target with one slot of room takes one slot and not two; 17 slots never fit. -/
theorem witness_IndirectAndEnqueue :
    readyB (q3 (slotOf 11 0x5000 2 0 0) up) (.queue 3) 11 (fun t c => c.src == .queue 3 && !t.hostWait && (queue t 3).window.isEmpty) = true ∧
    readyB (q3 (slotOf 12 0x5000 (64 + 17 * 2 ^ 16) 0 0) (target 0 up)) (.queue 3) 12 (fun t c => !enqueueOk t (opB18 c.slot) (leAt c.slot 0x1A 2)) = true ∧
    readyB (q3 (slotOf 12 0x5000 (64 + 2 * 2 ^ 16) 0 0) (target 15 up)) (.queue 3) 12 (fun t c => enqueueOk t (opB18 c.slot) (leAt c.slot 0x1A 2) &&
      !enqueueRoom t (opB18 c.slot) (leAt c.slot 0x1A 2)) = true ∧
    readyB (q3 (slotOf 12 0x5000 (64 + 1 * 2 ^ 16) 0 0) (target 15 up)) (.queue 3) 12 (fun t c => enqueueOk t (opB18 c.slot) (leAt c.slot 0x1A 2) &&
      enqueueRoom t (opB18 c.slot) (leAt c.slot 0x1A 2) && mayAct t c && !c.queued &&
      ((t.cmds.filter fun d => d.op == 12 && !d.queued && opB18 d.slot == opB18 c.slot).head?).map (·.uid) == some c.uid) = true ∧
    (let s := { target 15 up with cmds := [{ uid := 0, src := .queue 3, op := 12, slot := slotOf 12 0x5000 (64 + 1 * 2 ^ 16) 0 0 }] }
     flowB s = true ∧ (cmdOfSrc s (.queue 3) 0x0C).map (mayAct s) = some true ∧
     (cmdOfSrc (setQueue s 3 { st := .retiring }) (.queue 3) 0x0C).map (mayAct (setQueue s 3 { st := .retiring })) = some false ∧ enqueueRoom s 64 1 = true ∧
     ((s.cmds.filter fun d => d.op == 12 && !d.queued && opB18 d.slot == 64).head?).map (·.uid) = some 0) := by decide +kernel

/-- A binding descriptor for a command queue of 2^lg slots. -/
def bindD (lg : Nat) : List Byte := toLe 4 0x444E4251 ++ toLe 2 1 ++ toLe 2 0 ++ toLe 8 0xC000 ++ toLe 4 (0x10000 + lg) ++ toLe 8 0xD000 ++ toLe 4 0 ++
  toLe 4 0x100000 ++ toLe 4 0 ++ toLe 8 0 ++ toLe 4 1 ++ toLe 4 0 ++ toLe 8 0 ++ List.replicate 64 0
/-- Queue 3 with a QUEUE_BIND of queue 64. -/
def binding (lg : Nat) : State := at_ 0x5000 (bindD lg) (q3 (slotOf 0x40 0x5000 64 0 0) (regSet up (mgtReg 0x8050) 2))

/-- The least and the greatest ring, and one that is too small (Table 10-2). -/
theorem witness_QueueCommands :
    (∀ lg ∈ [4, 16], readyB (binding lg) (.queue 3) 0x40 (fun t c => gotB (readAny t (cmdReach t c) 0xFC (op10 c.slot) 128 64).2 fun b =>
      driverOk t && decide (64 ≤ opB18 c.slot) && (queue t (opB18 c.slot)).st == .free && leAt b 0 4 == 0x444E4251 && leAt b 4 2 == 1 &&
      leAt b 6 2 == 0 && leAt b 0x28 8 == 0 && bindOk t (opB18 c.slot) (bindOf b)) = true) ∧
    readyB (binding 3) (.queue 3) 0x40 (fun t c => gotB (readAny t (cmdReach t c) 0xFC (op10 c.slot) 128 64).2 fun b =>
      !bindOk t (opB18 c.slot) (bindOf b)) = true ∧
    readyB (q3 (slotOf 0x40 0x5001 64 0 0) up) (.queue 3) 0x40 (fun t c => stopB (readAny t (cmdReach t c) 0xFC (op10 c.slot) 128 64).2) = true ∧
    readyB (q3 (slotOf 0x41 0 64 0 0) (target 0 up)) (.queue 3) 0x41 (fun t c => bound t (leAt c.slot 0x18 2) && leAt c.slot 0x18 2 != cmdQueue t c) = true ∧
    readyB (q3 (slotOf 0x41 0 64 0 0) up) (.queue 3) 0x41 (fun t c => !bound t (leAt c.slot 0x18 2)) = true ∧
    readyB (q3 (slotOf 0x42 0 (64 + 2 ^ 16) 0 0) (target 0 up)) (.queue 3) 0x42 (fun t c => bound t (opB18 c.slot) && opB18 c.slot != cmdQueue t c) = true ∧
    readyB (q3 (slotOf 0x42 0 3 0 0) up) (.queue 3) 0x42 (fun t c => opB18 c.slot == cmdQueue t c) = true := by decide +kernel

/-- A component that restructures nothing, over a device whose body is the same. -/
def newBody : List Byte := compHeader 2 plainBody digestBody ++ plainBody
/-- RUNNING with that body in force and a RESTRUCTURE of hedge 4 waiting. -/
def restructuring (accepted : Bool) : State :=
  { up with pleach := plainBody, restructs := [{ uid := 9, h := 4, body := newBody, accepted := accepted }] }
theorem restruct_checks : pleachChecks (restructuring false) newBody = none := by
  have f : headerFields (componentReader newBody) (0x1000 + newBody.length) 2 = true := by decide +kernel
  have d : compBody (componentReader newBody) 2 = plainBody ∧
      sub (componentReader newBody (compAt (componentReader newBody) 2).1 128) 0x28 32 = digestBody := by decide +kernel
  have rest : signatureOk (restructuring false) (componentReader newBody) 2 = true ∧
      steppingOk (restructuring false) (compOfImage (restructuring false) (componentReader newBody) 2) = true ∧
      pairsOk (withKinds ((restructuring false).sage.comps.take 2 ++ [compOfImage (restructuring false) (componentReader newBody) 2]) ++
        acceptedDriver (restructuring false)) = true := by decide +kernel
  have h : headerOk (componentReader newBody) (0x1000 + newBody.length) 2 = true := by
    simp only [headerOk, digestOk, f, d, plain_digest, beq_self_eq_true, Bool.and_self]
  simp only [pleachChecks, h, rest.1, rest.2.1, rest.2.2, Bool.not_true, Bool.false_eq_true, ↓reduceIte]
theorem restruct_body : bodyDefaults (sub newBody 128 2560) = plainBody := by decide +kernel
theorem refused_none {s : State} {bs body : List Byte} {h : Nat} (c : pleachChecks s bs = none) (b : bodyOk s body = true)
    (k : changesOk s body h = true) (l : losesReserved s body h = false) (i : hedgeIdle s h = true) :
    restructRefused s bs body h = none := by
  unfold restructRefused
  rw [c]
  show (if _ then _ else _) = none
  rw [if_neg (by rw [b, k, l]; decide), i]
  rfl
theorem witness_RestructureRows :
    readyB (q3 (slotOf 0x43 0x5000 4 0 0) up) (.queue 3) 0x43 (fun t c => (readMem t (cmdQueue t c) 0xFC (op10 c.slot) 128).2 == { bytes := List.replicate 128 0 } &&
      t.restructs.isEmpty) = true ∧
    readyB (q3 (slotOf 0x43 0x10000000 4 0 0) up) (.queue 3) 0x43 (fun t c => (readMem t (cmdQueue t c) 0xFC (op10 c.slot) 128).2.ap) = true ∧
    readyB (q3 (slotOf 0x43 0x8000000000005000 4 0 0) up) (.queue 3) 0x43 (fun _ c => isHost (op10 c.slot)) = true ∧
    restructRefused (restructuring false) newBody (bodyDefaults (sub newBody 128 2560)) 4 = none ∧
    (aliveB (restructuring true) = true ∧ (restructuring true).restructs = [{ uid := 9, h := 4, body := newBody, accepted := true }]) ∧
    (aliveB up = true ∧ up.restructs = []) ∧
    (let s := { q3 (slotOf 0x43 0x5000 4 0 0) up with restructs := [{ uid := 8 }] }
     readyB s (.queue 3) 0x43 (fun t _ => !t.restructs.isEmpty) = true) ∧
    readyB (q3 (slotOf 0x43 0x5000 4 0 0) { up with quads := sset [] (quadKey 0 0x500) { poison := true } }) (.queue 3) 0x43
      (fun t c => !(readMem t (cmdQueue t c) 0xFC (op10 c.slot) 128).2.ap && (readMem t (cmdQueue t c) 0xFC (op10 c.slot) 128).2.poison) = true := by
  refine ⟨by decide +kernel, by decide +kernel, by decide +kernel, ?_, ⟨by decide +kernel, by simp [restructuring]⟩, ⟨by decide +kernel, rfl⟩, by decide +kernel, by decide +kernel⟩
  rw [restruct_body]
  exact refused_none restruct_checks (plain_ok (by rfl)) (by decide +kernel) (by decide +kernel) (by decide +kernel)

/-! ## Hedges, arrays and rotations -/

/-- A step of one record over hedges in one span, of queue 3, its structures checked. -/
def step4 (hs : List Nat) : StepRun := { uid := 4, q := 3, spec := { spans := [hs], records := 1, stride := 48, schema := 0x6000 }, checked := true }
/-- The command behind it. -/
def cmd4 : Cmd := { uid := 4, src := .queue 3, op := 2 }
/-- Hedge 0 as given, with that step and queue 3. -/
def hedged (h : Hedge) (r : StepRun) : State :=
  { q3 [] up with hedges := sset [] 0 h, steps := [r], cmds := [cmd4], pwr := { up.pwr with pool := 100 } }
/-- An enabled hedge that holds the step's record. -/
def ready0 : Hedge := { en := { en := true }, parts := sset [] 0 { occ := [{ uid := 4, bytes := List.replicate 48 0 }] } }

/-- What a start of step r on hedge 0 asks of the power system. -/
def askStart (s : State) (r : StepRun) : State × Bool :=
  let u := if (hedge s 0).chosen = some r.uid then s else dropTokens s (ownStep 0)
  askTokens (modHedge u 0 fun e => { e with chosen := some r.uid }) (ownStep 0) (role u 0 == 2) (2 + 2 * (setOn u r 0).length)

theorem witness_StepStarts :
    (let s := hedged ready0 (step4 [0])
     flowB s = true ∧ hedgeFree s 0 = true ∧ nextStep s 0 = some (step4 [0]) ∧ (reloadDisplaced s (step4 [0])).2 = false ∧
     (passChecks s (step4 [0])).2 = true ∧ findStep (passChecks s (step4 [0])).1 4 = some (step4 [0]) ∧
     (askStart s (step4 [0])).2 = true ∧ (askStart s (step4 [0])).1.hostWait = false) ∧
    (let s := { hedged ready0 (step4 [0]) with pwr := { up.pwr with pool := 1 } }
     flowB s = true ∧ hedgeFree s 0 = true ∧ nextStep s 0 = some (step4 [0]) ∧ (reloadDisplaced s (step4 [0])).2 = false ∧
     (passChecks s (step4 [0])).2 = true ∧ (askStart s (step4 [0])).2 = false) ∧
    (let r := { step4 [0] with checked := false, spec := { (step4 [0]).spec with opens := true } }
     let s := hedged ready0 r
     hedgeFree s 0 = true ∧ nextStep s 0 = some r ∧ (reloadDisplaced s r).2 = false ∧ (passChecks s r).2 = false) ∧
    (let r := { step4 [0] with sets := sset [] 0 [0] }
     let s := { hedged ready0 r with arrays := sset [] 0 { home := some { addr := 0x9000 }, bumped := true } }
     nextStep s 0 = some r ∧ (reloadDisplaced s r).2 = true) ∧
    hedgeFree up 0 = false ∧ nextStep up 0 = none := by decide +kernel

theorem witness_StepEndsAndReplays :
    (let s := hedged { ready0 with run := some { uid := 4, searches := 3 } } (step4 [0, 1])
     flowB s = true ∧ findStep s 4 = some (step4 [0, 1]) ∧ (step4 [0, 1]).spec.closes = false ∧ (step4 [0, 1]).spec.arrays = none ∧
     (queue s 3).st ≠ .retiring ∧ (hedge s 0).freeDetached = [] ∧ s.steps = [step4 [0, 1]] ∧ findRot s 4 = none ∧
     (s.utr.ports = [] ∧ s.utr.rqs = [] ∧ s.chans = []) ∧ s.quads = [] ∧ 1 ∈ takers (step4 [0, 1]) 0 ∧ 1 ∉ (step4 [0, 1]).ended ∧
     s.hostWait = false) ∧
    (let s := hedged { ready0 with run := some { uid := 4, pending := [511] } } (step4 [0])
     flowB s = true ∧ (hedge s 0).run = some { uid := 4, pending := [511] } ∧ findStep s 4 = some (step4 [0]) ∧
     (s.utr.ports = [] ∧ s.utr.rqs = [] ∧ s.chans = []) ∧ s.quads = []) ∧
    ((hedge up 0).run = none ∧ up.utr.ports = [] ∧ up.utr.rqs = [] ∧ up.chans = []) := by decide +kernel

/-- Array 9 with one load at its head, for command 4. -/
def loading (a : Arr) (j : LoadJob) : State :=
  { at_ 0x6000 schema1 (q3 [] up) with arrays := sset [] 9 { a with loads := [j] }, cmds := [{ cmd4 with op := 1 }], pwr := { up.pwr with pool := 1 } }
/-- A load of the bytes at 0x9000 under the schema at 0x6000. -/
def load4 (started : Bool) : LoadJob :=
  { why := .cmd 4, q := 3, addr := 0x9000, src := 0x9000, schema := some 0x6000, started := started, sch := if started then some schema1 else none }
/-- How a structure that cannot be used stops its reader, where one is read. -/
def stopIs {α : Type} (g : Option (Got α)) : Option St := match g with | some (.stop s) => some s | _ => none
/-- The load of array 9 takes its token, and its schema is then read. -/
def loadTold (s : State) (j : LoadJob) : State × Option (Got (List Byte)) := loadSchema (askTokens s (ownLoad 9) false 1).1 j
/-- A load of array 9 that may start, and is not barred, with its token. -/
def loadGoes (s : State) (j : LoadJob) : Bool :=
  flowB s && loadMayStart s 9 j && !loadBarred s 9 j && (askTokens s (ownLoad 9) false 1).2

theorem witness_ArrayLoads :
    (let s := loading {} (load4 false)
     (arr s 9).loads = [load4 false] ∧ loadGoes s (load4 false) = true ∧ stopIs (loadTold s (load4 false)).2 = none ∧
     (loadTold s (load4 false)).1.hostWait = false) ∧
    (let j := { load4 false with schema := some 0x6001 }
     loadGoes (loading {} j) j = true ∧ stopIs (loadTold (loading {} j) j).2 = some .format ∧ (loadTold (loading {} j) j).1.hostWait = false) ∧
    (let j := { load4 false with schema := some 0x7FFFFFFFFFC0 }
     loadGoes (loading {} j) j = true ∧ stopIs (loadTold (loading {} j) j).2 = some .aperture) ∧
    (let s := { loading {} (load4 false) with quads := sset [] (quadKey 0 0x600) { poison := true } }
     loadGoes s (load4 false) = true ∧ stopIs (loadTold s (load4 false)).2 = some .integrity) ∧
    (let j := { load4 false with schema := none }
     loadGoes (loading {} j) j = true ∧ (loadTold (loading {} j) j).2.isNone = true ∧ (loadTold (loading {} j) j).1.hostWait = false) ∧
    (let s := { loading {} (load4 false) with pwr := up.pwr }
     loadMayStart s 9 (load4 false) = true ∧ loadBarred s 9 (load4 false) = false ∧ (askTokens s (ownLoad 9) false 1).2 = false) ∧
    loadMayStart (loading { checking := true } (load4 false)) 9 (load4 false) = false ∧
    (loadMayStart (loading { st := .withdrawn } (load4 false)) 9 (load4 false) = true ∧
      loadBarred (loading { st := .withdrawn } (load4 false)) 9 (load4 false) = true) ∧
    (let s := setQueue (loading { st := .loading } (load4 true)) 3 { st := .retiring }
     flowB s = true ∧ (queue s 3).st = .retiring ∧ (arr s 9).loads = [load4 true]) ∧
    (let s := loading { st := .loading } (load4 true)
     flowB s = true ∧ (queue s 3).st ≠ .retiring ∧ ((load4 true).sch.map parseSchema == some none) = false ∧
     (readImage s 3 9 0x9000 none (.cmd 4) (((load4 true).sch.map parseSchema).bind id)).2.isNone = true) ∧
    (some []).map parseSchema = some none := by decide +kernel

/-- A body whose hedge 0 has partition 0 of five 64-byte slots. -/
def bodyS : List Byte := (body0.set 0x88 1).set 0x8A 5
/-- A record of step 4 in a skid. -/
def rec48 : HeldRec := { uid := 4, bytes := List.replicate 48 1, len := 48 }
/-- What a move of that record into a slot of hedge 0 looks for: its bytes are mapped, no quad is odd and the ring is quiet. -/
def slotB (s : State) : Bool :=
  (findCmd s 4).map (·.record) == some false && min 48 (slotBytes s 0 0) == 48 && mapped s (recAddr s 0 0 0) 48 && s.quads.isEmpty && s.chans.isEmpty

theorem witness_OpensAndRecordSlots :
    (let s := hedged { ready0 with opens := [{ uid := 4 }] } (step4 [0])
     flowB s = true ∧ (hedge s 0).opens = [{ uid := 4 }] ∧ findStep s 4 = some (step4 [0]) ∧ openReady s (step4 [0]) (accdOf (step4 [0]).accdCopy) = true) ∧
    (let r := { step4 [0] with spec := { (step4 [0]).spec with records := 2 ^ 20 }, accdCopy := (accd0.set 6 1).set 12 1 }
     openReady (hedged { ready0 with opens := [{ uid := 4 }] } r) r (accdOf r.accdCopy) = false) ∧
    (hedge up 0).opens = [] ∧
    (let s := { hedged { parts := sset [] 0 { waiting := [{ uid := 4, n := 1 }] } } (step4 [0]) with pleach := body0.set 0x8A 5 }
     (part s 0 0).waiting = [{ uid := 4, n := 1 }] ∧ 1 ≤ poolFree s 0 0 ∧ poolFree s 0 0 < 2) ∧
    (let s := hedged { en := { en := true } } (step4 [0])
     sendingStep s 3 = some (step4 [0]) ∧ (step4 [0]).spec.spans.length = 1 ∧ 0 < spanCount (step4 [0]).spec 0 - sget 0 (step4 [0]).sent 0 ∧
     (decide (0 < sget 0 (step4 [0]).sent 0) || mayBegin s (step4 [0]) 0) = true ∧
     ((receivers (step4 [0]) 0).all fun h => !(hedge s h).restructuring) = true ∧
     ((receivers (step4 [0]) 0).all fun h => decide ((skid s h (step4 [0]).bg).length < Config.skidDepth)) = true) ∧
    mayBegin (hedged {} (step4 [0])) (step4 [0]) 0 = false ∧
    (let s := hedged { en := { en := true }, skids := sset [] 0 (List.replicate 32 {}) } (step4 [0])
     0 ∈ receivers (step4 [0]) 0 ∧ Config.skidDepth ≤ (skid s 0 (step4 [0]).bg).length) ∧
    (let s := { hedged { skids := sset [] 0 [rec48] } (step4 [0]) with pleach := bodyS }
     skid s 0 (skidOf s 0 0) = [rec48] ∧ s.utr.ports = [] ∧ s.utr.rqs = [] ∧ ((part s 0 (bgPart s 0)).borrows.find? (·.uid == 4)) = none ∧
     floorUsed s 0 (bgPart s 0) 0 < bgFloor s 0 ∧ slotB s = true) ∧
    (let s := { hedged { skids := sset [] 0 [rec48], parts := sset [] 0 { borrows := [{ uid := 4, n := 1 }] } } (step4 [0]) with pleach := bodyS }
     ((part s 0 0).borrows.find? (·.uid == 4)) = some { uid := 4, n := 1 } ∧
     ((part s 0 0).occ.filter fun x => x.uid == 4 && x.borrowed).length < 1 ∧ slotB s = true) ∧
    (let s := { hedged { skids := sset [] 64 [rec48] } (step4 [0]) with pleach := bodyS.set 0x80 2 }
     skidOf s 0 0 = 64 ∧ skidOf s 0 63 = 63 ∧ skid s 0 (skidOf s 0 0) = [rec48] ∧ floorUsed s 0 0 64 < bgFloor s 64 ∧ 0 < freeSlots s 0 0) := by decide +kernel

/-- Hedge 0 with a close of step 4 at its output unit in a stage, its group with an accumulation descriptor. -/
def closing (stage : Nat) (accd : List Byte) (g : Group) : State :=
  hedged { ready0 with closes := [{ uid := 4, stage := stage }], groups := sset [] 0 { g with q := 3, hedges := 1, records := 1, accd := accd, closing := true } }
    { step4 [0] with closing := [0] }
/-- An output descriptor that writes the results at 0xA000. -/
def outd0 : List Byte := padTo 64 (toLe 4 0x4454554F ++ toLe 2 1 ++ toLe 26 0 ++ toLe 8 0xA000)
/-- A step whose output descriptor is at an address, and an accumulation descriptor of one output. -/
def outStep (a : Nat) : StepRun := { step4 [0] with spec := { (step4 [0]).spec with outd := a } }
def accd1 : Accd := accdOf (accd0.set 6 1)

theorem witness_ClosesAndMerges :
    (let s := closing 0 accd0 {}
     let a := askTokens s (ownOut 0) (role s 0 == 2) 2
     flowB s = true ∧ (findStep s 4).isSome = true ∧ findCmd s 4 = some cmd4 ∧ (group s 0 0).isSome = true ∧ (accdOf accd0).pairwise = false ∧
     (queue s 3).st ≠ .retiring ∧ a.2 = true ∧ (step4 [0]).spec.reduce = false ∧ (hedge s 0).closes = [{ uid := 4 }] ∧
     s.utr.ports = [] ∧ s.utr.rqs = [] ∧ s.chans = []) ∧
    (let s := { closing 0 accd0 {} with pwr := up.pwr }
     (askTokens s (ownOut 0) (role s 0 == 2) 2).2 = false ∧ (findCmd s 4).isSome = true) ∧
    (let a := (accd0.set 9 1).set 24 8
     let s := closing 0 a { runStart := some 1, runEnd := 3 }
     let r := { step4 [0] with closing := [0] }
     (accdOf a).pairwise = true ∧ allClosing r = true ∧ runsBad (askTokens s (ownOut 0) (role s 0 == 2) 2).1 r (accdOf a) = true) ∧
    ((hedge up 0).closes = [] ∧ up.utr.ports = [] ∧ up.utr.rqs = [] ∧ up.chans = []) ∧
    (let s := at_ 0x8000 outd0 (closing 0 accd0 {})
     (outStep 0x8000).spec.calib = none ∧ (outStep 0x8000).spec.outdImm = [] ∧ egressOf s cmd4 = none ∧
     gotB (readStruct s (stepReach s (outStep 0x8000)) 0xFE 0x8000 64 64).2 (fun b => outdOk accd1 false b && !(outdOf b).topk &&
       (outdRanges accd1 (outdOf b) (resultBase s cmd4 accd1 (outdOf b)) 1).all fun x => reaches s (stepReach s (outStep 0x8000)) x.1 x.2) = true ∧
     gotB (readStruct s (stepReach s (outStep 0x9000)) 0xFE 0x9000 64 64).2 (fun b => !outdOk accd1 false b) = true) ∧
    (let s := closing 2 accd0 {}
     let r := step4 [0]
     (hedge s 0).closes = [{ uid := 4, stage := 2 }] ∧ r.spec.spans.length ≤ r.closed + 1 ∧ (queue s r.q).st ≠ .retiring ∧
     (spanClosed (endClose (if r.unlisted then s else writeRanks s r (outdOf r.outd)) 0 r { uid := 4, stage := 2 }) r.uid 16 .ok).hostWait = false) ∧
    ({ uid := 4 } : Close).stage ≠ 2 := by decide +kernel

/-- A rotation descriptor of one staged image, for hedge 0 and array 0. -/
def rotd1 (depth : Nat) : List Byte := ((rotd 1).set 7 (BitVec.ofNat 8 depth)).set 0xC 1
/-- An image table entry without and with a WAIT mark of fence 4 at value 9. -/
def entry0 (wait : Bool) : List Byte := toLe 8 0xB000 ++ toLe 4 64 ++ toLe 2 (b2n wait) ++ toLe 2 (if wait then 4 else 0) ++ toLe 8 (if wait then 9 else 0) ++ toLe 8 0
/-- A rotation of step 4 with its fields. -/
def rotated (r : Rotation) (e : List Byte) (v : Nat) (err : Bool) : State :=
  { at_ 0x9000 e (hedged ready0 (step4 [0])) with rotations := [{ r with uid := 4, q := 3 }], fences := sset [] 4 { value := BitVec.ofNat 64 v, err := err } }
/-- A running rotation of step 4 of a depth, with images fetched and rounds staged. -/
def turning (depth fetched staged : Nat) : Rotation :=
  { uid := 4, q := 3, desc := rotd1 depth, stage := .running, fetched := fetched, staged := staged }
/-- That rotation is queue 3's and its next round may be asked for. -/
def mayTurn (s : State) (r : Rotation) : Bool :=
  flowB s && queueRot s 3 == some r && findRot s 4 == some r && findStep s 4 == some (step4 [0]) && !r.loading && r.stopping.isNone &&
  r.waitMark.isNone && decide (r.round < rotRounds r) && (rdDepth r.desc == 0 || decide (r.round < r.staged)) && !earlierList s 3 4 && transfersRun s 3
/-- The entries of that round, and what stops it at the mark of one of them. -/
def entries (s : State) (r : Rotation) : State × Got (List (Nat × ImgEntry)) :=
  roundEntries s r ((List.range ((roundImages r r.round).2 - (roundImages r r.round).1)).map ((roundImages r r.round).1 + ·))
def stopsAt (s : State) (r : Rotation) (m : Option MarkSays) : Bool :=
  gotB (entries s r).2 fun es => !es.isEmpty &&
    ((es.find? fun x => rdDepth r.desc == 0 && markSays s r x.1 x.2 != .go).map fun x => markSays s r x.1 x.2) == m

theorem witness_RotationEvents :
    (let s := { rotated { desc := rotd1 0 } (entry0 false) 0 false with claimsWaiting := [4] }
     flowB s = true ∧ (findRot s 4).isSome = true ∧ claimFree s (rotd1 0) = true ∧ findStep s 4 = some (step4 [0]) ∧ (step4 [0]).spec.reduce = false) ∧
    claimFree (rotated { desc := rotd1 0, stage := .running } (entry0 false) 0 false) (rotd1 0) = false ∧ up.claimsWaiting = [] ∧
    (let r := { turning 1 0 0 with fetching := some (0xB000, 64) }
     let s := rotated r (entry0 false) 0 false
     flowB s = true ∧ pickTurn s.moverTurn (burstQueues s) = some 3 ∧ (readyMoves s).isEmpty = true ∧ (readyMovers s).isEmpty = true ∧
     (readyRots s).isEmpty = true ∧ (readyFetches s).find? (fun r => r.q == 3) = some r ∧ findRot s 4 = some r ∧
     (askTokens s ownMover false 8).2 = true) ∧
    (rdDepth (turning 1 1 0).desc ≠ 0 ∧ rotRounds (turning 1 1 0) = 1 ∧ (roundImages (turning 1 1 0) 0).2 ≤ 1 ∧ 0 < (roundImages (turning 1 0 0) 0).2 ∧
      rdDepth (turning 0 0 0).desc = 0) ∧
    (let s := rotated (turning 0 0 0) (entry0 false) 0 false
     mayTurn s (turning 0 0 0) = true ∧ ((rdHedges (rotd1 0)).all fun h => roundReady s (turning 0 0 0) (step4 [0]) h) = true ∧
     stopsAt s (turning 0 0 0) none = true) ∧
    stopsAt (rotated (turning 0 0 0) (entry0 true) 8 false) (turning 0 0 0) (some .hold) = true ∧
    stopsAt (rotated (turning 0 0 0) (entry0 true) 9 true) (turning 0 0 0) (some .error) = true ∧
    stopsAt (rotated (turning 0 0 0) (entry0 true) 9 false) (turning 0 0 0) none = true ∧
    stopB (entries (rotated (turning 0 0 0) ((entry0 false).set 0xC 2) 0 false) (turning 0 0 0)).2 = true ∧
    (let s := { rotated (turning 1 1 1) (entry0 false) 0 false with hedges := [] }
     mayTurn s (turning 1 1 1) = true ∧ ((rdHedges (rotd1 1)).all fun h => roundReady s (turning 1 1 1) (step4 [0]) h) = false) ∧
    (let r := { turning 0 0 0 with waitMark := some (0, 9) }
     gotB (imgEntry (rotated r (entry0 true) 9 true) r 0).2 (fun e => e.fence == 4) = true ∧
     reached (rotated r (entry0 true) 9 true) 4 9 = true ∧ (fence (rotated r (entry0 true) 9 true) 4).err = true ∧
     (fence (rotated r (entry0 true) 9 false) 4).err = false ∧ reached (rotated r (entry0 true) 8 false) 4 9 = false) := by decide +kernel

/-- Sums below and at the bounds (R117). -/
theorem witness_ExactSums :
    exSat ([1, -2, 3].foldl exAdd 0) = false ∧ [1, -2, 3].Perm [3, 1, -2] ∧ exSat ([3, 1, -2].foldl exAdd 0) = false ∧
    exSat (([[1, -2], [3]].map fun vs => vs.foldl exAdd 0).foldl exCombine 0) = false ∧ exSat exMax = true ∧ exSat exMin = true ∧
    exSat (exMax - 1) = false ∧ exMax < exMax - 1 + 2 ∧ exMin + 1 + -2 < exMin ∧ exMin ≤ exMin + 1 + -1 := by decide +kernel

/-! ## The Utrid ring -/

/-- A ring of four with port 1 as given. -/
def port1 (u : UPort) : State := { ring4 with utr := { ring4.utr with ports := sset [] 1 u } }
/-- A whole flit with a header and payload. -/
def flit (type vc dst seq len : Nat) (more : Nat) (pay : List Quad) : Flit :=
  { hdr := BitVec.ofNat 128 (type + vc * 2 ^ 8 + dst * 2 ^ 20 + len * 2 ^ 24 + seq * 2 ^ 32 + more), pay := pay ++ List.replicate (8 - pay.length) 0,
    poison := List.replicate 9 false }

theorem witness_UtridLink :
    (let s := port1 { st := 1, en := { en := true } }
     s.hostWait = false ∧ (uport s 1).st = 1 ∧ (uport s 1).en.en = true ∧ s.glb.bypassOpen = true ∧
     greetOk s 1 { rank := 1, topo := 1, ringId := BitVec.ofNat 32 (ringId s), port := 3, viaBypass := false } = true ∧
     greetOk s 1 { rank := 1, topo := 2, ringId := BitVec.ofNat 32 (ringId s), port := 3, viaBypass := false } = false) ∧
    (let s := port1 { st := 2, en := { en := true } }
     (uport s 1).st = 2 ∧ (uport s 1).en.disabling = false ∧ (uport s 1).wait = []) ∧
    (uport (port1 { st := 2, en := { disabling := true } }) 1).en.disabling = true ∧
    (let f := flit 0x20 5 1 0 4 0 []
     let s := port1 { st := 2, wait := [(5, f)], unacked := [f], txSeq := 1, replays := 8 }
     (uport s 1).wait = [(5, f)] ∧ 0 < (127 : BitVec 7).toNat ∧ (uport s 1).unacked.length < 256 ∧ 0 < (uport s 1).unacked.length ∧
     (uport s 1).unacked.length ≤ (uport s 1).txSeq ∧ (0 : BitVec 18).toNat = ((uport s 1).txSeq - (uport s 1).unacked.length + 0) % 2 ^ 18 ∧
     8 ≤ (uport s 1).replays) ∧
    (uport (port1 { st := 2, replays := 7 }) 1).replays < 8 ∧ (uport (port1 { st := 2 }) 1).wait = [] ∧ (uport up 0).st ≠ 1 ∧ (uport up 0).st ≠ 2 := by decide +kernel

/-- The generator of SWC-146 by hand multiplication of R335's factors, an all-zero quad's check bits, and the reduction of x^10 in the symbol field. -/
theorem test_swc_and_symbols :
    swcGen = 0x11D ^^^ 0x11D * 2 ^^^ (0x11D ^^^ 0x11D * 2) * 2 ^^^ (0x11D ^^^ 0x11D * 2) * 4 ^^^ (0x11D ^^^ 0x11D * 2) * 16 ^^^
      (0x11D ^^^ 0x11D * 2) * 32 ^^^ (0x11D ^^^ 0x11D * 2) * 64 ^^^ (0x11D ^^^ 0x11D * 2) * 256 ∧
    swcCheck false 0 0 = 0 ∧ swcGen / 2 ^ 17 = 1 ∧ gf1024 2 512 = 9 := by decide +kernel

/-- A ring of four whose ring entry 0 is queue 70 of rank 1, a bound record queue that has formed as given. -/
def ringQueue (k : RingQ) : State :=
  let s := regSet (setQueue ring4 70 { st := .active, en := true }) (utrCom 0x2000) (BitVec.ofNat 32 (2 ^ 31 + 70 + 2 ^ 14))
  let s := regSet s (qfeReg 70 0x10) 0x24
  { s with utr := { s.utr with rqs := sset [] 70 k } }

theorem witness_FlitsArrive :
    (let s := port1 { st := 2 }
     let f := flit 0x21 5 0 0 1 0 [7]
     s.hostWait = false ∧ f.shape = true ∧ (fhdrOf f.hdr).type = 0x21 ∧ (uport s 1).st = 2 ∧ f.errs = [] ∧ (f.poison.all fun b => !b) = true ∧
     (readFlit s 1 f).2 = some f ∧ (fhdrOf f.hdr).vc < 6 ∧
     (readFlit s 1 { f with errs := [{ quad := 4, err := 1 }] }).2 = some f ∧
     (readFlit s 1 { f with errs := [{ quad := 4, err := 7 }] }).2 = none ∧ { f with errs := [{ quad := 4, err := 7 }] }.shape = true ∧
     classify (nth false f.poison 4) (flitQuad f 4 == 0) 7 0 = .ue ∧ (uport s 1).replaying = false ∧ (uport (port1 { st := 2, replaying := true }) 1).replaying = true ∧
     (fhdrOf f.hdr).type ≠ 0x20 ∧ (fhdrOf f.hdr).dst = s.glb.rank ∧ (chan s (0x40 + (fhdrOf f.hdr).src) 0).word = none) ∧
    (let s := { ring4 with chans := sset [] (chanKey 0x40 0) { word := some 3, queue := [[], [], []] } }
     (chan s 0x40 0).word ≠ none ∧ (chan s 0x40 0).queue.length < Config.mbxSlots) ∧
    (let s := { ring4 with chans := sset [] (chanKey 0x40 0) { queue := [[], [], [], []] } }
     Config.mbxSlots ≤ (chan s 0x40 0).queue.length) ∧
    ((fhdrOf (flit 0x20 5 0 0 4 0 [1, 2, 3, 4]).hdr).type = 0x20 ∧ (fhdrOf (flit 0x20 5 0 0 4 0 [1, 2, 3, 4]).hdr).len ≠ 1 ∧
      (fhdrOf (flit 0x20 5 0 0 1 0 [1]).hdr).len = 1 ∧ leAt (payBytes (flit 0x20 5 0 0 1 0 [1])) 0 1 = 1 ∧
      (fhdrOf (flit 0x20 5 0 0 1 0 [1]).hdr).dst = ring4.glb.rank) ∧
    (let f := flit 0x10 3 0 9 2 0 []
     findRed ring4 (leAt (sub (payBytes f) 0 32) 4 1) (fhdrOf f.hdr).seq = none ∧
     (let s := { ring4 with utr := { ring4.utr with reds := [{ seq := 9, root := 0, passed := true }] } }
      findRed s (leAt (sub (payBytes f) 0 32) 4 1) (fhdrOf f.hdr).seq = some { seq := 9, root := 0, passed := true } ∧ s.glb.rank = 0)) ∧
    (let f := flit 0x11 3 0 9 1 0 [5]
     let c : Chain := { seq := 9, ends := true, hdr := List.replicate 64 1 }
     let s := { ring4 with utr := { ring4.utr with chains := [c], reds := [{ seq := 9 }] } }
     findChain s (fhdrOf f.hdr).src = some c ∧ (findRed s c.entry c.seq).isSome = true ∧
     c.inBuf.length + (payBytes f).length < chainRec c.hdr ∧ (fhdrOf f.hdr).last = false ∧ findChain ring4 (fhdrOf f.hdr).src = none) ∧
    (let f := flit 0x30 5 0 0xF 1 (2 ^ 64 * 4) []
     (fhdrOf f.hdr).epoch = 4 ∧ epochNow ring4 < (fhdrOf f.hdr).epoch ∧ 4 ≤ epochNow (regSet ring4 (utrCom 0xC) 4)) ∧
    (let f := flit 0x31 5 0 1 1 (2 * 2 ^ 16) []
     (fhdrOf f.hdr).src ≠ ring4.glb.rank ∧ newer ring4 (fhdrOf f.hdr).src (fhdrOf f.hdr).seq = true ∧ leAt (payBytes f) 0 1 = 0 ∧
     newer { ring4 with utr := { ring4.utr with notices := sset [] 2 { seq := 1 } } } (fhdrOf f.hdr).src (fhdrOf f.hdr).seq = false) ∧
    castNext ring4 (some (3, 0, 0)) = [] ∧
    (let s := ringQueue { started := true, next := 5 }
     copies s 70 = true ∧ (rq s 70).passing = false ∧ (rq s 70).started = true ∧ (rq s 70).gap = false ∧ (rq s 70).next = 5 ∧
     payPoison (flit 1 0 0 5 1 (2 ^ 11 + 2 ^ 12) [1]) = [] ∧ (fhdrOf (flit 1 0 0 5 1 (2 ^ 11) [1]).hdr).first = true ∧
     (fhdrOf (flit 1 0 0 5 1 (2 ^ 11 + 2 ^ 12) [1]).hdr).last = true ∧ (rq s 70).next ≠ (fhdrOf (flit 1 0 0 6 1 0 [1]).hdr).seq) := by decide +kernel

/-! ## Receiver units -/

/-- Unit 0 enabled with stream 0 as given. -/
def unit0 (x : Stream) : State := { q3 [] up with rxus := sset [] 0 { en := { en := true }, linkUp := true, phase := true, streams := sset [] 0 x } }
/-- A run of the slot descriptor above, owned by queue 3. -/
def run0 : SlotRun := { uid := 4, q := 3, desc := slotd 0, left := 1 }

theorem witness_SlotEvents :
    (flowB (unit0 { run := some run0 }) = true ∧ 0 ∈ strobedBy up 0 ∧ 1 ∉ strobedBy up 0 ∧ 0 ∈ localsOf up 0 ∧ 0 < run0.left ∧
      unitOn (unit0 {}) 0 = true ∧ regBit (regSet up watchCfg 4) watchCfg 2 = true ∧ regBit up watchCfg 2 = false) ∧
    (let s := regSet up watchCfg 0x204
     0 + 1 < regField s watchCfg 23 8 ∧ regField s watchCfg 23 8 ≤ sget 0 { s with watchLines := sset [] 0 1 }.watchLines 0 + 1) ∧
    (({ samples := 40 } : Stream).agc.found = [] ∧ leAt run0.desc 0x14 4 = 0 ∧ ({} : Task).current = none ∧ ({} : Task).dets = []) ∧
    (let s := unit0 { tasks := [{ closed := true }, { stop := some 5 }, {}] }
     (stream s 0 0).tasks = [{ closed := true }] ++ ({ stop := some 5 } : Task) :: [{}]) ∧
    ((stream up 0 0).run = none ∧ (stream up 0 0).tasks = []) ∧
    (let t : Task := { closed := true, ended := true, stop := some 5 }
     let s := unit0 { run := some { run0 with desc := (slotd 0).set 7 0 }, tasks := [t] }
     (stream s 0 0).tasks = [t] ∧ (ctx s 0 0).out = [] ∧ sdLlr ((slotd 0).set 7 0) = false ∧ s.quads = [] ∧
     noteOverrun (stream s 0 0) (capSamples s 0 0) t = t ∧ mapped s (leAt (slotd 0) 0x40 8 + 32 * (taskIndex run0 t % max 1 (leAt (slotd 0) 0x48 2))) 32 = true) ∧
    (let r := { run0 with desc := ((slotd 0).set 9 1).set 8 0 }
     let t : Task := { stop := some 5 }
     let s := unit0 { run := some r, tasks := [t] }
     sdDropLate r.desc = true ∧ taskLate s 0 r t = true ∧ r.void = false ∧ s.cmds = [] ∧ sdDropLate run0.desc = false ∧ extractsDue s 0 0 = 0) ∧
    (let r := { run0 with desc := (((slotd 0).set 7 0).set 9 1).set 8 0 }
     let j : Job := { tk := 9, addr := 0x10000, block := padTo 64 [4] }
     let s := { up with rxus := sset [] 0 { rex := { en := true }, ctxs := sset [] 0 { out := [(9, 3)], jobs := [j] }, streams := sset [] 0 { run := some r, tasks := [{}] } } }
     sdDropLate r.desc = true ∧ taskLate s 0 r {} = true ∧ extractsDue s 0 0 = 1) := by decide +kernel

theorem witness_LinkAndCapture :
    (let s := unit0 {}
     let a := ringAt s 0 0 + 4 * ((stream s 0 0).samples % max 1 (capSamples s 0 0))
     flowB s = true ∧ unitOn s 0 = true ∧ (rxu s 0).linkUp = true ∧ localsOf s 0 = [0] ∧ nth [] ([[7]] : List (List Word)) 0 = [7] ∧ s.quads = [] ∧
     mapped s a 4 = true ∧ a + 4 ≤ 2 ^ 63) ∧
    (let s := { up with rxus := sset [] 0 { en := { en := true }, phase := true } }
     unitOn s 0 = true ∧ (rxu s 0).linkUp = false ∧ (rxu s 0).phase = true) ∧
    (unitOn up 0 = false ∧ capturing up 0 = false ∧ (rxu up 0).linkUp = false ∧ (rxu up 0).phase = false) ∧
    (let s := { up with rxus := sset [] 0 { en := { disabling := true } } }
     unitOn s 0 = false ∧ capturing s 0 = true) ∧
    capturing (unit0 {}) 0 = true ∧
    (let r := { run0 with desc := (slotd 0).set 0x14 9 }
     let x : Stream := { run := some r, tasks := [{ stop := some 5 }], samples := 14 }
     (x.tasks.map (·.stop)) = [some 5] ∧ 5 + leAt r.desc 0x14 4 ≤ x.samples) := by decide +kernel

/-- The least and the greatest gain bound the loop's step, at the ends of the window's range. -/
theorem witness_GainControl :
    ((stream up 0 0).agc.wins = [] ∧ (stream up 0 0).agc.found = [] ∧ (stream up 0 0).agc.frozen = false ∧ (rxu up 0).gcpCur = none ∧ unitOn up 0 = false) ∧
    (let s := unit0 { agc := { wins := [(100, 0)], found := [5], g := 3 } }
     flowB s = true ∧ (stream s 0 0).agc.wins = [(100, 0)] ∧ fieldOf (regGet s (agcReg 0 0 0)).toNat 1 0 ≠ 2 ∧ (stream s 0 0).agc.found = [5] ∧
     (stream s 0 0).agc.cls = 0) ∧
    (let s := unit0 { run := some run0, tasks := [{ start := 5 }], agc := { found := [5], ctl := 2 } }
     (stream s 0 0).agc.found = [5] ∧ (stream s 0 0).agc.cls ≠ 0 ∧ (stream s 0 0).tasks = [{ start := 5 }] ∧ (0 : Nat) < maxMsg (stream s 0 0)) ∧
    (let s := regSet (unit0 { samples := 40, agc := { frozen := true, release := some 40, frozenAt := 30, blank := some 40 } }) (agcReg 0 0 0x14) 10
     (stream s 0 0).agc.frozen = true ∧ (stream s 0 0).agc.release = some 40 ∧ 40 ≤ (stream s 0 0).samples ∧
     regField s (agcReg 0 0 0x14) 19 0 ≠ 0 ∧ (stream s 0 0).agc.frozenAt + regField s (agcReg 0 0 0x14) 19 0 ≤ (stream s 0 0).samples ∧
     (stream s 0 0).agc.blank = some 40) ∧
    (let s := unit0 { samples := 39, agc := { frozen := true, release := some 40, blank := some 40 } }
     (stream s 0 0).samples < 40) ∧
    (let s := unit0 { samples := 3, agc := { found := [5], lateFreeze := true, release := some 0, frozenAt := 3 } }
     (stream s 0 0).agc.found = [5] ∧ (stream s 0 0).agc.cls = 0 ∧ (stream s 0 0).agc.lateFreeze = true ∧ (stream s 0 0).agc.frozen = false ∧
     (stream s 0 0).agc.release = some 0 ∧ 0 ≤ (stream s 0 0).samples ∧ (stream s 0 0).samples < (stream (unit0 { agc := { release := some 4 } }) 0 0).agc.release.getD 0) ∧
    (let s := regSet (unit0 { samples := 3, agc := { frozenAt := 3 } }) (agcReg 0 0 0x14) 1
     (stream s 0 0).samples < (stream s 0 0).agc.frozenAt + regField s (agcReg 0 0 0x14) 19 0) ∧
    (let s := { unit0 { agc := { found := [5] } } with rxus := sset [] 0 { en := { en := true }, gcpCur := some (0, 9), streams := sset [] 0 { agc := { found := [5], lateFreeze := false } } } }
     (rxu s 0).gcpCur = some (0, 9) ∧ (stream s 0 0).agc.found = [5] ∧ (stream s 0 0).agc.lateFreeze = false) ∧
    (let s := unit0 { agc := { pend := some 9 } }
     unitOn s 0 = true ∧ (rxu s 0).gcpCur = none ∧
     nextAfter (rxu s 0).gcpLast ((List.range 8).filter fun k => (stream s 0 k).agc.pend.isSome) = some 0) ∧
    (let s := { unit0 {} with rxus := sset [] 0 { en := { en := true }, gcpCur := some (0, 9) } }
     (rxu s 0).gcpCur = some (0, 9)) ∧
    (fieldOf (0x2000 : Word).toNat 7 0 ≤ fieldOf (0x2000 : Word).toNat 15 8 ∧ 0 < fieldOf (0x40000 : Word).toNat 25 18) := by decide +kernel

/-- Unit 0 with context 2 running over registers a0 and a1 given, its stream as given. -/
def core (k : Ctx) (x : Stream) (s : State) : State :=
  { s with rxus := sset [] 0 { en := { en := true }, ctxs := [(2, k)], streams := sset [] 2 x } }
/-- A running context with x10 and x11 set and some tickets outstanding. -/
def ctx0 (a0 a1 : Word) (out : Nat) : Ctx :=
  { st := .running, regs := sset (sset [] 10 a0) 11 a1, pc := 0x10000, next := out, out := (List.range out).map fun i => (BitVec.ofNat 32 i, 0) }

/-- Blocks at the ends of the task region; the sixteenth ticket is taken, a seventeenth blocks. -/
theorem witness_EngineOps :
    runningOn up 0 = none ∧
    (let s := core (ctx0 0x10000 0 15) {} up
     let k := ctx s 0 2
     flowB s = true ∧ runningOn s 0 = some 2 ∧ inTask (ctxReg k 10).toNat 64 = true ∧
     localLoad s 0 (ctxReg k 10).toNat 64 = (s, some (List.replicate 64 0)) ∧
     k.out.length < Config.maxTickets ∧ (ctxReg k 11).toNat < 3 ∧ (ctxReg k 10).toNat % 64 = 0 ∧
     opCheck (newTicket s 0 2 10 0).1 0 2 0 (List.replicate 64 0) = .ok) ∧
    (let s := core (ctx0 0x10000 0 15) {} up
     let s := { s with rxus := sset [] 0 { rxu s 0 with bad := [0x10000] } }
     (localLoad s 0 0x10000 64).2 = none ∧ (localLoad s 0 0x10040 64).2.isSome = true) ∧
    (inTask 0x3FFC0 64 = true ∧ inTask 0x3FFC1 64 = false ∧ inTask 0xFFFF 64 = false ∧ Config.maxTickets ≤ (ctx0 0 0 16).out.length) ∧
    (let s := core (ctx0 0x10000 3 0) {} { up with rxus := [] }
     let s := { s with rxus := sset [] 0 { rxu s 0 with mem := mset [] 0x10000 6 } }
     jobOk (newTicket s 0 2 10 3).1 0 2 (localRead s 0 0x10000 64) = true) ∧
    (outcomeOf (ctx0 0 0 1) 0 = none ∧ outcomeOf (ctx0 0 0 1) 1 = some 0xFF ∧ outcomeOf { next := 1 } 0 = some 0xFE ∧
      outcomeOf { next := 1, outcomes := [(0, 7)] } 0 = some 7) ∧
    (mayTalk 0 1 = false ∧ mayTalk 0 0x23 = true ∧ mwaitHolds up 0 0x23 = false ∧ mwaitHolds up 0 0x123 = true) ∧
    (let b : Word := 0x80000010
     let s := core (ctx0 0x10010 b 0) {} { up with ctxQueue := sset [] 2 3 }
     let s := { s with rxus := sset [] 0 { rxu s 0 with mem := mwrite [] 0x10000 (toLe 8 0x3000) } }
     let t := (newTicket s 0 2 10 4).1
     inTask (0x10010 - 16) (fieldOf b.toNat 12 0 + 16) = true ∧ (localLoad s 0 (0x10010 - 16) 16).2 = some (toLe 16 0x3000) ∧
     fieldOf b.toNat 12 0 = 16 ∧ reaches t (runReach t 0 2) 0x3000 16 = true ∧ reaches t (runReach t 0 2) 0x10000000 16 = false ∧
     s.quads = [] ∧ ∀ x ∈ rangeQuads 0x10000 16, x ∉ (rxu s 0).bad) ∧
    (let b : Word := 64
     let s := core (ctx0 0x10000 b 0) {} (target 0 { up with ctxQueue := sset [] 2 3 })
     let s1 := (newTicket s 0 2 10 5).1
     let cmd : Cmd := { uid := s.nextUid, src := .ticket 0 2 0, op := 12, slot := enqSlot (fieldOf b.toNat 15 0) (fieldOf b.toNat 24 16 + 1), data := List.replicate 64 0 }
     let s2 := { s1 with cmds := s1.cmds ++ [cmd], nextUid := s1.nextUid + 1 }
     inTask 0x10000 (enqLen b) = true ∧ (localLoad s 0 0x10000 (enqLen b)).2 = some (List.replicate 64 0) ∧
     b.toNat < 2 ^ 25 ∧ fieldOf b.toNat 24 16 < 256 ∧ fieldOf b.toNat 15 0 < 16384 ∧ ctxOwner s 0 2 = 3 ∧
     enqueuePriv s1 3 (enqSlot (fieldOf b.toNat 15 0) (fieldOf b.toNat 24 16 + 1)) = false ∧
     enqueueOk s2 (fieldOf b.toNat 15 0) (fieldOf b.toNat 24 16 + 1) = true ∧ ticketWaits s2 0 2 0 = false) := by decide +kernel

theorem witness_ContextServices :
    (flowB up = true ∧ runningOn up 0 = none) ∧
    (let s := core (ctx0 3 0 0) { tasks := [{}, {}] } up
     flowB s = true ∧ runningOn s 0 = some 2 ∧ ((rxu s 0).ctxs.all fun x => x.2.st != .ready) = true ∧ (stream s 0 2).tasks = {} :: [{}] ∧
     bitOf (ctxReg (ctx s 0 2) 10).toNat 0 = true) ∧
    bitOf (ctxReg (ctx (core (ctx0 6 0 0) {} up) 0 2) 10).toNat 0 = false ∧
    ((rxu (core (ctx0 0 0 0) {} up) 0).ctxs = [(2, ctx0 0 0 0)] ∧ (ctx0 0 0 0).st = .running) ∧
    (let s := core { st := .ready } {} up
     runningOn s 0 = none ∧ nextAfter (rxu s 0).lastCtx (((rxu s 0).ctxs.filter fun x => x.2.st == .ready).map (·.1)) = some 2) := by decide +kernel

/-- Unit 0's context 2 with one job of a kind in its block, its run and its task as given. -/
def jobbed (block : List Byte) (r : SlotRun) (t : Task) (samples : Nat) : State :=
  core { st := .running, out := [(9, 3)], jobs := [{ tk := 9, addr := 0x10000, block := padTo 64 block }] } { run := some r, tasks := [t], samples := samples } up

theorem witness_UnitJobs :
    (let k : Ctx := { st := .blocked (.wait 5 9), out := [(9, 3)], next := 10 }
     let s := { core k {} up with ticketsReady := [{ u := 0, c := 2, n := 9 }] }
     flowB s = true ∧ (s.ticketsReady.find? fun t => t.u == 0 && t.c == 2 && t.n == 9) = some { u := 0, c := 2, n := 9 } ∧ ticketWaits s 0 2 9 = false ∧
     (ctx s 0 2).cal = none ∧ (rxu s 0).ctxs = [(2, k)] ∧ k.recent 9 = true) ∧
    (let s := core { st := .running, out := [(8, 3), (9, 3)] } {} up
     ((rxu s 0).ctxs.all fun y => y.2.st == .none || y.2.st == .running) = true ∧ ticketWaits s 0 2 9 = true) ∧
    (∀ k : Fin 6, jobTurn up 0 2 9 (k.val + 1) = none) ∧
    (∀ k : Fin 6, (jobTurn (jobbed [BitVec.ofNat 8 (k.val + 1)] run0 {} 0) 0 2 9 (k.val + 1)).isSome = true) ∧
    (let s := jobbed [1] run0 { dets := [{ at_ := 7 }] } 0
     (headTask s 0 2).dets = [{ at_ := 7 }] ∧ (headTask (jobbed [1] run0 { closed := true } 0) 0 2).closed = true ∧
     (headTask (jobbed [1] run0 {} 0) 0 2).dets = []) ∧
    (sget [] (rxu (jobbed [2] run0 {} 0) 0).eng 2 = []) ∧
    (let r := { run0 with desc := (slotd 0).set 0x4C 80 }
     let j : Job := { tk := 9, addr := 0x10000, block := padTo 64 ([4, 0, 0, 0] ++ toLe 4 64 ++ toLe 8 0x3000) }
     let s := jobbed ([4, 0, 0, 0] ++ toLe 4 64 ++ toLe 8 0x3000) r {} 0
     extractorTakes s 0 2 j = false ∧
     (let s := { s with rxus := sset [] 0 { rxu s 0 with rex := { en := true } } }
      jobTurn s 0 2 9 4 = some j ∧ (headTask s 0 2).lost = false ∧ extractorTakes s 0 2 j = true ∧ sdLlr r.desc = true ∧
      reaches s (runReach s 0 2) 0x3000 64 = true ∧ (headTask s 0 2).llrUsed + (16 + alignUp 64 16) ≤ leAt r.desc 0x4C 4 ∧
      (readMem s r.q 0xF0 0x3000 64).2 = { bytes := List.replicate 64 0 })) ∧
    (let s := jobbed ([5, 0, 0, 0] ++ toLe 4 1 ++ toLe 8 0 ++ toLe 8 0x3000) run0 {} 0
     (ctx s 0 2).cal = none ∧ reaches s (runReach s 0 2) 0x3000 8 = true ∧ sdCal run0.desc = false ∧ reaches s (runReach s 0 2) 0x10000000 8 = false) ∧
    (let s := jobbed ([6, 0, 0, 0, 0, 0, 0, 0] ++ toLe 8 40) run0 {} 40
     leAt (padTo 64 ([6, 0, 0, 0, 0, 0, 0, 0] ++ toLe 8 40)) 8 8 = 40 ∧ (headTask s 0 2).start + 40 ≤ (stream s 0 2).samples ∧
     (stream (jobbed [6] run0 {} 39) 0 2).samples < (headTask s 0 2).start + 40 ∧
     (stream { s with rxus := sset [] 0 { streams := sset [] 2 { agc := { frozen := true } } } } 0 2).agc.frozen = true) := by decide +kernel

/-- An extraction program of one entry: sixteen payload bits of the message into feature 0 of the schema above, into queue 3. -/
def xprg0 : List Byte := toLe 4 0x47525058 ++ toLe 2 1 ++ toLe 2 1 ++ toLe 4 77 ++ toLe 2 3 ++ toLe 2 0 ++ toLe 8 0x6000 ++ toLe 8 0 ++
  (toLe 2 0 ++ toLe 1 16 ++ toLe 1 0 ++ toLe 2 0 ++ toLe 2 0 ++ toLe 8 0)
theorem witness_UnitJobs_extract :
    (let r := { run0 with desc := ((slotd 0).set 7 0).set 0x29 0x50 }
     let j : Job := { tk := 9, addr := 0x10000, block := padTo 64 ([4, 0, 0, 0] ++ toLe 4 16 ++ toLe 8 0x3000) }
     let s := { up with rxus := sset [] 0 { rex := { en := true }, ctxs := sset [] 0 { st := .running, out := [(9, 3)], jobs := [j] }, streams := sset [] 0 { run := some r, tasks := [{}] } } }
     let s := regSet (regSet (at_ 0x5000 xprg0 (at_ 0x6000 schema1 (withQ { st := .active, en := true } s))) (qfeReg 3 0x10) 0x24) (qfeReg 3 0x24) 0x300
     let t := headTask s 0 0
     jobTurn s 0 0 9 4 = some j ∧ t.lost = false ∧ leAt r.desc 0x28 8 = 0x5000 ∧ sdLlr r.desc = false ∧ extractorTakes s 0 0 j = true ∧
     extractFirst s 0 = some (0, 9) ∧ reaches s (runReach s 0 0) 0x3000 2 = true ∧ (readMem s r.q 0xF0 0x3000 2).2 = { bytes := [0, 0] } ∧
     ingestOk s 3 = true ∧ 0 < ringRoom s 3 ∧
     (match (readXprg s (runReach s 0 0) 0 0x5000).2 with
      | some x => x.queue == 3 && !bitOf x.options 0 &&
        !(buildRecord x (msgTag t.n (leAt r.desc 6 1) (extractMsg t).seq) { psdu := [0, 0], bits := 16, fcsCheck := false, fcsOk := fcsMatches [0, 0] 16, margin := leAt j.block 0x10 4, mean := leAt j.block 0x14 4, least := leAt j.block 0x18 4, gain := (extractMsg t).gain, strm := leAt r.desc 6 1 }).2
      | none => false) = true) := by decide +kernel
/-- The earlier decoding is extracted first (R82, log 74). -/
theorem test_extraction_order :
    (let r := { run0 with desc := (slotd 0).set 7 0 }
     let k := fun tk : Word => ({ out := [(tk, 3)], jobs := [{ tk := tk, addr := 0x10000, block := padTo 64 [4] }] } : Ctx)
     let s := { up with pleach := up.pleach.set 0x911 1, rxus := sset [] 0 { rex := { en := true }, ctxs := sset (sset [] 0 (k 9)) 1 (k 8), streams := sset (sset [] 0 { run := some r, tasks := [{ decoded := 2 }] }) 1 { run := some r, tasks := [{ decoded := 1 }] } } }
     extractFirst s 0 = some (1, 8)) := by decide +kernel

/-- Queue 3 with its fields and its stall settings in force. -/
def stallReg (v : Word) (k : Queue) : State := withQ { k with stallCfg := v } up

theorem witness_StallsAndDestroys :
    (flowB up = true ∧ (queue up 3).stallDue = false ∧ (queue up 3).acting ≠ .drain ∧ (queue up 3).acting ≠ .destroy) ∧
    (let s := stallReg 5 { st := .active, en := true, stallDue := true, quiet := 5 }
     (queue s 3).stallDue = true ∧ stallThr s 3 ≤ (queue s 3).quiet ∧ (queue s 3).acting = .none ∧ (queue s 3).st = .active ∧
     bitOf (stallCfg s 3) 9 = false ∧ bitOf (stallCfg s 3) 8 = false ∧ bitOf (stallCfg (stallReg 0x105 {}) 3) 8 = true) ∧
    (let s := stallReg 0x205 { st := .active, en := true, stallDue := true, quiet := 5 }
     let s := { s with hedges := sset [] 0 { en := { en := true }, skids := sset [] 0 (List.replicate 32 {}) }, steps := [step4 [0, 1]] }
     (tryDetach (modQueue s 3 fun k => { k with stallDue := false }) 3).isSome = true) ∧
    (let s := stallReg 5 { st := .stalled, acting := .drain, watch := 5 }
     (queue s 3).acting = .drain ∧ (queue s 3).acked = false ∧ unitRuns s 3 = false ∧ s.cmds = [] ∧ s.steps = [] ∧ s.hedges = [] ∧ s.arrays = [] ∧
     s.rxus = [] ∧ (queue s 3).en = false ∧ (queue s 3).pendOn = false ∧ (queue s 3).wasDis = false ∧ (queue s 3).indirects = [] ∧ runsOf s 3 = [] ∧
     0 < stallThr s 3 ∧ stallThr s 3 ≤ (queue s 3).watch) ∧
    (let s := at_ 0x1000 (slotOf 8 7 1 0 0) (withQ { st := .retiring, acting := .destroy, pi := 1 } up)
     (queue s 3).acting = .destroy ∧ unitRuns s 3 = false ∧ isRecord s 3 = false ∧ (queue s 3).pi = (queue s 3).ci + 1 ∧ (queue s 3).origin = none ∧
     (queue s 3).noFenceErr = false ∧ (readMem s 3 0xFC (slotAddr s 3 (queue s 3).ci) 64).2 = { bytes := slotOf 8 7 1 0 0 } ∧
     (slotOf 8 7 1 0 0).length = 64 ∧ slotOp (slotOf 8 7 1 0 0) = 8 ∧ slotCheck s 3 false (slotOf 8 7 1 0 0) = .ok ∧ mayFence s 3 1 = true) ∧
    (queue (withQ { st := .retiring, acting := .destroy, pi := 1, ci := 1, origin := some 6 } up) 3).origin = some 6 ∧
    (let s := { hedged { ready0 with run := some { uid := 4 } } (step4 [0]) with queues := sset [] 3 { st := .retiring, acting := .destroy, watch := 5, stallCfg := 5 } }
     0 < stallThr s 3 ∧ stallThr s 3 ≤ (queue s 3).watch ∧ unitRuns s 3 = true) := by decide +kernel

end Sys2Proof.Tests
end

section
/-! The proofs of the family `00_scope.md`: what the state right after reset holds (O5), and the accesses of BAR0's registers (O19). -/

namespace Sys2Proof.Machine

/-! ## The state right after reset -/

/-- Settles O5: every table of the reset state lists nothing, so each entry reads its default. -/
theorem resetState : Obligations.ResetState := by
  unfold Obligations.ResetState
  have hcanonical : State.reset.canonical := ⟨rfl, rfl⟩
  refine ⟨⟨rfl, hcanonical⟩, rfl, rfl, ?queues, ?arrays, ?fences, ?hedges, ?memory, ?chips, rfl⟩
  case queues | arrays | fences | hedges => exact fun _ => ⟨rfl, rfl⟩
  case memory | chips => exact fun _ => rfl

/-! ## Bytes on the bus -/

/-- The `k` bytes of a number depend on its value modulo `256 ^ k` alone. -/
theorem toLe_mod (k n : Nat) : toLe k (n % 256 ^ k) = toLe k n := by
  induction k generalizing n with
  | zero => rfl
  | succ k ih =>
    have hlow : BitVec.ofNat 8 (n % 256 ^ (k + 1)) = BitVec.ofNat 8 n := by
      apply BitVec.eq_of_toNat_eq
      simp only [BitVec.toNat_ofNat]
      exact Nat.mod_mod_of_dvd n (Dvd.intro_left (256 ^ k) rfl)
    have hrest : n % 256 ^ (k + 1) / 256 = n / 256 % 256 ^ k := by
      rw [Nat.pow_succ', Nat.mod_mul_right_div_self]
    simp only [toLe, hlow, hrest, ih]

/-! ## A request to BAR0 (R6, R408, R409) -/

theorem bar0Offset_iff (off : Nat) : bar0Offset off = true ↔ off < 0x2000000 ∧ off % 4 = 0 := by simp [bar0Offset]

theorem bar0_aligned {off : Nat} (s : State) (isRead : Bool) (f : State → State) (h : bar0Offset off = true) : bar0 s off isRead f = f s := by
  rw [bar0Offset_iff] at h
  rw [bar0, if_neg (by omega), if_neg (by omega)]

theorem bar0_misaligned {off : Nat} (s : State) (isRead : Bool) (f : State → State) (h : off < 0x2000000) (ho : off % 4 ≠ 0) :
    bar0 s off isRead f = barRefusedRun s isRead := by
  rw [bar0, if_neg (by omega), if_pos ho]

/-- The host's reads are served only where the device is neither off nor in reset. -/
theorem hostReads_dev {s : State} (h : hostReads s = true) : ¬(s.glb.dev = .off ∨ s.glb.dev = .reset) := by
  rintro (hd | hd) <;> simp [hostReads, hd] at h

/-- A refused request sets BAD_SIZE, and beside it reaches at most the bus and the count of free values drawn. -/
theorem barRefusedRun_frame {s : State} (h : hostReads s = true) (isRead : Bool) :
    ∃ tick bus ep, barRefusedRun s isRead = { regOr s (hifReg 4) 1 with freeTick := tick, busData := bus, busEp := ep } := by
  rw [barRefusedRun, if_neg (hostReads_dev h)]
  cases isRead with
  | true => exact ⟨_, _, _, rfl⟩
  | false => exact ⟨_, _, _, rfl⟩

/-- Bit 0 of a register reads 1 once it was set. -/
theorem regBit_regOr_one (s : State) (o : Nat) : regBit (regOr s o 1) o 0 = true := by
  simp [regBit, regNat, bitOf, regGet_regOr]

/-- What a misaligned request to a served BAR0 answers (R409). -/
theorem bar0_misaligned_answers {s : State} (hs : s.rested) (hr : hostReads s = true) {off : Nat} (h : off < 0x2000000) (ho : off % 4 ≠ 0)
    (isRead : Bool) (f : State → State) : ∃ t, done s (bar0 s off isRead f) = .next t ∧
      regBit t (hifReg 4) 0 = true ∧ t.glb = s.glb ∧ t.queues = s.queues ∧ t.mem = s.mem ∧
        ∀ o, o ≠ hifReg 4 → regGet t o = regGet s o := by
  obtain ⟨tick, bus, ep, hrun⟩ := barRefusedRun_frame hr isRead
  have hframe := regOr_frame s (hifReg 4) 1
  rw [bar0_misaligned s isRead f h ho, hrun]
  refine done_answers ?_ fun w => ⟨regBit_regOr_one s (hifReg 4), ?_, ?_, ?_, fun o hne => regGet_regOr_ne s _ o 1 (Ne.symm hne)⟩
  · rw [hframe]; exact hs
  · rw [hframe]
  · rw [hframe]
  · rw [hframe]

/-! ## A served register read (R8, R277, R298) -/

/-- The state with the value of a register on the bus: what a served read delivers, before the read has its effect. -/
def delivered (s : State) (off : Nat) : State :=
  { s with busData := toLe 4 (BitVec.ofNat 32 (regView s off)).toNat, busEp := false }

theorem regReadRun_served {s : State} (hr : hostReads s = true) (off : Nat) : regReadRun s off = readEffect (delivered s off) off := by
  simp [regReadRun, regRead, hr, answer, delivered]

theorem exec_rcCounterRead {off : Nat} (s : State) (h : bar0Offset off = true) : exec (.rcCounterRead off) s = done s (regReadRun s off) :=
  congrArg (done s) (bar0_aligned s true _ h)

theorem exec_latchingRead {off : Nat} (s : State) (h : bar0Offset off = true) : exec (.latchingRead off) s = done s (regReadRun s off) :=
  congrArg (done s) (bar0_aligned s true _ h)

/-- A register that clears on reading leaves 0. -/
theorem readEffect_rc {s : State} {off : Nat} (hr : hostReads s = true) (h : rcReg off = true) : readEffect s off = regSet s off 0 := by
  simp [readEffect, hr, h]

/-- Below the hedges' registers none clears on reading. -/
theorem rcReg_low {off : Nat} (h : off < 0x800000) : rcReg off = false := by
  unfold rcReg utrCom memReg macReg
  rw [if_neg (by omega), if_neg (by omega), if_neg (by omega), if_neg (by omega), if_neg (by omega), if_neg (by omega)]

/-- A read of `MGT_MBX_RX_WORD` of the host's channel from `k` takes its word. -/
theorem readEffect_word {s : State} (hr : hostReads s = true) {k : Nat} (hk : k < 0x40) :
    readEffect s (0x120048 + 0x100 * k) = wordTaken s k 0 := by
  have hix : (0x120048 + 0x100 * k - 0x120000) / 0x100 = k := by omega
  have hrange : 0x120000 ≤ 0x120048 + 0x100 * k ∧ 0x120048 + 0x100 * k < 0x130000 ∧ (0x120048 + 0x100 * k) % 0x100 = 0x48 := by omega
  simp only [readEffect, hr, rcReg_low (show 0x120048 + 0x100 * k < 0x800000 by omega), hrange, hix]
  simp

/-- A read of the low word of a fence's value latches the high word. -/
theorem readEffect_fenceLow {s : State} (hr : hostReads s = true) {f : Nat} (hf : f < 4096) :
    readEffect s (0x400000 + 16 * f) = regSet s (0x400004 + 16 * f) (BitVec.ofNat 32 ((fence s f).value.toNat / 2 ^ 32)) := by
  have hix : (0x400000 + 16 * f - 0x400000) / 16 = f := by omega
  have hlatch : latchOf s (0x400000 + 16 * f) = some (0x400004 + 16 * f, (fence s f).value.toNat / 2 ^ 32) := by
    rw [latchOf, if_pos (by omega), hix, show 0x400000 + 16 * f + 4 = 0x400004 + 16 * f by omega]
  have hword : ¬(0x120000 ≤ 0x400000 + 16 * f ∧ 0x400000 + 16 * f < 0x130000 ∧ (0x400000 + 16 * f) % 0x100 = 0x48) := by omega
  simp only [readEffect, hr, rcReg_low (show 0x400000 + 16 * f < 0x800000 by omega), hword, hlatch]
  simp

/-- `MGT_MBX_RX_WORD` of a channel that exists reads the channel's word. -/
theorem regView_rxWord {s : State} {k : Nat} (hk : k < 0x40) (he : chanExists s k 0 = true) :
    regView s (0x120048 + 0x100 * k) = ((chan s k 0).word.getD 0).toNat := by
  have hmgt : regView s (0x120048 + 0x100 * k) = mgtView s (0x20048 + 0x100 * k) := by
    rw [regView, if_neg (by omega), if_pos (by omega), show 0x120048 + 0x100 * k - 0x100000 = 0x20048 + 0x100 * k by omega]
  have hrx : mgtView s (0x20048 + 0x100 * k) = rxView s k 0 0x48 := by
    rw [mgtView, if_neg (by omega), if_pos (by omega), show (0x20048 + 0x100 * k - 0x20000) / 0x100 = k by omega,
      show (0x20048 + 0x100 * k) % 0x100 = 0x48 by omega]
  rw [hmgt, hrx]
  cases hw : (chan s k 0).word with
  | none => simp [rxView, he, hw]
  | some w => simp [rxView, he, hw]

/-- The low word of a fence's value. -/
theorem regView_fenceLow (s : State) {f : Nat} (hf : f < 4096) :
    regView s (0x400000 + 16 * f) = (fence s f).value.toNat % 2 ^ 32 := by
  rw [regView, if_neg (by omega), if_neg (by omega), if_neg (by omega), if_neg (by omega), if_neg (by omega), if_pos (by omega),
    show 0x400000 + 16 * f - 0x400000 = 16 * f by omega, fnwView, if_pos (by omega)]
  simp

/-- A word taken from a channel of this device: the word is gone, the blocks stay, and no other channel changes (R298). -/
theorem wordTaken_local (s : State) {k : Nat} (hk : k < 0x40) :
    (chan (wordTaken s k 0) k 0).word = none ∧ (chan (wordTaken s k 0) k 0).queue = (chan s k 0).queue ∧
      (∀ x, x ≠ chanKey k 0 → sget ({} : Chan) (wordTaken s k 0).chans x = sget ({} : Chan) s.chans x) ∧
      wordTaken s k 0 = { s with chans := (wordTaken s k 0).chans } := by
  cases hw : (chan s k 0).word with
  | none =>
    have hrun : wordTaken s k 0 = s := by simp [wordTaken, hw]
    rw [hrun]
    exact ⟨hw, rfl, fun _ _ => rfl, rfl⟩
  | some w =>
    have hrun : wordTaken s k 0 = modChan s k 0 fun c => { c with word := none } := by
      simp [wordTaken, hw, show ¬0x40 ≤ k by omega]
    rw [hrun]
    refine ⟨by simp, by simp, fun x hx => ?_, rfl⟩
    rw [modChan_chans]
    exact sget_sset_ne _ _ _ _ _ (Ne.symm hx)

/-- A read of a register that clears on reading (R8). -/
theorem rcCounterRead_clears {s : State} (hs : s.rested) (hr : hostReads s = true) {off : Nat} (ho : bar0Offset off = true)
    (h : rcReg off = true) :
    Answers (.rcCounterRead off) s fun t => t.busData = toLe 4 (BitVec.ofNat 32 (regView s off)).toNat ∧ regGet t off = 0 ∧
      (∀ o, o ≠ off → regGet t o = regGet s o) ∧ t = { s with busData := t.busData, busEp := false, regs := t.regs, hif := t.hif } := by
  unfold Answers
  rw [exec_rcCounterRead s ho, regReadRun_served hr, readEffect_rc (s := delivered s off) hr h]
  exact done_answers hs fun w => ⟨rfl, regGet_regSet_same _ off 0, fun o hne => regGet_regSet_ne _ off o 0 (Ne.symm hne), rfl⟩

/-- A read of the word of a host channel (R298). -/
theorem rcCounterRead_takesWord {s : State} (hs : s.rested) (hr : hostReads s = true) {k : Nat} (hk : k < 0x40)
    (he : chanExists s k 0 = true) :
    Answers (.rcCounterRead (0x120048 + 0x100 * k)) s fun t =>
      t.busData = toLe 4 (((chan s k 0).word.getD 0).toNat) ∧ (chan t k 0).word = none ∧ (chan t k 0).queue = (chan s k 0).queue ∧
      (∀ x, x ≠ chanKey k 0 → sget ({} : Chan) t.chans x = sget ({} : Chan) s.chans x) ∧
      t = { s with busData := t.busData, busEp := false, chans := t.chans, hif := t.hif } := by
  have ho : bar0Offset (0x120048 + 0x100 * k) = true := by rw [bar0Offset_iff]; omega
  have hbus : (delivered s (0x120048 + 0x100 * k)).busData = toLe 4 (((chan s k 0).word.getD 0).toNat) := by
    simp only [delivered, regView_rxWord hk he, BitVec.ofNat_toNat, BitVec.setWidth_eq]
  obtain ⟨hword, hqueue, hother, hframe⟩ := wordTaken_local (delivered s (0x120048 + 0x100 * k)) hk
  unfold Answers
  rw [exec_rcCounterRead s ho, regReadRun_served hr, readEffect_word (s := delivered s (0x120048 + 0x100 * k)) hr hk]
  refine done_answers (by rw [hframe]; exact hs) fun w => ⟨?_, hword, hqueue, hother, ?_⟩
  · rw [hframe]; exact hbus
  · rw [hframe]; rfl

/-- A read of the low word of a fence's value (R277). -/
theorem latchingRead_fenceLow {s : State} (hs : s.rested) (hr : hostReads s = true) {f : Nat} (hf : f < 4096) :
    Answers (.latchingRead (0x400000 + 16 * f)) s fun t =>
      t.busData = toLe 4 (fence s f).value.toNat ∧
      regGet t (0x400004 + 16 * f) = BitVec.ofNat 32 ((fence s f).value.toNat / 2 ^ 32) ∧
      (∀ o, o ≠ 0x400004 + 16 * f → regGet t o = regGet s o) ∧
      t = { s with busData := t.busData, busEp := false, regs := t.regs, hif := t.hif } := by
  have ho : bar0Offset (0x400000 + 16 * f) = true := by rw [bar0Offset_iff]; omega
  have hbus : (delivered s (0x400000 + 16 * f)).busData = toLe 4 (fence s f).value.toNat := by
    simp only [delivered, regView_fenceLow s hf, BitVec.toNat_ofNat, Nat.mod_mod]
    exact toLe_mod 4 _
  unfold Answers
  rw [exec_latchingRead s ho, regReadRun_served hr, readEffect_fenceLow (s := delivered s (0x400000 + 16 * f)) hr hf]
  exact done_answers hs fun w =>
    ⟨hbus, regGet_regSet_same _ _ _, fun o hne => regGet_regSet_ne _ _ o _ (Ne.symm hne), rfl⟩

/-! ## The write of a queue's quantum (R276) -/

theorem qfeWrite_quantum (s : State) (q v : Nat) :
    qfeWrite s q 0x30 v = if v % 2 ^ 16 = 0 then s else regSet s (qfeReg q 0x30) (BitVec.ofNat 32 (v &&& 0xFFFF)) := rfl

/-- A served write of `QFE_SCHED_QUANTUM`: 0 is ignored, any other value of the field is held. -/
theorem exec_quantumWrite {s : State} (hw : hostWrites s = true) (q : QIx) (v : Word) :
    exec (.registerWrite (qfeReg q.val 0x30) v) s =
      done s (if v.toNat % 2 ^ 16 = 0 then s else regSet s (qfeReg q.val 0x30) (v &&& 0xFFFF)) := by
  have ho : bar0Offset (qfeReg q.val 0x30) = true := by rw [bar0Offset_iff, qfeReg]; omega
  have hput : regPut s (qfeReg q.val 0x30) v.toNat = qfeWrite s q.val 0x30 v.toNat := by
    rw [regPut, if_neg (by unfold qfeReg; omega), if_neg (by unfold qfeReg; omega), if_pos (by unfold qfeReg; omega),
      show (qfeReg q.val 0x30 - 0x200000) / 64 = q.val by unfold qfeReg; omega, show qfeReg q.val 0x30 % 64 = 0x30 by unfold qfeReg; omega]
  have hmask : BitVec.ofNat 32 (v.toNat &&& 0xFFFF) = v &&& 0xFFFF := by
    apply BitVec.eq_of_toNat_eq
    rw [BitVec.toNat_ofNat, BitVec.toNat_and]
    exact Nat.mod_eq_of_lt (lt_of_le_of_lt Nat.and_le_left v.isLt)
  have hrun : regWriteRun s (qfeReg q.val 0x30) v = if v.toNat % 2 ^ 16 = 0 then s else regSet s (qfeReg q.val 0x30) (v &&& 0xFFFF) := by
    rw [regWriteRun, hw, Bool.true_or, if_pos rfl, hput, qfeWrite_quantum, hmask]
  exact congrArg (done s) ((bar0_aligned s false _ ho).trans hrun)

/-- Settles O19, a clause for each kind of access: the register that clears, the channel's word, the misaligned request, the latched half,
and the quantum. -/
theorem registerAccesses : Obligations.RegisterAccesses := by
  unfold Obligations.RegisterAccesses
  intro s hs hr
  refine ⟨fun off ho h => rcCounterRead_clears hs hr ho h, fun k he => rcCounterRead_takesWord hs hr k.isLt he, ?misaligned,
    fun f => latchingRead_fenceLow hs hr f.isLt, fun q v hw => ⟨fun hv => ?held, fun hv => ?ignored⟩⟩
  case misaligned =>
    intro off v i hi hlt ho
    simp only [List.mem_cons, List.not_mem_nil, or_false] at hi
    obtain rfl | rfl | rfl := hi
    · exact bar0_misaligned_answers hs hr hlt ho true _
    · exact bar0_misaligned_answers hs hr hlt ho true _
    · exact bar0_misaligned_answers hs hr hlt ho false _
  case held =>
    unfold Answers
    rw [exec_quantumWrite hw, if_neg hv]
    exact done_answers hs fun w => ⟨regGet_regSet_same _ _ _, fun o hne => regGet_regSet_ne _ _ o _ (Ne.symm hne), rfl⟩
  case ignored =>
    rw [exec_quantumWrite hw, if_pos hv, done_self]

end Sys2Proof.Machine
end

section
/-! The proof of the family `01_organisation.md`: how the next ready step begins on a hedge (O45). -/

namespace Sys2Proof.Machine

/-! ## What a search reads and notes is apart from the table of steps

`beginStep` marks the step as started before it counts the searches that the step has to run; the statement counts them in the state before
the mark. The two agree because each operation that a search is made of commutes with a change of the table of steps. -/

/-- The state with another table of steps. -/
def withSteps (s : State) (l : List StepRun) : State := { s with steps := l }

theorem modStep_eq_withSteps (s : State) (uid : Nat) (f : StepRun → StepRun) :
    modStep s uid f = withSteps s (s.steps.map fun c => if c.uid == uid then f c else c) := rfl

section
variable (s : State) (l : List StepRun)

/-! ### Readers that look at other fields -/

theorem regBit_withSteps : regBit (withSteps s l) = regBit s := rfl
theorem regField_withSteps : regField (withSteps s l) = regField s := rfl
theorem regNat_withSteps : regNat (withSteps s l) = regNat s := rfl
theorem arr_withSteps : arr (withSteps s l) = arr s := rfl
theorem storeOf_withSteps : storeOf (withSteps s l) = storeOf s := rfl
theorem quadState_withSteps : quadState (withSteps s l) = quadState s := rfl
theorem quadZero_withSteps : quadZero (withSteps s l) = quadZero s := rfl
theorem hostSide_withSteps : hostSide (withSteps s l) = hostSide s := rfl
theorem mapped_withSteps : mapped (withSteps s l) = mapped s := rfl
theorem deviceBytes_withSteps : deviceBytes (withSteps s l) = deviceBytes s := rfl
theorem oddQuads_withSteps : oddQuads (withSteps s l) = oddQuads s := rfl
theorem recAddr_withSteps : recAddr (withSteps s l) = recAddr s := rfl
theorem arrOverlay_withSteps : arrOverlay (withSteps s l) = arrOverlay s := rfl
theorem matchErrs_withSteps : matchErrs (withSteps s l) = matchErrs s := rfl

/-! ### The register file -/

theorem regSet_withSteps (o : Nat) (w : Word) : regSet (withSteps s l) o w = withSteps (regSet s o w) l := rfl

theorem regOr_withSteps (o m : Nat) : regOr (withSteps s l) o m = withSteps (regOr s o m) l := by
  unfold regOr; split <;> rfl

theorem regCount_withSteps (o n : Nat) : regCount (withSteps s l) o n = withSteps (regCount s o n) l := by
  unfold regCount; split <;> rfl

/-! ### The integrity counters (R353) -/

theorem logEvent_withSteps (code source sev : Nat) (d : List Byte) :
    logEvent (withSteps s l) code source sev d = withSteps (logEvent s code source sev d) l := rfl

theorem captureErr_withSteps (store kind who a : Nat) :
    captureErr (withSteps s l) store kind who a = withSteps (captureErr s store kind who a) l := by
  unfold captureErr
  rw [regBit_withSteps]
  split
  · exact regOr_withSteps s l _ _
  · simp only [regSet_withSteps, regOr_withSteps]

theorem countCe_withSteps (store : Nat) : countCe (withSteps s l) store = withSteps (countCe s store) l := by
  simp only [countCe, regCount_withSteps, regOr_withSteps, regField_withSteps, regNat_withSteps]
  split <;> rfl

theorem countUe_withSteps (store who a : Nat) : countUe (withSteps s l) store who a = withSteps (countUe s store who a) l := by
  simp only [countUe, logEvent_withSteps, regCount_withSteps, regOr_withSteps, captureErr_withSteps]

theorem countAe_withSteps (store who a : Nat) : countAe (withSteps s l) store who a = withSteps (countAe s store who a) l := by
  simp only [countAe, logEvent_withSteps, regCount_withSteps, regOr_withSteps, captureErr_withSteps]

theorem countPoison_withSteps (store : Nat) : countPoison (withSteps s l) store = withSteps (countPoison s store) l := by
  rw [countPoison, regCount_withSteps, regOr_withSteps, countPoison]

/-! ### Reads of memory (R222, R336) -/

theorem poisonQuad_withSteps (store a : Nat) (bs : List Byte) (v : QuadState) :
    setQuad { withSteps s l with mem := mwrite (withSteps s l).mem a bs } store (a / 16) v =
      withSteps (setQuad { s with mem := mwrite s.mem a bs } store (a / 16) v) l := rfl

theorem readQuad_withSteps (who a : Nat) :
    readQuad (withSteps s l) who a = (withSteps (readQuad s who a).1 l, (readQuad s who a).2) := by
  unfold readQuad
  rw [storeOf_withSteps]
  cases storeOf s a with
  | none => rfl
  | some p =>
    dsimp only
    rw [quadState_withSteps, quadZero_withSteps]
    generalize quadState s p.1 (a / 16) = v
    split
    · rfl
    · cases classify v.poison (quadZero s a) v.err.toNat v.adx.toNat with
      | clean => rfl
      | poisoned => simp only [countPoison_withSteps]
      | ce b =>
        cases b
        · simp only [countCe_withSteps]; rfl
        · simp only [countCe_withSteps, countPoison_withSteps]; rfl
      | ue => simp only [countUe_withSteps, poisonQuad_withSteps, countPoison_withSteps]
      | ae => simp only [countAe_withSteps, countPoison_withSteps]

theorem readQuads_withSteps (who : Nat) (as : List Nat) :
    readQuads (withSteps s l) who as = (withSteps (readQuads s who as).1 l, (readQuads s who as).2) := by
  induction as generalizing s with
  | nil => rfl
  | cons a as ih => simp only [readQuads, readQuad_withSteps, ih]

/-- What a read of memory delivers. -/
theorem readMem_withSteps_snd (q who a n : Nat) : (readMem (withSteps s l) q who a n).2 = (readMem s q who a n).2 := by
  unfold readMem
  rw [hostSide_withSteps, mapped_withSteps, deviceBytes_withSteps, oddQuads_withSteps, readQuads_withSteps]
  by_cases h : isHost a = true
  · simp only [if_pos h]
    cases hostSide s q (a % 2 ^ 63) n false <;> rfl
  · simp only [if_neg h]
    cases mapped s a n <;> rfl

theorem readSlot_withSteps_snd (h p : Nat) (x : HeldRec) : (readSlot (withSteps s l) h p x).2 = (readSlot s h p x).2 := by
  simp only [readSlot, recAddr_withSteps, Rd.poison, readMem_withSteps_snd]

/-! ### Searches (R43, R86, R347) -/

theorem arrQuadRead_withSteps (store f : Nat) (zero : Bool) :
    arrQuadRead (withSteps s l) store f zero = (withSteps (arrQuadRead s store f zero).1 l, (arrQuadRead s store f zero).2) := by
  unfold arrQuadRead
  rw [quadState_withSteps]
  generalize quadState s store f = v
  dsimp only
  split
  · rfl
  · cases classify v.poison zero v.err.toNat v.adx.toNat with
    | clean => rfl
    | poisoned => simp only [countPoison_withSteps]
    | ce b => simp only [countCe_withSteps]
    | ue => simp only [countUe_withSteps, countPoison_withSteps]
    | ae => simp only [countAe_withSteps, countPoison_withSteps]

/-- A row of reads of which each commutes with the change of the table commutes with it too. -/
theorem foldl_withSteps {α β : Type} (f : State × β → α → State × β)
    (hf : ∀ (a : State × β) (x : α), f (withSteps a.1 l, a.2) x = (withSteps (f a x).1 l, (f a x).2)) (xs : List α) (a : State × β) :
    xs.foldl f (withSteps a.1 l, a.2) = (withSteps (xs.foldl f a).1 l, (xs.foldl f a).2) := by
  induction xs generalizing a with
  | nil => rfl
  | cons x xs ih => rw [List.foldl_cons, hf, ih, List.foldl_cons]

theorem searchReads_withSteps (n : Nat) (im : ArrImage) (rows : List Nat) :
    searchReads (withSteps s l) n im rows = (withSteps (searchReads s n im rows).1 l, (searchReads s n im rows).2) := by
  unfold searchReads
  rw [arrOverlay_withSteps]
  dsimp only
  rw [foldl_withSteps l _ (fun a e => by simp only [arrQuadRead_withSteps]) _ (s, false),
    foldl_withSteps l _ fun a e => by simp only [arrQuadRead_withSteps]]

theorem noteInteg_withSteps (n : Nat) : noteInteg (withSteps s l) n = withSteps (noteInteg s n) l := by
  unfold noteInteg hdgStat
  rw [regOr_withSteps]
  rfl

theorem searchOne_withSteps (sch : Schema) (n : Nat) (bs : List Byte) :
    searchOne (withSteps s l) sch n bs = (withSteps (searchOne s sch n bs).1 l, (searchOne s sch n bs).2) := by
  unfold searchOne
  simp only [arr_withSteps, matchErrs_withSteps]
  cases (arr s n).img with
  | none => rfl
  | some im =>
    dsimp only
    cases searchImage sch im (matchErrs s n) bs with
    | none => simp only [noteInteg_withSteps]
    | some hs =>
      simp only [searchReads_withSteps, noteInteg_withSteps]
      split <;> rfl

theorem searchRecord_withSteps (sch : Schema) (h i : Nat) (bs : List Byte) (sets : List (List Nat)) :
    searchRecord (withSteps s l) sch h i bs sets = (withSteps (searchRecord s sch h i bs sets).1 l, (searchRecord s sch h i bs sets).2) := by
  induction sets generalizing s with
  | nil => rfl
  | cons set sets ih =>
    simp only [searchRecord, searchOne_withSteps, arr_withSteps]
    generalize arrIx h (nth 0 set (i % max 1 set.length)) = n
    by_cases hw : (arr s n).st = .withdrawn
    · simp only [hw, if_true, ih]
    · simp only [hw, if_false, ih]
      cases (searchOne s sch n bs).2 with
      | none => rfl
      | some hs => cases (arr s n).img <;> rfl

theorem replicaSets_withSteps (sp : StepSpec) (h k : Nat) (ps : List Nat) :
    replicaSets (withSteps s l) sp h k ps = replicaSets s sp h k ps := by
  induction k generalizing ps with
  | zero => rfl
  | succ k ih =>
    cases ps with
    | nil => rfl
    | cons p ps => simp only [replicaSets, ih]; rfl

/-! ### The searches a step has to run -/

theorem passSearches_withSteps (r : StepRun) (h : Nat) (ps : List Nat) (tile : Option Nat) :
    passSearches (withSteps s l) r h ps tile = passSearches s r h ps tile := by
  simp only [passSearches, replicaSets_withSteps, readSlot_withSteps_snd]
  rfl

theorem overflowTiles_withSteps (r : StepRun) (h : Nat) (ps : List Nat) (reps : SMap Nat) :
    overflowTiles (withSteps s l) r h ps reps = overflowTiles s r h ps reps := by
  simp only [overflowTiles, replicaSets_withSteps, readSlot_withSteps_snd, searchRecord_withSteps]
  rfl

end

/-! ## A step that begins (R61, R89) -/

section
variable (s : State) (r : StepRun) (h : Nat)

/-- The run of a step that begins on hedge `h`. -/
def startedRun : Running :=
  { uid := r.uid, arrays := setOn s r h, searches := passSearches s r h (setOn s r h) none, pending := overflowTiles s r h (setOn s r h) [] }

theorem beginStep_run : (hedge (beginStep s r h) h).run = some (startedRun s r h) := by
  simp only [beginStep, hedge_modHedge_same, modStep_eq_withSteps, passSearches_withSteps, overflowTiles_withSteps, startedRun]

theorem hedge_beginStep_ne (k : Nat) (hk : h ≠ k) : hedge (beginStep s r h) k = hedge s k := by
  rw [beginStep, hedge_modHedge_ne _ _ _ _ hk]; rfl

end

/-- An owner that is told it holds its claim does hold it (R389). -/
theorem holds_askTokens {s : State} {owner c : Nat} {recv : Bool} (h : (askTokens s owner recv c).2 = true) :
    holds (askTokens s owner recv c).1 owner = true := by
  unfold askTokens at h ⊢
  by_cases hheld : holds s owner = true
  · rw [if_pos hheld]; exact hheld
  · rw [if_neg hheld] at h ⊢
    by_cases hwaits : (s.pwr.waiting.any (·.owner == owner)) = true
    · rw [if_pos hwaits] at h; nomatch h
    · rw [if_neg hwaits] at h ⊢
      dsimp only at h ⊢
      split
      next => simp [holds]
      next hrefused => rw [if_neg hrefused] at h; nomatch h

/-! ## HEDGE_STEP_START, case by case -/

section
variable {s : State} {h : Nat} {r : StepRun}

theorem stepStart_stays (hn : hedgeFree s h = false ∨ nextStep s h = none) : stepStart s h = s := by
  unfold stepStart
  rcases hn with hn | hn <;> simp [hn]

variable (hf : hedgeFree s h = true) (hn : nextStep s h = some r)
include hf hn

theorem stepStart_reloads (hd : (reloadDisplaced s r).2 = true) : stepStart s h = (reloadDisplaced s r).1 := by
  simp [stepStart, hf, hn, hd]

variable {s1 : State} (hd : (reloadDisplaced s r).2 = false)
include hd

theorem stepStart_stopped (hp : passChecks s r = (s1, false)) : stepStart s h = s1 := by
  simp [stepStart, hf, hn, hd, hp]

/-- A step that has passed its checks begins where the hedge is told that it holds its claim. -/
theorem stepStart_claims {r1 : StepRun} (hp : passChecks s r = (s1, true)) (hr : findStep s1 r.uid = some r1) :
    stepStart s h = if (claimStep s1 r1 h).2 then beginStep (claimStep s1 r1 h).1 r1 h else (claimStep s1 r1 h).1 := by
  simp [stepStart, hf, hn, hd, hp, hr]

end

/-- HEDGE_STEP_START is an event of the flows. -/
theorem exec_hedgeStepStart (h : HIx) (s : State) : exec (.hedgeStepStart h) s = flows s fun s => stepStart s h.val := rfl

/-- Settles O45, a case for each way the start can go: no start, a reload first, the checks' stop, the claim that waits, and the step that
begins; each is an equation of `stepStart`. -/
theorem stepStarts : Obligations.StepStarts := by
  unfold Obligations.StepStarts
  intro s h hs
  have hbecomes : ∀ {u}, stepStart s h.val = u → becomes (.hedgeStepStart h) s u := by
    rintro _ rfl
    exact (exec_hedgeStepStart h s).trans (flows_eq s _ hs.2)
  refine ⟨fun hn => ?stays, fun r hf hn hd => hbecomes (stepStart_reloads hf hn hd),
    fun r s1 hf hn hd hp => hbecomes (stepStart_stopped hf hn hd hp), fun r r1 s1 hf hn hd hp hr => ?claims⟩
  case stays =>
    rw [hbecomes (stepStart_stays hn), settle_self, finish_self]
  case claims =>
    intro u a
    have hstart : stepStart s h.val = if a.2 then beginStep a.1 r1 h.val else a.1 := stepStart_claims hf hn hd hp hr
    have hheld : a.2 = true → holds a.1 (ownStep h.val) = true := holds_askTokens
    clear_value a
    refine ⟨fun ha => hbecomes ?waits, fun ha hw => ?begins⟩
    case waits => simpa [ha] using hstart
    case begins =>
      rw [if_pos ha] at hstart
      rw [Answers, exec_hedgeStepStart]
      refine flows_answers hs ?_ fun w => ?_ <;> rw [hstart]
      · exact hw
      · exact ⟨⟨_, beginStep_run a.1 r1 h.val, rfl, rfl, rfl, rfl⟩, hheld ha, hedge_beginStep_ne a.1 r1 h.val, rfl⟩

end Sys2Proof.Machine
end

section
/-! The proofs of the family `02_trees_as_rows.md`: how a LOAD and a STEP begin (O37), and how the load at the head of an array begins and
ends (O47). -/

namespace Sys2Proof.Machine

/-! ## From the run function of an event to the statement's form -/

section
variable {i : Instr} {s u : State} {f : State → State}

/-- An event of the flows becomes what its run function gives. -/
theorem becomes_of_run (hexec : exec i s = flows s f) (hs : s.flowing) (hrun : f s = u) : becomes i s u := by
  rw [becomes, hexec, flows_eq s f hs.2, hrun]

/-- An event of the flows whose run function leaves the state changes nothing. -/
theorem exec_of_run_self (hexec : exec i s = flows s f) (hs : s.flowing) (hrun : f s = s) : exec i s = .next s := by
  rw [hexec, flows_eq s f hs.2, hrun, settle_self, finish_self]

/-- An event of the flows that waits for no host access answers what its run function gives, the interrupt messages apart. -/
theorem answers_of_run {p : State → Prop} (hexec : exec i s = flows s f) (hs : s.flowing) (hrun : f s = u) (w : u.hostWait = false)
    (hp : ∀ h, p { u with hif := h }) : Answers i s p := by
  subst hrun
  rw [Answers, hexec]
  exact flows_answers hs w hp

end

/-! ## The dispatch of a ready command (R234, R235) -/

theorem exec_load (q : QIx) (s : State) : exec (.load q) s = flows s fun s => dispatch s (.queue q) 1 loadRun := rfl

theorem exec_step (q : QIx) (s : State) : exec (.step q) s = flows s fun s => dispatch s (.queue q) 2 stepRun := rfl

section
variable {s t : State} {src : Src} {op : Nat} {c : Cmd} (htake : take s src op = some (t, c))
  (hfree : ∀ q, src = .queue q → frontBusy t c = false) (f : State → Cmd → State)
include htake hfree

/-- A command whose work may begin runs its meaning, and the refused slots behind it complete. -/
theorem dispatch_of_take : dispatch s src op f = behind src (f t c) := by
  cases src with
  | queue q => simp [dispatch, behind, htake, hfree q rfl]
  | ticket u l n => simp [dispatch, behind, htake]

end

/-- Behind an empty window no refused slot waits. -/
theorem behind_of_window_nil {t : State} {q : QIx} (h : (queue t q.val).window = []) : behind (.queue q) t = t := by
  simp [behind, flushRefused, h]

/-! ## LOAD (R53, R55, R367) -/

/-- A hedge that LOAD may not name: it is outside the group's hedges, or has no role. -/
def loadRefuses (s : State) (c : Cmd) : Bool :=
  (maskHedges (leAt c.slot 0x20 2)).any fun h => !bitOf (bgHedges s (queueBg s (cmdQueue s c))) h || role s h == 0

/-- The load that a LOAD queues on each array. -/
def loadJob (s : State) (c : Cmd) : LoadJob :=
  { why := .cmd c.uid, q := cmdQueue s c, addr := BitVec.ofNat 64 (op10 c.slot), src := BitVec.ofNat 64 (op10 c.slot),
    schema := some (BitVec.ofNat 64 (op18 c.slot)) }

/-- The arrays that a LOAD names, one for each hedge of HEDGES. -/
def loadArrays (c : Cmd) : List Nat := (maskHedges (leAt c.slot 0x20 2)).map fun h => arrIx h (leAt c.slot 0x22 1)

/-- One load queued on each array of a list. -/
def queueLoads (s : State) (ns : List Nat) (j : LoadJob) : State := ns.foldl (fun s n => queueLoad s n j) s

theorem loadRun_refused {s : State} {c : Cmd} (h : loadRefuses s c = true) : loadRun s c = complete s c.uid .format := if_pos h

theorem loadRun_queues {s : State} {c : Cmd} (h : loadRefuses s c = false) :
    loadRun s c = queueLoads (modCmd s c.uid fun d => { d with waits := loadArrays c }) (loadArrays c) (loadJob s c) :=
  if_neg (ne_true_of_eq_false h)

/-- A load goes to the end of its array's loads; the other arrays keep theirs. -/
theorem loads_queueLoad (s : State) (m n : Nat) (j : LoadJob) :
    (arr (queueLoad s m j) n).loads = (arr s n).loads ++ if m = n then [j] else [] := by
  by_cases h : m = n
  · subst h; simp [queueLoad]
  · simp [queueLoad, h]

/-- An array gets as many of the loads as the list names it. -/
theorem loads_queueLoads (s : State) (ns : List Nat) (j : LoadJob) (n : Nat) :
    (arr (queueLoads s ns j) n).loads = (arr s n).loads ++ List.replicate (ns.count n) j := by
  induction ns generalizing s with
  | nil => simp [queueLoads]
  | cons m ns ih =>
    have hrest : (arr (queueLoads s (m :: ns) j) n).loads = (arr (queueLoad s m j) n).loads ++ List.replicate (ns.count n) j :=
      ih (queueLoad s m j)
    rw [hrest, loads_queueLoad]
    by_cases h : m = n <;> simp [h, List.replicate_succ]

/-- Queueing loads changes the arrays alone. -/
theorem queueLoads_frame (s : State) (ns : List Nat) (j : LoadJob) : queueLoads s ns j = { s with arrays := (queueLoads s ns j).arrays } := by
  induction ns generalizing s with
  | nil => rfl
  | cons m ns ih => exact ih (queueLoad s m j)

/-- How often a LOAD names an array. -/
theorem count_loadArrays (c : Cmd) (n : Nat) :
    (loadArrays c).count n = ((maskHedges (leAt c.slot 0x20 2)).filter fun h => arrIx h (leAt c.slot 0x22 1) == n).length := by
  rw [loadArrays, List.count, List.countP_map, List.countP_eq_length_filter]
  rfl

/-- What a LOAD that is not refused leaves. -/
theorem load_answers {s t : State} {q : QIx} {c : Cmd} (hs : s.flowing) (hrun : dispatch s (.queue q) 1 loadRun = behind (.queue q) (loadRun t c))
    (ha : loadRefuses t c = false) (hw : t.hostWait = false) (hwin : (queue t q.val).window = []) :
    Answers (.load q) s fun v =>
      (∀ n, (arr v n).loads = (arr t n).loads ++ List.replicate ((loadArrays c).count n) (loadJob t c)) ∧
      v = { t with arrays := v.arrays, cmds := v.cmds, hif := v.hif } := by
  have hframe := queueLoads_frame (modCmd t c.uid fun d => { d with waits := loadArrays c }) (loadArrays c) (loadJob t c)
  rw [loadRun_queues ha, behind_of_window_nil (by rw [hframe]; exact hwin)] at hrun
  refine answers_of_run (exec_load q s) hs hrun ?_ fun w => ⟨loads_queueLoads _ (loadArrays c) (loadJob t c), ?_⟩
  · rw [hframe]; exact hw
  · rw [hframe]; rfl

/-! ## STEP (R85, R88, R107) -/

theorem stepRun_refused {s : State} {c : Cmd} (h : hedgesAllowed s (cmdQueue s c) (allHedges (specOf c.slot)) = false) :
    stepRun s c = complete s c.uid .format := by
  simp [stepRun, h]

/-- A STEP that may run joins the steps, the hedges left out noted. -/
theorem stepRun_begins {s : State} {c : Cmd} (h : hedgesAllowed s (cmdQueue s c) (allHedges (specOf c.slot)) = true) :
    stepRun s c = { s with steps := s.steps ++ [{ uid := c.uid, q := cmdQueue s c, bg := queueBg s (cmdQueue s c), spec := specOf c.slot,
                                                  missing := (allHedges (specOf c.slot)).filter fun k => leftOut s (cmdQueue s c) (specOf c.slot) k }] } := by
  simp [stepRun, h]

/-- Settles O37: each command is refused, or does what its run function's equation says, with nothing behind it in the window. -/
theorem loadAndStepBegin : Obligations.LoadAndStepBegin := by
  unfold Obligations.LoadAndStepBegin
  refine ⟨fun s t q c ⟨hs, htake, hfree⟩ => ?load, fun s t q c ⟨hs, htake, hfree⟩ => ?step⟩
  case load =>
    have hrun := dispatch_of_take htake hfree loadRun
    refine ⟨fun ha => ?refused, fun ha hw hwin => ?queued⟩
    case refused => exact becomes_of_run (exec_load q s) hs (by rw [hrun, loadRun_refused ha])
    case queued =>
      simp only [← count_loadArrays]
      exact load_answers hs hrun ha hw hwin
  case step =>
    have hrun := dispatch_of_take htake hfree stepRun
    refine ⟨fun ha hw hwin => ?begins, fun ha => ?refused⟩
    case begins =>
      rw [stepRun_begins ha] at hrun
      exact answers_of_run (exec_step q s) hs (hrun.trans (behind_of_window_nil hwin)) hw fun w => ⟨rfl, rfl⟩
    case refused => exact becomes_of_run (exec_step q s) hs (by rw [hrun, stepRun_refused ha])

/-! ## What a read of memory leaves (R222, R336, R343)

A read may count and log errors, clear a quad it could not mend, and wait for the host; every table of the engines stays as it is. -/

/-- `t` is `s` but for what a read of memory may change. -/
def ReadFrom (s t : State) : Prop :=
  ∃ wait regs hif sage quads mem,
    t = { s with hostWait := wait, regs := regs, hif := hif, sage := sage, quads := quads, mem := mem }

theorem ReadFrom.refl (s : State) : ReadFrom s s := ⟨_, _, _, _, _, _, rfl⟩

theorem ReadFrom.trans {s t u : State} (hst : ReadFrom s t) (htu : ReadFrom t u) : ReadFrom s u := by
  obtain ⟨_, _, _, _, _, _, rfl⟩ := hst
  obtain ⟨_, _, _, _, _, _, rfl⟩ := htu
  exact ⟨_, _, _, _, _, _, rfl⟩

theorem ReadFrom.arr {s t : State} (h : ReadFrom s t) (n : Nat) : arr t n = arr s n := by
  obtain ⟨_, _, _, _, _, _, rfl⟩ := h
  rfl

theorem readFrom_regSet (s : State) (o : Nat) (w : Word) : ReadFrom s (regSet s o w) := ⟨_, _, _, _, _, _, rfl⟩
theorem readFrom_regOr (s : State) (o m : Nat) : ReadFrom s (regOr s o m) := ⟨_, _, _, _, _, _, regOr_frame s o m⟩
theorem readFrom_regCount (s : State) (o n : Nat) : ReadFrom s (regCount s o n) := ⟨_, _, _, _, _, _, regCount_frame s o n⟩
theorem readFrom_logEvent (s : State) (code source sev : Nat) (d : List Byte) : ReadFrom s (logEvent s code source sev d) :=
  ⟨_, _, _, _, _, _, rfl⟩
theorem readFrom_askPages (s : State) (asked : List AtsEntry) : ReadFrom s (askPages s asked) := ⟨_, _, _, _, _, _, rfl⟩
theorem readFrom_setQuad (s : State) (m : List Host.Cell) (store f : Nat) (v : QuadState) :
    ReadFrom s (setQuad { s with mem := m } store f v) := ⟨_, _, _, _, _, _, rfl⟩

theorem readFrom_xlate (s : State) : ReadFrom s (xlate s) :=
  ReadFrom.trans ⟨_, _, _, _, _, _, rfl⟩ (readFrom_regOr _ _ _)

theorem readFrom_captureErr (s : State) (store kind who a : Nat) : ReadFrom s (captureErr s store kind who a) := by
  unfold captureErr
  split
  · exact readFrom_regOr s _ _
  · exact (readFrom_regSet s _ _).trans ((readFrom_regSet _ _ _).trans ((readFrom_regSet _ _ _).trans (readFrom_regOr _ _ _)))

theorem readFrom_countCe (s : State) (store : Nat) : ReadFrom s (countCe s store) := by
  have hcount := readFrom_regCount s (memReg (0x100 + 16 * store)) 1
  unfold countCe
  dsimp only
  split
  · exact hcount.trans (readFrom_regOr _ _ _)
  · exact hcount

theorem readFrom_countUe (s : State) (store who a : Nat) : ReadFrom s (countUe s store who a) :=
  (readFrom_logEvent s _ _ _ _).trans ((readFrom_regCount _ _ _).trans ((readFrom_regOr _ _ _).trans (readFrom_captureErr _ _ _ _ _)))

theorem readFrom_countAe (s : State) (store who a : Nat) : ReadFrom s (countAe s store who a) :=
  (readFrom_logEvent s _ _ _ _).trans ((readFrom_regCount _ _ _).trans ((readFrom_regOr _ _ _).trans (readFrom_captureErr _ _ _ _ _)))

theorem readFrom_countPoison (s : State) (store : Nat) : ReadFrom s (countPoison s store) :=
  (readFrom_regCount s _ _).trans (readFrom_regOr _ _ _)

theorem readFrom_readQuad (s : State) (who a : Nat) : ReadFrom s (readQuad s who a).1 := by
  unfold readQuad
  cases storeOf s a with
  | none => exact .refl s
  | some p =>
    dsimp only
    generalize quadState s p.1 (a / 16) = v
    split
    · exact .refl s
    · cases classify v.poison (quadZero s a) v.err.toNat v.adx.toNat with
      | clean => exact .refl s
      | poisoned => exact readFrom_countPoison s p.1
      | ce b =>
        cases b
        · exact readFrom_countCe s p.1
        · exact (readFrom_countCe s p.1).trans (readFrom_countPoison _ p.1)
      | ue => exact (readFrom_countUe s p.1 who a).trans ((readFrom_setQuad _ _ p.1 (a / 16) _).trans (readFrom_countPoison _ p.1))
      | ae => exact (readFrom_countAe s p.1 who a).trans (readFrom_countPoison _ p.1)

theorem readFrom_readQuads (s : State) (who : Nat) (as : List Nat) : ReadFrom s (readQuads s who as).1 := by
  induction as generalizing s with
  | nil => exact .refl s
  | cons a as ih => exact (readFrom_readQuad s who a).trans (ih _)

theorem readFrom_readMem (s : State) (q who a n : Nat) : ReadFrom s (readMem s q who a n).1 := by
  unfold readMem
  by_cases hhost : isHost a = true
  · rw [if_pos hhost]
    dsimp only
    generalize hostSide s q (a % 2 ^ 63) n false = side
    cases side with
    | wait asked => exact readFrom_askPages s asked
    | refused => exact readFrom_xlate s
    | go pages =>
      dsimp only
      split
      · exact .refl s
      · exact (readFrom_regOr s _ _).trans (readFrom_regOr _ _ _)
  · rw [if_neg hhost]
    split
    · exact .refl s
    · exact readFrom_readQuads s who _

theorem readFrom_readAny (s : State) (o : Reach) (who a n align : Nat) : ReadFrom s (readAny s o who a n align).1 := by
  have hread := readFrom_readMem s o.q who a n
  unfold readAny
  split
  · exact .refl s
  · split
    · exact .refl s
    · dsimp only
      split
      · exact hread
      · split <;> exact hread

theorem readFrom_readStruct (s : State) (o : Reach) (who a n align : Nat) : ReadFrom s (readStruct s o who a n align).1 := by
  unfold readStruct
  split
  · exact .refl s
  · exact readFrom_readAny s o who a n align

theorem readFrom_readSchemaRaw (s : State) (o : Reach) (who a : Nat) : ReadFrom s (readSchemaRaw s o who a).1 := by
  have hhdr := readFrom_readStruct s o who a 16 64
  unfold readSchemaRaw
  generalize readStruct s o who a 16 64 = r at hhdr ⊢
  obtain ⟨s1, g⟩ := r
  cases g with
  | stop st => exact hhdr
  | ok hdr =>
    dsimp only
    split
    · exact hhdr
    · have hall := readFrom_readStruct s1 o who a (schemaBytes (schemaFeatures hdr)) 64
      generalize readStruct s1 o who a (schemaBytes (schemaFeatures hdr)) 64 = r at hall ⊢
      obtain ⟨s2, g⟩ := r
      cases g with
      | stop st => exact hhdr.trans hall
      | ok bs => exact hhdr.trans hall

theorem readFrom_loadSchema (s : State) (j : LoadJob) : ReadFrom s (loadSchema s j).1 := by
  unfold loadSchema
  cases j.schema with
  | none => exact .refl s
  | some a => exact readFrom_readSchemaRaw s (loadReach s j) 0xFE a.toNat

/-! ## The token book alone (R388, R389) -/

theorem askTokens_frame (s : State) (owner : Nat) (recv : Bool) (c : Nat) :
    (askTokens s owner recv c).1 = { s with pwr := (askTokens s owner recv c).1.pwr } := by
  unfold askTokens
  split
  · rfl
  · split
    · rfl
    · dsimp only
      split <;> rfl

theorem dropTokens_frame (s : State) (owner : Nat) : dropTokens s owner = { s with pwr := (dropTokens s owner).pwr } := by
  unfold dropTokens
  dsimp only
  split
  · split <;> rfl
  · rfl

/-! ## ARRAY_LOAD_START, case by case (R53, R61, R89, R98) -/

/-- The copy of its schema descriptor that a load keeps: its bytes, an empty one that no check passes where the descriptor was refused, and
none where the load names none. -/
def schemaCopy : Option (Got (List Byte)) → Option (List Byte)
  | some (.ok b) => some b
  | some (.stop _) => some []
  | none => none

section
variable {s : State} {n : Nat} {j : LoadJob} {rest : List LoadJob} (hl : (arr s n).loads = j :: rest)
include hl

theorem loadStart_waits (hm : loadMayStart s n j = false) : loadStart s n = s := by
  simp [loadStart, hl, hm]

variable (hm : loadMayStart s n j = true)
include hm

theorem loadStart_barred (hb : loadBarred s n j = true) : loadStart s n = loadEnded s n j .format := by
  simp [loadStart, hl, hm, hb]

variable (hb : loadBarred s n j = false) {s1 s2 : State}
include hb

theorem loadStart_untold (ht : askTokens s (ownLoad n) false 1 = (s1, false)) : loadStart s n = s1 := by
  simp [loadStart, hl, hm, hb, ht]

variable (ht : askTokens s (ownLoad n) false 1 = (s1, true))
include ht

/-- A schema descriptor that is poisoned or out of reach ends the load before any row is written. -/
theorem loadStart_stopped {st : St} (hst : st = .integrity ∨ st = .aperture) (hsch : loadSchema s1 j = (s2, some (.stop st))) :
    loadStart s n = loadEnded s2 n j st := by
  obtain rfl | rfl := hst <;> simp [loadStart, hl, hm, hb, ht, hsch]

/-- A load with its token and its schema descriptor read begins. -/
theorem loadStart_begins {g : Option (Got (List Byte))} (hsch : loadSchema s1 j = (s2, g)) (hi : g ≠ some (.stop .integrity))
    (ha : g ≠ some (.stop .aperture)) : loadStart s n = modArr s2 n (loadingArr s2 j (schemaCopy g)) := by
  simp only [loadStart, hl, hm, hb, ht, hsch, Bool.not_true, Bool.false_eq_true, if_false]
  split <;> rfl

end

/-- The array of a LOAD while it is written. -/
theorem loadingArr_cmd {s : State} {j : LoadJob} {uid : Nat} (hj : j.why = .cmd uid) (sch : Option (List Byte)) {a : Arr} {rest : List LoadJob}
    (hl : a.loads = j :: rest) :
    let b := loadingArr s j sch a
    b.st = .loading ∧ b.img = none ∧ b.loads = { j with started := true, sch := sch } :: rest ∧
      b.home = some { addr := j.addr, model := imageModel s j.src.toNat, schema := j.schema } := by
  simp [loadingArr, hj, hl]

/-! ## ARRAY_LOAD_DONE, case by case (R54, R270) -/

/-- The array that a load of an image `im` leaves (R54, R98). -/
def loadedArr (j : LoadJob) (im : ArrImage) (a : Arr) : Arr :=
  { a with st := .ready, img := some im, held := some j.addr, bumped := a.bumped && j.why != .reload, integ := 0, cls := 0,
           checkDue := false, checked := false, rewrites := [],
           pinned := match j.why, a.pinned with | .cmd _, none => some im.model | _, p => p }

/-- The array that a load without an image leaves (R54). -/
def unloadedArr (j : LoadJob) (a : Arr) : Arr := { a with st := .empty, img := none, held := none, bumped := a.bumped && j.why != .reload }

/-- The array whose load is discarded with its queue (R270). -/
def discardedArr (a : Arr) : Arr := { a with st := .empty, img := none, held := none, loads := a.loads.drop 1 }

/-- The image of a LOAD comes with the load itself. -/
theorem imageCame_cmd (s : State) {j : LoadJob} {uid : Nat} (hwhy : j.why = .cmd uid) : imageCame s j = true := by simp [imageCame, hwhy]

/-- A LOAD's load is no rotation's. -/
theorem rotStopping_cmd (s : State) {j : LoadJob} {uid : Nat} (hwhy : j.why = .cmd uid) : rotStopping s j = false := by simp [rotStopping, hwhy]

theorem loadFails_eq (s : State) (n : Nat) (j : LoadJob) : loadFails s n j = loadEnded (modArr s n (unloadedArr j)) n j .format := rfl

section
variable {s : State} {n : Nat} {j : LoadJob} {rest : List LoadJob} (hl : (arr s n).loads = j :: rest)
include hl

theorem loadDone_waits (hj : j.started = false) : loadDone s n = s := by
  simp [loadDone, hl, hj]

variable (hj : j.started = true) {uid : Nat} (hwhy : j.why = .cmd uid)
include hj hwhy

theorem loadDone_discards (hq : (queue s j.q).st = .retiring) : loadDone s n = dropTokens (modArr s n discardedArr) (ownLoad n) := by
  simp only [loadDone, hl, hj, Bool.not_true, Bool.false_eq_true, if_false]
  exact if_pos ⟨by simp [hwhy], hq⟩

variable (hq : (queue s j.q).st ≠ .retiring)
include hq

/-- A load whose copy of the schema descriptor is refused ends without an image. -/
theorem loadDone_schemaRefused (hsch : j.sch.map parseSchema = some none) : loadDone s n = loadFails s n j := by
  simp [loadDone, hl, hj, hq, imageCame_cmd s hwhy, rotStopping_cmd s hwhy, hsch]

variable (hsch : j.sch.map parseSchema ≠ some none) {s2 : State}
include hsch

theorem loadDone_imageRefused
    (him : readImage s j.q n j.src.toNat j.size j.why ((j.sch.map parseSchema).bind id) = (s2, none)) : loadDone s n = loadFails s2 n j := by
  simp only [loadDone, hl, hj, hq, imageCame_cmd s hwhy, rotStopping_cmd s hwhy, and_false, Bool.not_true, Bool.false_eq_true, if_false, him]

theorem loadDone_ready {im : ArrImage}
    (him : readImage s j.q n j.src.toNat j.size j.why ((j.sch.map parseSchema).bind id) = (s2, some im)) :
    loadDone s n = loadEnded (modArr (clearArrQuads s2 n) n (loadedArr j im)) n j .ok := by
  simp only [loadDone, hl, hj, hq, imageCame_cmd s hwhy, rotStopping_cmd s hwhy, and_false, Bool.not_true, Bool.false_eq_true, if_false, him]
  rfl

end

/-! ## The load of a LOAD command -/

section
variable {s : State} {n : AIx} {j : LoadJob} {rest : List LoadJob} (hl : (arr s n.val).loads = j :: rest) {uid : Nat} (hwhy : j.why = .cmd uid)
include hl hwhy

/-- A start of a LOAD's load calls for nothing further. -/
theorem loadStartAll_cmd : loadStartAll s n.val = loadStart s n.val := by simp [loadStartAll, hl, hwhy]

/-- An end of a LOAD's load calls for nothing further. -/
theorem loadDoneAll_cmd : loadDoneAll s n.val = loadDone s n.val := by simp [loadDoneAll, hl, hwhy]

end

theorem exec_arrayLoadStart (n : AIx) (s : State) : exec (.arrayLoadStart n) s = flows s fun s => loadStartAll s n.val := rfl

theorem exec_arrayLoadDone (n : AIx) (s : State) : exec (.arrayLoadDone n) s = flows s fun s => loadDoneAll s n.val := rfl

/-- What a load that begins leaves. -/
theorem arrayLoadStart_begins {s s1 s2 : State} {n : AIx} {j : LoadJob} {rest : List LoadJob} {uid : Nat} {g : Option (Got (List Byte))}
    (hs : s.flowing) (hl : (arr s n.val).loads = j :: rest) (hwhy : j.why = .cmd uid)
    (hrun : loadStart s n.val = modArr s2 n.val (loadingArr s2 j (schemaCopy g)))
    (ht : askTokens s (ownLoad n.val) false 1 = (s1, true)) (hsch : loadSchema s1 j = (s2, g)) (hw : s2.hostWait = false) :
    Answers (.arrayLoadStart n) s fun t => (arr t n.val).st = .loading ∧ (arr t n.val).img = none ∧
      (∃ c, (arr t n.val).loads = { j with started := true, sch := c } :: rest ∧
        (∀ b, g = some (.ok b) → c = some b) ∧ (g = none → c = none) ∧ (∀ st, g = some (.stop st) → c = some [])) ∧
      (arr t n.val).home = some { addr := j.addr, model := imageModel s2 j.src.toNat, schema := j.schema } ∧
      (∀ k, n.val ≠ k → arr t k = arr s k) ∧ t = { s2 with arrays := t.arrays, hif := t.hif } := by
  have hsame (k : Nat) : arr s2 k = arr s k := by
    calc arr s2 k = arr (loadSchema s1 j).1 k := by rw [hsch]
      _ = arr s1 k := (readFrom_loadSchema s1 j).arr k
      _ = arr (askTokens s (ownLoad n.val) false 1).1 k := by rw [ht]
      _ = arr s k := by rw [askTokens_frame]; rfl
  obtain ⟨hst, himg, hloads, hhome⟩ := loadingArr_cmd (s := s2) hwhy (schemaCopy g) ((congrArg Arr.loads (hsame n.val)).trans hl)
  have harr := arr_modArr_same s2 n.val (loadingArr s2 j (schemaCopy g))
  rw [← harr] at hst himg hloads hhome
  refine answers_of_run (exec_arrayLoadStart n s) hs ((loadStartAll_cmd hl hwhy).trans hrun) hw fun w =>
    ⟨hst, himg, ⟨schemaCopy g, hloads, ?_, ?_, ?_⟩, hhome, fun k hk => (arr_modArr_ne s2 _ _ _ hk).trans (hsame k), rfl⟩
  · rintro b rfl; rfl
  · rintro rfl; rfl
  · rintro st rfl; rfl

/-- What the end of a load of a queue being destroyed leaves. -/
theorem arrayLoadDone_discards {s : State} {n : AIx} {rest : List LoadJob} {j : LoadJob} (hs : s.flowing)
    (hl : (arr s n.val).loads = j :: rest) (hrun : loadDoneAll s n.val = dropTokens (modArr s n.val discardedArr) (ownLoad n.val)) :
    Answers (.arrayLoadDone n) s fun t =>
      (arr t n.val).st = .empty ∧ (arr t n.val).img = none ∧ (arr t n.val).loads = rest ∧ (∀ k, n.val ≠ k → arr t k = arr s k) ∧
      t = { s with arrays := t.arrays, pwr := t.pwr, hif := t.hif } := by
  have hframe := dropTokens_frame (modArr s n.val discardedArr) (ownLoad n.val)
  have hsame (k : Nat) : arr (dropTokens (modArr s n.val discardedArr) (ownLoad n.val)) k = arr (modArr s n.val discardedArr) k := by
    rw [hframe]; rfl
  have harr := (hsame n.val).trans (arr_modArr_same s n.val discardedArr)
  refine answers_of_run (exec_arrayLoadDone n s) hs hrun ?_ fun w => ⟨congrArg Arr.st harr, congrArg Arr.img harr,
    (congrArg Arr.loads harr).trans ?_, fun k hk => (hsame k).trans (arr_modArr_ne s _ _ _ hk), ?_⟩
  · rw [hframe]; exact hs.1
  · rw [discardedArr, hl]; rfl
  · rw [hframe]; rfl

/-- Settles O47, a case for each way the head load's start and its end can go; each is an equation of `loadStart` or of `loadDone`. -/
theorem arrayLoads : Obligations.ArrayLoads := by
  unfold Obligations.ArrayLoads
  intro s n j rest uid hs hl hwhy
  have hstart {u} (h : loadStart s n.val = u) : becomes (.arrayLoadStart n) s u :=
    becomes_of_run (exec_arrayLoadStart n s) hs ((loadStartAll_cmd hl hwhy).trans h)
  have hdone {u} (h : loadDone s n.val = u) : becomes (.arrayLoadDone n) s u :=
    becomes_of_run (exec_arrayLoadDone n s) hs ((loadDoneAll_cmd hl hwhy).trans h)
  refine ⟨fun hm => exec_of_run_self (exec_arrayLoadStart n s) hs ((loadStartAll_cmd hl hwhy).trans (loadStart_waits hl hm)),
    fun hm hb => hstart (loadStart_barred hl hm hb), fun s1 hm hb ht => hstart (loadStart_untold hl hm hb ht),
    fun s1 hm hb ht => ⟨fun s2 hsch => hstart (loadStart_stopped hl hm hb ht (.inl rfl) hsch),
      fun s2 hsch => hstart (loadStart_stopped hl hm hb ht (.inr rfl) hsch),
      fun s2 g hsch hi ha hw => arrayLoadStart_begins hs hl hwhy (loadStart_begins hl hm hb ht hsch hi ha) ht hsch hw⟩,
    fun hj => exec_of_run_self (exec_arrayLoadDone n s) hs ((loadDoneAll_cmd hl hwhy).trans (loadDone_waits hl hj)),
    fun hj hq => arrayLoadDone_discards hs hl ((loadDoneAll_cmd hl hwhy).trans (loadDone_discards hl hj hwhy hq)),
    fun hj hq => ⟨fun hsch => hdone (loadDone_schemaRefused hl hj hwhy hq hsch), fun s2 im hsch him => ?ready, fun s2 hsch him => ?refused⟩⟩
  case ready =>
    refine ⟨_, hdone (loadDone_ready hl hj hwhy hq hsch him), ?_⟩
    simp only [arr_modArr_same]
    exact ⟨rfl, rfl, rfl, rfl, rfl, rfl⟩
  case refused =>
    refine ⟨_, hdone ((loadDone_imageRefused hl hj hwhy hq hsch him).trans (loadFails_eq s2 n.val j)), ?_⟩
    simp only [arr_modArr_same]
    exact ⟨rfl, rfl, rfl⟩

end Sys2Proof.Machine
end

section
/-! The proofs of the family `03_records_and_binning.md`: the slot strobe outside the powered core (O54), and the unit-local jobs with the
completion of their tickets (O59). -/

namespace Sys2Proof.Machine

/-! ## SLOT_STROBE without the core's power (R182, R393) -/

theorem exec_slotStrobe (line : UIx) (s : State) : exec (.slotStrobe line) s = alive s fun s => slotStrobeRun s line.val := rfl

theorem slotStrobe_unpowered {s : State} (h : corePowered s = false) (line : UIx) : exec (.slotStrobe line) s = .next s := by
  simp [exec_slotStrobe, alive, h, done_self]

/-- RUNNING with no step of the staggered start done, so that the core is not powered: `flowing` asks for the device state alone. -/
def runningUnpowered : State := { glb := { dev := .running } }

/-- Refutes O54: SLOT_STROBE is an event of the powered core, and in RUNNING without the core's power a strobe on SLOT_IN0 changes nothing,
where the statement, which asks for `flowing` and not for `powered`, has unit 0 count it. -/
theorem not_slotEvents : ¬ Obligations.SlotEvents := by
  unfold Obligations.SlotEvents
  intro h
  have hflowing : runningUnpowered.flowing := ⟨rfl, rfl⟩
  obtain ⟨hstrobe, -⟩ := h runningUnpowered hflowing
  obtain ⟨hbecomes, -⟩ := hstrobe 0
  rw [becomes, slotStrobe_unpowered rfl, Host.Outcome.next.injEq] at hbecomes
  have hcounts := congrArg (fun t => (rxu t 0).strobes) hbecomes
  revert hcounts
  decide

/-! ## The contexts of a unit (R290) -/

/-- An entry of a map after a write is the one written or one from before. -/
theorem mem_sset {α : Type} {m : SMap α} {k : Nat} {v : α} {y : Nat × α} (h : y ∈ sset m k v) : y = (k, v) ∨ y ∈ m := by
  induction m with
  | nil => exact .inl (by simpa [sset] using h)
  | cons p m ih =>
    simp only [sset] at h
    split at h
    · exact (List.mem_cons.mp h).imp_right (List.mem_cons_of_mem _)
    · split at h
      · exact List.mem_cons.mp h
      · rcases List.mem_cons.mp h with h | h
        · exact .inr (h ▸ List.mem_cons_self)
        · exact (ih h).imp_right (List.mem_cons_of_mem _)

/-- A key reads the default or an entry of the map. -/
theorem sget_eq_default_or_mem {α : Type} (d : α) (m : SMap α) (k : Nat) : sget d m k = d ∨ (k, sget d m k) ∈ m := by
  induction m with
  | nil => exact .inl rfl
  | cons p m ih =>
    obtain ⟨j, v⟩ := p
    by_cases h : j = k
    · subst h; simp [sget]
    · simpa [sget, h] using ih.imp_right .inr

@[simp] theorem ctx_modCtx_same (s : State) (u c : Nat) (f : Ctx → Ctx) : ctx (modCtx s u c f) u c = f (ctx s u c) := by simp [ctx, modCtx]

@[simp] theorem rxu_modCtx_ctxs (s : State) (u c : Nat) (f : Ctx → Ctx) :
    (rxu (modCtx s u c f) u).ctxs = sset (rxu s u).ctxs c (f (ctx s u c)) := by simp [modCtx]

@[simp] theorem retire_ctxs (s : State) (u c : Nat) (f : Ctx → Ctx) :
    (rxu (retire s u c f) u).ctxs = sset (rxu s u).ctxs c { f (ctx s u c) with pc := (f (ctx s u c)).pc + 4 } := by simp [retire]

/-- Unit u has one context, c. -/
def OnlyCtx (s : State) (u c : Nat) (k : Ctx) : Prop := (rxu s u).ctxs = [(c, k)]

theorem OnlyCtx.ctx {s : State} {u c : Nat} {k : Ctx} (h : OnlyCtx s u c k) : ctx s u c = k := by
  unfold OnlyCtx at h; simp [Machine.ctx, h, sget]

theorem OnlyCtx.ctx_ne {s : State} {u c d : Nat} {k : Ctx} (h : OnlyCtx s u c k) (hne : d ≠ c) : Machine.ctx s u d = {} := by
  unfold OnlyCtx at h; simp [Machine.ctx, h, sget, hne.symm]

theorem OnlyCtx.modCtx {s : State} {u c : Nat} {k : Ctx} (h : OnlyCtx s u c k) (f : Ctx → Ctx) : OnlyCtx (modCtx s u c f) u c (f k) := by
  rw [OnlyCtx, rxu_modCtx_ctxs, h.ctx, h]; simp [sset]

theorem OnlyCtx.retire {s : State} {u c : Nat} {k : Ctx} (h : OnlyCtx s u c k) (f : Ctx → Ctx) :
    OnlyCtx (retire s u c f) u c { f k with pc := (f k).pc + 4 } := by
  rw [OnlyCtx, retire_ctxs, h.ctx, h]; simp [sset]

/-! ## Contexts that look again (R284, R290) -/

/-- No context of the unit is blocked, and none is ready to run. -/
def NoneWaits (s : State) (u : Nat) : Prop := ∀ y, y ∈ (rxu s u).ctxs → y.2.st = .none ∨ y.2.st = .running

theorem NoneWaits.st_ctx {s : State} {u : Nat} (h : NoneWaits s u) (c : Nat) : (ctx s u c).st = .none ∨ (ctx s u c).st = .running := by
  rcases sget_eq_default_or_mem {} (rxu s u).ctxs c with hd | hm
  · exact .inl (by rw [ctx, hd])
  · exact h _ hm

theorem NoneWaits.modCtx {s : State} {u c : Nat} {f : Ctx → Ctx} (h : NoneWaits s u) (hf : (f (ctx s u c)).st = (ctx s u c).st) :
    NoneWaits (modCtx s u c f) u := by
  intro y hy
  rw [rxu_modCtx_ctxs] at hy
  rcases mem_sset hy with rfl | hy
  · exact hf ▸ h.st_ctx c
  · exact h y hy

theorem unblock_of_not_blocked {s : State} {u : UIx} {c : LIx} (h : ∀ b, (ctx s u.val c.val).st ≠ .blocked b) : unblock s u c = s := by
  unfold unblock
  cases hst : (ctx s u.val c.val).st with
  | blocked b => exact absurd hst (h b)
  | none | ready | running => simp only [hst]

theorem unblock_wait {s : State} {u : UIx} {c : LIx} {rd : Nat} {tk w : Word} (hst : (ctx s u.val c.val).st = .blocked (.wait rd tk))
    (hw : outcomeOf (ctx s u.val c.val) tk = some w) :
    unblock s u c = retire (modCtx s u.val c.val fun k => k.put rd w) u.val c.val fun k => { k with st := .ready } := by
  simp [unblock, hst, hw]

theorem schedule_noneWaits {s : State} {u : Nat} (h : NoneWaits s u) : schedule s u = s := by
  have hready : (rxu s u).ctxs.filter (fun x => x.2.st == .ready) = [] := by
    rw [List.filter_eq_nil_iff]
    intro y hy
    rcases h y hy with hst | hst <;> simp [hst]
  have hnone : nextAfter (rxu s u).lastCtx [] = none := by unfold nextAfter; split <;> rfl
  simp [schedule, hready, hnone]

theorem schedule_onlyReady {s : State} {u c : Nat} {k : Ctx} (h : OnlyCtx s u c k) (hst : k.st = .ready) :
    schedule s u = modRxu (modCtx s u c fun k => { k with st := .running }) u fun x => { x with lastCtx := some c } := by
  have hidle : runningOn s u = none := by rw [runningOn, h]; simp [hst]
  have hnext : nextAfter (rxu s u).lastCtx (((rxu s u).ctxs.filter fun x => x.2.st == .ready).map (·.1)) = some c := by
    rw [h]
    cases (rxu s u).lastCtx with
    | none => simp [nextAfter, hst]
    | some l => by_cases hl : l < c <;> simp [nextAfter, hst, hl]
  simp [schedule, hidle, hnext]

theorem wake_noneWaits {s : State} {u : UIx} (h : NoneWaits s u.val) : wake s u = s := by
  have hlook : ∀ c : LIx, unblock s u c = s := fun c => by
    refine unblock_of_not_blocked fun b => ?_
    rcases h.st_ctx c.val with hst | hst <;> simp [hst]
  rw [wake, List.foldl_fixed' hlook, schedule_noneWaits h]

/-- A change that one member of a list makes, and that every member then leaves alone, is what the list makes. -/
theorem foldl_of_one {α β : Type} {g : β → α → β} {s t : β} {a : α} (ha : g s a = t) (hs : ∀ b, b ≠ a → g s b = s) (ht : ∀ b, g t b = t) :
    ∀ l : List α, a ∈ l → l.foldl g s = t
  | b :: l, hmem => by
    by_cases hb : b = a
    · rw [List.foldl_cons, hb, ha, List.foldl_fixed' ht]
    · rw [List.foldl_cons, hs b hb, foldl_of_one ha hs ht l (List.mem_of_ne_of_mem (Ne.symm hb) hmem)]

/-- The only context of a unit, waiting for a ticket whose outcome is there, takes the outcome and runs on. -/
theorem wake_onlyWait {s : State} {u : UIx} {c : LIx} {k : Ctx} {rd : Nat} {tk w : Word} (h : OnlyCtx s u.val c.val k)
    (hst : k.st = .blocked (.wait rd tk)) (hw : outcomeOf k tk = some w) :
    ctx (wake s u) u.val c.val = { k.put rd w with st := .running, pc := (k.put rd w).pc + 4 } ∧ wake s u = { s with rxus := (wake s u).rxus } := by
  generalize ht : unblock s u c = t
  have hgoes := ht ▸ unblock_wait (h.ctx.symm ▸ hst) (h.ctx.symm ▸ hw)
  have hframe : t = { s with rxus := t.rxus } := by rw [hgoes]; rfl
  have honly : OnlyCtx t u.val c.val { k.put rd w with st := .ready, pc := (k.put rd w).pc + 4 } := by
    rw [hgoes]
    exact (h.modCtx _).retire _
  have hothers : ∀ {v : State} {k' : Ctx}, OnlyCtx v u.val c.val k' → ∀ d, d ≠ c → unblock v u d = v := fun hv d hd =>
    unblock_of_not_blocked (by simp [hv.ctx_ne (Fin.val_ne_of_ne hd)])
  have hdone : ∀ d, unblock t u d = t := fun d => by
    by_cases hd : d = c
    · exact unblock_of_not_blocked (by simp [hd, honly.ctx])
    · exact hothers honly d hd
  have hwake : wake s u = schedule t u.val := by
    rw [wake, foldl_of_one ht (hothers h) hdone _ (List.mem_finRange c)]
  rw [hwake, schedule_onlyReady honly rfl]
  constructor
  · have := (honly.modCtx fun k => { k with st := .running }).ctx
    simpa [ctx] using this
  · generalize t.rxus = x at hframe
    rw [hframe]; rfl

/-! ## TICKET_COMPLETE (R284) -/

theorem exec_ticketComplete (u : UIx) (c : LIx) (tk : Word) (s : State) : exec (.ticketComplete u c tk) s = flows s fun s => ticketRun s u c tk := rfl

/-- A context with the outcome of a ticket in its books: outstanding no longer, and kept with those of the last 64. -/
def Ctx.noted (k : Ctx) (tk w : Word) : Ctx :=
  { k with out := k.out.filter fun x => x.1 != tk, outcomes := ((tk, w) :: k.outcomes).filter fun x => k.recent x.1 }

theorem outcomeOf_noted {k : Ctx} {tk : Word} (w : Word) (h : k.recent tk = true) : outcomeOf (k.noted tk w) tk = some w := by
  have hrecent : (k.noted tk w).recent tk = true := h
  have hout : (k.noted tk w).out.any (fun x => x.1 == tk) = false := by simp [Ctx.noted]
  have hkept : (k.noted tk w).outcomes = (tk, w) :: k.outcomes.filter fun x => k.recent x.1 := by simp [Ctx.noted, h]
  simp [outcomeOf, hout, hkept, hrecent]

theorem endWfi_of_not_wfi {s : State} {u c : Nat} (h : (ctx s u c).st ≠ .blocked .wfi) : endWfi s u c = s := if_neg h

theorem recordOutcome_eq {s : State} {u : UIx} {c : Nat} (tk : Word) (st : St) (fl : Nat) (h : (ctx s u.val c).st ≠ .blocked .wfi) :
    recordOutcome s u c tk st fl = wake (modCtx s u.val c fun k => k.noted tk (outcomeWord st fl)) u := by
  show wake (endWfi (modCtx s u.val c fun k => k.noted tk (outcomeWord st fl)) u.val c) u = _
  rw [endWfi_of_not_wfi (by simpa [Ctx.noted] using h)]

/-- The outcomes that are ready without that of one ticket. -/
def takeReady (s : State) (u c : Nat) (tk : Word) : State :=
  { s with ticketsReady := s.ticketsReady.filter fun t => !(t.u == u && t.c == c && t.n == tk) }

section
variable {s : State} {u : UIx} {c : LIx} {tk : Word} {x : TicketOut}

theorem ticketRun_waits (h : (s.ticketsReady.find? fun t => t.u == u.val && t.c == c.val && t.n == tk) = none ∨ ticketWaits s u.val c.val tk = true) :
    ticketRun s u c tk = s := by
  unfold ticketRun
  split
  · rfl
  · next hfind => rw [if_pos (h.resolve_left (by simp [hfind]))]

variable (hready : (s.ticketsReady.find? fun t => t.u == u.val && t.c == c.val && t.n == tk) = some x) (hturn : ticketWaits s u.val c.val tk = false)
  (hcal : (ctx s u.val c.val).cal = none)
include hready hturn hcal

theorem ticketRun_records : ticketRun s u c tk = recordOutcome (takeReady s u.val c.val tk) u c.val tk x.status x.flags := by
  have hcal' : (ctx (takeReady s u.val c.val tk) u.val c.val).cal = none := hcal
  unfold ticketRun
  rw [hready]
  simp only [hturn, Bool.false_eq_true, if_false]
  rw [← takeReady, hcal']

/-- Where no context of the unit waits, a completion changes the books of its own context alone. -/
theorem ticketRun_noneWaits (h : NoneWaits s u.val) :
    ticketRun s u c tk = modCtx (takeReady s u.val c.val tk) u.val c.val fun k => k.noted tk (outcomeWord x.status x.flags) := by
  have hnone : NoneWaits (takeReady s u.val c.val tk) u.val := h
  have hst : (ctx (takeReady s u.val c.val tk) u.val c.val).st ≠ .blocked .wfi := by
    rcases hnone.st_ctx c.val with hst | hst <;> simp [hst]
  rw [ticketRun_records hready hturn hcal, recordOutcome_eq tk x.status x.flags hst, wake_noneWaits (hnone.modCtx rfl)]

/-- The only context of its unit goes on where it waits for the ticket. -/
theorem ticketRun_onlyWait {k : Ctx} {rd : Nat} (h : OnlyCtx s u.val c.val k) (hst : k.st = .blocked (.wait rd tk)) (hrecent : k.recent tk = true) :
    ctx (ticketRun s u c tk) u.val c.val = { (k.noted tk (outcomeWord x.status x.flags)).put rd (outcomeWord x.status x.flags) with
      st := .running, pc := ((k.noted tk (outcomeWord x.status x.flags)).put rd (outcomeWord x.status x.flags)).pc + 4 } ∧
    ticketRun s u c tk = { takeReady s u.val c.val tk with rxus := (ticketRun s u c tk).rxus } := by
  have honly : OnlyCtx (takeReady s u.val c.val tk) u.val c.val k := h
  have hwfi : (ctx (takeReady s u.val c.val tk) u.val c.val).st ≠ .blocked .wfi := by rw [honly.ctx, hst]; simp
  rw [ticketRun_records hready hturn hcal, recordOutcome_eq tk x.status x.flags hwfi]
  exact wake_onlyWait (honly.modCtx fun k => k.noted tk (outcomeWord x.status x.flags)) hst (outcomeOf_noted _ hrecent)

end

@[simp] theorem ctxReg_put {k : Ctx} {rd : Nat} (w : Word) (h : rd ≠ 0) : ctxReg (k.put rd w) rd = w := by simp [ctxReg, Ctx.put, h]

theorem put_pc (k : Ctx) (rd : Nat) (w : Word) : (k.put rd w).pc = k.pc := by unfold Ctx.put; split <;> rfl

/-! ## Stores into local memory (R281, R342) -/

/-- What storing into the local memory of unit u's core leaves: all but registers, event log, error patterns and the unit's memory. -/
def LocalFrom (u : Nat) (s t : State) : Prop :=
  (∃ regs sage quads rxus, t = { s with regs := regs, sage := sage, quads := quads, rxus := rxus }) ∧ (rxu t u).ctxs = (rxu s u).ctxs

theorem LocalFrom.refl (u : Nat) (s : State) : LocalFrom u s s := ⟨⟨_, _, _, _, rfl⟩, rfl⟩

theorem LocalFrom.trans {u : Nat} {s t v : State} (hst : LocalFrom u s t) (htv : LocalFrom u t v) : LocalFrom u s v := by
  obtain ⟨⟨_, _, _, _, rfl⟩, hs⟩ := hst
  obtain ⟨⟨_, _, _, _, rfl⟩, ht⟩ := htv
  exact ⟨⟨_, _, _, _, rfl⟩, ht.trans hs⟩

theorem localFrom_regs (u : Nat) (s : State) (m : SMap Word) : LocalFrom u s { s with regs := m } := ⟨⟨_, _, _, _, rfl⟩, rfl⟩

theorem localFrom_regCount (u : Nat) (s : State) (o n : Nat) : LocalFrom u s (regCount s o n) := regCount_frame s o n ▸ localFrom_regs u s _
theorem localFrom_regOr (u : Nat) (s : State) (o m : Nat) : LocalFrom u s (regOr s o m) := regOr_frame s o m ▸ localFrom_regs u s _
theorem localFrom_setQuad (u : Nat) (s : State) (store f : Nat) (v : QuadState) : LocalFrom u s (setQuad s store f v) := ⟨⟨_, _, _, _, rfl⟩, rfl⟩
theorem localFrom_logEvent (u : Nat) (s : State) (code source sev : Nat) (d : List Byte) : LocalFrom u s (logEvent s code source sev d) :=
  ⟨⟨_, _, _, _, rfl⟩, rfl⟩
theorem localFrom_modRxu {u : Nat} {s : State} {f : Rxu → Rxu} (h : (f (rxu s u)).ctxs = (rxu s u).ctxs) : LocalFrom u s (modRxu s u f) :=
  ⟨⟨_, _, _, _, rfl⟩, by rw [rxu_modRxu_same, h]⟩

theorem localFrom_captureErr (u : Nat) (s : State) (store kind who a : Nat) : LocalFrom u s (captureErr s store kind who a) := by
  unfold captureErr
  split
  · exact localFrom_regOr u s _ _
  · exact (localFrom_regs u s _).trans (localFrom_regOr u _ _ _)

theorem localFrom_countCe (u : Nat) (s : State) (store : Nat) : LocalFrom u s (countCe s store) := by
  unfold countCe
  dsimp only
  split
  · exact (localFrom_regCount u s _ _).trans (localFrom_regOr u _ _ _)
  · exact localFrom_regCount u s _ _

theorem localFrom_countUe (u : Nat) (s : State) (store who a : Nat) : LocalFrom u s (countUe s store who a) :=
  (localFrom_logEvent u s _ _ _ _).trans (((localFrom_regCount u _ _ _).trans (localFrom_regOr u _ _ _)).trans (localFrom_captureErr u _ _ _ _ _))

theorem localFrom_countAe (u : Nat) (s : State) (store who a : Nat) : LocalFrom u s (countAe s store who a) :=
  (localFrom_logEvent u s _ _ _ _).trans (((localFrom_regCount u _ _ _).trans (localFrom_regOr u _ _ _)).trans (localFrom_captureErr u _ _ _ _ _))

theorem localFrom_localPoison (s : State) (u a : Nat) : LocalFrom u s (localPoison s u a) := (localFrom_setQuad u s _ _ _).trans (localFrom_modRxu rfl)

theorem localFrom_localFix (s : State) (u a : Nat) : LocalFrom u s (localFix s u a) := by
  unfold localFix
  exact (localFrom_setQuad u s _ _ _).trans (localFrom_modRxu rfl)

theorem localFrom_localResolve (s : State) (u a : Nat) : LocalFrom u s (localResolve s u a) := by
  unfold localResolve
  dsimp only
  split
  · exact .refl u s
  · cases localClass s u a with
    | clean => exact localFrom_localFix s u a
    | poisoned => exact .refl u s
    | ce p =>
      cases p with
      | true => exact localFrom_countCe u s 9
      | false => exact (localFrom_countCe u s 9).trans (localFrom_localFix _ u a)
    | ue => exact (localFrom_countUe u s _ _ _).trans (localFrom_localPoison _ u a)
    | ae => exact (localFrom_countAe u s _ _ _).trans (localFrom_localPoison _ u a)

/-- The quads that a store of `n` bytes at `a` touches, made ready for it: a whole one is replaced, a part of one is merged. -/
def localPrepare (s : State) (u a n : Nat) : State :=
  (rangeQuads a n).foldl (fun s b =>
    if decide (a ≤ b) && decide (b + 16 ≤ a + n) then setQuad s 9 (localFold (coreId u) b) {} else localResolve s u b) s

theorem localFrom_localPrepare (s : State) (u a n : Nat) : LocalFrom u s (localPrepare s u a n) := by
  unfold localPrepare
  generalize rangeQuads a n = l
  induction l generalizing s with
  | nil => exact .refl u s
  | cons b l ih =>
    rw [List.foldl_cons]
    refine LocalFrom.trans ?_ (ih _)
    split
    · exact localFrom_setQuad u s _ _ _
    · exact localFrom_localResolve s u b

/-- A unit with bytes stored in its core's local memory, past the quads that stay poisoned; a reservation they touch is lost. -/
def localStored (a : Nat) (bs : List Byte) (x : Rxu) : Rxu :=
  let bad := x.bad.filter fun b => !(decide (a ≤ b) && decide (b + 16 ≤ a + bs.length))
  { x with bad := bad,
           mem := if bad.isEmpty then mwrite x.mem a bs else
             (List.zip (List.range bs.length) bs).foldl (fun m e => if bad.contains ((a + e.1) / 16 * 16) then m else mset m (a + e.1) e.2) x.mem,
           reserved := x.reserved.filter fun r => decide (r + 4 ≤ a) || decide (a + bs.length ≤ r) }

theorem localWrite_eq (s : State) (u a : Nat) (bs : List Byte) :
    localWrite s u a bs = modRxu (localPrepare s u a bs.length) u (localStored a bs) := rfl

theorem localFrom_localWrite (s : State) (u a : Nat) (bs : List Byte) : LocalFrom u s (localWrite s u a bs) :=
  localWrite_eq s u a bs ▸ (localFrom_localPrepare s u a bs.length).trans (localFrom_modRxu rfl)

/-- Without stored errors no quad has to be made ready. -/
theorem localPrepare_clean {s : State} (hq : s.quads = []) (u a n : Nat) : localPrepare s u a n = s := by
  refine List.foldl_fixed' (fun b => ?_) _
  split
  · show { s with quads := sdel s.quads _ } = s
    rw [hq, sdel, List.filter_nil, ← hq]
  · simp [localResolve, quadState, hq, sget]

theorem localWrite_clean {s : State} (hq : s.quads = []) (u a : Nat) (bs : List Byte) : localWrite s u a bs = modRxu s u (localStored a bs) := by
  rw [localWrite_eq, localPrepare_clean hq]

theorem localStored_mem {x : Rxu} (hbad : x.bad = []) (a : Nat) (bs : List Byte) : (localStored a bs x).mem = mwrite x.mem a bs := by
  simp [localStored, hbad]

theorem localRead_clean {s : State} (hq : s.quads = []) (u a n : Nat) : localRead s u a n = mread (rxu s u).mem a n := by
  simp [localRead, hq, localBytes]

/-! ## The end of a unit-local job (R286) -/

/-- A state with the result of a job in its block; a job without result bytes writes nothing. -/
def withResult (s : State) (u : Nat) (j : Job) (res : List Byte) : State :=
  if res.isEmpty then s else localWrite s u (j.addr + 0x30) (padTo 16 res)

theorem jobDone_eq (s : State) (u c : Nat) (j : Job) (st : St) (fl : Nat) (res : List Byte) :
    jobDone s u c j st fl res = ready (modCtx (withResult (progress s (ctxOwner s u c)) u j res) u c fun k =>
      { k with jobs := k.jobs.filter fun i => i.tk != j.tk }) u c j.tk st fl := rfl

@[simp] theorem ready_ticketsReady (s : State) (u c : Nat) (n : Word) (st : St) (fl : Nat) :
    (ready s u c n st fl).ticketsReady = s.ticketsReady ++ [{ u := u, c := c, n := n, status := st, flags := fl }] := rfl
@[simp] theorem ctx_ready (s : State) (u c d : Nat) (n : Word) (st : St) (fl : Nat) : ctx (ready s u c n st fl) u d = ctx s u d := rfl
@[simp] theorem queue_ready (s : State) (u c q : Nat) (n : Word) (st : St) (fl : Nat) : queue (ready s u c n st fl) q = queue s q := rfl
@[simp] theorem rxu_ready (s : State) (u c v : Nat) (n : Word) (st : St) (fl : Nat) : rxu (ready s u c n st fl) v = rxu s v := rfl
@[simp] theorem queue_modCtx (s : State) (u c q : Nat) (f : Ctx → Ctx) : queue (modCtx s u c f) q = queue s q := rfl
@[simp] theorem rxu_modCtx_mem (s : State) (u c : Nat) (f : Ctx → Ctx) : (rxu (modCtx s u c f) u).mem = (rxu s u).mem := by simp [modCtx]

theorem localFrom_withResult (s : State) (u : Nat) (j : Job) (res : List Byte) : LocalFrom u s (withResult s u j res) := by
  unfold withResult
  split
  · exact .refl u s
  · exact localFrom_localWrite s u _ _

theorem withResult_frame {s : State} (hq : s.quads = []) (u : Nat) (j : Job) (res : List Byte) :
    withResult s u j res = { s with rxus := (withResult s u j res).rxus } := by
  unfold withResult
  split
  · rfl
  · rw [localWrite_clean hq]; rfl

section
variable (s : State) (u c : Nat) (j : Job) (st : St) (fl : Nat) (res : List Byte)

theorem jobDone_ticketsReady : (jobDone s u c j st fl res).ticketsReady = s.ticketsReady ++ [{ u := u, c := c, n := j.tk, status := st, flags := fl }] := by
  obtain ⟨⟨_, _, _, _, hframe⟩, -⟩ := localFrom_withResult (progress s (ctxOwner s u c)) u j res
  rw [jobDone_eq, ready_ticketsReady, hframe]; rfl

theorem jobDone_jobs : (ctx (jobDone s u c j st fl res) u c).jobs = (ctx s u c).jobs.filter fun i => i.tk != j.tk := by
  obtain ⟨-, hctxs⟩ := localFrom_withResult (progress s (ctxOwner s u c)) u j res
  have hctx : ctx (withResult (progress s (ctxOwner s u c)) u j res) u c = ctx (progress s (ctxOwner s u c)) u c := by
    unfold ctx; rw [hctxs]
  rw [jobDone_eq, ctx_ready, ctx_modCtx_same, hctx]; rfl

theorem jobDone_progress : (queue (jobDone s u c j st fl res) (ctxOwner s u c)).progress = true := by
  obtain ⟨⟨_, _, _, _, hframe⟩, -⟩ := localFrom_withResult (progress s (ctxOwner s u c)) u j res
  have hqueues : (withResult (progress s (ctxOwner s u c)) u j res).queues = (progress s (ctxOwner s u c)).queues := by rw [hframe]
  have hqueue : queue (withResult (progress s (ctxOwner s u c)) u j res) (ctxOwner s u c) = queue (progress s (ctxOwner s u c)) (ctxOwner s u c) := by
    unfold queue; rw [hqueues]
  rw [jobDone_eq, queue_ready, queue_modCtx, hqueue, progress, queue_modQueue_same]

variable {s u res}

theorem jobDone_frame (hq : s.quads = []) : jobDone s u c j st fl res =
    { s with rxus := (jobDone s u c j st fl res).rxus, queues := (jobDone s u c j st fl res).queues,
             ticketsReady := (jobDone s u c j st fl res).ticketsReady } := by
  have hquads : (progress s (ctxOwner s u c)).quads = [] := hq
  rw [jobDone_eq, withResult_frame hquads]; rfl

theorem jobDone_mem (hres : res ≠ []) (hbad : (rxu s u).bad = []) (hq : s.quads = []) :
    (rxu (jobDone s u c j st fl res) u).mem = mwrite (rxu s u).mem (j.addr + 0x30) (padTo 16 res) := by
  have hquads : (progress s (ctxOwner s u c)).quads = [] := hq
  have hresult : withResult (progress s (ctxOwner s u c)) u j res = localWrite (progress s (ctxOwner s u c)) u (j.addr + 0x30) (padTo 16 res) :=
    if_neg (by simp [hres])
  rw [jobDone_eq, rxu_ready, rxu_modCtx_mem, hresult, localWrite_clean hquads, rxu_modRxu_same]
  exact localStored_mem hbad _ _

theorem jobDone_result (hres : res ≠ []) (hlen : res.length ≤ 16) (hbad : (rxu s u).bad = []) (hq : s.quads = []) :
    localRead (jobDone s u c j st fl res) u (j.addr + 0x30) 16 = padTo 16 res := by
  have hpad : (padTo 16 res).length = 16 := by simp [padTo]; omega
  have hquads : (jobDone s u c j st fl res).quads = [] := by rw [jobDone_frame c j st fl hq, hq]
  have hread := mread_mwrite (rxu s u).mem (j.addr + 0x30) (padTo 16 res)
  rw [hpad] at hread
  rw [localRead_clean hquads, jobDone_mem c j st fl hres hbad hq, hread]

end

/-! ## The unit-local jobs, case by case (R75 to R83, R189 to R196, R286) -/

section
variable (u : UIx) (c : LIx) (tk : Word) (s : State)

theorem exec_detect : exec (.detect u c tk) s = flows s fun s => detectRun s u.val c.val tk := rfl
theorem exec_fft : exec (.fft u c tk) s = flows s fun s => fftRun s u.val c.val tk := rfl
theorem exec_trellis : exec (.trellis u c tk) s = flows s fun s => trellisRun s u.val c.val tk := rfl
theorem exec_extract : exec (.extract u c tk) s = flows s fun s => extractRun s u.val c.val tk := rfl
theorem exec_calibrate : exec (.calibrate u c tk) s = flows s fun s => calibrateRun s u c tk := rfl
theorem exec_release : exec (.release u c tk) s = flows s fun s => releaseRun s u.val c.val tk := rfl

end

section
variable {s : State} {u c : Nat} {tk : Word} {j : Job}

/-! ### DETECT -/

theorem detectRun_noTurn (h : jobTurn s u c tk 1 = none) : detectRun s u c tk = s := by simp [detectRun, h]

theorem detectRun_delivers (hj : jobTurn s u c tk 1 = some j) {m : Msg} {rest : List Msg} (hd : (headTask s u c).dets = m :: rest) :
    detectRun s u c tk = jobDone (modTask s u c fun t =>
      { endMessage t with dets := rest, lost := false, current := if m.excess then none else some m }) u c j .ok 0
      (toLe 8 (m.at_ - (headTask s u c).start) ++ toLe 4 (2 * b2n m.excess)) := by simp [detectRun, hj, hd]

theorem detectRun_none (hj : jobTurn s u c tk 1 = some j) (hd : (headTask s u c).dets = []) (hc : (headTask s u c).closed = true) :
    detectRun s u c tk = jobDone (modTask s u c endMessage) u c j .ok 0 (toLe 8 0 ++ toLe 4 1) := by simp [detectRun, hj, hd, hc]

theorem detectRun_waits (hj : jobTurn s u c tk 1 = some j) (hd : (headTask s u c).dets = []) (hc : (headTask s u c).closed = false) :
    detectRun s u c tk = s := by simp [detectRun, hj, hd, hc]

/-! ### FFT and TRELLIS -/

theorem fftRun_noTurn (h : jobTurn s u c tk 2 = none) : fftRun s u c tk = s := by simp [fftRun, h]

theorem trellisRun_noTurn (h : jobTurn s u c tk 3 = none) : trellisRun s u c tk = s := by simp [trellisRun, h]

theorem fftRun_issues (hj : jobTurn s u c tk 2 = some j) : fftRun s u c tk = joinEngine s u 2 { c := c, q := ctxOwner s u c, job := j } := by
  simp [fftRun, hj]

theorem trellisRun_issues (hj : jobTurn s u c tk 3 = some j) : trellisRun s u c tk = joinEngine s u 3 { c := c, q := ctxOwner s u c, job := j } := by
  simp [trellisRun, hj]

theorem joinEngine_new {e : Nat} {k : EngJob}
    (h : ((sget [] (rxu s u).eng e).any fun i => i.uid == k.uid && i.c == k.c && i.job == k.job) = false) :
    joinEngine s u e k = modRxu s u fun x => { x with eng := sset x.eng e (sget [] x.eng e ++ [k]) } := by simp [joinEngine, h]

/-! ### EXTRACT -/

theorem extractRun_noTurn (h : jobTurn s u c tk 4 = none ∨ (stream s u c).run = none) : extractRun s u c tk = s := by
  rcases h with h | h
  · simp [extractRun, h]
  · cases hj : jobTurn s u c tk 4 <;> simp [extractRun, hj, h]

section
variable {r : SlotRun} (hj : jobTurn s u c tk 4 = some j) (hr : (stream s u c).run = some r)
include hj hr

theorem extractRun_discards (h : (headTask s u c).lost = true ∨ extractorTakes s u c j = false) :
    extractRun s u c tk = notBuilt s u c j .ok false := by
  have h' : (headTask s u c).lost = true ∨ (!extractorTakes s u c j) = true := by simpa using h
  simp only [extractRun, hj, hr, if_pos h']

variable (hl : (headTask s u c).lost = false) (ht : extractorTakes s u c j = true)
include hl ht

theorem extractRun_record (hd : sdLlr r.desc = false) : extractRun s u c tk = extractRecord s u c j r (headTask s u c) := by
  simp [extractRun, hj, hr, hl, ht, hd]

theorem extractRun_llrs (hd : sdLlr r.desc = true) : extractRun s u c tk = extractLlrs s u c j r (headTask s u c) := by
  simp [extractRun, hj, hr, hl, ht, hd]

end

section
variable {r : SlotRun} {t : Task}

theorem extractRecord_waitsItsTurn (h : extractFirst s u ≠ some (c, j.tk)) : extractRecord s u c j r t = s := if_pos h

/-- A read that delivers its bytes is not poisoned. -/
theorem poison_bytes (bs : List Byte) : Rd.poison { bytes := bs } = false := rfl

/-- What a message without a checked FCS gives its extraction program. -/
def uncheckedVals (r : SlotRun) (t : Task) (j : Job) (bs : List Byte) : MsgVals :=
  { psdu := bs, bits := leAt j.block 4 4, fcsCheck := false, fcsOk := fcsMatches bs (leAt j.block 4 4), margin := leAt j.block 0x10 4,
    mean := leAt j.block 0x14 4, least := leAt j.block 0x18 4, gain := (extractMsg t).gain, strm := leAt r.desc 6 1 }

section
variable {s1 s2 : State} {bs : List Byte} {x : Xprg} (hfirst : extractFirst s u = some (c, j.tk))
  (hreach : reaches s (runReach s u c) (leAt j.block 8 8) (cdiv (leAt j.block 4 4) 8) = true)
  (hread : readMem s r.q (0xF0 + u) (leAt j.block 8 8) (cdiv (leAt j.block 4 4) 8) = (s1, { bytes := bs }))
  (hprog : readXprg s1 (runReach s u c) u (leAt r.desc 0x28 8) = (s2, some x)) (hcheck : bitOf x.options 0 = false)
  (hring : ingestOk s2 x.queue = true)
include hfirst hreach hread hprog hcheck hring

theorem extractRecord_waitsForRoom (hroom : ringRoom s2 x.queue = 0) : extractRecord s u c j r t = s2 := by
  simp [extractRecord, hfirst, hreach, hread, poison_bytes, hprog, hcheck, hring, hroom]

theorem extractRecord_writes {rec_ : List Byte × Bool} (hroom : 0 < ringRoom s2 x.queue)
    (hrec : rec_ = buildRecord x (msgTag t.n (leAt r.desc 6 1) (extractMsg t).seq) (uncheckedVals r t j bs)) (hsat : rec_.2 = false) :
    extractRecord s u c j r t = written (regAdd (ingest s2 x.queue [rec_.1]) (rxuReg u 0x6008) 1) u c j := by
  unfold uncheckedVals at hrec
  simp [extractRecord, hfirst, hreach, hread, poison_bytes, hprog, hcheck, hring, hroom.ne', ← hrec, hsat]

end

theorem extractLlrs_writes {s1 : State} {bs : List Byte} (hreach : reaches s (runReach s u c) (leAt j.block 8 8) (leAt j.block 4 4) = true)
    (hfits : t.llrUsed + (16 + alignUp (leAt j.block 4 4) 16) ≤ leAt r.desc 0x4C 4)
    (hread : readMem s r.q (0xF0 + u) (leAt j.block 8 8) (leAt j.block 4 4) = (s1, { bytes := bs })) :
    extractLlrs s u c j r t = written (modTask (writeMem s1 r.q (0xF0 + u) (llrRegion r t + t.llrUsed)
      (llrHeader s1 u r t (leAt j.block 4 4) ++ padTo (alignUp (leAt j.block 4 4) 16) bs)).1 u c
      fun t => { t with llrUsed := t.llrUsed + (16 + alignUp (leAt j.block 4 4) 16) }) u c j := by
  simp [extractLlrs, hreach, hfits.not_gt, hread, poison_bytes]

end

/-! ### RELEASE -/

theorem releaseRun_noTurn (h : jobTurn s u c tk 6 = none) : releaseRun s u c tk = s := by simp [releaseRun, h]

theorem releaseRun_releases (hj : jobTurn s u c tk 6 = some j)
    (h : leAt j.block 8 8 = 0 ∨ (headTask s u c).start + leAt j.block 8 8 ≤ (stream s u c).samples) :
    releaseRun s u c tk = jobDone (releaseFreeze s u c) u c j .ok 0 [] := by simp [releaseRun, hj, h]

theorem releaseRun_sets (hj : jobTurn s u c tk 6 = some j) (hat : leAt j.block 8 8 ≠ 0)
    (hlate : (stream s u c).samples < (headTask s u c).start + leAt j.block 8 8)
    (hfrozen : (stream s u c).agc.frozen = true ∨ (stream s u c).agc.lateFreeze = true) :
    releaseRun s u c tk = jobDone (modAgc s u c fun a => { a with release := some ((headTask s u c).start + leAt j.block 8 8) }) u c j .ok 0 [] := by
  simp [releaseRun, hj, hat, hlate.not_ge, hfrozen]

end

/-! ### CALIBRATE -/

section
variable {s : State} {u : UIx} {c : LIx} {tk : Word} {j : Job} {r : SlotRun}

theorem calibrateRun_noTurn (h : jobTurn s u.val c.val tk 5 = none ∨ (stream s u.val c.val).run = none) : calibrateRun s u c tk = s := by
  rcases h with h | h
  · simp [calibrateRun, h]
  · cases hj : jobTurn s u.val c.val tk 5 <;> simp [calibrateRun, hj, h]

variable (hj : jobTurn s u.val c.val tk 5 = some j) (hr : (stream s u.val c.val).run = some r) (hcal : (ctx s u.val c.val).cal = none)
include hj hr hcal

theorem calibrateRun_outside (hreach : reaches s (runReach s u.val c.val) (leAt j.block 0x10 8) (8 * leAt j.block 4 4) = false) :
    calibrateRun s u c tk = jobDone s u.val c.val j .aperture 0 [] := by simp [calibrateRun, hj, hr, hcal, hreach]

theorem calibrateRun_plain (hreach : reaches s (runReach s u.val c.val) (leAt j.block 0x10 8) (8 * leAt j.block 4 4) = true)
    (hen : sdCal r.desc = false) :
    calibrateRun s u c tk = jobDone (writeMem s r.q (coreId u.val) (leAt j.block 0x10 8) (List.replicate (leAt j.block 4 4) plainScale).flatten).1
      u.val c.val j .ok 0 (toLe 4 0) := by simp [calibrateRun, hj, hr, hcal, hreach, hen]

end

/-! ## The events of the unit's jobs -/

section
variable {s : State} {u : UIx} {c : LIx} {tk : Word} (hs : s.flowing)
include hs

/-- A completion where no context of the unit waits: the ticket's outcome is noted, and the rest of the machine is as it was. -/
theorem ticketComplete_notes {x : TicketOut} (hready : (s.ticketsReady.find? fun t => t.u == u.val && t.c == c.val && t.n == tk) = some x)
    (hturn : ticketWaits s u.val c.val tk = false) (hcal : (ctx s u.val c.val).cal = none) (hnone : NoneWaits s u.val) :
    Answers (.ticketComplete u c tk) s fun t => (ctx t u.val c.val).out = (ctx s u.val c.val).out.filter (fun y => y.1 != tk) ∧
      (ctx t u.val c.val).outcomes = ((tk, outcomeWord x.status x.flags) :: (ctx s u.val c.val).outcomes).filter (fun y => (ctx s u.val c.val).recent y.1) ∧
      t.ticketsReady = s.ticketsReady.filter (fun t => !(t.u == u.val && t.c == c.val && t.n == tk)) ∧
      t = { s with rxus := t.rxus, ticketsReady := t.ticketsReady, hif := t.hif } := by
  have hctx := ctx_modCtx_same (takeReady s u.val c.val tk) u.val c.val fun k => k.noted tk (outcomeWord x.status x.flags)
  exact answers_of_run (exec_ticketComplete u c tk s) hs (ticketRun_noneWaits hready hturn hcal hnone) hs.1
    fun _ => ⟨congrArg Ctx.out hctx, congrArg Ctx.outcomes hctx, rfl, rfl⟩

/-- A completion that the only context of the unit waits for: it runs on with the outcome. -/
theorem ticketComplete_wakes {x : TicketOut} (hready : (s.ticketsReady.find? fun t => t.u == u.val && t.c == c.val && t.n == tk) = some x)
    (hturn : ticketWaits s u.val c.val tk = false) (hcal : (ctx s u.val c.val).cal = none) {k : Ctx} {rd : Nat}
    (honly : OnlyCtx s u.val c.val k) (hst : k.st = .blocked (.wait rd tk)) (hrecent : k.recent tk = true) :
    Answers (.ticketComplete u c tk) s fun t => (ctx t u.val c.val).st = .running ∧ (ctx t u.val c.val).pc = k.pc + 4 ∧
      (rd ≠ 0 → ctxReg (ctx t u.val c.val) rd = outcomeWord x.status x.flags) ∧
      t = { s with rxus := t.rxus, ticketsReady := t.ticketsReady, hif := t.hif } := by
  obtain ⟨hctx, hframe⟩ := ticketRun_onlyWait hready hturn hcal honly hst hrecent
  generalize hv : ticketRun s u c tk = v at hctx hframe
  refine answers_of_run (exec_ticketComplete u c tk s) hs hv (hframe ▸ hs.1) fun h => ?_
  have hctx' : ctx { v with hif := h } u.val c.val = ctx v u.val c.val := rfl
  rw [hctx', hctx]
  refine ⟨rfl, congrArg (· + 4) (put_pc _ _ _), fun hrd => ?_, ?_⟩
  · exact ctxReg_put (k := k.noted tk _) _ hrd
  · generalize v.rxus = rx at hframe
    rw [hframe]; rfl

/-- FFT and TRELLIS join the operations of their engine (R200). -/
theorem engineJob_issues {j : Job} {e : Nat} {i : Instr} (hi : e = 2 ∧ i = .fft u c tk ∨ e = 3 ∧ i = .trellis u c tk)
    (hj : jobTurn s u.val c.val tk e = some j)
    (hnew : ((sget [] (rxu s u.val).eng e).any fun k => k.uid == none && k.c == c.val && k.job == j) = false) :
    exec i s = .next (finish s (modRxu s u.val fun x =>
      { x with eng := sset x.eng e (sget [] x.eng e ++ [{ c := c.val, q := ctxOwner s u.val c.val, job := j }]) })) := by
  have hjoins := joinEngine_new (k := { c := c.val, q := ctxOwner s u.val c.val, job := j }) hnew
  rcases hi with ⟨rfl, rfl⟩ | ⟨rfl, rfl⟩
  · have hrun := (fftRun_issues hj).trans hjoins
    rw [exec_fft, flows_next hs (hrun ▸ hs.1), hrun]
  · have hrun := (trellisRun_issues hj).trans hjoins
    rw [exec_trellis, flows_next hs (hrun ▸ hs.1), hrun]

end

/-- Settles O59: the completion of a ticket, then each job by the lemmas on its run function, then what the end of a job does. -/
theorem unitJobs : Obligations.UnitJobs := by
  unfold Obligations.UnitJobs
  refine ⟨fun s u c tk hs => ⟨?waits, ?completes, ?detectIdle, ?fftIdle, ?trellisIdle, ?extractIdle, ?calibrateIdle, ?releaseIdle, ?detect,
    ?engines, ?extract, ?calibrate, ?release⟩, fun s u c j st fl res => ⟨jobDone_ticketsReady s u c j st fl res, jobDone_jobs s u c j st fl res,
    jobDone_progress s u c j st fl res, jobDone_result c j st fl, jobDone_frame c j st fl⟩⟩
  case waits => exact fun h => exec_of_run_self (exec_ticketComplete u c tk s) hs (ticketRun_waits h)
  case completes =>
    exact fun x hready hturn hcal => ⟨ticketComplete_notes hs hready hturn hcal, fun k rd => ticketComplete_wakes hs hready hturn hcal⟩
  case detectIdle => exact fun h => exec_of_run_self (exec_detect u c tk s) hs (detectRun_noTurn h)
  case fftIdle => exact fun h => exec_of_run_self (exec_fft u c tk s) hs (fftRun_noTurn h)
  case trellisIdle => exact fun h => exec_of_run_self (exec_trellis u c tk s) hs (trellisRun_noTurn h)
  case extractIdle => exact fun h => exec_of_run_self (exec_extract u c tk s) hs (extractRun_noTurn h)
  case calibrateIdle => exact fun h => exec_of_run_self (exec_calibrate u c tk s) hs (calibrateRun_noTurn h)
  case releaseIdle => exact fun h => exec_of_run_self (exec_release u c tk s) hs (releaseRun_noTurn h)
  case detect =>
    rintro j x hj rfl
    exact ⟨fun m rest hd => becomes_of_run (exec_detect u c tk s) hs (detectRun_delivers hj hd),
      fun hd hc => becomes_of_run (exec_detect u c tk s) hs (detectRun_none hj hd hc),
      fun hd hc => exec_of_run_self (exec_detect u c tk s) hs (detectRun_waits hj hd hc)⟩
  case engines => exact fun j e i => engineJob_issues hs
  case extract =>
    rintro j r t hj hr rfl
    refine ⟨fun h => becomes_of_run (exec_extract u c tk s) hs (extractRun_discards hj hr h), fun hl ht hd hfirst => ?later,
      fun s1 s2 bs x hl ht hd hfirst hreach hread hprog hcheck hring => ⟨fun hroom => ?noRoom, fun rec_ hroom hrec hsat => ?record⟩,
      fun s1 bs hl ht hd hreach hfits hread => ?llrs⟩
    case later =>
      exact exec_of_run_self (exec_extract u c tk s) hs ((extractRun_record hj hr hl ht hd).trans (extractRecord_waitsItsTurn hfirst))
    case noRoom =>
      exact becomes_of_run (exec_extract u c tk s) hs
        ((extractRun_record hj hr hl ht hd).trans (extractRecord_waitsForRoom hfirst hreach hread hprog hcheck hring hroom))
    case record =>
      exact becomes_of_run (exec_extract u c tk s) hs
        ((extractRun_record hj hr hl ht hd).trans (extractRecord_writes hfirst hreach hread hprog hcheck hring hroom hrec hsat))
    case llrs =>
      exact becomes_of_run (exec_extract u c tk s) hs ((extractRun_llrs hj hr hl ht hd).trans (extractLlrs_writes hreach hfits hread))
  case calibrate =>
    exact fun j r hj hr hcal => ⟨fun hreach => becomes_of_run (exec_calibrate u c tk s) hs (calibrateRun_outside hj hr hcal hreach),
      fun hreach hen => becomes_of_run (exec_calibrate u c tk s) hs (calibrateRun_plain hj hr hcal hreach hen)⟩
  case release =>
    exact fun j hj => ⟨fun h => becomes_of_run (exec_release u c tk s) hs (releaseRun_releases hj h),
      fun hat hlate hfrozen => becomes_of_run (exec_release u c tk s) hs (releaseRun_sets hj hat hlate hfrozen)⟩

end Sys2Proof.Machine
end

section
/-! The proofs of the family `04_hedges.md`: what the enable bits do outside a shutdown (O11), the rejoining of a hedge and the snapshots
(O12), the opens, borrows and record slots (O48), and the end of a step on its hedge with the replay of a tile (O46). -/

namespace Sys2Proof.Machine

/-! ## From the run function of a register write to the statement's form -/

section
variable {i : Instr} {s u : State} {f : State → State}

/-- A served register write that waits for no host access ends as its run function says. -/
theorem exec_of_write (hexec : exec i s = host s f) (hs : s.hosted) (hrun : f s = u) (w : u.hostWait = false) :
    exec i s = .next (finish s u) := by
  subst hrun
  rw [hexec, host_next hs w]

/-- A served register write that waits for no host access answers what its run function gives, the interrupt messages apart. -/
theorem answers_of_write {p : State → Prop} (hexec : exec i s = host s f) (hs : s.hosted) (hrun : f s = u) (w : u.hostWait = false)
    (hp : ∀ h, p { u with hif := h }) : Answers i s p := by
  subst hrun
  rw [Answers, hexec]
  exact host_answers hs w hp

/-- A command that acts in every state answers what its run function gives, the interrupt messages apart. -/
theorem answers_of_done {p : State → Prop} (hexec : exec i s = done s u) (w : u.hostWait = false) (hp : ∀ h, p { u with hif := h }) :
    Answers i s p := by
  rw [Answers, hexec]
  exact done_answers w hp

end

@[simp] theorem uport_modPort_same (s : State) (p : Nat) (f : UPort → UPort) : uport (modPort s p f) p = f (uport s p) := by
  simp [uport, modPort]

/-! ## Enable bits outside a shutdown (R97, R188, R268, R331, R422) -/

theorem Enable.write_on {e : Enable} (h : e.disabling = false) (busy : Bool) : e.write true busy = { e with en := true } := by
  simp [Enable.write, h]

/-- Clearing EN starts the shutdown where one is needed. -/
theorem Enable.write_off (busy : Bool) : ({ en := true } : Enable).write false busy = { disabling := busy } := rfl

section
variable {s : State} {h : Nat} (hr : (hedge s h).restructuring = false)
include hr

theorem hedgeEnRun_on (hdis : (hedge s h).en.disabling = false) (hrole : role s h ≠ 0) :
    hedgeEnRun s h true = modHedge s h fun e => { e with en := { e.en with en := true } } := by
  simp [hedgeEnRun, hr, hrole, modHedge, Enable.write_on hdis]

/-- A hedge whose EN is cleared shuts down while it runs a step. -/
theorem hedgeEnRun_off (hen : (hedge s h).en = { en := true }) :
    hedgeEnRun s h false = modHedge s h fun e => { e with en := { disabling := e.run.isSome } } := by
  simp [hedgeEnRun, hr, modHedge, hen, Enable.write_off]

end

theorem rexEnRun_on {s : State} {u : Nat} (hdis : (rxu s u).rex.disabling = false) :
    rexEnRun s u true = modRxu s u fun x => { x with rex := { x.rex with en := true } } := by
  simp [rexEnRun, modRxu, Enable.write_on hdis]

/-- What the start of a unit's gain loops leaves: all but registers and units, and the unit's enable bit. -/
def GainFrom (u : Nat) (s t : State) : Prop :=
  (∃ regs rxus, t = { s with regs := regs, rxus := rxus }) ∧ (rxu t u).en = (rxu s u).en

theorem GainFrom.refl (u : Nat) (s : State) : GainFrom u s s := ⟨⟨_, _, rfl⟩, rfl⟩

theorem GainFrom.trans {u : Nat} {s t v : State} (hst : GainFrom u s t) (htv : GainFrom u t v) : GainFrom u s v := by
  obtain ⟨⟨_, _, rfl⟩, hs⟩ := hst
  obtain ⟨⟨_, _, rfl⟩, ht⟩ := htv
  exact ⟨⟨_, _, rfl⟩, ht.trans hs⟩

theorem gainFrom_modAgc (s : State) (u l : Nat) (f : Agc → Agc) : GainFrom u s (modAgc s u l f) :=
  ⟨⟨_, _, rfl⟩, by simp only [modAgc, modStream, rxu_modRxu_same]⟩

theorem gainFrom_queueGain (s : State) (u l g : Nat) : GainFrom u s (queueGain s u l g) := by
  have hqueue := gainFrom_modAgc s u l fun _ => ((stream s u l).agc.queue g).1
  unfold queueGain
  dsimp only
  split
  · exact hqueue.trans (regOr_frame _ _ _ ▸ ⟨⟨_, _, rfl⟩, rfl⟩)
  · exact hqueue

/-- The unit's start takes its permanent tokens, and beside them reaches registers and the units' gain loops alone (R174 to R176). -/
theorem gainFrom_startUnit (s : State) (u : Nat) : GainFrom u (holdRx s (tokensRx s)) (startUnit s u) := by
  unfold startUnit
  refine List.foldlRecOn _ _ (.refl u _) fun t ht l _ => ht.trans ?_
  dsimp only
  split
  · exact (gainFrom_modAgc t u l _).trans (gainFrom_queueGain _ u l _)
  · exact gainFrom_modAgc t u l _

theorem rxuEnRun_starts {s : State} {u : Nat} (hen : (rxu s u).en = {}) (hl : unitLanes s u ≠ 0) :
    rxuEnRun s u true = startUnit (modRxu s u fun x => { x with en := { en := true } }) u := by
  simp [rxuEnRun, hen, hl, Enable.write]

/-- A port that is enabled while the bypass is open starts to train (R331). -/
theorem portEn_trains {s : State} {p : Nat} (hen : (uport s p).en = {}) (hst : (uport s p).st = 0) (hu : portUsed s p = true)
    (ho : s.glb.bypassOpen = true) :
    portEn s p true = modPort (modPort s p fun u => { u with en := { en := true } }) p fun u => { u with st := 1 } := by
  have hwritten : (modPort s p fun u => { u with en := u.en.write true false }) = modPort s p fun u => { u with en := { en := true } } := by
    simp [modPort, hen, Enable.write_on]
  generalize ht : (modPort s p fun u => { u with en := { en := true } }) = t at hwritten
  have hself : (uport t p).en = { en := true } := by rw [← ht, uport_modPort_same]
  have hused : portUsed t p = true := by rw [← ht]; exact hu
  have hopen : t.glb.bypassOpen = true := by rw [← ht]; exact ho
  simp [portEn, hen, hu, hst, hwritten, hself, hused, hopen]

/-- A port whose link is down sends nothing (R424). -/
theorem sendWaiting_linkDown {s : State} {m : Nat} (h : (mac s m).link = false) : sendWaiting s m = s := by
  simp [sendWaiting, macMaySend, h]

theorem macEnRun_on {s : State} {m : Nat} (hl : (mac s m).link = false) (hdis : (mac s m).en.disabling = false) :
    macEnRun s m true = modMac s m fun k => { k with en := { k.en with en := true } } := by
  have hwritten : (modMac s m fun k => { k with en := k.en.write true (!k.rx.isEmpty || !k.tx.isEmpty) }) =
      modMac s m fun k => { k with en := { k.en with en := true } } := by
    simp [modMac, Enable.write_on hdis]
  rw [macEnRun, hwritten]
  exact sendWaiting_linkDown (by simp [hl])

/-- Settles O11, a clause for each enable bit: each write is an update of the one enable, and a unit's and a port's start beside it. -/
theorem enablesTakeEffect : Obligations.EnablesTakeEffect := by
  unfold Obligations.EnablesTakeEffect
  intro s hs
  refine ⟨fun h hdis hr hrole => ?hedgeOn, fun h hen hr => ?hedgeOff, fun u hen hl => ?unit, fun u hdis => ?extractor,
    fun p hen hst hu ho => ?port, fun m hdis hl => ?mac⟩
  case hedgeOn =>
    refine answers_of_write (f := fun s => hedgeEnRun s h.val true) rfl hs (hedgeEnRun_on hr hdis hrole) hs.1 fun w => ⟨?_, rfl⟩
    simp [hedge]
  case hedgeOff =>
    refine answers_of_write (f := fun s => hedgeEnRun s h.val false) rfl hs (hedgeEnRun_off hr hen) hs.1 fun w => ⟨?_, ?_, rfl⟩
    · simp [hedge]
    · simp [hedge]
  case unit =>
    obtain ⟨⟨regs, rxus, hframe⟩, hkept⟩ := gainFrom_startUnit (modRxu s u.val fun x => { x with en := { en := true } }) u.val
    have hset : (rxu (modRxu s u.val fun x => { x with en := { en := true } }) u.val).en = { en := true } := by rw [rxu_modRxu_same]
    refine answers_of_write (f := fun s => rxuEnRun s u.val true) rfl hs (rxuEnRun_starts hen hl) ?_ fun w => ⟨hkept.trans hset, ?_, ?_⟩
    · rw [hframe]; exact hs.1
    · rw [hframe]; rfl
    · rw [hframe]; rfl
  case extractor =>
    refine answers_of_write (f := fun s => rexEnRun s u.val true) rfl hs (rexEnRun_on hdis) hs.1 fun w => ⟨?_, rfl⟩
    simp [rxu]
  case port =>
    refine answers_of_write (f := fun s => portEn s p.val true) rfl hs (portEn_trains hen hst hu ho) hs.1 fun w => ⟨?_, ?_, rfl⟩
    · simp [uport, modPort]
    · simp [uport, modPort]
  case mac =>
    refine answers_of_write (f := fun s => macEnRun s m.val true) rfl hs (macEnRun_on hl hdis) hs.1 fun w => ⟨?_, rfl⟩
    simp [mac]

/-! ## Rejoining (R107) -/

theorem rejoinRun_requests {s : State} {h : Nat} (hd : (hedge s h).detachedFrom ≠ []) :
    rejoinRun s h = { s with hedges := sset s.hedges h { hedge s h with rejoin := true } } := by
  simp [rejoinRun, modHedge, setHedge, hd]

theorem rejoinedRun_rejoins {s : State} {h : Nat} (hr : (hedge s h).rejoin = true) :
    rejoinedRun s h = { s with hedges := sset s.hedges h { hedge s h with detachedFrom := [], rejoin := false } } := by
  simp [rejoinedRun, modHedge, setHedge, hr]

/-! ## Snapshots (R109, R312, R392) -/

theorem hdgSnapRequest_requests {s : State} {h : Nat} (hr : (hedge s h).snapReq = false) :
    hdgSnapRequest s h = { s with hedges := sset s.hedges h { hedge s h with snapReq := true, snapValid := false } } := by
  simp [hdgSnapRequest, modHedge, setHedge, hr]

/-- The registers of a hedge's snapshot before the counts of its rows: the counts of the four partitions. -/
def partsLatched (s : State) (h : Nat) : State :=
  (List.range 4).foldl (fun s p => regSet (regSet (regSet s (hdgReg h (0x84 + 16 * p)) (BitVec.ofNat 32 (partCounts s h p).1))
    (hdgReg h (0x88 + 16 * p)) (BitVec.ofNat 32 (partCounts s h p).2.1)) (hdgReg h (0x8C + 16 * p)) (BitVec.ofNat 32 (partCounts s h p).2.2)) s

theorem partsLatched_frame (s : State) (h : Nat) : ∃ regs, partsLatched s h = { s with regs := regs } := by
  unfold partsLatched
  refine List.foldlRecOn (motive := fun t : State => ∃ regs, t = { s with regs := regs }) _ _ ⟨_, rfl⟩ fun t ht p _ => ?_
  obtain ⟨regs, rfl⟩ := ht
  exact ⟨_, rfl⟩

theorem hdgSnapLatch_latches {s : State} {h : Nat} (hr : (hedge s h).snapReq = true) :
    ∃ regs, hedge (hdgSnapLatch s h) h = { hedge s h with snapReq := false, snapValid := true } ∧
      regGet (hdgSnapLatch s h) (hdgReg h 0x100) = BitVec.ofNat 32 (freeRows s h) ∧
      hdgSnapLatch s h = { s with hedges := (hdgSnapLatch s h).hedges, regs := regs } := by
  obtain ⟨regs, hparts⟩ := partsLatched_frame s h
  have hlatch : hdgSnapLatch s h = modHedge (regSet (regSet (regSet (partsLatched s h)
      (hdgReg h 0x100) (BitVec.ofNat 32 (freeRows (partsLatched s h) h)))
      (hdgReg h 0x104) (BitVec.ofNat 32 (rowsOfGroups (partsLatched s h) h false)))
      (hdgReg h 0x108) (BitVec.ofNat 32 (rowsOfGroups (partsLatched s h) h true))) h fun e => { e with snapReq := false, snapValid := true } := by
    unfold hdgSnapLatch
    rw [hr]
    rfl
  rw [hparts] at hlatch
  rw [hlatch]
  refine ⟨_, hedge_modHedge_same _ _ _, ?_, rfl⟩
  have h4 : hdgReg h 0x104 ≠ hdgReg h 0x100 := by simp [hdgReg]
  have h8 : hdgReg h 0x108 ≠ hdgReg h 0x100 := by simp [hdgReg]
  have hreg (u : State) (f : Hedge → Hedge) : regGet (modHedge u h f) (hdgReg h 0x100) = regGet u (hdgReg h 0x100) := rfl
  rw [hreg, regGet_regSet_ne _ _ _ _ h8, regGet_regSet_ne _ _ _ _ h4, regGet_regSet_same]
  rfl

/-- A port with the counts of a channel latched: held, under way and buffered. -/
def snappedPort (vc n : Nat) (u : UPort) : UPort :=
  { u with snapWait := u.snapWait.filter (· != vc), snapValid := (u.snapWait.filter (· != vc)).isEmpty,
           creds := sset u.creds vc (heldOf u vc, 128 - heldOf u vc - n, n) }

theorem snapRun_waits {s : State} {p vc n : Nat} (hc : creditsHome (uport s p) vc n = false) : snapRun s p vc n = s := by
  simp [snapRun, hc]

theorem snapRun_latches {s : State} {p vc n : Nat} (hst : (uport s p).st = 2) (hv : vc ∈ (uport s p).snapWait)
    (hc : creditsHome (uport s p) vc n = true) : snapRun s p vc n = modPort s p (snappedPort vc n) := by
  simp [snapRun, hst, hv, hc, modPort, snappedPort]

/-- What is held and what is buffered are at most the 128 credits of a channel. -/
theorem creditsHome_le {u : UPort} {vc n : Nat} (h : creditsHome u vc n = true) : heldOf u vc + n ≤ 128 := by
  simp only [creditsHome, Bool.and_eq_true, decide_eq_true_eq] at h
  exact h.1

theorem pwrSnapRequest_requests {s : State} (h : s.pwr.snapReq = false) :
    pwrSnapRequest s = { s with pwr := { s.pwr with snapReq := true, snapValid := false } } := by
  simp [pwrSnapRequest, h]

theorem pwrSnapLatch_latches {s : State} (h : s.pwr.snapReq = true) :
    ∃ w, pwrSnapLatch s = regSet { s with pwr := { s.pwr with snapReq := false, snapValid := true } } (pwrReg 0xC) w := by
  rw [pwrSnapLatch, h]
  exact ⟨_, rfl⟩

/-- Settles O12: each request and each latch is an equation of its run function. -/
theorem rejoinAndSnapshots : Obligations.RejoinAndSnapshots := by
  unfold Obligations.RejoinAndSnapshots
  refine ⟨fun s h hs hd => exec_of_write (f := fun s => rejoinRun s h.val) rfl hs (rejoinRun_requests hd) hs.1, fun s h hs hr => ?rejoined,
    fun s h hs hr => exec_of_write (f := fun s => hdgSnapRequest s h.val) rfl hs (hdgSnapRequest_requests hr) hs.1, fun s h hs hr => ?hedgeLatch,
    fun s p hs => ?credits, fun s p vc n hs hst hv => ⟨fun hc => ?snap, fun hc => ?snapWaits⟩,
    fun s hs hr => exec_of_write (f := pwrSnapRequest) rfl hs (pwrSnapRequest_requests hr) hs.1, fun s hs hr => ?bookLatch⟩
  case rejoined =>
    have hrun := rejoinedRun_rejoins hr
    rw [show exec (.hedgeRejoined h) s = flows s fun s => rejoinedRun s h.val from rfl, flows_next hs (hrun ▸ hs.1), hrun]
  case hedgeLatch =>
    obtain ⟨regs, hself, hreg, hframe⟩ := hdgSnapLatch_latches hr
    refine alive_answers (f := fun s => hdgSnapLatch s h.val) hs ?_ fun w => ⟨hself, hreg, ?_⟩
    · rw [hframe]; exact hs.1
    · rw [hframe]
  case credits =>
    have hself := uport_modPort_same s p.val fun u => { u with snapWait := List.range 6, snapValid := false }
    exact answers_of_write (f := fun s => snapRequest s p.val) rfl hs rfl hs.1 fun w => ⟨hself, rfl⟩
  case snap =>
    have hle := creditsHome_le hc
    have hself := uport_modPort_same s p.val (snappedPort vc.val n.toNat)
    have hcreds := (congrArg (fun u => sget (0, 0, 0) u.creds vc.val) hself).trans (sget_sset_same _ _ _ _)
    have hwait : vc.val ∉ (uport (modPort s p.val (snappedPort vc.val n.toNat)) p.val).snapWait := by simp [snappedPort]
    exact answers_of_done (congrArg (done s) (snapRun_latches hst hv hc)) hs fun w => ⟨hcreds, by omega, hwait, rfl⟩
  case snapWaits =>
    exact (congrArg (done s) (snapRun_waits hc)).trans (done_next hs)
  case bookLatch =>
    obtain ⟨v, hrun⟩ := pwrSnapLatch_latches hr
    exact answers_of_done (congrArg (done s) hrun) hs fun w => ⟨rfl, fun o ho => regGet_regSet_ne _ _ o v (Ne.symm ho), rfl⟩

/-! ## What an access to device memory leaves (R222, R336, R342)

An access to device memory may count and log errors and change stored quads and bytes; it opens no access to the host. -/

@[simp] theorem regOr_hostWait (s : State) (o m : Nat) : (regOr s o m).hostWait = s.hostWait := by rw [regOr_frame]
@[simp] theorem regCount_hostWait (s : State) (o n : Nat) : (regCount s o n).hostWait = s.hostWait := by rw [regCount_frame]
@[simp] theorem logEvent_hostWait (s : State) (code source sev : Nat) (d : List Byte) : (logEvent s code source sev d).hostWait = s.hostWait := rfl
@[simp] theorem captureErr_hostWait (s : State) (store kind who a : Nat) : (captureErr s store kind who a).hostWait = s.hostWait := by
  unfold captureErr; split <;> simp
@[simp] theorem countCe_hostWait (s : State) (store : Nat) : (countCe s store).hostWait = s.hostWait := by
  unfold countCe; dsimp only; split <;> simp
@[simp] theorem countUe_hostWait (s : State) (store who a : Nat) : (countUe s store who a).hostWait = s.hostWait := by simp [countUe]
@[simp] theorem countAe_hostWait (s : State) (store who a : Nat) : (countAe s store who a).hostWait = s.hostWait := by simp [countAe]
@[simp] theorem countPoison_hostWait (s : State) (store : Nat) : (countPoison s store).hostWait = s.hostWait := by simp [countPoison]

/-- `t` is `s` but for what an access to device memory may change. -/
def DeviceFrom (s t : State) : Prop := ReadFrom s t ∧ t.hostWait = s.hostWait

theorem DeviceFrom.refl (s : State) : DeviceFrom s s := ⟨.refl s, rfl⟩

theorem DeviceFrom.trans {s t u : State} (hst : DeviceFrom s t) (htu : DeviceFrom t u) : DeviceFrom s u :=
  ⟨hst.1.trans htu.1, htu.2.trans hst.2⟩

/-- The fields that an access to device memory may change. -/
theorem DeviceFrom.frame {s t : State} (h : DeviceFrom s t) :
    ∃ regs hif sage quads mem, t = { s with regs := regs, hif := hif, sage := sage, quads := quads, mem := mem } := by
  obtain ⟨⟨_, _, _, _, _, _, rfl⟩, hw⟩ := h
  dsimp only at hw
  subst hw
  exact ⟨_, _, _, _, _, rfl⟩

theorem deviceFrom_mem (s : State) (m : List Host.Cell) : DeviceFrom s { s with mem := m } := ⟨⟨_, _, _, _, _, _, rfl⟩, rfl⟩

theorem deviceFrom_setQuad (s : State) (m : List Host.Cell) (store f : Nat) (v : QuadState) :
    DeviceFrom s (setQuad { s with mem := m } store f v) := ⟨readFrom_setQuad s m store f v, rfl⟩

theorem deviceFrom_countCe (s : State) (store : Nat) : DeviceFrom s (countCe s store) := ⟨readFrom_countCe s store, countCe_hostWait s store⟩

theorem deviceFrom_countUe (s : State) (store who a : Nat) : DeviceFrom s (countUe s store who a) :=
  ⟨readFrom_countUe s store who a, countUe_hostWait s store who a⟩

theorem deviceFrom_countAe (s : State) (store who a : Nat) : DeviceFrom s (countAe s store who a) :=
  ⟨readFrom_countAe s store who a, countAe_hostWait s store who a⟩

theorem deviceFrom_countPoison (s : State) (store : Nat) : DeviceFrom s (countPoison s store) :=
  ⟨readFrom_countPoison s store, countPoison_hostWait s store⟩

/-! ### Writes (R342) -/

theorem deviceFrom_mergeQuad (s : State) (who a off : Nat) (bs : List Byte) : DeviceFrom s (mergeQuad s who a off bs) := by
  have hput (t : State) (x store f : Nat) (v : QuadState) :
      DeviceFrom t (setQuad { flipQuad t a x with mem := mwrite (flipQuad t a x).mem (a + off) bs } store f v) :=
    (deviceFrom_mem t _).trans (deviceFrom_setQuad _ _ _ _ _)
  unfold mergeQuad
  cases storeOf s a with
  | none => exact .refl s
  | some p =>
    dsimp only
    generalize quadState s p.1 (a / 16) = v
    split
    · exact deviceFrom_mem s _
    · cases classify v.poison (quadZero s a) v.err.toNat v.adx.toNat with
      | clean => exact hput s _ _ _ _
      | poisoned => exact .refl s
      | ce b =>
        cases b
        · exact (deviceFrom_countCe s p.1).trans (hput _ _ _ _ _)
        · exact deviceFrom_countCe s p.1
      | ue => exact (deviceFrom_countUe s p.1 who a).trans (deviceFrom_setQuad _ _ _ _ _)
      | ae => exact (deviceFrom_countAe s p.1 who a).trans (deviceFrom_setQuad _ _ _ _ _)

theorem deviceFrom_writeDevice (who n : Nat) (s : State) (a : Nat) (bs : List Byte) : DeviceFrom s (writeDevice who n s a bs) := by
  induction n generalizing s a bs with
  | zero => exact .refl s
  | succ n ih =>
    simp only [writeDevice]
    split
    · exact .refl s
    · refine DeviceFrom.trans ?_ (ih _ _ _)
      split
      · split
        · exact deviceFrom_setQuad s _ _ _ _
        · exact .refl s
      · exact deviceFrom_mergeQuad s _ _ _ _

theorem deviceFrom_writeMem {a : Nat} (h : isHost a = false) (s : State) (q who : Nat) (bs : List Byte) :
    DeviceFrom s (writeMem s q who a bs).1 := by
  unfold writeMem
  split
  · exact .refl s
  · simp only [h, Bool.false_eq_true, if_false]
    split
    · exact .refl s
    · exact deviceFrom_writeDevice who _ s a bs

/-- A quad of device memory written poisoned. -/
theorem deviceFrom_writePoison {a : Nat} (h : isHost a = false) (s : State) (q : Nat) : DeviceFrom s (writePoison 1 s q a).1 := by
  simp only [writePoison, h, Bool.false_eq_true, if_false]
  cases storeOf s a with
  | none => exact .refl s
  | some p => exact deviceFrom_setQuad s _ _ _ _

/-! ## The addresses of record slots (R27, R101) -/

theorem le_lt (bs : List Byte) : le bs < 256 ^ bs.length := by
  induction bs with
  | nil => simp [le]
  | cons b bs ih =>
    have hb := b.isLt
    rw [le, List.length_cons, Nat.pow_succ]
    omega

theorem leAt_lt (bs : List Byte) (off n : Nat) : leAt bs off n < 256 ^ n := by
  have hlen : (sub bs off n).length ≤ n := by simp only [sub, List.length_take]; omega
  exact lt_of_lt_of_le (le_lt _) (Nat.pow_le_pow_right (by omega) hlen)

theorem slotBytes_lt (s : State) (h p : Nat) : slotBytes s h p < 64 * 256 := by
  have hfield := leAt_lt s.pleach (0x80 + 64 * h + (8 + 4 * p)) 1
  simp only [slotBytes, hEntry, plAt]
  omega

/-- The slots of a hedge lie in its scratchpad, below the addresses of the host. -/
theorem recAddr_lt {h : Nat} (hh : h < 16) (s : State) (p i : Nat) : recAddr s h p i + 64 * 256 < 2 ^ 63 := by
  unfold recAddr
  generalize ((List.range p).map fun k => slotBytes s h k * slotCount s h k).sum + i * slotBytes s h p = x
  have hx := Nat.mod_lt x (show 0 < Config.hedgeScratchSize by decide)
  simp only [Config.hedgeScratchBase, Config.hedgeScratchSize] at hx ⊢
  omega

theorem recAddr_notHost {h : Nat} (hh : h < 16) (s : State) (p i : Nat) : isHost (recAddr s h p i) = false := by
  have haddr := recAddr_lt hh s p i
  exact isHost_false (by omega)

/-! ## Record slots and skids (R101 to R105) -/

section
variable (s : State) (h p g : Nat)

@[simp] theorem part_modPart_same (f : Part → Part) : part (modPart s h p f) h p = f (part s h p) := by simp [part, modPart]

@[simp] theorem hedge_modPart_ne (f : Part → Part) {k : Nat} (hk : h ≠ k) : hedge (modPart s h p f) k = hedge s k := hedge_modHedge_ne s h k _ hk

/-- The skid of binding group `g` of hedge `h` replaced. -/
def setSkid (l : List HeldRec) : State := modHedge s h fun e => { e with skids := sset e.skids g l }

@[simp] theorem skid_setSkid (l : List HeldRec) : skid (setSkid s h g l) h g = l := by simp [skid, setSkid]

@[simp] theorem part_setSkid (l : List HeldRec) : part (setSkid s h g l) h p = part s h p := by simp [part, setSkid]

theorem hedge_setSkid_ne (l : List HeldRec) {k : Nat} (hk : h ≠ k) : hedge (setSkid s h g l) k = hedge s k := hedge_modHedge_ne s h k _ hk

end

/-- The state with a record's bytes in a slot, before the slot is booked: the bytes are written, then its poisoned quads. -/
def slotStored (s : State) (h p : Nat) (r : HeldRec) : State :=
  let i := lowestFree ((part s h p).occ.map (·.slot)) (part s h p).occ.length 0
  let n := min r.len (slotBytes s h p)
  (r.bad.filter fun k => decide (16 * k < n)).foldl (fun t k => (writePoison 1 t 0 (recAddr s h p i + 16 * k)).1)
    (writeMem s 0 0xFE (recAddr s h p i) (r.bytes.take n)).1

theorem placeRec_eq (s : State) (h p : Nat) (r : HeldRec) (borrowed : Bool) :
    placeRec s h p r borrowed = modPart (slotStored s h p r) h p fun pt => { pt with occ := pt.occ ++ [inSlot s h p r borrowed] } := rfl

theorem deviceFrom_slotStored {h : Nat} (hh : h < 16) (s : State) (p : Nat) (r : HeldRec) : DeviceFrom s (slotStored s h p r) := by
  unfold slotStored
  dsimp only
  generalize lowestFree ((part s h p).occ.map (·.slot)) (part s h p).occ.length 0 = i
  have haddr := recAddr_lt hh s p i
  have hsize := slotBytes_lt s h p
  refine List.foldlRecOn _ _ (deviceFrom_writeMem (recAddr_notHost hh s p i) s _ _ _) fun t ht k hk => ?_
  have hin : 16 * k < min r.len (slotBytes s h p) := of_decide_eq_true (List.mem_filter.mp hk).2
  exact ht.trans (deviceFrom_writePoison (isHost_false (by omega)) t 0)

/-- Without stored errors a record without poisoned quads is written as it is. -/
theorem slotStored_clean {s : State} {h p : Nat} {r : HeldRec} {b : Bool} (hbad : r.bad = []) (hq : s.quads = [])
    (hlen : r.bytes.length = (inSlot s h p r b).len) (hn : 0 < (inSlot s h p r b).len)
    (ha : recAddr s h p (inSlot s h p r b).slot + (inSlot s h p r b).len ≤ 2 ^ 63)
    (hm : mapped s (recAddr s h p (inSlot s h p r b).slot) (inSlot s h p r b).len = true) :
    slotStored s h p r = { s with mem := mwrite s.mem (recAddr s h p (inSlot s h p r b).slot) r.bytes } := by
  have htake : r.bytes.take (inSlot s h p r b).len = r.bytes := by rw [← hlen, List.take_length]
  have hne : r.bytes ≠ [] := by rw [← List.length_pos_iff, hlen]; exact hn
  rw [← hlen] at ha hm
  have hwrite := congrArg Prod.fst (writeMem_clean hq (q := 0) (who := 0xFE) ha hne hm)
  have hstored : slotStored s h p r =
      (writeMem s 0 0xFE (recAddr s h p (inSlot s h p r b).slot) (r.bytes.take (inSlot s h p r b).len)).1 := by
    unfold slotStored
    rw [hbad]
    rfl
  rw [hstored, htake, hwrite]

/-- A slot for the record: one of its step's borrow, or one of its group's floor (R102, R104). -/
def slotFor (s : State) (h g : Nat) (r : HeldRec) (borrowed : Bool) : Prop :=
  if borrowed then ∃ k, (part s h (bgPart s g)).borrows.find? (·.uid == r.uid) = some k ∧
    ((part s h (bgPart s g)).occ.filter fun x => x.uid == r.uid && x.borrowed).length < k.n
  else (part s h (bgPart s g)).borrows.find? (·.uid == r.uid) = none ∧ floorUsed s h (bgPart s g) g < bgFloor s g ∧
    (g < 64 ∨ 0 < freeSlots s h (bgPart s g))

/-- The oldest record of a skid with a slot for it moves into that slot. -/
theorem skidToSlot_moves {s : State} {h g0 : Nat} {r : HeldRec} {rest : List HeldRec} {b : Bool} (hsk : skid s h (skidOf s h g0) = r :: rest)
    (hslot : slotFor s h (skidOf s h g0) r b) : skidToSlot s h g0 =
      noteTaken (setSkid (placeRec s h (bgPart s (skidOf s h g0)) r b) h (skidOf s h g0) rest) r.uid := by
  unfold skidToSlot
  simp only [hsk]
  cases b with
  | true =>
    obtain ⟨k, hk, hroom⟩ := hslot
    simp only [hk, hroom, decide_true, if_true]
    rfl
  | false =>
    obtain ⟨hnone, hfloor⟩ := hslot
    simp only [hnone, Bool.false_eq_true, if_false, hfloor, and_self, if_true]
    rfl

/-- A record of no RECORD step moves no queue's CI (R226). -/
theorem noteTaken_self {s : State} {uid : Nat} (h : (match findCmd s uid with | some c => c.record | none => false) = false) :
    noteTaken s uid = s := by
  unfold noteTaken
  split
  next r c hr hc =>
    rw [hc] at h
    simp [show c.record = false from h]
  next => rfl

/-! ## What waits on the ring, where nothing does (R300, R311) -/

theorem ringQuiet_of_eq {s t : State} (h : ringQuiet s) (hu : t.utr = s.utr) (hc : t.chans = s.chans) : ringQuiet t := by
  unfold ringQuiet at *
  rw [hu, hc]
  exact h

theorem utrPump_quiet {s : State} (h : ringQuiet s) : utrPump s = s := by
  obtain ⟨hports, hrqs, hchans⟩ := h
  have hforward : forwardPeers s = s := List.foldl_fixed' (fun k => by simp [chan, hchans, sget]) _
  simp [utrPump, hports, hrqs, hforward]

/-! ## The multicast of a record (R105, R107) -/

/-- A record added to the skid of binding group `g` of hedge `h`. -/
def pushSkid (g : Nat) (x : HeldRec) (s : State) (h : Nat) : State :=
  modHedge s h fun e => { e with skids := sset e.skids g (sget [] e.skids g ++ [x]) }

theorem skid_pushSkid (g : Nat) (x : HeldRec) (s : State) (h k : Nat) :
    skid (pushSkid g x s h) k g = skid s k g ++ if h = k then [x] else [] := by
  by_cases hk : h = k
  · subst hk; simp [skid, pushSkid]
  · simp [skid, pushSkid, hk]

/-- A record in a skid stays there while records are added to skids. -/
theorem mem_skid_pushSkids {g k : Nat} {x y : HeldRec} {s : State} (hs : List Nat) (hy : y ∈ skid s k g) :
    y ∈ skid (hs.foldl (pushSkid g x) s) k g := by
  refine List.foldlRecOn (motive := fun t : State => y ∈ skid t k g) hs _ hy fun t ht h _ => ?_
  rw [skid_pushSkid]
  exact List.mem_append_left _ ht

/-- A record added to the skids of some hedges stands in the skid of each. -/
theorem mem_skid_of_pushed {g k : Nat} (x : HeldRec) (s : State) {hs : List Nat} (hk : k ∈ hs) : x ∈ skid (hs.foldl (pushSkid g x) s) k g := by
  induction hs generalizing s with
  | nil => nomatch hk
  | cons h hs ih =>
    rw [List.foldl_cons]
    rcases List.mem_cons.mp hk with rfl | hk
    · exact mem_skid_pushSkids hs (by rw [skid_pushSkid]; simp)
    · exact ih _ hk

/-- The record that a span's next multicast sends, as it is read. -/
def nextRecord (s : State) (r : StepRun) (k : Nat) : HeldRec :=
  let pos := spanStart r.spec.records r.spec.spans.length k + sget 0 r.sent k
  let d := (readRecord s r pos).2
  { uid := r.uid, pos := pos, bg := r.bg, bytes := d.bytes, len := d.bytes.length,
    bad := if d.poison then recordBad s r pos (d.bytes.length / 16) else [] }

/-- The record sent stands in the skid of every receiving hedge. -/
theorem mem_skid_sendRecord (s : State) (r : StepRun) (k : Nat) {h : Nat} (hh : h ∈ receivers r k) :
    nextRecord s r k ∈ skid (sendRecord s r k) h r.bg := by
  have hpushed := mem_skid_of_pushed (g := r.bg) (nextRecord s r k)
    (readRecord s r (spanStart r.spec.records r.spec.spans.length k + sget 0 r.sent k)).1 hh
  unfold sendRecord
  dsimp only
  split
  · exact hpushed
  · exact hpushed

/-- The spans of a step that have a record to send and may take it, a full skid apart (R97, R104, R105). -/
def sendable (s : State) (r : StepRun) : List Nat :=
  (List.range r.spec.spans.length).filter fun k =>
    decide (sget 0 r.sent k < spanCount r.spec k) && (decide (0 < sget 0 r.sent k) || mayBegin s r k) &&
    (receivers r k).all fun h => !(hedge s h).restructuring

/-- Every receiving hedge of a span has a free skid entry. -/
def skidsFree (s : State) (r : StepRun) (k : Nat) : Bool := (receivers r k).all fun h => decide ((skid s h r.bg).length < Config.skidDepth)

/-- The hedges of a span with a full skid. -/
def fullSkids (s : State) (r : StepRun) (k : Nat) : List Nat :=
  (receivers r k).filter fun h => decide (Config.skidDepth ≤ (skid s h r.bg).length)

theorem multicastSend_stays {s : State} {q : Nat} (h : sendingStep s q = none) : multicastSend s q = s := by simp [multicastSend, h]

section
variable {s : State} {q : Nat} {r : StepRun} (hr : sendingStep s q = some r)
include hr

theorem multicastSend_eq : multicastSend s q = match (sendable s r).find? (skidsFree s r) with
    | some k => sendRecord s r k
    | none => match sendable s r with
      | k :: _ => (fullSkids s r k).foldl (fun s h => hdgStat s h (2 ^ 10)) s
      | [] => s := by
  unfold multicastSend
  rw [hr]
  rfl

theorem multicastSend_nothing (hk : sendable s r = []) : multicastSend s q = s := by simp [multicastSend_eq hr, hk]

theorem multicastSend_sends {k : Nat} (hk : (sendable s r).find? (skidsFree s r) = some k) : multicastSend s q = sendRecord s r k := by
  simp [multicastSend_eq hr, hk]

theorem multicastSend_blocked {k : Nat} {rest : List Nat} (hk : sendable s r = k :: rest) (hn : (sendable s r).find? (skidsFree s r) = none) :
    multicastSend s q = (fullSkids s r k).foldl (fun s h => hdgStat s h (2 ^ 10)) s := by
  rw [multicastSend_eq hr, hn, hk]

end

/-! ### BLOCKED (`HDG_STAT`, bit 10) -/

theorem bitOf_eq_testBit (n i : Nat) : bitOf n i = n.testBit i := (Nat.testBit_eq_decide_div_mod_eq).symm

/-- A sticky bit stands once it is set. -/
theorem regBit_regOr_mono {s : State} {o i : Nat} (h : regBit s o i = true) (p m : Nat) : regBit (regOr s p m) o i = true := by
  by_cases hp : p = o
  · subst hp
    rw [regBit, regNat, bitOf_eq_testBit] at h
    rw [regBit, regNat, bitOf_eq_testBit, regGet_regOr, BitVec.toNat_or, Nat.testBit_or, h, Bool.true_or]
  · rw [regBit, regNat, regGet_regOr_ne _ _ _ _ hp]
    exact h

theorem regBit_hdgStat_blocked (s : State) (h : Nat) : regBit (hdgStat s h (2 ^ 10)) (hdgReg h 4) 10 = true := by
  rw [hdgStat, regBit, regNat, bitOf_eq_testBit, regGet_regOr, BitVec.toNat_or, Nat.testBit_or,
    show (BitVec.ofNat 32 (2 ^ 10)).toNat.testBit 10 = true by decide, Bool.or_true]

/-- Every hedge of a list is marked BLOCKED. -/
theorem regBit_blocked {h : Nat} (s : State) {hs : List Nat} (hh : h ∈ hs) :
    regBit (hs.foldl (fun s h => hdgStat s h (2 ^ 10)) s) (hdgReg h 4) 10 = true := by
  have hstays (t : State) (l : List Nat) (ht : regBit t (hdgReg h 4) 10 = true) :
      regBit (l.foldl (fun s h => hdgStat s h (2 ^ 10)) t) (hdgReg h 4) 10 = true :=
    List.foldlRecOn (motive := fun t : State => regBit t (hdgReg h 4) 10 = true) l _ ht fun t ht k _ => regBit_regOr_mono ht _ _
  induction hs generalizing s with
  | nil => nomatch hh
  | cons k hs ih =>
    rw [List.foldl_cons]
    rcases List.mem_cons.mp hh with rfl | hh
    · exact hstays _ hs (regBit_hdgStat_blocked s h)
    · exact ih _ hh

theorem blocked_frame (hs : List Nat) (s : State) : ∃ regs, hs.foldl (fun s h => hdgStat s h (2 ^ 10)) s = { s with regs := regs } := by
  refine List.foldlRecOn (motive := fun t : State => ∃ regs, t = { s with regs := regs }) hs _ ⟨_, rfl⟩ fun t ht h _ => ?_
  obtain ⟨regs, rfl⟩ := ht
  exact ⟨_, regOr_frame _ _ _⟩

/-! ## Opens and borrows (R104, R127) -/

theorem grantOpen_none {s : State} {h : Nat} (ho : (hedge s h).opens = []) : grantOpen s h = s := by simp [grantOpen, ho]

/-- The open at the head of a hedge's waiting opens is granted on all its hedges, or waits. -/
theorem grantOpen_head {s : State} {h : Nat} {o : OpenReq} {rest : List OpenReq} {r : StepRun} (ho : (hedge s h).opens = o :: rest)
    (hr : findStep s o.uid = some r) : grantOpen s h = if openReady s r (accdOf r.accdCopy) then openGroup s r r.accdCopy else s := by
  simp [grantOpen, ho, hr]

/-- A partition whose oldest request is granted. -/
def lentPart (b : Borrow) (rest : List Borrow) (pt : Part) : Part := { pt with waiting := rest, borrows := pt.borrows ++ [b] }

theorem poolBorrow_head {s : State} {h p : Nat} {b : Borrow} {rest : List Borrow} (hw : (part s h p).waiting = b :: rest) :
    poolBorrow s h p = if b.n ≤ poolFree s h p then modPart s h p (lentPart b rest) else s := by
  simp only [poolBorrow, hw]
  rfl

/-! ## Opens, borrows, the multicast and the move of a record (R102 to R107, R127) -/

theorem exec_groupOpenGranted (h : HIx) (s : State) : exec (.groupOpenGranted h) s = flows s fun s => grantOpen s h.val := rfl
theorem exec_poolBorrowGranted (h : HIx) (p : Fin 4) (s : State) :
    exec (.poolBorrowGranted h p) s = flows s fun s => poolBorrow s h.val p.val := rfl
theorem exec_multicastRecordSend (q : QIx) (s : State) : exec (.multicastRecordSend q) s = flows s fun s => multicastSend s q.val := rfl
theorem exec_skidToSlot (h : HIx) (bg : Fin 64) (s : State) :
    exec (.skidToSlot h bg) s = flows s fun s => utrPump (Machine.skidToSlot s h.val bg.val) := rfl

/-- What a multicast leaves that finds a full skid in each span. -/
theorem multicast_blocks {s : State} {q : QIx} {r : StepRun} {k : Nat} {rest : List Nat} (hs : s.flowing) (hr : sendingStep s q.val = some r)
    (hk : sendable s r = k :: rest) (hn : (sendable s r).find? (skidsFree s r) = none) : Answers (.multicastRecordSend q) s fun t =>
      (∀ h ∈ receivers r k, Config.skidDepth ≤ (skid s h r.bg).length → regBit t (hdgReg h 4) 10 = true) ∧
      t = { s with regs := t.regs, hif := t.hif } := by
  obtain ⟨regs, hframe⟩ := blocked_frame (fullSkids s r k) s
  have hmarks (h : Nat) (hh : h ∈ receivers r k) (hfull : Config.skidDepth ≤ (skid s h r.bg).length) :=
    regBit_blocked s (show h ∈ fullSkids s r k from List.mem_filter.mpr ⟨hh, decide_eq_true hfull⟩)
  refine answers_of_run (exec_multicastRecordSend q s) hs (multicastSend_blocked hr hk hn) ?_ fun w => ⟨hmarks, ?_⟩
  · rw [hframe]; exact hs.1
  · rw [hframe]

/-- What the move of a skid's oldest record into a slot leaves. -/
theorem skidToSlot_answers {s : State} {h : HIx} {bg : Fin 64} {r : HeldRec} {rest : List HeldRec} {b : Bool} (hs : s.flowing)
    (hquiet : ringQuiet s) (hsk : skid s h.val (skidOf s h.val bg.val) = r :: rest) (hslot : slotFor s h.val (skidOf s h.val bg.val) r b)
    (hrec : (match findCmd s r.uid with | some c => c.record | none => false) = false) :
    let g := skidOf s h.val bg.val
    let p := bgPart s g
    let n := (inSlot s h.val p r b).len
    let a := recAddr s h.val p (inSlot s h.val p r b).slot
    Answers (.skidToSlot h bg) s fun t => skid t h.val g = rest ∧
      (part t h.val p).occ = (part s h.val p).occ ++ [inSlot s h.val p r b] ∧ (∀ k, h.val ≠ k → hedge t k = hedge s k) ∧
      t.queues = s.queues ∧ t.cmds = s.cmds ∧
      (r.bad = [] → s.quads = [] → r.bytes.length = n → 0 < n → a + n ≤ 2 ^ 63 → mapped s a n = true →
        (∀ i, i < n → mget t.mem (a + i) = nth 0 r.bytes i) ∧ (∀ x, x < a ∨ a + n ≤ x → mget t.mem x = mget s.mem x)) := by
  intro g p n a
  obtain ⟨regs, hif, sage, quads, mem, hstored⟩ := (deviceFrom_slotStored h.isLt s p r).frame
  have hplaced : placeRec s h.val p r b = modPart (slotStored s h.val p r) h.val p fun pt => { pt with occ := pt.occ ++ [inSlot s h.val p r b] } :=
    placeRec_eq s h.val p r b
  have hrun : utrPump (Machine.skidToSlot s h.val bg.val) = setSkid (placeRec s h.val p r b) h.val g rest := by
    rw [skidToSlot_moves hsk hslot, noteTaken_self, utrPump_quiet]
    · exact ringQuiet_of_eq hquiet (by rw [hplaced, hstored]; rfl) (by rw [hplaced, hstored]; rfl)
    · rw [hplaced, hstored]; exact hrec
  refine answers_of_run (exec_skidToSlot h bg s) hs hrun (by rw [hplaced, hstored]; exact hs.1) fun w =>
    ⟨skid_setSkid _ _ _ _, ?occ, fun k hk => ?others, by rw [hplaced, hstored]; rfl, by rw [hplaced, hstored]; rfl, ?bytes⟩
  case occ =>
    have hocc : (part (setSkid (placeRec s h.val p r b) h.val g rest) h.val p).occ = (part s h.val p).occ ++ [inSlot s h.val p r b] := by
      rw [part_setSkid, hplaced, part_modPart_same, hstored]; rfl
    exact hocc
  case others =>
    have hk' : hedge (setSkid (placeRec s h.val p r b) h.val g rest) k = hedge s k := by
      rw [hedge_setSkid_ne _ _ _ _ hk, hplaced, hedge_modPart_ne _ _ _ _ hk, hstored]; rfl
    exact hk'
  case bytes =>
    intro hbad hq hlen hn ha hm
    have hmem : (setSkid (placeRec s h.val p r b) h.val g rest).mem = mwrite s.mem a r.bytes := by
      rw [hplaced, slotStored_clean hbad hq hlen hn ha hm]; rfl
    constructor
    · intro i hi
      rw [← hlen] at hi
      have hread := mget_mwrite_inside r.bytes s.mem a i hi
      rw [← hmem] at hread
      rw [nth, List.getElem?_eq_getElem hi]
      exact hread
    · intro x hx
      rw [← hlen] at hx
      have hread := mget_mwrite_outside r.bytes s.mem a x hx
      rw [← hmem] at hread
      exact hread

/-- Settles O48, a clause for each of the four events and what each does where nothing waits for it. -/
theorem opensAndRecordSlots : Obligations.OpensAndRecordSlots := by
  unfold Obligations.OpensAndRecordSlots
  intro s hs
  refine ⟨fun h o rest r ho hr => ⟨fun hready => ?granted, fun hready => ?waits⟩,
    fun h ho => exec_of_run_self (exec_groupOpenGranted h s) hs (grantOpen_none ho),
    fun h p b rest hw => ⟨fun hn => ?borrowed, fun hn => ?noRoom⟩,
    fun q r hr => ⟨fun hk => exec_of_run_self (exec_multicastRecordSend q s) hs (multicastSend_nothing hr hk),
      fun k hk => ⟨becomes_of_run (exec_multicastRecordSend q s) hs (multicastSend_sends hr hk),
        fun h hh => ⟨_, mem_skid_sendRecord s r k hh, rfl, rfl⟩⟩,
      fun k rest hk hn => multicast_blocks hs hr hk hn⟩,
    fun q hq => exec_of_run_self (exec_multicastRecordSend q s) hs (multicastSend_stays hq),
    fun h bg r rest b hquiet hsk hslot hrec => skidToSlot_answers hs hquiet hsk hslot hrec⟩
  case granted => exact becomes_of_run (exec_groupOpenGranted h s) hs ((grantOpen_head ho hr).trans (if_pos hready))
  case waits => exact exec_of_run_self (exec_groupOpenGranted h s) hs ((grantOpen_head ho hr).trans (if_neg (ne_true_of_eq_false hready)))
  case borrowed =>
    exact answers_of_run (exec_poolBorrowGranted h p s) hs ((poolBorrow_head hw).trans (if_pos hn)) hs.1 fun w =>
      ⟨part_modPart_same s h.val p.val (lentPart b rest), fun k hk => hedge_modPart_ne s h.val p.val (lentPart b rest) hk, rfl⟩
  case noRoom => exact exec_of_run_self (exec_poolBorrowGranted h p s) hs ((poolBorrow_head hw).trans (if_neg (by omega)))

/-! ## What the searches of a hedge leave (R43, R86, R343, R347) -/

theorem deviceFrom_readQuad (s : State) (who a : Nat) : DeviceFrom s (readQuad s who a).1 := by
  refine ⟨readFrom_readQuad s who a, ?_⟩
  unfold readQuad
  cases storeOf s a with
  | none => rfl
  | some p =>
    dsimp only
    generalize quadState s p.1 (a / 16) = v
    split
    · rfl
    · cases classify v.poison (quadZero s a) v.err.toNat v.adx.toNat with
      | clean => rfl
      | poisoned => simp
      | ce b => cases b <;> simp
      | ue => simp
      | ae => simp

theorem deviceFrom_readQuads (s : State) (who : Nat) (as : List Nat) : DeviceFrom s (readQuads s who as).1 := by
  induction as generalizing s with
  | nil => exact .refl s
  | cons a as ih => exact (deviceFrom_readQuad s who a).trans (ih _)

/-- A read of device memory; without stored errors it changes nothing. -/
theorem deviceFrom_readMem {a : Nat} (h : isHost a = false) (s : State) (q who n : Nat) :
    DeviceFrom s (readMem s q who a n).1 ∧ (s.quads = [] → (readMem s q who a n).1 = s) := by
  unfold readMem
  simp only [h, Bool.false_eq_true, if_false]
  split
  · exact ⟨.refl s, fun _ => rfl⟩
  · exact ⟨deviceFrom_readQuads s who _, fun hq => by simp [oddQuads, hq, readQuads]⟩

/-- What a hedge makes of the read of a slot: its bytes, and whether a quad was poisoned. -/
def slotRead (d : State × Rd) : State × List Byte × Bool := (d.1, d.2.bytes, d.2.poison)

theorem slotRead_fst (d : State × Rd) : (slotRead d).1 = d.1 := rfl

theorem readSlot_eq (s : State) (h p : Nat) (x : HeldRec) :
    readSlot s h p x = slotRead (readMem s 0 0xFE (recAddr s h p x.slot) x.len) := rfl

theorem deviceFrom_readSlot {h : Nat} (hh : h < 16) (s : State) (p : Nat) (x : HeldRec) :
    DeviceFrom s (readSlot s h p x).1 ∧ (s.quads = [] → (readSlot s h p x).1 = s) := by
  rw [readSlot_eq, slotRead_fst]
  exact deviceFrom_readMem (recAddr_notHost hh s p x.slot) s 0 0xFE x.len

theorem deviceFrom_arrQuadRead (s : State) (store f : Nat) (zero : Bool) : DeviceFrom s (arrQuadRead s store f zero).1 := by
  unfold arrQuadRead
  generalize quadState s store f = v
  dsimp only
  split
  · exact .refl s
  · cases classify v.poison zero v.err.toNat v.adx.toNat with
    | clean => exact .refl s
    | poisoned => exact deviceFrom_countPoison s store
    | ce b => exact deviceFrom_countCe s store
    | ue => exact (deviceFrom_countUe s store _ _).trans (deviceFrom_countPoison _ store)
    | ae => exact (deviceFrom_countAe s store _ _).trans (deviceFrom_countPoison _ store)

/-- A row of accesses to device memory. -/
theorem deviceFrom_foldl {α : Type} {f : State × Bool → α → State × Bool} (hf : ∀ t e, DeviceFrom t.1 (f t e).1) (l : List α)
    (t : State × Bool) : DeviceFrom t.1 (l.foldl f t).1 :=
  List.foldlRecOn (motive := fun v : State × Bool => DeviceFrom t.1 v.1) l f (.refl t.1) fun v hv e _ => hv.trans (hf v e)

/-- The quads that a search reads beside the match rows; without stored errors it reads them unchanged. -/
theorem deviceFrom_searchReads (s : State) (n : Nat) (im : ArrImage) (rows : List Nat) :
    DeviceFrom s (searchReads s n im rows).1 ∧ (s.quads = [] → (searchReads s n im rows).1 = s) := by
  have hnone (hq : s.quads = []) (store k : Nat) : arrOverlay s store k n = [] := by simp [arrOverlay, hq]
  refine ⟨?_, fun hq => by simp [searchReads, hnone hq]⟩
  unfold searchReads
  refine DeviceFrom.trans (deviceFrom_foldl ?bins _ (s, false)) (deviceFrom_foldl ?leaves _ _)
  case bins | leaves => exact fun t e => deviceFrom_arrQuadRead t.1 _ _ _

/-- What searching records and adding up their sums on hedge `h` leaves: the other hedges, and of `h` all but its sums; no access to the host
is opened and no command comes or goes. Without stored errors the event log and the stores stay too. -/
structure SearchFrom (h : Nat) (s t : State) : Prop where
  frame : ∃ hedges arrays cmds regs hif sage quads mem, t =
    { s with hedges := hedges, arrays := arrays, cmds := cmds, regs := regs, hif := hif, sage := sage, quads := quads, mem := mem }
  clean : s.quads = [] → ∃ hedges arrays cmds regs, t = { s with hedges := hedges, arrays := arrays, cmds := cmds, regs := regs }
  others : ∀ k, h ≠ k → hedge t k = hedge s k
  sums : ∃ acc groups, hedge t h = { hedge s h with acc := acc, groups := groups }
  cmds : t.cmds.length = s.cmds.length

theorem SearchFrom.refl (h : Nat) (s : State) : SearchFrom h s s where
  frame := ⟨_, _, _, _, _, _, _, _, rfl⟩
  clean _ := ⟨_, _, _, _, rfl⟩
  others _ _ := rfl
  sums := ⟨_, _, rfl⟩
  cmds := rfl

theorem SearchFrom.trans {h : Nat} {s t u : State} (hst : SearchFrom h s t) (htu : SearchFrom h t u) : SearchFrom h s u where
  frame := by
    obtain ⟨_, _, _, _, _, _, _, _, hs⟩ := hst.frame
    obtain ⟨_, _, _, _, _, _, _, _, ht⟩ := htu.frame
    rw [ht, hs]
    exact ⟨_, _, _, _, _, _, _, _, rfl⟩
  clean hq := by
    obtain ⟨_, _, _, _, hs⟩ := hst.clean hq
    obtain ⟨_, _, _, _, ht⟩ := htu.clean (by rw [hs]; exact hq)
    rw [ht, hs]
    exact ⟨_, _, _, _, rfl⟩
  others k hk := (htu.others k hk).trans (hst.others k hk)
  sums := by
    obtain ⟨_, _, hs⟩ := hst.sums
    obtain ⟨_, _, ht⟩ := htu.sums
    rw [ht, hs]
    exact ⟨_, _, rfl⟩
  cmds := htu.cmds.trans hst.cmds

theorem DeviceFrom.search {s t : State} (hd : DeviceFrom s t ∧ (s.quads = [] → t = s)) (h : Nat) : SearchFrom h s t where
  frame := by
    obtain ⟨_, _, _, _, _, hs⟩ := hd.1.frame
    exact ⟨_, _, _, _, _, _, _, _, hs⟩
  clean hq := ⟨_, _, _, _, hd.2 hq⟩
  others k _ := by
    obtain ⟨_, _, _, _, _, rfl⟩ := hd.1.frame
    rfl
  sums := by
    obtain ⟨_, _, _, _, _, rfl⟩ := hd.1.frame
    exact ⟨_, _, rfl⟩
  cmds := by
    obtain ⟨_, _, _, _, _, rfl⟩ := hd.1.frame
    rfl

theorem searchFrom_tables (h : Nat) (s : State) (regs : SMap Word) (arrays : SMap Arr) :
    SearchFrom h s { s with regs := regs, arrays := arrays } where
  frame := ⟨_, _, _, _, _, _, _, _, rfl⟩
  clean _ := ⟨_, _, _, _, rfl⟩
  others _ _ := rfl
  sums := ⟨_, _, rfl⟩
  cmds := rfl

theorem searchFrom_regOr (h : Nat) (s : State) (o m : Nat) : SearchFrom h s (regOr s o m) := regOr_frame s o m ▸ searchFrom_tables h s _ _

theorem searchFrom_regCount (h : Nat) (s : State) (o n : Nat) : SearchFrom h s (regCount s o n) := regCount_frame s o n ▸ searchFrom_tables h s _ _

theorem searchFrom_addFlags (h : Nat) (s : State) (uid fl : Nat) : SearchFrom h s (addFlags s uid fl) where
  frame := ⟨_, _, _, _, _, _, _, _, rfl⟩
  clean _ := ⟨_, _, _, _, rfl⟩
  others _ _ := rfl
  sums := ⟨_, _, rfl⟩
  cmds := List.length_map _

/-- A change of a hedge's sums. -/
theorem searchFrom_modHedge (s : State) (h : Nat) {f : Hedge → Hedge} (hf : ∀ e, ∃ acc groups, f e = { e with acc := acc, groups := groups }) :
    SearchFrom h s (modHedge s h f) where
  frame := ⟨_, _, _, _, _, _, _, _, rfl⟩
  clean _ := ⟨_, _, _, _, rfl⟩
  others k hk := hedge_modHedge_ne s h k f hk
  sums := by rw [hedge_modHedge_same]; exact hf _
  cmds := rfl

theorem searchFrom_modGroup (s : State) (h g : Nat) (f : Group → Group) : SearchFrom h s (modGroup s h g f) := by
  unfold modGroup
  split
  · exact searchFrom_modHedge s h fun e => ⟨_, _, rfl⟩
  · exact .refl h s

theorem searchFrom_noteInteg (h : Nat) (s : State) (n : Nat) : SearchFrom h s (noteInteg s n) :=
  (searchFrom_regOr h s _ _).trans (searchFrom_tables h _ _ _)

theorem searchFrom_searchOne (h : Nat) (s : State) (sch : Schema) (n : Nat) (bs : List Byte) : SearchFrom h s (searchOne s sch n bs).1 := by
  unfold searchOne
  cases (arr s n).img with
  | none => exact .refl h s
  | some im =>
    dsimp only
    cases searchImage sch im (matchErrs s n) bs with
    | none => exact searchFrom_noteInteg h s n
    | some hs =>
      have hreads := DeviceFrom.search (deviceFrom_searchReads s n im (hs.map fun x => x.2.2)) h
      dsimp only
      split
      · exact hreads.trans (searchFrom_noteInteg h _ n)
      · exact hreads

theorem searchFrom_searchRecord (h : Nat) (s : State) (sch : Schema) (k i : Nat) (bs : List Byte) (sets : List (List Nat)) :
    SearchFrom h s (searchRecord s sch k i bs sets).1 := by
  induction sets generalizing s with
  | nil => exact .refl h s
  | cons set sets ih =>
    have hstate : (searchRecord s sch k i bs (set :: sets)).1 = (searchRecord
        (if (arr s (arrIx k (nth 0 set (i % max 1 set.length)))).st = .withdrawn then (s, none)
          else searchOne s sch (arrIx k (nth 0 set (i % max 1 set.length))) bs).1 sch k i bs sets).1 := by
      rw [searchRecord]
      split <;> rfl
    rw [hstate]
    refine SearchFrom.trans ?_ (ih _)
    split
    · exact .refl h s
    · exact searchFrom_searchOne h s sch _ bs

theorem searchFrom_noteRecord (s : State) (r : StepRun) (h pos tag fl : Nat) : SearchFrom h s (noteRecord s r h pos tag fl) :=
  (searchFrom_modGroup s h _ _).trans (searchFrom_addFlags h _ _ _)

section
variable {h : Nat} (hh : h < 16)
include hh

/-- A pass over a tile whose sums are discarded. -/
theorem searchFrom_discardPass (s : State) (r : StepRun) (tile : Nat) (ps : List Nat) : SearchFrom h s (discardPass s r h tile ps) := by
  refine List.foldlRecOn (motive := SearchFrom h s) _ _ (.refl h s) fun t ht x _ => ht.trans ?_
  have hread := DeviceFrom.search (deviceFrom_readSlot hh t (bgPart t r.bg) x) h
  dsimp only
  split
  · exact hread
  · have hsearch := hread.trans (searchFrom_searchRecord h (readSlot t h (bgPart t r.bg) x).1 (schemaOf r.sch) h (localIx r h x)
      (readSlot t h (bgPart t r.bg) x).2.1 (replicaSets (readSlot t h (bgPart t r.bg) x).1 r.spec h 8 ps))
    split
    · exact hsearch.trans (searchFrom_noteRecord _ r h _ _ _)
    · exact hsearch

/-- What one record of a step adds. -/
theorem searchFrom_landRecord (s : State) (r : StepRun) (sets : List (List Nat)) (lo hi : Nat) (run : Running) (x : HeldRec) :
    SearchFrom h s (landRecord s r h sets lo hi run x) := by
  have hread := DeviceFrom.search (deviceFrom_readSlot hh s (bgPart s r.bg) x) h
  unfold landRecord
  cases group s h r.spec.group with
  | none => exact .refl h s
  | some g =>
    dsimp only
    split
    · exact (hread.trans (searchFrom_regOr h _ _ _)).trans (searchFrom_noteRecord _ r h _ _ _)
    · have hsearch := hread.trans (searchFrom_searchRecord h (readSlot s h (bgPart s r.bg) x).1 (schemaOf r.sch) h (localIx r h x)
        (readSlot s h (bgPart s r.bg) x).2.1 sets)
      exact (((hsearch.trans (searchFrom_modHedge _ h fun e => ⟨_, _, rfl⟩)).trans (searchFrom_modGroup _ h _ _)).trans
        (searchFrom_regOr h _ _ _)).trans (searchFrom_noteRecord _ r h _ _ _)

/-- The sums of a hedge's whole step. -/
theorem searchFrom_landStep (s : State) (r : StepRun) (run : Running) : SearchFrom h s (landStep s r h run) := by
  unfold landStep
  cases group s h r.spec.group with
  | none => exact .refl h s
  | some g =>
    dsimp only
    refine SearchFrom.trans ?_ (searchFrom_modGroup _ h _ _)
    exact List.foldlRecOn (motive := SearchFrom h s) _ _ (.refl h s) fun t ht x _ => ht.trans (searchFrom_landRecord hh t r _ _ _ run x)

end

/-! ## TILE_REPLAY (R120, R121) -/

/-- The run of a step after the replay of a tile; `v` is the state after the pass whose sums are discarded. -/
def replayedRun (v : State) (r : StepRun) (h tile : Nat) (run : Running) : Running :=
  let reps := sset run.replays tile (sget 0 run.replays tile + 1)
  let again := (overflowTiles v r h run.arrays reps).contains tile
  { run with replays := reps, searches := run.searches + passSearches (regCount v (hdgReg h 0x118) 1) r h run.arrays (some tile),
             pending := run.pending.filter fun t => t != tile || again }

/-- A hedge with another run. -/
def withRun (run : Running) (e : Hedge) : Hedge := { e with run := some run }

theorem tileReplay_idle {s : State} {h : Nat} (tile : Nat) (hrun : (hedge s h).run = none) : tileReplay s h tile = s := by
  simp [tileReplay, hrun]

theorem tileReplay_replays {s : State} {h tile : Nat} {run : Running} {r : StepRun} (hrun : (hedge s h).run = some run)
    (hr : findStep s run.uid = some r) (ht : tile ∈ run.pending) :
    tileReplay s h tile = modHedge (regCount (discardPass s r h tile run.arrays) (hdgReg h 0x118) 1) h
      (withRun (replayedRun (discardPass s r h tile run.arrays) r h tile run)) := by
  simp only [tileReplay, hrun, hr, List.contains_iff_mem.mpr ht, Bool.not_true, Bool.false_eq_true, if_false]
  rfl

/-- Every other tile waits for its replay as before. -/
theorem mem_pending_replayedRun (v : State) (r : StepRun) (h : Nat) (run : Running) {tile x : Nat} (hx : x ≠ tile) :
    x ∈ (replayedRun v r h tile run).pending ↔ x ∈ run.pending := by
  simp [replayedRun, hx]

theorem exec_tileReplay (h : HIx) {tile : Nat} (ht : tile < 512) (s : State) :
    exec (.tileReplay h tile) s = flows s fun s => Machine.tileReplay s h.val tile :=
  checked_ok _ s _ (by simpa [Instr.wellFormed] using ht)

theorem tileReplay_answers {s : State} {h : HIx} {tile : Nat} {run : Running} {r : StepRun} (hs : s.flowing)
    (hrun : (hedge s h.val).run = some run) (hr : findStep s run.uid = some r) (hlt : tile < 512) (ht : tile ∈ run.pending) :
    Answers (.tileReplay h tile) s fun t =>
      (∃ u, (hedge t h.val).run = some u ∧ u.uid = run.uid ∧ u.arrays = run.arrays ∧
        sget 0 u.replays tile = sget 0 run.replays tile + 1 ∧ (∀ x, x ≠ tile → sget 0 u.replays x = sget 0 run.replays x) ∧
        run.searches ≤ u.searches ∧ (∀ x, x ≠ tile → (x ∈ u.pending ↔ x ∈ run.pending))) ∧
      (∀ k, h.val ≠ k → hedge t k = hedge s k) ∧ t.queues = s.queues ∧ t.steps = s.steps ∧ t.fences = s.fences ∧ t.pwr = s.pwr ∧
      (s.quads = [] → t = { s with hedges := t.hedges, regs := t.regs, arrays := t.arrays, cmds := t.cmds, hif := t.hif }) := by
  have hpass := (searchFrom_discardPass h.isLt s r tile run.arrays).trans
    (searchFrom_regCount h.val (discardPass s r h.val tile run.arrays) (hdgReg h.val 0x118) 1)
  have hreplays := tileReplay_replays hrun hr ht
  generalize discardPass s r h.val tile run.arrays = v at hpass hreplays
  generalize regCount v (hdgReg h.val 0x118) 1 = w at hpass hreplays
  obtain ⟨hedges, arrays, cmds, regs, hif, sage, quads, mem, hframe⟩ := hpass.frame
  have hself := congrArg Hedge.run (hedge_modHedge_same w h.val (withRun (replayedRun v r h.val tile run)))
  have hothers (k : Nat) (hk : h.val ≠ k) :=
    (hedge_modHedge_ne w h.val k (withRun (replayedRun v r h.val tile run)) hk).trans (hpass.others k hk)
  refine answers_of_run (exec_tileReplay h hlt s) hs hreplays ?_ fun w' => ⟨⟨_, hself, rfl, rfl, sget_sset_same _ _ _ _,
    fun x hx => sget_sset_ne _ _ _ _ _ (Ne.symm hx), Nat.le_add_right _ _, fun x hx => mem_pending_replayedRun v r h.val run hx⟩,
    hothers, ?_, ?_, ?_, ?_, fun hq => ?clean⟩
  case clean =>
    obtain ⟨_, _, _, _, hclean⟩ := hpass.clean hq
    rw [hclean]; rfl
  all_goals rw [hframe]
  · exact hs.1
  · rfl
  · rfl
  · rfl
  · rfl

/-! ## HEDGE_STEP_END (R87, R88) -/

theorem stepEnd_idle {s : State} {h : Nat} (hrun : (hedge s h).run = none) : stepEnd s h = s := by simp [stepEnd, hrun]

/-- A hedge with a tile still to replay does not end its step. -/
theorem stepEnd_pending {s : State} {h : Nat} {run : Running} (hrun : (hedge s h).run = some run) (hp : run.pending ≠ []) : stepEnd s h = s := by
  simp [stepEnd, hrun, hp]

/-- A step that has ended on hedge `h`. -/
def endedOn (h : Nat) (r : StepRun) : StepRun := { r with ended := r.ended ++ [h] }

/-- A hedge without the records, borrows and requests of a command. -/
def freedHedge (uid : Nat) (e : Hedge) : Hedge :=
  let clean := fun (p : Part) =>
    { p with occ := p.occ.filter (·.uid != uid), borrows := p.borrows.filter (·.uid != uid), waiting := p.waiting.filter (·.uid != uid) }
  { e with parts := e.parts.map (fun x => (x.1, clean x.2)), skids := e.skids.map (fun x => (x.1, x.2.filter (·.uid != uid))) }

theorem freeRecords_eq (s : State) (h uid : Nat) : freeRecords s h uid = modHedge s h (freedHedge uid) := rfl

/-- No slot of a freed hedge holds a record of the command. -/
theorem occ_freedHedge (uid : Nat) (e : Hedge) (p : Nat) : (sget {} (freedHedge uid e).parts p).occ.filter (·.uid == uid) = [] := by
  rcases sget_eq_default_or_mem {} (freedHedge uid e).parts p with hd | hm
  · rw [hd]; rfl
  · obtain ⟨x, -, hx⟩ := List.mem_map.mp hm
    rw [← (Prod.mk.inj hx).2]
    simp [List.filter_filter]

section
variable {s : State} {h : Nat} {run : Running} {r : StepRun}

/-- The end of a step whose queue is not being destroyed, outside a rotation. -/
theorem stepEnd_ends (hrun : (hedge s h).run = some run) (hp : run.pending = []) (hr : findStep s run.uid = some r)
    (harr : r.spec.arrays = none) (hq : (queue s r.q).st ≠ .retiring) :
    stepEnd s h =
      let n := countSearches (landStep s r h run) h r.q run.searches
      stepFollow (chargeStep (stepOver (modStep (freeRecords n.1 h r.uid) r.uid (endedOn h)) h run.arrays) h r n.2) r.uid h := by
  have hdead : ((queue s r.q).st == .retiring) = false := beq_eq_false_iff_ne.mpr hq
  simp only [stepEnd, hrun, hp, hr, harr, hdead, List.isEmpty_nil, Option.isNone_none, Option.isSome_none, Bool.not_true, Bool.true_or,
    Bool.false_eq_true, if_false, if_true]
  rfl

end

/-! ### What each part of the end leaves -/

/-- What the end of a step on hedge `h` leaves: the other hedges, memory, and the number of commands. -/
structure EndFrom (h : Nat) (s t : State) : Prop where
  frame : ∃ hedges arrays queues cmds regs pwr steps, t =
    { s with hedges := hedges, arrays := arrays, queues := queues, cmds := cmds, regs := regs, pwr := pwr, steps := steps }
  others : ∀ k, h ≠ k → hedge t k = hedge s k
  cmds : t.cmds.length = s.cmds.length

theorem EndFrom.trans {h : Nat} {s t u : State} (hst : EndFrom h s t) (htu : EndFrom h t u) : EndFrom h s u where
  frame := by
    obtain ⟨_, _, _, _, _, _, _, hs⟩ := hst.frame
    obtain ⟨_, _, _, _, _, _, _, ht⟩ := htu.frame
    rw [ht, hs]
    exact ⟨_, _, _, _, _, _, _, rfl⟩
  others k hk := (htu.others k hk).trans (hst.others k hk)
  cmds := htu.cmds.trans hst.cmds

theorem SearchFrom.endFrom {h : Nat} {s t : State} (hst : SearchFrom h s t) (hq : s.quads = []) : EndFrom h s t where
  frame := by
    obtain ⟨_, _, _, _, hs⟩ := hst.clean hq
    rw [hs]
    exact ⟨_, _, _, _, _, _, _, rfl⟩
  others := hst.others
  cmds := hst.cmds

theorem endFrom_modHedge (s : State) (h : Nat) (f : Hedge → Hedge) : EndFrom h s (modHedge s h f) where
  frame := ⟨_, _, _, _, _, _, _, rfl⟩
  others k hk := hedge_modHedge_ne s h k f hk
  cmds := rfl

theorem endFrom_tables (h : Nat) (s : State) (arrays : SMap Arr) (queues : SMap Queue) (regs : SMap Word) (pwr : Pwr) (steps : List StepRun) :
    EndFrom h s { s with arrays := arrays, queues := queues, regs := regs, pwr := pwr, steps := steps } where
  frame := ⟨_, _, _, _, _, _, _, rfl⟩
  others _ _ := rfl
  cmds := rfl

/-- A hedge with `n` searches counted (R87). -/
def countedHedge (n : Nat) (e : Hedge) : Hedge :=
  { e with remainder := (e.remainder + n) % 256, searches := e.searches + BitVec.ofNat 64 n,
           units := e.units + BitVec.ofNat 32 ((e.remainder + n) / 256) }

theorem unitsDone_frame (s : State) (q n : Nat) : ∃ queues regs, unitsDone s q n = { s with queues := queues, regs := regs } := by
  unfold unitsDone
  split
  · exact ⟨_, _, rfl⟩
  · rw [regAdd_frame]; exact ⟨_, _, rfl⟩

theorem countSearches_frame (s : State) (h q n : Nat) :
    ∃ queues regs, (countSearches s h q n).1 = { modHedge s h (countedHedge n) with queues := queues, regs := regs } :=
  unitsDone_frame (modHedge s h (countedHedge n)) q _

@[simp] theorem returnTokens_held (s : State) (n : Nat) : (returnTokens s n).pwr.held = s.pwr.held := rfl

/-- An owner whose unit has ended holds no claim (R388). -/
theorem holds_dropTokens (s : State) (owner : Nat) : holds (dropTokens s owner) owner = false := by
  unfold dropTokens
  dsimp only
  split
  · split <;> simp [holds]
  · simp [holds]

/-- A hedge without its run: a disable that waited for it completes (R268). -/
def stoppedHedge (e : Hedge) : Hedge := { e with run := none, chosen := none, en := e.en.done }

/-- The arrays whose first INTEG came in the step come under check (R349). -/
def checksDue (s : State) (h : Nat) (ps : List Nat) : State :=
  ps.foldl (fun s p => modArr s (arrIx h p) fun a =>
    if a.checkDue ∧ !a.checking ∧ a.st = .ready then { a with st := .loading, checking := true } else a) s

theorem checksDue_frame (s : State) (h : Nat) (ps : List Nat) : ∃ arrays, checksDue s h ps = { s with arrays := arrays } := by
  refine List.foldlRecOn (motive := fun t : State => ∃ arrays, t = { s with arrays := arrays }) ps _ ⟨_, rfl⟩ fun t ht p _ => ?_
  obtain ⟨_, rfl⟩ := ht
  exact ⟨_, rfl⟩

/-- A hedge on which the records that a detachment left are freed. -/
def noneDetached (e : Hedge) : Hedge := { e with freeDetached := [] }

/-- The end of a hedge's step where no detachment left records (R88, R268, R349). -/
theorem stepOver_frame {s : State} {h : Nat} (hfree : (hedge s h).freeDetached = []) (ps : List Nat) :
    ∃ arrays, stepOver s h ps = modHedge { dropTokens (modHedge s h stoppedHedge) (ownStep h) with arrays := arrays } h noneDetached := by
  obtain ⟨arrays, hchecks⟩ := checksDue_frame (dropTokens (modHedge s h stoppedHedge) (ownStep h)) h ps
  have hlate : (hedge (checksDue (dropTokens (modHedge s h stoppedHedge) (ownStep h)) h ps) h).freeDetached = [] := by
    have hstopped := congrArg Hedge.freeDetached (hedge_modHedge_same s h stoppedHedge)
    rw [hchecks, dropTokens_frame]
    exact hstopped.trans hfree
  have hover : stepOver s h ps = modHedge
      ((hedge (checksDue (dropTokens (modHedge s h stoppedHedge) (ownStep h)) h ps) h).freeDetached.foldl (fun s u => freeRecords s h u)
        (checksDue (dropTokens (modHedge s h stoppedHedge) (ownStep h)) h ps)) h noneDetached := rfl
  rw [hlate, hchecks] at hover
  exact ⟨arrays, hover⟩

/-- The hedge runs nothing and holds no claim once its step is over. -/
theorem stepOver_leaves {s : State} {h : Nat} (hfree : (hedge s h).freeDetached = []) (ps : List Nat) :
    EndFrom h s (stepOver s h ps) ∧ hedge (stepOver s h ps) h = noneDetached (stoppedHedge (hedge s h)) ∧
      holds (stepOver s h ps) (ownStep h) = false ∧ (stepOver s h ps).steps = s.steps := by
  obtain ⟨arrays, hover⟩ := stepOver_frame hfree ps
  have hdrop := dropTokens_frame (modHedge s h stoppedHedge) (ownStep h)
  have hheld := holds_dropTokens (modHedge s h stoppedHedge) (ownStep h)
  generalize dropTokens (modHedge s h stoppedHedge) (ownStep h) = d at hover hdrop hheld
  have hstopped : hedge d h = stoppedHedge (hedge s h) := by
    rw [hdrop]; exact hedge_modHedge_same s h stoppedHedge
  rw [hover, hedge_modHedge_same]
  refine ⟨?_, congrArg noneDetached hstopped, hheld, by rw [hdrop]; rfl⟩
  refine EndFrom.trans ?_ (endFrom_modHedge _ h noneDetached)
  rw [hdrop]
  exact (endFrom_modHedge s h stoppedHedge).trans (endFrom_tables h _ _ _ _ _ _)

/-- The hedge's turn alone changes when a step is charged (R99, R248). -/
theorem chargeStep_frame (s : State) (h : Nat) (r : StepRun) (units : Nat) :
    ∃ turn lastUnit, chargeStep s h r units = modHedge s h fun e => { e with turn := turn, lastUnit := lastUnit } := by
  unfold chargeStep
  split
  · exact ⟨(hedge s h).turn, (r.spec.calib.map (·.1)).getD (hedge s h).lastUnit, rfl⟩
  · exact ⟨_, (hedge s h).lastUnit, rfl⟩

/-! ### What follows -/

/-- A step that does not close its group begins no close. -/
theorem closeWhereDue_keeps {s : State} {r : StepRun} (h : Nat) (hsteps : s.steps = [r]) (hc : r.spec.closes = false) : closeWhereDue s h = s := by
  refine List.foldlRecOn (motive := fun t : State => t = s) _ _ rfl fun t ht k hk => ?_
  have hkr : k = r := by simpa [hsteps] using List.mem_of_mem_filter hk
  simp [hkr, ht, closeDue, hc]

/-- A step that has still to end on another hedge does not complete its command. -/
theorem stepFollow_waits {s : State} {r : StepRun} (h : Nat) (hsteps : s.steps = [r]) (hc : r.spec.closes = false)
    (hrot : findRot s r.uid = none) (hend : allEnded r = false) : stepFollow s r.uid h = s := by
  have hfind : findStep s r.uid = some r := by simp [findStep, hsteps]
  simp [stepFollow, closeWhereDue_keeps h hsteps hc, hfind, hrot, hend]

/-- A step has not ended while one of its hedges runs it. -/
theorem allEnded_endedOn {r : StepRun} {h k x : Nat} (hk : k < r.spec.spans.length) (hx : x ∈ takers r k) (hne : x ∉ r.ended) (hxh : x ≠ h) :
    allEnded (endedOn h r) = false := by
  have htakers : takers (endedOn h r) k = takers r k := rfl
  rw [allEnded, List.all_eq_false]
  refine ⟨k, List.mem_range.mpr hk, ?_⟩
  rw [Bool.not_eq_true, List.all_eq_false]
  exact ⟨x, htakers ▸ hx, by simp [endedOn, hne, hxh]⟩

/-! ### The event as a whole -/

theorem exec_hedgeStepEnd (h : HIx) (s : State) : exec (.hedgeStepEnd h) s = flows s fun s => utrPump (stepEnd s h.val) := rfl

/-- The state with a step's sums landed, its searches counted, its records freed and its end noted on the hedge (R87, R88). -/
def landedState (s : State) (h : Nat) (run : Running) (r : StepRun) : State :=
  modStep (freeRecords (countSearches (landStep s r h run) h r.q run.searches).1 h r.uid) r.uid (endedOn h)

/-- The state that the end of a step leaves while another hedge has still to end it. -/
def endedState (s : State) (h : Nat) (run : Running) (r : StepRun) : State :=
  chargeStep (stepOver (landedState s h run r) h run.arrays) h r (countSearches (landStep s r h run) h r.q run.searches).2

section
variable {s : State} {h : Nat} (run : Running) (r : StepRun) (hh : h < 16) (hq : s.quads = [])
include hh hq

theorem landedState_leaves : EndFrom h s (landedState s h run r) ∧
    (∃ acc groups, hedge (landedState s h run r) h =
      freedHedge r.uid (countedHedge run.searches { hedge s h with acc := acc, groups := groups })) ∧
    (landedState s h run r).steps = s.steps.map fun c => if c.uid == r.uid then endedOn h c else c := by
  have hland := searchFrom_landStep hh s r run
  unfold landedState
  generalize landStep s r h run = v at hland
  obtain ⟨queues, regs, hcount⟩ := countSearches_frame v h r.q run.searches
  obtain ⟨acc, groups, hsums⟩ := hland.sums
  obtain ⟨_, _, _, _, hclean⟩ := hland.clean hq
  rw [hcount, freeRecords_eq]
  refine ⟨?_, ⟨acc, groups, ?_⟩, by rw [hclean]; rfl⟩
  · have hcounted := (hland.endFrom hq).trans (endFrom_modHedge v h (countedHedge run.searches))
    exact ((hcounted.trans (endFrom_tables h _ _ queues regs _ _)).trans (endFrom_modHedge _ h (freedHedge r.uid))).trans
      (endFrom_tables h _ _ _ _ _ _)
  · have hcounted := hedge_modHedge_same v h (countedHedge run.searches)
    have hfreed := hedge_modHedge_same { modHedge v h (countedHedge run.searches) with queues := queues, regs := regs } h (freedHedge r.uid)
    rw [← hsums, ← hcounted]
    exact hfreed

/-- The end of a step on a hedge where no detachment left records. -/
theorem endedState_leaves (hfree : (hedge s h).freeDetached = []) :
    EndFrom h s (endedState s h run r) ∧ (hedge (endedState s h run r) h).run = none ∧
      (hedge (endedState s h run r) h).searches = (hedge s h).searches + BitVec.ofNat 64 run.searches ∧
      (∀ p, placed (endedState s h run r) h p r.uid = []) ∧ holds (endedState s h run r) (ownStep h) = false ∧
      (endedState s h run r).steps = s.steps.map fun c => if c.uid == r.uid then endedOn h c else c := by
  obtain ⟨hlanded, ⟨acc, groups, hhedge⟩, hsteps⟩ := landedState_leaves run r hh hq
  unfold endedState
  generalize landedState s h run r = v at hlanded hhedge hsteps
  obtain ⟨hover, hstopped, hheld, hkept⟩ := stepOver_leaves (h := h) (by rw [hhedge]; exact hfree) run.arrays
  generalize stepOver v h run.arrays = w at hover hstopped hheld hkept
  obtain ⟨turn, lastUnit, hcharge⟩ := chargeStep_frame w h r (countSearches (landStep s r h run) h r.q run.searches).2
  have hself := hedge_modHedge_same w h fun e => { e with turn := turn, lastUnit := lastUnit }
  rw [hcharge]
  refine ⟨(hlanded.trans hover).trans (endFrom_modHedge w h _), ?_, ?_, fun p => ?_, hheld, hkept.trans hsteps⟩
  · rw [hself, hstopped]; rfl
  · rw [hself, hstopped, hhedge]; rfl
  · rw [placed, part, hself, hstopped, hhedge]
    exact occ_freedHedge r.uid _ p

end

/-- What the end of a step leaves that another hedge of its span has still to end. -/
theorem hedgeStepEnd_answers {s : State} {h : HIx} {run : Running} {r : StepRun} {k x : Nat} (hs : s.flowing)
    (hrun : (hedge s h.val).run = some run) (hp : run.pending = []) (hr : findStep s run.uid = some r) (hc : r.spec.closes = false)
    (harr : r.spec.arrays = none) (hret : (queue s r.q).st ≠ .retiring) (hfree : (hedge s h.val).freeDetached = []) (hsteps : s.steps = [r])
    (hrot : findRot s r.uid = none) (hquiet : ringQuiet s) (hq : s.quads = []) (hk : k < r.spec.spans.length) (hx : x ∈ takers r k)
    (hne : x ∉ r.ended) (hxh : x ≠ h.val) :
    Answers (.hedgeStepEnd h) s fun t => (hedge t h.val).run = none ∧ holds t (ownStep h.val) = false ∧
      (hedge t h.val).searches = (hedge s h.val).searches + BitVec.ofNat 64 run.searches ∧
      (∀ p, placed t h.val p run.uid = []) ∧ (∀ y, findStep t run.uid = some y → h.val ∈ y.ended) ∧
      t.mem = s.mem ∧ t.cmds.length = s.cmds.length ∧ (∀ j, h.val ≠ j → hedge t j = hedge s j) := by
  have huid : r.uid = run.uid := by simpa using List.find?_some hr
  obtain ⟨hend, hidle, hsearches, hplaced, hheld, htable⟩ := endedState_leaves run r h.isLt hq hfree
  have hends : stepEnd s h.val = stepFollow (endedState s h.val run r) r.uid h.val := stepEnd_ends hrun hp hr harr hret
  generalize endedState s h.val run r = t at *
  obtain ⟨_, _, _, _, _, _, _, hframe⟩ := hend.frame
  have hone : t.steps = [endedOn h.val r] := by simp [htable, hsteps]
  have hfollow : stepFollow t r.uid h.val = t := stepFollow_waits (r := endedOn h.val r) h.val hone hc
    (by rw [hframe]; exact hrot) (allEnded_endedOn hk hx hne hxh)
  have hpump : utrPump t = t := utrPump_quiet (ringQuiet_of_eq hquiet (by rw [hframe]) (by rw [hframe]))
  have hended (y : StepRun) (hy : findStep t run.uid = some y) : h.val ∈ y.ended := by
    have hy' : y = endedOn h.val r := by simpa [hone] using List.mem_of_find?_eq_some hy
    simp [hy', endedOn]
  refine answers_of_run (exec_hedgeStepEnd h s) hs (by rw [hends, hfollow, hpump]) (by rw [hframe]; exact hs.1) fun w =>
    ⟨hidle, hheld, hsearches, fun p => huid ▸ hplaced p, hended, by rw [hframe], hend.cmds, hend.others⟩

/-- Settles O46: the end of a step and the replay of a tile, each by the equation of its run function, and where neither has anything to do. -/
theorem stepEndsAndReplays : Obligations.StepEndsAndReplays := by
  unfold Obligations.StepEndsAndReplays
  intro s h hs
  refine ⟨fun hrun hquiet => ?idle, fun run hrun hp hquiet => ?pending, becomes_of_run (exec_hedgeStepEnd h s) hs rfl, ?ends,
    fun run r tile hrun hr hlt ht => tileReplay_answers hs hrun hr hlt ht,
    fun tile hlt hrun => exec_of_run_self (exec_tileReplay h hlt s) hs (tileReplay_idle tile hrun)⟩
  case idle => exact exec_of_run_self (exec_hedgeStepEnd h s) hs (by rw [stepEnd_idle hrun, utrPump_quiet hquiet])
  case pending => exact exec_of_run_self (exec_hedgeStepEnd h s) hs (by rw [stepEnd_pending hrun hp, utrPump_quiet hquiet])
  case ends =>
    rintro run r k hrun hp hr hc harr hret hfree hsteps hrot hquiet hq hk ⟨x, hx, hne, hxh⟩ -
    exact hedgeStepEnd_answers hs hrun hp hr hc harr hret hfree hsteps hrot hquiet hq hk hx hne hxh

end Sys2Proof.Machine
end

section
/-! The proofs of the family `05_ensemble_sums.md`: the sums of EXACT additions (O51), and the closes of output units with the merge of a
batch's lists (O49). -/

namespace Sys2Proof.Machine

/-! ## EXACT additions (R117, R118) -/

/-- The two bounds lie apart. -/
theorem exMin_lt_exMax : exMin < exMax := by
  have h : (0 : Int) < 2 ^ 639 := by positivity
  unfold exMin exMax
  omega

@[simp] theorem exSat_exMax : exSat exMax = true := by simp [exSat]
@[simp] theorem exSat_exMin : exSat exMin = true := by simp [exSat]

/-- A saturated row keeps its bound. -/
theorem exAdd_of_sat {n : Int} (h : exSat n = true) (v : Int) : exAdd n v = n := if_pos h

theorem exCombine_of_sat {n : Int} (h : exSat n = true) (m : Int) : exCombine n m = n := if_pos h

/-- An addition to a row that holds no bound. -/
theorem exAdd_of_not_sat {n : Int} (h : exSat n = false) (v : Int) :
    exAdd n v = if exMax < n + v then exMax else if n + v < exMin then exMin else n + v := by simp [exAdd, h]

/-- An addition that does not saturate is exact, and the row held no bound before it. -/
theorem exAdd_exact {n v : Int} (h : exSat (exAdd n v) = false) : exSat n = false ∧ exAdd n v = n + v := by
  cases hn : exSat n with
  | true => rw [exAdd_of_sat hn, hn] at h; contradiction
  | false =>
    rw [exAdd_of_not_sat hn] at h ⊢
    split at h
    · simp at h
    · split at h
      · simp at h
      · next hmax hmin => exact ⟨rfl, by rw [if_neg hmax, if_neg hmin]⟩

/-- A combination that does not saturate is exact, and neither partial held a bound. -/
theorem exCombine_exact {n m : Int} (h : exSat (exCombine n m) = false) :
    exSat n = false ∧ exSat m = false ∧ exCombine n m = n + m := by
  cases hn : exSat n with
  | true => rw [exCombine_of_sat hn, hn] at h; contradiction
  | false =>
    cases hm : exSat m with
    | true => simp [exCombine, hn, hm] at h
    | false =>
      have hadd : exCombine n m = exAdd n m := by simp [exCombine, hn, hm]
      exact ⟨rfl, rfl, hadd.trans (exAdd_exact (hadd ▸ h)).2⟩

/-- Additions that leave the row unsaturated give the exact sum. -/
theorem foldl_exAdd_exact {vs : List Int} {n : Int} (h : exSat (vs.foldl exAdd n) = false) :
    exSat n = false ∧ vs.foldl exAdd n = n + vs.sum := by
  induction vs generalizing n with
  | nil => exact ⟨h, by simp⟩
  | cons v vs ih =>
    obtain ⟨hv, hsum⟩ := ih h
    obtain ⟨hn, hadd⟩ := exAdd_exact hv
    exact ⟨hn, by rw [List.foldl_cons, hsum, hadd, List.sum_cons, Int.add_assoc]⟩

theorem foldl_exAdd_eq_sum {vs : List Int} (h : exSat (vs.foldl exAdd 0) = false) : vs.foldl exAdd 0 = vs.sum := by
  rw [(foldl_exAdd_exact h).2, Int.zero_add]

/-- Partial sums combined without saturation give the exact sum of all that was added to any of them. -/
theorem foldl_exCombine_exact {parts : List (List Int)} {n : Int}
    (h : exSat ((parts.map fun vs => vs.foldl exAdd 0).foldl exCombine n) = false) :
    exSat n = false ∧ (parts.map fun vs => vs.foldl exAdd 0).foldl exCombine n = n + (parts.map List.sum).sum := by
  induction parts generalizing n with
  | nil => exact ⟨h, by simp⟩
  | cons vs parts ih =>
    obtain ⟨hvs, hsum⟩ := ih h
    obtain ⟨hn, hpart, hcombine⟩ := exCombine_exact hvs
    have hexact : exCombine n (vs.foldl exAdd 0) = n + vs.sum := hcombine.trans (congrArg (n + ·) (foldl_exAdd_eq_sum hpart))
    refine ⟨hn, hsum.trans ?_⟩
    rw [List.map_cons, List.sum_cons, ← Int.add_assoc]
    exact congrArg (· + (parts.map List.sum).sum) hexact

/-- Settles O51: an addition or combination that does not saturate is exact, so the folds are the sums, which no order or split changes. -/
theorem exactSums : Obligations.ExactSums := by
  unfold Obligations.ExactSums
  refine ⟨fun vs h => foldl_exAdd_eq_sum h, fun vs ws hperm hv hw => ?order, fun parts h => ?split,
    fun n v h => ⟨exAdd_of_sat h v, exCombine_of_sat h v⟩, fun n v h => ?bounds⟩
  case order => rw [foldl_exAdd_eq_sum hv, foldl_exAdd_eq_sum hw, hperm.sum_eq]
  case split => rw [(foldl_exCombine_exact h).2, Int.zero_add]
  case bounds =>
    have hlt := exMin_lt_exMax
    rw [exAdd_of_not_sat h]
    exact ⟨fun hmax => if_pos hmax, fun hmin => by rw [if_neg (by omega), if_pos hmin],
      fun hmin hmax => by rw [if_neg (by omega), if_neg (by omega)]⟩

/-! ## What stays while a close is worked on (R300, R311)

Reads, writes, results and completions leave the hedges, and whatever waits on the ring or in a mailbox channel; the close itself changes the
hedges of its span. -/

/-- The ring and the mailbox channels of `t` are those of `s`. -/
structure RingStays (s t : State) : Prop where
  utr : t.utr = s.utr
  chans : t.chans = s.chans

theorem RingStays.trans {s t u : State} (hst : RingStays s t) (htu : RingStays t u) : RingStays s u :=
  ⟨htu.utr.trans hst.utr, htu.chans.trans hst.chans⟩

theorem RingStays.quiet {s t : State} (h : RingStays s t) (hs : ringQuiet s) : ringQuiet t := ringQuiet_of_eq hs h.utr h.chans

/-- `t` has the hedges of `s` too. -/
structure HedgesStay (s t : State) : Prop extends RingStays s t where
  hedges : t.hedges = s.hedges

/-- On every hedge of `t` the same closes wait as in `s`. -/
structure ClosesStay (s t : State) : Prop extends RingStays s t where
  closes : ∀ k, (hedge t k).closes = (hedge s k).closes

/-- An update of other fields. -/
theorem hedgesStay_of_eq {s t : State} (hu : t.utr = s.utr) (hc : t.chans = s.chans) (hh : t.hedges = s.hedges) : HedgesStay s t := ⟨⟨hu, hc⟩, hh⟩

theorem HedgesStay.refl (s : State) : HedgesStay s s := ⟨⟨rfl, rfl⟩, rfl⟩

theorem HedgesStay.trans {s t u : State} (hst : HedgesStay s t) (htu : HedgesStay t u) : HedgesStay s u :=
  ⟨hst.toRingStays.trans htu.toRingStays, htu.hedges.trans hst.hedges⟩

theorem HedgesStay.ite {p : Prop} [Decidable p] {s t u : State} (ht : HedgesStay s t) (hu : HedgesStay s u) : HedgesStay s (if p then t else u) := by
  split
  · exact ht
  · exact hu

theorem HedgesStay.hedge_eq {s t : State} (h : HedgesStay s t) (k : Nat) : hedge t k = hedge s k := by rw [hedge, hedge, h.hedges]

theorem HedgesStay.group_eq {s t : State} (h : HedgesStay s t) (k g : Nat) : group t k g = group s k g := by rw [group, group, h.hedge_eq]

theorem HedgesStay.closesStay {s t : State} (h : HedgesStay s t) : ClosesStay s t := ⟨h.toRingStays, fun k => by rw [h.hedge_eq]⟩

theorem ClosesStay.trans {s t u : State} (hst : ClosesStay s t) (htu : ClosesStay t u) : ClosesStay s u :=
  ⟨hst.toRingStays.trans htu.toRingStays, fun k => (htu.closes k).trans (hst.closes k)⟩

/-- A fold leaves what each of its steps leaves. -/
theorem hedgesStay_foldl {σ α : Type} (p : σ → State) {f : σ → α → σ} (hf : ∀ a e, HedgesStay (p a) (p (f a e))) (l : List α) (a : σ) :
    HedgesStay (p a) (p (l.foldl f a)) :=
  List.foldlRecOn (motive := fun b => HedgesStay (p a) (p b)) l f (.refl _) fun b hb e _ => hb.trans (hf b e)

/-! ### The shared operations -/

theorem ReadFrom.hedgesStay {s t : State} (h : ReadFrom s t) : HedgesStay s t := by
  obtain ⟨_, _, _, _, _, _, rfl⟩ := h
  exact ⟨⟨rfl, rfl⟩, rfl⟩

theorem hedgesStay_regOr (s : State) (o m : Nat) : HedgesStay s (regOr s o m) := (readFrom_regOr s o m).hedgesStay

theorem hedgesStay_regAdd (s : State) (o n : Nat) : HedgesStay s (regAdd s o n) := by
  rw [regAdd_frame]
  exact hedgesStay_of_eq rfl rfl rfl

theorem hedgesStay_addStatus (s : State) (uid : Nat) (st : St) : HedgesStay s (addStatus s uid st) := hedgesStay_of_eq rfl rfl rfl

theorem hedgesStay_modStep (s : State) (uid : Nat) (f : StepRun → StepRun) : HedgesStay s (modStep s uid f) := hedgesStay_of_eq rfl rfl rfl

theorem hedgesStay_modMac (s : State) (m : Nat) (f : Mac → Mac) : HedgesStay s (modMac s m f) := hedgesStay_of_eq rfl rfl rfl

theorem hedgesStay_modQueue (s : State) (q : Nat) (f : Queue → Queue) : HedgesStay s (modQueue s q f) := hedgesStay_of_eq rfl rfl rfl

theorem hedgesStay_writeMem (s : State) (q who a : Nat) (bs : List Byte) : HedgesStay s (writeMem s q who a bs).1 := by
  by_cases hhost : isHost a = true
  · unfold writeMem
    simp only [hhost, if_true]
    split
    · exact .refl s
    · generalize hostSide s q (a % 2 ^ 63) bs.length true = side
      cases side with
      | wait asked => exact (readFrom_askPages s asked).hedgesStay
      | refused => exact (readFrom_xlate s).hedgesStay
      | go pages => exact hedgesStay_of_eq rfl rfl rfl
  · exact (deviceFrom_writeMem (Bool.not_eq_true _ ▸ hhost) s q who bs).1.hedgesStay

theorem hedgesStay_raiseVec (s : State) (v : Nat) : HedgesStay s (raiseVec s v) := by
  rw [raiseVec_frame]
  exact hedgesStay_of_eq rfl rfl rfl

/-! ### Completions (R239 to R241, R267) -/

theorem hedgesStay_writeCompletion (s : State) (q user detail flags : Nat) (idx : Word) (st : St) (irq : Bool) :
    HedgesStay s (writeCompletion s q user detail flags idx st irq) := by
  have hwritten := (hedgesStay_writeMem s q 0xFC (cplBase s q + 32 * (idx.toNat % ringSlots s q))
    (cplEntry user detail flags idx.toNat st q)).trans (hedgesStay_modQueue _ q fun k => { k with progress := true })
  exact .ite (hwritten.trans (hedgesStay_raiseVec _ _)) hwritten

theorem hedgesStay_actionDone (s : State) (q : Nat) : HedgesStay s (actionDone s q) :=
  .ite (hedgesStay_of_eq rfl rfl rfl) (.ite (hedgesStay_of_eq rfl rfl rfl) (hedgesStay_of_eq rfl rfl rfl))

theorem hedgesStay_disableDone (s : State) (q : Nat) : HedgesStay s (disableDone s q) :=
  .ite (.ite (hedgesStay_of_eq rfl rfl rfl) (hedgesStay_of_eq rfl rfl rfl)) (.ite (hedgesStay_actionDone s q) (.refl s))

theorem hedgesStay_indirectDone (s : State) (q : Nat) (n : Indirect) : HedgesStay s (indirectDone s q n) := by
  unfold indirectDone
  cases findCmd s n.uid with
  | none => exact .refl s
  | some c =>
    refine HedgesStay.trans ?_ (hedgesStay_disableDone _ q)
    refine HedgesStay.trans ?_ (hedgesStay_writeCompletion _ q _ _ _ _ _ _)
    refine HedgesStay.trans ?_ (hedgesStay_regOr _ _ _)
    exact hedgesStay_of_eq rfl rfl rfl

theorem hedgesStay_bufferSlotDone (s : State) (q : Nat) (i : Word) (pos : Nat) (st : St) (flags : Nat) :
    HedgesStay s (bufferSlotDone s q i pos st flags) := by
  unfold bufferSlotDone
  cases (queue s q).indirects.find? fun n => n.idx == i with
  | none => exact .refl s
  | some n =>
    have hnoted : HedgesStay s (modInd s q i fun _ => n.note pos st flags) := hedgesStay_modQueue s q _
    exact .ite (hnoted.trans (hedgesStay_indirectDone _ q _)) hnoted

theorem hedgesStay_complete (s : State) (uid : Nat) (st : St) : HedgesStay s (complete s uid st) := by
  unfold complete
  cases findCmd s uid with
  | none => exact .refl s
  | some c =>
    dsimp only
    split
    next => exact hedgesStay_of_eq rfl rfl rfl
    next q _ =>
      split
      next pos _ =>
        refine HedgesStay.trans ?_ (hedgesStay_bufferSlotDone _ q.val c.idx pos st c.flags)
        refine HedgesStay.trans ?_ (hedgesStay_regOr _ _ _)
        exact hedgesStay_of_eq rfl rfl rfl
      next =>
        refine HedgesStay.trans ?_ (hedgesStay_disableDone _ q.val)
        refine HedgesStay.trans ?_ (hedgesStay_writeCompletion _ q.val _ _ _ _ _ _)
        refine HedgesStay.trans (HedgesStay.trans ?_ (hedgesStay_regOr _ _ _)) (.ite (hedgesStay_modQueue _ q.val _) (.refl _))
        exact hedgesStay_of_eq rfl rfl rfl

/-! ### Egress (R423, R424) -/

theorem hedgesStay_sendFrame (s : State) (m q : Nat) (f : Nat × List Byte) : HedgesStay s (sendFrame s m q f) :=
  (hedgesStay_modMac s m _).trans (hedgesStay_regAdd _ _ _)

theorem hedgesStay_sendOne (s : State) (m : Nat) : HedgesStay s (sendOne s m).1 := by
  unfold sendOne
  split
  next => exact .refl s
  next q _ =>
    split
    next => exact .refl s
    next j _ =>
      split
      next => exact hedgesStay_of_eq rfl rfl rfl
      next f rest _ =>
        have hsent := hedgesStay_sendFrame s m q f
        dsimp only
        split
        · exact hsent.trans (hedgesStay_of_eq rfl rfl rfl)
        · exact hsent.trans (hedgesStay_of_eq rfl rfl rfl)

theorem hedgesStay_sendAll (n : Nat) (s : State) (m : Nat) : HedgesStay s (sendAll n s m).1 := by
  induction n generalizing s with
  | zero => exact .refl s
  | succ n ih =>
    simp only [sendAll]
    split
    · exact .refl s
    · exact (hedgesStay_sendOne s m).trans (ih _)

theorem hedgesStay_sendResults (s : State) (uid m q rsize : Nat) (recs : List (Nat × List Byte)) (st : St) :
    HedgesStay s (sendResults s uid m q rsize recs st) := by
  unfold sendResults
  dsimp only
  split
  · exact (readFrom_regCount s _ _).hedgesStay.trans (hedgesStay_complete _ uid st)
  · refine HedgesStay.trans ((hedgesStay_modMac s m _).trans (hedgesStay_addStatus _ uid st)) (.ite ?_ (.refl _))
    exact (hedgesStay_sendAll _ _ m).trans (hedgesStay_foldl id (fun t u => hedgesStay_complete t u _) _ _)

theorem hedgesStay_spanClosed (s : State) (uid rsize : Nat) (st : St) : HedgesStay s (spanClosed s uid rsize st) := by
  unfold spanClosed
  dsimp only
  have hnoted := (hedgesStay_addStatus s uid st).trans
    (hedgesStay_modStep (addStatus s uid st) uid fun r => { r with closed := r.closed + 1, status := r.status.firstBad st })
  generalize modStep (addStatus s uid st) uid (fun r => { r with closed := r.closed + 1, status := r.status.firstBad st }) = v at hnoted ⊢
  split
  next r c _ _ =>
    refine .ite hnoted (hnoted.trans ?_)
    have hout (w : State) (hw : HedgesStay v w) (st : St) : HedgesStay v
        (match egressOf w c with
         | some m => if r.egress.isEmpty then complete w uid st else sendResults w uid m r.q rsize r.egress st
         | none => complete w uid st) := by
      split
      · exact .ite (hw.trans (hedgesStay_complete w uid st)) (hw.trans (hedgesStay_sendResults w uid _ _ _ _ st))
      · exact hw.trans (hedgesStay_complete w uid st)
    refine hout _ ?_ _
    split
    · exact hedgesStay_of_eq rfl rfl rfl
    · exact hedgesStay_of_eq rfl rfl rfl
  next => exact hnoted

/-! ### Partial sums and results (R131, R140 to R147) -/

theorem hedgesStay_accRowRead (s : State) (h row v : Nat) : HedgesStay s (accRowRead s h row v).1 := by
  unfold accRowRead
  refine hedgesStay_foldl Prod.fst (fun a q => ?_) _ (s, false)
  exact (deviceFrom_arrQuadRead a.1 7 _ _).1.hedgesStay

theorem hedgesStay_combineRecord (s : State) (r : StepRun) (k : Nat) (cancel : Bool) (d : Accd) (pos : Nat) :
    HedgesStay s (combineRecord s r k cancel d pos).1 := by
  unfold combineRecord
  extract_lets hs start n i gs raw rd gone lost tag fl0 ctx rowsOf ns base fl
  have hrows : HedgesStay s rd.1 := by
    refine hedgesStay_foldl Prod.fst (fun a x => ?_) raw (s, [])
    refine hedgesStay_foldl Prod.fst (fun b e => ?_) _ a
    dsimp only
    exact hedgesStay_accRowRead b.1 x.1 e.2.1 e.2.2
  clear_value rd gs
  split
  · exact hrows
  · split
    · split
      · exact hrows
      · exact hrows
    · split
      · exact hrows
      · exact hrows

theorem hedgesStay_combineSpan (s : State) (r : StepRun) (k : Nat) (cancel : Bool) (d : Accd) : HedgesStay s (combineSpan s r k cancel d).1 := by
  refine hedgesStay_foldl Prod.fst (fun a j => ?_) _ (s, [])
  exact hedgesStay_combineRecord a.1 r k cancel d _

theorem hedgesStay_readMask (s : State) (q : Nat) (d : Accd) (u : Outd) (pos : Nat) : HedgesStay s (readMask s q d u pos).1 := by
  unfold readMask
  split
  · exact .refl s
  · exact (readFrom_readMem s q 0xFE _ _).hedgesStay

theorem hedgesStay_readOperands (s : State) (q : Nat) (d : Accd) (u : Outd) (pos : Nat) (masked : Nat → Bool) :
    HedgesStay s (readOperands s q d u pos masked).1 := by
  refine hedgesStay_foldl Prod.fst (fun a b => ?_) _ (s, [], [], false)
  exact (readFrom_readMem a.1 q 0xFE b 16).hedgesStay

theorem hedgesStay_finishRecord (s : State) (q : Nat) (d : Accd) (u : Outd) (c : OutRec) : HedgesStay s (finishRecord s q d u c).1 := by
  have hmask := hedgesStay_readMask s q d u c.pos
  unfold finishRecord
  dsimp only
  split
  · exact .ite (.refl s) (hedgesStay_of_eq rfl rfl rfl)
  · split
    · exact hmask
    · split
      · exact hmask
      · exact hmask.trans (hedgesStay_readOperands _ q d u c.pos _)

theorem hedgesStay_writeResult (d : Accd) (u : Outd) (base : Option Nat) (h : Nat) (r : StepRun) (s : State) (c : OutRec) :
    HedgesStay s (writeResult d u base h r s c) := by
  have hfinish := hedgesStay_finishRecord s r.q d u c
  unfold writeResult
  generalize finishRecord s r.q d u c = x at hfinish ⊢
  dsimp only
  have hread : HedgesStay s (if x.2.ap then addStatus x.1 r.uid .aperture else x.1) :=
    .ite (hfinish.trans (hedgesStay_addStatus _ _ _)) hfinish
  generalize (if x.2.ap then addStatus x.1 r.uid .aperture else x.1) = v at hread ⊢
  have hnoted (w : State) (hw : HedgesStay s w) (f : Cmd → Cmd) : HedgesStay s (modCmd (regOr (regOr (regAdd w (hdgReg h 0x144) 1)
      (hdgReg h 0x140) (outSticky x.2.flags)) (hdgReg h 0x114) x.2.acc) r.uid f) :=
    (hw.trans ((hedgesStay_regAdd _ _ _).trans ((hedgesStay_regOr _ _ _).trans (hedgesStay_regOr _ _ _)))).trans (hedgesStay_of_eq rfl rfl rfl)
  have hranked (w : State) (hw : HedgesStay s w) (ranks : SMap RankBook) : HedgesStay s { w with ranks := ranks } :=
    hw.trans (hedgesStay_of_eq rfl rfl rfl)
  cases base with
  | none => exact .ite (hnoted _ (hread.trans (hedgesStay_modStep _ _ _)) _) (hranked _ (hnoted _ (hread.trans (hedgesStay_modStep _ _ _)) _) _)
  | some a =>
    have hwrite := hread.trans (hedgesStay_writeMem v r.q 0xFE (a + c.pos * rsizeOf d u.raw) (resultBytes d u c x.2))
    have hwritten := HedgesStay.ite (p := (writeMem v r.q 0xFE (a + c.pos * rsizeOf d u.raw) (resultBytes d u c x.2)).2 = true)
      (hwrite.trans (hedgesStay_addStatus _ r.uid .aperture)) hwrite
    exact .ite (hnoted _ hwritten _) (hranked _ (hnoted _ hwritten _) _)

theorem hedgesStay_writeRanks (s : State) (r : StepRun) (u : Outd) : HedgesStay s (writeRanks s r u) := by
  have hwrite := hedgesStay_writeMem s r.q 0xFE u.topkAddr
    (rankBytes u.k (sget ({} : RankBook) s.ranks r.uid).excluded (rankList u.asc u.k (sget ({} : RankBook) s.ranks r.uid).entries))
  exact .ite (hwrite.trans (hedgesStay_addStatus _ _ _)) hwrite

/-! ## The end of a close (R127, step 7 of Table 6-1) -/

/-- A change of a hedge that leaves its waiting closes. -/
theorem closesStay_modHedge (s : State) (h : Nat) {f : Hedge → Hedge} (hf : ∀ e, (f e).closes = e.closes) : ClosesStay s (modHedge s h f) where
  utr := rfl
  chans := rfl
  closes k := by
    by_cases hk : h = k
    · subst hk; rw [hedge_modHedge_same, hf]
    · rw [hedge_modHedge_ne s h k f hk]

theorem ClosesStay.refl (s : State) : ClosesStay s s := (HedgesStay.refl s).closesStay

theorem closesStay_modGroup (s : State) (h g : Nat) (f : Group → Group) : ClosesStay s (modGroup s h g f) := by
  unfold modGroup
  split
  · exact closesStay_modHedge s h fun e => rfl
  · exact .refl s

theorem closesStay_freeOthers (s : State) (hs : List Nat) (g : Nat) : ClosesStay s (freeOthers s hs g) :=
  List.foldlRecOn (motive := ClosesStay s) hs _ (.refl s) fun t ht h _ =>
    ht.trans ((closesStay_modGroup t h g _).trans (closesStay_modHedge _ h fun _ => rfl))

theorem closesStay_dropGroup (s : State) (h g : Nat) : ClosesStay s (dropGroup s h g) := closesStay_modHedge s h fun _ => rfl

theorem closesStay_dropGroups (s : State) (hs : List Nat) (g : Nat) : ClosesStay s (hs.foldl (fun s h => dropGroup s h g) s) :=
  List.foldlRecOn (motive := ClosesStay s) hs _ (.refl s) fun t ht h _ => ht.trans (closesStay_dropGroup t h g)

@[simp] theorem group_dropGroup_same (s : State) (h g : Nat) : group (dropGroup s h g) h g = none := by
  simp [group, dropGroup]

theorem group_dropGroup_none {s : State} {k g : Nat} (hk : group s k g = none) (h : Nat) : group (dropGroup s h g) k g = none := by
  by_cases hkh : h = k
  · subst hkh; exact group_dropGroup_same s h g
  · rw [group, dropGroup, hedge_modHedge_ne s h k _ hkh]
    exact hk

/-- A group dropped on some hedges is free on each of them. -/
theorem group_dropGroups {s : State} {hs : List Nat} {k : Nat} (g : Nat) (hk : k ∈ hs) : group (hs.foldl (fun s h => dropGroup s h g) s) k g = none := by
  induction hs generalizing s with
  | nil => nomatch hk
  | cons h hs ih =>
    rw [List.foldl_cons]
    rcases List.mem_cons.mp hk with rfl | hk
    · exact List.foldlRecOn (motive := fun t : State => group t k g = none) hs _ (group_dropGroup_same s k g)
        fun t ht h _ => group_dropGroup_none ht h
    · exact ih hk

/-- The close `c` at the head of hedge `h`'s output unit in `s` has left it in `t`, the closes behind it remain, and its group's number is free
on every hedge of its span. -/
structure CloseEnds (s t : State) (h : Nat) (r : StepRun) (c : Close) (rest : List Close) : Prop extends RingStays s t where
  closes : (hedge t h).closes = rest
  groups : ∀ x ∈ spanHs r.spec c.span, group t x c.group = none

/-- A hedge whose oldest close has left. -/
def closeLeft (e : Hedge) : Hedge := { e with closes := e.closes.drop 1 }

theorem endClose_frame (s : State) (h : Nat) (r : StepRun) (c : Close) : HedgesStay
    (modHedge ((spanHs r.spec c.span).foldl (fun s x => dropGroup s x c.group) s) h closeLeft) (endClose s h r c) := by
  have hdrop : endClose s h r c =
      dropTokens (modHedge ((spanHs r.spec c.span).foldl (fun s x => dropGroup s x c.group) s) h closeLeft) (ownOut h) := rfl
  rw [hdrop, dropTokens_frame]
  exact hedgesStay_of_eq rfl rfl rfl

theorem group_modHedge_closeLeft (s : State) (h k g : Nat) : group (modHedge s h closeLeft) k g = group s k g := by
  by_cases hk : h = k
  · subst hk; rw [group, hedge_modHedge_same]; rfl
  · rw [group, hedge_modHedge_ne s h k _ hk]; rfl

section
variable {s v u : State} {h : Nat} {r : StepRun} {c : Close} {rest : List Close} (hv : ClosesStay s v) (hc : (hedge s h).closes = c :: rest)
include hv hc

/-- What the close did before its end left the waiting closes, and what follows its end leaves the hedges. -/
theorem closeEnds_of_endClose (hu : HedgesStay (endClose v h r c) u) : CloseEnds s u h r c rest := by
  have hdropped := closesStay_dropGroups v (spanHs r.spec c.span) c.group
  have hgroups (x : Nat) (hx : x ∈ spanHs r.spec c.span) := group_dropGroups (s := v) c.group hx
  have hend := (endClose_frame v h r c).trans hu
  generalize (spanHs r.spec c.span).foldl (fun s x => dropGroup s x c.group) v = w at hdropped hgroups hend
  refine ⟨(hv.trans hdropped).toRingStays.trans (RingStays.trans (t := modHedge w h closeLeft) ⟨rfl, rfl⟩ hend.toRingStays), ?_, fun x hx => ?_⟩
  · rw [hend.hedge_eq, hedge_modHedge_same, closeLeft, hdropped.closes, hv.closes, hc]
    rfl
  · rw [hend.group_eq, group_modHedge_closeLeft, hgroups x hx]

theorem spanClosed_endClose_ends (uid rsize : Nat) (st : St) : CloseEnds s (spanClosed (endClose v h r c) uid rsize st) h r c rest :=
  closeEnds_of_endClose hv hc (hedgesStay_spanClosed _ uid rsize st)

theorem failClose_ends (st : St) : CloseEnds s (failClose v h r c st) h r c rest :=
  spanClosed_endClose_ends (hv.trans (hedgesStay_modStep v r.uid _).closesStay) hc _ _ _

theorem refuseOutd_ends (st : St) : CloseEnds s (refuseOutd v h r c st) h r c rest :=
  failClose_ends (hv.trans (HedgesStay.ite (hedgesStay_regOr v _ _) (.refl v)).closesStay) hc st

theorem refuseRuns_ends : CloseEnds s (refuseRuns v h r c) h r c rest :=
  failClose_ends (hv.trans (hedgesStay_foldl id (fun t x => hedgesStay_regOr t (hdgReg x 0x114) 4) _ v).closesStay) hc .format

end

/-- A close ends, or goes to its merge as the head of the output unit (R148). -/
def CloseGoesOn (s t : State) (h : Nat) (r : StepRun) (c : Close) (rest : List Close) : Prop :=
  CloseEnds s t h r c rest ∨ RingStays s t ∧ (hedge t h).closes = { c with stage := 2 } :: rest

theorem CloseGoesOn.ite {p : Prop} [Decidable p] {s t u : State} {h : Nat} {r : StepRun} {c : Close} {rest : List Close}
    (ht : CloseGoesOn s t h r c rest) (hu : CloseGoesOn s u h r c rest) : CloseGoesOn s (if p then t else u) h r c rest := by
  split
  · exact ht
  · exact hu

section
variable {s v : State} {h : Nat} {r : StepRun} {c : Close} {rest : List Close} (hv : ClosesStay s v) (hc : (hedge s h).closes = c :: rest)
include hv hc

theorem setStage_merges : CloseGoesOn s (setStage v h 2) h r c rest := by
  refine .inr ⟨hv.toRingStays.trans ⟨rfl, rfl⟩, ?_⟩
  rw [setStage, hedge_modHedge_same]
  dsimp only
  rw [hv.closes, hc]
  rfl

/-- Steps 4 to 7 of Table 6-1. -/
theorem closeRecords_goesOn (cmd : Cmd) (d : Accd) (recs : List OutRec) : CloseGoesOn s (closeRecords v h r c cmd d recs) h r c rest := by
  unfold closeRecords
  dsimp only
  have hread : ReadFrom v (if r.spec.outdImm.isEmpty then readStruct v (stepReach v r) 0xFE r.spec.outd 64 64 else (v, .ok r.spec.outdImm)).1 := by
    split
    · exact readFrom_readStruct v _ _ _ _ _
    · exact .refl v
  generalize (if r.spec.outdImm.isEmpty then readStruct v (stepReach v r) 0xFE r.spec.outd 64 64 else (v, .ok r.spec.outdImm)) = got at hread ⊢
  obtain ⟨s1, got⟩ := got
  have h1 : ClosesStay s s1 := hv.trans hread.hedgesStay.closesStay
  cases got with
  | stop st => exact .inl (refuseOutd_ends h1 hc st)
  | ok b =>
    have hwritten (base : Option Nat) : ClosesStay s (recs.foldl (writeResult d (outdOf b) base h r) s1) :=
      h1.trans (hedgesStay_foldl id (fun t x => hedgesStay_writeResult d (outdOf b) base h r t x) recs s1).closesStay
    refine .ite (.inl (refuseOutd_ends h1 hc .format)) (.ite (.inl (failClose_ends h1 hc .format)) (.ite (.inl (failClose_ends h1 hc .aperture))
      (.ite (.inl ?plain) (.ite (.inl ?ranked) (.ite ?merges (.inl ?listed))))))
    case plain | listed => exact spanClosed_endClose_ends (hwritten _) hc _ _ _
    case ranked => exact spanClosed_endClose_ends ((hwritten _).trans (hedgesStay_writeRanks _ r _).closesStay) hc _ _ _
    case merges => exact setStage_merges ((hwritten _).trans (hedgesStay_modStep _ _ _).closesStay) hc

/-- Steps 2 and 3 of Table 6-1 where the group enters no chain. -/
theorem combineClose_goesOn (cmd : Cmd) (g : Group) (hred : r.spec.reduce = false) : CloseGoesOn s (combineClose v h r c cmd g) h r c rest := by
  have hsums := hedgesStay_combineSpan v r c.span c.cancel (accdOf g.accd)
  unfold combineClose
  dsimp only
  rw [if_neg (Bool.eq_false_iff.mp hred)]
  exact closeRecords_goesOn ((hv.trans (hsums.trans (hedgesStay_regOr _ _ _)).closesStay).trans (closesStay_freeOthers _ _ _)) hc cmd _ _

end

/-! ## A read that delivers no poison (R336, R353)

Such a read changes a register only where it counts corrected errors, and those registers' addresses are multiples of 16. -/

theorem regGet_regCount_ne (s : State) {o p : Nat} (n : Nat) (h : o ≠ p) : regGet (regCount s o n) p = regGet s p := by
  unfold regCount
  split
  · rfl
  · exact regGet_regSet_ne s o p _ h

section
variable {o : Nat} (ho : o % 16 = 4)
include ho

theorem regGet_countCe (s : State) (store : Nat) : regGet (countCe s store) o = regGet s o := by
  have hcount : regGet (regCount s (memReg (0x100 + 16 * store)) 1) o = regGet s o :=
    regGet_regCount_ne s 1 (by unfold memReg; omega)
  unfold countCe
  dsimp only
  split
  · rw [regGet_regOr_ne _ _ _ _ (by unfold memReg; omega), hcount]
  · exact hcount

theorem regGet_readQuad {s : State} {who a : Nat} (h : (readQuad s who a).2 = false) : regGet (readQuad s who a).1 o = regGet s o := by
  unfold readQuad at h ⊢
  cases hstore : storeOf s a with
  | none => rfl
  | some p =>
    rw [hstore] at h
    dsimp only at h ⊢
    generalize quadState s p.1 (a / 16) = v at h ⊢
    split at h
    next hv => rw [if_pos hv]
    next hv =>
      rw [if_neg hv]
      cases hclass : classify v.poison (quadZero s a) v.err.toNat v.adx.toNat with
      | clean => rfl
      | ce b =>
        cases b with
        | false => exact regGet_countCe ho s p.1
        | true => rw [hclass] at h; nomatch h
      | poisoned | ue | ae => rw [hclass] at h; nomatch h

theorem regGet_readQuads {s : State} {who : Nat} {as : List Nat} (h : (readQuads s who as).2 = []) :
    regGet (readQuads s who as).1 o = regGet s o := by
  induction as generalizing s with
  | nil => rfl
  | cons a as ih =>
    simp only [readQuads] at h ⊢
    split at h
    · nomatch h
    · next hq => rw [ih h, regGet_readQuad ho (Bool.eq_false_iff.mpr hq)]

theorem regGet_readMem {s : State} {q who a n : Nat} (ha : isHost a = false) (h : (readMem s q who a n).2.poison = false) :
    regGet (readMem s q who a n).1 o = regGet s o := by
  unfold readMem at h ⊢
  simp only [ha, Bool.false_eq_true, if_false] at h ⊢
  split at h
  next hm => rw [if_pos hm]
  next hm =>
    rw [if_neg hm]
    exact regGet_readQuads ho (by simpa [Rd.poison] using h)

theorem regGet_readStruct {s s1 : State} {reach : Reach} {who a n align : Nat} {b : List Byte}
    (h : readStruct s reach who a n align = (s1, .ok b)) : regGet s1 o = regGet s o := by
  unfold readStruct readAny at h
  split at h
  next => nomatch h
  next ha =>
    split at h
    · nomatch h
    · split at h
      · nomatch h
      · dsimp only at h
        split at h
        · nomatch h
        · split at h
          · nomatch h
          next hpoison =>
            obtain ⟨rfl, -⟩ := Prod.mk.inj h
            exact regGet_readMem ho (Bool.eq_false_iff.mpr ha) (Bool.eq_false_iff.mpr hpoison)

end

/-- The MAC a command's results leave on is the same after a structure has been read. -/
theorem egressOf_readStruct {s s1 : State} {reach : Reach} {who a n align : Nat} {b : List Byte}
    (h : readStruct s reach who a n align = (s1, .ok b)) (c : Cmd) : egressOf s1 c = egressOf s c := by
  have hread := readFrom_readStruct s reach who a n align
  rw [h] at hread
  have hq : cmdQueue s1 c = cmdQueue s c := by
    obtain ⟨_, _, _, _, _, _, rfl⟩ := hread
    rfl
  have hreg : regGet s1 (qfeReg (cmdQueue s c) 0x24) = regGet s (qfeReg (cmdQueue s c) 0x24) :=
    regGet_readStruct (by unfold qfeReg; omega) h
  rw [egressOf, egressOf, hq, regField, regField, regNat, regNat, hreg]

/-! ## The output descriptor of a close (R139, Table 6-1) -/

section
variable {v s1 : State} {r : StepRun} {cmd : Cmd} {d : Accd} {b : List Byte} (hcal : r.spec.calib = none) (himm : r.spec.outdImm = [])
  (heg : egressOf v cmd = none) (hread : readStruct v (stepReach v r) 0xFE r.spec.outd 64 64 = (s1, .ok b))
include hcal himm heg hread

theorem closeRecords_refused (hok : outdOk d false b = false) (h : Nat) (c : Close) (recs : List OutRec) :
    closeRecords v h r c cmd d recs = refuseOutd s1 h r c .format := by
  have heg1 := (egressOf_readStruct hread cmd).trans heg
  simp [closeRecords, himm, hread, heg1, hcal, hok]

theorem closeRecords_written (hok : outdOk d false b = true) (htop : (outdOf b).topk = false)
    (hreach : ((outdRanges d (outdOf b) (resultBase s1 cmd d (outdOf b)) r.spec.records).all fun x => reaches s1 (stepReach s1 r) x.1 x.2) = true)
    (h : Nat) (c : Close) (recs : List OutRec) :
    closeRecords v h r c cmd d recs = spanClosed (endClose
      (recs.foldl (writeResult d (outdOf b) (resultBase s1 cmd d (outdOf b)) h r) s1) h r c)
      r.uid (rsizeOf d (outdOf b).raw) (if c.cancel then .drained else .ok) := by
  have heg1 := (egressOf_readStruct hread cmd).trans heg
  simp only [closeRecords, himm, hread, heg1, hcal, hok, htop, hreach, List.isEmpty_nil, Option.isSome_none, Bool.or_false, Bool.not_true,
    Bool.not_false, Bool.false_eq_true, and_false, or_false, if_true, if_false]

end

/-! ## OUTPUT_CLOSE, case by case (R123, R136, Table 6-1) -/

/-- The runs of the group are refused (R123). -/
def runsRefused (s : State) (r : StepRun) (g : Group) : Bool := (accdOf g.accd).pairwise && runsBad s r (accdOf g.accd)

/-- The step with what its group's runs were found to be. -/
def runsJudged (s : State) (r : StepRun) (g : Group) : State := modStep s r.uid fun x => { x with runsBad := some (runsRefused s r g) }

/-- The close once its output unit holds its tokens. -/
def closeRuns (s : State) (h : Nat) (r : StepRun) (c : Close) (cmd : Cmd) (g : Group) : State :=
  if runsRefused s r g then refuseRuns (runsJudged s r g) h r c else combineClose (runsJudged s r g) h r c cmd g

theorem outputClose_none {s : State} {h : Nat} (hc : (hedge s h).closes = []) : outputClose s h = s := by simp [outputClose, hc]

section
variable {s s1 : State} {h : Nat} {c : Close} {rest : List Close} {r : StepRun} {cmd : Cmd} {g : Group} (hc : (hedge s h).closes = c :: rest)
  (hr : findStep s c.uid = some r) (hcmd : findCmd s c.uid = some cmd) (hg : group s h c.group = some g) (hstage : c.stage = 0)
  (hpair : (accdOf g.accd).pairwise = true → allClosing r = true) (hret : (queue s r.q).st ≠ .retiring)
include hc hr hcmd hg hstage hpair hret

/-- The close at the head asks for its tokens, and runs when it holds them. -/
theorem outputClose_asks : outputClose s h =
    if (askTokens s (ownOut h) (role s h == 2) 2).2 then closeRuns (askTokens s (ownOut h) (role s h == 2) 2).1 h r c cmd g
    else (askTokens s (ownOut h) (role s h == 2) 2).1 := by
  have hgo : ¬(c.stage ≠ 0 ∨ ((accdOf g.accd).pairwise ∧ !allClosing r) ∨ (queue s r.q).st = .retiring) := by
    rintro (h | ⟨hp, ha⟩ | h)
    · exact h hstage
    · simp [hpair hp] at ha
    · exact hret h
  simp only [outputClose, hc, hr, hcmd, hg, if_neg hgo]
  cases (askTokens s (ownOut h) (role s h == 2) 2).2 <;> rfl

theorem outputClose_runs (hask : askTokens s (ownOut h) (role s h == 2) 2 = (s1, true)) : outputClose s h = closeRuns s1 h r c cmd g := by
  rw [outputClose_asks hc hr hcmd hg hstage hpair hret, hask]; rfl

theorem outputClose_waits (hask : askTokens s (ownOut h) (role s h == 2) 2 = (s1, false)) : outputClose s h = s1 := by
  rw [outputClose_asks hc hr hcmd hg hstage hpair hret, hask]; rfl

end

/-- A close that holds its tokens ends, or goes to its merge, where its group enters no chain. -/
theorem closeRuns_goesOn {s s1 : State} {h : Nat} {c : Close} {rest : List Close} {r : StepRun} (cmd : Cmd) {g : Group}
    (hc : (hedge s h).closes = c :: rest) (hask : (askTokens s (ownOut h) (role s h == 2) 2).1 = s1)
    (hend : runsRefused s1 r g = true ∨ r.spec.reduce = false) : CloseGoesOn s (closeRuns s1 h r c cmd g) h r c rest := by
  have htokens : HedgesStay s s1 := by
    rw [← hask, askTokens_frame]
    exact hedgesStay_of_eq rfl rfl rfl
  have hjudged : ClosesStay s (runsJudged s1 r g) := (htokens.trans (hedgesStay_modStep s1 r.uid _)).closesStay
  unfold closeRuns
  split
  next => exact .inl (refuseRuns_ends hjudged hc)
  next hbad => exact combineClose_goesOn hjudged hc cmd g (hend.resolve_left hbad)

/-! ## TOPK_MERGE, case by case (R148) -/

/-- The merge of a batch's lists, and the end of the close that waited for it. -/
def mergeRuns (s : State) (h : Nat) (r : StepRun) (c : Close) : State :=
  spanClosed (endClose (if r.unlisted then s else writeRanks s r (outdOf r.outd)) h r c) r.uid 16 (if c.cancel then .drained else .ok)

theorem topkMerge_none {s : State} {h : Nat} (hc : (hedge s h).closes = []) : topkMerge s h = s := by simp [topkMerge, hc]

theorem topkMerge_head {s : State} {h : Nat} {c : Close} {rest : List Close} {r : StepRun} (hc : (hedge s h).closes = c :: rest)
    (hr : findStep s c.uid = some r) : topkMerge s h =
      if c.stage ≠ 2 ∨ r.closed + 1 < r.spec.spans.length ∨ (queue s r.q).st = .retiring then s else mergeRuns s h r c := by
  simp only [topkMerge, hc, hr]
  rfl

theorem mergeRuns_ends {s : State} {h : Nat} {c : Close} {rest : List Close} (r : StepRun) (hc : (hedge s h).closes = c :: rest) :
    CloseEnds s (mergeRuns s h r c) h r c rest :=
  spanClosed_endClose_ends (HedgesStay.ite (.refl s) (hedgesStay_writeRanks s r _)).closesStay hc _ _ _

/-! ## The events as a whole -/

theorem exec_outputClose (h : HIx) (s : State) : exec (.outputClose h) s = flows s fun s => utrPump (outputClose s h.val) := rfl

theorem exec_topkMerge (h : HIx) (s : State) : exec (.topkMerge h) s = flows s fun s => topkMerge s h.val := rfl

theorem outputClose_answers {s s1 : State} {h : HIx} {c : Close} {rest : List Close} {r : StepRun} {cmd : Cmd} {g : Group} (hs : s.flowing)
    (hc : (hedge s h.val).closes = c :: rest) (hrun : outputClose s h.val = closeRuns s1 h.val r c cmd g)
    (hask : (askTokens s (ownOut h.val) (role s h.val == 2) 2).1 = s1) (hquiet : ringQuiet s)
    (hw : (utrPump (closeRuns s1 h.val r c cmd g)).hostWait = false) (hend : runsRefused s1 r g = true ∨ r.spec.reduce = false) :
    Answers (.outputClose h) s fun t =>
      ((hedge t h.val).closes = rest ∧ (∀ x ∈ spanHs r.spec c.span, group t x c.group = none)) ∨
      (hedge t h.val).closes = { c with stage := 2 } :: rest := by
  have hgoes := closeRuns_goesOn cmd hc hask hend
  generalize closeRuns s1 h.val r c cmd g = w at hrun hw hgoes
  have hring : RingStays s w := hgoes.elim (·.toRingStays) (·.1)
  have hpump : utrPump w = w := utrPump_quiet (hring.quiet hquiet)
  rw [hpump] at hw
  refine answers_of_run (exec_outputClose h s) hs (by rw [hrun, hpump]) hw fun hif => ?_
  exact hgoes.imp (fun hends => ⟨hends.closes, hends.groups⟩) (·.2)

theorem topkMerge_answers {s : State} {h : HIx} {c : Close} {rest : List Close} {r : StepRun} (hs : s.flowing)
    (hc : (hedge s h.val).closes = c :: rest) (hrun : topkMerge s h.val = mergeRuns s h.val r c)
    (hw : (mergeRuns s h.val r c).hostWait = false) :
    Answers (.topkMerge h) s fun t => (hedge t h.val).closes = rest ∧ ∀ x ∈ spanHs r.spec c.span, group t x c.group = none := by
  have hends := mergeRuns_ends r hc
  exact answers_of_run (exec_topkMerge h s) hs hrun hw fun hif => ⟨hends.closes, hends.groups⟩

/-- Settles O49: each outcome of a close by the equation of its run function; what follows its end leaves the hedges, so that the close has left
the output unit and its group's number is free. -/
theorem closesAndMerges : Obligations.ClosesAndMerges := by
  unfold Obligations.ClosesAndMerges
  intro s h hs
  refine ⟨fun hc hquiet => ⟨?none, ?noMerge⟩, ?runs, ?waits, ?descriptor, fun c rest r hc hr => ⟨?mergeWaits, ?merges⟩⟩
  case none => exact exec_of_run_self (exec_outputClose h s) hs (by rw [outputClose_none hc, utrPump_quiet hquiet])
  case noMerge => exact exec_of_run_self (exec_topkMerge h s) hs (topkMerge_none hc)
  case runs =>
    intro c rest r cmd g s1 hc hr hcmd hg hstage hpair hret hask
    have hrun := outputClose_runs hc hr hcmd hg hstage hpair hret hask
    exact ⟨becomes_of_run (exec_outputClose h s) hs (congrArg utrPump hrun),
      fun hquiet hw hend => outputClose_answers hs hc hrun (by rw [hask]) hquiet hw hend⟩
  case waits =>
    intro c rest r s1 hc hr hcmd hg hstage hpair hret hask
    obtain ⟨cmd, hcmd⟩ := Option.isSome_iff_exists.mp hcmd
    obtain ⟨g, hg⟩ := Option.isSome_iff_exists.mp hg
    exact becomes_of_run (exec_outputClose h s) hs (congrArg utrPump (outputClose_waits hc hr hcmd hg hstage (hpair g hg) hret hask))
  case descriptor =>
    intro v s1 r c cmd d recs b hcal himm heg hread
    exact ⟨fun hok => closeRecords_refused hcal himm heg hread hok h.val c recs,
      fun hok htop hreach => closeRecords_written hcal himm heg hread hok htop hreach h.val c recs⟩
  case mergeWaits => exact fun hwait => exec_of_run_self (exec_topkMerge h s) hs ((topkMerge_head hc hr).trans (if_pos hwait))
  case merges =>
    intro hstage hclosed hret
    have hgo : ¬(c.stage ≠ 2 ∨ r.closed + 1 < r.spec.spans.length ∨ (queue s r.q).st = .retiring) := by
      rintro (h | h | h)
      · exact h hstage
      · omega
      · exact hret h
    have hrun := (topkMerge_head hc hr).trans (if_neg hgo)
    exact ⟨becomes_of_run (exec_topkMerge h s) hs hrun, fun hw => topkMerge_answers hs hc hrun hw⟩

end Sys2Proof.Machine
end

section
/-! The proofs of the family `07_rotation.md`: how a ROTATE reads its descriptors and asks for its claim (O38), COPY with the bursts and marks of
its list (O39), and the claim, rounds, staging fetches and marks of a rotation (O50). -/

namespace Sys2Proof.Machine

/-! ## One entry of a table changed by its number -/

/-- The entry of a number after a change made to the entries of that number, where the change keeps the numbers. -/
theorem find?_map_of_key {α : Type} (key : α → Nat) (k : Nat) {f : α → α} (hf : ∀ a, key (f a) = key a) (l : List α) :
    (l.map fun a => if key a == k then f a else a).find? (key · == k) = (l.find? (key · == k)).map f := by
  induction l with
  | nil => rfl
  | cons a l ih =>
    rw [List.map_cons]
    by_cases ha : key a = k
    · simp [ha, hf]
    · rw [if_neg (by simpa using ha), List.find?_cons_of_neg (by simpa using ha), List.find?_cons_of_neg (by simpa using ha), ih]

theorem findRot_modRot {s : State} {uid : Nat} {r : Rotation} {f : Rotation → Rotation} (hf : ∀ x, (f x).uid = x.uid)
    (hr : findRot s uid = some r) : findRot (modRot s uid f) uid = some (f r) :=
  (find?_map_of_key Rotation.uid uid hf s.rotations).trans (congrArg (Option.map f) hr)

theorem findMover_modMover {s : State} {uid : Nat} {m : Mover} {f : Mover → Mover} (hf : ∀ x, (f x).uid = x.uid)
    (hm : findMover s uid = some m) : findMover (modMover s uid f) uid = some (f m) :=
  (find?_map_of_key Mover.uid uid hf s.movers).trans (congrArg (Option.map f) hm)

/-! ## The data mover's own operations leave its lists and the rotations (R168) -/

/-- `t` has the stream lists and the rotations of `s`. -/
structure TransfersStay (s t : State) : Prop where
  movers : t.movers = s.movers
  rotations : t.rotations = s.rotations

theorem TransfersStay.refl (s : State) : TransfersStay s s := ⟨rfl, rfl⟩

theorem TransfersStay.trans {s t u : State} (hst : TransfersStay s t) (htu : TransfersStay t u) : TransfersStay s u :=
  ⟨htu.movers.trans hst.movers, htu.rotations.trans hst.rotations⟩

theorem TransfersStay.findRot_eq {s t : State} (h : TransfersStay s t) (uid : Nat) : findRot t uid = findRot s uid := by
  rw [findRot, findRot, h.rotations]

theorem TransfersStay.findMover_eq {s t : State} (h : TransfersStay s t) (uid : Nat) : findMover t uid = findMover s uid := by
  rw [findMover, findMover, h.movers]

theorem ReadFrom.transfersStay {s t : State} (h : ReadFrom s t) : TransfersStay s t := by
  obtain ⟨_, _, _, _, _, _, rfl⟩ := h
  exact ⟨rfl, rfl⟩

theorem transfersStay_writeMem (s : State) (q who a : Nat) (bs : List Byte) : TransfersStay s (writeMem s q who a bs).1 := by
  by_cases hhost : isHost a = true
  · unfold writeMem
    simp only [hhost, if_true]
    split
    · exact .refl s
    · cases hostSide s q (a % 2 ^ 63) bs.length true with
      | wait asked => exact (readFrom_askPages s asked).transfersStay
      | refused => exact (readFrom_xlate s).transfersStay
      | go pages => exact ⟨rfl, rfl⟩
  · exact (deviceFrom_writeMem (Bool.not_eq_true _ ▸ hhost) s q who bs).1.transfersStay

theorem transfersStay_writePoison (s : State) (q a : Nat) : TransfersStay s (writePoison 1 s q a).1 := by
  by_cases hhost : isHost a = true
  · have hwritten := transfersStay_writeMem s q 0 a (List.replicate 16 0)
    simp only [writePoison, hhost, if_true]
    cases hostSide s q (a % 2 ^ 63) 16 true with
    | wait asked => exact hwritten
    | refused => exact hwritten
    | go pages =>
      dsimp only
      split
      · exact hwritten.trans ⟨rfl, rfl⟩
      · exact hwritten.trans ⟨rfl, rfl⟩
  · exact (deviceFrom_writePoison (Bool.not_eq_true _ ▸ hhost) s q).1.transfersStay

theorem transfersStay_regOr (s : State) (o m : Nat) : TransfersStay s (regOr s o m) := (readFrom_regOr s o m).transfersStay

theorem transfersStay_copyQuads (n : Nat) (s : State) (q src dst : Nat) : TransfersStay s (copyQuads n s q src dst).1 := by
  induction n generalizing s src dst with
  | zero => exact .refl s
  | succ n ih =>
    have hread := (readFrom_readMem s q 0xFD src 16).transfersStay
    simp only [copyQuads]
    generalize readMem s q 0xFD src 16 = r at hread
    by_cases hap : r.2.ap = true
    · rw [if_pos hap]; exact hread
    · rw [if_neg hap]
      by_cases hp : r.2.poison = true
      · have hmoved := hread.trans ((transfersStay_writePoison r.1 q dst).trans (transfersStay_regOr _ (memReg 0x8000) 2))
        simp only [hp, if_true]
        split
        · exact hmoved
        · exact hmoved.trans (ih _ _ _)
      · have hmoved := hread.trans (transfersStay_writeMem r.1 q 0xFD dst r.2.bytes)
        simp only [hp, Bool.false_eq_true, if_false]
        split
        · exact hmoved
        · exact hmoved.trans (ih _ _ _)

theorem transfersStay_moveQuads (n : Nat) (s : State) (q : Nat) (d : Sdesc) (off : Nat) : TransfersStay s (moveQuads n s q d off).1 := by
  induction n generalizing s off with
  | zero => exact .refl s
  | succ n ih =>
    simp only [moveQuads]
    split
    · exact transfersStay_copyQuads 1 s q _ _
    · exact (transfersStay_copyQuads 1 s q _ _).trans (ih _ _)

theorem transfersStay_askTokens (s : State) (owner : Nat) (recv : Bool) (c : Nat) : TransfersStay s (askTokens s owner recv c).1 := by
  rw [askTokens_frame]
  exact ⟨rfl, rfl⟩

theorem transfersStay_moverUnits (s : State) (q n : Nat) : TransfersStay s (moverUnits s q n) := by
  unfold moverUnits unitsDone
  dsimp only
  rw [regAdd_frame]
  split
  · exact ⟨rfl, rfl⟩
  · rw [regAdd_frame]
    exact ⟨rfl, rfl⟩

theorem transfersStay_burstOver (s : State) (q : Nat) : TransfersStay s (burstOver s q) := by
  unfold burstOver
  rw [dropTokens_frame]
  exact ⟨rfl, rfl⟩

/-! ## ROTATE (R152, R154, R155) -/

theorem exec_rotate (q : QIx) (s : State) : exec (.rotate q) s = flows s fun s => dispatch s (.queue q) 3 rotateRun := rfl

/-- A ROTATE's step and rotation stand, and its claim waits behind every earlier one. -/
def claimAsked (s : State) (c : Cmd) (q : Nat) (b : List Byte) : State :=
  let sp : StepSpec := { batch := rdBatch b, stride := rdStride b, records := rdRecords b, schema := op18 c.slot, accd := op20 c.slot,
                         outd := op28 c.slot, group := leAt c.slot 0x36 1 % 64, opens := true, closes := false, reduce := stReduce c.slot,
                         spans := (rdHedges b).map fun h => [h], arrays := some [] }
  { s with steps := s.steps ++ [{ uid := c.uid, q := q, bg := queueBg s q, spec := sp }],
           rotations := s.rotations ++ [{ uid := c.uid, q := q, desc := b }], claimsWaiting := s.claimsWaiting ++ [c.uid] }

section
variable {t t1 t2 t3 : State} {c : Cmd} {b a : List Byte} {sch : Schema}

theorem rotateRun_unread {st : St} (hb : readStruct t (cmdReach t c) 0xFC (op10 c.slot) 64 64 = (t1, .stop st)) :
    rotateRun t c = complete t1 c.uid st := by
  simp only [rotateRun, hb]

variable (hb : readStruct t (cmdReach t c) 0xFC (op10 c.slot) 64 64 = (t1, .ok b))
  (hsch : readSchema t1 (cmdReach t1 c) 0xFC (op18 c.slot) = (t2, .ok sch))
  (ha : readStruct t2 (cmdReach t2 c) 0xFC (op20 c.slot) 32 32 = (t3, .ok a))
include hb hsch ha

theorem rotateRun_refused (hok : rotDescOk t3 (cmdQueue t c) b = false) : rotateRun t c = complete t3 c.uid .format := by
  simp only [rotateRun, hb, hsch, ha, hok, Bool.not_false, true_or, if_true]

/-- A ROTATE that passes its checks asks for its claim; the only one that waits is judged at once. -/
theorem rotateRun_asks (hok : rotDescOk t3 (cmdQueue t c) b = true) (hsize : sch.size ≤ rdStride b) (hfixed : (accdOf a).fixed = false)
    (hreach : ((rotRanges b sch.size).all fun x => reaches t3 (cmdReach t3 c) x.1 x.2) = true) :
    rotateRun t c = if t3.claimsWaiting.isEmpty then grantClaim (claimAsked t3 c (cmdQueue t c) b) else claimAsked t3 c (cmdQueue t c) b := by
  simp only [rotateRun, hb, hsch, ha, hok, hfixed, hreach, Nat.not_lt.mpr hsize, Bool.not_true, Bool.false_eq_true, or_self, if_false]
  rfl

end

/-- Settles O38, a clause for each way a ROTATE goes: its descriptor is not read, breaks R154, or its claim waits behind others or alone. -/
theorem rotateClaims : Obligations.RotateClaims := by
  unfold Obligations.RotateClaims
  intro s t q c ⟨hs, htake, hfree⟩ _
  have hrun := dispatch_of_take htake hfree rotateRun
  refine ⟨fun t1 st hb => ?unread, fun t1 t2 t3 b sch a hb hsch ha => ⟨fun hok => ?refused, ?waits, ?alone⟩⟩
  case unread => exact becomes_of_run (exec_rotate q s) hs (by rw [hrun, rotateRun_unread hb])
  case refused => exact becomes_of_run (exec_rotate q s) hs (by rw [hrun, rotateRun_refused hb hsch ha hok])
  case waits =>
    intro hok hsize hfixed hreach hclaims hw hwin
    rw [rotateRun_asks hb hsch ha hok hsize hfixed hreach, if_neg (by rwa [List.isEmpty_iff])] at hrun
    exact answers_of_run (exec_rotate q s) hs (hrun.trans (behind_of_window_nil hwin)) hw fun _ => ⟨rfl, rfl, rfl⟩
  case alone =>
    intro hok hsize hfixed hreach hclaims
    rw [rotateRun_asks hb hsch ha hok hsize hfixed hreach, if_pos (by rwa [List.isEmpty_iff])] at hrun
    exact ⟨claimAsked t3 c (cmdQueue t c) b, becomes_of_run (exec_rotate q s) hs hrun, by simp [claimAsked, hclaims], rfl, rfl⟩

/-! ## COPY (R164, R165, R367) -/

theorem exec_copy (src : Src) (s : State) : exec (.copy src) s = flows s fun s => dispatch s src 4 copyRun := rfl

/-- A COPY whose list is aligned and whose group has the data mover joins its work. -/
theorem copyRun_joins {s : State} {c : Cmd} (h : op10 c.slot % 64 = 0 ∧ bitOf (bgUnits s (queueBg s (cmdQueue s c))) 4 = true) :
    copyRun s c = { s with movers := s.movers ++ [{ uid := c.uid, q := cmdQueue s c, list := BitVec.ofNat 64 (op10 c.slot),
                                                    count := leAt c.slot 0x18 4 }] } := by
  simp [copyRun, h.1, h.2]

theorem copyRun_refused {s : State} {c : Cmd} (h : op10 c.slot % 64 ≠ 0 ∨ bitOf (bgUnits s (queueBg s (cmdQueue s c))) 4 = false) :
    copyRun s c = complete s c.uid .format :=
  if_pos (by simpa using h)

/-! ## The data mover's turn (R168, R247) -/

theorem exec_dmvBurstDone (s : State) : exec .dmvBurstDone s = flows s burst := rfl

/-- Without a queue that has a burst to run the data mover rests. -/
theorem pickTurn_nil (t : Turn) : pickTurn t [] = none := by
  have hnone (l : Option Nat) : nextAfter l [] = none := by cases l <;> rfl
  cases hc : t.cur <;> simp [pickTurn, hc, hnone]

section
variable {s : State} (hserved : served s = true)
include hserved

theorem burst_rests (h : burstQueues s = []) : burst s = s := by
  simp [burst, hserved, h, pickTurn_nil]

section
variable {q : Nat} (hturn : pickTurn s.moverTurn (burstQueues s) = some q) (hmoves : ((readyMoves s).find? fun m => m.q == q) = none)
include hturn hmoves

theorem burst_list {m : Mover} (hm : ((readyMovers s).find? fun m => m.q == q) = some m) : burst s = listBurst s m := by
  simp [burst, queueBurst, hserved, hturn, hmoves, hm]

theorem burst_fetch {r : Rotation} (hlists : ((readyMovers s).find? fun m => m.q == q) = none)
    (hrounds : ((readyRots s).find? fun r => r.q == q) = none) (hr : ((readyFetches s).find? fun r => r.q == q) = some r) :
    burst s = fetchBurst s r := by
  simp [burst, queueBurst, hserved, hturn, hmoves, hlists, hrounds, hr]

end

end

/-! ## A burst of a plain descriptor (R165, R168) -/

/-- A claim of the first class is granted at once where none is ahead of it and the pool meets it. -/
theorem askTokens_granted {s : State} {c : Nat} (owner : Nat) (hahead : noneAhead s false = true) (hpool : claimSize s c ≤ s.pwr.pool)
    (hleak : s.pwr.leakOwed = 0) (hrx : s.pwr.rxOwed = 0) : (askTokens s owner false c).2 = true := by
  have hwaiting : s.pwr.waiting = [] := by
    simp only [noneAhead, Bool.and_eq_true, Bool.false_eq_true, if_false, List.isEmpty_iff] at hahead
    obtain ⟨-, hwaiting, -⟩ := hahead
    exact hwaiting
  by_cases hheld : holds s owner = true
  · simp [askTokens, hheld]
  · simp [askTokens, hheld, hwaiting, hahead, hpool, hleak, hrx]

theorem reachDesc_checked {s : State} {m : Mover} (hchecked : m.checked = true) (hheld : m.held = false) : reachDesc s m = (s, true) := by
  simp [reachDesc, hchecked, hheld]

/-- The command of a list came from a slot task (R285). -/
def ofTicket (s : State) (m : Mover) : Bool := match findCmd s m.uid with | some c => fromTicket c | none => false

/-- The bytes of a list's next burst. -/
def burstBytes (m : Mover) : Nat := min 4096 ((sdescOf m.desc).bytes - m.moved)

/-- A burst that does not end its plain descriptor moves on; the source of its command only picks the class of its claim. -/
theorem listBurst_movesOn {s s1 : State} {m : Mover} (hm : findMover s m.uid = some m) (hchecked : m.checked = true) (hheld : m.held = false)
    (hplain : (sdescOf m.desc).toArray = false) (hask : askTokens s ownMover (ofTicket s m) 8 = (s1, true))
    (hmoved : (moveQuads (burstBytes m / 16) s1 m.q (sdescOf m.desc) m.moved).2 = false)
    (hmore : m.moved + burstBytes m ≠ (sdescOf m.desc).bytes) :
    listBurst s m = burstOver (modMover (moverUnits (moveQuads (burstBytes m / 16) s1 m.q (sdescOf m.desc) m.moved).1 m.q (burstBytes m)) m.uid
      fun x => { x with moved := x.moved + burstBytes m }) m.q := by
  unfold burstBytes at hmoved hmore ⊢
  cases hcmd : findCmd s m.uid <;>
    simp only [ofTicket, hcmd] at hask <;>
    simp only [listBurst, reachDesc_checked hchecked hheld, hm, hplain, hcmd, hask, hmoved, hmore, Bool.not_true, Bool.false_eq_true, false_and,
      and_false, if_false]

/-- The list that moves on keeps the bytes moved. -/
theorem findMover_listBurst {s : State} {m : Mover} (hm : findMover s m.uid = some m) (hchecked : m.checked = true) (hheld : m.held = false)
    (hplain : (sdescOf m.desc).toArray = false) (hask : (askTokens s ownMover (ofTicket s m) 8).2 = true)
    (hmoved : (moveQuads (burstBytes m / 16) (askTokens s ownMover (ofTicket s m) 8).1 m.q (sdescOf m.desc) m.moved).2 = false)
    (hmore : m.moved + burstBytes m ≠ (sdescOf m.desc).bytes) :
    findMover (listBurst s m) m.uid = some { m with moved := m.moved + burstBytes m } := by
  rw [listBurst_movesOn hm hchecked hheld hplain (Prod.ext rfl hask) hmoved hmore, (transfersStay_burstOver _ _).findMover_eq]
  refine findMover_modMover (f := fun x => { x with moved := x.moved + burstBytes m }) (fun _ => rfl) ?_
  rw [((transfersStay_askTokens s _ _ _).trans ((transfersStay_moveQuads _ _ _ _ _).trans (transfersStay_moverUnits _ _ _))).findMover_eq, hm]

/-! ## The release of a dependence mark (R166, R255) -/

theorem exec_depFenceReleased (src : Src) (s : State) : exec (.depFenceReleased src) s = flows s fun s => withMover s src releaseDep := rfl

/-- A mark holds a source's list. -/
def markHolds (s : State) (src : Src) (m : Mover) : Bool :=
  m.held && (match findCmd s m.uid with | some c => c.src == src | none => false)

theorem withMover_held {s : State} {src : Src} {m : Mover} (h : s.movers.find? (markHolds s src) = some m) (f : State → Nat → State) :
    withMover s src f = f s m.uid := by
  unfold withMover
  split
  next first hfirst =>
    obtain rfl : first = m := Option.some.inj (hfirst.symm.trans h)
    rfl
  next hnone => nomatch hnone.symm.trans h

section
variable {s : State} {m : Mover} (hm : findMover s m.uid = some m)
include hm

theorem releaseDep_waits (h : reached s (sdescOf m.desc).fence (BitVec.ofNat 64 (sdescOf m.desc).value) = false) : releaseDep s m.uid = s := by
  simp [releaseDep, hm, h]

variable (hheld : m.held = true) (hreached : reached s (sdescOf m.desc).fence (BitVec.ofNat 64 (sdescOf m.desc).value) = true)
include hheld hreached

theorem releaseDep_releases (herr : (fence s (sdescOf m.desc).fence).err = false) :
    releaseDep s m.uid = modMover s m.uid fun x => { x with held := false, released := true } := by
  simp [releaseDep, hm, hheld, hreached, herr]

theorem releaseDep_ends (herr : (fence s (sdescOf m.desc).fence).err = true) : releaseDep s m.uid = endList s m .fenceErr := by
  simp [releaseDep, hm, hheld, hreached, herr]

end

/-- Settles O39: COPY by its two outcomes, the burst by the data mover's turn with what stays while it moves, the mark by its fence. -/
theorem dataMoverRows : Obligations.DataMoverRows := by
  unfold Obligations.DataMoverRows
  refine ⟨fun s t src c ⟨hs, htake, hfree⟩ => ⟨fun h => ?joins, fun h => ?refused⟩, ?bursts, fun s hs hnone => ?rests, ?marks⟩
  case joins => exact becomes_of_run (exec_copy src s) hs (by rw [dispatch_of_take htake hfree, copyRun_joins h])
  case refused => exact becomes_of_run (exec_copy src s) hs (by rw [dispatch_of_take htake hfree, copyRun_refused h])
  case bursts =>
    intro s q m hs hturn hmoves hlist hm hchecked hheld hplain hticket hahead hpool hleak hrx _ n hmoved hmore
    change ofTicket s m = false at hticket
    have hask : (askTokens s ownMover (ofTicket s m) 8).2 = true := hticket ▸ askTokens_granted ownMover hahead hpool hleak hrx
    exact ⟨becomes_of_run (exec_dmvBurstDone s) hs (burst_list hs.2 hturn hmoves hlist),
      findMover_listBurst hm hchecked hheld hplain hask (hticket.symm ▸ hmoved) hmore⟩
  case rests => exact exec_of_run_self (exec_dmvBurstDone s) hs (burst_rests hs.2 hnone)
  case marks =>
    intro s src m hs hfirst hm
    have hrun := withMover_held (src := src) hfirst releaseDep
    have hheld : m.held = true := ((Bool.and_eq_true _ _).mp (List.find?_some (p := markHolds s src) hfirst)).1
    refine ⟨fun hwait => ?waits, fun hreached herr => ?releases, fun hreached herr => ?ends⟩
    case waits => exact exec_of_run_self (exec_depFenceReleased src s) hs (hrun.trans (releaseDep_waits hm hwait))
    case releases =>
      exact answers_of_run (exec_depFenceReleased src s) hs (hrun.trans (releaseDep_releases hm hheld hreached herr)) hs.1 fun _ =>
        ⟨findMover_modMover (f := fun x => { x with held := false, released := true }) (fun _ => rfl) hm, rfl⟩
    case ends => exact becomes_of_run (exec_depFenceReleased src s) hs (hrun.trans (releaseDep_ends hm hheld hreached herr))

/-! ## The grant of a claim (R155) -/

theorem exec_rotationClaimGranted (s : State) : exec .rotationClaimGranted s = flows s grantClaim := rfl

theorem grantClaim_none {s : State} (h : s.claimsWaiting = []) : grantClaim s = s := by simp [grantClaim, h]

/-- A rotation whose step is no REDUCE keeps its table whole. -/
theorem divideTable_whole {s : State} {u : Nat} {x : StepRun} (hx : findStep s u = some x) (hred : x.spec.reduce = false) : divideTable s u = s := by
  unfold divideTable
  rw [hx]
  cases findRot s u with
  | none => rfl
  | some r => simp [hred]

/-- A rotation that holds its claim. -/
def grantedRot (r : Rotation) : Rotation := { r with stage := .running }

/-- The state with the claim at the head granted: the rotation runs, and the round registers of its hedges read 0. -/
def claimGranted (s : State) (u : Nat) (rest : List Nat) (hs : List Nat) : State :=
  hs.foldl (fun s h => regSet s (hdgReg h 0x184) 0) (modRot { s with claimsWaiting := rest } u grantedRot)

theorem claimGranted_frame (s : State) (u : Nat) (rest : List Nat) (hs : List Nat) :
    ∃ regs, claimGranted s u rest hs = { modRot { s with claimsWaiting := rest } u grantedRot with regs := regs } := by
  refine List.foldlRecOn (motive := fun t : State => ∃ regs, t = { modRot { s with claimsWaiting := rest } u grantedRot with regs := regs })
    hs _ ⟨_, rfl⟩ fun t ht h _ => ?_
  obtain ⟨regs, rfl⟩ := ht
  exact ⟨_, rfl⟩

section
variable {s : State} {u : Nat} {rest : List Nat} {r : Rotation} (hc : s.claimsWaiting = u :: rest) (hr : findRot s u = some r)
include hc hr

theorem grantClaim_waits (hfree : claimFree s r.desc = false) : grantClaim s = s := by simp [grantClaim, hc, hr, hfree]

theorem grantClaim_grants {x : StepRun} (hfree : claimFree s r.desc = true) (hx : findStep s u = some x) (hred : x.spec.reduce = false) :
    grantClaim s = claimGranted s u rest (rdHedges r.desc) := by
  obtain ⟨regs, hframe⟩ := claimGranted_frame s u rest (rdHedges r.desc)
  have hdivide : divideTable (claimGranted s u rest (rdHedges r.desc)) u = claimGranted s u rest (rdHedges r.desc) :=
    divideTable_whole (by rw [hframe]; exact hx) hred
  simp only [grantClaim, hc, hr, hfree, if_true]
  exact hdivide

end

/-! ## A burst of a staging fetch (R158, R162) -/

/-- The rotation once a burst of the fetch of an image of `size` bytes has moved. -/
def fetchedOn (size : Nat) (r : Rotation) : Rotation :=
  if size ≤ r.fetchAt + 4096 then { r with fetched := r.fetched + 1, fetching := none, fetchAt := 0 } else { r with fetchAt := r.fetchAt + 4096 }

theorem fetchBurst_goesOn {s : State} {r : Rotation} {e : Nat × Nat} (h : r.fetching = some e) : fetchBurst s r = fetchPart s r e := by
  simp [fetchBurst, h]

/-- An image is whole after a burst exactly when at most 4 KiB of it were left. -/
theorem le_add_min_sub_iff (size off : Nat) : size ≤ off + min 4096 (size - off) ↔ size ≤ off + 4096 := by omega

/-- What a burst of a staging fetch leaves of its rotation. -/
theorem findRot_fetchPart {s s1 : State} {r : Rotation} (e : Nat × Nat) (hr : findRot s r.uid = some r)
    (hask : askTokens s ownMover false 8 = (s1, true)) : findRot (fetchPart s r e) r.uid = some (fetchedOn e.2 r) := by
  have hasked := hask ▸ transfersStay_askTokens s ownMover false 8
  simp only [fetchPart, hask, Bool.not_true, Bool.false_eq_true, if_false, le_add_min_sub_iff, decide_eq_true_eq]
  rw [(transfersStay_burstOver _ _).findRot_eq, findRot_modRot (r := r)]
  · unfold fetchedOn
    split
    · rfl
    · next hmore => rw [Nat.min_eq_left (by omega)]
  · intro x
    split <;> rfl
  · rw [(hasked.trans (transfersStay_copyQuads _ _ _ _ _)).findRot_eq, hr]

/-! ## The staging of a round (R162) -/

theorem exec_stagingFetchDone (q : QIx) (s : State) : exec (.stagingFetchDone q) s = flows s fun s => stagingFetch s q.val := rfl

section
variable {s : State} {q : Nat} {r : Rotation} (hq : queueRot s q = some r)
include hq

theorem stagingFetch_rests (h : rdDepth r.desc = 0 ∨ rotRounds r ≤ r.staged ∨ r.stopping ≠ none ∨ r.fetched < (roundImages r r.staged).2) :
    stagingFetch s q = s := by
  simp only [stagingFetch, hq, Option.isNone_iff_eq_none]
  refine if_neg ?_
  rintro ⟨hdepth, hrounds, hstop, himages⟩
  rcases h with h | h | h | h
  · exact hdepth h
  · omega
  · exact h hstop
  · omega

theorem stagingFetch_stages (hdepth : rdDepth r.desc ≠ 0) (hrounds : r.staged < rotRounds r) (hstop : r.stopping = none)
    (himages : (roundImages r r.staged).2 ≤ r.fetched) :
    stagingFetch s q = modRot s r.uid fun x => { x with staged := x.staged + 1 } := by
  simp [stagingFetch, hq, hdepth, hrounds, hstop, himages]

/-! ## The start of a round (R158, R159, R162) -/

theorem roundStart_rests (h : r.loading = true ∨ r.stopping ≠ none ∨ r.waitMark ≠ none ∨ (rdDepth r.desc ≠ 0 ∧ r.staged ≤ r.round)) :
    roundStart s q = s := by
  simp only [roundStart, hq]
  cases findStep s r.uid with
  | none => rfl
  | some t =>
    refine if_pos ?_
    rcases h with h | h | h | ⟨hdepth, hstaged⟩
    · simp [h]
    · simp [Option.isSome_iff_ne_none.mpr h]
    · simp [Option.isSome_iff_ne_none.mpr h]
    · simp [hdepth, Nat.not_lt.mpr hstaged]

end

theorem exec_roundMulticastStart (q : QIx) (s : State) : exec (.roundMulticastStart q) s = flows s fun s => roundStart s q.val := rfl

/-- The next round of queue q's rotation may be asked for: none of its images loads, nothing stops or holds it, and it is staged. -/
structure RoundDue (s : State) (q : Nat) (r : Rotation) (t : StepRun) : Prop where
  rot : queueRot s q = some r
  step : findStep s r.uid = some t
  loading : r.loading = false
  stopping : r.stopping = none
  waitMark : r.waitMark = none
  round : r.round < rotRounds r
  staged : rdDepth r.desc = 0 ∨ r.round < r.staged
  list : earlierList s q r.uid = false
  runs : transfersRun s q = true

/-- A hedge that is not ready for the round is marked HELD. -/
def markHeld (r : Rotation) (t : StepRun) (s : State) (h : Nat) : State :=
  if roundReady s r t h then s else regOr s (hdgReg h 0x188) 2

/-- The images of the next round. -/
def nextImages (r : Rotation) : List Nat :=
  (List.range ((roundImages r r.round).2 - (roundImages r r.round).1)).map ((roundImages r r.round).1 + ·)

/-- The first entry of a round without staging whose mark holds it or stops it. -/
def marked (s : State) (r : Rotation) (es : List (Nat × ImgEntry)) : Option (Nat × ImgEntry) :=
  es.find? fun x => rdDepth r.desc == 0 && markSays s r x.1 x.2 != .go

section
variable {s : State} {q : Nat} {r : Rotation} {t : StepRun} (h : RoundDue s q r t)
include h

/-- None of the reasons to leave a round alone holds. -/
theorem RoundDue.goes : ¬(r.loading ∨ r.stopping.isSome ∨ r.waitMark.isSome ∨ rotRounds r ≤ r.round ∨
    !(rdDepth r.desc == 0 || decide (r.round < r.staged)) ∨ earlierList s q r.uid ∨ !transfersRun s q) := by
  have hstaged : (rdDepth r.desc == 0 || decide (r.round < r.staged)) = true := by simpa using h.staged
  simp [h.loading, h.stopping, h.waitMark, hstaged, h.list, h.runs, h.round]

theorem roundStart_waits (hready : ((rdHedges r.desc).all fun h => roundReady s r t h) = false) :
    roundStart s q = (rdHedges r.desc).foldl (markHeld r t) s := by
  simp only [roundStart, h.rot, h.step, if_neg h.goes, hready, Bool.not_false, if_true]
  rfl

section
variable (hready : ((rdHedges r.desc).all fun h => roundReady s r t h) = true) {s1 : State}
include hready

theorem roundStart_unread {st : St} (hes : roundEntries s r (nextImages r) = (s1, .stop st)) : roundStart s q = stopRotation s1 r.uid st := by
  unfold nextImages at hes
  simp only [roundStart, h.rot, h.step, if_neg h.goes, hready, hes, Bool.not_true, Bool.false_eq_true, if_false]

variable {es : List (Nat × ImgEntry)} (hes : roundEntries s r (nextImages r) = (s1, .ok es))
include hes

theorem roundStart_loads (hgo : marked s1 r es = none) (hne : es ≠ []) : roundStart s q = loadRound s1 r t es := by
  unfold nextImages at hes
  unfold marked at hgo
  have hsome : es.isEmpty = false := by simpa using hne
  simp only [roundStart, h.rot, h.step, if_neg h.goes, hready, hes, hgo, hsome, Bool.not_true, Bool.false_eq_true, if_false]

/-- A mark that does not let the data mover go on stops the rotation or holds it. -/
theorem roundStart_marked {x : Nat × ImgEntry} (hx : marked s1 r es = some x) :
    roundStart s q = if markSays s1 r x.1 x.2 = .error then stopRotation s1 r.uid .fenceErr else holdMark s1 r x.1 x.2 := by
  unfold nextImages at hes
  unfold marked at hx
  simp only [roundStart, h.rot, h.step, if_neg h.goes, hready, hes, hx, Bool.not_true, Bool.false_eq_true, if_false]

end

end

/-! ### HELD (`HDG_ROT_STAT`, bit 1)

The hedges are judged one after another, each in the state with those before it marked; the marks are registers, which no judgement reads. -/

/-- Whether a hedge is ready for a round does not depend on the registers. -/
theorem roundReady_withRegs (s : State) (regs : SMap Word) (r : Rotation) (t : StepRun) (h : Nat) :
    roundReady { s with regs := regs } r t h = roundReady s r t h := rfl

theorem markHeld_frame (r : Rotation) (t : StepRun) (s : State) (hs : List Nat) :
    ∃ regs, hs.foldl (markHeld r t) s = { s with regs := regs } := by
  refine List.foldlRecOn (motive := fun v : State => ∃ regs, v = { s with regs := regs }) hs _ ⟨_, rfl⟩ fun v hv h _ => ?_
  obtain ⟨regs, rfl⟩ := hv
  unfold markHeld
  split
  · exact ⟨_, rfl⟩
  · exact ⟨_, regOr_frame _ _ _⟩

theorem regBit_markHeld_mono {s : State} {o i : Nat} (h : regBit s o i = true) (r : Rotation) (t : StepRun) (k : Nat) :
    regBit (markHeld r t s k) o i = true := by
  unfold markHeld
  split
  · exact h
  · exact regBit_regOr_mono h _ _

theorem regBit_markHeld_same {s : State} {r : Rotation} {t : StepRun} {h : Nat} (hn : roundReady s r t h = false) :
    regBit (markHeld r t s h) (hdgReg h 0x188) 1 = true := by
  rw [markHeld, hn, if_neg Bool.false_ne_true, regBit, regNat, bitOf_eq_testBit, regGet_regOr, BitVec.toNat_or, Nat.testBit_or,
    show (BitVec.ofNat 32 2).toNat.testBit 1 = true by decide, Bool.or_true]

/-- Every hedge of a list that is not ready is marked HELD. -/
theorem regBit_markHeld {s : State} {r : Rotation} {t : StepRun} {h : Nat} (hn : roundReady s r t h = false) {hs : List Nat} (hh : h ∈ hs) :
    regBit (hs.foldl (markHeld r t) s) (hdgReg h 0x188) 1 = true := by
  obtain ⟨before, after, rfl⟩ := List.append_of_mem hh
  obtain ⟨regs, hframe⟩ := markHeld_frame r t s before
  rw [List.foldl_append, List.foldl_cons, hframe]
  exact List.foldlRecOn (motive := fun v : State => regBit v (hdgReg h 0x188) 1 = true) after _
    (regBit_markHeld_same ((roundReady_withRegs s regs r t h).trans hn)) fun v hv k _ => regBit_markHeld_mono hv r t k

/-! ## The release of a WAIT mark (R162, R163, R255) -/

theorem exec_waitMarkReleased (q : QIx) (s : State) : exec (.waitMarkReleased q) s = flows s fun s => releaseMark s q.val := rfl

section
variable {s s1 : State} {q i : Nat} {r : Rotation} {v : DWord} {e : ImgEntry} (hq : queueRot s q = some r) (hmark : r.waitMark = some (i, v))
  (he : imgEntry s r i = (s1, .ok e))
include hq hmark he

theorem releaseMark_waits (h : reached s1 e.fence v = false ∨ r.stopping ≠ none) : releaseMark s q = s1 := by
  simp only [releaseMark, hq, hmark, he]
  exact if_pos (h.imp (by simp [·]) Option.isSome_iff_ne_none.mpr)

variable (hstop : r.stopping = none) (hreached : reached s1 e.fence v = true)
include hstop hreached

theorem releaseMark_releases (herr : (fence s1 e.fence).err = false) :
    releaseMark s q = modRot s1 r.uid fun r => { r with waitMark := none, released := r.released ++ [i] } := by
  simp [releaseMark, hq, hmark, he, hstop, hreached, herr]

theorem releaseMark_stops (herr : (fence s1 e.fence).err = true) : releaseMark s q = stopRotation s1 r.uid .fenceErr := by
  simp [releaseMark, hq, hmark, he, hstop, hreached, herr]

end

/-- Settles O50, event by event: the grant of a claim, a burst of a staging fetch, a staged round, the start of a round and the release of a
mark, each by the equations of its run function. -/
theorem rotationEvents : Obligations.RotationEvents := by
  unfold Obligations.RotationEvents
  intro s hs
  refine ⟨fun hnone => ?noClaim, fun u rest r hc hr => ⟨fun hfree => ?claimed, fun x hfree hx hred => ?granted⟩, ?fetch, fun q r hq hr => ?_⟩
  case noClaim => exact exec_of_run_self (exec_rotationClaimGranted s) hs (grantClaim_none hnone)
  case claimed => exact exec_of_run_self (exec_rotationClaimGranted s) hs (grantClaim_waits hc hr hfree)
  case granted =>
    obtain ⟨regs, hframe⟩ := claimGranted_frame s u rest (rdHedges r.desc)
    have hgrant := findRot_modRot (s := { s with claimsWaiting := rest }) (f := grantedRot) (fun _ => rfl) hr
    exact answers_of_run (exec_rotationClaimGranted s) hs ((grantClaim_grants hc hr hfree hx hred).trans hframe) hs.1 fun _ =>
      ⟨rfl, ⟨_, hgrant, rfl⟩, rfl⟩
  case fetch =>
    intro q r e s1 hturn hmoves hlists hrounds hfetch hr he hask
    exact ⟨becomes_of_run (exec_dmvBurstDone s) hs ((burst_fetch hs.2 hturn hmoves hlists hrounds hfetch).trans (fetchBurst_goesOn he)),
      findRot_fetchPart e hr hask⟩
  refine ⟨fun hrest => ?unstaged, fun hdepth hrounds hstop himages => ?staged, ?round, fun hrest => ?noRound, ?mark⟩
  case unstaged => exact exec_of_run_self (exec_stagingFetchDone q s) hs (stagingFetch_rests hq hrest)
  case staged =>
    exact answers_of_run (exec_stagingFetchDone q s) hs (stagingFetch_stages hq hdepth hrounds hstop himages) hs.1 fun _ =>
      ⟨findRot_modRot (f := fun x => { x with staged := x.staged + 1 }) (fun _ => rfl) hr, rfl⟩
  case noRound => exact exec_of_run_self (exec_roundMulticastStart q s) hs (roundStart_rests hq hrest)
  case round =>
    intro t ht hloading hstop hmark hround hstaged hlist hruns
    have hdue : RoundDue s q.val r t := ⟨hq, ht, hloading, hstop, hmark, hround, hstaged, hlist, hruns⟩
    have hexec := exec_roundMulticastStart q s
    refine ⟨fun hready => ?held, fun hready => ⟨fun s1 st hes => ?unread, fun s1 es hes => ⟨fun hgo hne => ?loads, fun x hx => ?marked⟩⟩⟩
    case held =>
      obtain ⟨regs, hframe⟩ := markHeld_frame r t s (rdHedges r.desc)
      refine answers_of_run hexec hs (roundStart_waits hdue hready) (by rw [hframe]; exact hs.1) fun w =>
        ⟨fun h hh hn => regBit_markHeld hn hh, ?_⟩
      rw [hframe]
    case unread => exact becomes_of_run hexec hs (roundStart_unread hdue hready hes)
    case loads => exact becomes_of_run hexec hs (roundStart_loads hdue hready hes hgo hne)
    case marked =>
      have hrun := roundStart_marked hdue hready hes hx
      exact ⟨fun hhold => becomes_of_run hexec hs (hrun.trans (if_neg (by rw [hhold]; decide))),
        fun herror => becomes_of_run hexec hs (hrun.trans (if_pos herror))⟩
  case mark =>
    intro i v s1 e hmark he
    have hexec := exec_waitMarkReleased q s
    exact ⟨fun hstop hreached herr => becomes_of_run hexec hs (releaseMark_releases hq hmark he hstop hreached herr),
      fun hstop hreached herr => becomes_of_run hexec hs (releaseMark_stops hq hmark he hstop hreached herr),
      fun hwait => becomes_of_run hexec hs (releaseMark_waits hq hmark he hwait)⟩

end Sys2Proof.Machine
end

section
/-! The proofs of the family `08_receiver_units.md`: the registers of manual gain, of a retrain and of a model entry (O23), the start of a run
of slot tasks (O41), the SYSREF edge outside the powered core (O55), and the gain loop with the gain port (O56). -/

namespace Sys2Proof.Machine

/-! ## Manual gain (R176, R199, Table 8-10) -/

theorem exec_manualGainWrite (u : UIx) (l : LIx) (toRange : Bool) (v : Word) (s : State) :
    exec (.manualGainWrite u l toRange v) s = host s fun s => manualGainRun s u.val l.val toRange v := rfl

/-- The control words that a gain loop takes. -/
theorem agcValueOk_control {v : Nat} : agcValueOk 0 v = true ↔ v % 4 ≤ 2 ∧ 4 ≤ fieldOf v 5 2 ∧ fieldOf v 5 2 ≤ 10 := by
  simp [agcValueOk, show fieldOf v 1 0 = v % 4 by simp [fieldOf], and_assoc]

/-- The range words that a gain loop takes. -/
theorem agcValueOk_range {v : Nat} : agcValueOk 0xC v = true ↔ fieldOf v 7 0 ≤ fieldOf v 15 8 := by simp [agcValueOk]

section
variable {s : State} {u l : Nat} {v : Word}

theorem manualGainRun_ignored {toRange : Bool} (h : agcValueOk (if toRange then 0xC else 0) v.toNat = false) :
    manualGainRun s u l toRange v = s := by
  simp [manualGainRun, h]

/-- Outside MANUAL in force a gain register is stored and nothing else happens. -/
theorem manualGainRun_stores {toRange : Bool} (hrest : unitOn s u = false ∨ (stream s u l).agc.cls ≠ 2)
    (h : agcValueOk (if toRange then 0xC else 0) v.toNat = true) :
    manualGainRun s u l toRange v = regSet s (agcReg u l (if toRange then 0xC else 0)) (if toRange then v else v &&& 0x3FFFFFF) := by
  have hoff (w : Word) (o : Nat) : (unitOn (regSet s o w) u && (stream (regSet s o w) u l).agc.cls == 2) = false := by
    change (unitOn s u && (stream s u l).agc.cls == 2) = false
    rcases hrest with hoff | hcls
    · rw [hoff, Bool.false_and]
    · simp [hcls]
  simp [manualGainRun, h, hoff]

end

/-! ## The retrain of a port (R332) -/

theorem exec_retrain (p : PIx) (s : State) : exec (.retrain p) s = host s fun s => retrainRun s p.val := rfl

/-- A port that shuts down to train again. -/
def UPort.retraining (x : UPort) : UPort := { x with en := { x.en with disabling := true }, retrain := true }

theorem retrainRun_shuts {s : State} {p : Nat} (hst : (uport s p).st = 2) (hdis : (uport s p).en.disabling = false) :
    retrainRun s p = modPort s p UPort.retraining := by
  simp only [retrainRun, hst, hdis, Bool.not_false, and_self, if_true]
  rfl

theorem uport_modPort_ne (s : State) {p k : Nat} (f : UPort → UPort) (h : p ≠ k) : uport (modPort s p f) k = uport s k := by
  simp [uport, modPort, h]

/-! ## The READY register of a model entry (R316) -/

theorem exec_modelReadyWrite (n : MIx) (w : Word) (s : State) :
    exec (.modelReadyWrite n w) s = host s fun s => modelWrite s n.val 4 w := rfl

/-- Its fields are bits 19 to 0, and READY is bit 31. -/
def modelReadyWord (w : Word) : Word := BitVec.ofNat 32 (w.toNat % 2 ^ 20 + b2n (bitOf w.toNat 31) * 2 ^ 31)

theorem toNat_modelReadyWord (w : Word) : (modelReadyWord w).toNat = w.toNat % 2 ^ 20 + b2n (bitOf w.toNat 31) * 2 ^ 31 := by
  have hbit : b2n (bitOf w.toNat 31) ≤ 1 := by unfold b2n; split <;> omega
  rw [modelReadyWord, BitVec.toNat_ofNat]
  omega

theorem bitOf_modelReadyWord (w : Word) : bitOf (modelReadyWord w).toNat 31 = bitOf w.toNat 31 := by
  rw [toNat_modelReadyWord]
  cases h : bitOf w.toNat 31 <;> simp [bitOf, b2n] <;> omega

theorem fieldOf_eq_mod_div (n : Nat) {hi lo : Nat} (h : lo ≤ hi) : fieldOf n hi lo = n % 2 ^ (hi + 1) / 2 ^ lo := by
  rw [fieldOf, ← Nat.mod_mul_right_div_self, ← Nat.pow_add, show lo + (hi + 1 - lo) = hi + 1 by omega]

theorem fieldOf_modelReadyWord (w : Word) {hi lo : Nat} (h : lo ≤ hi) (hhi : hi < 20) :
    fieldOf (modelReadyWord w).toNat hi lo = fieldOf w.toNat hi lo := by
  have hready : b2n (bitOf w.toNat 31) * 2 ^ 31 % 2 ^ (hi + 1) = 0 :=
    Nat.mod_eq_zero_of_dvd (Dvd.dvd.mul_left (Nat.pow_dvd_pow 2 (by omega)) _)
  have hfields : w.toNat % 2 ^ 20 % 2 ^ (hi + 1) = w.toNat % 2 ^ (hi + 1) := Nat.mod_mod_of_dvd _ (Nat.pow_dvd_pow 2 (by omega))
  rw [fieldOf_eq_mod_div _ h, fieldOf_eq_mod_div _ h, toNat_modelReadyWord, Nat.add_mod, hready, Nat.add_zero, Nat.mod_mod, hfields]

/-- Bits 31 to 20 cleared. -/
theorem setField_clear_high {n : Nat} (h : n < 2 ^ 32) : setField (setField n 30 20 0) 31 31 0 = n % 2 ^ 20 := by
  unfold setField
  omega

/-- On a device that stands alone a write outside an open reduction stores the entry's fields. -/
theorem modelWrite_stores {s : State} {n : Nat} (w : Word) (htopo : s.glb.topo = 0)
    (hshut : reduceOpen s (regNat s (utrCom (0x1000 + 32 * n))) = false) :
    modelWrite s n 4 w = regSet s (utrCom (0x1000 + 32 * n + 4)) (modelReadyWord w) := by
  have halone (t : State) (ht : t.glb.topo = 0) : noticeChange t = t := if_pos ht
  simp [modelWrite, modelReadyWord, hshut, setField_clear_high w.isLt, halone, htopo]

/-- Settles O23, a clause for each register: a gain word stored or ignored, the retrain, and the READY register of a model entry. -/
theorem gainRetrainAndModelWrites : Obligations.GainRetrainAndModelWrites := by
  unfold Obligations.GainRetrainAndModelWrites
  intro s hs
  refine ⟨fun u l v hrest hcls hlo hhi => ?control, fun u l v hrest hrange => ?range, fun u l v hbad => ?ignored,
    fun p hst hdis => ?retrain, fun n w htopo hshut => ?model⟩
  case control =>
    exact exec_of_write (exec_manualGainWrite u l false v s) hs
      (manualGainRun_stores (toRange := false) hrest (agcValueOk_control.mpr ⟨hcls, hlo, hhi⟩)) hs.1
  case range =>
    exact exec_of_write (exec_manualGainWrite u l true v s) hs (manualGainRun_stores (toRange := true) hrest (agcValueOk_range.mpr hrange)) hs.1
  case ignored =>
    have hrefused : ¬agcValueOk 0 v.toNat = true := by rw [agcValueOk_control]; omega
    rw [exec_of_write (exec_manualGainWrite u l false v s) hs
      (manualGainRun_ignored (toRange := false) (Bool.eq_false_iff.mpr hrefused)) hs.1, finish_self]
  case retrain =>
    exact answers_of_write (exec_retrain p s) hs (retrainRun_shuts hst hdis) hs.1 fun _ =>
      ⟨uport_modPort_same s p.val UPort.retraining, fun k hk => uport_modPort_ne s UPort.retraining hk, rfl⟩
  case model =>
    have hstored (h : Hif) : regNat { regSet s (utrCom (0x1000 + 32 * n.val + 4)) (modelReadyWord w) with hif := h }
        (utrCom (0x1000 + 32 * n.val + 4)) = (modelReadyWord w).toNat := congrArg BitVec.toNat (regGet_regSet_same s _ _)
    refine answers_of_write (exec_modelReadyWrite n w s) hs (modelWrite_stores w htopo hshut) hs.1 fun h => ⟨?_, fun hi lo hlo hhi => ?_, rfl⟩
    · rw [regBit, hstored, bitOf_modelReadyWord]
    · rw [regField, hstored, fieldOf_modelReadyWord w hlo hhi]

/-! ## SLOT_RUN (R183, R184, R192, R222, R367) -/

theorem exec_slotRun (q : QIx) (s : State) : exec (.slotRun q) s = flows s fun s => dispatch s (.queue q) 5 slotRunRun := rfl

@[simp] theorem stream_modStream_same (s : State) (u l : Nat) (f : Stream → Stream) : stream (modStream s u l f) u l = f (stream s u l) := by
  simp [stream, modStream]

/-- A run that a command opens on a stream. -/
def openedRun (s : State) (c : Cmd) (d tr : List Byte) : SlotRun :=
  { uid := c.uid, q := cmdQueue s c, desc := d, trellis := tr, left := opB18 c.slot }

/-- The state with the run that command c opens on stream l of its unit. -/
def runOpened (s : State) (c : Cmd) (l q : Nat) (r : SlotRun) : State :=
  modStream { s with ctxQueue := sset s.ctxQueue (8 * leAt c.slot 0x1A 1 + l) q } (leAt c.slot 0x1A 1) l fun x =>
    { x with run := some r, tasks := [] }

theorem stream_runOpened (s : State) (c : Cmd) (l q : Nat) (r : SlotRun) :
    stream (runOpened s c l q r) (leAt c.slot 0x1A 1) l = { stream s (leAt c.slot 0x1A 1) l with run := some r, tasks := [] } := by
  rw [runOpened, stream_modStream_same]
  rfl

theorem slotRunRun_outside {s : State} {c : Cmd} (h : bitOf (bgUnits s (queueBg s (cmdQueue s c))) (leAt c.slot 0x1A 1) = false) :
    slotRunRun s c = complete s c.uid .format := by
  simp [slotRunRun, cmdReach, h]

section
variable {s s1 : State} {c : Cmd} (hu : bitOf (bgUnits s (queueBg s (cmdReach s c).q)) (leAt c.slot 0x1A 1) = true)
include hu

theorem slotRunRun_unread {st : St} (hread : readAny s (cmdReach s c) (coreId (leAt c.slot 0x1A 1)) (op10 c.slot) 96 64 = (s1, .stop st)) :
    slotRunRun s c = refuseRun s1 c (leAt c.slot 0x1A 1) st := by
  simp only [slotRunRun, hu, hread, Bool.not_true, Bool.false_eq_true, if_false]

variable {d : List Byte} (hread : readAny s (cmdReach s c) (coreId (leAt c.slot 0x1A 1)) (op10 c.slot) 96 64 = (s1, .ok d))
include hread

theorem slotRunRun_unnamed
    (hl : ((localsOf s1 (leAt c.slot 0x1A 1)).find? fun l => globalOf s1 (leAt c.slot 0x1A 1) l == some (leAt d 6 1)) = none) :
    slotRunRun s c = refuseRun s1 c (leAt c.slot 0x1A 1) .format := by
  simp only [slotRunRun, hu, hread, hl, Bool.not_true, Bool.false_eq_true, if_false]

variable {l : Nat}
  (hl : ((localsOf s1 (leAt c.slot 0x1A 1)).find? fun l => globalOf s1 (leAt c.slot 0x1A 1) l == some (leAt d 6 1)) = some l)
include hl

/-- A descriptor outside the limits of Table 8-5, or a stream that has a run. -/
theorem slotRunRun_malformed
    (hbad : slotDescOk d (capSamples s1 (leAt c.slot 0x1A 1) l) = false ∨ (stream s1 (leAt c.slot 0x1A 1) l).run ≠ none) :
    slotRunRun s c = refuseRun s1 c (leAt c.slot 0x1A 1) .format := by
  have hrefuse : !slotDescOk d (capSamples s1 (leAt c.slot 0x1A 1) l) ∨ (stream s1 (leAt c.slot 0x1A 1) l).run.isSome :=
    hbad.imp (by simp [·]) Option.isSome_iff_ne_none.mpr
  simp only [slotRunRun, hu, hread, hl, if_pos hrefuse, Bool.not_true, Bool.false_eq_true, if_false]

variable (hok : slotDescOk d (capSamples s1 (leAt c.slot 0x1A 1) l) = true) (hfree : (stream s1 (leAt c.slot 0x1A 1) l).run = none) {s2 : State}
include hok hfree

theorem slotRunRun_unchecked {st : St} (hchecks : runChecks s1 (cmdReach s c) (leAt c.slot 0x1A 1) l d = (s2, .stop st)) :
    slotRunRun s c = refuseRun s2 c (leAt c.slot 0x1A 1) st := by
  simp [slotRunRun, hu, hread, hl, hok, hfree, hchecks]

theorem slotRunRun_opens {tr : List Byte} (hchecks : runChecks s1 (cmdReach s c) (leAt c.slot 0x1A 1) l d = (s2, .ok tr)) :
    slotRunRun s c = runOpened s2 c l (cmdQueue s c) (openedRun s c d tr) := by
  simp only [slotRunRun, hu, hread, hl, hok, hfree, hchecks, Bool.not_true, Bool.false_eq_true, if_false, Option.isSome_none, or_self]
  rfl

end

/-- Settles O41, an outcome for each of the run's checks, each by the equation of its run function. -/
theorem slotRunOpens : Obligations.SlotRunOpens := by
  unfold Obligations.SlotRunOpens
  intro s t q c ⟨hs, htake, hfront⟩
  have hrun {v : State} (h : slotRunRun t c = v) : dispatch s (.queue q) 5 slotRunRun = behind (.queue q) v := by
    rw [dispatch_of_take htake hfront, h]
  have hbecomes {v : State} (h : slotRunRun t c = v) : becomes (.slotRun q) s (behind (.queue q) v) :=
    becomes_of_run (exec_slotRun q s) hs (hrun h)
  refine ⟨fun hu => hbecomes (slotRunRun_outside hu), fun hu => ⟨fun t1 st hread => hbecomes (slotRunRun_unread hu hread), fun t1 d hread =>
    ⟨fun hl => hbecomes (slotRunRun_unnamed hu hread hl), fun l hl => ⟨fun hbad => hbecomes (slotRunRun_malformed hu hread hl hbad),
      fun hok hfree => ⟨fun t2 st hchecks => hbecomes (slotRunRun_unchecked hu hread hl hok hfree hchecks),
        fun t2 tr hchecks hwait hwindow => ?opens⟩⟩⟩⟩⟩
  have hopened := (hrun (slotRunRun_opens hu hread hl hok hfree hchecks)).trans (behind_of_window_nil hwindow)
  refine answers_of_run (exec_slotRun q s) hs hopened hwait fun h => ?_
  have hstream : stream { runOpened t2 c l (cmdQueue t c) (openedRun t c d tr) with hif := h } (leAt c.slot 0x1A 1) l =
      { stream t2 (leAt c.slot 0x1A 1) l with run := some (openedRun t c d tr), tasks := [] } :=
    stream_runOpened t2 c l (cmdQueue t c) (openedRun t c d tr)
  exact ⟨congrArg Stream.run hstream, congrArg Stream.tasks hstream, rfl⟩

/-! ## SYSREF_EDGE without the core's power (R174, R393) -/

theorem exec_sysrefEdge (u : UIx) (s : State) : exec (.sysrefEdge u) s = alive s fun s => sysrefRun s u.val := rfl

theorem sysrefEdge_unpowered {s : State} (h : corePowered s = false) (u : UIx) : exec (.sysrefEdge u) s = .next s := by
  simp [exec_sysrefEdge, alive, h, done_self]

/-- Refutes O55: SYSREF_EDGE is an event of the powered core, and in RUNNING without the core's power an edge changes nothing, where the
statement, which asks for `flowing` and not for `powered`, has unit 0's clock take its phase. -/
theorem not_linkAndCapture : ¬ Obligations.LinkAndCapture := by
  unfold Obligations.LinkAndCapture
  intro h
  have hflowing : runningUnpowered.flowing := ⟨rfl, rfl⟩
  obtain ⟨-, -, -, hsysref, -⟩ := h runningUnpowered 0 hflowing
  rw [sysrefEdge_unpowered rfl, Host.Outcome.next.injEq] at hsysref
  have hphase := congrArg (fun t => (rxu t 0).phase) hsysref
  revert hphase
  decide

/-! ## What stays while a gain loop works (R176 to R178, R181) -/

theorem stream_modStream_ne (s : State) (u : Nat) {l k : Nat} (f : Stream → Stream) (h : l ≠ k) :
    stream (modStream s u l f) u k = stream s u k := by
  simp [stream, modStream, h]

theorem stream_modAgc_same (s : State) (u l : Nat) (f : Agc → Agc) :
    stream (modAgc s u l f) u l = { stream s u l with agc := f (stream s u l).agc } := stream_modStream_same s u l _

theorem stream_regOr (s : State) (o m u l : Nat) : stream (regOr s o m) u l = stream s u l := by rw [regOr_frame]; rfl

theorem stream_modRxu_of_streams {s : State} {u : Nat} {f : Rxu → Rxu} (h : (f (rxu s u)).streams = (rxu s u).streams) (l : Nat) :
    stream (modRxu s u f) u l = stream s u l := by
  rw [stream, rxu_modRxu_same, h, stream]

theorem agcReg_ne {o p : Nat} (h : o ≠ p) (u l : Nat) : agcReg u l o ≠ agcReg u l p := by
  unfold agcReg rxuReg
  omega

/-- What the gain loop of stream l of unit u reaches: its stream, and its sticky register `RXU_AGC_STATs`, whose bits stand. -/
structure LoopFrom (u l : Nat) (s t : State) : Prop where
  frame : t = { s with rxus := t.rxus, regs := t.regs }
  unit : rxu t u = { rxu s u with streams := (rxu t u).streams }
  others : ∀ k, l ≠ k → stream t u k = stream s u k
  regs : ∀ o, agcReg u l 0x18 ≠ o → regGet t o = regGet s o
  sticky : ∀ i, regBit s (agcReg u l 0x18) i = true → regBit t (agcReg u l 0x18) i = true

theorem LoopFrom.refl (u l : Nat) (s : State) : LoopFrom u l s s := ⟨rfl, rfl, fun _ _ => rfl, fun _ _ => rfl, fun _ h => h⟩

theorem LoopFrom.trans {u l : Nat} {s t v : State} (hst : LoopFrom u l s t) (htv : LoopFrom u l t v) : LoopFrom u l s v where
  frame := by rw [htv.frame, hst.frame]
  unit := by rw [htv.unit, hst.unit]
  others k hk := (htv.others k hk).trans (hst.others k hk)
  regs o ho := (htv.regs o ho).trans (hst.regs o ho)
  sticky i h := htv.sticky i (hst.sticky i h)

theorem loopFrom_modStream (s : State) (u l : Nat) (f : Stream → Stream) : LoopFrom u l s (modStream s u l f) where
  frame := rfl
  unit := by rw [modStream, rxu_modRxu_same]
  others _ hk := stream_modStream_ne s u f hk
  regs _ _ := rfl
  sticky _ h := h

theorem loopFrom_modAgc (s : State) (u l : Nat) (f : Agc → Agc) : LoopFrom u l s (modAgc s u l f) := loopFrom_modStream s u l _

theorem loopFrom_regOr (s : State) (u l m : Nat) : LoopFrom u l s (regOr s (agcReg u l 0x18) m) where
  frame := by rw [regOr_frame]
  unit := by rw [regOr_frame]; rfl
  others k _ := stream_regOr s _ _ u k
  regs o ho := regGet_regOr_ne s _ _ _ ho
  sticky _ h := regBit_regOr_mono h _ _

theorem loopFrom_queueGain (s : State) (u l g : Nat) : LoopFrom u l s (queueGain s u l g) := by
  have hqueue := loopFrom_modAgc s u l fun _ => ((stream s u l).agc.queue g).1
  unfold queueGain
  dsimp only
  split
  · exact hqueue.trans (loopFrom_regOr _ u l _)
  · exact hqueue

theorem loopFrom_latchAgc (s : State) (u l : Nat) : LoopFrom u l s (latchAgc s u l) := by
  unfold latchAgc
  dsimp only
  split
  · exact loopFrom_modAgc s u l _
  · split
    · exact loopFrom_modAgc s u l _
    · exact (loopFrom_modAgc s u l _).trans (loopFrom_queueGain _ u l _)

theorem loopFrom_releaseFreeze (s : State) (u l : Nat) : LoopFrom u l s (releaseFreeze s u l) := by
  unfold releaseFreeze
  dsimp only
  split
  · exact (loopFrom_modAgc s u l _).trans (loopFrom_latchAgc _ u l)
  · split
    · exact loopFrom_modAgc s u l _
    · exact .refl u l s

theorem loopFrom_freezeReleaseRun (s : State) (u l : Nat) : LoopFrom u l s (freezeReleaseRun s u l) := by
  unfold freezeReleaseRun
  split
  · split
    · exact loopFrom_releaseFreeze s u l
    · exact .refl u l s
  · exact .refl u l s

/-! ## The registers of a loop taken into force (R176, R177) -/

/-- A queued word of the loop. -/
theorem stream_queueGain (s : State) (u l g : Nat) :
    stream (queueGain s u l g) u l = { stream s u l with agc := { (stream s u l).agc with pend := some g } } := by
  unfold queueGain
  dsimp only
  split
  · rw [stream_regOr, stream_modAgc_same]; rfl
  · rw [stream_modAgc_same]; rfl

/-- Where the control register does not say MANUAL, the registers are taken into force and nothing else happens. -/
theorem latchAgc_loop {s : State} {u l : Nat} (h : fieldOf (regGet s (agcReg u l 0)).toNat 1 0 ≠ 2) :
    latchAgc s u l = modAgc s u l (agcLatched s u l) := if_pos h

/-- What a freeze, a frame and a settling time set in a loop is the same in two loops. -/
structure SameFreeze (a b : Agc) : Prop where
  frozen : b.frozen = a.frozen
  frozenG : b.frozenG = a.frozenG
  lateFreeze : b.lateFreeze = a.lateFreeze
  gDone : b.gDone = a.gDone
  blank : b.blank = a.blank
  release : b.release = a.release

theorem sameFreeze_latchAgc (s : State) (u l : Nat) : SameFreeze (stream s u l).agc (stream (latchAgc s u l) u l).agc := by
  unfold latchAgc
  dsimp only
  split
  · rw [stream_modAgc_same]; exact ⟨rfl, rfl, rfl, rfl, rfl, rfl⟩
  · split
    · rw [stream_modAgc_same]; exact ⟨rfl, rfl, rfl, rfl, rfl, rfl⟩
    · rw [stream_queueGain, stream_modAgc_same]; exact ⟨rfl, rfl, rfl, rfl, rfl, rfl⟩

/-! ## A step of the loop (R177) -/

section
variable {a : Agc} {p c : Nat}

theorem Agc.step_clipped (hthr : 0 < fieldOf a.ctl.toNat 25 18) (h : fieldOf a.ctl.toNat 25 18 ≤ c) :
    a.step p c = ((max (fieldOf a.range.toNat 7 0 : Int) (min (fieldOf a.range.toNat 15 8) (a.g - fieldOf a.ctl.toNat 17 14))).toNat, true) := by
  simp [Agc.step, hthr, h]

theorem Agc.step_unclipped (h : fieldOf a.ctl.toNat 25 18 = 0 ∨ c < fieldOf a.ctl.toNat 25 18) :
    a.step p c = ((max (fieldOf a.range.toNat 7 0 : Int) (min (fieldOf a.range.toNat 15 8)
      (if a.hi.toNat < p then a.g - fieldOf a.ctl.toNat 13 10 else if p < a.lo.toNat then a.g + fieldOf a.ctl.toNat 9 6 else a.g))).toNat,
      false) := by
  have hclip : (decide (0 < fieldOf a.ctl.toNat 25 18) && decide (fieldOf a.ctl.toNat 25 18 ≤ c)) = false := by
    simp only [Bool.and_eq_false_iff, decide_eq_false_iff_not]
    omega
  simp only [Agc.step, hclip, Bool.false_eq_true, if_false]

/-- The loop stays from GAIN_MIN to GAIN_MAX. -/
theorem Agc.step_mem (h : fieldOf a.range.toNat 7 0 ≤ fieldOf a.range.toNat 15 8) :
    fieldOf a.range.toNat 7 0 ≤ (a.step p c).1 ∧ (a.step p c).1 ≤ fieldOf a.range.toNat 15 8 := by
  dsimp only [Agc.step]
  omega

end

section
variable {a : Agc} {p c : Nat} (h : fieldOf a.ctl.toNat 25 18 = 0 ∨ c < fieldOf a.ctl.toNat 25 18)
include h

theorem Agc.step_steady (hhi : p ≤ a.hi.toNat) (hlo : a.lo.toNat ≤ p) (hmin : fieldOf a.range.toNat 7 0 ≤ a.g)
    (hmax : a.g ≤ fieldOf a.range.toNat 15 8) : (a.step p c).1 = a.g := by
  rw [Agc.step_unclipped h, if_neg (by omega), if_neg (by omega)]
  omega

theorem Agc.step_lowers (hhi : a.hi.toNat < p) : (a.step p c).1 ≤ max (fieldOf a.range.toNat 7 0) a.g := by
  rw [Agc.step_unclipped h, if_pos hhi]
  omega

theorem Agc.step_raises (hhi : p ≤ a.hi.toNat) (hlo : p < a.lo.toNat) : (a.step p c).1 =
    max (fieldOf a.range.toNat 7 0) (min (fieldOf a.range.toNat 15 8) (a.g + fieldOf a.ctl.toNat 9 6)) := by
  rw [Agc.step_unclipped h, if_neg (by omega), if_pos hlo]
  omega

end

/-! ## AGC_WINDOW_END (R177) -/

theorem exec_agcWindowEnd (u : UIx) (l : LIx) (s : State) : exec (.agcWindowEnd u l) s = flows s fun s => agcWindowEnd s u.val l.val := rfl

/-- The loop after its oldest window, whose step gives `g`. -/
def Agc.judged (a : Agc) (rest : List (Nat × Nat)) (g : Nat) : Agc :=
  { a with wins := rest, g := g, pend := if g = a.g then a.pend else some g }

/-- A CLIP_STEP that was taken is noted in `RXU_AGC_STATs`. -/
def clipNoted (s : State) (u l : Nat) (clip : Bool) : State := if clip then regOr s (agcReg u l 0x18) (2 ^ 24) else s

/-- The state with the oldest window judged, before the loop's registers take effect. -/
def windowJudged (s : State) (u l p c : Nat) (rest : List (Nat × Nat)) : State :=
  let r := (stream s u l).agc.step p c
  let t := clipNoted (modAgc s u l fun a => { a with wins := rest, g := r.1 }) u l r.2
  if r.1 ≠ (stream s u l).agc.g then queueGain t u l r.1 else t

theorem loopFrom_clipNoted (s : State) (u l : Nat) (clip : Bool) : LoopFrom u l s (clipNoted s u l clip) := by
  cases clip with
  | true => exact loopFrom_regOr s u l (2 ^ 24)
  | false => exact .refl u l s

theorem stream_clipNoted (s : State) (u l : Nat) (clip : Bool) : stream (clipNoted s u l clip) u l = stream s u l := by
  cases clip with
  | true => exact stream_regOr s (agcReg u l 0x18) (2 ^ 24) u l
  | false => rfl

theorem regBit_regOr_same (s : State) (o : Nat) {i : Nat} (h : i < 32) : regBit (regOr s o (2 ^ i)) o i = true := by
  rw [regBit, regNat, bitOf_eq_testBit, regGet_regOr, BitVec.toNat_or, Nat.testBit_or, BitVec.toNat_ofNat,
    Nat.mod_eq_of_lt (Nat.pow_lt_pow_right (by decide) h), Nat.testBit_two_pow_self, Bool.or_true]

section
variable (s : State) (u l p c : Nat) (rest : List (Nat × Nat))

theorem loopFrom_windowJudged : LoopFrom u l s (windowJudged s u l p c rest) := by
  have hjudged := loopFrom_modAgc s u l fun a => { a with wins := rest, g := ((stream s u l).agc.step p c).1 }
  unfold windowJudged
  dsimp only
  split
  · exact hjudged.trans ((loopFrom_clipNoted _ u l _).trans (loopFrom_queueGain _ u l _))
  · exact hjudged.trans (loopFrom_clipNoted _ u l _)

theorem stream_windowJudged : stream (windowJudged s u l p c rest) u l =
    { stream s u l with agc := (stream s u l).agc.judged rest ((stream s u l).agc.step p c).1 } := by
  unfold windowJudged Agc.judged
  dsimp only
  split
  · rw [stream_queueGain, stream_clipNoted, stream_modAgc_same]
  · next heq => rw [stream_clipNoted, stream_modAgc_same, if_pos (not_not.mp heq)]

theorem regBit_windowJudged (h : ((stream s u l).agc.step p c).2 = true) :
    regBit (windowJudged s u l p c rest) (agcReg u l 0x18) 24 = true := by
  have hnoted (t : State) : regBit (clipNoted t u l ((stream s u l).agc.step p c).2) (agcReg u l 0x18) 24 = true := by
    rw [h]
    exact regBit_regOr_same t (agcReg u l 0x18) (i := 24) (by decide)
  unfold windowJudged
  dsimp only
  split
  · exact (loopFrom_queueGain _ u l _).sticky 24 (hnoted _)
  · exact hnoted _

end

theorem LoopFrom.agcLatched_eq {u l : Nat} {s t : State} (h : LoopFrom u l s t) : agcLatched t u l = agcLatched s u l := by
  unfold agcLatched
  rw [h.regs _ (agcReg_ne (by decide) u l), h.regs _ (agcReg_ne (by decide) u l), h.regs _ (agcReg_ne (by decide) u l),
    h.regs _ (agcReg_ne (by decide) u l)]

section
variable {s : State} {u l p c : Nat} {rest : List (Nat × Nat)}

theorem agcWindowEnd_none (h : (stream s u l).agc.wins = []) : agcWindowEnd s u l = s := by simp [agcWindowEnd, h]

theorem agcWindowEnd_judges (h : (stream s u l).agc.wins = (p, c) :: rest) :
    agcWindowEnd s u l = latchAgc (windowJudged s u l p c rest) u l := by
  simp only [agcWindowEnd, h]
  rfl

theorem loopFrom_agcWindowEnd (h : (stream s u l).agc.wins = (p, c) :: rest) : LoopFrom u l s (agcWindowEnd s u l) := by
  rw [agcWindowEnd_judges h]
  exact (loopFrom_windowJudged s u l p c rest).trans (loopFrom_latchAgc _ u l)

/-- A CLIP_STEP that was taken stands noted. -/
theorem regBit_agcWindowEnd (h : (stream s u l).agc.wins = (p, c) :: rest) (hclip : ((stream s u l).agc.step p c).2 = true) :
    regBit (agcWindowEnd s u l) (agcReg u l 0x18) 24 = true := by
  rw [agcWindowEnd_judges h]
  exact (loopFrom_latchAgc _ u l).sticky 24 (regBit_windowJudged s u l p c rest hclip)

/-- Outside MANUAL the oldest window's step is taken, and the registers take effect with it. -/
theorem stream_agcWindowEnd (h : (stream s u l).agc.wins = (p, c) :: rest) (hcls : fieldOf (regGet s (agcReg u l 0)).toNat 1 0 ≠ 2) :
    stream (agcWindowEnd s u l) u l =
      { stream s u l with agc := agcLatched s u l ((stream s u l).agc.judged rest ((stream s u l).agc.step p c).1) } := by
  have hloop := loopFrom_windowJudged s u l p c rest
  rw [← hloop.regs _ (agcReg_ne (by decide) u l)] at hcls
  rw [agcWindowEnd_judges h, latchAgc_loop hcls, stream_modAgc_same, stream_windowJudged, hloop.agcLatched_eq]

end

/-! ## PREAMBLE_DETECTION (R178, Table 8-3) -/

theorem exec_preambleDetection (u : UIx) (l : LIx) (s : State) :
    exec (.preambleDetection u l) s = flows s fun s => preambleRun s u.val l.val := rfl

/-- A frame of stream l is on the gain port. -/
def onPort (s : State) (u l : Nat) : Bool :=
  match (rxu s u).gcpCur with
  | some c => c.1 == l
  | none => false

theorem onPort_iff {s : State} {u l : Nat} : onPort s u l = true ↔ ∃ g, (rxu s u).gcpCur = some (l, g) := by
  unfold onPort
  cases (rxu s u).gcpCur with
  | none => simp
  | some c => obtain ⟨k, g⟩ := c; simp

/-- The loop of AUTO_FREEZE after a detection at `ix`: one that waits for its freeze takes note of it alone; another stops, and freezes at
once or when the frame on the port completes. -/
def Agc.detected (a : Agc) (rest : List Nat) (ix : Nat) (waits : Bool) : Agc :=
  if a.lateFreeze then { a with found := rest }
  else if waits then { a.newWindow with found := rest, pend := none, release := none, lateFreeze := true, frozenAt := ix }
  else { a.newWindow with found := rest, pend := none, release := none, frozen := true, frozenG := a.gDone, frozenAt := ix }

section
variable {a : Agc} (rest : List Nat) (ix : Nat)

theorem Agc.detected_found (waits : Bool) : (a.detected rest ix waits).found = rest := by
  unfold Agc.detected
  split
  · rfl
  · split <;> rfl

theorem Agc.detected_late (h : a.lateFreeze = true) (waits : Bool) : a.detected rest ix waits = { a with found := rest } := if_pos h

variable (h : a.lateFreeze = false)
include h

theorem Agc.detected_waits : a.detected rest ix true =
    { a.newWindow with found := rest, pend := none, release := none, lateFreeze := true, frozenAt := ix } := by
  simp [Agc.detected, h]

theorem Agc.detected_freezes : a.detected rest ix false =
    { a.newWindow with found := rest, pend := none, release := none, frozen := true, frozenG := a.gDone, frozenAt := ix } := by
  simp [Agc.detected, h]

end

theorem noteMsg_agc (x : Stream) (ix gain : Nat) : (noteMsg x ix gain).agc = x.agc := by
  unfold noteMsg
  dsimp only
  split <;> rfl

theorem noteMsg_samples (x : Stream) (ix gain : Nat) : (noteMsg x ix gain).samples = x.samples := by
  unfold noteMsg
  dsimp only
  split <;> rfl

/-- A task whose window has a message with its detection at `ix`. -/
def Task.withMsg (x : Task) (ix gain : Nat) : Task :=
  { x with
    messages := x.messages + 1, gain := gain, lastAt := ix, dets := x.dets ++ [{ at_ := ix, gain := gain, seq := x.messages }] }

theorem noteMsg_only {y : Stream} {x : Task} {ix gain : Nat} (htasks : y.tasks = [x]) (hstart : x.start ≤ ix)
    (hstop : ∀ p, x.stop = some p → ix < p) (hroom : x.messages < maxMsg y) :
    noteMsg y ix gain = { y with tasks := [x.withMsg ix gain] } := by
  cases hs : x.stop with
  | none => simp [noteMsg, htasks, hstart, hroom, Task.withMsg, hs]
  | some p => simp [noteMsg, htasks, hstart, hroom, Task.withMsg, hs, hstop p hs]

section
variable {s : State} {u l : Nat}

theorem preambleRun_none (h : (stream s u l).agc.found = []) : preambleRun s u l = s := by simp [preambleRun, h]

variable {ix : Nat} {rest : List Nat} (h : (stream s u l).agc.found = ix :: rest)
include h

theorem preambleRun_search (hcls : (stream s u l).agc.cls = 0) : preambleRun s u l =
    modStream s u l fun x => noteMsg { x with agc := (stream s u l).agc.detected rest ix (onPort s u l) } ix (stream s u l).agc.gDone := by
  simp only [preambleRun, h, hcls, ne_eq, not_true, if_false]
  rfl

theorem preambleRun_tracks (hcls : (stream s u l).agc.cls ≠ 0) : preambleRun s u l =
    modStream s u l fun x => noteMsg { x with agc := { (stream s u l).agc with found := rest } } ix
      (if (stream s u l).agc.cls = 2 then (stream s u l).agc.manual else (stream s u l).agc.gDone) := by
  simp only [preambleRun, h, if_pos hcls]

end

/-! ## The release of a freeze (R178, Table 8-3) -/

theorem exec_freezeRelease (u : UIx) (l : LIx) (s : State) :
    exec (.freezeRelease u l) s = flows s fun s => freezeReleaseRun s u.val l.val := rfl

theorem exec_maxHoldExpiry (u : UIx) (l : LIx) (s : State) : exec (.maxHoldExpiry u l) s = flows s fun s => maxHoldRun s u.val l.val := rfl

/-- A released loop resumes SEARCH from the frozen G with a new window. -/
def Agc.released (a : Agc) : Agc := { a.newWindow with frozen := false, g := a.frozenG, release := none, hold := 0 }

section
variable {s : State} {u l : Nat}

theorem releaseFreeze_frozen (h : (stream s u l).agc.frozen = true) :
    releaseFreeze s u l = latchAgc (modAgc s u l Agc.released) u l := if_pos h

theorem releaseFreeze_searching (hf : (stream s u l).agc.frozen = false) (hl : (stream s u l).agc.lateFreeze = false) :
    releaseFreeze s u l = s := by
  simp [releaseFreeze, hf, hl]

theorem releaseFreeze_late (hf : (stream s u l).agc.frozen = false) (hl : (stream s u l).agc.lateFreeze = true) :
    releaseFreeze s u l = modAgc s u l fun a => { a with release := some 0 } := by
  simp [releaseFreeze, hf, hl]

/-- Outside MANUAL a frozen loop is released, and its registers take effect. -/
theorem releaseFreeze_loop (h : (stream s u l).agc.frozen = true) (hcls : fieldOf (regGet s (agcReg u l 0)).toNat 1 0 ≠ 2) :
    releaseFreeze s u l = modAgc (modAgc s u l Agc.released) u l (agcLatched s u l) :=
  (releaseFreeze_frozen h).trans (latchAgc_loop hcls)

theorem sameFreeze_releaseFreeze (h : (stream s u l).agc.frozen = true) :
    SameFreeze (stream s u l).agc.released (stream (releaseFreeze s u l) u l).agc := by
  have hlatch := sameFreeze_latchAgc (modAgc s u l Agc.released) u l
  rwa [stream_modAgc_same, ← releaseFreeze_frozen h] at hlatch

theorem freezeReleaseRun_due {r : Nat} (h : (stream s u l).agc.release = some r) (hr : r ≤ (stream s u l).samples) :
    freezeReleaseRun s u l = releaseFreeze s u l := by
  simp [freezeReleaseRun, h, hr]

theorem freezeReleaseRun_early (h : ∀ r, (stream s u l).agc.release = some r → (stream s u l).samples < r) : freezeReleaseRun s u l = s := by
  unfold freezeReleaseRun
  cases hrel : (stream s u l).agc.release with
  | none => rfl
  | some r => exact if_neg (Nat.not_le.mpr (h r hrel))

theorem freezeReleaseRun_cases (s : State) (u l : Nat) : freezeReleaseRun s u l = s ∨ freezeReleaseRun s u l = releaseFreeze s u l := by
  unfold freezeReleaseRun
  split
  · split
    · exact .inr rfl
    · exact .inl rfl
  · exact .inl rfl

theorem maxHoldRun_due (hn : regField s (agcReg u l 0x14) 19 0 ≠ 0)
    (h : (stream s u l).agc.frozenAt + regField s (agcReg u l 0x14) 19 0 ≤ (stream s u l).samples) :
    maxHoldRun s u l = releaseFreeze s u l := if_pos ⟨hn, h⟩

theorem maxHoldRun_early (h : (stream s u l).samples < (stream s u l).agc.frozenAt + regField s (agcReg u l 0x14) 19 0) :
    maxHoldRun s u l = s := if_neg fun hdue => absurd hdue.2 (Nat.not_le.mpr h)

/-! ## SETTLE_EXPIRY (R178) -/

theorem exec_settleExpiry (u : UIx) (l : LIx) (s : State) : exec (.settleExpiry u l) s = flows s fun s => settleRun s u.val l.val := rfl

variable {b : Nat} (h : (stream s u l).agc.blank = some b)
include h

theorem settleRun_due (hb : b ≤ (stream s u l).samples) : settleRun s u l = modAgc s u l fun a => { a with blank := none } := by
  simp [settleRun, h, hb]

theorem settleRun_early (hb : (stream s u l).samples < b) : settleRun s u l = s := by simp [settleRun, h, hb]

end

/-! ## GAIN_FRAME_START (R181) -/

theorem exec_gainFrameStart (u : UIx) (s : State) : exec (.gainFrameStart u) s = flows s fun s => gainStartRun s u.val := rfl

/-- The gain frame that the port sends for stream l. -/
def nextFrame (s : State) (u l g : Nat) : Word :=
  BitVec.ofNat 32 (gainFrame l (fieldOf (stream s u l).agc.range.toNat 31 24) g (rxu s u).gcpSeq)

/-- The state with G of stream l taken to the port. -/
def frameSent (s : State) (u l g : Nat) : State :=
  modRxu (modAgc s u l fun a => { a with pend := none }) u fun x =>
    { x with gcpLast := some l, gcpCur := some (l, g), gcpSeq := (x.gcpSeq + 1) % 16, gcpSent := x.gcpSent ++ [nextFrame s u l g] }

theorem rxu_frameSent (s : State) (u l g : Nat) : ∃ streams, rxu (frameSent s u l g) u = { rxu s u with
    streams := streams, gcpLast := some l, gcpCur := some (l, g), gcpSeq := ((rxu s u).gcpSeq + 1) % 16,
    gcpSent := (rxu s u).gcpSent ++ [nextFrame s u l g] } := by
  rw [frameSent, rxu_modRxu_same, (loopFrom_modAgc s u l _).unit]
  exact ⟨_, rfl⟩

theorem stream_frameSent (s : State) (u l g k : Nat) :
    stream (frameSent s u l g) u k = stream (modAgc s u l fun a => { a with pend := none }) u k := stream_modRxu_of_streams rfl k

section
variable {s : State} {u : Nat}

theorem gainStartRun_rests (h : unitOn s u = false ∨ (rxu s u).gcpCur ≠ none) : gainStartRun s u = s := by
  have hrest : !unitOn s u ∨ (rxu s u).gcpCur.isSome := h.imp (by simp [·]) Option.isSome_iff_ne_none.mpr
  exact if_pos hrest

theorem gainStartRun_sends {l g : Nat} (hon : unitOn s u = true) (hcur : (rxu s u).gcpCur = none)
    (hnext : nextAfter (rxu s u).gcpLast ((List.range 8).filter fun k => (stream s u k).agc.pend.isSome) = some l)
    (hpend : (stream s u l).agc.pend = some g) : gainStartRun s u = frameSent s u l g := by
  simp [gainStartRun, hon, hcur, hnext, hpend, frameSent, nextFrame]

end

/-! ## GAIN_FRAME_DONE (R178, R181) -/

theorem exec_gainFrameDone (u : UIx) (s : State) : exec (.gainFrameDone u) s = flows s fun s => gainDoneRun s u.val := rfl

theorem regGet_regAdd (s : State) (o n : Nat) : regGet (regAdd s o n) o = regGet s o + BitVec.ofNat 32 n := by
  unfold regAdd
  split
  · next h => subst h; simp
  · simp

theorem regGet_regAdd_ne (s : State) {o p : Nat} (n : Nat) (h : o ≠ p) : regGet (regAdd s o n) p = regGet s p := by
  unfold regAdd
  split <;> simp [h]

/-- The state with the port free again and the frame counted. -/
def frameCounted (s : State) (u : Nat) : State := regAdd (modRxu s u fun x => { x with gcpCur := none }) (rxuReg u 0x3004) 1

theorem frameCounted_frame (s : State) (u : Nat) :
    frameCounted s u = { s with rxus := (frameCounted s u).rxus, regs := (frameCounted s u).regs } := by
  rw [frameCounted, regAdd_frame]; rfl

theorem rxu_frameCounted (s : State) (u : Nat) : rxu (frameCounted s u) u = { rxu s u with gcpCur := none } := by
  have hadd (t : State) : rxu (regAdd t (rxuReg u 0x3004) 1) u = rxu t u := by rw [regAdd_frame]; rfl
  rw [frameCounted, hadd, rxu_modRxu_same]

theorem stream_frameCounted (s : State) (u k : Nat) : stream (frameCounted s u) u k = stream s u k := by
  rw [stream, rxu_frameCounted, stream]

theorem regGet_frameCounted (s : State) (u : Nat) : regGet (frameCounted s u) (rxuReg u 0x3004) = regGet s (rxuReg u 0x3004) + 1 :=
  regGet_regAdd _ _ _

theorem agcReg_ne_frames (u : Nat) {l o : Nat} (hl : l < 8) (ho : o < 0x20) : rxuReg u 0x3004 ≠ agcReg u l o := by
  unfold agcReg rxuReg
  omega

/-- A loop once the transceiver holds G, blanked until sample `b`. -/
def Agc.held (g b : Nat) (a : Agc) : Agc := { a with gDone := g, blank := some b }

/-- The state with the transceiver holding the frame's G, before a freeze that waited for it. -/
def frameHeld (s : State) (u l g : Nat) : State :=
  modAgc (frameCounted s u) u l (Agc.held g ((stream s u l).samples + regField s (agcReg u l 0x14) 31 20))

theorem gainDoneRun_none {s : State} {u : Nat} (h : (rxu s u).gcpCur = none) : gainDoneRun s u = s := by simp [gainDoneRun, h]

theorem gainDoneRun_holds {s : State} {u l g : Nat} (hl : l < 8) (h : (rxu s u).gcpCur = some (l, g)) :
    gainDoneRun s u = if (stream s u l).agc.lateFreeze then freezeLate (frameHeld s u l g) u l g else frameHeld s u l g := by
  have hsettle : regField (frameCounted s u) (agcReg u l 0x14) 31 20 = regField s (agcReg u l 0x14) 31 20 :=
    congrArg (fun w : Word => fieldOf w.toNat 31 20) (regGet_regAdd_ne _ 1 (agcReg_ne_frames u hl (by decide)))
  have hheld : (stream (frameHeld s u l g) u l).agc.lateFreeze = (stream s u l).agc.lateFreeze := by
    rw [frameHeld, stream_modAgc_same, stream_frameCounted]; rfl
  rw [← hheld, frameHeld, ← stream_frameCounted s u l, ← hsettle]
  simp only [gainDoneRun, h]
  rfl

/-- A freeze that waited for a frame takes hold at its G, and then the release that came meanwhile follows. -/
theorem freezeLate_freezes (s : State) (u l g : Nat) : ∃ t, freezeLate s u l g = freezeReleaseRun t u l ∧ LoopFrom u l s t ∧
    (stream t u l).agc = { (stream s u l).agc with frozen := true, frozenG := g, lateFreeze := false } ∧
    regBit t (agcReg u l 0x18) 26 = true := by
  refine ⟨_, rfl, ?_, ?_, regBit_regOr_same _ _ (by decide)⟩
  · exact (loopFrom_modAgc s u l _).trans ((loopFrom_modStream _ u l _).trans (loopFrom_regOr _ u l _))
  · rw [stream_regOr, stream_modStream_same, stream_modAgc_same]
    rfl

/-- What a frozen loop keeps whether or not it is released at once. -/
theorem agc_freezeReleaseRun {s : State} {u l : Nat} (h : (stream s u l).agc.frozen = true) :
    (stream (freezeReleaseRun s u l) u l).agc.lateFreeze = (stream s u l).agc.lateFreeze ∧
    (stream (freezeReleaseRun s u l) u l).agc.frozenG = (stream s u l).agc.frozenG ∧
    (stream (freezeReleaseRun s u l) u l).agc.gDone = (stream s u l).agc.gDone ∧
    (stream (freezeReleaseRun s u l) u l).agc.blank = (stream s u l).agc.blank := by
  have hsame := sameFreeze_releaseFreeze h
  rcases freezeReleaseRun_cases s u l with hrun | hrun <;> rw [hrun]
  · exact ⟨rfl, rfl, rfl, rfl⟩
  · exact ⟨hsame.lateFreeze, hsame.frozenG, hsame.gDone, hsame.blank⟩

section
variable (s : State) (u l g : Nat)

theorem loopFrom_freezeLate : LoopFrom u l s (freezeLate s u l g) := by
  obtain ⟨t, hrun, hloop, -, -⟩ := freezeLate_freezes s u l g
  exact hrun ▸ hloop.trans (loopFrom_freezeReleaseRun t u l)

theorem regBit_freezeLate : regBit (freezeLate s u l g) (agcReg u l 0x18) 26 = true := by
  obtain ⟨t, hrun, -, -, hbit⟩ := freezeLate_freezes s u l g
  exact hrun ▸ (loopFrom_freezeReleaseRun t u l).sticky 26 hbit

theorem agc_freezeLate : (stream (freezeLate s u l g) u l).agc.lateFreeze = false ∧ (stream (freezeLate s u l g) u l).agc.frozenG = g ∧
    (stream (freezeLate s u l g) u l).agc.gDone = (stream s u l).agc.gDone ∧
    (stream (freezeLate s u l g) u l).agc.blank = (stream s u l).agc.blank := by
  obtain ⟨t, hrun, -, hagc, -⟩ := freezeLate_freezes s u l g
  have hkept := agc_freezeReleaseRun (s := t) (u := u) (l := l) (by rw [hagc])
  rw [hagc] at hkept
  rw [hrun]
  exact hkept

variable {s u l}

theorem freezeLate_frozen (h : (stream s u l).agc.release = none) : (stream (freezeLate s u l g) u l).agc.frozen = true := by
  obtain ⟨t, hrun, -, hagc, -⟩ := freezeLate_freezes s u l g
  have hrelease : (stream t u l).agc.release = none := by rw [hagc]; exact h
  rw [hrun, freezeReleaseRun_early (by simp [hrelease]), hagc]

/-- A release that came while the freeze waited follows it at once. -/
theorem freezeLate_released (h : (stream s u l).agc.release = some 0) :
    (stream (freezeLate s u l g) u l).agc.frozen = false ∧ (stream (freezeLate s u l g) u l).agc.release = none := by
  obtain ⟨t, hrun, -, hagc, -⟩ := freezeLate_freezes s u l g
  have hrelease : (stream t u l).agc.release = some 0 := by rw [hagc]; exact h
  have hsame := sameFreeze_releaseFreeze (s := t) (u := u) (l := l) (by rw [hagc])
  rw [hrun, freezeReleaseRun_due hrelease (Nat.zero_le _)]
  exact ⟨hsame.frozen, hsame.release⟩

end

/-! ### The frame's G held by the transceiver -/

section
variable (s : State) (u l g : Nat)

theorem stream_frameHeld : stream (frameHeld s u l g) u l = { stream s u l with
    agc := (stream s u l).agc.held g ((stream s u l).samples + regField s (agcReg u l 0x14) 31 20) } := by
  rw [frameHeld, stream_modAgc_same, stream_frameCounted]

theorem stream_frameHeld_ne {k : Nat} (h : l ≠ k) : stream (frameHeld s u l g) u k = stream s u k := by
  rw [frameHeld, (loopFrom_modAgc _ u l _).others k h, stream_frameCounted]

theorem gcpCur_frameHeld : (rxu (frameHeld s u l g) u).gcpCur = none := by
  rw [frameHeld, (loopFrom_modAgc _ u l _).unit, rxu_frameCounted]

theorem frameHeld_frame : frameHeld s u l g = { s with rxus := (frameHeld s u l g).rxus, regs := (frameHeld s u l g).regs } := by
  rw [frameHeld, (loopFrom_modAgc _ u l _).frame, frameCounted_frame]

variable {s u l g} (hl : l < 8) (h : (rxu s u).gcpCur = some (l, g))
include hl h

theorem loopFrom_gainDoneRun : LoopFrom u l (frameHeld s u l g) (gainDoneRun s u) := by
  rw [gainDoneRun_holds hl h]
  split
  · exact loopFrom_freezeLate _ u l g
  · exact .refl u l _

theorem gainDoneRun_plain (hlate : (stream s u l).agc.lateFreeze = false) : gainDoneRun s u = frameHeld s u l g := by
  rw [gainDoneRun_holds hl h, hlate, if_neg Bool.false_ne_true]

theorem gainDoneRun_late (hlate : (stream s u l).agc.lateFreeze = true) : gainDoneRun s u = freezeLate (frameHeld s u l g) u l g := by
  rw [gainDoneRun_holds hl h, if_pos hlate]

theorem gainDoneRun_frame : gainDoneRun s u = { s with rxus := (gainDoneRun s u).rxus, regs := (gainDoneRun s u).regs } := by
  rw [(loopFrom_gainDoneRun hl h).frame, frameHeld_frame]

/-- The transceiver holds the frame's G, the stream is blanked, and no freeze waits any longer. -/
theorem agc_gainDoneRun : (stream (gainDoneRun s u) u l).agc.gDone = g ∧
    (stream (gainDoneRun s u) u l).agc.blank = some ((stream s u l).samples + regField s (agcReg u l 0x14) 31 20) ∧
    (stream (gainDoneRun s u) u l).agc.lateFreeze = false := by
  cases hlate : (stream s u l).agc.lateFreeze with
  | false =>
    rw [gainDoneRun_plain hl h hlate, stream_frameHeld]
    exact ⟨rfl, rfl, hlate⟩
  | true =>
    obtain ⟨hover, -, hdone, hblank⟩ := agc_freezeLate (frameHeld s u l g) u l g
    rw [stream_frameHeld] at hdone hblank
    rw [gainDoneRun_late hl h hlate]
    exact ⟨hdone, hblank, hover⟩

theorem regGet_gainDoneRun_frames : regGet (gainDoneRun s u) (rxuReg u 0x3004) = regGet s (rxuReg u 0x3004) + 1 :=
  ((loopFrom_gainDoneRun hl h).regs _ (agcReg_ne_frames u hl (by decide)).symm).trans (regGet_frameCounted s u)

end

/-! ## From the run function of an event to the statement's form -/

section
variable {i : Instr} {s v : State} {f : State → State} {u l : Nat}

/-- An event of the flows that waits for no host access ends as its run function says. -/
theorem exec_of_run (hexec : exec i s = flows s f) (hs : s.flowing) (hrun : f s = v) (w : v.hostWait = false) :
    exec i s = .next (finish s v) := by
  subst hrun
  rw [hexec, flows_next hs w]

theorem stream_withHif (s : State) (h : Hif) (u l : Nat) : stream { s with hif := h } u l = stream s u l := rfl

theorem rxu_withHif (s : State) (h : Hif) (u : Nat) : rxu { s with hif := h } u = rxu s u := rfl

/-- An event of the receiver units answers what its run function gives where that reaches units and registers alone. -/
theorem answers_of_units {p : State → Prop} (hexec : exec i s = flows s f) (hs : s.flowing) (hrun : f s = v)
    (hframe : v = { s with rxus := v.rxus, regs := v.regs })
    (hp : ∀ h, { v with hif := h } = { s with rxus := v.rxus, regs := v.regs, hif := h } → p { v with hif := h }) : Answers i s p := by
  refine answers_of_run hexec hs hrun (by rw [hframe]; exact hs.1) fun h => hp h ?_
  exact congrArg (fun t : State => { t with hif := h }) hframe

end

theorem modStream_congr {s : State} {u l : Nat} {f g : Stream → Stream} (h : f (stream s u l) = g (stream s u l)) :
    modStream s u l f = modStream s u l g := by
  simp [modStream, h]

/-- Settles O56, event by event: each is an equation of its run function, and what the loop of another stream and the rest of the device
keep is what `LoopFrom` says. -/
theorem gainControl : Obligations.GainControl := by
  unfold Obligations.GainControl
  refine ⟨fun s u l hs => ⟨fun hnone => ?noWindow, fun p c rest hwins hcls => ?window, fun hnone => ?noDetection,
    fun ix rest hfound hcls => ?search, fun ix rest x m hfound hcls htasks hstart hstop hm hroom => ?track, fun i hi => ?release,
    fun hearly => ?early, fun hearly => ?holds, fun b hb => ⟨fun hdue => ?settled, fun hearly => ?settles⟩,
    fun g hon hcur hnext hpend => ?start, fun hrest => ?noStart, fun g hcur => ?frameDone, fun hcur => ?noFrame⟩,
    fun a p c lo hi hlo hhi hle => ?step⟩
  case noWindow => exact exec_of_run_self (exec_agcWindowEnd u l s) hs (agcWindowEnd_none hnone)
  case window =>
    refine answers_of_units (exec_agcWindowEnd u l s) hs rfl (loopFrom_agcWindowEnd hwins).frame fun h hframe => ?_
    rw [stream_withHif, stream_agcWindowEnd hwins hcls]
    exact ⟨rfl, rfl, rfl, rfl, rfl, fun hclip => regBit_agcWindowEnd hwins hclip, rfl, hframe⟩
  case noDetection => exact exec_of_run_self (exec_preambleDetection u l s) hs (preambleRun_none hnone)
  case search =>
    refine answers_of_run (exec_preambleDetection u l s) hs (preambleRun_search hfound hcls) hs.1 fun h => ?_
    rw [stream_withHif, stream_modStream_same, noteMsg_agc, noteMsg_samples]
    refine ⟨Agc.detected_found rest ix _, rfl, rfl, fun hlate => Agc.detected_late rest ix hlate _, fun hlate => ?_⟩
    cases hport : onPort s u.val l.val with
    | false =>
      have hnot : ¬∃ g, (rxu s u.val).gcpCur = some (l.val, g) := by rw [← onPort_iff, hport]; decide
      rw [Agc.detected_freezes rest ix hlate]
      exact ⟨rfl, rfl, rfl, rfl, fun hg => absurd hg hnot, fun _ => ⟨rfl, rfl, hlate⟩⟩
    | true =>
      obtain ⟨g, hg⟩ := onPort_iff.mp hport
      rw [Agc.detected_waits rest ix hlate]
      exact ⟨rfl, rfl, rfl, rfl, fun _ => ⟨rfl, rfl⟩, fun hnot => absurd hg (hnot g)⟩
  case track =>
    subst hm
    refine exec_of_run (exec_preambleDetection u l s) hs ((preambleRun_tracks hfound hcls).trans (modStream_congr ?_)) hs.1
    exact noteMsg_only (y := { stream s u.val l.val with agc := { (stream s u.val l.val).agc with found := rest } }) htasks hstart hstop hroom
  case release =>
    obtain ⟨f, hexec, hrun⟩ : ∃ f, exec i s = flows s f ∧ f s = releaseFreeze s u.val l.val := by
      rcases hi with ⟨rfl, r, hr, hdue⟩ | ⟨rfl, hn, hdue⟩
      · exact ⟨_, exec_freezeRelease u l s, freezeReleaseRun_due hr hdue⟩
      · exact ⟨_, exec_maxHoldExpiry u l s, maxHoldRun_due hn hdue⟩
    refine ⟨fun hfrozen hcls => ?_, fun hfrozen hlate => exec_of_run_self hexec hs (hrun.trans (releaseFreeze_searching hfrozen hlate)),
      fun hfrozen hlate => exec_of_run hexec hs (hrun.trans (releaseFreeze_late hfrozen hlate)) hs.1⟩
    refine answers_of_run hexec hs (hrun.trans (releaseFreeze_loop hfrozen hcls)) hs.1 fun h => ?_
    rw [stream_withHif, stream_modAgc_same, stream_modAgc_same]
    exact ⟨rfl, rfl, rfl, rfl, rfl, rfl, rfl⟩
  case early => exact exec_of_run_self (exec_freezeRelease u l s) hs (freezeReleaseRun_early hearly)
  case holds => exact exec_of_run_self (exec_maxHoldExpiry u l s) hs (maxHoldRun_early hearly)
  case settled => exact exec_of_run (exec_settleExpiry u l s) hs (settleRun_due hb hdue) hs.1
  case settles => exact exec_of_run_self (exec_settleExpiry u l s) hs (settleRun_early hb hearly)
  case start =>
    obtain ⟨streams, hrxu⟩ := rxu_frameSent s u.val l.val g
    refine answers_of_run (exec_gainFrameStart u s) hs (gainStartRun_sends hon hcur hnext hpend) hs.1 fun h => ?_
    rw [rxu_withHif, hrxu, stream_withHif, stream_frameSent, stream_modAgc_same]
    exact ⟨rfl, rfl, rfl, rfl, rfl,
      fun k hk => (stream_frameSent s u.val l.val g k).trans ((loopFrom_modAgc s u.val l.val _).others k hk), rfl⟩
  case noStart => exact exec_of_run_self (exec_gainFrameStart u s) hs (gainStartRun_rests hrest)
  case frameDone =>
    have hloop := loopFrom_gainDoneRun l.isLt hcur
    obtain ⟨hdone, hblank, hover⟩ := agc_gainDoneRun l.isLt hcur
    refine answers_of_units (exec_gainFrameDone u s) hs rfl (gainDoneRun_frame l.isLt hcur) fun h hframe => ?_
    rw [rxu_withHif, stream_withHif]
    refine ⟨?_, hdone, hblank, hover, fun hlate => ?_, fun hlate => ?_, regGet_gainDoneRun_frames l.isLt hcur,
      fun k hk => (hloop.others k hk).trans (stream_frameHeld_ne s u.val l.val g hk), hframe⟩
    · rw [hloop.unit, gcpCur_frameHeld]
    · rw [gainDoneRun_plain l.isLt hcur hlate, stream_frameHeld]
      exact ⟨rfl, rfl⟩
    · have hheld := congrArg (·.agc.release) (stream_frameHeld s u.val l.val g)
      obtain ⟨-, hfrozenG, -, -⟩ := agc_freezeLate (frameHeld s u.val l.val g) u.val l.val g
      rw [gainDoneRun_late l.isLt hcur hlate]
      exact ⟨hfrozenG, regBit_freezeLate (frameHeld s u.val l.val g) u.val l.val g,
        fun hnone => freezeLate_frozen g (hheld.trans hnone), fun hzero => freezeLate_released g (hheld.trans hzero)⟩
  case noFrame => exact exec_of_run_self (exec_gainFrameDone u s) hs (gainDoneRun_none hcur)
  case step =>
    subst hlo hhi
    obtain ⟨hmin, hmax⟩ := Agc.step_mem (a := a) (p := p) (c := c) hle
    refine ⟨hmin, hmax, fun hclip => ⟨?_, Agc.step_steady hclip, Agc.step_lowers hclip, Agc.step_raises hclip⟩, fun hthr hclip => ?_⟩
    · rw [Agc.step_unclipped hclip]
    · rw [Agc.step_clipped hthr hclip]
      exact ⟨rfl, fun hg => by omega⟩

end Sys2Proof.Machine
end

section
/-! The proof of the family `09_vector_and_matrix.md`: how MATRIX and VECTOR join their engine, and the work units that the engines run (O40). -/

namespace Sys2Proof.Machine

/-! ## MATRIX and VECTOR (R200, R233, R367) -/

theorem exec_engineCommand {e : Nat} {i : Instr} {src : Src} (hi : e = 0 ∧ i = .matrix src ∨ e = 1 ∧ i = .vector src) (s : State) :
    exec i s = flows s fun s => dispatch s src (6 + e) (engineRun e) := by
  rcases hi with ⟨rfl, rfl⟩ | ⟨rfl, rfl⟩
  · rfl
  · rfl

section
variable {t : State} {c : Cmd} (e : Nat)

theorem engineRun_eq : engineRun e t c =
    if !ownUnit t c then complete t c.uid .format else joinEngine t (leAt c.slot 0x18 1) e { uid := some c.uid, q := cmdQueue t c } := by
  unfold engineRun ownUnit
  cases c.src with
  | queue q => rfl
  | ticket u l n => rfl

theorem engineRun_refused (h : ownUnit t c = false) : engineRun e t c = complete t c.uid .format := by simp [engineRun_eq, h]

theorem engineRun_joins (h : ownUnit t c = true) :
    engineRun e t c = joinEngine t (leAt c.slot 0x18 1) e { uid := some c.uid, q := cmdQueue t c } := by
  simp [engineRun_eq, h]

end

/-! ## What the bookkeeping of a work unit leaves (R202, R247) -/

/-- The work stays: the operations of a unit's engines, memory, the outstanding commands, and whether an access to the host waits. -/
structure WorkStays (u : Nat) (s t : State) : Prop where
  eng : (rxu t u).eng = (rxu s u).eng
  mem : t.mem = s.mem
  cmds : t.cmds = s.cmds
  wait : t.hostWait = s.hostWait

theorem workStays_askTokens (u : Nat) (s : State) (owner : Nat) (recv : Bool) (n : Nat) : WorkStays u s (askTokens s owner recv n).1 := by
  rw [askTokens_frame]
  exact ⟨rfl, rfl, rfl, rfl⟩

/-- The count of operand bytes reaches the engine's remainder, registers and the queue's progress. -/
theorem workStays_countBytes (s : State) (u e q n : Nat) : WorkStays u s (countBytes s u e q n).1 := by
  obtain ⟨queues, regs, hunits⟩ := unitsDone_frame (regAdd (engineUnits s u e n).1 (rxuReg u (engineBase e + 4)) (engineUnits s u e n).2)
    q (engineUnits s u e n).2
  have hcount : (countBytes s u e q n).1 = { (engineUnits s u e n).1 with queues := queues, regs := regs } := by
    rw [countBytes, hunits, regAdd_frame]
  have heng : (rxu (engineUnits s u e n).1 u).eng = (rxu s u).eng := by simp [engineUnits]
  rw [hcount]
  exact ⟨heng, rfl, rfl, rfl⟩

theorem rxu_dropTokens (s : State) (owner u : Nat) : rxu (dropTokens s owner) u = rxu s u := by
  rw [dropTokens_frame]
  rfl

/-- The end of a work unit: the operation's place is taken by `new` or given up, the engine's turn is `t`, and the unit's tokens return. -/
def unitOver (s : State) (u e : Nat) (j : EngJob) (new : Option EngJob) (t : Turn) : State :=
  dropTokens (modRxu (putJob s u e j new) u fun x => { x with engTurn := sset x.engTurn e t }) (ownEngine u e)

section
variable (s : State) (u e : Nat) (j : EngJob) (new : Option EngJob) (t : Turn)

theorem unitOver_frame : ∃ rxus pwr, unitOver s u e j new t = { s with rxus := rxus, pwr := pwr } := ⟨_, _, dropTokens_frame _ _⟩

theorem eng_unitOver :
    sget [] (rxu (unitOver s u e j new t) u).eng e = (sget [] (rxu s u).eng e).filterMap fun k => if k == j then new else some k := by
  rw [unitOver, rxu_dropTokens, rxu_modRxu_same, putJob, rxu_modRxu_same, sget_sset_same]

theorem leaveEngine_eq : leaveEngine s u e j t = unitOver s u e j none t := rfl

end

/-! ## A work unit of an operation that has begun (R202, R270) -/

section
variable {s : State} {j : EngJob} (u e : Nat) (c : Cmd) (t : Turn) (l : List EngJob)

theorem operationUnit_retiring (hq : (queue s j.q).st = .retiring) : operationUnit s u e j c t l =
    leaveEngine (countBytes s u e j.q 65536).1 u e j (chargeTurn s t j (countBytes s u e j.q 65536).2) := by
  simp only [operationUnit, hq, if_true]

section
variable (hq : (queue s j.q).st ≠ .retiring) {k : Nat} (hleft : j.left = some k)
include hq hleft

theorem operationUnit_last (hk : k ≤ 1) : operationUnit s u e j c t l =
    leaveEngine (operationEnd s u e j c).1 u e j (closeTurn s (chargeTurn s t j (operationEnd s u e j c).2) j l) := by
  simp only [operationUnit, hq, hleft, Option.getD_some, hk, if_false, if_true]

theorem operationUnit_goesOn (hk : 1 < k) : ∃ t', operationUnit s u e j c t l =
    unitOver (countBytes s u e j.q 65536).1 u e j (some { j with left := some (k - 1), pos := j.pos + 65536 }) t' := by
  simp only [operationUnit, hq, hleft, Option.getD_some, hk.not_ge, if_false]
  exact ⟨_, rfl⟩

end

end

/-! ## ENGINE_OP_DONE, case by case (R200, R202, R247) -/

theorem exec_engineOpDone (u : UIx) (e : Engine) (s : State) :
    exec (.engineOpDone u e) s = flows s fun s => engineDoneRun s u.val (engineIx e) := rfl

/-- An engine without operations has nothing to run. -/
theorem engineDoneRun_rests {s : State} {u e : Nat} (h : sget [] (rxu s u).eng e = []) : engineDoneRun s u e = s := by
  simp [engineDoneRun, h, nextOp, pickTurn_nil]

section
variable {s s1 : State} {u : UIx} {e : Engine} {j : EngJob} (h : nextUnit s s1 u e j)
include h

theorem workStays_nextUnit : WorkStays u.val s s1 := by
  obtain ⟨-, -, hask⟩ := h
  have hstays := workStays_askTokens u.val s (ownEngine u.val (engineIx e)) (taskJob s j) (engineCost (engineIx e))
  rwa [hask] at hstays

/-- A job of the FFT unit or the trellis decoder is one unit, and one that waits for its samples stays (R189, R200). -/
theorem engineDoneRun_job {s2 : State} {ended : Bool}
    (hrun : e = .fft ∧ fftDone s1 u.val j = (s2, ended) ∨ e = .trellis ∧ trellisDone s1 u.val j = (s2, ended)) :
    engineDoneRun s u.val (engineIx e) =
      if ended then leaveEngine s2 u.val (engineIx e) j (sget ({} : Turn) (rxu s u.val).engTurn (engineIx e)) else s := by
  obtain ⟨⟨-, hserved⟩, hnext, hask⟩ := h
  rcases hrun with ⟨rfl, hrun⟩ | ⟨rfl, hrun⟩
  · simp only [engineIx] at hnext hask ⊢
    simp [engineDoneRun, hserved, hnext, hask, hrun]
  · simp only [engineIx] at hnext hask ⊢
    simp [engineDoneRun, hserved, hnext, hask, hrun]

section
variable {c : Cmd} (he : engineIx e < 2) (hc : j.uid.bind (findCmd s) = some c)
include he hc

/-- The engine goes on with the operation it has begun. -/
theorem engineDoneRun_begun (hleft : j.left.isSome = true) : engineDoneRun s u.val (engineIx e) =
    operationUnit s1 u.val (engineIx e) j c (sget ({} : Turn) (rxu s u.val).engTurn (engineIx e)) (sget [] (rxu s u.val).eng (engineIx e)) := by
  obtain ⟨⟨-, hserved⟩, hnext, hask⟩ := h
  simp [engineDoneRun, hserved, hnext, hask, hc, hleft, he.not_ge]

theorem engineDoneRun_refused {v : State} (hleft : j.left = none) (hbegin : operationBegin s1 u.val (engineIx e) j c = (v, none)) :
    engineDoneRun s u.val (engineIx e) = leaveEngine v u.val (engineIx e) j (sget ({} : Turn) (rxu s u.val).engTurn (engineIx e)) := by
  obtain ⟨⟨-, hserved⟩, hnext, hask⟩ := h
  simp [engineDoneRun, hserved, hnext, hask, hc, hleft, hbegin, he.not_ge]

/-- An operation that begins runs its first unit at once. -/
theorem engineDoneRun_begins {v : State} {b : EngJob} (hleft : j.left = none)
    (hbegin : operationBegin s1 u.val (engineIx e) j c = (v, some b)) : engineDoneRun s u.val (engineIx e) =
    operationUnit (putJob v u.val (engineIx e) j (some b)) u.val (engineIx e) b c
      (sget ({} : Turn) (rxu s u.val).engTurn (engineIx e)) (sget [] (rxu s u.val).eng (engineIx e)) := by
  obtain ⟨⟨-, hserved⟩, hnext, hask⟩ := h
  simp [engineDoneRun, hserved, hnext, hask, hc, hleft, hbegin, he.not_ge]

end

end

/-! ## From the engine's run function to the statement's form -/

section
variable {s v : State} {u : UIx} {e : Engine} {j : EngJob}

theorem leaves_leaveEngine (t : Turn) (h : Hif) : leaves v { leaveEngine v u.val (engineIx e) j t with hif := h } u e j := by
  have heng := eng_unitOver v u.val (engineIx e) j none t
  obtain ⟨rxus, pwr, hframe⟩ := unitOver_frame v u.val (engineIx e) j none t
  rw [leaveEngine_eq]
  refine ⟨?_, by rw [hframe], by rw [hframe]⟩
  rw [rxu_withHif, heng, ← List.filterMap_eq_filter]
  congr 1
  funext k
  cases hk : k == j <;> simp [Option.guard, hk]

/-- What leaves a state that has kept the work leaves the state before it. -/
theorem leaves_of_workStays {t : State} (hstays : WorkStays u.val s v) (hleaves : leaves v t u e j) : leaves s t u e j := by
  obtain ⟨heng, hmem, hcmds⟩ := hleaves
  exact ⟨hstays.eng ▸ heng, hmem.trans hstays.mem, hcmds.trans hstays.cmds⟩

theorem engineOpDone_leaves {t : Turn} (hs : s.flowing)
    (hrun : engineDoneRun s u.val (engineIx e) = leaveEngine v u.val (engineIx e) j t) (w : v.hostWait = false) :
    Answers (.engineOpDone u e) s fun t => leaves v t u e j := by
  obtain ⟨rxus, pwr, hframe⟩ := unitOver_frame v u.val (engineIx e) j none t
  exact answers_of_run (exec_engineOpDone u e s) hs hrun ((congrArg State.hostWait hframe).trans w) (leaves_leaveEngine t)

/-- An operation with work units left keeps its place, and nothing is written. -/
theorem engineOpDone_goesOn {s1 : State} {new : EngJob} {t : Turn} (hs : s.flowing) (hstays : WorkStays u.val s1 v)
    (hrun : engineDoneRun s u.val (engineIx e) = unitOver v u.val (engineIx e) j (some new) t) (w : s1.hostWait = false) :
    Answers (.engineOpDone u e) s fun t =>
      sget [] (rxu t u.val).eng (engineIx e) = (sget [] (rxu s1 u.val).eng (engineIx e)).map (fun x => if x == j then new else x) ∧
      t.mem = s1.mem ∧ t.cmds = s1.cmds := by
  have heng := eng_unitOver v u.val (engineIx e) j (some new) t
  obtain ⟨rxus, pwr, hframe⟩ := unitOver_frame v u.val (engineIx e) j (some new) t
  refine answers_of_run (exec_engineOpDone u e s) hs hrun (by rw [hframe]; exact hstays.wait.trans w) fun h =>
    ⟨?_, by rw [hframe]; exact hstays.mem, by rw [hframe]; exact hstays.cmds⟩
  rw [rxu_withHif, heng, hstays.eng, ← List.filterMap_eq_map]
  congr 1
  funext k
  exact (apply_ite some _ _ _).symm

end

/-- Settles O40: the commands by the equation of their run function; the engine's event by where its next operation stands, each outcome an
equation of the engine's run that leaves the operation in its place or takes it out. -/
theorem engineCommands : Obligations.EngineCommands := by
  unfold Obligations.EngineCommands
  refine ⟨fun s t src c e i hi ⟨hs, htake, hfree⟩ => ?command, fun s s1 u e j c h he hc => ⟨fun hleft => ?starts, fun k hleft hq => ?runs,
    fun hleft hq w => ?destroyed⟩, fun s s1 s2 u e j ended h hj hrun => ?job, fun s u e hs hnone => ?rests⟩
  case command =>
    have hexec := exec_engineCommand hi s
    have hrun := dispatch_of_take htake hfree (engineRun e)
    exact ⟨fun hown hnew => becomes_of_run hexec hs (by rw [hrun, engineRun_joins e hown, joinEngine_new hnew]),
      fun hother => becomes_of_run hexec hs (by rw [hrun, engineRun_refused e hother])⟩
  case starts =>
    refine ⟨fun v hbegin w => engineOpDone_leaves h.1 (engineDoneRun_refused h he hc hleft hbegin) w, fun v w b n hbegin hone hq hend hw => ?_⟩
    have hrun := (engineDoneRun_begins h he hc hleft hbegin).trans (operationUnit_last u.val (engineIx e) c _ _ hq hone le_rfl)
    rw [hend] at hrun
    exact engineOpDone_leaves h.1 hrun hw
  case runs =>
    have hbegun := engineDoneRun_begun h he hc (by rw [hleft]; rfl)
    have hstays := workStays_nextUnit h
    refine ⟨fun hk w => ?_, fun w n hk hend hw => ?_⟩
    · rw [← hstays.mem, ← hstays.cmds]
      obtain ⟨t, hunit⟩ := operationUnit_goesOn u.val (engineIx e) c _ _ hq hleft hk
      exact engineOpDone_goesOn h.1 (workStays_countBytes s1 u.val (engineIx e) j.q 65536) (hbegun.trans hunit) w
    · have hrun := hbegun.trans (operationUnit_last u.val (engineIx e) c _ _ hq hleft hk)
      rw [hend] at hrun
      exact engineOpDone_leaves h.1 hrun hw
  case destroyed =>
    have hrun := (engineDoneRun_begun h he hc hleft).trans (operationUnit_retiring u.val (engineIx e) c _ _ hq)
    have hstays := workStays_countBytes s1 u.val (engineIx e) j.q 65536
    obtain ⟨v, hexec, hleaves⟩ := engineOpDone_leaves h.1 hrun (hstays.wait.trans w)
    exact ⟨v, hexec, leaves_of_workStays hstays hleaves⟩
  case job =>
    have hdone := engineDoneRun_job h hrun
    refine ⟨fun hended w => engineOpDone_leaves h.1 (hdone.trans (if_pos hended)) w, fun hwaits => ?_⟩
    exact exec_of_run_self (exec_engineOpDone u e s) h.1 (hdone.trans (by rw [hwaits]; rfl))
  case rests => exact exec_of_run_self (exec_engineOpDone u e s) hs (engineDoneRun_rests hnone)

end Sys2Proof.Machine
end

section
/-! The proofs of the family `10_queues.md`: doorbells and visits (O8), the control writes of a queue's registers (O9), the completion of a NOP
(O32), PATCH (O35), and INDIRECT with ENQUEUE (O42). -/

namespace Sys2Proof.Machine

theorem queue_withHif (s : State) (h : Hif) (q : Nat) : queue { s with hif := h } q = queue s q := rfl

/-! ## DB_PI_WRITE (R229) -/

theorem exec_dbPiWrite (q : QIx) (v : Word) (s : State) : exec (.dbPiWrite q v) s = flows s fun s => dbPiRun s q.val v := rfl

theorem regOr_of_ne_zero {m : Nat} (s : State) (o : Nat) (h : m ≠ 0) : regOr s o m = regSet s o (regGet s o ||| BitVec.ofNat 32 m) := if_neg h

theorem bound_iff {s : State} {q : Nat} : bound s q = true ↔ (queue s q).st ≠ .free ∧ (queue s q).st ≠ .retiring := by simp [bound]

theorem piAccepted_iff {s : State} {q : Nat} {v : Word} : piAccepted s q v = true ↔
    (v - (queue s q).ci).toNat ≤ ringSlots s q ∧ (v - (queue s q).pi).toNat ≤ ringSlots s q := by simp [piAccepted]

/-- The doorbell of a bound queue sets PI, or is refused with DB_BAD. -/
theorem dbPiRun_bound {s : State} {q : Nat} (hs : served s = true) (hb : bound s q = true) (v : Word) :
    dbPiRun s q v = if piAccepted s q v then setPi s q v else regOr s (qfeReg q 4) 1 := by
  obtain ⟨hfree, hretiring⟩ := bound_iff.mp hb
  simp [dbPiRun, hs, hfree, hretiring]

/-! ## The queue that the front end visits next (R247, R250) -/

theorem nextAfter_nil (last : Option Nat) : nextAfter last [] = none := by cases last <;> rfl

/-- The next queue in turn is one of those that ask for it. -/
theorem mem_of_nextAfter {last : Option Nat} {qs : List Nat} {q : Nat} (h : nextAfter last qs = some q) : q ∈ qs := by
  cases last with
  | none => exact List.min?_mem h
  | some l =>
    simp only [nextAfter] at h
    split at h
    next p hp =>
      cases h
      exact (List.mem_filter.mp (List.min?_mem hp)).1
    next => exact List.min?_mem h

theorem nextVisit_none {s : State} (h : visitable s = []) : nextVisit s = none := by simp [nextVisit, h, nextAfter_nil]

/-- While a kernel queue may be visited, the next visit goes to one. -/
theorem nextVisit_kernel {s : State} {k q : Nat} (hk : k ∈ visitable s) (hk64 : k < 64) (h : nextVisit s = some q) : q < 64 := by
  have hmem : k ∈ (visitable s).filter (· < 64) := List.mem_filter.mpr ⟨hk, decide_eq_true hk64⟩
  have hne : ((visitable s).filter (· < 64)).isEmpty = false := List.isEmpty_eq_false_iff.mpr (List.ne_nil_of_mem hmem)
  simp only [nextVisit, hne] at h
  exact of_decide_eq_true (List.mem_filter.mp (mem_of_nextAfter h)).2

/-! ## A visit that finds nothing (R231, R236, Table 10-5) -/

/-- A queue with nothing left: no index to fetch, no slot to dispatch, no begun buffer. -/
structure Emptied (k : Queue) : Prop where
  st : k.st = .active
  index : k.pi = k.ci
  window : k.window = []
  indirects : k.indirects = []

section
variable {s : State} {q : Nat} (h : Emptied (queue s q))
include h

theorem nextFetch_emptied : nextFetch s q = none := by
  obtain ⟨hst, hindex, hwindow, hindirects⟩ := h
  simp [nextFetch, sendingInd, hst, hindex, hwindow, hindirects]

theorem fetchSome_emptied (n : Nat) : fetchSome n s q = s := by
  cases n with
  | zero => rfl
  | succ n => simp [fetchSome, h.window, nextFetch_emptied h]

/-- The idle sequence of an emptied queue publishes IDLE, and its re-read of PI finds nothing new. -/
theorem idleSequence_emptied : queue (idleSequence s q) q = { queue s q with pend := false, st := .idle } ∧
    (∀ r, q ≠ r → queue (idleSequence s q) r = queue s r) ∧ ∃ queues, idleSequence s q = { s with queues := queues } := by
  have hrun : idleSequence s q = recheck (modQueue s q fun k => { k with pend := false, st := .idle }) q := by
    simp [idleSequence, drained, h.st, h.index, h.window]
  rw [hrun, recheck]
  refine ⟨?_, fun r hr => ?_, _, rfl⟩
  · simp [h.index]
  · simp [hr]

end

/-- A visit to an emptied COMMAND queue leaves it IDLE. -/
theorem visitQueue_emptied {s : State} {q : QIx} (hrec : isRecord s q.val = false) (h : Emptied (queue s q.val)) :
    queue (visitQueue s q) q.val = { queue s q.val with pend := false, st := .idle } ∧
    (∀ r, q.val ≠ r → queue (visitQueue s q) r = queue s r) ∧ ∃ queues, visitQueue s q = { s with queues := queues } := by
  set s1 := modQueue s q.val fun k => if k.st = .idle then { k with st := .active } else k with hs1
  have hsame : queue s1 q.val = queue s q.val := by simp [hs1, h.st]
  have h1 : Emptied (queue s1 q.val) := hsame ▸ h
  have hrun : visitQueue s q = idleSequence s1 q.val := by
    have hrec1 : isRecord s1 q.val = false := hrec
    have hflush : flushRefused 20 s1 q = s1 := behind_of_window_nil h1.window
    unfold visitQueue
    simp only [← hs1, hrec1, fetchSome_emptied h1, hflush]
    rfl
  obtain ⟨hq, hothers, queues, hframe⟩ := idleSequence_emptied h1
  rw [hrun]
  exact ⟨hsame ▸ hq, fun r hr => (hothers r hr).trans (queue_modQueue_ne s _ r _ hr), queues, hframe⟩

/-! ## QUEUE_VISIT -/

theorem exec_queueVisit (s : State) : exec .queueVisit s = flows s fun s => utrPump (queueVisitRun s) := rfl

theorem creditReady_without_ports {s : State} (h : s.utr.ports = []) (p vc : Nat) : creditReady s p vc = false := by
  simp [creditReady, canSend, uport, h, sget]

theorem peerReady_without_ports {s : State} (h : s.utr.ports = []) (k : Nat) : peerReady s k = false := by
  simp only [peerReady, creditReady_without_ports h]
  split <;> simp

/-- A peer that nothing can reach now takes no block. -/
theorem forwardBlocks_unready {s : State} {k : Nat} (h : peerReady s k = false) (n : Nat) : forwardBlocks n s k = s := by
  cases n with
  | zero => rfl
  | succ n =>
    simp only [forwardBlocks, h]
    split <;> rfl

/-- A peer that nothing can reach now takes neither block nor word. -/
theorem forwardPeer_unready {s : State} {k : Nat} (h : peerReady s k = false) : forwardPeer s k = s := by
  simp only [forwardPeer, forwardBlocks_unready h, h]
  split <;> rfl

/-- With no port and no ring queue nothing on the ring can move: a message for a peer's host waits for a port. -/
theorem utrPump_without_ring {s : State} (hports : s.utr.ports = []) (hrqs : s.utr.rqs = []) : utrPump s = s := by
  have hforward : forwardPeers s = s :=
    List.foldl_fixed' (fun k => by rw [forwardPeer_unready (peerReady_without_ports hports k), ite_self]) _
  simp [utrPump, hports, hrqs, hforward]

theorem queueVisitRun_none {s : State} (h : nextVisit s = none) : queueVisitRun s = s := by simp [queueVisitRun, h]

theorem queueVisitRun_visits {s : State} {q : QIx} (h : nextVisit s = some q.val) (hw : (visitQueue s q).hostWait = false) :
    queueVisitRun s = visited (visitQueue s q) q.val := by
  simp [queueVisitRun, h, hw]

/-- What the visit to an emptied COMMAND queue leaves. -/
theorem queueVisit_idles {s : State} {q : QIx} (hs : s.flowing) (hnext : nextVisit s = some q.val) (hports : s.utr.ports = [])
    (hrqs : s.utr.rqs = []) (hrec : isRecord s q.val = false) (h : Emptied (queue s q.val)) :
    Answers .queueVisit s fun t => queue t q.val = { queue s q.val with pend := false, st := .idle } ∧
      (∀ r, q.val ≠ r → queue t r = queue s r) ∧
      t.front = (if q.val < 64 then { s.front with lastKernel := some q.val } else { s.front with lastUser := some q.val }) ∧
      t = { s with queues := t.queues, front := t.front, hif := t.hif } := by
  obtain ⟨hq, hothers, queues, hframe⟩ := visitQueue_emptied hrec h
  have hvisit := queueVisitRun_visits hnext (by rw [hframe]; exact hs.1)
  rw [hframe] at hq hothers hvisit
  have hrun : utrPump (queueVisitRun s) = visited { s with queues := queues } q.val := by
    rw [hvisit]; exact utrPump_without_ring hports hrqs
  exact answers_of_run (exec_queueVisit s) hs hrun hs.1 fun hif => ⟨hq, hothers, rfl, rfl⟩

/-- Settles O8: the doorbell by the equation of its run function, the visit by what each of its parts does to a queue with nothing left, and
the order of the visits by where the next one is taken from. -/
theorem doorbellsAndVisits : Obligations.DoorbellsAndVisits := by
  unfold Obligations.DoorbellsAndVisits
  refine ⟨fun s q v hs hb => ⟨fun hnear => ?accepted, fun hfar => ?refused⟩, fun s hs hnone hports hrqs => ?rests,
    fun s q hs hnext hports hrqs hrec hst hindex hwindow hindirects => ?idles, fun s k hk hk64 q hq => nextVisit_kernel hk hk64 hq⟩
  case accepted =>
    have hrun := (dbPiRun_bound hs.2 hb v).trans (if_pos (piAccepted_iff.mpr hnear))
    exact exec_of_run (exec_dbPiWrite q v s) hs hrun hs.1
  case refused =>
    have hnot : ¬piAccepted s q.val v = true := fun hp => by have := piAccepted_iff.mp hp; omega
    have hrun := (dbPiRun_bound hs.2 hb v).trans ((if_neg hnot).trans (regOr_of_ne_zero s _ (by decide)))
    exact exec_of_run (exec_dbPiWrite q v s) hs hrun hs.1
  case rests =>
    exact exec_of_run_self (exec_queueVisit s) hs (by rw [queueVisitRun_none (nextVisit_none hnone), utrPump_without_ring hports hrqs])
  case idles => exact queueVisit_idles hs hnext hports hrqs hrec ⟨hst, hindex, hwindow, hindirects⟩

/-! ## The control writes of a queue's registers -/

theorem exec_bind (q : QIx) (s : State) : exec (.bind q) s = host s fun s => bindRun s q.val := rfl

theorem exec_destroy (q : QIx) (s : State) : exec (.destroy q) s = host s fun s => destroyWrite s q.val := rfl

theorem exec_queueEnWrite (q : QIx) (on : Bool) (s : State) : exec (.queueEnWrite q on) s = host s fun s => enWrite s q.val on := rfl

/-! ## BIND (R224, R225) -/

section
variable {s : State} {q : Nat} (hq : q < 64)
include hq

theorem bindRun_binds (hfree : (queue s q).st = .free) (hs : served s = true) (hd : driverOk s = true)
    (hok : bindOk s q (bindRegs s q) = true) : bindRun s q = bindQueue s q (bindRegs s q) := by
  simp [bindRun, hq.not_ge, hfree, hs, hd, hok]

/-- A BIND of a queue that is not FREE, or whose registers fail Table 10-2, sets BIND_REFUSED. -/
theorem bindRun_refused (h : (queue s q).st ≠ .free ∨ bindOk s q (bindRegs s q) = false) : bindRun s q = regOr s (qfeReg q 4) 2 := by
  by_cases hfree : (queue s q).st = .free
  · simp [bindRun, hq.not_ge, hfree, h.resolve_left (not_not_intro hfree)]
  · simp [bindRun, hq.not_ge, hfree]

end

/-- Registers written one after another change the register file alone. -/
theorem foldl_regSet_frame {α : Type} (o : α → Nat) (w : α → Word) (l : List α) (s : State) :
    ∃ regs, l.foldl (fun s e => regSet s (o e) (w e)) s = { s with regs := regs } := by
  induction l generalizing s with
  | nil => exact ⟨s.regs, rfl⟩
  | cons e l ih =>
    obtain ⟨regs, hregs⟩ := ih (regSet s (o e) (w e))
    exact ⟨regs, hregs⟩

/-- A bound queue: IDLE with EN set and the descriptor's standing slot; beside it only registers are written. -/
theorem bindQueue_frame (s : State) (q : Nat) (v : BindVals) :
    ∃ regs, bindQueue s q v = setQueue { s with regs := regs } q { st := .idle, en := true, standing := v.standing } := by
  unfold bindQueue
  dsimp only
  exact (foldl_regSet_frame (fun e : Nat × Nat => qfeReg q e.1) (fun e => BitVec.ofNat 32 e.2) _ s).imp
    fun regs hregs => congrArg (fun t => setQueue t q _) hregs

/-! ## DESTROY (R269) -/

/-- The queue that a destroy by register begins to retire. -/
def retiringQueue (k : Queue) : Queue :=
  { k with st := .retiring, acting := .destroy, window := [], watch := 0, acked := false, pend := false, pendOn := false, origin := none,
           noFenceErr := false }

theorem stopMoverLoads_without_arrays {s : State} (h : s.arrays = []) (q : Nat) : stopMoverLoads s q = s := by
  simp [stopMoverLoads, arraysLoading, h]

/-- A destroy with nothing outstanding changes its queue alone. -/
theorem destroyStart_unused {s : State} {q : Nat} (hmarks : (rq s q).marks = []) (hcmds : s.cmds = []) (hrxus : s.rxus = [])
    (harrays : s.arrays = []) : destroyStart s q none false = modQueue s q retiringQueue := by
  have hmarks1 : (rq (modQueue s q retiringQueue) q).marks = [] := hmarks
  have hruns1 : runsOf (modQueue s q retiringQueue) q = [] := by simp [runsOf, hrxus]
  have hloads1 := stopMoverLoads_without_arrays (s := modQueue s q retiringQueue) harrays q
  have hstart : destroyStart s q none false = stopMoverLoads (modQueue s q retiringQueue) q := by
    unfold retiringQueue at *
    simp [destroyStart, hmarks1, hruns1, hcmds, hloads1]
  exact hstart.trans hloads1

/-! ## A write of EN (R241, R268) -/

/-- An enabled queue whose EN is cleared: its fetched ring slots go. -/
def closedQueue (s : State) (q : Nat) : Queue :=
  { queue s q with en := false, window := (queue s q).window.filter (·.sub.isSome),
                   st := if (cmdsOf s q).isEmpty then .bound else .disabling }

section
variable {s : State} {q : Nat}

theorem enWrite_disabling (h : (queue s q).st = .disabling) (on : Bool) : enWrite s q on = setQueue s q { queue s q with pendOn := on } := by
  simp [enWrite, h]

theorem enWrite_off (h : (queue s q).st = .idle ∨ (queue s q).st = .active) : enWrite s q false = setQueue s q (closedQueue s q) := by
  rcases h with h | h
  · simp [enWrite, h, closedQueue]
  · simp [enWrite, h, closedQueue]

theorem enWrite_on (h : (queue s q).st = .bound) : enWrite s q true = recheck (setQueue s q { queue s q with st := .idle, en := true }) q := by
  simp [enWrite, h]

end

/-- An IDLE queue whose PI is re-read is ACTIVE where entries wait. -/
theorem recheck_idle {k : Queue} (h : k.st = .idle) (s : State) (q : Nat) :
    queue (recheck (setQueue s q k) q) q = if k.pi = k.ci then k else { k with st := .active, pend := true } := by
  by_cases he : k.pi = k.ci <;> simp [recheck, h, he]

theorem queue_recheck_ne (s : State) {q r : Nat} (h : q ≠ r) : queue (recheck s q) r = queue s r := queue_modQueue_ne s q r _ h

/-- What EN set on a bound queue leaves. -/
theorem enWrite_opens {s : State} {q : QIx} (hs : s.hosted) (hst : (queue s q.val).st = .bound) :
    Answers (.queueEnWrite q true) s fun t => (queue t q.val).en = true ∧
      (queue t q.val).st = (if (queue s q.val).pi = (queue s q.val).ci then .idle else .active) ∧
      (∀ r, q.val ≠ r → queue t r = queue s r) ∧ t = { s with queues := t.queues, hif := t.hif } := by
  refine answers_of_write (exec_queueEnWrite q true s) hs (enWrite_on hst) hs.1 fun hif => ?_
  rw [queue_withHif, recheck_idle rfl]
  exact ⟨by split <;> rfl, by split <;> rfl, fun r hr => (queue_recheck_ne _ hr).trans (queue_setQueue_ne s _ r _ hr), rfl⟩

/-- Settles O9: each write by the equation of its run function in the state of the queue. -/
theorem queueControlWrites : Obligations.QueueControlWrites := by
  unfold Obligations.QueueControlWrites
  refine ⟨fun s q hs hq => ⟨fun hfree hserved hd hok => ?binds, fun hno => ?refused, fun hb hmarks hcmds hrxus harrays => ?destroys⟩,
    fun s q on hs => ⟨fun hst => ?latches, fun hst => ?closes, fun hst => enWrite_opens hs hst⟩⟩
  case binds =>
    obtain ⟨regs, hframe⟩ := bindQueue_frame s q.val (bindRegs s q.val)
    refine answers_of_write (exec_bind q s) hs ((bindRun_binds hq hfree hserved hd hok).trans hframe) hs.1 fun hif => ?_
    rw [queue_withHif, queue_setQueue_same]
    exact ⟨rfl, rfl, rfl, rfl, fun r hr => queue_setQueue_ne _ _ r _ hr, rfl⟩
  case refused =>
    exact exec_of_write (exec_bind q s) hs ((bindRun_refused hq hno).trans (regOr_of_ne_zero s _ (by decide))) hs.1
  case destroys =>
    have hrun : destroyWrite s q.val = modQueue s q.val retiringQueue :=
      (if_pos ⟨hq, hb⟩).trans (destroyStart_unused hmarks hcmds hrxus harrays)
    exact exec_of_write (exec_destroy q s) hs hrun hs.1
  case latches => exact exec_of_write (exec_queueEnWrite q on s) hs (enWrite_disabling hst on) hs.1
  case closes =>
    refine answers_of_write (exec_queueEnWrite q false s) hs (enWrite_off hst) hs.1 fun hif => ?_
    rw [queue_withHif, queue_setQueue_same]
    exact ⟨rfl, rfl, rfl, rfl, fun r hr => queue_setQueue_ne s _ r _ hr, rfl⟩

/-! ## The completion entry (R239, Table 10-9) -/

@[simp] theorem length_toLe (k n : Nat) : (toLe k n).length = k := by
  induction k generalizing n with
  | zero => rfl
  | succ k ih => simp [toLe, ih]

theorem length_cplEntry (user detail flags idx : Nat) (st : St) (q : Nat) : (cplEntry user detail flags idx st q).length = 32 := by
  simp [cplEntry]

/-- Where a queue's completion entry for a ring index stands. -/
def cplSlot (s : State) (q : Nat) (idx : Word) : Nat := cplBase s q + 32 * (idx.toNat % ringSlots s q)

/-- An entry written into device memory without stored errors, for a queue that asks for no vector. -/
theorem writeCompletion_clean {s : State} {q user detail flags : Nat} {idx : Word} {st : St} (hquads : s.quads = [])
    (hend : cplSlot s q idx + 32 ≤ 2 ^ 63) (hmap : mapped s (cplSlot s q idx) 32 = true) (hirq : regBit s (qfeReg q 0x1C) 11 = false) :
    writeCompletion s q user detail flags idx st false =
      progress { s with mem := mwrite s.mem (cplSlot s q idx) (cplEntry user detail flags idx.toNat st q) } q := by
  have hlen := length_cplEntry user detail flags idx.toNat st q
  rw [← hlen] at hend hmap
  have hwrite := writeMem_clean hquads (q := q) (who := 0xFC) hend (List.ne_nil_of_length_pos (by omega)) hmap
  unfold writeCompletion
  dsimp only
  rw [← cplSlot, hwrite]
  exact if_neg (by rw [Bool.false_or]; exact ne_true_of_eq_false hirq)

/-! ## The completion of a command (R239 to R241, R284) -/

/-- The state without an outstanding command, its step and its rotation. -/
def commandLeft (s : State) (uid : Nat) : State :=
  { s with cmds := s.cmds.filter (·.uid != uid), steps := s.steps.filter (·.uid != uid), rotations := s.rotations.filter (·.uid != uid),
           claimsWaiting := s.claimsWaiting.filter (· != uid), ranks := sdel s.ranks uid }

theorem not_mem_commandLeft {s : State} {uid : Nat} {d : Cmd} (h : d ∈ (commandLeft s uid).cmds) : d.uid ≠ uid := by
  simpa using (List.mem_filter.mp h).2

/-- A slot of a ring completes OK: its entry is written, and the last one of a disabling queue ends that. -/
theorem complete_slot {s : State} {uid : Nat} {c : Cmd} {q : QIx} (hfind : findCmd s uid = some c) (hsrc : c.src = .queue q)
    (hsub : c.sub = none) (hrec : c.record = false) (huser : c.user = none) : complete s uid .ok = disableDone
      (writeCompletion (commandLeft s uid) q.val (slotUser c.slot) c.detail c.flags c.idx .ok (slotIrq c.slot)) q.val := by
  simp [complete, hfind, hsrc, hsub, hrec, huser, commandLeft, statBit, regOr]

/-- A ticket's command leaves its outcome. -/
theorem complete_ticket {s : State} {uid : Nat} {c : Cmd} {u : UIx} {l : LIx} {n : Word} (hfind : findCmd s uid = some c)
    (hsrc : c.src = .ticket u l n) (st : St) : complete s uid st = { commandLeft s uid with
      ticketsReady := s.ticketsReady ++ [{ u := u.val, c := l.val, n := n, status := st, flags := c.flags }] } := by
  simp [complete, hfind, hsrc, commandLeft]

/-- The last completion ends neither a disable nor a drain where the queue is in neither. -/
theorem disableDone_running {s : State} {q : Nat} (hst : (queue s q).st = .active) (hacting : (queue s q).acting = .none) : disableDone s q = s := by
  simp [disableDone, hst, hacting]

/-! ## NOP (R233) -/

theorem exec_nop (src : Src) (s : State) : exec (.nop src) s = flows s fun s => dispatch s src 0 nopRun := rfl

/-- The state that a NOP of a ring leaves. -/
def nopLeft (t : State) (c : Cmd) (q : Nat) : State :=
  progress { commandLeft t c.uid with
    mem := mwrite t.mem (cplSlot t q c.idx) (cplEntry (slotUser c.slot) c.detail c.flags c.idx.toNat .ok q) } q

/-- A byte of the bytes written reads as the byte of the list. -/
theorem mget_mwrite_nth (m : List Host.Cell) (a : Nat) {bs : List Byte} {i : Nat} (h : i < bs.length) :
    mget (mwrite m a bs) (a + i) = nth 0 bs i := by
  rw [mget_mwrite_inside bs m a i h, nth, List.getElem?_eq_getElem h]
  rfl

theorem mem_nopLeft (t : State) (c : Cmd) (q : Nat) : (nopLeft t c q).mem =
    mwrite t.mem (cplSlot t q c.idx) (cplEntry (slotUser c.slot) c.detail c.flags c.idx.toNat .ok q) := by
  rw [nopLeft, progress, modQueue_mem]

/-- The entry's bytes. -/
theorem mget_nopLeft_entry (t : State) (c : Cmd) (q : Nat) {k : Nat} (hk : k < 32) : mget (nopLeft t c q).mem (cplSlot t q c.idx + k) =
    nth 0 (cplEntry (slotUser c.slot) c.detail c.flags c.idx.toNat .ok q) k := by
  rw [mem_nopLeft]
  exact mget_mwrite_nth t.mem _ (by rw [length_cplEntry]; exact hk)

theorem mget_nopLeft_outside (t : State) (c : Cmd) (q : Nat) {a : Nat} (ha : a < cplSlot t q c.idx ∨ cplSlot t q c.idx + 32 ≤ a) :
    mget (nopLeft t c q).mem a = mget t.mem a := by
  rw [mem_nopLeft]
  exact mget_mwrite_outside _ t.mem _ a (by rw [length_cplEntry]; exact ha)

theorem queue_nopLeft (t : State) (c : Cmd) (q : Nat) : queue (nopLeft t c q) q = { queue t q with progress := true } := queue_modQueue_same _ q _

theorem queue_nopLeft_ne (t : State) (c : Cmd) {q r : Nat} (h : q ≠ r) : queue (nopLeft t c q) r = queue t r := queue_modQueue_ne _ q r _ h

/-- A NOP of a running queue whose completion ring stands in device memory. -/
theorem nopRun_completes {t : State} {q : QIx} {c : Cmd} (hfind : findCmd t c.uid = some c) (hsrc : c.src = .queue q) (hsub : c.sub = none)
    (hrec : c.record = false) (huser : c.user = none) (hst : (queue t q.val).st = .active) (hacting : (queue t q.val).acting = .none)
    (hquads : t.quads = []) (hirq : slotIrq c.slot = false) (hvec : regBit t (qfeReg q.val 0x1C) 11 = false)
    (hend : cplSlot t q.val c.idx + 32 ≤ 2 ^ 63) (hmap : mapped t (cplSlot t q.val c.idx) 32 = true) :
    nopRun t c = nopLeft t c q.val := by
  have hentry : writeCompletion (commandLeft t c.uid) q.val (slotUser c.slot) c.detail c.flags c.idx .ok false = nopLeft t c q.val :=
    writeCompletion_clean hquads hend hmap hvec
  have hqueue := queue_nopLeft t c q.val
  rw [nopRun, complete_slot hfind hsrc hsub hrec huser, hirq, hentry]
  exact disableDone_running ((congrArg Queue.st hqueue).trans hst) ((congrArg Queue.acting hqueue).trans hacting)

/-- Settles O32: the run of a NOP is the completion of its command, for a ring's slot and for a ticket. -/
theorem nopCompletes : Obligations.NopCompletes := by
  unfold Obligations.NopCompletes
  refine ⟨fun s t q c ⟨hs, htake, hfree⟩ hfind hsrc hsub hrec huser hwin hst hacting hquads hwait hirq hvec hend hmap => ?ring,
    fun s t u l n c ⟨hs, htake, hfree⟩ hfind hsrc hwait => ?ticket⟩
  case ring =>
    have hnop := nopRun_completes hfind hsrc hsub hrec huser hst hacting hquads hirq hvec hend hmap
    have hqueue := queue_nopLeft t c q.val
    have hwindow : (queue (nopLeft t c q.val) q.val).window = [] := (congrArg Queue.window hqueue).trans hwin
    have hrun : dispatch s (.queue q) 0 nopRun = nopLeft t c q.val := by
      rw [dispatch_of_take htake hfree nopRun, hnop, behind_of_window_nil hwindow]
    refine answers_of_run (exec_nop (.queue q) s) hs hrun hwait fun hif => ?_
    dsimp only
    exact ⟨fun k hk => mget_nopLeft_entry t c q.val hk, fun a ha => mget_nopLeft_outside t c q.val ha,
      fun d hd => not_mem_commandLeft hd, hqueue, fun r hr => queue_nopLeft_ne t c hr, rfl, rfl, rfl, rfl⟩
  case ticket =>
    have hrun := (dispatch_of_take htake hfree nopRun).trans (complete_ticket hfind hsrc .ok)
    exact answers_of_run (exec_nop (.ticket u l n) s) hs hrun hwait fun hif => ⟨rfl, fun d hd => not_mem_commandLeft hd, rfl, rfl, rfl⟩

/-! ## PATCH (R237, Table 14-6) -/

theorem exec_patch (src : Src) (s : State) : exec (.patch src) s = flows s fun s => dispatch s src 10 patchRun := rfl

section
variable {t t1 : State} {c : Cmd}

theorem patchRun_copies {bs : List Byte} (h : readMem t (cmdQueue t c) 0xFC (op10 c.slot) (leAt c.slot 0x20 1) = (t1, { bytes := bs })) :
    patchRun t c = complete (writeMem t1 (cmdQueue t c) 0xFC (op18 c.slot) bs).1 c.uid
      (if (writeMem t1 (cmdQueue t c) 0xFC (op18 c.slot) bs).2 then .aperture else .ok) := by
  simp [patchRun, h, poison_bytes]

variable {r : Rd} (h : readMem t (cmdQueue t c) 0xFC (op10 c.slot) (leAt c.slot 0x20 1) = (t1, r))
include h

theorem patchRun_outside (hap : r.ap = true) : patchRun t c = complete t1 c.uid .aperture := by simp [patchRun, h, hap]

theorem patchRun_poisoned (hap : r.ap = false) (hpoison : r.poison = true) :
    patchRun t c = complete (writePoison 1 t1 (cmdQueue t c) (op18 c.slot / 16 * 16)).1 c.uid
      (if (writePoison 1 t1 (cmdQueue t c) (op18 c.slot / 16 * 16)).2 then .aperture else .integrity) := by
  simp [patchRun, h, hap, hpoison]

end

/-- Settles O35: by what the read of the source delivers. -/
theorem patches : Obligations.Patches := by
  unfold Obligations.Patches
  intro s t src c ⟨hs, htake, hfree⟩
  have hrun := dispatch_of_take htake hfree patchRun
  have hexec := exec_patch src s
  exact ⟨fun t1 bs hread => becomes_of_run hexec hs (by rw [hrun, patchRun_copies hread]),
    fun t1 r hread hap => becomes_of_run hexec hs (by rw [hrun, patchRun_outside hread hap]),
    fun t1 r hread hap hpoison => becomes_of_run hexec hs (by rw [hrun, patchRun_poisoned hread hap hpoison])⟩

/-! ## INDIRECT (R236) -/

theorem exec_indirect (q : QIx) (s : State) : exec (.indirect q) s = flows s fun s => dispatch s (.queue q) 11 indirectRun := rfl

/-- The INDIRECT that a command begins. -/
def begunInd (c : Cmd) : Indirect := { uid := c.uid, idx := c.idx, buf := BitVec.ofNat 64 (op10 c.slot), count := leAt c.slot 0x18 4 }

/-- A queue with an INDIRECT begun behind the others. -/
def withBegun (c : Cmd) (k : Queue) : Queue := { k with indirects := k.indirects ++ [begunInd c] }

theorem indirectRun_begins {t : State} {q : QIx} {c : Cmd} (hsrc : c.src = .queue q) :
    indirectRun t c = modQueue t q.val (withBegun c) := by
  simp only [indirectRun, hsrc]
  rfl

/-! ## ENQUEUE (R258, R263, R270) -/

theorem exec_enqueue (q : QIx) (s : State) : exec (.enqueue q) s = flows s fun s => dispatch s (.queue q) 12 enqueueRun := rfl

theorem exec_enqueueCopy (src : Src) (s : State) :
    exec (.enqueueCopy src) s = flows s fun s => withCmd s (cmdOfSrc s src 0x0C) enqueueTry := rfl

/-- The uid of the ENQUEUE that has waited longest for a target. -/
def firstEnqueue (s : State) (t : Nat) : Option Nat :=
  ((s.cmds.filter fun d => d.op == 12 && !d.queued && opB18 d.slot == t).head?).map (·.uid)

section
variable {s : State} {c : Cmd}

theorem enqueueRun_refused (h : enqueueOk s (opB18 c.slot) (leAt c.slot 0x1A 2) = false) : enqueueRun s c = complete s c.uid .format := by
  simp [enqueueRun, h]

theorem enqueueRun_tries (h : enqueueOk s (opB18 c.slot) (leAt c.slot 0x1A 2) = true) : enqueueRun s c = enqueueTry s c := if_pos h

/-- Without room in its target, or with its queue stopped, an ENQUEUE waits. -/
theorem enqueueTry_waits (h : enqueueRoom s (opB18 c.slot) (leAt c.slot 0x1A 2) = false ∨ mayAct s c = false) : enqueueTry s c = s := by
  rcases h with h | h
  · simp [enqueueTry, h]
  · simp [enqueueTry, h]

theorem enqueueTry_copies (hroom : enqueueRoom s (opB18 c.slot) (leAt c.slot 0x1A 2) = true) (hact : mayAct s c = true)
    (hbegun : c.queued = false) (hfirst : firstEnqueue s (opB18 c.slot) = some c.uid) : enqueueTry s c =
      complete (enqueueCopyOne s (cmdQueue s c) (opB18 c.slot) (op10 c.slot) (leAt c.slot 0x1A 2) c.data).1 c.uid
        (enqueueCopyOne s (cmdQueue s c) (opB18 c.slot) (op10 c.slot) (leAt c.slot 0x1A 2) c.data).2 :=
  if_pos ⟨hact, hroom, by rw [hbegun]; rfl, hfirst⟩

end

/-! ### The copy of the slots -/

theorem ReadFrom.queue_eq {s t : State} (h : ReadFrom s t) (q : Nat) : queue t q = queue s q := by
  obtain ⟨_, _, _, _, _, _, rfl⟩ := h
  rfl

/-- A write of memory leaves the queues. -/
theorem queue_writeMem (s : State) (q who a : Nat) (bs : List Byte) (r : Nat) : queue (writeMem s q who a bs).1 r = queue s r := by
  by_cases hhost : isHost a = true
  · unfold writeMem
    simp only [hhost, if_true]
    split
    · rfl
    · cases hostSide s q (a % 2 ^ 63) bs.length true with
      | wait asked => rfl
      | refused => exact (readFrom_xlate s).queue_eq r
      | go pages => rfl
  · exact (deviceFrom_writeMem (Bool.not_eq_true _ ▸ hhost) s q who bs).1.queue_eq r

/-- `n` slots written into the ring of queue `t` from ring index `p` on. -/
def slotsWritten (s : State) (t : Nat) (p : Word) (n : Nat) (bs : List Byte) : State :=
  (List.range n).foldl (fun v i => (writeMem v t 0xFC (slotAddr v t (p + BitVec.ofNat 32 i)) (sub bs (64 * i) 64)).1) s

theorem queue_slotsWritten (s : State) (t : Nat) (p : Word) (n : Nat) (bs : List Byte) (r : Nat) :
    queue (slotsWritten s t p n bs) r = queue s r :=
  List.foldlRecOn (motive := fun v => queue v r = queue s r) _ _ rfl fun v hv _ _ => (queue_writeMem v t 0xFC _ _ r).trans hv

/-- The slots that an EOP.ENQ took are copied as they are. -/
theorem enqueueCopyOne_data {bs : List Byte} (h : bs ≠ []) (s : State) (q t a n : Nat) : enqueueCopyOne s q t a n bs =
    (setPi (slotsWritten s t (queue s t).pi n bs) t ((queue s t).pi + BitVec.ofNat 32 n), .ok) := by
  have hdata : bs.isEmpty = false := List.isEmpty_eq_false_iff.mpr h
  simp [enqueueCopyOne, hdata, poison_bytes, slotsWritten]

/-- Settles O42: INDIRECT and ENQUEUE by the equations of their run functions, and the copy by what its writes leave of the queues. -/
theorem indirectAndEnqueue : Obligations.IndirectAndEnqueue := by
  unfold Obligations.IndirectAndEnqueue
  refine ⟨fun s t q c ⟨hs, htake, hfree⟩ hsrc hwait hwin => ?begins, fun s t q c ⟨hs, htake, hfree⟩ => ?enqueue,
    fun s src c hs hcmd hact => ?stopped, fun s src c hs hcmd hroom hact hbegun hfirst => ?copies, fun s q t a n bs hbs => ?copied⟩
  case begins =>
    have hrun := dispatch_of_take htake hfree indirectRun
    rw [indirectRun_begins hsrc, behind_of_window_nil (by rw [queue_modQueue_same]; exact hwin)] at hrun
    exact answers_of_run (exec_indirect q s) hs hrun hwait fun hif =>
      ⟨congrArg Queue.indirects (queue_modQueue_same t q.val (withBegun c)), fun r hr => queue_modQueue_ne t q.val r (withBegun c) hr, rfl⟩
  case enqueue =>
    have hexec := exec_enqueue q s
    have hrun := dispatch_of_take htake hfree enqueueRun
    refine ⟨fun hno => becomes_of_run hexec hs (by rw [hrun, enqueueRun_refused hno]), fun hok => ?_⟩
    rw [enqueueRun_tries hok] at hrun
    exact ⟨fun hwaits => becomes_of_run hexec hs (by rw [hrun, enqueueTry_waits hwaits]),
      fun hroom hact hbegun hfirst => becomes_of_run hexec hs (by rw [hrun, enqueueTry_copies hroom hact hbegun hfirst])⟩
  case stopped =>
    exact exec_of_run_self (exec_enqueueCopy src s) hs (by rw [hcmd]; exact enqueueTry_waits (.inr hact))
  case copies =>
    exact becomes_of_run (exec_enqueueCopy src s) hs (by rw [hcmd]; exact enqueueTry_copies hroom hact hbegun hfirst)
  case copied =>
    have hqueue := queue_modQueue_same (slotsWritten s t (queue s t).pi n bs) t fun k =>
      { k with pi := (queue s t).pi + BitVec.ofNat 32 n, pend := true }
    rw [enqueueCopyOne_data hbs]
    exact ⟨rfl, congrArg Queue.pi hqueue, congrArg Queue.pend hqueue,
      fun r hr => (queue_modQueue_ne _ t r _ hr).trans (queue_slotsWritten s t _ n bs r)⟩

end Sys2Proof.Machine
end

section
/-! The proofs of the family `11_scheduling.md`: writes of enable bits during a shutdown (O10), watch events (O15), fence signals (O33) and
fence waits (O34), and the stalls and destroys of queues (O60). -/

namespace Sys2Proof.Machine

/-! ## Enable bits during a shutdown (R268) -/

/-- A write of an enable bit during its shutdown is latched as PENDING_ON. -/
theorem Enable.write_disabling {e : Enable} (h : e.disabling = true) (on busy : Bool) : e.write on busy = { e with pendOn := on } := by
  cases on with
  | true => simp [Enable.write, h]
  | false => simp [Enable.write, h]

theorem hedgeEnRun_disabling {s : State} {h : Nat} (hdis : (hedge s h).en.disabling = true) (hr : (hedge s h).restructuring = false)
    (hrole : role s h ≠ 0) (on : Bool) : hedgeEnRun s h on = modHedge s h fun e => { e with en := { e.en with pendOn := on } } := by
  simp [hedgeEnRun, hr, hrole, modHedge, Enable.write_disabling hdis]

theorem rxuEnRun_disabling {s : State} {u : Nat} (hdis : (rxu s u).en.disabling = true) (hen : (rxu s u).en.en = false)
    (hl : unitLanes s u ≠ 0) (on : Bool) : rxuEnRun s u on = modRxu s u fun x => { x with en := { (rxu s u).en with pendOn := on } } := by
  simp [rxuEnRun, hen, hdis, hl, Enable.write_disabling hdis]

/-- The extractor's EN is already clear, so the record it finishes stays the one it had. -/
theorem rex_rexEnRun_disabling {s : State} {u : Nat} (hdis : (rxu s u).rex.disabling = true) (on : Bool) :
    (rxu (rexEnRun s u on) u).rex = { (rxu s u).rex with pendOn := on } := by
  rw [rexEnRun, rxu_modRxu_same]
  exact Enable.write_disabling hdis on _

/-- What a write of EN leaves of a port's enable bit during its shutdown: a write of 1 sets PENDING_ON, a write of 0 withdraws it and a
retrain (R332). -/
theorem portEn_disabling {s : State} {p : Nat} (hdis : (uport s p).en.disabling = true) (hen : (uport s p).en.en = false)
    (hu : portUsed s p = true) (on : Bool) :
    (uport (portEn s p on) p).en = { (uport s p).en with pendOn := on } ∧ portEn s p on = { s with utr := (portEn s p on).utr } := by
  cases on with
  | true =>
    have hrun : portEn s p true = modPort s p fun u => { u with en := u.en.write true false } := by
      simp [portEn, hu, hen, hdis, Enable.write]
    rw [hrun, uport_modPort_same]
    exact ⟨Enable.write_disabling hdis true false, rfl⟩
  | false =>
    have hrun : portEn s p false = modPort s p fun u => { u with en := { u.en with en := false, pendOn := false }, retrain := false } := by
      simp [portEn, hdis]
    rw [hrun, uport_modPort_same]
    exact ⟨by rw [← hen], rfl⟩

theorem macEnRun_disabling {s : State} {m : Nat} (hdis : (mac s m).en.disabling = true) (hl : (mac s m).link = false) (on : Bool) :
    macEnRun s m on = modMac s m fun k => { k with en := { k.en with pendOn := on } } := by
  have hwritten : (modMac s m fun k => { k with en := k.en.write on (!k.rx.isEmpty || !k.tx.isEmpty) }) =
      modMac s m fun k => { k with en := { k.en with pendOn := on } } := by
    simp [modMac, Enable.write_disabling hdis]
  rw [macEnRun, hwritten]
  exact sendWaiting_linkDown (by simp [hl])

/-- Settles O10, a clause for each enable bit: the one write of a bit that shuts down, and what each register does beside it. -/
theorem shutdownsAreNeverAborted : Obligations.ShutdownsAreNeverAborted := by
  unfold Obligations.ShutdownsAreNeverAborted
  intro s on hs
  refine ⟨fun h hdis hr hrole => ?hedge, fun u hdis hen hl => ?unit, fun u hdis => ?extractor, fun p hdis hen hu => ?port, fun m hdis hl => ?mac⟩
  case hedge =>
    refine answers_of_write (f := fun s => hedgeEnRun s h.val on) rfl hs (hedgeEnRun_disabling hdis hr hrole on) hs.1 fun w => ⟨?_, rfl⟩
    simp [hedge]
  case unit =>
    refine answers_of_write (f := fun s => rxuEnRun s u.val on) rfl hs (rxuEnRun_disabling hdis hen hl on) hs.1 fun w => ⟨?_, rfl⟩
    simp [rxu]
  case extractor =>
    exact answers_of_write (f := fun s => rexEnRun s u.val on) rfl hs rfl hs.1 fun w => ⟨rex_rexEnRun_disabling hdis on, rfl⟩
  case port =>
    obtain ⟨hport, hframe⟩ := portEn_disabling hdis hen hu on
    refine answers_of_write (f := fun s => portEn s p.val on) rfl hs rfl (by rw [hframe]; exact hs.1) fun w => ⟨hport, ?_⟩
    rw [hframe]
  case mac =>
    refine answers_of_write (f := fun s => macEnRun s m.val on) rfl hs (macEnRun_disabling hdis hl on) hs.1 fun w => ⟨?_, rfl⟩
    simp [mac]

/-! ## Watch events (R251, R259, R261, R262) -/

theorem exec_watchPoke (v : Word) (s : State) : exec (.watchPoke v) s = host s watchPokeRun := rfl

theorem exec_watchPinEdge (s : State) : exec .watchPinEdge s = alive s watchPinRun := rfl

theorem exec_slotWatchEvent (l : UIx) (s : State) : exec (.slotWatchEvent l) s = alive s fun s => slotWatchRun s l.val := rfl

/-- What is listed under a key of a map whose values have changed. -/
theorem sget_map_of_mem {α : Type} (d : α) (f : Nat → α → α) {m : SMap α} {k : Nat} (h : k ∈ m.map (·.1)) :
    sget d (m.map fun x => (x.1, f x.1 x.2)) k = f k (sget d m k) := by
  induction m with
  | nil => simp at h
  | cons p t ih =>
    by_cases hk : p.1 = k
    · simp [sget, hk]
    · have ht : k ∈ t.map (·.1) := by simpa [Ne.symm hk] using h
      simp only [List.map_cons, sget, hk, if_false]
      exact ih ht

section
variable (s : State) (q : Nat)

theorem queue_watchEvent (h : q ∈ s.queues.map (·.1)) : queue (watchEvent s) q = watchQueue s q (queue s q) :=
  sget_map_of_mem ({} : Queue) (watchQueue s) h

theorem regGet_watchEvent : regGet (watchEvent s) watchCount = regGet s watchCount + 1 := regGet_regSet_same _ _ _

/-- The QUIET of a queue without an action, and what it makes due. -/
theorem watchQueue_idle {k : Queue} (h : k.acting = .none) : watchQueue s q k = { k with
    stallCfg := regGet s (qfeReg q 0x34), quiet := quietNext k (judgedNow s q), judged := judgedNow s q, progress := false,
    stallDue := decide (0 < regField s (qfeReg q 0x34) 7 0) && decide (regField s (qfeReg q 0x34) 7 0 ≤ quietNext k (judgedNow s q)) } := by
  simp [watchQueue, h]

end

/-- What a watch event makes of a queue without an action. -/
theorem watchEvent_judges (s : State) (q : Nat) (h : q ∈ s.queues.map (·.1)) (hacting : (queue s q).acting = .none) :
    (queue (watchEvent s) q).quiet = (if (queue s q).progress then 0
      else if judgedNow s q && (queue s q).judged then min 255 ((queue s q).quiet + 1) else 0) ∧
    (queue (watchEvent s) q).judged = judgedNow s q ∧ (queue (watchEvent s) q).stallCfg = regGet s (qfeReg q 0x34) ∧
    ((queue (watchEvent s) q).stallDue = true ↔
      0 < regField s (qfeReg q 0x34) 7 0 ∧ regField s (qfeReg q 0x34) 7 0 ≤ (queue (watchEvent s) q).quiet) ∧
    (queue (watchEvent s) q).progress = false ∧ (queue (watchEvent s) q).st = (queue s q).st ∧
    (queue (watchEvent s) q).pi = (queue s q).pi := by
  rw [queue_watchEvent s q h, watchQueue_idle s q hacting]
  refine ⟨rfl, rfl, rfl, ?_, rfl, rfl, rfl⟩
  rw [Bool.and_eq_true, decide_eq_true_iff, decide_eq_true_iff]

theorem watchPokeRun_on {s : State} (h : regBit s watchCfg 1 = true) : watchPokeRun s = watchEvent s := if_pos h

theorem watchPokeRun_off {s : State} (h : regBit s watchCfg 1 = false) : watchPokeRun s = s := if_neg (ne_true_of_eq_false h)

theorem watchPinRun_on {s : State} (h : regBit s watchCfg 0 = true) : watchPinRun s = watchEvent s := if_pos h

theorem watchPinRun_off {s : State} (h : regBit s watchCfg 0 = false) : watchPinRun s = s := if_neg (ne_true_of_eq_false h)

theorem slotWatchRun_due {s : State} {l n : Nat} (h : sget 0 s.watchDue l = n + 1) :
    slotWatchRun s l = watchEvent { s with watchDue := sset s.watchDue l n } := by simp [slotWatchRun, h]

theorem slotWatchRun_none {s : State} {l : Nat} (h : sget 0 s.watchDue l = 0) : slotWatchRun s l = s := by simp [slotWatchRun, h]

section
variable {i : Instr} {s u : State} {f : State → State} (hexec : exec i s = alive s f) (hs : s.powered)
include hexec hs

/-- An event of the powered core that waits for no host access answers what its run function gives, the interrupt messages apart. -/
theorem answers_of_alive {p : State → Prop} (hrun : f s = u) (w : u.hostWait = false) (hp : ∀ h, p { u with hif := h }) : Answers i s p := by
  subst hrun
  rw [Answers, hexec]
  exact alive_answers hs w hp

/-- An event of the powered core whose run function leaves the state changes nothing. -/
theorem exec_of_alive_self (hrun : f s = s) : exec i s = .next s := by
  rw [hexec, alive_next hs (by rw [hrun]; exact hs.1), hrun, finish_self]

end

/-- Settles O15: each source that is enabled makes a watch event, and any other makes none. -/
theorem watchEvents : Obligations.WatchEvents := by
  unfold Obligations.WatchEvents
  refine fun s => ⟨fun i hi => ?event, fun v hs hoff => ?pokeOff, fun hs hoff => ?pinOff, fun l hs hnone => ?lineNone⟩
  case event =>
    rcases hi with ⟨hs, ⟨v, rfl⟩, hon⟩ | ⟨hs, rfl, hon⟩ | ⟨hs, l, rfl, hdue⟩
    · exact answers_of_write (exec_watchPoke v s) hs (watchPokeRun_on hon) hs.1 fun hif => ⟨regGet_watchEvent s, watchEvent_judges s, nofun, rfl⟩
    · exact answers_of_alive (exec_watchPinEdge s) hs (watchPinRun_on hon) hs.1 fun hif => ⟨regGet_watchEvent s, watchEvent_judges s, nofun, rfl⟩
    · obtain ⟨n, hn⟩ := Nat.exists_eq_succ_of_ne_zero hdue.ne'
      set s1 : State := { s with watchDue := sset s.watchDue l.val n }
      refine answers_of_alive (exec_slotWatchEvent l s) hs (slotWatchRun_due hn) hs.1 fun hif =>
        ⟨regGet_watchEvent s1, watchEvent_judges s1, fun m hm => ?_, rfl⟩
      cases hm
      refine ⟨?_, fun k hk => sget_sset_ne 0 s.watchDue l.val k n (Ne.symm hk)⟩
      rw [hn]
      exact congrArg (· + 1) (sget_sset_same 0 s.watchDue l.val n)
  case pokeOff =>
    have hrun := watchPokeRun_off hoff
    rw [exec_watchPoke, host_next hs (by rw [hrun]; exact hs.1), hrun, finish_self]
  case pinOff => exact exec_of_alive_self (exec_watchPinEdge s) hs (watchPinRun_off hoff)
  case lineNone => exact exec_of_alive_self (exec_slotWatchEvent l s) hs (slotWatchRun_none hnone)

/-! ## Signals (R253, R256, R257) -/

theorem exec_fenceSignal (src : Src) (s : State) : exec (.fenceSignal src) s = flows s fun s => dispatch s src 8 fenceSignalRun := rfl

theorem mayFence_iff {s : State} {q f : Nat} : mayFence s q f = true ↔
    q < 64 ∨ (regBit s (fnwReg f 8) 20 = true ∧ regField s (fnwReg f 8) 19 0 = regField s (qfeReg q 0x20) 19 0) := by
  simp [mayFence]

theorem fenceSignalRun_signals {s : State} {c : Cmd} (h : mayFence s (cmdQueue s c) (opB18 c.slot) = true) : fenceSignalRun s c =
    complete (signal s (opB18 c.slot) (BitVec.ofNat 64 (op10 c.slot)) (bitOf (leAt c.slot 0x1A 1) 0)) c.uid .ok := if_pos h

theorem fenceSignalRun_refused {s : State} {c : Cmd} (h : mayFence s (cmdQueue s c) (opB18 c.slot) = false) :
    fenceSignalRun s c = complete s c.uid .priv := if_neg (ne_true_of_eq_false h)

/-- A fence with the value settled at the greater and the error flag gathered. -/
def Fence.signalled (k : Fence) (v : DWord) (err : Bool) : Fence :=
  { value := if k.value.toNat < v.toNat then v else k.value, err := k.err || err }

/-- A signal of a lower value without ERROR leaves the fence as it is. -/
theorem Fence.signalled_self {k : Fence} {v : DWord} (h : v.toNat ≤ k.value.toNat) : k.signalled v false = k := by
  simp [Fence.signalled, h.not_gt]

/-- A greater value and a first error each change the fence. -/
theorem Fence.signalled_ne {k : Fence} {v : DWord} {err : Bool} (h : k.value.toNat < v.toNat ∨ (err = true ∧ k.err = false)) :
    k.signalled v err ≠ k := by
  intro heq
  rcases h with hv | ⟨herr, hk⟩
  · have hvalue : v = k.value := by simpa [Fence.signalled, hv] using congrArg Fence.value heq
    exact absurd (congrArg BitVec.toNat hvalue) hv.ne'
  · simpa [Fence.signalled, herr, hk] using congrArg Fence.err heq

theorem fence_raiseVec (s : State) (n f : Nat) : fence (raiseVec s n) f = fence s f := by rw [raiseVec_frame]; rfl

section
variable (s : State) (f : Nat) (v : DWord) (err : Bool)

/-- A signal settles the fence, and raises its vector where that changed it and IRQ_EN is set. -/
theorem signal_eq : signal s f v err =
    if (fence s f).signalled v err ≠ fence s f ∧ regBit s (fnwReg f 0xC) 1 then
      raiseVec (setFence s f ((fence s f).signalled v err)) (regField s (fnwReg f 0xC) 12 2)
    else setFence s f ((fence s f).signalled v err) := rfl

theorem fence_signal (g : Nat) : fence (signal s f v err) g = fence (setFence s f ((fence s f).signalled v err)) g := by
  rw [signal_eq]
  split
  · exact fence_raiseVec _ _ g
  · rfl

theorem fence_signal_same : fence (signal s f v err) f = (fence s f).signalled v err := by rw [fence_signal, fence_setFence_same]

theorem fence_signal_ne {g : Nat} (h : f ≠ g) : fence (signal s f v err) g = fence s g := by rw [fence_signal, fence_setFence_ne s f g _ h]

/-- A signal changes the fences and the host interface alone. -/
theorem signal_frame : signal s f v err = { s with fences := (signal s f v err).fences, hif := (signal s f v err).hif } := by
  rw [signal_eq]
  split
  · rw [raiseVec_frame]; rfl
  · rfl

end

/-- Settles O33: the command by whether its queue may signal, and the signal by what it makes of the fence. -/
theorem fenceSignals : Obligations.FenceSignals := by
  unfold Obligations.FenceSignals
  refine ⟨fun s t src c ⟨hs, htake, hfree⟩ => ?command, fun s q f => mayFence_iff, fun s f v err => ?signal⟩
  case command =>
    have hrun := dispatch_of_take htake hfree fenceSignalRun
    exact ⟨fun hmay => becomes_of_run (exec_fenceSignal src s) hs (by rw [hrun, fenceSignalRun_signals hmay]),
      fun hno => becomes_of_run (exec_fenceSignal src s) hs (by rw [hrun, fenceSignalRun_refused hno])⟩
  case signal =>
    have hsame := fence_signal_same s f v err
    refine ⟨congrArg Fence.value hsame, congrArg Fence.err hsame, fun g hg => fence_signal_ne s f v err hg, fun hchange hirq => ?raises,
      fun hlow herr => ?stays, signal_frame s f v err⟩
    case raises => exact if_pos ⟨Fence.signalled_ne hchange, hirq⟩
    case stays =>
      subst herr
      have hself := Fence.signalled_self (k := fence s f) hlow
      rw [signal_eq, hself]
      exact if_neg fun h => h.1 rfl

/-! ## Waits (R254, R272) -/

theorem exec_fenceWait (src : Src) (s : State) : exec (.fenceWait src) s = flows s fun s => dispatch s src 9 fenceWaitRun := rfl

theorem exec_fenceWaitSatisfied (src : Src) (s : State) :
    exec (.fenceWaitSatisfied src) s = flows s fun s => withCmd s (waitOf s src) fenceWaitTry := rfl

theorem reached_iff {s : State} {f : Nat} {v : DWord} : reached s f v = true ↔ v.toNat ≤ (fence s f).value.toNat := by simp [reached]

section
variable {s : State} {c : Cmd}

theorem fenceWaitRun_tries (h : mayFence s (cmdQueue s c) (opB18 c.slot) = true) : fenceWaitRun s c = fenceWaitTry s c := if_pos h

theorem fenceWaitRun_refused (h : mayFence s (cmdQueue s c) (opB18 c.slot) = false) : fenceWaitRun s c = complete s c.uid .priv :=
  if_neg (ne_true_of_eq_false h)

theorem fenceWaitTry_completes (hst : (queue s (cmdQueue s c)).st ≠ .retiring)
    (hreached : reached s (opB18 c.slot) (BitVec.ofNat 64 (op10 c.slot)) = true) :
    fenceWaitTry s c = complete s c.uid (if (fence s (opB18 c.slot)).err then .fenceErr else .ok) := if_pos ⟨hst, hreached⟩

/-- A wait goes on while its fence is short of its value, and in a queue that is being destroyed. -/
theorem fenceWaitTry_waits (h : reached s (opB18 c.slot) (BitVec.ofNat 64 (op10 c.slot)) = false ∨ (queue s (cmdQueue s c)).st = .retiring) :
    fenceWaitTry s c = s :=
  if_neg fun ⟨hst, hreached⟩ => h.elim (ne_false_of_eq_true hreached) hst

/-- The wait that is found has been reached. -/
theorem reached_of_waitOf {src : Src} (h : waitOf s src = some c) : reached s (opB18 c.slot) (BitVec.ofNat 64 (op10 c.slot)) = true := by
  have hfound := List.find?_some h
  rw [Bool.and_eq_true] at hfound
  exact hfound.2

/-- A queue with a FENCE_WAIT outstanding dispatches nothing. -/
theorem mayDispatch_behind_wait {q : QIx} (hc : c ∈ s.cmds) (hsrc : c.src = .queue q) (hop : c.op = 9) (f : Fetched) :
    mayDispatch s q.val f = false := by
  have hmine : c ∈ cmdsOf s q.val := List.mem_filter.mpr ⟨hc, by simp [hsrc]⟩
  have hwaits : (cmdsOf s q.val).any (fun c => c.op == 9) = true := List.any_eq_true.mpr ⟨c, hmine, by simp [hop]⟩
  simp [mayDispatch, hwaits]

end

/-- An error flag that is set stays set. -/
theorem err_signal {s : State} {f : Nat} (h : (fence s f).err = true) (g : Nat) (v : DWord) (err : Bool) :
    (fence (signal s g v err) f).err = true := by
  by_cases hg : g = f
  · subst hg
    rw [fence_signal_same, Fence.signalled, h, Bool.true_or]
  · rw [fence_signal_ne s g v err hg, h]

/-- Settles O34: the command and its satisfaction by the two cases of the wait. -/
theorem fenceWaits : Obligations.FenceWaits := by
  unfold Obligations.FenceWaits
  refine ⟨fun s t src c ⟨hs, htake, hfree⟩ hmay => ?dispatched, fun s t src c ⟨hs, htake, hfree⟩ hno => ?refused,
    fun s src c hs hwait => ?satisfied, fun s src hs hnone => ?unsatisfied, fun s q f c hc hsrc hop => mayDispatch_behind_wait hc hsrc hop f,
    fun s f g v err herr => err_signal herr g v err⟩
  case dispatched =>
    have hrun := (dispatch_of_take htake hfree fenceWaitRun).trans (congrArg (behind src) (fenceWaitRun_tries hmay))
    refine ⟨fun hvalue hst => becomes_of_run (exec_fenceWait src s) hs ?_, fun hwaits => becomes_of_run (exec_fenceWait src s) hs ?_⟩
    · rw [hrun, fenceWaitTry_completes hst (reached_iff.mpr (by rwa [BitVec.toNat_ofNat]))]
    · rw [hrun, fenceWaitTry_waits (hwaits.imp_left fun hlow => decide_eq_false (by rw [BitVec.toNat_ofNat]; exact hlow.not_ge))]
  case refused =>
    exact becomes_of_run (exec_fenceWait src s) hs (by rw [dispatch_of_take htake hfree fenceWaitRun, fenceWaitRun_refused hno])
  case satisfied =>
    exact ⟨fun hst => becomes_of_run (exec_fenceWaitSatisfied src s) hs (by rw [hwait]; exact fenceWaitTry_completes hst (reached_of_waitOf hwait)),
      fun hst => exec_of_run_self (exec_fenceWaitSatisfied src s) hs (by rw [hwait]; exact fenceWaitTry_waits (.inr hst))⟩
  case unsatisfied => exact exec_of_run_self (exec_fenceWaitSatisfied src s) hs (by rw [hnone]; rfl)

/-! ## One queue written over again -/

/-- Of two values set under one key the last stands. -/
theorem sset_sset_same {α : Type} (m : SMap α) (k : Nat) (v w : α) : sset (sset m k v) k w = sset m k w := by
  induction m with
  | nil => simp [sset]
  | cons p t ih =>
    by_cases hk : p.1 = k
    · simp [sset, hk]
    · by_cases hlt : k < p.1
      · simp [sset, hk, hlt]
      · simp [sset, hk, hlt, ih]

theorem setQueue_setQueue_same (s : State) (q : Nat) (v w : Queue) : setQueue (setQueue s q v) q w = setQueue s q w := by
  simp [setQueue, sset_sset_same]

theorem modQueue_modQueue_same (s : State) (q : Nat) (f g : Queue → Queue) :
    modQueue (modQueue s q f) q g = modQueue s q fun k => g (f k) := by
  simp [modQueue, setQueue_setQueue_same]

theorem queue_raiseVec (s : State) (v q : Nat) : queue (raiseVec s v) q = queue s q := by rw [raiseVec_frame]; rfl

/-! ## Engines that hold nothing of a queue -/

theorem dropTickets_without_cmds {s : State} (h : s.cmds = []) (q : Nat) : dropTickets s q = s := by simp [dropTickets, h]

theorem groups_without_hedges {s : State} (h : s.hedges = []) (k : Nat) : (hedge s k).groups = [] := by simp [hedge, h, sget]

theorem dropQueueGroups_without_hedges {s : State} (h : s.hedges = []) (q : Nat) : dropQueueGroups s q = s :=
  List.foldlRecOn (motive := fun t => t = s) _ _ rfl fun t ht k _ => by subst ht; simp [groups_without_hedges h]

theorem dropUnclosed_without_hedges {s : State} (h : s.hedges = []) (q : Nat) (keep : List Nat) : dropUnclosed s q keep = s :=
  List.foldlRecOn (motive := fun t => t = s) _ _ rfl fun t ht k _ => by subst ht; simp [groups_without_hedges h]

theorem runsOf_without_rxus {s : State} (h : s.rxus = []) (q : Nat) : runsOf s q = [] := by simp [runsOf, h]

theorem voidRuns_without_rxus {s : State} (h : s.rxus = []) (q : Nat) : voidRuns s q = [] := by simp [voidRuns, h]

theorem stopUnits_without_units {s : State} (hhedges : s.hedges = []) (harrays : s.arrays = []) (hrxus : s.rxus = []) (q : Nat) :
    stopUnits s q = s := by
  simp [stopUnits, stopOps, opsBegun, hedgesRunning, arraysLoading, hedge, sget, hhedges, harrays, hrxus]

theorem cmdsOf_without_cmds {s : State} (h : s.cmds = []) (q : Nat) : cmdsOf s q = [] := by simp [cmdsOf, h]

theorem completeAll_without_cmds {s : State} (h : s.cmds = []) (q : Nat) (st : St) : completeAll s q st = stopIndirects s q st := by
  have hcmds : cmdsOf (stopIndirects s q st) q = [] := cmdsOf_without_cmds h q
  simp [completeAll, hcmds]

theorem stopIndirects_without {s : State} {q : Nat} (h : (queue s q).indirects = []) (st : St) :
    stopIndirects s q st = setQueue s q (queue s q) := by
  have hsending : sendingInd (queue s q) = none := by simp [sendingInd, h]
  unfold stopIndirects modQueue
  dsimp only
  rw [hsending, h, List.map_nil, ← h]

/-! ## The end of an action (R263, R264, R266) -/

/-- A queue whose action is over and that is not to be enabled again. -/
def Queue.actionOver (k : Queue) : Queue :=
  { k with acting := .none, watch := 0, acked := false, st := if k.wasDis then .bound else k.st, wasDis := false }

theorem actionDone_disabled {s : State} {q : Nat} (hen : (queue s q).en = false) (hpend : (queue s q).pendOn = false) :
    actionDone s q = setQueue s q (queue s q).actionOver := by
  cases hwas : (queue s q).wasDis with
  | true => simp [actionDone, Queue.actionOver, hen, hpend, hwas]
  | false => simp [actionDone, Queue.actionOver, hen, hpend, hwas]

/-- The action of a queue that it has marked by `f` is over once its INDIRECTs, of which it has none, are stopped. -/
theorem actionDone_stopped {s : State} {q : Nat} {f : Queue → Queue} (hindirects : (f (queue s q)).indirects = [])
    (hen : (f (queue s q)).en = false) (hpend : (f (queue s q)).pendOn = false) (st : St) :
    actionDone (stopIndirects (modQueue s q f) q st) q = setQueue s q (f (queue s q)).actionOver := by
  rw [stopIndirects_without (by rw [queue_modQueue_same]; exact hindirects), queue_modQueue_same, modQueue, setQueue_setQueue_same,
    actionDone_disabled (by rw [queue_setQueue_same]; exact hen) (by rw [queue_setQueue_same]; exact hpend), queue_setQueue_same,
    setQueue_setQueue_same]

section
variable {s : State} {q : Nat} (hcmds : s.cmds = []) (hhedges : s.hedges = []) (hindirects : (queue s q).indirects = [])
  (hen : (queue s q).en = false) (hpend : (queue s q).pendOn = false)
include hcmds hhedges hindirects hen hpend

/-- A DRAIN with nothing outstanding ends the action. -/
theorem drainComplete_unengaged (hacting : (queue s q).acting = .drain) (hacked : (queue s q).acked = false) (hunits : unitRuns s q = false)
    (hsteps : s.steps = []) (hruns : runsOf s q = []) : drainComplete s q = setQueue s q (queue s q).actionOver := by
  have hacts : ¬((queue s q).acting ≠ .drain ∨ (queue s q).acked = true ∨ unitRuns s q = true) := by simp [hacting, hacked, hunits]
  unfold drainComplete
  rw [if_neg hacts]
  set s1 := modQueue s q fun k => { k with acked := true } with hs1
  have hruns1 : runsOf s1 q = [] := hruns
  have hsteps1 : s1.steps = [] := hsteps
  have hunclosed := dropUnclosed_without_hedges (s := s1) hhedges q []
  have hnone : cmdsOf (stopIndirects s1 q .drained) q = [] := cmdsOf_without_cmds hcmds q
  have hdrain : (queue (stopIndirects s1 q .drained) q).acting = .drain := by
    rw [stopIndirects, hs1, queue_modQueue_same, queue_modQueue_same]
    exact hacting
  simp only [hruns1, hsteps1, dropTickets_without_cmds (s := s1) hcmds, hunclosed, hnone, hdrain, List.filter_nil, List.map_nil,
    List.foldl_nil, List.isEmpty_nil, and_self, if_true]
  exact actionDone_stopped hindirects hen hpend .drained

/-- A KILL with nothing outstanding ends the action. -/
theorem killQueue_unengaged (harrays : s.arrays = []) (hrxus : s.rxus = []) : killQueue s q = setQueue s q (queue s q).actionOver := by
  unfold killQueue
  set s1 := modQueue s q fun k => { k with acting := .kill }
  simp only [stopUnits_without_units (s := s1) hhedges harrays hrxus, runsOf_without_rxus (s := s1) hrxus, List.foldl_nil,
    dropTickets_without_cmds (s := s1) hcmds, dropQueueGroups_without_hedges (s := s1) hhedges, completeAll_without_cmds (s := s1) hcmds]
  exact actionDone_stopped hindirects hen hpend .killed

end

/-! ## STALL_DECLARED (R262, R265) -/

theorem exec_stallDeclared (q : QIx) (s : State) : exec (.stallDeclared q) s = flows s fun s => stallRun s q.val := rfl

/-- A queue that a stall has stopped (R262). -/
def Queue.stalled (k : Queue) : Queue :=
  { k with stallDue := false, st := .stalled, wasDis := k.st == .disabling, en := false, window := [], watch := 0, acked := false }

/-- The state with queue q STALLED and its vector raised. -/
def stalled (s : State) (q : Nat) : State := raiseQueue (regOr (modQueue s q Queue.stalled) (qfeReg q 0x38) (2 ^ 10)) q

/-- The state with the stall of queue q no longer due. -/
def stallTaken (s : State) (q : Nat) : State := modQueue s q fun k => { k with stallDue := false }

section
variable (s : State) (q : Nat)

theorem queue_stalled : queue (stalled s q) q = (queue s q).stalled := by
  rw [stalled, raiseQueue, queue_raiseVec, (readFrom_regOr _ _ _).queue_eq, queue_modQueue_same]

theorem stallCfg_stalled : stallCfg (stalled s q) q = stallCfg s q := by rw [stallCfg, queue_stalled]; rfl

theorem stallCfg_stallTaken : stallCfg (stallTaken s q) q = stallCfg s q := by rw [stallCfg, stallTaken, queue_modQueue_same]; rfl

/-- The stalled queue's action: KILL, or DRAIN begins. -/
theorem enterStalled_stallTaken : enterStalled (stallTaken s q) q =
    if bitOf (stallCfg s q) 8 then killQueue (stalled s q) q
    else drainQueueRuns (stopMoverLoads (modQueue (stalled s q) q fun k => { k with acting := .drain }) q) q := by
  have hstalled : stalled s q = raiseQueue (regOr (modQueue (stallTaken s q) q fun k =>
      { k with st := .stalled, wasDis := k.st == .disabling, en := false, window := [], watch := 0, acked := false })
      (qfeReg q 0x38) (2 ^ 10)) q := by
    rw [stallTaken, modQueue_modQueue_same]
    rfl
  rw [← stallCfg_stalled s q, hstalled]
  rfl

end

section
variable {s : State} {q : Nat}

/-- No stall is declared where none is due, where QUIET is short of the threshold, or while an action is in progress. -/
theorem stallRun_rests (h : (queue s q).stallDue = false ∨ (queue s q).quiet < stallThr s q ∨ (queue s q).acting ≠ .none) :
    stallRun s q = s := by
  refine if_pos ?_
  rcases h with h | h | h
  · exact .inl (by rw [h]; rfl)
  · exact .inr (.inl h)
  · exact .inr (.inr (.inl h))

theorem stallRun_declares (hdue : (queue s q).stallDue = true) (hthr : stallThr s q ≤ (queue s q).quiet) (hacting : (queue s q).acting = .none)
    (hst : (queue s q).st = .idle ∨ (queue s q).st = .active ∨ (queue s q).st = .disabling) :
    stallRun s q = (tryDetach (stallTaken s q) q).getD (enterStalled (stallTaken s q) q) := by
  have hruns : ¬((!(queue s q).stallDue) = true ∨ (queue s q).quiet < stallThr s q ∨ (queue s q).acting ≠ .none ∨
      (!((queue s q).st == .idle || (queue s q).st == .active || (queue s q).st == .disabling)) = true) := by
    rcases hst with h | h | h
    · simp [hdue, hthr.not_gt, hacting, h]
    · simp [hdue, hthr.not_gt, hacting, h]
    · simp [hdue, hthr.not_gt, hacting, h]
  unfold stallRun
  rw [if_neg hruns, ← stallTaken]
  dsimp only
  cases tryDetach (stallTaken s q) q with
  | none => rfl
  | some v => rfl

/-- Without DETACH among its settings a queue detaches nothing. -/
theorem tryDetach_off (h : bitOf (stallCfg s q) 9 = false) : tryDetach s q = none := by simp [tryDetach, h]

/-- What DETACH has done for a queue ends with DETACHED set and QUIET at 0. -/
theorem noteDetached_of_tryDetach {v : State} (h : tryDetach s q = some v) : ∃ u, v = noteDetached u q := by
  unfold tryDetach at h
  split at h
  next => cases h
  next =>
    dsimp only at h
    split at h
    next => exact ⟨_, (Option.some.inj h).symm⟩
    next =>
      split at h
      next => cases h
      next => exact ⟨_, (Option.some.inj h).symm⟩

end

theorem quiet_noteDetached (s : State) (q : Nat) : (queue (noteDetached s q) q).quiet = 0 := by rw [noteDetached, queue_modQueue_same]

theorem regBit_noteDetached (s : State) (q : Nat) : regBit (noteDetached s q) (qfeReg q 0x38) 12 = true :=
  regBit_regOr_same s (qfeReg q 0x38) (i := 12) (by decide)

/-- What a declared stall of queue q becomes. -/
theorem stallDeclared_becomes {s : State} {q : QIx} (hs : s.flowing) (hdue : (queue s q.val).stallDue = true)
    (hthr : stallThr s q.val ≤ (queue s q.val).quiet) (hacting : (queue s q.val).acting = .none)
    (hst : (queue s q.val).st = .idle ∨ (queue s q.val).st = .active ∨ (queue s q.val).st = .disabling) :
    becomes (.stallDeclared q) s ((tryDetach (stallTaken s q.val) q.val).getD (enterStalled (stallTaken s q.val) q.val)) :=
  becomes_of_run (exec_stallDeclared q s) hs (stallRun_declares hdue hthr hacting hst)

/-! ## DRAIN_QUEUE_COMPLETE and DRAIN_ESCALATION (R263, R266) -/

theorem exec_drainQueueComplete (q : QIx) (s : State) : exec (.drainQueueComplete q) s = flows s fun s => drainComplete s q.val := rfl

theorem exec_drainEscalation (q : QIx) (s : State) : exec (.drainEscalation q) s = flows s fun s => escalateRun s q.val := rfl

section
variable {s : State} {q : Nat}

theorem drainComplete_rests (h : (queue s q).acting ≠ .drain ∨ (queue s q).acked = true ∨ unitRuns s q = true) :
    drainComplete s q = s := if_pos h

theorem escalateRun_rests (h : (queue s q).acting ≠ .drain ∨ stallThr s q = 0 ∨ (queue s q).watch < stallThr s q) :
    escalateRun s q = s := if_pos h

theorem escalateRun_kills (hacting : (queue s q).acting = .drain) (hthr : 0 < stallThr s q) (hwatch : stallThr s q ≤ (queue s q).watch) :
    escalateRun s q = killQueue (regOr s (qfeReg q 0x38) (2 ^ 11)) q :=
  if_neg fun h => h.elim (fun h => h hacting) fun h => h.elim hthr.ne' hwatch.not_gt

end

/-! ## DESTROY_ACKS_DONE (R270 to R272) -/

theorem exec_destroyAcksDone (q : QIx) (s : State) : exec (.destroyAcksDone q) s = flows s fun s => destroyFinish s q.val := rfl

theorem rxus_writeMem (s : State) (q who a : Nat) (bs : List Byte) : (writeMem s q who a bs).1.rxus = s.rxus := by
  have hread {t : State} (h : ReadFrom s t) : t.rxus = s.rxus := by
    obtain ⟨_, _, _, _, _, _, rfl⟩ := h
    rfl
  by_cases hhost : isHost a = true
  · unfold writeMem
    simp only [hhost, if_true]
    split
    · rfl
    · cases hostSide s q (a % 2 ^ 63) bs.length true with
      | wait asked => rfl
      | refused => exact hread (readFrom_xlate s)
      | go pages => rfl
  · exact hread (deviceFrom_writeMem (Bool.not_eq_true _ ▸ hhost) s q who bs).1

theorem rxus_raiseVec (s : State) (v : Nat) : (raiseVec s v).rxus = s.rxus := by rw [raiseVec_frame]

theorem rxus_writeCompletion (s : State) (q user detail flags : Nat) (idx : Word) (st : St) (irq : Bool) :
    (writeCompletion s q user detail flags idx st irq).rxus = s.rxus := by
  have hwritten := rxus_writeMem s q 0xFC (cplBase s q + 32 * (idx.toNat % ringSlots s q)) (cplEntry user detail flags idx.toNat st q)
  unfold writeCompletion
  dsimp only
  split
  · exact (rxus_raiseVec _ _).trans hwritten
  · exact hwritten

theorem rxus_cancelSlot (s : State) (q : Nat) (x : Word × List Byte) : (cancelSlot s q x).rxus = s.rxus :=
  rxus_writeCompletion s q _ _ _ _ _ _

theorem rxus_signal (s : State) (f : Nat) (v : DWord) (err : Bool) : (signal s f v err).rxus = s.rxus := by rw [signal_frame]

section
variable {s : State} {q : Nat}

theorem slotsAt_single {a : Nat} {b : List Byte} (h : readMem s q 0xFC a 64 = (s, { bytes := b })) : slotsAt s q [a] = (s, [b]) := by
  simp [slotsAt, h, poison_bytes]

theorem unsentBuffer_without {k : Queue} (h : k.indirects = []) : unsentBuffer k = [] := by simp [unsentBuffer, sendingInd, h]

/-- Without an INDIRECT the slots published and not dispatched are those from CI to PI. -/
theorem unsentIndices_without {k : Queue} (h : k.indirects = []) :
    unsentIndices k = (List.range (k.pi - k.ci).toNat).map fun i => k.ci + BitVec.ofNat 32 i := by
  simp [unsentIndices, sendingInd, h]

theorem unsentIndices_nil {k : Queue} (h : k.indirects = []) (heq : k.pi = k.ci) : unsentIndices k = [] := by
  simp [unsentIndices_without h, heq]

theorem unsentIndices_single {k : Queue} (h : k.indirects = []) (heq : k.pi = k.ci + 1) : unsentIndices k = [k.ci] := by
  simp [unsentIndices_without h, heq]

end

/-- The state with the slots published at indices `ixs` cancelled, and the queue's INDIRECTs stopped (R272). -/
def slotsCancelled (s : State) (q : Nat) (ixs : List Word) (slots : List (List Byte)) : State :=
  (List.zip ixs slots).foldl (fun s x => cancelSlot s q x) (stopIndirects s q .cancelled)

/-- The state with the fences signalled with their error flag, unless NO_FENCE_ERR asks for none (R271). -/
def fencesFailed (s : State) (noFenceErr : Bool) (fs : List (Nat × DWord)) : State :=
  if noFenceErr then s else fs.foldl (fun s f => signal s f.1 f.2 true) s

theorem rxus_slotsCancelled (s : State) (q : Nat) (ixs : List Word) (slots : List (List Byte)) :
    (slotsCancelled s q ixs slots).rxus = s.rxus :=
  have hstopped : (stopIndirects s q .cancelled).rxus = s.rxus := rfl
  List.foldlRecOn (motive := fun t => t.rxus = s.rxus) _ _ hstopped fun t ht x _ => (rxus_cancelSlot t q x).trans ht

theorem rxus_fencesFailed (s : State) (noFenceErr : Bool) (fs : List (Nat × DWord)) : (fencesFailed s noFenceErr fs).rxus = s.rxus := by
  unfold fencesFailed
  split
  · rfl
  · exact List.foldlRecOn (motive := fun t => t.rxus = s.rxus) fs _ rfl fun t ht x _ => (rxus_signal t x.1 x.2 true).trans ht

/-- A destroyed queue is FREE. -/
def destroyed (s : State) (q : Nat) : State := setQueue s q {}

/-- The QUEUE_DESTROY behind a destroy completes. -/
def originDone (s : State) (origin : Option Nat) : State := origin.elim s fun u => complete s u .ok

section
variable {s : State} {q : Nat}

theorem destroyFinish_rests (h : (queue s q).acting ≠ .destroy ∨ unitRuns s q = true) : destroyFinish s q = s := if_pos h

variable (hacting : (queue s q).acting = .destroy) (hunits : unitRuns s q = false) (hcmds : s.cmds = []) (hhedges : s.hedges = [])
  (hrxus : s.rxus = []) (hindirects : (queue s q).indirects = []) (hrec : isRecord s q = false)
include hacting hunits hcmds hhedges hrxus hindirects hrec

/-- The end of a destroy with nothing outstanding, where the reads of its published slots leave the state. -/
theorem destroyFinish_unengaged {slots : List (List Byte)}
    (hslots : slotsAt s q ((unsentIndices (queue s q)).map (slotAddr s q)) = (s, slots)) : destroyFinish s q =
      originDone (destroyed (fencesFailed (slotsCancelled s q (unsentIndices (queue s q)) slots) (queue s q).noFenceErr
        (fenceSlots s q false slots)) q) (queue s q).origin := by
  have hacts : ¬((queue s q).acting ≠ .destroy ∨ unitRuns s q = true) := by simp [hacting, hunits]
  have hbuffer : slotsAt s q (unsentBuffer (queue s q)) = (s, []) := by rw [unsentBuffer_without hindirects]; rfl
  have hfences : fenceSlots s q false slots ++ fenceSlots s q true [] = fenceSlots s q false slots := List.append_nil _
  have hvoid (ixs : List Word) (b : Bool) (fs : List (Nat × DWord)) : voidRuns (fencesFailed (slotsCancelled s q ixs slots) b fs) q = [] :=
    voidRuns_without_rxus (by rw [rxus_fencesFailed, rxus_slotsCancelled, hrxus]) q
  unfold destroyFinish
  rw [if_neg hacts]
  simp only [hrec, Bool.false_eq_true, if_false, hslots, hbuffer, hfences, dropTickets_without_cmds hcmds,
    dropQueueGroups_without_hedges hhedges, completeAll_without_cmds hcmds]
  rw [← slotsCancelled, ← fencesFailed, hvoid]
  cases (queue s q).origin with
  | none => rfl
  | some u => rfl

/-- An emptied queue is FREE at once. -/
theorem destroyFinish_emptied (hindex : (queue s q).pi = (queue s q).ci) :
    destroyFinish s q = originDone (destroyed s q) (queue s q).origin := by
  have hnone := unsentIndices_nil hindirects hindex
  rw [destroyFinish_unengaged hacting hunits hcmds hhedges hrxus hindirects hrec (slots := []) (by rw [hnone]; rfl), hnone]
  have hfree : destroyed (fencesFailed (slotsCancelled s q [] []) (queue s q).noFenceErr (fenceSlots s q false [])) q = destroyed s q := by
    have hfences : fencesFailed (slotsCancelled s q [] []) (queue s q).noFenceErr (fenceSlots s q false []) = slotsCancelled s q [] [] := ite_self _
    rw [hfences, destroyed, slotsCancelled, List.zip_nil_left, List.foldl_nil, stopIndirects_without hindirects, setQueue_setQueue_same, destroyed]
  rw [hfree]

/-- One published signal that the queue may make: its slot is cancelled, and its fence signalled with the error flag. -/
theorem destroyFinish_signals {b : List Byte} (hindex : (queue s q).pi = (queue s q).ci + 1) (horigin : (queue s q).origin = none)
    (herr : (queue s q).noFenceErr = false) (hread : readMem s q 0xFC (slotAddr s q (queue s q).ci) 64 = (s, { bytes := b }))
    (hlen : b.length = 64) (hop : slotOp b = 8) (hok : slotCheck s q false b = .ok) (hmay : mayFence s q (leAt b 0x18 2) = true) :
    destroyFinish s q = setQueue (signal (cancelSlot (stopIndirects s q .cancelled) q ((queue s q).ci, b))
      (leAt b 0x18 2) (BitVec.ofNat 64 (leAt b 0x10 8)) true) q {} := by
  have hone := unsentIndices_single hindirects hindex
  have hfence : fenceSlots s q false [b] = [(leAt b 0x18 2, BitVec.ofNat 64 (leAt b 0x10 8))] := by simp [fenceSlots, hlen, hop, hok, hmay]
  rw [destroyFinish_unengaged hacting hunits hcmds hhedges hrxus hindirects hrec (slots := [b]) (by rw [hone]; exact slotsAt_single hread),
    hone, hfence, horigin, herr]
  rfl

end

/-! ## DESTROY_ACK_TIMEOUT (R273) -/

theorem exec_destroyAckTimeout (q : QIx) (s : State) : exec (.destroyAckTimeout q) s = flows s fun s => destroyTimeout s q.val := rfl

section
variable {s : State} {q : Nat}

theorem destroyTimeout_rests
    (h : (queue s q).acting ≠ .destroy ∨ stallThr s q = 0 ∨ (queue s q).watch < stallThr s q ∨ unitRuns s q = false) :
    destroyTimeout s q = s := by
  refine if_pos (h.imp_right fun h => h.imp_right fun h => h.imp_right fun h => ?_)
  rw [h]
  rfl

theorem destroyTimeout_resets (hacting : (queue s q).acting = .destroy) (hthr : 0 < stallThr s q) (hwatch : stallThr s q ≤ (queue s q).watch)
    (hunits : unitRuns s q = true) : destroyTimeout s q =
      (voidRuns (stopUnits (regOr s (qfeReg q 0x38) (2 ^ 11)) q) q).foldl (fun s x => closeRunDone s x.1 x.2)
        (stopUnits (regOr s (qfeReg q 0x38) (2 ^ 11)) q) :=
  if_neg (by simp [hacting, hthr.ne', hwatch.not_gt, hunits])

end

/-- Settles O60: each event by the equation of its run function, where nothing is left of the queue's work and otherwise. -/
theorem stallsAndDestroys : Obligations.StallsAndDestroys := by
  unfold Obligations.StallsAndDestroys
  refine ⟨fun s q hs => ⟨fun h => exec_of_run_self (exec_stallDeclared q s) hs (stallRun_rests h),
      fun v hdue hthr hacting hst hoff hv => ?stalls, fun v hv hdue hthr hacting hst => ?detaches,
      fun h => exec_of_run_self (exec_drainQueueComplete q s) hs (drainComplete_rests h),
      fun hacting hacked hunits hcmds hsteps hhedges hruns hindirects hen hpend => ?drains,
      fun h => exec_of_run_self (exec_drainEscalation q s) hs (escalateRun_rests h), fun hacting hthr hwatch => ?escalates⟩,
    fun s q hs => ⟨fun h => exec_of_run_self (exec_destroyAcksDone q s) hs (destroyFinish_rests h),
      fun hacting hunits hcmds hhedges hrxus hindirects hrec => ⟨fun hindex => ?frees,
        fun b hindex horigin herr hread hlen hop hok hmay => ?cancels⟩,
      fun h => exec_of_run_self (exec_destroyAckTimeout q s) hs (destroyTimeout_rests h), fun hacting hthr hwatch hunits => ?timesOut⟩⟩
  case stalls =>
    obtain rfl : v = stalled s q.val := hv
    have hbecomes := stallDeclared_becomes hs hdue hthr hacting hst
    rw [tryDetach_off (by rw [stallCfg_stallTaken]; exact hoff), Option.getD_none, enterStalled_stallTaken] at hbecomes
    refine ⟨fun hdrain => ?_, fun hkill => ?_⟩
    · rw [if_neg (ne_true_of_eq_false hdrain)] at hbecomes; exact hbecomes
    · rw [if_pos hkill] at hbecomes; exact hbecomes
  case detaches =>
    obtain ⟨u, rfl⟩ := noteDetached_of_tryDetach hv
    have hbecomes := stallDeclared_becomes hs hdue hthr hacting (hst.imp_right .inl)
    have hdetach : tryDetach (stallTaken s q.val) q.val = some (noteDetached u q.val) := hv
    rw [hdetach] at hbecomes
    exact ⟨hbecomes, quiet_noteDetached u q.val, regBit_noteDetached u q.val⟩
  case drains =>
    refine answers_of_run (exec_drainQueueComplete q s) hs
      (drainComplete_unengaged hcmds hhedges hindirects hen hpend hacting hacked hunits hsteps hruns) hs.1 fun hif => ?_
    exact ⟨queue_setQueue_same s q.val _, fun r hr => queue_setQueue_ne s q.val r _ hr, rfl⟩
  case escalates =>
    have hrun := escalateRun_kills hacting hthr hwatch
    refine ⟨becomes_of_run (exec_drainEscalation q s) hs hrun, fun hcmds hhedges harrays hrxus hindirects hen hpend hwas => ?_⟩
    have hbit := regBit_regOr_same s (qfeReg q.val 0x38) (i := 11) (by decide)
    rw [regOr_of_ne_zero s _ (by decide)] at hrun hbit
    have hkill := hrun.trans (killQueue_unengaged hcmds hhedges hindirects hen hpend harrays hrxus)
    refine answers_of_run (exec_drainEscalation q s) hs hkill hs.1 fun hif => ?_
    rw [queue_withHif, queue_setQueue_same]
    exact ⟨rfl, rfl, if_neg (ne_true_of_eq_false hwas), rfl, rfl, hbit, fun r hr => queue_setQueue_ne _ q.val r _ hr, rfl⟩
  case frees =>
    have hrun := destroyFinish_emptied hacting hunits hcmds hhedges hrxus hindirects hrec hindex
    refine ⟨fun horigin => ?_, fun u horigin => ⟨destroyed s q.val, becomes_of_run (exec_destroyAcksDone q s) hs (by rw [hrun, horigin]; rfl),
      queue_setQueue_same s q.val _, fun r hr => queue_setQueue_ne s q.val r _ hr, rfl⟩⟩
    rw [horigin] at hrun
    exact answers_of_run (exec_destroyAcksDone q s) hs hrun hs.1 fun hif =>
      ⟨queue_setQueue_same s q.val _, fun r hr => queue_setQueue_ne s q.val r _ hr, rfl⟩
  case cancels =>
    exact becomes_of_run (exec_destroyAcksDone q s) hs
      (destroyFinish_signals hacting hunits hcmds hhedges hrxus hindirects hrec hindex horigin herr hread hlen hop hok hmay)
  case timesOut =>
    exact ⟨_, rfl, becomes_of_run (exec_destroyAckTimeout q s) hs (destroyTimeout_resets hacting hthr hwatch hunits)⟩

end Sys2Proof.Machine
end

section
/-! The proofs of the statements on the block as a whole: the step (O1, O2), that every command answers (O3), what every step keeps (O4),
a rising interrupt source (O6), and the engines at rest (O7). -/

namespace Sys2Proof.Machine

/-! ## The step (log 4) -/

theorem step_of_cons {s : State} {i : Instr} {rest : List Instr} (h : s.pending = i :: rest) : step s = exec i { s with pending := rest } := by
  simp only [step, h]

theorem step_of_nil {s : State} (h : s.pending = []) : step s = idle s := by
  simp only [step, h]

/-- Settles O1: it is the step's equation for a queue that is not empty. -/
theorem stepTakesTheFrontCommand : Obligations.StepTakesTheFrontCommand := by
  unfold Obligations.StepTakesTheFrontCommand
  exact fun s i rest h => step_of_cons h

theorem coresBusy_iff {s : State} : coresBusy s = true ↔ ∃ u, u < 4 ∧ runningOn s u ≠ none := by
  simp [coresBusy, Option.isSome_iff_ne_none]

theorem idle_busy {s : State} (hserved : served s = true) (hbusy : coresBusy s = true) : idle s = done s (coresTurn s) := by
  simp [idle, hserved, hbusy]

theorem idle_rests {s : State} (h : served s = false ∨ coresBusy s = false) : idle s = .next s := by
  rcases h with h | h <;> simp [idle, h]

/-- Settles O2, by the two cases of an idle block. -/
theorem idleStep : Obligations.IdleStep := by
  unfold Obligations.IdleStep
  intro s hnil
  rw [step_of_nil hnil]
  refine ⟨fun hnone => ?free, fun hoff => idle_rests (.inl hoff), fun u hu hrun hserved => ?busy⟩
  case free =>
    refine idle_rests (.inr (Bool.eq_false_iff.mpr fun hbusy => ?_))
    obtain ⟨u, hu, hrun⟩ := coresBusy_iff.mp hbusy
    exact hrun (hnone u hu)
  case busy => exact idle_busy hserved (coresBusy_iff.mpr ⟨u, hu, hrun⟩)

/-! ## Commands that name nothing (R408, log 8) -/

/-- Every command answers a next state: the end of a command is one. -/
theorem exec_answers (i : Instr) (s : State) : ∃ t, exec i s = .next t := by
  obtain ⟨u, hu⟩ := exec_done i s
  exact ⟨_, hu⟩

theorem checked_malformed {i : Instr} {s : State} {o : Host.Outcome State Fault Refusal} (h : i.wellFormed = false) : checked i s o = .next s := by
  rw [checked, h]
  exact done_self s

theorem bar0_beyond {s : State} {off : Nat} (h : 0x2000000 ≤ off) (isRead : Bool) (f : State → State) : done s (bar0 s off isRead f) = .next s := by
  rw [bar0, if_pos h, done_self]

/-- Settles O3: every command ends, and one that names nothing ends as it began. -/
theorem wellFormedCommandsAnswer : Obligations.WellFormedCommandsAnswer := by
  unfold Obligations.WellFormedCommandsAnswer
  refine ⟨exec_answers, fun s p f hf => ?flits, fun s h tile htile => ?tile, fun s r hr => ?store, fun s g hg => ?pass, fun s off v hoff => ?bar0⟩
  case flits =>
    exact ⟨checked_malformed hf, checked_malformed hf, checked_malformed hf, checked_malformed hf,
      checked_malformed hf, checked_malformed hf, checked_malformed hf, checked_malformed hf⟩
  case tile => exact checked_malformed (decide_eq_false htile.not_gt)
  case store => exact checked_malformed hr
  case pass => exact checked_malformed (beq_false_of_ne hg)
  case bar0 => exact ⟨bar0_beyond hoff true _, bar0_beyond hoff true _, bar0_beyond hoff false _⟩

/-! ## What every step keeps (log 4) -/

theorem finish_hostWait (s t : State) : (finish s t).hostWait = t.hostWait := by rw [finish_frame]

/-- A command that met a host access to wait for leaves the state before it, which waited for none. -/
theorem settle_rested {s : State} (h : s.rested) (t : State) : (settle s t).rested := by
  cases hw : t.hostWait with
  | false => rw [settle_of_not_wait s t hw]; exact hw
  | true => rw [settle_of_wait s t hw]; exact h

/-- The end of a command between two accesses to the host is between two accesses. -/
theorem finish_settle_rested {s : State} (h : s.rested) (t : State) : (finish s (settle s t)).rested :=
  (finish_hostWait s (settle s t)).trans (settle_rested h t)

/-- Settles O4: every command ends as `done` says, and an idle step changes nothing or ends so. -/
theorem stepsStayRested : Obligations.StepsStayRested := by
  unfold Obligations.StepsStayRested
  intro s t hs hstep
  cases hp : s.pending with
  | nil =>
    rw [step_of_nil hp, idle] at hstep
    split at hstep
    · exact Host.Outcome.next.inj hstep ▸ finish_settle_rested hs (coresTurn s)
    · exact Host.Outcome.next.inj hstep ▸ hs
  | cons i rest =>
    rw [step_of_cons hp] at hstep
    obtain ⟨u, rfl⟩ := exec_next hstep
    exact finish_settle_rested (s := { s with pending := rest }) hs u

/-! ## A rising interrupt source (R415, R436) -/

/-- The end of a command raises the device vector exactly where an unmasked source rose with the core out of OFF and RESET. -/
theorem finish_cases (s t : State) :
    finish s t = t ∧ (t.glb.dev = .off ∨ t.glb.dev = .reset ∨ irqActive t &&& (0x7FF - irqActive s) = 0) ∨ finish s t = raiseDevice t := by
  unfold finish
  split
  · exact .inl ⟨rfl, by tauto⟩
  · split
    · exact .inl ⟨rfl, by tauto⟩
    · exact .inr rfl

/-- A raised vector is pending, or its message is the last one sent. -/
theorem raiseVec_pends_or_sends (s : State) (v : Nat) : v ∈ (raiseVec s v).hif.pba ∨
    (raiseVec s v).hif.msgs = s.hif.msgs ++ [((sget ({} : MsixEntry) s.hif.table v).addr, (sget ({} : MsixEntry) s.hif.table v).data)] := by
  unfold raiseVec
  dsimp only
  split
  · left
    split
    · rename_i h
      exact List.contains_iff_mem.mp h
    · exact List.mem_append_right _ (List.mem_singleton_self v)
  · exact .inr rfl

theorem raiseVec_table (s : State) (v : Nat) : (raiseVec s v).hif.table = s.hif.table := by rw [raiseVec_frame]

theorem regField_raiseVec (s : State) (v o hi lo : Nat) : regField (raiseVec s v) o hi lo = regField s o hi lo := by rw [raiseVec_frame]; rfl

/-- Settles O6: every command ends with `finish`, which raises the device vector where an unmasked source rose. -/
theorem risingSourcesRaiseTheVector : Obligations.RisingSourcesRaiseTheVector := by
  unfold Obligations.RisingSourcesRaiseTheVector
  intro i s t hexec hoff hreset hrise
  obtain ⟨u, rfl⟩ := exec_next hexec
  rcases finish_cases s (settle s u) with ⟨hsame, hwhy⟩ | hraised
  · rw [hsame] at hoff hreset hrise
    tauto
  · rw [hraised, raiseDevice, regField_raiseVec, raiseVec_table]
    exact (raiseVec_pends_or_sends _ _).imp_right fun h => ⟨_, h⟩

/-! ## The engines at rest (Table 15-1, R359) -/

/-- An event of the engines acts only where the flows run, behind the check of its operands where it has one. -/
theorem exec_of_engineEvent {i : Instr} (h : engineEvent i = true) (s : State) : ∃ u,
    exec i s = done s (if served s then u else s) ∨ exec i s = checked i s (done s (if served s then u else s)) := by
  cases i
  case tileReplay | sampleCapture => exact ⟨_, .inr rfl⟩
  case nop | copy | matrix | vector | fenceSignal | fenceWait | patch | load | step | rotate | slotRun | indirect | enqueue | queueBind |
    queueDestroy | queueCtl | restructure | queueVisit | fenceWaitSatisfied | enqueueCopy | dbPiWrite | hedgeRejoined | hedgeStepStart |
    hedgeStepEnd | arrayLoadStart | arrayLoadDone | groupOpenGranted | poolBorrowGranted | multicastRecordSend | skidToSlot | outputClose |
    topkMerge | rotationClaimGranted | stagingFetchDone | roundMulticastStart | waitMarkReleased | dmvBurstDone | depFenceReleased |
    captureWindowClose | deadlineExpiry | slotStatusWrite | linkDown | linkReturn | agcWindowEnd | preambleDetection | freezeRelease |
    maxHoldExpiry | settleExpiry | gainFrameStart | gainFrameDone | eopIssue | eopWait | eopPoll | eopMove | eopMwait | eopEnq | wfi | end_ | yield |
    note | uModeException | ticketComplete | detect | fft | trellis | extract | calibrate | release | engineOpDone | stallDeclared |
    drainQueueComplete | drainEscalation | destroyAcksDone | destroyAckTimeout | tokenClaimGranted => exact ⟨_, .inl rfl⟩
  all_goals exact (Bool.false_ne_true h).elim

/-- Settles O7, an event with a check and one without. -/
theorem enginesRestOutsideRunning : Obligations.EnginesRestOutsideRunning := by
  unfold Obligations.EnginesRestOutsideRunning
  intro i s hevent hserved
  obtain ⟨u, hu⟩ := exec_of_engineEvent hevent s
  have hrest : done s (if served s then u else s) = .next s := by rw [if_neg (ne_true_of_eq_false hserved), done_self]
  rcases hu with hu | hu
  · rw [hu, hrest]
  · rw [hu, hrest, checked, done_self, ite_self]

end Sys2Proof.Machine
end

section
/-! The proofs of the family `12_sequencers.md`: the mailbox channels (O24), the engine-op instructions of the context that runs (O57), and the
services of ECALL with the exception of a context (O58). -/

namespace Sys2Proof.Machine

/-! ## The instruction of the context that runs (R290) -/

section
variable {s : State} {u : UIx}

theorem onCore_none (h : runningOn s u.val = none) (f : State → LIx → Ctx → State) : onCore s u f = s := by
  simp only [onCore, h]

theorem onCore_running {c : LIx} (h : runningOn s u.val = some c.val) (f : State → LIx → Ctx → State) :
    onCore s u f = f s c (ctx s u.val c.val) := by
  simp only [onCore, h, c.isLt, dif_pos]

end

/-! ## A unit's contexts beside its streams -/

/-- The receiver units alone have changed. -/
def UnitsFrom (s t : State) : Prop := t = { s with rxus := t.rxus }

theorem UnitsFrom.trans {s t v : State} (hst : UnitsFrom s t) (htv : UnitsFrom t v) : UnitsFrom s v := by
  rw [UnitsFrom, htv, hst]

theorem UnitsFrom.rested {s t : State} (h : UnitsFrom s t) (hs : s.rested) : t.rested := by
  rw [h]
  exact hs

/-- Beside the units the end of a command changes the interrupt messages alone. -/
theorem UnitsFrom.withHif {s t : State} (h : UnitsFrom s t) (hif : Hif) : { t with hif := hif } = { s with rxus := t.rxus, hif := hif } :=
  congrArg (fun v : State => { v with hif := hif }) h

section
variable (s : State) (u : Nat)

theorem unitsFrom_modRxu (f : Rxu → Rxu) : UnitsFrom s (modRxu s u f) := rfl

theorem unitsFrom_modCtx (c : Nat) (f : Ctx → Ctx) : UnitsFrom s (modCtx s u c f) := unitsFrom_modRxu s u _

theorem unitsFrom_modTask (l : Nat) (f : Task → Task) : UnitsFrom s (modTask s u l f) := rfl

theorem unitsFrom_retire (c : Nat) (f : Ctx → Ctx) : UnitsFrom s (retire s u c f) := (unitsFrom_modCtx s u c _).trans (unitsFrom_modRxu _ u _)

theorem rxu_modCtx (c : Nat) (f : Ctx → Ctx) :
    rxu (modCtx s u c f) u = { rxu s u with ctxs := sset (rxu s u).ctxs c (f (ctx s u c)) } := by
  rw [modCtx, rxu_modRxu_same]

theorem rxu_modStream (l : Nat) (f : Stream → Stream) :
    rxu (modStream s u l f) u = { rxu s u with streams := sset (rxu s u).streams l (f (stream s u l)) } := by
  rw [modStream, rxu_modRxu_same]

theorem rxu_regOr (o m : Nat) : rxu (regOr s o m) u = rxu s u := by rw [regOr_frame]; rfl

theorem rxu_retire (c : Nat) (f : Ctx → Ctx) : rxu (retire s u c f) u = { rxu s u with
    ctxs := sset (rxu s u).ctxs c { f (ctx s u c) with pc := (f (ctx s u c)).pc + 4 }, retired := (rxu s u).retired + 1 } := by
  rw [retire, rxu_modRxu_same, rxu_modCtx]

@[simp] theorem ctx_retire_same (c : Nat) (f : Ctx → Ctx) :
    ctx (retire s u c f) u c = { f (ctx s u c) with pc := (f (ctx s u c)).pc + 4 } := by
  rw [ctx, retire_ctxs, sget_sset_same]

theorem ctx_modCtx_ne {c d : Nat} (h : c ≠ d) (f : Ctx → Ctx) : ctx (modCtx s u c f) u d = ctx s u d := by
  rw [ctx, rxu_modCtx_ctxs, sget_sset_ne {} (rxu s u).ctxs c d _ h, ctx]

theorem ctx_modStream (l c : Nat) (f : Stream → Stream) : ctx (modStream s u l f) u c = ctx s u c := by
  rw [ctx, rxu_modStream, ctx]

theorem ctx_modTask (l c : Nat) (f : Task → Task) : ctx (modTask s u l f) u c = ctx s u c := ctx_modStream s u l c _

theorem ctx_withHif (h : Hif) (c : Nat) : ctx { s with hif := h } u c = ctx s u c := rfl

theorem stream_modCtx (c l : Nat) (f : Ctx → Ctx) : stream (modCtx s u c f) u l = stream s u l := stream_modRxu_of_streams rfl l

theorem stream_retire (c l : Nat) (f : Ctx → Ctx) : stream (retire s u c f) u l = stream s u l := by
  rw [stream, rxu_retire]
  rfl

theorem tasks_modTask {l : Nat} {x : Task} {rest : List Task} (h : (stream s u l).tasks = x :: rest) (f : Task → Task) :
    (stream (modTask s u l f) u l).tasks = f x :: rest := by
  rw [modTask, stream_modStream_same, h]

end

/-! ## The next context in turn (R290) -/

/-- No context of the unit waits for its turn. -/
def NoneReady (s : State) (u : Nat) : Prop := ∀ x, x ∈ (rxu s u).ctxs → x.2.st ≠ .ready

section
variable {s : State} {u : Nat}

theorem NoneReady.of_ctxs {t : State} (h : NoneReady s u) (heq : (rxu t u).ctxs = (rxu s u).ctxs) : NoneReady t u := by
  unfold NoneReady
  rwa [heq]

/-- A context replaced by one that is not ready leaves none ready. -/
theorem NoneReady.of_sset {t : State} {c : Nat} {k : Ctx} (h : NoneReady s u) (heq : (rxu t u).ctxs = sset (rxu s u).ctxs c k)
    (hk : k.st ≠ .ready) : NoneReady t u := by
  intro x hx
  rw [heq] at hx
  rcases mem_sset hx with rfl | hx
  · exact hk
  · exact h x hx

theorem schedule_noneReady (h : NoneReady s u) : schedule s u = s := by
  have hready : (rxu s u).ctxs.filter (fun x => x.2.st == .ready) = [] :=
    List.filter_eq_nil_iff.mpr fun x hx => by simpa using h x hx
  have hnone : nextAfter (rxu s u).lastCtx [] = none := by unfold nextAfter; split <;> rfl
  simp [schedule, hready, hnone]

theorem schedule_next {d : Nat} (hidle : runningOn s u = none)
    (hnext : nextAfter (rxu s u).lastCtx (((rxu s u).ctxs.filter fun x => x.2.st == .ready).map (·.1)) = some d) :
    schedule s u = modRxu (modCtx s u d fun k => { k with st := .running }) u fun x => { x with lastCtx := some d } := by
  simp [schedule, hidle, hnext]

end

/-! ## WFI and the services of ECALL (R279, R291) -/

theorem exec_wfi (u : UIx) (s : State) : exec (.wfi u) s = flows s fun s => wfiRun s u := rfl
theorem exec_end (u : UIx) (s : State) : exec (.end_ u) s = flows s fun s => endRun s u := rfl
theorem exec_yield (u : UIx) (s : State) : exec (.yield u) s = flows s fun s => yieldRun s u := rfl
theorem exec_note (u : UIx) (s : State) : exec (.note u) s = flows s fun s => noteRun s u := rfl
theorem exec_uModeException (u : UIx) (cause : BitVec 8) (s : State) :
    exec (.uModeException u cause) s = flows s fun s => exceptionRun s u cause.toNat := rfl

/-- The fields of a task that a NOTE of `a0` sets (R291, Table 8-6). -/
def Task.noted (a0 : Nat) (t : Task) : Task :=
  if bitOf a0 2 then dropMessage { t with hdrFail := t.hdrFail || bitOf a0 0, tb := t.tb || bitOf a0 1 }
  else { t with hdrFail := t.hdrFail || bitOf a0 0, tb := t.tb || bitOf a0 1 }

theorem Task.noted_passed {a0 : Nat} (h : bitOf a0 0 = false) (t : Task) : t.noted a0 =
    { t with tb := t.tb || bitOf a0 1, dropped := t.dropped + b2n (bitOf a0 2), current := if bitOf a0 2 then none else t.current } := by
  unfold Task.noted
  cases bitOf a0 2 <;> simp [h, dropMessage, b2n]

theorem Task.noted_failed {a0 : Nat} (h : bitOf a0 0 = true) (t : Task) : (t.noted a0).hdrFail = true := by
  unfold Task.noted
  cases bitOf a0 2 <;> simp [h, dropMessage]

section
variable {s : State} {u l : Nat}

theorem tasks_latchAgc (s : State) (u l : Nat) : (stream (latchAgc s u l) u l).tasks = (stream s u l).tasks := by
  unfold latchAgc
  dsimp only
  split
  · rw [stream_modAgc_same]
  · split
    · rw [stream_modAgc_same]
    · rw [stream_queueGain, stream_modAgc_same]

/-- A released freeze leaves the tasks of its stream, and the loop is frozen no longer. -/
theorem stream_releaseFreeze (s : State) (u l : Nat) :
    (stream (releaseFreeze s u l) u l).tasks = (stream s u l).tasks ∧ (stream (releaseFreeze s u l) u l).agc.frozen = false := by
  cases hf : (stream s u l).agc.frozen with
  | true =>
    refine ⟨?_, (sameFreeze_releaseFreeze hf).frozen⟩
    rw [releaseFreeze_frozen hf, tasks_latchAgc, stream_modAgc_same]
  | false =>
    cases hl : (stream s u l).agc.lateFreeze with
    | true => rw [releaseFreeze_late hf hl, stream_modAgc_same]; exact ⟨rfl, hf⟩
    | false => rw [releaseFreeze_searching hf hl]; exact ⟨rfl, hf⟩

end

section
variable {s : State} {u : UIx} {c : LIx} (hrun : runningOn s u.val = some c.val)
include hrun

theorem yieldRun_running : yieldRun s u = schedule (retire s u.val c.val fun k => { k with st := .ready }) u.val := onCore_running hrun _

theorem noteRun_passed (h : bitOf (ctxReg (ctx s u.val c.val) 10).toNat 0 = false) : noteRun s u =
    retire (modTask s u.val c.val (Task.noted (ctxReg (ctx s u.val c.val) 10).toNat)) u.val c.val id :=
  (onCore_running hrun _).trans (congrArg (retire · u.val c.val id) (if_neg (ne_true_of_eq_false h)))

theorem noteRun_failed (h : bitOf (ctxReg (ctx s u.val c.val) 10).toNat 0 = true) : noteRun s u =
    retire (releaseFreeze (modTask s u.val c.val (Task.noted (ctxReg (ctx s u.val c.val) 10).toNat)) u.val c.val) u.val c.val id :=
  (onCore_running hrun _).trans (congrArg (retire · u.val c.val id) (if_pos h))

variable (hready : NoneReady s u.val)
include hready

theorem wfiRun_noneReady : wfiRun s u = modCtx s u.val c.val fun k => { k with st := .blocked .wfi } :=
  (onCore_running hrun _).trans (schedule_noneReady (hready.of_sset (rxu_modCtx_ctxs s u.val c.val _) (by simp)))

theorem endRun_noneReady : endRun s u =
    modTask (retire s u.val c.val fun k => { k with st := .none }) u.val c.val fun t => { t with ended := true } := by
  have hretired := hready.of_sset (retire_ctxs s u.val c.val fun k => { k with st := .none }) (by simp)
  exact (onCore_running hrun _).trans (schedule_noneReady (hretired.of_ctxs (by rw [modTask, rxu_modStream])))

end

/-! ## The exception of a context (R292) -/

/-- What an exception leaves before the context ends: the trap registers, the sticky bit of the core, and the task it ends. -/
def trapNoted (s : State) (u c cause : Nat) : State :=
  modTask (regOr (modRxu s u fun x => { x with lastTrap := BitVec.ofNat 32 (cause % 256 + c * 256), epc := (ctx s u c).pc })
    (mgtReg (0x4000 + 0x40 * coreId u)) (2 ^ 8)) u c fun t => { t with ended := true, bad := true }

section
variable (s : State) (u c cause : Nat)

theorem rxu_trapNoted : ∃ streams, rxu (trapNoted s u c cause) u = { rxu s u with
    lastTrap := BitVec.ofNat 32 (cause % 256 + c * 256), epc := (ctx s u c).pc, streams := streams } := by
  rw [trapNoted, modTask, rxu_modStream, rxu_regOr, rxu_modRxu_same]
  exact ⟨_, rfl⟩

theorem ctx_trapNoted (d : Nat) : ctx (trapNoted s u c cause) u d = ctx s u d := by
  obtain ⟨streams, h⟩ := rxu_trapNoted s u c cause
  rw [ctx, h]
  rfl

theorem tasks_trapNoted {x : Task} {rest : List Task} (h : (stream s u c).tasks = x :: rest) :
    (stream (trapNoted s u c cause) u c).tasks = { x with ended := true, bad := true } :: rest := by
  refine tasks_modTask _ u ?_ _
  rw [stream_regOr, stream_modRxu_of_streams rfl, h]

theorem regBit_trapNoted : regBit (trapNoted s u c cause) (mgtReg (0x4000 + 0x40 * coreId u)) 8 = true :=
  regBit_regOr_same _ _ (by decide)

theorem trapNoted_frame : trapNoted s u c cause = { s with rxus := (trapNoted s u c cause).rxus, regs := (trapNoted s u c cause).regs } := by
  rw [trapNoted, regOr_frame]
  rfl

theorem trapCtx_eq : trapCtx s u c cause = schedule (modCtx (trapNoted s u c cause) u c fun k => { k with st := .none }) u := rfl

variable {s u}

theorem trapCtx_noneReady (h : NoneReady s u) : trapCtx s u c cause = modCtx (trapNoted s u c cause) u c fun k => { k with st := .none } := by
  obtain ⟨streams, hrxu⟩ := rxu_trapNoted s u c cause
  have hnone : NoneReady (trapNoted s u c cause) u := h.of_ctxs (by rw [hrxu])
  rw [trapCtx_eq, schedule_noneReady (hnone.of_sset (rxu_modCtx_ctxs _ u c _) (by simp))]

end

/-- Settles O58: each service by the equation of its run function where no other context is ready, and the turn of the next one. -/
theorem contextServices : Obligations.ContextServices := by
  unfold Obligations.ContextServices
  refine ⟨fun s u hs hnone => ?idle, fun s u c k hs hrun hk hready => ?services, fun s u c k hs hctxs hst => ?only,
    fun s u c hs hrun => becomes_of_run (exec_yield u s) hs (yieldRun_running hrun), fun s u d hidle hnext => ?turn⟩
  case idle =>
    exact ⟨exec_of_run_self (exec_wfi u s) hs (onCore_none hnone _), exec_of_run_self (exec_end u s) hs (onCore_none hnone _),
      exec_of_run_self (exec_yield u s) hs (onCore_none hnone _), exec_of_run_self (exec_note u s) hs (onCore_none hnone _),
      fun cause => exec_of_run_self (exec_uModeException u cause s) hs (onCore_none hnone _)⟩
  case services =>
    subst hk
    refine ⟨exec_of_run (exec_wfi u s) hs (wfiRun_noneReady hrun hready) hs.1,
      fun x rest htasks => ⟨?_, fun a0 ha0 hpassed => ?_, fun hfailed => ?_, fun cause => ?_⟩⟩
    · have hunits := (unitsFrom_retire s u.val c.val fun k => { k with st := .none }).trans
        (unitsFrom_modTask _ u.val c.val fun t => { t with ended := true })
      refine answers_of_run (exec_end u s) hs (endRun_noneReady hrun hready) (hunits.rested hs.1) fun h => ?_
      rw [ctx_withHif, ctx_modTask, ctx_retire_same, stream_withHif, tasks_modTask _ u.val ((congrArg _ (stream_retire s u.val c.val c.val _)).trans htasks)]
      exact ⟨rfl, rfl, rfl, hunits.withHif h⟩
    · subst ha0
      have hunits := (unitsFrom_modTask s u.val c.val (Task.noted (ctxReg (ctx s u.val c.val) 10).toNat)).trans (unitsFrom_retire _ u.val c.val id)
      refine answers_of_run (exec_note u s) hs (noteRun_passed hrun hpassed) (hunits.rested hs.1) fun h => ?_
      rw [ctx_withHif (retire _ _ _ _), ctx_retire_same, ctx_modTask, stream_withHif, stream_retire, tasks_modTask s u.val htasks, Task.noted_passed hpassed]
      exact ⟨rfl, rfl, hunits.withHif h⟩
    · have hloop := loopFrom_releaseFreeze (modTask s u.val c.val (Task.noted (ctxReg (ctx s u.val c.val) 10).toNat)) u.val c.val
      obtain ⟨htasks', hfrozen⟩ := stream_releaseFreeze (modTask s u.val c.val (Task.noted (ctxReg (ctx s u.val c.val) 10).toNat)) u.val c.val
      refine answers_of_units (exec_note u s) hs (noteRun_failed hrun hfailed) ?_ fun h hframe => ?_
      · rw [unitsFrom_retire, hloop.frame]
        rfl
      · rw [ctx_withHif (retire _ _ _ _), ctx_retire_same, stream_withHif, stream_retire, hfrozen, htasks', tasks_modTask s u.val htasks]
        refine ⟨⟨_, rfl, Task.noted_failed hfailed x⟩, rfl, ?_, hframe⟩
        rw [id, ctx, hloop.unit]
        exact congrArg (·.pc + 4) (ctx_modTask s u.val c.val c.val _)
    · obtain ⟨streams, hrxu⟩ := rxu_trapNoted s u.val c.val cause.toNat
      have hcause : cause.toNat % 256 = cause.toNat := Nat.mod_eq_of_lt cause.isLt
      refine answers_of_units (exec_uModeException u cause s) hs ((onCore_running hrun _).trans (trapCtx_noneReady c.val cause.toNat hready)) ?_
        fun h hframe => ?_
      · rw [unitsFrom_modCtx, trapNoted_frame]
      · rw [ctx_withHif (modCtx _ _ _ _), ctx_modCtx_same, ctx_trapNoted, rxu_withHif, rxu_modCtx, hrxu, hcause, stream_withHif, stream_modCtx,
          tasks_trapNoted s u.val c.val cause.toNat htasks]
        exact ⟨rfl, rfl, rfl, rfl, rfl, regBit_trapNoted s u.val c.val cause.toNat, hframe⟩
  case only =>
    have hrun : runningOn s u.val = some c.val := by rw [runningOn, hctxs]; simp [hst]
    have honly : OnlyCtx s u.val c.val k := hctxs
    have hretired := honly.retire fun k => { k with st := .ready }
    have hunits : UnitsFrom s (modRxu (modCtx (retire s u.val c.val fun k => { k with st := .ready }) u.val c.val fun k => { k with st := .running })
        u.val fun x => { x with lastCtx := some c.val }) :=
      ((unitsFrom_retire s u.val c.val _).trans (unitsFrom_modCtx _ u.val c.val _)).trans (unitsFrom_modRxu _ u.val _)
    refine answers_of_run (exec_yield u s) hs ((yieldRun_running hrun).trans (schedule_onlyReady hretired rfl)) (hunits.rested hs.1) fun h => ?_
    have hctxs' := hretired.modCtx fun k => { k with st := .running }
    rw [OnlyCtx] at hctxs'
    rw [rxu_withHif, rxu_modRxu_same]
    refine ⟨?_, rfl, ?_, hunits.withHif h⟩
    · rw [hctxs', ← hst]
    · rw [rxu_modCtx, rxu_retire]
  case turn =>
    rw [schedule_next hidle hnext]
    refine ⟨?_, by rw [rxu_modRxu_same], fun c hne => ?_, (unitsFrom_modCtx s u d _).trans (unitsFrom_modRxu _ u _)⟩
    · rw [ctx, rxu_modRxu_same]
      exact ctx_modCtx_same s u d _
    · rw [ctx, rxu_modRxu_same]
      exact ctx_modCtx_ne s u hne _

/-! ## Loads from local memory (R281, R336) -/

theorem localFrom_countPoison (u : Nat) (s : State) (store : Nat) : LocalFrom u s (countPoison s store) :=
  (localFrom_regCount u s _ _).trans (localFrom_regOr u _ _ _)

theorem localFrom_localRead1 (s : State) (u a : Nat) : LocalFrom u s (localRead1 s u a).1 := by
  unfold localRead1
  split
  · split
    · exact localFrom_countPoison u s 9
    · exact .refl u s
  · cases localClass s u a with
    | clean => exact .refl u s
    | poisoned => exact localFrom_countPoison u s 9
    | ce p =>
      cases p with
      | true => exact (localFrom_countCe u s 9).trans (localFrom_countPoison u _ 9)
      | false => exact localFrom_countCe u s 9
    | ue => exact ((localFrom_countUe u s _ _ _).trans (localFrom_localPoison _ u a)).trans (localFrom_countPoison u _ 9)
    | ae => exact (localFrom_countAe u s _ _ _).trans (localFrom_countPoison u _ 9)

theorem localFrom_localScan (u : Nat) : ∀ (l : List Nat) (s : State), LocalFrom u s (localScan u s l).1
  | [], s => .refl u s
  | a :: l, s => (localFrom_localRead1 s u a).trans (localFrom_localScan u l _)

theorem localFrom_localLoad (s : State) (u a len : Nat) : LocalFrom u s (localLoad s u a len).1 := localFrom_localScan u _ s

theorem localFrom_of_localLoad {s t : State} {u a len : Nat} {r : Option (List Byte)} (h : localLoad s u a len = (t, r)) : LocalFrom u s t := by
  have hfrom := localFrom_localLoad s u a len
  rwa [h] at hfrom

/-- A quad without stored errors that is not poisoned is read as it stands. -/
theorem localRead1_clean {s : State} {u a : Nat} (hq : s.quads = []) (hbad : a ∉ (rxu s u).bad) : localRead1 s u a = (s, false) := by
  simp [localRead1, quadState, hq, sget, hbad]

theorem localScan_clean {s : State} {u : Nat} (hq : s.quads = []) : ∀ l : List Nat, (∀ a, a ∈ l → a ∉ (rxu s u).bad) → localScan u s l = (s, false)
  | [], _ => rfl
  | a :: l, h => by
    rw [localScan, localRead1_clean hq (h a List.mem_cons_self), localScan_clean hq l fun b hb => h b (List.mem_cons_of_mem a hb)]
    rfl

theorem localLoad_clean {s : State} {u a len : Nat} (hq : s.quads = []) (h : ∀ x, x ∈ rangeQuads a len → x ∉ (rxu s u).bad) :
    localLoad s u a len = (s, some (mread (rxu s u).mem a len)) := by
  rw [localLoad, localScan_clean hq _ h, localRead_clean hq]
  rfl

/-! ## Engine ops of the context that runs (R283, R284) -/

theorem exec_eopIssue (u : UIx) (rd rs1 rs2 : RIx) (s : State) :
    exec (.eopIssue u rd rs1 rs2) s = flows s fun s => eopIssueRun s u rd.val rs1.val rs2.val := rfl
theorem exec_eopWait (u : UIx) (rd rs1 : RIx) (s : State) : exec (.eopWait u rd rs1) s = flows s fun s => eopWaitRun s u rd.val rs1.val := rfl
theorem exec_eopPoll (u : UIx) (rd rs1 : RIx) (s : State) : exec (.eopPoll u rd rs1) s = flows s fun s => eopPollRun s u rd.val rs1.val := rfl
theorem exec_eopMove (u : UIx) (rd rs1 rs2 : RIx) (s : State) :
    exec (.eopMove u rd rs1 rs2) s = flows s fun s => eopMoveRun s u rd.val rs1.val rs2.val := rfl
theorem exec_eopMwait (u : UIx) (rd rs1 : RIx) (s : State) : exec (.eopMwait u rd rs1) s = flows s fun s => eopMwaitRun s u rd.val rs1.val := rfl
theorem exec_eopEnq (u : UIx) (rd rs1 rs2 : RIx) (s : State) :
    exec (.eopEnq u rd rs1 rs2) s = flows s fun s => eopEnqRun s u rd.val rs1.val rs2.val := rfl

/-- An engine op with operands in local memory: outside the task region it traps, with all tickets outstanding its context blocks in `b`,
and otherwise `f` issues it with the bytes loaded (R280, R281, R284). -/
def issueOp (s : State) (u c : Nat) (outside : Prop) [Decidable outside] (b : Block) (a len : Nat) (f : State → List Byte → State) : State :=
  if outside then trapCtx s u c 5
  else if Config.maxTickets ≤ (ctx s u c).out.length then blockIn s u c b
  else withLocal s u c a len fun s bs => retire (f s bs) u c id

section
variable {s s1 : State} {u c : Nat} {outside : Prop} [Decidable outside] {b : Block} {a len : Nat} {f : State → List Byte → State} {bs : List Byte}

theorem issueOp_outside (h : outside) : issueOp s u c outside b a len f = trapCtx s u c 5 := if_pos h

theorem issueOp_full (h : ¬outside) (hfull : Config.maxTickets ≤ (ctx s u c).out.length) :
    issueOp s u c outside b a len f = blockIn s u c b := (if_neg h).trans (if_pos hfull)

theorem issueOp_loads (h : ¬outside) (hroom : (ctx s u c).out.length < Config.maxTickets) :
    issueOp s u c outside b a len f = withLocal s u c a len fun s bs => retire (f s bs) u c id := (if_neg h).trans (if_neg hroom.not_ge)

theorem issueOp_poisoned (h : ¬outside) (hroom : (ctx s u c).out.length < Config.maxTickets) (hload : localLoad s u a len = (s1, none)) :
    issueOp s u c outside b a len f = trapCtx s1 u c 5 := by
  simp only [issueOp_loads h hroom, withLocal, hload]

theorem issueOp_issues (h : ¬outside) (hroom : (ctx s u c).out.length < Config.maxTickets) (hload : localLoad s u a len = (s1, some bs)) :
    issueOp s u c outside b a len f = retire (f s1 bs) u c id := by
  simp only [issueOp_loads h hroom, withLocal, hload]

end

section
variable {s : State} {u : UIx} {c : LIx} (hrun : runningOn s u.val = some c.val) (rd rs1 rs2 : Nat)
include hrun

theorem eopIssueRun_running : eopIssueRun s u rd rs1 rs2 = issueOp s u.val c.val
    ((!inTask (ctxReg (ctx s u.val c.val) rs1).toNat 64) = true) (.issue rd (ctxReg (ctx s u.val c.val) rs1) (ctxReg (ctx s u.val c.val) rs2))
    (ctxReg (ctx s u.val c.val) rs1).toNat 64 fun t bs =>
      doIssue t u.val c.val rd (ctxReg (ctx s u.val c.val) rs1) (ctxReg (ctx s u.val c.val) rs2) bs := onCore_running hrun _

theorem eopMoveRun_running : eopMoveRun s u rd rs1 rs2 = issueOp s u.val c.val
    ((!inTask ((ctxReg (ctx s u.val c.val) rs1).toNat - 16) (fieldOf (ctxReg (ctx s u.val c.val) rs2).toNat 12 0 + 16)) = true ∨
      (ctxReg (ctx s u.val c.val) rs1).toNat < 16)
    (.move rd (ctxReg (ctx s u.val c.val) rs1) (ctxReg (ctx s u.val c.val) rs2)) ((ctxReg (ctx s u.val c.val) rs1).toNat - 16) 16 fun t bs =>
      doMove t u.val c.val rd (ctxReg (ctx s u.val c.val) rs1) (ctxReg (ctx s u.val c.val) rs2) bs := onCore_running hrun _

theorem eopEnqRun_running : eopEnqRun s u rd rs1 rs2 = issueOp s u.val c.val
    ((!inTask (ctxReg (ctx s u.val c.val) rs1).toNat (enqLen (ctxReg (ctx s u.val c.val) rs2))) = true)
    (.enq rd (ctxReg (ctx s u.val c.val) rs1) (ctxReg (ctx s u.val c.val) rs2)) (ctxReg (ctx s u.val c.val) rs1).toNat
    (enqLen (ctxReg (ctx s u.val c.val) rs2)) fun t bs =>
      doEnq t u c rd (ctxReg (ctx s u.val c.val) rs1) (ctxReg (ctx s u.val c.val) rs2) bs := onCore_running hrun _

theorem eopWaitRun_ended {w : Word} (h : outcomeOf (ctx s u.val c.val) (ctxReg (ctx s u.val c.val) rs1) = some w) :
    eopWaitRun s u rd rs1 = retire s u.val c.val fun k => k.put rd w := by
  rw [eopWaitRun, onCore_running hrun, h]

theorem eopWaitRun_pending (h : outcomeOf (ctx s u.val c.val) (ctxReg (ctx s u.val c.val) rs1) = none) :
    eopWaitRun s u rd rs1 = blockIn s u.val c.val (.wait rd (ctxReg (ctx s u.val c.val) rs1)) := by
  rw [eopWaitRun, onCore_running hrun, h]

theorem eopPollRun_running : eopPollRun s u rd rs1 =
    retire s u.val c.val fun k => k.put rd ((outcomeOf k (ctxReg k rs1)).getD 0x80) := onCore_running hrun _

theorem eopMwaitRun_barred (h : mayTalk u.val (fieldOf (ctxReg (ctx s u.val c.val) rs1).toNat 7 0) = false) :
    eopMwaitRun s u rd rs1 = trapCtx s u.val c.val 5 := (onCore_running hrun _).trans (if_pos (by rw [h]; rfl))

variable (hmay : mayTalk u.val (fieldOf (ctxReg (ctx s u.val c.val) rs1).toNat 7 0) = true)
include hmay

theorem eopMwaitRun_holds (h : mwaitHolds s u.val (ctxReg (ctx s u.val c.val) rs1) = true) :
    eopMwaitRun s u rd rs1 = retire s u.val c.val fun k => k.put rd 0 :=
  ((onCore_running hrun _).trans (if_neg (by rw [hmay]; decide))).trans (if_pos h)

theorem eopMwaitRun_waits (h : mwaitHolds s u.val (ctxReg (ctx s u.val c.val) rs1) = false) :
    eopMwaitRun s u rd rs1 = blockIn s u.val c.val (.mwait rd (ctxReg (ctx s u.val c.val) rs1)) :=
  ((onCore_running hrun _).trans (if_neg (by rw [hmay]; decide))).trans (if_neg (ne_true_of_eq_false h))

end

/-! ## Registers and tickets of a context -/

theorem put_eq (k : Ctx) (rd : Nat) (w : Word) : ∃ regs, k.put rd w = { k with regs := regs } := by
  unfold Ctx.put
  split
  · exact ⟨k.regs, rfl⟩
  · exact ⟨_, rfl⟩

theorem ctxReg_put_ne {k : Ctx} {rd x : Nat} (w : Word) (h : x ≠ rd) : ctxReg (k.put rd w) x = ctxReg k x := by
  unfold ctxReg Ctx.put
  split
  · rfl
  · split
    · rfl
    · exact sget_sset_ne 0 k.regs rd x w h.symm

/-- A context with its next ticket issued to a target, the ticket's number in rd (R284). -/
def Ctx.ticketed (k : Ctx) (rd tgt : Nat) : Ctx :=
  ({ k with next := k.next + 1, out := k.out ++ [(BitVec.ofNat 32 k.next, tgt)] } : Ctx).put rd (BitVec.ofNat 32 k.next)

theorem ticketed_eq (k : Ctx) (rd tgt : Nat) : ∃ regs, k.ticketed rd tgt =
    { k with regs := regs, next := k.next + 1, out := k.out ++ [(BitVec.ofNat 32 k.next, tgt)] } := put_eq _ rd _

theorem ctxReg_ticketed {k : Ctx} {rd : Nat} (tgt : Nat) (h : rd ≠ 0) : ctxReg (k.ticketed rd tgt) rd = BitVec.ofNat 32 k.next := ctxReg_put _ h

theorem ctxReg_ticketed_ne {k : Ctx} {rd x : Nat} (tgt : Nat) (h : x ≠ rd) : ctxReg (k.ticketed rd tgt) x = ctxReg k x := ctxReg_put_ne _ h

section
variable (s : State) (u c rd tgt : Nat)

theorem newTicket_snd : (newTicket s u c rd tgt).2 = BitVec.ofNat 32 (ctx s u c).next := rfl

theorem ctx_newTicket : ctx (newTicket s u c rd tgt).1 u c = (ctx s u c).ticketed rd tgt := ctx_modCtx_same s u c _

theorem unitsFrom_newTicket : UnitsFrom s (newTicket s u c rd tgt).1 := rfl

theorem mem_newTicket : (rxu (newTicket s u c rd tgt).1 u).mem = (rxu s u).mem := rxu_modCtx_mem s u c _

end

/-! ## EOP.ISSUE, EOP.MOVE and EOP.ENQ with a free ticket (R283 to R288) -/

section
variable {s : State} {u c rd : Nat} {addr arg : Word} {bs : List Byte}

theorem doIssue_malformed (h : 4 ≤ arg.toNat ∨ addr.toNat % 64 ≠ 0) : doIssue s u c rd addr arg bs =
    ready (newTicket s u c rd (arg.toNat % 4)).1 u c (BitVec.ofNat 32 (ctx s u c).next) .format 0 := if_pos h

theorem doIssue_job (htgt : arg.toNat = 3) (haddr : addr.toNat % 64 = 0) (hok : jobOk (newTicket s u c rd 3).1 u c bs = true) :
    doIssue s u c rd addr arg bs = modCtx (newTicket s u c rd 3).1 u c fun k =>
      { k with jobs := k.jobs ++ [{ tk := BitVec.ofNat 32 (ctx s u c).next, addr := addr.toNat, block := bs }] } := by
  simp [doIssue, htgt, haddr, hok, newTicket_snd]

theorem doIssue_op (htgt : arg.toNat < 3) (haddr : addr.toNat % 64 = 0)
    (hok : opCheck (newTicket s u c rd arg.toNat).1 u c arg.toNat bs = .ok) : doIssue s u c rd addr arg bs =
      { (newTicket s u c rd arg.toNat).1 with ticketOps := s.ticketOps ++
          [{ u := u, c := c, n := BitVec.ofNat 32 (ctx s u c).next, target := arg.toNat, slot := bs,
             wins := (reachNow s (ctxOwner s u c)).wins }] } := by
  have hmod : arg.toNat % 4 = arg.toNat := Nat.mod_eq_of_lt (by omega)
  rw [doIssue, if_neg (by omega), if_neg (by omega), hmod, hok]
  rfl

theorem doMove_ends {n : Nat} (hn : n = fieldOf arg.toNat 12 0) (hq : n % 16 = 0) (h0 : 0 < n) (hmax : n ≤ 4096) (haddr : addr.toNat % 16 = 0)
    (hdev : leAt bs 0 8 % 16 = 0) : doMove s u c rd addr arg bs =
      if reaches (newTicket s u c rd 4).1 (runReach (newTicket s u c rd 4).1 u c) (leAt bs 0 8) n then
        { (newTicket s u c rd 4).1 with moves := s.moves ++
            [{ u := u, c := c, n := BitVec.ofNat 32 (ctx s u c).next, q := ctxOwner s u c, loc := addr.toNat, dev := leAt bs 0 8, len := n,
               out := bitOf arg.toNat 31 }] }
      else ready (newTicket s u c rd 4).1 u c (BitVec.ofNat 32 (ctx s u c).next) .aperture 0 := by
  subst hn
  rw [doMove, if_neg (by omega), newTicket_snd]
  cases reaches (newTicket s u c rd 4).1 (runReach (newTicket s u c rd 4).1 u c) (leAt bs 0 8) (fieldOf arg.toNat 12 0) <;> rfl

end

/-- A MOVE whose two quads and bytes lie in the task region is not outside it. -/
theorem inMove {a len : Nat} (hlow : 16 ≤ a) (hin : inTask (a - 16) (len + 16) = true) : ¬((!inTask (a - 16) (len + 16)) = true ∨ a < 16) := by
  simp [hin, hlow]

/-- An ENQ that passes its checks waits in its turn, and begins at once where nothing of its target is before it (R288). -/
theorem doEnq_tries {s : State} {u : UIx} {c : LIx} {rd : Nat} {a b : Word} {bs : List Byte} {cmd : Cmd}
    (hcmd : cmd = { uid := s.nextUid, src := .ticket u c (BitVec.ofNat 32 (ctx s u.val c.val).next), op := 12,
                    slot := enqSlot (fieldOf b.toNat 15 0) (fieldOf b.toNat 24 16 + 1), data := bs })
    (harg : b.toNat < 2 ^ 25) (haddr : a.toNat % 64 = 0) (hn : fieldOf b.toNat 24 16 < 256) (ht : fieldOf b.toNat 15 0 < 16384)
    (hpriv : enqueuePriv (newTicket s u.val c.val rd 5).1 (ctxOwner s u.val c.val)
      (enqSlot (fieldOf b.toNat 15 0) (fieldOf b.toNat 24 16 + 1)) = false) :
    doEnq s u c rd a b bs =
      let n := (newTicket s u.val c.val rd 5).1
      let t : State := { n with cmds := n.cmds ++ [cmd], nextUid := n.nextUid + 1 }
      if !enqueueOk t (fieldOf b.toNat 15 0) (fieldOf b.toNat 24 16 + 1) then complete t cmd.uid .format
      else if ticketWaits t u.val c.val (BitVec.ofNat 32 (ctx s u.val c.val).next) then t else enqueueTry t cmd := by
  subst hcmd
  rw [doEnq, if_neg (by omega), if_neg (ne_true_of_eq_false hpriv)]
  rfl

/-! ## What an issued op leaves -/

theorem LocalFrom.ctx {u : Nat} {s t : State} (h : LocalFrom u s t) (c : Nat) : Machine.ctx t u c = Machine.ctx s u c := by
  rw [Machine.ctx, h.2, Machine.ctx]

theorem LocalFrom.rested {u : Nat} {s t : State} (h : LocalFrom u s t) (hs : s.rested) : t.rested := by
  obtain ⟨⟨_, _, _, _, rfl⟩, -⟩ := h
  exact hs

theorem LocalFrom.tickets {u : Nat} {s t : State} (h : LocalFrom u s t) :
    t.ticketOps = s.ticketOps ∧ t.ticketsReady = s.ticketsReady ∧ t.moves = s.moves := by
  obtain ⟨⟨_, _, _, _, rfl⟩, -⟩ := h
  exact ⟨rfl, rfl, rfl⟩

/-- The context that issued a ticket, past its instruction. -/
theorem ctx_retire_ticketed {w : State} {u c rd tgt : Nat} {k : Ctx} (hw : ctx w u c = k.ticketed rd tgt) :
    (ctx (retire w u c id) u c).out = k.out ++ [(BitVec.ofNat 32 k.next, tgt)] ∧ (ctx (retire w u c id) u c).next = k.next + 1 ∧
    (ctx (retire w u c id) u c).pc = k.pc + 4 ∧ (rd ≠ 0 → ctxReg (ctx (retire w u c id) u c) rd = BitVec.ofNat 32 k.next) ∧
    ∀ x, x ≠ rd → ctxReg (ctx (retire w u c id) u c) x = ctxReg k x := by
  obtain ⟨regs, hk⟩ := ticketed_eq k rd tgt
  rw [ctx_retire_same, id, hw]
  exact ⟨congrArg Ctx.out hk, congrArg Ctx.next hk, congrArg (·.pc + 4) hk, fun hrd => ctxReg_ticketed tgt hrd,
    fun x hx => ctxReg_ticketed_ne tgt hx⟩

/-- The context whose register takes a value, past its instruction. -/
theorem ctx_retire_put {s : State} {u c rd : Nat} (w : Word) :
    (rd ≠ 0 → ctxReg (ctx (retire s u c fun k => k.put rd w) u c) rd = w) ∧
    (∀ x, x ≠ rd → ctxReg (ctx (retire s u c fun k => k.put rd w) u c) x = ctxReg (ctx s u c) x) ∧
    (ctx (retire s u c fun k => k.put rd w) u c).pc = (ctx s u c).pc + 4 := by
  rw [ctx_retire_same]
  exact ⟨fun hrd => ctxReg_put w hrd, fun x hx => ctxReg_put_ne w hx, congrArg (· + 4) (put_pc _ rd w)⟩

section
variable {s n : State} (h : UnitsFrom s n) (u c : Nat) (hif : Hif)
include h

theorem retire_withTicketOps (l : List TicketOp) : { retire { n with ticketOps := l } u c id with hif := hif } =
    { s with rxus := (retire { n with ticketOps := l } u c id).rxus, ticketOps := l, hif := hif } := by
  rw [unitsFrom_retire, h]

theorem retire_withTicketsReady (l : List TicketOut) : { retire { n with ticketsReady := l } u c id with hif := hif } =
    { s with rxus := (retire { n with ticketsReady := l } u c id).rxus, ticketsReady := l, hif := hif } := by
  rw [unitsFrom_retire, h]

theorem retire_withMoves (l : List MoveOp) : { retire { n with moves := l } u c id with hif := hif } =
    { s with rxus := (retire { n with moves := l } u c id).rxus, moves := l, hif := hif } := by
  rw [unitsFrom_retire, h]

end

/-- Settles O57, op by op: each outcome by the equation of its run function, and what an issued ticket leaves in its context. -/
theorem engineOps : Obligations.EngineOps := by
  unfold Obligations.EngineOps
  refine fun s u rd rs1 rs2 hs => ⟨fun hnone => ?idle, fun c k a b hrun hk ha hb => ⟨fun hout => ?issueOutside, fun hin hfull => ?issueFull,
    fun s1 hin hroom hload => ?issuePoisoned, fun s1 bs hin hroom hload => ?issue, fun w hw => ?waited, fun hpending => ?waits, ?polls,
    fun hbarred => ?mwaitBarred, fun hmay => ⟨fun hholds => ?mwaitHolds, fun hno => ?mwaits⟩, fun hout => ?moveOutside,
    fun hlow hin => ⟨fun hfull => ?moveFull, fun s1 hroom hload => ?movePoisoned,
      fun s1 bs d n hroom hload hd hn hq h0 hmax haddr hdev => ?move⟩,
    fun hout => ?enqOutside, fun hin => ⟨fun hfull => ?enqFull, fun s1 hroom hload => ?enqPoisoned, fun s1 bs hroom hload => ?enq⟩⟩,
    fun a len hq hbad => localLoad_clean hq hbad, fun c a b q cmd s1 bs hq hs1 hcmd harg haddr hn ht hpriv hok hturn => ?enqueues⟩
  case idle =>
    exact ⟨exec_of_run_self (exec_eopIssue u rd rs1 rs2 s) hs (onCore_none hnone _), exec_of_run_self (exec_eopWait u rd rs1 s) hs (onCore_none hnone _),
      exec_of_run_self (exec_eopPoll u rd rs1 s) hs (onCore_none hnone _), exec_of_run_self (exec_eopMove u rd rs1 rs2 s) hs (onCore_none hnone _),
      exec_of_run_self (exec_eopMwait u rd rs1 s) hs (onCore_none hnone _), exec_of_run_self (exec_eopEnq u rd rs1 rs2 s) hs (onCore_none hnone _)⟩
  case enqueues =>
    subst hq hs1
    rw [doEnq_tries hcmd harg haddr hn ht hpriv]
    exact (if_neg (by rw [hok]; decide)).trans (if_neg (ne_true_of_eq_false hturn))
  all_goals subst hk ha hb
  case issueOutside =>
    exact becomes_of_run (exec_eopIssue u rd rs1 rs2 s) hs ((eopIssueRun_running hrun _ _ _).trans (issueOp_outside (by rw [hout]; rfl)))
  case issueFull =>
    exact becomes_of_run (exec_eopIssue u rd rs1 rs2 s) hs ((eopIssueRun_running hrun _ _ _).trans (issueOp_full (by rw [hin]; decide) hfull))
  case issuePoisoned =>
    exact becomes_of_run (exec_eopIssue u rd rs1 rs2 s) hs
      ((eopIssueRun_running hrun _ _ _).trans (issueOp_poisoned (by rw [hin]; decide) hroom hload))
  case issue =>
    have hfrom : LocalFrom u.val s s1 := localFrom_of_localLoad hload
    have hissues := (eopIssueRun_running hrun rd.val rs1.val rs2.val).trans (issueOp_issues (by rw [hin]; decide) hroom hload)
    obtain ⟨hops, hreadies, -⟩ := hfrom.tickets
    refine ⟨fun htgt haddr hok => ?_, fun htgt haddr hok => ?_, fun hbad => ?_⟩
    · have hunits := unitsFrom_newTicket s1 u.val c.val rd.val (ctxReg (ctx s u.val c.val) rs2.val).toNat
      have hk := (ctx_newTicket s1 u.val c.val rd.val (ctxReg (ctx s u.val c.val) rs2.val).toNat).trans (congrArg (Ctx.ticketed · rd.val _) (hfrom.ctx c.val))
      rw [doIssue_op htgt haddr hok, hfrom.ctx, hops] at hissues
      refine answers_of_run (exec_eopIssue u rd rs1 rs2 s) hs hissues (hunits.rested (hfrom.rested hs.1)) fun h => ⟨rfl, ?_⟩
      obtain ⟨hout, hnext, hpc, hrd, hx⟩ := ctx_retire_ticketed (w := { (newTicket s1 u.val c.val rd.val (ctxReg (ctx s u.val c.val) rs2.val).toNat).1 with
        ticketOps := _ }) hk
      exact ⟨hout, hnext, hpc, hrd, hx, (congrArg Rxu.mem (rxu_retire _ u.val c.val id)).trans (mem_newTicket s1 u.val c.val rd.val _),
        retire_withTicketOps hunits u.val c.val h _⟩
    · have hunits := (unitsFrom_newTicket s1 u.val c.val rd.val 3).trans (unitsFrom_modCtx _ u.val c.val fun k =>
        { k with jobs := k.jobs ++ [{ tk := BitVec.ofNat 32 (ctx s u.val c.val).next, addr := (ctxReg (ctx s u.val c.val) rs1.val).toNat, block := bs }] })
      obtain ⟨regs, hk⟩ := ticketed_eq (ctx s u.val c.val) rd.val 3
      rw [doIssue_job htgt haddr hok, hfrom.ctx] at hissues
      refine answers_of_run (exec_eopIssue u rd rs1 rs2 s) hs hissues (hunits.rested (hfrom.rested hs.1)) fun h => ?_
      rw [ctx_withHif (retire _ _ _ _), ctx_retire_same, id, ctx_modCtx_same, ctx_newTicket, hfrom.ctx, hk]
      exact ⟨rfl, rfl, (hunits.trans (unitsFrom_retire _ u.val c.val id)).withHif h⟩
    · have hunits := unitsFrom_newTicket s1 u.val c.val rd.val ((ctxReg (ctx s u.val c.val) rs2.val).toNat % 4)
      have hk := (ctx_newTicket s1 u.val c.val rd.val ((ctxReg (ctx s u.val c.val) rs2.val).toNat % 4)).trans
        (congrArg (Ctx.ticketed · rd.val _) (hfrom.ctx c.val))
      rw [doIssue_malformed hbad, hfrom.ctx] at hissues
      refine answers_of_run (exec_eopIssue u rd rs1 rs2 s) hs hissues (hunits.rested (hfrom.rested hs.1)) fun h => ⟨?_, ?_⟩
      · exact congrArg (· ++ _) hreadies
      · obtain ⟨-, -, hpc, -, -⟩ := ctx_retire_ticketed hk
        exact ⟨hpc, retire_withTicketsReady hunits u.val c.val h _⟩
  case waited =>
    refine answers_of_run (exec_eopWait u rd rs1 s) hs (eopWaitRun_ended hrun rd.val rs1.val hw) hs.1 fun h => ?_
    obtain ⟨hrd, hx, hpc⟩ := ctx_retire_put (s := s) (u := u.val) (c := c.val) (rd := rd.val) w
    exact ⟨hrd, hx, hpc, (unitsFrom_retire s u.val c.val _).withHif h⟩
  case waits => exact becomes_of_run (exec_eopWait u rd rs1 s) hs (eopWaitRun_pending hrun rd.val rs1.val hpending)
  case polls =>
    refine answers_of_run (exec_eopPoll u rd rs1 s) hs (eopPollRun_running hrun rd.val rs1.val) hs.1 fun h => ?_
    rw [ctx_withHif (retire _ _ _ _), ctx_retire_same]
    exact ⟨fun hrd => ctxReg_put _ hrd, fun x hx => ctxReg_put_ne _ hx, congrArg (· + 4) (put_pc _ _ _), (unitsFrom_retire s u.val c.val _).withHif h⟩
  case mwaitBarred => exact becomes_of_run (exec_eopMwait u rd rs1 s) hs (eopMwaitRun_barred hrun rd.val rs1.val hbarred)
  case mwaitHolds =>
    refine answers_of_run (exec_eopMwait u rd rs1 s) hs (eopMwaitRun_holds hrun rd.val rs1.val hmay hholds) hs.1 fun h => ?_
    obtain ⟨hrd, -, hpc⟩ := ctx_retire_put (s := s) (u := u.val) (c := c.val) (rd := rd.val) 0
    exact ⟨hrd, hpc, (unitsFrom_retire s u.val c.val _).withHif h⟩
  case mwaits => exact becomes_of_run (exec_eopMwait u rd rs1 s) hs (eopMwaitRun_waits hrun rd.val rs1.val hmay hno)
  case moveOutside =>
    exact becomes_of_run (exec_eopMove u rd rs1 rs2 s) hs ((eopMoveRun_running hrun _ _ _).trans
      (issueOp_outside (hout.symm.imp_left fun hno => by rw [hno]; rfl)))
  case moveFull =>
    exact becomes_of_run (exec_eopMove u rd rs1 rs2 s) hs ((eopMoveRun_running hrun _ _ _).trans (issueOp_full (inMove hlow hin) hfull))
  case movePoisoned =>
    exact becomes_of_run (exec_eopMove u rd rs1 rs2 s) hs ((eopMoveRun_running hrun _ _ _).trans (issueOp_poisoned (inMove hlow hin) hroom hload))
  case move =>
    subst hd
    have hfrom := localFrom_of_localLoad hload
    have hunits := unitsFrom_newTicket s1 u.val c.val rd.val 4
    have hk := (ctx_newTicket s1 u.val c.val rd.val 4).trans (congrArg (Ctx.ticketed · rd.val 4) (hfrom.ctx c.val))
    obtain ⟨-, hreadies, hmoves⟩ := hfrom.tickets
    have hissues := (eopMoveRun_running hrun rd.val rs1.val rs2.val).trans (issueOp_issues (inMove hlow hin) hroom hload)
    rw [doMove_ends hn hq h0 hmax haddr hdev, hfrom.ctx, hmoves] at hissues
    refine ⟨fun hreach => ?_, fun hno => ?_⟩
    · rw [if_pos hreach] at hissues
      refine answers_of_run (exec_eopMove u rd rs1 rs2 s) hs hissues (hunits.rested (hfrom.rested hs.1)) fun h => ⟨rfl, ?_⟩
      obtain ⟨hout, -, hpc, -, -⟩ := ctx_retire_ticketed hk
      exact ⟨hout, hpc, retire_withMoves hunits u.val c.val h _⟩
    · rw [if_neg (ne_true_of_eq_false hno)] at hissues
      refine answers_of_run (exec_eopMove u rd rs1 rs2 s) hs hissues (hunits.rested (hfrom.rested hs.1)) fun h => ⟨congrArg (· ++ _) hreadies, ?_⟩
      obtain ⟨-, -, hpc, -, -⟩ := ctx_retire_ticketed hk
      exact ⟨hpc, retire_withTicketsReady hunits u.val c.val h _⟩
  case enqOutside =>
    exact becomes_of_run (exec_eopEnq u rd rs1 rs2 s) hs ((eopEnqRun_running hrun _ _ _).trans (issueOp_outside (by rw [hout]; rfl)))
  case enqFull =>
    exact becomes_of_run (exec_eopEnq u rd rs1 rs2 s) hs ((eopEnqRun_running hrun _ _ _).trans (issueOp_full (by rw [hin]; decide) hfull))
  case enqPoisoned =>
    exact becomes_of_run (exec_eopEnq u rd rs1 rs2 s) hs
      ((eopEnqRun_running hrun _ _ _).trans (issueOp_poisoned (by rw [hin]; decide) hroom hload))
  case enq =>
    exact becomes_of_run (exec_eopEnq u rd rs1 rs2 s) hs ((eopEnqRun_running hrun _ _ _).trans (issueOp_issues (by rw [hin]; decide) hroom hload))

/-! ## Mailbox commands (R294 to R300) -/

theorem exec_go (snd rcv : EndPt) (s : State) :
    exec (.go snd rcv) s = mailCmd s snd.toNat rcv.toNat snd.toNat fun s => goRun s snd.toNat rcv.toNat := rfl
theorem exec_mbxBlockCommit (snd rcv : EndPt) (s : State) :
    exec (.mbxBlockCommit snd rcv) s = mailDev s snd.toNat rcv.toNat fun s => commitRun s snd.toNat rcv.toNat := rfl
theorem exec_withdraw (snd rcv : EndPt) (s : State) :
    exec (.withdraw snd rcv) s = mailCmd s snd.toNat rcv.toNat snd.toNat fun s => withdrawRun s snd.toNat rcv.toNat := rfl
theorem exec_mbxWordSend (snd rcv : EndPt) (w : Word) (s : State) :
    exec (.mbxWordSend snd rcv w) s = mailCmd s snd.toNat rcv.toNat snd.toNat fun s => wordSend s snd.toNat rcv.toNat w := rfl
theorem exec_take (snd rcv : EndPt) (s : State) :
    exec (.take snd rcv) s = mailCmd s snd.toNat rcv.toNat rcv.toNat fun s => takeRun s snd.toNat rcv.toNat := rfl
theorem exec_mbxWordRead (snd rcv : EndPt) (s : State) :
    exec (.mbxWordRead snd rcv) s = mailCmd s snd.toNat rcv.toNat rcv.toNat fun s => wordRead s snd.toNat rcv.toNat := rfl

section
variable {s u : State} {snd rcv : EndPt} {f : State → State}

/-- A command of the sender that may act ends as its run function says. -/
theorem mailCmd_sender (hacts : endpointActs s snd.toNat rcv.toNat = true) (hrun : f s = u) :
    mailCmd s snd.toNat rcv.toNat snd.toNat f = mailNext s u snd rcv := by
  rw [mailCmd, if_pos rfl, hacts, if_pos rfl, hrun]
  rfl

/-- A command of the receiver that may act ends as its run function says. -/
theorem mailCmd_receiver (hne : snd.toNat ≠ rcv.toNat) (hacts : endpointActs s rcv.toNat snd.toNat = true) (hrun : f s = u) :
    mailCmd s snd.toNat rcv.toNat rcv.toNat f = mailNext s u snd rcv := by
  rw [mailCmd, if_neg hne.symm, hacts, if_pos rfl, hrun]
  rfl

theorem mailDev_serves (hsage : sageServes s = true) (hrun : f s = u) : mailDev s snd.toNat rcv.toNat f = mailNext s u snd rcv := by
  rw [mailDev, hsage, if_pos rfl, hrun]
  rfl

end

/-! ## The channels that exist (R294) -/

section
variable {s : State} {snd rcv : Nat} (h : chanExists s snd rcv = true)
include h

theorem ne_of_chanExists : snd ≠ rcv := by
  unfold chanExists at h
  simp only [Bool.and_eq_true, bne_iff_ne] at h
  exact h.1

/-- A channel to the host of a peer is the host's. -/
theorem snd_of_chanExists_peer (hrcv : 0x40 ≤ rcv) : snd = 0 := by
  have hnot : isEndpoint rcv = false := by simp [isEndpoint]; omega
  simp only [chanExists, hnot, Bool.and_false, Bool.false_or, Bool.and_eq_true, Bool.or_eq_true, beq_iff_eq] at h
  omega

/-- A channel from the host of a peer is to the host. -/
theorem rcv_of_chanExists_peer (hsnd : 0x40 ≤ snd) : rcv = 0 := by
  have hnot : isEndpoint snd = false := by simp [isEndpoint]; omega
  simp only [chanExists, hnot, Bool.false_and, Bool.false_or, Bool.and_eq_true, Bool.or_eq_true, beq_iff_eq] at h
  omega

end

/-! ## What a command does to its channel -/

section
variable {s : State} {snd rcv : EndPt}

theorem goRun_clear (hex : chanExists s snd.toNat rcv.toNat = true) (h : (chan s snd.toNat rcv.toNat).go = false) :
    goRun s snd.toNat rcv.toNat = withChan s snd rcv { chan s snd.toNat rcv.toNat with go := true, withdrawn := false } :=
  if_neg (by simp [hex, h])

theorem goRun_set (h : (chan s snd.toNat rcv.toNat).go = true) : goRun s snd.toNat rcv.toNat = s := if_pos (.inr h)

theorem withdrawRun_set (h : (chan s snd.toNat rcv.toNat).go = true) : withdrawRun s snd.toNat rcv.toNat =
    withChan s snd rcv { chan s snd.toNat rcv.toNat with go := false, withdrawn := true } := if_pos h

theorem commitRun_room (hgo : (chan s snd.toNat rcv.toNat).go = true) (hroom : (chan s snd.toNat rcv.toNat).queue.length < 4) :
    commitRun s snd.toNat rcv.toNat = withChan s snd rcv { chan s snd.toNat rcv.toNat with
      go := false, queue := (chan s snd.toNat rcv.toNat).queue ++ [chanBlock (chan s snd.toNat rcv.toNat)] } := if_pos ⟨hgo, hroom⟩

theorem commitRun_full (h : 4 ≤ (chan s snd.toNat rcv.toNat).queue.length) : commitRun s snd.toNat rcv.toNat = s :=
  if_neg fun ⟨_, hroom⟩ => absurd hroom h.not_gt

variable (hex : chanExists s snd.toNat rcv.toNat = true)
include hex

theorem wordSend_free (w : Word) (h : (chan s snd.toNat rcv.toNat).word = none) :
    wordSend s snd.toNat rcv.toNat w = withChan s snd rcv { chan s snd.toNat rcv.toNat with word := some w } := by
  rw [wordSend, hex, h]
  rfl

theorem wordSend_full (w : Word) (h : (chan s snd.toNat rcv.toNat).word ≠ none) :
    wordSend s snd.toNat rcv.toNat w = withChan s snd rcv { chan s snd.toNat rcv.toNat with ovTx := true, ovRx := true } := by
  obtain ⟨x, hx⟩ := Option.ne_none_iff_exists'.mp h
  rw [wordSend, hex, hx]
  rfl

/-- The receipt of what a peer's host sent, and nothing on the other channels. -/
theorem receipt_iff_peer (u : State) (kind : Nat) : (if rcv.toNat = 0 ∧ 0x40 ≤ snd.toNat then sendReceipt u (snd.toNat - 0x40) kind else u) =
    if 0x40 ≤ snd.toNat then sendReceipt u (snd.toNat - 0x40) kind else u := by
  by_cases hsnd : 0x40 ≤ snd.toNat
  · rw [if_pos ⟨rcv_of_chanExists_peer hex hsnd, hsnd⟩, if_pos hsnd]
  · rw [if_neg fun h => hsnd h.2, if_neg hsnd]

theorem takeRun_cons {b : List Word} {bs : List (List Word)} (h : (chan s snd.toNat rcv.toNat).queue = b :: bs) : takeRun s snd.toNat rcv.toNat =
    let u := withChan s snd rcv { chan s snd.toNat rcv.toNat with queue := bs }
    if 0x40 ≤ snd.toNat then sendReceipt u (snd.toNat - 0x40) 1 else u := by
  dsimp only
  rw [← receipt_iff_peer hex, takeRun, h]
  simp only [List.isEmpty_cons, Bool.false_eq_true, if_false, modChan, h, List.drop_one, List.tail_cons]
  rfl

theorem wordRead_some {w : Word} (h : (chan s snd.toNat rcv.toNat).word = some w) : wordRead s snd.toNat rcv.toNat =
    let u := withChan { s with busData := toLe 4 w.toNat } snd rcv { chan s snd.toNat rcv.toNat with word := none }
    if 0x40 ≤ snd.toNat then sendReceipt u (snd.toNat - 0x40) 2 else u := by
  have hchan : chan (answer s w) snd.toNat rcv.toNat = chan s snd.toNat rcv.toNat := rfl
  dsimp only
  rw [← receipt_iff_peer hex, wordRead, hex, h, Option.getD_some, wordTaken, hchan, h]
  rfl

theorem wordRead_none (h : (chan s snd.toNat rcv.toNat).word = none) : wordRead s snd.toNat rcv.toNat = { s with busData := toLe 4 0 } := by
  have hchan : chan (answer s 0) snd.toNat rcv.toNat = chan s snd.toNat rcv.toNat := rfl
  rw [wordRead, hex, h, Option.getD_none, wordTaken, hchan, h]
  rfl

end

/-! ## What waits for a peer's host where no peer can be reached (R300) -/

section
variable {s : State} (h : ∀ k, peerReady s k = false)
include h

theorem forwardPeers_unready : forwardPeers s = s := by
  refine List.foldl_fixed' (fun k => ?_) _
  rw [forwardPeer_unready (h k), ite_self]

theorem utrPump_unready (hports : (s.utr.ports.all fun x => x.2.rx.all fun y => y.2.isEmpty) = true)
    (hskips : (s.utr.rqs.any fun x => !x.2.skips.isEmpty) = false) : utrPump s = s := by
  simp only [utrPump, hskips, Bool.false_eq_true, if_false, hports, if_true]
  exact forwardPeers_unready h

end

/-- A change of a channel between hosts concerns no core (R279). -/
theorem mailEvent_hosts {old s : State} {snd rcv : Nat} (hsnd : snd = 0) (hrcv : 0x40 ≤ rcv) : mailEvent old s snd rcv = s := by
  refine List.foldl_fixed' (fun u => if_neg ?_) _
  have hid : coreId u.val ≠ snd ∧ coreId u.val ≠ rcv := by
    have hu := u.isLt
    unfold coreId
    omega
  tauto

/-- Settles O24: each command by the equation of its run function, and the commit of a block for a peer by what the pump then leaves. -/
theorem mailboxRows : Obligations.MailboxRows := by
  unfold Obligations.MailboxRows
  refine fun s snd rcv hs _ hex => ⟨fun hacts => ⟨fun hgo => ?go, fun hgo => ⟨?goAgain, ?withdraw⟩, fun w hword => ?send, fun w hword => ?overrun⟩,
    fun hsage hgo hroom => ⟨?commit, ?held⟩, fun hsage hfull => ?commitFull,
    fun hacts => ⟨fun b bs hqueue => ?take, fun w hword => ?read, fun hword => ?readNone⟩⟩
  case go => exact (exec_go snd rcv s).trans (mailCmd_sender hacts (goRun_clear hex hgo))
  case goAgain => exact (exec_go snd rcv s).trans (mailCmd_sender hacts (goRun_set hgo))
  case withdraw => exact (exec_withdraw snd rcv s).trans (mailCmd_sender hacts (withdrawRun_set hgo))
  case send => exact (exec_mbxWordSend snd rcv w s).trans (mailCmd_sender hacts (wordSend_free hex w hword))
  case overrun => exact (exec_mbxWordSend snd rcv w s).trans (mailCmd_sender hacts (wordSend_full hex w hword))
  case commit => exact (exec_mbxBlockCommit snd rcv s).trans (mailDev_serves hsage (commitRun_room hgo hroom))
  case held =>
    intro hrcv hready hports hskips
    set u := withChan s snd rcv _
    have hrests : utrPump u = u := utrPump_unready (fun k => hready k) hports hskips
    rw [exec_mbxBlockCommit, mailDev_serves hsage (commitRun_room hgo hroom), mailNext, mailEvent_hosts (snd_of_chanExists_peer hex hrcv) hrcv,
      hrests, settle_of_not_wait s u hs]
  case commitFull => exact (exec_mbxBlockCommit snd rcv s).trans (mailDev_serves hsage (commitRun_full hfull))
  case take => exact (exec_take snd rcv s).trans (mailCmd_receiver (ne_of_chanExists hex) hacts (takeRun_cons hex hqueue))
  case read => exact (exec_mbxWordRead snd rcv s).trans (mailCmd_receiver (ne_of_chanExists hex) hacts (wordRead_some hex hword))
  case readNone => exact (exec_mbxWordRead snd rcv s).trans (mailCmd_receiver (ne_of_chanExists hex) hacts (wordRead_none hex hword))

end Sys2Proof.Machine
end

section
/-! The proofs of the family `13_utrid.md`: the link of a ring port with its codewords (O52), and the flits that arrive at a port (O53). -/

namespace Sys2Proof.Machine

/-! ## The codewords of a port (R303, R304, R306) -/

theorem length_natBits (n x : Nat) : (natBits n x).length = n := by simp [natBits]

theorem length_flitBits (f : Flit) (sq : Nat) : (flitBits f sq).length = 1314 := by
  simp [flitBits, List.length_flatMap, length_natBits]

theorem length_payloadBits (u : UPort) (j : Nat) : (payloadBits u j).length = 5140 := by
  simp only [payloadBits, List.length_append, List.length_replicate, length_natBits, List.length_take]
  omega

theorem length_chunk {α : Type} {k : Nat} (hk : 0 < k) : ∀ (n : Nat) (l : List α), l.length = k * n → (chunk k n l).length = n
  | 0, _, _ => rfl
  | n + 1, l, h => by
    have hne : l.isEmpty = false := List.isEmpty_eq_false_iff.mpr (List.ne_nil_of_length_pos (by rw [h]; positivity))
    have hrest : (l.drop k).length = k * n := by rw [List.length_drop, h, Nat.mul_succ, Nat.add_sub_cancel]
    rw [chunk, hne, if_neg Bool.false_ne_true, List.length_cons, length_chunk hk n _ hrest]

theorem length_symbols {bs : List Bool} (h : bs.length = 5140) : (symbols bs).length = 514 := by
  rw [symbols, List.length_map, length_chunk (by decide) 514 bs h]

theorem length_timesRoot (p : List Nat) (r : Nat) : (timesRoot p r).length = p.length + 1 := by simp [timesRoot]

theorem length_alpha1024 (n x : Nat) : (alpha1024 n x).length = n := by
  induction n generalizing x with
  | zero => rfl
  | succ n ih => rw [alpha1024, List.length_cons, ih]

theorem length_foldl_timesRoot (rs p : List Nat) : (rs.foldl timesRoot p).length = p.length + rs.length := by
  induction rs generalizing p with
  | nil => rfl
  | cons r rs ih => rw [List.foldl_cons, ih, length_timesRoot, List.length_cons]; omega

theorem length_rsGen : rsGen.length = 31 := by
  rw [rsGen, length_foldl_timesRoot, length_alpha1024]
  rfl

theorem length_rsShift {rem : List Nat} (h : rem.length = 30) (sym : Nat) : (rsShift rsGen rem sym).length = 30 := by
  simp [rsShift, length_rsGen, h]

theorem length_rsParity (msg : List Nat) : (rsParity msg).length = 30 :=
  List.foldlRecOn (motive := fun rem : List Nat => rem.length = 30) msg _ List.length_replicate fun _ h sym _ => length_rsShift h sym

theorem length_codeword (u : UPort) (j : Nat) : (codeword u j).length = 544 := by
  rw [codeword, List.length_append, length_symbols (length_payloadBits u j), length_rsParity]

theorem take_codeword (u : UPort) (j : Nat) : (codeword u j).take 514 = symbols (payloadBits u j) :=
  List.take_left' (length_symbols (length_payloadBits u j))

/-! ## From a command in any state to the statement's form -/

section
variable {i : Instr} {s u : State}

theorem becomes_of_done (h : exec i s = done s u) : becomes i s u := h

theorem exec_of_done_self (h : exec i s = done s u) (hu : u = s) : exec i s = .next s := by
  rw [h, hu, done_self]

end

/-! ## Ports (R303 to R312, R330) -/

theorem exec_portTrained (p : PIx) (g : Greeting) (s : State) : exec (.portTrained p g) s = done s (trained s p.val g) := rfl
theorem exec_portLinkLost (p : PIx) (s : State) : exec (.portLinkLost p) s = done s (linkLost s p.val) := rfl
theorem exec_credit (p : PIx) (vc : Fin 6) (n : BitVec 7) (s : State) : exec (.credit p vc n) s = done s (creditRun s p.val vc.val n.toNat) := rfl
theorem exec_ack (p : PIx) (sq : BitVec 18) (s : State) : exec (.ack p sq) s = done s (ackRun s p.val sq.toNat) := rfl
theorem exec_replay (p : PIx) (sq : BitVec 18) (s : State) : exec (.replay p sq) s = done s (replayRun s p.val sq.toNat) := rfl
theorem exec_replayRetrain (p : PIx) (s : State) : exec (.replayRetrain p) s = done s (replayRetrainRun s p.val) := rfl

theorem uport_regOr (s : State) (o m k : Nat) : uport (regOr s o m) k = uport s k := by rw [regOr_frame]; rfl

theorem uport_regCount (s : State) (o n k : Nat) : uport (regCount s o n) k = uport s k := by rw [regCount_frame]; rfl

/-- What a port's events reach before the pump: the port itself and registers. -/
structure PortFrom (p : Nat) (s t : State) : Prop where
  frame : t = { s with utr := t.utr, regs := t.regs }
  others : ∀ k, p ≠ k → uport t k = uport s k

theorem PortFrom.refl (p : Nat) (s : State) : PortFrom p s s := ⟨rfl, fun _ _ => rfl⟩

theorem PortFrom.trans {p : Nat} {s t v : State} (hst : PortFrom p s t) (htv : PortFrom p t v) : PortFrom p s v where
  frame := by rw [htv.frame, hst.frame]
  others k hk := (htv.others k hk).trans (hst.others k hk)

theorem portFrom_modPort (s : State) (p : Nat) (f : UPort → UPort) : PortFrom p s (modPort s p f) := ⟨rfl, fun _ hk => uport_modPort_ne s f hk⟩

theorem portFrom_regOr (p : Nat) (s : State) (o m : Nat) : PortFrom p s (regOr s o m) :=
  ⟨by rw [regOr_frame], fun k _ => uport_regOr s o m k⟩

theorem portFrom_regCount (p : Nat) (s : State) (o n : Nat) : PortFrom p s (regCount s o n) :=
  ⟨by rw [regCount_frame], fun k _ => uport_regCount s o n k⟩

/-! ### The link restarted and lost -/

/-- A port that leaves UP for another state. -/
def UPort.down (u : UPort) (st : Nat) : UPort :=
  { u with st := st, rate := 0, lock := 0, bypass := false, replaying := false, replays := 0, replayAt := none,
           lastPeer := if decide (u.st = 2) then some u.peer else u.lastPeer }

section
variable (s : State) (p : Nat)

theorem portFrom_portDown (st : Nat) : PortFrom p s (portDown s p st) := by
  unfold portDown
  dsimp only
  split
  · exact (portFrom_modPort s p _).trans (portFrom_regOr p _ _ _)
  · exact portFrom_modPort s p _

theorem uport_portDown (st : Nat) : uport (portDown s p st) p = (uport s p).down st := by
  unfold portDown
  dsimp only
  split
  next hup => rw [uport_regOr, uport_modPort_same, UPort.down, if_pos hup]
  next hup => rw [uport_modPort_same, UPort.down, if_neg hup]

theorem regBit_portDown (st : Nat) (h : (uport s p).st = 2) : regBit (portDown s p st) (utrPort p 4) 16 = true := by
  rw [portDown, if_pos (by simp [h])]
  exact regBit_regOr_same _ _ (by decide)

theorem portFrom_restartLink (peer : Nat) : PortFrom p s (restartLink s p peer) := by
  unfold restartLink
  exact (portFrom_regCount p s _ _).trans (portFrom_modPort _ p _)

/-- A restarted link keeps the unacknowledged flits for the same partner only. -/
theorem uport_restartLink (peer : Nat) : ∃ held free wire wireSq, uport (restartLink s p peer) p =
    let again := if (uport s p).lastPeer = some peer then (uport s p).unacked else []
    { uport s p with txSeq := again.length, unacked := again, rxSeq := 0, replaying := false, replays := 0, replayAt := none, held := held,
                     free := free, wire := wire, wireSq := wireSq } := by
  rw [restartLink, uport_modPort_same, uport_regCount]
  simp only [decide_eq_true_eq]
  exact ⟨_, _, _, _, rfl⟩

end

/-- A port that has trained with a partner. -/
def portTrainedUp (s : State) (p : Nat) (g : Greeting) : State :=
  modPort (restartLink s p g.rank.val) p fun u =>
    { u with st := 2, rate := if g.viaBypass then 1 else 2, lock := 15, peer := g.rank.val, bypass := g.viaBypass }

section
variable {s : State} {p : Nat} {g : Greeting}

theorem trained_rests (h : (uport s p).st ≠ 1) : trained s p g = s := if_pos (.inl h)

variable (hst : (uport s p).st = 1) (hen : (uport s p).en.en = true) (hopen : s.glb.bypassOpen = true)
include hst hen hopen

theorem trained_agrees (hok : greetOk s p g = true) : trained s p g = utrPump (noticeChange (portTrainedUp s p g)) :=
  (if_neg (by simp [hst, hen, hopen])).trans (if_neg (by simp [hok]))

theorem trained_mismatch (hno : greetOk s p g = false) :
    trained s p g = regOr (modPort s p fun u => { u with bypass := g.viaBypass }) (utrPort p 4) (2 ^ 17) :=
  (if_neg (by simp [hst, hen, hopen])).trans (if_pos (by simp [hno]))

end

/-- A port whose shutdown ends with the loss of its link. -/
def portShut (s : State) (p : Nat) : State :=
  modPort (portDown s p (if ((uport s p).en.pendOn || (uport s p).retrain) = true ∧ s.glb.bypassOpen = true then 1 else 0)) p fun u =>
    { u with en := { en := (uport s p).en.pendOn || (uport s p).retrain }, retrain := false }

section
variable {s : State} {p : Nat}

theorem linkLost_up (hoff : (uport s p).en.disabling = false) (hst : (uport s p).st = 2) : linkLost s p = noticeChange (portDown s p 1) :=
  (if_neg (ne_true_of_eq_false hoff)).trans (if_pos hst)

theorem linkLost_shuts (hon : (uport s p).en.disabling = true) : linkLost s p = noticeChange (portShut s p) := if_pos hon

theorem linkLost_rests (hoff : (uport s p).en.disabling = false) (hst : (uport s p).st ≠ 2) : linkLost s p = s :=
  (if_neg (ne_true_of_eq_false hoff)).trans (if_neg hst)

theorem replayRetrainRun_due (hst : (uport s p).st = 2) (h : 8 ≤ (uport s p).replays) (hoff : (uport s p).en.disabling = false) :
    replayRetrainRun s p = noticeChange (portDown s p 1) := if_pos ⟨hst, h, by simp [hoff]⟩

theorem replayRetrainRun_rests (h : (uport s p).st ≠ 2 ∨ (uport s p).replays < 8) : replayRetrainRun s p = s :=
  if_neg fun ⟨hst, hn, _⟩ => h.elim (fun h => h hst) hn.not_gt

end

/-! ### Credits and acknowledgements (R305, R311) -/

theorem modPort_congr {s : State} {p : Nat} {f g : UPort → UPort} (h : f (uport s p) = g (uport s p)) : modPort s p f = modPort s p g := by
  rw [modPort, h, modPort]

/-- HELD of a channel with credits returned by the partner. -/
def UPort.credited (u : UPort) (vc n : Nat) : UPort := { u with held := sset u.held vc (min 128 (heldOf u vc + n)) }

theorem creditRun_up {s : State} {p : Nat} (hst : (uport s p).st = 2) (vc n : Nat) : creditRun s p vc n =
    utrPump (modPort s p fun u => txPump u.wait.length (u.credited vc n)) := if_neg (by simp [hst])

theorem mem_vcOrder (u : UPort) {vc : Nat} (h : vc < 6) : vc ∈ vcOrder u := by
  refine List.mem_map.mpr ⟨(vc + 5 - u.lastVc % 6) % 6, List.mem_range.mpr (Nat.mod_lt _ (by decide)), ?_⟩
  omega

/-- The only flit that waits goes onto the wire where its channel may send. -/
theorem txPump_single {u : UPort} {vc : Nat} {f : Flit} (hvc : vc < 6) (hwait : u.wait = [(vc, f)]) (hsend : canSend u vc = true) :
    txPump 1 u = onWire { u with wait := [] } vc f := by
  have hfind : (vcOrder u).find? (fun v => canSend u v && u.wait.any fun x => x.1 == v) = some vc := by
    have hsome : ((vcOrder u).find? fun v => canSend u v && u.wait.any fun x => x.1 == v).isSome = true :=
      List.find?_isSome.mpr ⟨vc, mem_vcOrder u hvc, by simp [hsend, hwait]⟩
    obtain ⟨v, hv⟩ := Option.isSome_iff_exists.mp hsome
    have hwaits := List.find?_some hv
    simp only [hwait, List.any_cons, List.any_nil, Bool.or_false, Bool.and_eq_true, beq_iff_eq] at hwaits
    rw [hv, hwaits.2]
  rw [txPump, hfind, hwait]
  simp [findIx, nth, txPump]

theorem canSend_credited {u : UPort} {vc n : Nat} (hst : u.st = 2) (hoff : u.en.disabling = false) (hn : 0 < n) (hroom : u.unacked.length < 256) :
    canSend (u.credited vc n) vc = true := by
  have hheld : 0 < heldOf (u.credited vc n) vc := by
    rw [show heldOf (u.credited vc n) vc = min 128 (heldOf u vc + n) from sget_sset_same 128 u.held vc _]
    omega
  rw [canSend, decide_eq_true hheld]
  simp [UPort.credited, hst, hoff, hroom]

/-- The place of a link sequence in the replay buffer. -/
theorem replayIndex {base k : Nat} (hk : k < 2 ^ 18) : ((base + k) % 2 ^ 18 + 2 ^ 18 - base % 2 ^ 18) % 2 ^ 18 = k := by omega

theorem ackTo_of_wait_nil {u : UPort} {sq k : Nat} (hwait : u.wait = []) (hlen : k < u.unacked.length) (hk : k < 2 ^ 18)
    (hsq : sq = (u.txSeq - u.unacked.length + k) % 2 ^ 18) : ackTo u sq = { u with unacked := u.unacked.drop (k + 1) } := by
  subst hsq
  simp only [ackTo, replayIndex hk, Nat.succ_le_of_lt hlen, if_true, hwait]
  rfl

theorem replayFrom_eq {s : State} {p sq k : Nat} (hk : k < 2 ^ 18)
    (hsq : sq = ((uport s p).txSeq - (uport s p).unacked.length + k) % 2 ^ 18) : replayFrom s p sq =
      modPort (regOr (regCount s (utrPort p 0xC) 1) (utrPort p 4) (2 ^ 18)) p fun u =>
        { u with wire := u.wire ++ u.unacked.drop k,
                 wireSq := u.wireSq ++ (List.range (u.unacked.drop k).length).map (u.txSeq - u.unacked.length + k + ·),
                 replays := if u.replayAt = some sq then u.replays + 1 else 1, replayAt := some sq } := by
  have hindex : (sq + 2 ^ 18 - ((uport s p).txSeq - (uport s p).unacked.length) % 2 ^ 18) % 2 ^ 18 = k := by rw [hsq, replayIndex hk]
  rw [replayFrom, hindex]
  refine modPort_congr ?_
  rw [uport_regOr, uport_regCount]

/-- Settles O52. -/
theorem utridLink : Obligations.UtridLink := by
  unfold Obligations.UtridLink
  refine fun s p hs => ⟨fun g hst hen hopen => ⟨fun hok => ?trains, fun hno => ?mismatch⟩,
    fun g hst => exec_of_done_self (exec_portTrained p g s) (trained_rests hst), fun hoff hst => ?lost, fun hon => ?shuts,
    fun hoff hst => exec_of_done_self (exec_portLinkLost p s) (linkLost_rests hoff hst),
    fun hst => ⟨fun vc n hwait => ?credit, fun vc n f hwait hn hoff hroom => ?creditSends,
      fun sq k hlen hk hle hsq => ⟨fun hwait => ?ack, ?replay⟩, fun hn hoff => ?retrains,
      fun hn => exec_of_done_self (exec_replayRetrain p s) (replayRetrainRun_rests (.inr hn))⟩,
    fun hst => ⟨fun vc n => exec_of_done_self (exec_credit p vc n s) (if_pos hst),
      fun sq => ⟨exec_of_done_self (exec_ack p sq s) (if_pos hst), exec_of_done_self (exec_replay p sq s) (if_pos hst)⟩,
      exec_of_done_self (exec_replayRetrain p s) (replayRetrainRun_rests (.inl hst))⟩,
    fun u j => ⟨length_payloadBits u j, length_codeword u j, take_codeword u j, length_flitBits⟩⟩
  case trains =>
    have hfrom : PortFrom p.val s (portTrainedUp s p.val g) := (portFrom_restartLink s p.val _).trans (portFrom_modPort _ p.val _)
    obtain ⟨held, free, wire, wireSq, hport⟩ := uport_restartLink s p.val g.rank.val
    refine ⟨portTrainedUp s p.val g, becomes_of_done (congrArg (done s) (trained_agrees hst hen hopen hok)), ?_⟩
    rw [portTrainedUp, uport_modPort_same, hport]
    exact ⟨rfl, rfl, rfl, rfl, rfl, rfl, hfrom.others, hfrom.frame⟩
  case mismatch =>
    have hfrom := (portFrom_modPort s p.val fun u => { u with bypass := g.viaBypass }).trans (portFrom_regOr p.val _ (utrPort p.val 4) (2 ^ 17))
    refine answers_of_done (congrArg (done s) (trained_mismatch hst hen hopen hno)) (by rw [hfrom.frame]; exact hs) fun h => ⟨?_, ?_, ?_⟩
    · exact (uport_regOr _ _ _ p.val).trans (uport_modPort_same s p.val _)
    · exact regBit_regOr_same _ _ (by decide)
    · exact congrArg (fun t : State => { t with hif := h }) hfrom.frame
  case lost =>
    have hfrom := portFrom_portDown s p.val 1
    have hport := uport_portDown s p.val 1
    refine ⟨portDown s p.val 1, becomes_of_done (congrArg (done s) (linkLost_up hoff hst)), ?_⟩
    rw [hport, UPort.down, hst]
    exact ⟨rfl, rfl, rfl, regBit_portDown s p.val 1 hst, hfrom.others, hfrom.frame⟩
  case shuts =>
    have hfrom : PortFrom p.val s (portShut s p.val) := (portFrom_portDown s p.val _).trans (portFrom_modPort _ p.val _)
    refine ⟨portShut s p.val, becomes_of_done (congrArg (done s) (linkLost_shuts hon)), ?_⟩
    rw [portShut, uport_modPort_same, uport_portDown]
    exact ⟨rfl, rfl, by simp only [UPort.down, Bool.or_eq_true], hfrom.others, hfrom.frame⟩
  case credit =>
    refine becomes_of_done (congrArg (done s) ((creditRun_up hst vc.val n.toNat).trans (congrArg utrPump (modPort_congr ?_))))
    exact congrArg (txPump · ((uport s p.val).credited vc.val n.toNat)) (congrArg List.length hwait)
  case creditSends =>
    have hsend := canSend_credited (vc := vc.val) hst hoff hn hroom
    have hpump : txPump (uport s p.val).wait.length ((uport s p.val).credited vc.val n.toNat) =
        onWire { (uport s p.val).credited vc.val n.toNat with wait := [] } vc.val f := by
      rw [hwait]
      exact txPump_single vc.isLt hwait hsend
    refine ⟨_, becomes_of_done (congrArg (done s) (creditRun_up hst vc.val n.toNat)), ?_⟩
    rw [uport_modPort_same, hpump]
    refine ⟨rfl, rfl, rfl, rfl, ?_, rfl⟩
    have hheld : heldOf ((uport s p.val).credited vc.val n.toNat) vc.val = min 128 (heldOf (uport s p.val) vc.val + n.toNat) :=
      sget_sset_same 128 (uport s p.val).held vc.val _
    rw [← hheld]
    exact sget_sset_same 128 _ vc.val _
  case ack =>
    refine becomes_of_done (congrArg (done s) ((if_neg (by simp [hst])).trans (congrArg utrPump (modPort_congr ?_))))
    exact ackTo_of_wait_nil (u := { uport s p.val with replays := 0, replayAt := none }) hwait hlen hk hsq
  case replay => exact becomes_of_done (congrArg (done s) ((if_neg (by simp [hst])).trans (replayFrom_eq hk hsq)))
  case retrains =>
    have hfrom := portFrom_portDown s p.val 1
    refine ⟨portDown s p.val 1, becomes_of_done (congrArg (done s) (replayRetrainRun_due hst hn hoff)), ?_⟩
    rw [uport_portDown, UPort.down]
    exact ⟨rfl, rfl, rfl, hfrom.others, hfrom.frame⟩

/-! ## A flit that arrives at a port (R305, R306) -/

theorem exec_flitRow {p : PIx} {f : Flit} {i : Instr} {type : Nat} (h : flitRow p f i type) (hshape : f.shape = true) (s : State) :
    exec i s = done s (flitArrives s p.val [type] f) := by
  obtain ⟨rfl, rfl⟩ | ⟨rfl, rfl⟩ | ⟨rfl, rfl⟩ | ⟨rfl, rfl⟩ | ⟨rfl, rfl⟩ | ⟨rfl, rfl⟩ | ⟨rfl, rfl⟩ | ⟨rfl, rfl⟩ := h
  all_goals exact checked_ok _ s _ hshape

section
variable {s : State} {p type : Nat} {f : Flit}

theorem flitArrives_type (h : (fhdrOf f.hdr).type = type) : flitArrives s p [type] f = utrPump (receiveFlit s p f) :=
  if_neg (by simp [h])

theorem flitArrives_other (h : (fhdrOf f.hdr).type ≠ type) : flitArrives s p [type] f = s := if_pos (by simp [h])

end

/-! ### What the check of a flit leaves -/

theorem regOr_utr (s : State) (o m : Nat) : (regOr s o m).utr = s.utr := by rw [regOr_frame]

theorem regCount_utr (s : State) (o n : Nat) : (regCount s o n).utr = s.utr := by rw [regCount_frame]

theorem logEvent_utr (s : State) (code source sev : Nat) (d : List Byte) : (logEvent s code source sev d).utr = s.utr := rfl

theorem captureErr_utr (s : State) (store kind who a : Nat) : (captureErr s store kind who a).utr = s.utr := by
  unfold captureErr
  split <;> simp only [regOr_utr, regSet_utr]

theorem countCe_utr (s : State) (store : Nat) : (countCe s store).utr = s.utr := by
  unfold countCe
  dsimp only
  split <;> simp only [regOr_utr, regCount_utr]

theorem countUe_utr (s : State) (store who a : Nat) : (countUe s store who a).utr = s.utr := by
  simp only [countUe, captureErr_utr, regOr_utr, regCount_utr, logEvent_utr]

theorem countAe_utr (s : State) (store who a : Nat) : (countAe s store who a).utr = s.utr := by
  simp only [countAe, captureErr_utr, regOr_utr, regCount_utr, logEvent_utr]

theorem countPoison_utr (s : State) (store : Nat) : (countPoison s store).utr = s.utr := by
  simp only [countPoison, regOr_utr, regCount_utr]

theorem checkQuad_utr (p sq : Nat) (a : State × Flit × Bool) (x : FlitErr) : (checkQuad p sq a x).1.utr = a.1.utr := by
  obtain ⟨s, f, lost⟩ := a
  unfold checkQuad
  dsimp only
  split <;> simp only [countCe_utr, countUe_utr, countAe_utr]

theorem foldl_checkQuad_utr (p sq : Nat) (es : List FlitErr) (a : State × Flit × Bool) : (es.foldl (checkQuad p sq) a).1.utr = a.1.utr :=
  List.foldlRecOn (motive := fun b : State × Flit × Bool => b.1.utr = a.1.utr) es _ rfl fun _ h x _ => (checkQuad_utr p sq _ x).trans h

theorem foldl_countPoison_utr {α : Type} (l : List α) (store : Nat) (s : State) : (l.foldl (fun s _ => countPoison s store) s).utr = s.utr :=
  List.foldlRecOn (motive := fun t : State => t.utr = s.utr) l _ rfl fun _ h _ _ => (countPoison_utr _ store).trans h

/-- The check of a flit counts in the registers; the ports stay as they are. -/
theorem readFlit_utr (s : State) (p : Nat) (f : Flit) : (readFlit s p f).1.utr = s.utr := by
  have hcheck := foldl_checkQuad_utr p (uport s p).rxSeq f.errs (s, f, false)
  rw [readFlit]
  dsimp only
  split
  · exact hcheck
  · exact (foldl_countPoison_utr _ 13 _).trans hcheck

theorem readFlit_clean (s : State) (p : Nat) {f : Flit} (herrs : f.errs = []) (hpoison : (f.poison.all fun b => !b) = true) :
    readFlit s p f = (s, some f) := by
  have hnone : f.poison.filter id = [] := List.filter_eq_nil_iff.mpr fun b hb => by simpa using List.all_eq_true.mp hpoison b hb
  rw [readFlit, herrs]
  dsimp only [List.foldl_nil]
  rw [if_neg Bool.false_ne_true, hnone, ← herrs]
  rfl

theorem readFlit_ue (s : State) (p : Nat) {f : Flit} {k : Fin 9} {e : BitVec 146} (herrs : f.errs = [{ quad := k, err := e }])
    (hue : classify (nth false f.poison k.val) (flitQuad f k.val == 0) e.toNat 0 = .ue) :
    readFlit s p f = (countUe s 13 (0xF8 + p) (16 * flitFold (uport s p).rxSeq k.val), none) := by
  have hclass : classify (nth false f.poison k.val) (flitQuad f k.val == 0) e.toNat (BitVec.toNat (0 : BitVec 59)) = .ue := hue
  rw [readFlit, herrs]
  simp only [List.foldl_cons, List.foldl_nil, checkQuad, hclass, if_true]

/-! ### The receiver of a port -/

theorem modPort_modPort_same (s : State) (p : Nat) (f g : UPort → UPort) : modPort (modPort s p f) p g = modPort s p fun u => g (f u) := by
  rw [modPort, uport_modPort_same]
  simp only [modPort, sset_sset_same]

section
variable {s t : State} {p : Nat} {f g : Flit}

theorem uport_of_readFlit {o : Option Flit} (h : readFlit s p f = (t, o)) : uport t p = uport s p := by
  have hutr : t.utr = s.utr := by simpa [h] using readFlit_utr s p f
  rw [uport, hutr, uport]

theorem receiveFlit_down (h : (uport s p).st ≠ 2) : receiveFlit s p f = s := if_pos h

variable (hup : (uport s p).st = 2)
include hup

theorem receiveFlit_whole (hread : readFlit s p f = (t, some g)) (hvc : (fhdrOf g.hdr).vc < 6) : receiveFlit s p f = modPort t p fun u =>
    { u with replaying := false, rxSeq := u.rxSeq + 1, rx := sset u.rx (fhdrOf g.hdr).vc (sget [] u.rx (fhdrOf g.hdr).vc ++ [g]),
             words := u.words ++ [(1, u.rxSeq % 2 ^ 18 * 4)] } := by
  rw [receiveFlit, if_neg (not_not.mpr hup), hread]
  dsimp only
  rw [sendWord, modPort_modPort_same]
  refine modPort_congr ?_
  rw [if_pos hvc, uport_of_readFlit hread]

theorem receiveFlit_lost (hread : readFlit s p f = (t, none)) (hfirst : (uport s p).replaying = false) : receiveFlit s p f =
    modPort t p fun u => { u with replaying := true, words := u.words ++ [(2, u.rxSeq % 2 ^ 18 * 4)] } := by
  rw [receiveFlit, if_neg (not_not.mpr hup), hread]
  dsimp only
  rw [if_neg (ne_true_of_eq_false hfirst), sendWord, modPort_modPort_same]
  refine modPort_congr ?_
  rw [uport_of_readFlit hread]

theorem receiveFlit_discards (hread : (readFlit s p f).2 = none) (hagain : (uport s p).replaying = true) : receiveFlit s p f = s := by
  have hpair : readFlit s p f = ((readFlit s p f).1, none) := Prod.ext rfl hread
  rw [receiveFlit, if_neg (not_not.mpr hup), hpair]
  exact if_pos hagain

end

/-! ## The flits at the heads of the receive buffers -/

/-! ### For this rank: messages and chains (R300, R324 to R328) -/

section
variable {s : State} {p vc : Nat} {f : Flit}

section
variable (hdst : (fhdrOf f.hdr).dst = s.glb.rank)
include hdst

theorem useFlit_head (h : (fhdrOf f.hdr).type = 0x10) : useFlit s p vc f = takeHead s f := by simp [useFlit, h, hdst]

theorem useFlit_data (h : (fhdrOf f.hdr).type = 0x11) : useFlit s p vc f = some (takeData s f) := by simp [useFlit, h, hdst]

theorem useFlit_receipt (h : (fhdrOf f.hdr).type = 0x20) (hlen : (fhdrOf f.hdr).len = 1) :
    useFlit s p vc f = some (takeReceipt s (fhdrOf f.hdr).src (leAt (payBytes f) 0 1)) := by simp [useFlit, h, hdst, hlen]

theorem useFlit_block (h : (fhdrOf f.hdr).type = 0x20) (hlen : (fhdrOf f.hdr).len ≠ 1) : useFlit s p vc f =
    if (chan s (0x40 + (fhdrOf f.hdr).src) 0).queue.length < Config.mbxSlots then
      some (modChan s (0x40 + (fhdrOf f.hdr).src) 0 fun c =>
        { c with queue := c.queue ++ [(List.range 16).map fun i => BitVec.ofNat 32 (leAt (payBytes f) (4 * i) 4)] })
    else none := by simp [useFlit, h, hdst, hlen]

theorem useFlit_word (h : (fhdrOf f.hdr).type = 0x21) (hfree : (chan s (0x40 + (fhdrOf f.hdr).src) 0).word = none) : useFlit s p vc f =
    some (modChan s (0x40 + (fhdrOf f.hdr).src) 0 fun c => { c with word := some (BitVec.ofNat 32 (leAt (payBytes f) 0 4)) }) := by
  simp [useFlit, h, hdst, hfree]

theorem useFlit_word_waits {w : Word} (h : (fhdrOf f.hdr).type = 0x21) (hfull : (chan s (0x40 + (fhdrOf f.hdr).src) 0).word = some w) :
    useFlit s p vc f = none := by simp [useFlit, h, hdst, hfull]

end

theorem findChain_setChain (s : State) (src : Nat) (c : Chain) (h : c.src = src) : findChain (setChain s src (some c)) src = some c := by
  have hothers : (s.utr.chains.filter fun x => x.src != src).find? (fun x => x.src == src) = none :=
    List.find?_eq_none.mpr fun x hx => by simpa using (List.mem_filter.mp hx).2
  simp [findChain, setChain, hothers, h]

/-- Registers and the Utrid state are all that changes. -/
theorem modRed_frame (s : State) (n seq : Nat) (g : Red → Red) : modRed s n seq g = { s with utr := (modRed s n seq g).utr } := rfl

/-- A CHAIN_HEAD whose chain ends here opens the chain of its rank (R326, R327). -/
theorem takeHead_ends {red : Red} (hfind : findRed s (leAt (sub (payBytes f) 0 32) 4 1) (fhdrOf f.hdr).seq = some red) (hspans : red.spansLeft = 0)
    (hroot : red.root = s.glb.rank) (hpassed : red.passed = true) : ∃ (v : State) (c : Chain),
      takeHead s f = some (setChain v (fhdrOf f.hdr).src (some c)) ∧ v = { s with utr := v.utr, regs := v.regs } ∧
      c.src = (fhdrOf f.hdr).src ∧ c.ends = true ∧ c.seq = (fhdrOf f.hdr).seq ∧ c.adds = false := by
  rw [takeHead]
  simp only [hfind, hspans, hroot, hpassed, ne_eq, not_true_eq_false, if_false, beq_self_eq_true, Bool.true_or, Bool.and_true, if_true,
    Bool.not_true, Bool.and_false, Bool.false_eq_true, and_false]
  refine ⟨_, _, rfl, ?_, rfl, rfl, rfl, rfl⟩
  rw [modRed_frame]
  split
  · rw [regOr_frame]
  · rfl

theorem passRecords1_short {red : Red} {c : Chain} (n : Nat) (h : c.inBuf.length < chainRec c.hdr) : passRecords1 red (n + 1) s c = (s, c) := if_pos h

/-- Less than a whole record joins the chain's input (R325). -/
theorem takeData_joins {c : Chain} {red : Red} (hchain : findChain s (fhdrOf f.hdr).src = some c) (hred : findRed s c.entry c.seq = some red)
    (hends : c.ends = true) (hshort : c.inBuf.length + (payBytes f).length < chainRec c.hdr) (hmore : (fhdrOf f.hdr).last = false) :
    takeData s f = setChain s (fhdrOf f.hdr).src
      (some { c with inBad := c.inBad ++ (payPoison f).map (· + c.inBuf.length / 16), inBuf := c.inBuf ++ payBytes f }) := by
  rw [takeData]
  simp only [hchain, hred]
  rw [passRecords1_short _ (by simpa using hshort)]
  simp only [hends, hmore, if_true, Bool.false_eq_true, if_false]

end

/-! ### Membership and notices (R309, R310) -/

theorem regNat_regSet_same (s : State) (o n : Nat) : regNat (regSet s o (BitVec.ofNat 32 n)) o = n % 2 ^ 32 := by
  rw [regNat, regGet_regSet_same, BitVec.toNat_ofNat]

theorem regNat_of_regs {s t : State} (h : t.regs = s.regs) (o : Nat) : regNat t o = regNat s o := by rw [regNat, regGet, h, regNat, regGet]

theorem forgetFar_frame (s : State) : forgetFar s = { s with chans := (forgetFar s).chans } := by
  refine List.foldlRecOn (motive := fun t : State => t = { s with chans := t.chans }) _ _ rfl fun t ht k _ => ?_
  dsimp only
  split
  · exact ht
  · rw [modChan, ht]

/-- A membership adopted, before the messages for peers move. -/
def adopted (s : State) (e : Nat) (m : Member) : State :=
  forgetFar (modUtr (regOr (regSet (regSet (regSet s (utrCom 0xC) (BitVec.ofNat 32 e)) (utrCom 8) (BitVec.ofNat 32 m.live))
    (utrCom 0x18) (BitVec.ofNat 32 ((ranksOf m.live).head?.getD 0))) (utrCom 0x10) 1) fun u => { u with books := sset u.books e m })

theorem adoptEpoch_eq (s : State) (e : Nat) (m : Member) : adoptEpoch s e m = forwardPeers (adopted s e m) := rfl

section
variable (s : State) (e : Nat) (m : Member)

theorem regs_adopted : (adopted s e m).regs =
    (regOr (regSet (regSet (regSet s (utrCom 0xC) (BitVec.ofNat 32 e)) (utrCom 8) (BitVec.ofNat 32 m.live))
      (utrCom 0x18) (BitVec.ofNat 32 ((ranksOf m.live).head?.getD 0))) (utrCom 0x10) 1).regs := by
  rw [adopted, forgetFar_frame]
  rfl

theorem epochNow_adopted (he : e < 2 ^ 32) : epochNow (adopted s e m) = e := by
  rw [epochNow, regNat_of_regs (regs_adopted s e m), regNat, regGet_regOr_ne _ _ _ _ (by decide), regGet_regSet_ne _ _ _ _ (by decide),
    regGet_regSet_ne _ _ _ _ (by decide), regGet_regSet_same, BitVec.toNat_ofNat, Nat.mod_eq_of_lt he]

theorem liveNow_adopted (hlive : m.live < 2 ^ 16) : liveNow (adopted s e m) = m.live := by
  rw [liveNow, regField, regNat_of_regs (regs_adopted s e m), regNat, regGet_regOr_ne _ _ _ _ (by decide), regGet_regSet_ne _ _ _ _ (by decide),
    regGet_regSet_same, BitVec.toNat_ofNat, fieldOf]
  omega

theorem regBit_adopted : regBit (adopted s e m) (utrCom 0x10) 0 = true := by
  rw [regBit, regNat_of_regs (regs_adopted s e m)]
  exact regBit_regOr_one _ _

end

theorem epoch_lt (q : Quad) : (fhdrOf q).epoch < 2 ^ 32 := Nat.mod_lt _ (by decide)

section
variable {s : State} {p vc : Nat} {f : Flit}

theorem useFlit_membership (h : (fhdrOf f.hdr).type = 0x30) : useFlit s p vc f = some (takeMembership s p f) := by simp [useFlit, h]

theorem useFlit_notice (h : (fhdrOf f.hdr).type = 0x31) : useFlit s p vc f = some (takeNotice s p f) := by simp [useFlit, h]

theorem takeNotice_repeat (h : (fhdrOf f.hdr).src = s.glb.rank ∨ newer s (fhdrOf f.hdr).src (fhdrOf f.hdr).seq = false) : takeNotice s p f = s :=
  if_pos (h.imp_right fun hold => by simp [hold])

/-- What a status notice says of its rank. -/
def statusOf (f : Flit) : NoticeRec :=
  { seq := (fhdrOf f.hdr).seq, peers := (List.range (min 4 (leAt (payBytes f) 1 1))).map fun i => leAt (payBytes f) (2 + i) 1 % 16,
    ready := leAt (payBytes f) 8 8 }

/-- A status notice of a rank, flooded on and kept. -/
def statusKept (s : State) (p : Nat) (f : Flit) : State :=
  modUtr (flood s (some p) f) fun u => { u with notices := sset u.notices (fhdrOf f.hdr).src (statusOf f) }

theorem notices_statusKept (s : State) (p : Nat) (f : Flit) :
    sget ({} : NoticeRec) (statusKept s p f).utr.notices (fhdrOf f.hdr).src = statusOf f := by
  rw [statusKept, modUtr_utr]
  exact sget_sset_same _ _ _ _

theorem regs_statusKept (s : State) (p : Nat) (f : Flit) : (statusKept s p f).regs = (flood s (some p) f).regs := modUtr_regs _ _

theorem takeNotice_status (hsrc : (fhdrOf f.hdr).src ≠ s.glb.rank) (hnew : newer s (fhdrOf f.hdr).src (fhdrOf f.hdr).seq = true)
    (hkind : leAt (payBytes f) 0 1 = 0) : takeNotice s p f = coordinate (statusKept s p f) :=
  (if_neg (by simp [hsrc, hnew])).trans (if_pos hkind)

/-! ### Ring queues (R320 to R323) -/

section
variable (hends : castNext s (some (p, vc, (fhdrOf f.hdr).dst)) = [])
include hends

theorem useFlit_mark (h : (fhdrOf f.hdr).type = 2) : useFlit s p vc f = some (takeMark s (fhdrOf f.hdr).queue (fhdrOf f.hdr) (payBytes f)) := by
  have hfits : copyFits s (fhdrOf f.hdr) = true := by simp [copyFits, h]
  simp [useFlit, h, hends, hfits, castFlit]

theorem useFlit_record (h : (fhdrOf f.hdr).type = 1) (hfits : copyFits s (fhdrOf f.hdr) = true) :
    useFlit s p vc f = some (takeRecord s (fhdrOf f.hdr).queue (fhdrOf f.hdr) f) := by
  simp [useFlit, h, hends, hfits, castFlit]

end

theorem useFlit_record_waits (h : (fhdrOf f.hdr).type = 1) (hfull : copyFits s (fhdrOf f.hdr) = false) : useFlit s p vc f = none := by
  simp [useFlit, h, hfull]

end

theorem rq_modRq_same (s : State) (q : Nat) (f : RingQ → RingQ) : rq (modRq s q f) q = f (rq s q) := sget_sset_same _ _ _ _

theorem rq_regOr (s : State) (o m q : Nat) : rq (regOr s o m) q = rq s q := by rw [rq, regOr_utr, rq]

theorem rq_modQueue (s : State) (k q : Nat) (f : Queue → Queue) : rq (modQueue s k f) q = rq s q := rfl

theorem modRq_congr {s : State} {q : Nat} {f g : RingQ → RingQ} (h : f (rq s q) = g (rq s q)) : modRq s q f = modRq s q g := by rw [modRq, h, modRq]

section
variable {s : State} {q : Nat} {h : FHdr} {f : Flit} (hcopies : copies s q = true)
include hcopies

/-- The mark that comes next joins the queue's marks (R320). -/
theorem takeMark_next (bs : List Byte) (hpass : (rq s q).passing = false) (hstarted : (rq s q).started = true) (hgap : (rq s q).gap = false)
    (hnext : (rq s q).next = h.seq) : takeMark s q h bs = modRq s q fun k =>
      { k with marks := k.marks ++ [{ first := h.seq, count := leAt bs 0 4, group := leAt bs 4 1, epoch := h.epoch }] } := by
  unfold takeMark
  simp only [hpass, hstarted, hgap, hnext, hcopies, Bool.false_and, Bool.not_true, Bool.not_false, Bool.false_eq_true, if_false, ne_eq,
    not_true_eq_false, and_false, or_self, and_true]
  refine modRq_congr ?_
  rw [← hnext, ← hstarted, ← hgap]

section
variable (hgap : (rq s q).gap = false)
include hgap

theorem takeRecord_gap (hnext : (rq s q).next ≠ h.seq) : takeRecord s q h f = foundGap s q :=
  (if_neg (by simp [hcopies, hgap])).trans (if_pos (.inr hnext))

variable (hstarted : (rq s q).started = true) (hnext : (rq s q).next = h.seq) (hfirst : h.first = true)
include hstarted hnext hfirst

theorem takeRecord_begins (hmore : h.last = false) : takeRecord s q h f = modRq s q fun k => { k with asm := payBytes f, asmBad := payPoison f } := by
  refine ((if_neg (by simp [hcopies, hgap])).trans (if_neg (by simp [hstarted, hnext]))).trans ?_
  simp [hfirst, hmore]

theorem takeRecord_whole (hlast : h.last = true) (hclean : payPoison f = []) : takeRecord s q h f =
    modRq (ingest s q [(payBytes f).take (recStride s q)]) q fun k => { k with asm := [], asmBad := [], next := (k.next + 1) % 2 ^ 32, told := false } := by
  refine ((if_neg (by simp [hcopies, hgap])).trans (if_neg (by simp [hstarted, hnext]))).trans ?_
  simp [hfirst, hlast, hclean]

end

end

theorem rq_foundGap (s : State) (q : Nat) : (rq (foundGap s q) q).gap = true ∧ (rq (foundGap s q) q).marks = [] := by
  rw [foundGap, rq_modRq_same, rq_regOr, dropMarks, rq_modQueue, rq_modRq_same]
  exact ⟨rfl, rfl⟩

theorem regBit_foundGap (s : State) (q : Nat) : regBit (foundGap s q) (utrCom 0x10) 1 = true := regBit_regOr_same _ _ (i := 1) (by decide)

/-- Settles O53. -/
theorem flitsArrive : Obligations.FlitsArrive := by
  unfold Obligations.FlitsArrive
  refine ⟨fun s p f i type hs hrow hshape htype => ?arrives,
    fun s p f i type hs hrow hshape htype => exec_of_done_self (exec_flitRow hrow hshape s) (flitArrives_other htype),
    fun s p vc f hdst => ⟨useFlit_word hdst, fun h hword => ?wordWaits, fun h hlen hroom => (useFlit_block hdst h hlen).trans (if_pos hroom),
      fun h hlen hfull => (useFlit_block hdst h hlen).trans (if_neg hfull.not_gt), useFlit_receipt hdst, fun h hnone => ?headWaits,
      fun red h hfind hspans hroot hpassed => ?headEnds, fun c red h hchain hred hends hshort hmore => ?dataJoins, fun h hnone => ?dataDropped⟩,
    fun s p vc f => ⟨fun h hold => ?old, fun h hnew => ?adopts, fun h hrepeat => ?repeated, fun h hsrc hnew hkind => ?status,
      fun hends => ⟨useFlit_mark hends, useFlit_record hends, useFlit_record_waits⟩⟩,
    fun s q h f bs hcopies => ⟨fun hpass hstarted hgap hnext => ?mark, fun hgap hstarted hnext hfirst => ⟨fun hmore => ?begins,
      takeRecord_whole hcopies hgap hstarted hnext hfirst⟩, fun hgap hstarted hnext => ?gap⟩⟩
  case arrives =>
    have hrun := (exec_flitRow hrow hshape s).trans (congrArg (done s) (flitArrives_type htype))
    refine ⟨fun hup t g hread hvc => ?_, fun hup t hread hfirst => ?_, fun hup hread hagain => ?_, readFlit_clean s p.val,
      fun k e => readFlit_ue s p.val, fun hdown => ?_⟩
    · exact becomes_of_done (hrun.trans (congrArg (fun v => done s (utrPump v)) (receiveFlit_whole hup hread hvc)))
    · exact becomes_of_done (hrun.trans (congrArg (fun v => done s (utrPump v)) (receiveFlit_lost hup hread hfirst)))
    · exact becomes_of_done (hrun.trans (congrArg (fun v => done s (utrPump v)) (receiveFlit_discards hup hread hagain)))
    · exact becomes_of_done (hrun.trans (congrArg (fun v => done s (utrPump v)) (receiveFlit_down hdown)))
  case wordWaits =>
    obtain ⟨w, hw⟩ := Option.ne_none_iff_exists'.mp hword
    exact useFlit_word_waits hdst h hw
  case headWaits =>
    rw [useFlit_head hdst h, takeHead]
    simp only [hnone]
  case headEnds =>
    obtain ⟨v, c, htake, hframe, hcsrc, hends, hseq, hadds⟩ := takeHead_ends hfind hspans hroot hpassed
    refine ⟨_, (useFlit_head hdst h).trans htake, ⟨c, findChain_setChain v _ c hcsrc, hends, hseq, hadds⟩, ?_⟩
    rw [setChain, modUtr, hframe]
  case dataJoins =>
    have hsrc : c.src = (fhdrOf f.hdr).src := by simpa using List.find?_some hchain
    refine ⟨_, (useFlit_data hdst h).trans (congrArg some (takeData_joins hchain hred hends hshort hmore)), ⟨_, findChain_setChain s _ _ hsrc, rfl, rfl⟩, rfl⟩
  case dataDropped =>
    rw [useFlit_data hdst h, takeData, hnone]
    rfl
  case old => exact (useFlit_membership h).trans (congrArg some (if_pos hold))
  case adopts =>
    refine ⟨_, (useFlit_membership h).trans (congrArg some ((if_neg hnew.not_ge).trans (congrArg (flood · (some p) f) (adoptEpoch_eq s _ _)))), ?_⟩
    exact ⟨epochNow_adopted s _ _ (epoch_lt f.hdr), liveNow_adopted s _ _ (Nat.mod_lt _ (by decide)), regBit_adopted s _ _⟩
  case repeated => exact (useFlit_notice h).trans (congrArg some (takeNotice_repeat hrepeat))
  case status =>
    exact ⟨_, (useFlit_notice h).trans (congrArg some (takeNotice_status hsrc hnew hkind)), notices_statusKept s p f, regs_statusKept s p f⟩
  case mark =>
    rw [takeMark_next hcopies bs hpass hstarted hgap hnext, rq_modRq_same]
    exact ⟨rfl, rfl⟩
  case begins =>
    rw [takeRecord_begins hcopies hgap hstarted hnext hfirst hmore, rq_modRq_same]
    exact ⟨rfl, rfl⟩
  case gap =>
    rw [takeRecord_gap hcopies hgap hnext]
    obtain ⟨hset, hmarks⟩ := rq_foundGap s q
    exact ⟨hset, hmarks, regBit_foundGap s q⟩

end Sys2Proof.Machine
end

section
/-! The proofs of the family `14_memory.md`: what device memory reads back (O36), and the integrity of an array (O27). -/

namespace Sys2Proof.Machine

/-! ## Device memory (R342, R343) -/

/-- Settles O36: over quads without stored errors a write is a plain write, and a read delivers what lies there. -/
theorem memoryReadsBackWhatWasWritten : Obligations.MemoryReadsBackWhatWasWritten := by
  unfold Obligations.MemoryReadsBackWhatWasWritten
  intro s q who a bs hq hb ha hm
  have hlen : 0 < bs.length := List.length_pos_iff.mpr hb
  have hwrite := writeMem_clean (q := q) (who := who) hq ha hb hm
  refine ⟨congrArg Prod.snd hwrite, fun p w => ?reads, fun b hout => ?others, by rw [hwrite], fun hc => writeMem_canonical hc q who a bs⟩
  case reads =>
    rw [hwrite, readMem_clean (s := { s with mem := mwrite s.mem a bs }) hq (by omega) hm, mread_mwrite]
  case others =>
    rw [hwrite]
    exact mget_mwrite_outside bs s.mem a b hout

/-! ## What reading and rewriting an array leaves (R347, R349) -/

theorem readFrom_arrScrubQuad (s : State) (who n : Nat) (x : Nat × Nat) : ReadFrom s (arrScrubQuad s who n x).1 := by
  unfold arrScrubQuad
  dsimp only
  split
  · exact .refl s
  · exact .refl s
  · exact readFrom_countCe s x.1
  · exact readFrom_countUe s x.1 who _
  · exact readFrom_countAe s x.1 who _

theorem readFrom_arrScrub (who n : Nat) (s : State) (l : List (Nat × Nat)) : ReadFrom s (arrScrub who n s l).1 := by
  induction l generalizing s with
  | nil => exact .refl s
  | cons x l ih => exact (readFrom_arrScrubQuad s who n x).trans (ih _)

theorem arrScrubQuad_keeps (s : State) (who n : Nat) (x : Nat × Nat) :
    (arrScrubQuad s who n x).1.hostWait = s.hostWait ∧ (arrScrubQuad s who n x).1.mem = s.mem := by
  unfold arrScrubQuad
  dsimp only
  split <;> simp

/-- Reading an array's quads waits for no host and writes no memory. -/
theorem arrScrub_keeps (who n : Nat) (s : State) (l : List (Nat × Nat)) :
    (arrScrub who n s l).1.hostWait = s.hostWait ∧ (arrScrub who n s l).1.mem = s.mem := by
  induction l generalizing s with
  | nil => exact ⟨rfl, rfl⟩
  | cons x l ih =>
    obtain ⟨hw, hm⟩ := arrScrubQuad_keeps s who n x
    obtain ⟨hws, hms⟩ := ih (arrScrubQuad s who n x).1
    exact ⟨hws.trans hw, hms.trans hm⟩

/-- `t` is `s` but for what a rewrite from an image may change: what a read changes, and the arrays. -/
def RewriteFrom (s t : State) : Prop :=
  ∃ wait regs hif sage quads mem arrays,
    t = { s with hostWait := wait, regs := regs, hif := hif, sage := sage, quads := quads, mem := mem, arrays := arrays }

theorem RewriteFrom.trans {s t u : State} (hst : RewriteFrom s t) (htu : RewriteFrom t u) : RewriteFrom s u := by
  obtain ⟨_, _, _, _, _, _, _, rfl⟩ := hst
  obtain ⟨_, _, _, _, _, _, _, rfl⟩ := htu
  exact ⟨_, _, _, _, _, _, _, rfl⟩

theorem RewriteFrom.of_readFrom {s t : State} (h : ReadFrom s t) : RewriteFrom s t := by
  obtain ⟨_, _, _, _, _, _, rfl⟩ := h
  exact ⟨_, _, _, _, _, _, _, rfl⟩

theorem RewriteFrom.queues {s t : State} (h : RewriteFrom s t) : t.queues = s.queues := by
  obtain ⟨_, _, _, _, _, _, _, rfl⟩ := h
  rfl

theorem RewriteFrom.fences {s t : State} (h : RewriteFrom s t) : t.fences = s.fences := by
  obtain ⟨_, _, _, _, _, _, _, rfl⟩ := h
  rfl

theorem rewriteFrom_modArr (s : State) (n : Nat) (f : Arr → Arr) : RewriteFrom s (modArr s n f) := ⟨_, _, _, _, _, _, _, rfl⟩

theorem rewriteFrom_setQuad (s : State) (store f : Nat) (v : QuadState) : RewriteFrom s (setQuad s store f v) := ⟨_, _, _, _, _, _, _, rfl⟩

theorem rewriteFrom_foldl_setQuad {α : Type} (l : List α) (store f : State → α → Nat) (v : State → α → QuadState) (s : State) :
    RewriteFrom s (l.foldl (fun t x => setQuad t (store t x) (f t x) (v t x)) s) :=
  List.foldlRecOn (motive := fun t : State => RewriteFrom s t) l _ (.of_readFrom (.refl s)) fun t h _ _ => h.trans (rewriteFrom_setQuad t _ _ _)

theorem RewriteFrom.of_ite {s : State} {c : Prop} [Decidable c] {a b : State × Bool} (ha : RewriteFrom s a.1) (hb : RewriteFrom s b.1) :
    RewriteFrom s (if c then a else b).1 := by
  split
  · exact ha
  · exact hb

theorem rewriteFrom_rewriteItem (s : State) (n : Nat) (w : ArrItem) : RewriteFrom s (rewriteItem s n w).1 := by
  unfold rewriteItem
  cases (arr s n).held with
  | none => exact .of_readFrom (.refl s)
  | some at_ =>
    cases (arr s n).img with
    | none => exact .of_readFrom (.refl s)
    | some im =>
      have hread : ∀ b len, RewriteFrom s (readMem (readMem s 0 0xFE at_.toNat 64).1 0 0xFE b len).1 := fun b len =>
        .of_readFrom ((readFrom_readMem s 0 0xFE _ _).trans (readFrom_readMem _ 0 0xFE _ _))
      exact .of_ite (hread _ _) (((hread _ _).trans (rewriteFrom_modArr _ n _)).trans (rewriteFrom_foldl_setQuad _ _ _ _ _))

theorem modArr_frame (s : State) (n : Nat) (f : Arr → Arr) : modArr s n f = { s with arrays := (modArr s n f).arrays } := rfl

/-! ## The scrubber, the check and the pattern test of an array (R347 to R351) -/

theorem exec_arrayScrubRead (n : AIx) (w : ArrItem) (s : State) : exec (.arrayScrubRead n w) s = alive s fun s => arrayScrubRun s n.val w := rfl
theorem exec_arrayRowRewrite (n : AIx) (s : State) : exec (.arrayRowRewrite n) s = alive s fun s => arrayRewriteRun s n.val := rfl
theorem exec_arrayCheck (n : AIx) (s : State) : exec (.arrayCheck n) s = alive s fun s => arrayCheckRun s n.val := rfl
theorem exec_arrayTestDone (n : AIx) (o : TestOutcome) (s : State) : exec (.arrayTestDone n o) s = alive s fun s => arrayTestRun s n.val o := rfl

section
variable {s : State} {n : Nat}

section
variable {w : ArrItem} (hs : s.powered) (hon : regBit s (memReg 0x10) 7 = true) (hload : (arr s n).st ≠ .loading)
  (hdrawn : (arr s n).st ≠ .withdrawn) (hcheck : (arr s n).checking = false)
include hs hon hload hdrawn hcheck

/-- Whether the scrubber notes the item it has read. -/
theorem arrayScrubRun_reads : arrayScrubRun s n w =
    let r := arrScrub 0xFF n s ((arrFaults s n).filter fun x => itemOf x.1 x.2 == w)
    if r.2.isEmpty || (arr s n).img.isNone || (arr s n).rewrites.contains w then r.1
    else modArr r.1 n fun a => { a with rewrites := a.rewrites ++ [w] } :=
  if_neg (by simp [hon, hload, hdrawn, hcheck, hs.2.1])

theorem arrayScrubRun_clean (hclean : ((arrFaults s n).filter fun x => itemOf x.1 x.2 == w) = []) : arrayScrubRun s n w = s := by
  rw [arrayScrubRun_reads hs hon hload hdrawn hcheck, hclean]
  rfl

theorem arrayScrubRun_marks (hbad : (arrScrub 0xFF n s ((arrFaults s n).filter fun x => itemOf x.1 x.2 == w)).2 ≠ [])
    (himg : (arr s n).img ≠ none) (hnew : w ∉ (arr s n).rewrites) : arrayScrubRun s n w =
      modArr (arrScrub 0xFF n s ((arrFaults s n).filter fun x => itemOf x.1 x.2 == w)).1 n fun a => { a with rewrites := a.rewrites ++ [w] } :=
  (arrayScrubRun_reads hs hon hload hdrawn hcheck).trans (if_neg (by simp [hbad, himg, hnew]))

end

theorem arrayRewriteRun_rewrites {w : ArrItem} {rest : List ArrItem} (hfirst : (arr s n).rewrites = w :: rest) (hsearch : searching s n = false)
    (hready : (arr s n).st = .ready) (htokens : tokensSpare s 1 = true) :
    arrayRewriteRun s n = modArr (rewriteItem s n w).1 n fun a => { a with rewrites := rest } := by
  rw [arrayRewriteRun, hfirst]
  exact if_neg (by simp [hsearch, hready, htokens])

/-- An array that its check has corrected. -/
def Arr.corrected (a : Arr) : Arr := { a with st := .ready, cls := 1, checking := false, checkDue := false, checked := true, rewrites := [] }

section
variable (hcheck : (arr s n).checking = true) (htest : (arr s n).testing = false) (hretest : (arr s n).retest = false)
include hcheck htest hretest

theorem arrayCheckRun_clean (hclean : arrFaults s n = []) : arrayCheckRun s n = modArr s n fun a => { a with testing := true } := by
  rw [arrayCheckRun, if_neg (by simp [hcheck, htest, hretest]), hclean]
  dsimp only [arrScrub, rewriteAll]
  simp [hclean, arrScrub]

theorem arrayCheckRun_corrects :
    let r := arrScrub 0xFE n s (arrFaults s n)
    let w := rewriteAll n r.1 r.2
    let back := arrScrub 0xFE n w.1 ((arrFaults w.1 n).filter fun x => r.2.contains (itemOf x.1 x.2))
    r.2 ≠ [] → w.2 = true → back.2 = [] → arrayCheckRun s n = modArr back.1 n Arr.corrected := by
  intro r w back hfound hall hback
  refine (if_neg (by simp [hcheck, htest, hretest])).trans (congrArg (setArr back.1 n) (if_pos ?_))
  change (!r.2.isEmpty && w.2 && back.2.isEmpty) = true
  simp [hfound, hall, hback]

end

/-! ### The pattern test -/

/-- An array that is withdrawn. -/
def Arr.drawn (cls : Nat) (a : Arr) : Arr :=
  { a with st := .withdrawn, img := none, held := none, cls := cls, checking := false, testing := false, checkDue := false, checked := true,
           rewrites := [] }

/-- An array withdrawn with a class, which no rotation has claimed. -/
def withdrawn (s : State) (n cls : Nat) : State :=
  let s := modArr s n (Arr.drawn cls)
  let s := logEvent (regOr s (memReg 0x20) 0x10) 0x12 4 2 (toLe 1 n ++ toLe 1 cls)
  let c := s.sage.cur
  writeRecord { s with sage := { s.sage with
    cur := { c with wdraw := if bitOf c.wdraw n then c.wdraw else c.wdraw + 2 ^ n, wclass := sset c.wclass n cls } } }

theorem frame_withdrawn (s : State) (n cls : Nat) : withdrawn s n cls =
    { s with arrays := (withdrawn s n cls).arrays, regs := (withdrawn s n cls).regs, sage := (withdrawn s n cls).sage } := by
  have hregs (t : State) : regOr t (memReg 0x20) 0x10 = { t with regs := (regOr t (memReg 0x20) 0x10).regs } := regOr_frame t _ _
  rw [withdrawn, hregs]
  rfl

theorem arrays_withdrawn (s : State) (n cls : Nat) : (withdrawn s n cls).arrays = (modArr s n (Arr.drawn cls)).arrays := by
  rw [withdrawn, regOr_frame]
  rfl

theorem arr_withdrawn_same (s : State) (n cls : Nat) : arr (withdrawn s n cls) n = (arr s n).drawn cls := by
  rw [arr, arrays_withdrawn]
  exact arr_modArr_same s n _

theorem arr_withdrawn_ne (s : State) {n k : Nat} (h : n ≠ k) (cls : Nat) : arr (withdrawn s n cls) k = arr s k := by
  rw [arr, arrays_withdrawn]
  exact arr_modArr_ne s n k _ h

theorem regBit_withdrawn (s : State) (n cls : Nat) : regBit (withdrawn s n cls) (memReg 0x20) 4 = true :=
  regBit_regOr_same (modArr s n (Arr.drawn cls)) (memReg 0x20) (i := 4) (by decide)

/-- A mask with bit n put in. -/
theorem bitOf_put (m n : Nat) : bitOf (if bitOf m n then m else m + 2 ^ n) n = true := by
  split
  next h => exact h
  next h =>
    simp only [bitOf, decide_eq_true_eq] at h ⊢
    rw [Nat.add_div_right m (by positivity)]
    omega

theorem bitOf_wdraw_withdrawn (s : State) (n cls : Nat) : bitOf (withdrawn s n cls).sage.cur.wdraw n = true := bitOf_put _ n

theorem withdrawArray_unclaimed (cls : Nat) (hfree : claimedBy s n = none) : withdrawArray s n cls = withdrawn s n cls := by
  have hclaim : claimedBy (withdrawn s n cls) n = none := by
    rw [frame_withdrawn]
    exact hfree
  change (match claimedBy (withdrawn s n cls) n with | some u => stopRotation (withdrawn s n cls) u .integrity | none => withdrawn s n cls) = _
  rw [hclaim]

section
variable {o : TestOutcome} (htest : (arr s n).testing = true)
include htest

theorem arrayTestRun_fails (hfail : o.cellFail = true ∨ o.logicFail = true) :
    arrayTestRun s n o = withdrawArray s n (if o.cellFail then 1 else 3) := by
  rw [arrayTestRun, if_neg (by simp [htest])]
  split
  · rfl
  next hcell => exact if_pos (hfail.resolve_left hcell)

theorem arrayTestRun_passes (hcell : o.cellFail = false) (hlogic : o.logicFail = false) (hhome : (arr s n).home = none) (hheld : (arr s n).held = none) :
    arrayTestRun s n o = modArr s n fun a => { a with st := .empty, img := none, held := none, checking := false, testing := false, checkDue := false } := by
  simp [arrayTestRun, htest, hcell, hlogic, reloadTested, hhome, hheld]

end

end

/-- Settles O27. -/
theorem arrayIntegrity : Obligations.ArrayIntegrity := by
  unfold Obligations.ArrayIntegrity
  refine fun s n hs => ⟨fun w hon hload hdrawn hcheck => ⟨fun hclean => ?scrubClean, fun hbad himg hnew => ?scrubMarks⟩,
    fun w rest hfirst hsearch hready htokens hwait => ?rewrite, fun hcheck htest hretest => ⟨fun hclean => ?checkClean, ?checkCorrects⟩,
    fun o htest hfree => ⟨fun hfail => ?testFails, fun hcell hlogic hhome hheld => ?testPasses⟩⟩
  case scrubClean => exact exec_of_alive_self (exec_arrayScrubRead n w s) hs (arrayScrubRun_clean hs hon hload hdrawn hcheck hclean)
  case scrubMarks =>
    have hread := readFrom_arrScrub 0xFF n.val s ((arrFaults s n.val).filter fun x => itemOf x.1 x.2 == w)
    obtain ⟨hwait, hmem⟩ := arrScrub_keeps 0xFF n.val s ((arrFaults s n.val).filter fun x => itemOf x.1 x.2 == w)
    have hrun := arrayScrubRun_marks hs hon hload hdrawn hcheck hbad himg hnew
    generalize (arrScrub 0xFF n.val s ((arrFaults s n.val).filter fun x => itemOf x.1 x.2 == w)).1 = t at hread hwait hmem hrun
    have hsame := arr_modArr_same t n.val fun a => { a with rewrites := a.rewrites ++ [w] }
    have hothers := fun k => arr_modArr_ne t n.val k fun a => { a with rewrites := a.rewrites ++ [w] }
    rw [hread.arr] at hsame
    exact answers_of_alive (exec_arrayScrubRead n w s) hs hrun (hwait.trans hs.1) fun h =>
      ⟨hsame, fun k hk => (hothers k hk).trans (hread.arr k), hmem, (RewriteFrom.of_readFrom hread).queues⟩
  case rewrite =>
    have hfrom := rewriteFrom_rewriteItem s n.val w
    have harr := arr_modArr_same (rewriteItem s n.val w).1 n.val fun a => { a with rewrites := rest }
    exact answers_of_alive (exec_arrayRowRewrite n s) hs (arrayRewriteRun_rewrites hfirst hsearch hready htokens) hwait fun h =>
      ⟨congrArg Arr.rewrites harr, hfrom.queues, hfrom.fences⟩
  case checkClean =>
    refine (exec_arrayCheck n s).trans ((alive_next hs ?_).trans ?_)
    · rw [arrayCheckRun_clean hcheck htest hretest hclean]
      exact hs.1
    · rw [arrayCheckRun_clean hcheck htest hretest hclean]
      rfl
  case checkCorrects =>
    intro r w back hfound hall hback hwait
    have hrun : arrayCheckRun s n.val = modArr back.1 n.val Arr.corrected := arrayCheckRun_corrects hcheck htest hretest hfound hall hback
    clear_value back
    have harr := arr_modArr_same back.1 n.val Arr.corrected
    exact answers_of_alive (exec_arrayCheck n s) hs hrun hwait fun h =>
      ⟨congrArg Arr.st harr, congrArg Arr.cls harr, congrArg Arr.checking harr, (congrArg Arr.testing harr).trans rfl⟩
  case testFails =>
    have hrun := (arrayTestRun_fails htest hfail).trans (withdrawArray_unclaimed (if o.cellFail then 1 else 3) hfree)
    generalize (if o.cellFail then 1 else 3) = cls at hrun ⊢
    have hframe := frame_withdrawn s n.val cls
    have harr := arr_withdrawn_same s n.val cls
    have hrecord := bitOf_wdraw_withdrawn s n.val cls
    have hflag := regBit_withdrawn s n.val cls
    exact answers_of_alive (exec_arrayTestDone n o s) hs hrun (by rw [hframe]; exact hs.1) fun h =>
      ⟨congrArg Arr.st harr, congrArg Arr.img harr, congrArg Arr.cls harr, hrecord, hflag, fun k hk => arr_withdrawn_ne s hk cls,
        congrArg (fun t : State => { t with hif := h }) hframe⟩
  case testPasses =>
    have hsame := arr_modArr_same s n.val fun a =>
      { a with st := .empty, img := none, held := none, checking := false, testing := false, checkDue := false }
    exact answers_of_alive (exec_arrayTestDone n o s) hs (arrayTestRun_passes htest hcell hlogic hhome hheld) hs.1 fun h =>
      ⟨congrArg Arr.st hsame, congrArg Arr.img hsame, congrArg Arr.testing hsame,
        congrArg (fun t : State => { t with hif := h }) (modArr_frame s n.val _)⟩

end Sys2Proof.Machine
end

section
/-! The proofs of the family `15_pleach.md`: the declaration of the driver (O18), updates and boots (O17), and restructuring (O44). They rest on
the fields of a register, and on what the changes of the device state leave. -/

namespace Sys2Proof.Machine

/-! ## The fields of a register -/

theorem testBit_fieldOf (n hi lo j : Nat) : (fieldOf n hi lo).testBit j = (decide (j < hi + 1 - lo) && n.testBit (lo + j)) := by
  rw [fieldOf, Nat.testBit_mod_two_pow, Nat.testBit_div_two_pow, Nat.add_comm j lo]

theorem testBit_setField (n v : Nat) {hi lo : Nat} (h : lo ≤ hi) (j : Nat) : (setField n hi lo v).testBit j =
    if j < lo then n.testBit j else if j ≤ hi then v.testBit (j - lo) else n.testBit j := by
  have hlow : n % 2 ^ lo < 2 ^ lo := Nat.mod_lt _ (by positivity)
  have hmid : v % 2 ^ (hi + 1 - lo) < 2 ^ (hi + 1 - lo) := Nat.mod_lt _ (by positivity)
  have hsum : setField n hi lo v = 2 ^ lo * (2 ^ (hi + 1 - lo) * (n / 2 ^ (hi + 1)) + v % 2 ^ (hi + 1 - lo)) + n % 2 ^ lo := by
    have hpow : 2 ^ (hi + 1) = 2 ^ lo * 2 ^ (hi + 1 - lo) := by rw [← Nat.pow_add, Nat.add_sub_cancel' (by omega)]
    rw [setField, Nat.mul_add, ← Nat.mul_assoc, ← hpow]
    ring
  rw [hsum, Nat.testBit_two_pow_mul_add _ hlow]
  by_cases hj : j < lo
  · simp [hj, Nat.testBit_mod_two_pow]
  · rw [if_neg hj, if_neg hj, Nat.testBit_two_pow_mul_add _ hmid]
    by_cases hk : j ≤ hi
    · simp [hk, Nat.testBit_mod_two_pow, show j - lo < hi + 1 - lo by omega]
    · rw [if_neg (by omega), if_neg hk, Nat.testBit_div_two_pow]
      congr 1
      omega

/-- A field reads as it was set. -/
theorem fieldOf_setField_same (n v : Nat) {hi lo : Nat} (h : lo ≤ hi) : fieldOf (setField n hi lo v) hi lo = v % 2 ^ (hi + 1 - lo) := by
  refine Nat.eq_of_testBit_eq fun j => ?_
  rw [testBit_fieldOf, testBit_setField n v h, Nat.testBit_mod_two_pow, if_neg (by omega)]
  by_cases hj : j < hi + 1 - lo
  · rw [if_pos (by omega), Nat.add_sub_cancel_left]
  · simp [hj]

theorem fieldOf_mod_word (n : Nat) {hi lo : Nat} (h : hi < 32) : fieldOf (n % 2 ^ 32) hi lo = fieldOf n hi lo := by
  refine Nat.eq_of_testBit_eq fun j => ?_
  rw [testBit_fieldOf, testBit_fieldOf, Nat.testBit_mod_two_pow]
  by_cases hj : j < hi + 1 - lo
  · simp [hj, show lo + j < 32 by omega]
  · simp [hj]

theorem fieldOf_or_above (n : Nat) {hi lo i : Nat} (h : hi < i) : fieldOf (n ||| 2 ^ i) hi lo = fieldOf n hi lo := by
  refine Nat.eq_of_testBit_eq fun j => ?_
  rw [testBit_fieldOf, testBit_fieldOf, Nat.testBit_or]
  by_cases hj : j < hi + 1 - lo
  · simp [hj, show i ≠ lo + j by omega]
  · simp [hj]

section
variable (s : State) (o : Nat)

theorem regNat_regSetField_same (hi lo v : Nat) : regNat (regSetField s o hi lo v) o = setField (regNat s o) hi lo v % 2 ^ 32 := regNat_regSet_same s o _

theorem regGet_regSetField_ne {p : Nat} (h : o ≠ p) (hi lo v : Nat) : regGet (regSetField s o hi lo v) p = regGet s p := regGet_regSet_ne s o p _ h

theorem regField_regSetField_same {hi lo : Nat} (v : Nat) (hlo : lo ≤ hi) (hhi : hi < 32) :
    regField (regSetField s o hi lo v) o hi lo = v % 2 ^ (hi + 1 - lo) := by
  rw [regField, regNat_regSetField_same, fieldOf_mod_word _ hhi, fieldOf_setField_same _ _ hlo]

theorem regBit_regSetField {hi lo i : Nat} (v : Nat) (hlo : lo ≤ hi) (hi32 : i < 32) (h1 : lo ≤ i) (h2 : i ≤ hi) :
    regBit (regSetField s o hi lo v) o i = v.testBit (i - lo) := by
  rw [regBit, regNat_regSetField_same, bitOf_eq_testBit, Nat.testBit_mod_two_pow, testBit_setField _ _ hlo, if_neg (by omega), if_pos h2]
  simp [hi32]

theorem regField_regOr_above {hi lo i : Nat} (h : hi < i) (hi32 : i < 32) : regField (regOr s o (2 ^ i)) o hi lo = regField s o hi lo := by
  rw [regField, regNat, regGet_regOr, BitVec.toNat_or, BitVec.toNat_ofNat, Nat.mod_eq_of_lt (Nat.pow_lt_pow_right (by decide) hi32), fieldOf_or_above _ h]
  rfl

end

theorem regGet_of_regs {s t : State} (h : t.regs = s.regs) (o : Nat) : regGet t o = regGet s o := by rw [regGet, h, regGet]

theorem regGet_withHif (s : State) (h : Hif) (o : Nat) : regGet { s with hif := h } o = regGet s o := regGet_of_regs rfl o

theorem regBit_of_regGet {s t : State} {o : Nat} (h : regGet t o = regGet s o) (i : Nat) : regBit t o i = regBit s o i := by rw [regBit, regNat, h, regBit, regNat]

theorem regField_of_regGet {s t : State} {o : Nat} (h : regGet t o = regGet s o) (hi lo : Nat) : regField t o hi lo = regField s o hi lo := by
  rw [regField, regNat, h, regField, regNat]

/-! ## What Sage's logs leave (Table 16-10) -/

/-- Of what Sage holds, only the event log differs. -/
def LogsFrom (s t : State) : Prop := ∃ log next seq, t.sage = { s.sage with log := log, logNext := next, logSeq := seq }

theorem LogsFrom.of_same {s t : State} (h : t.sage = s.sage) : LogsFrom s t := ⟨_, _, _, h⟩

theorem LogsFrom.trans {s t u : State} (hst : LogsFrom s t) (htu : LogsFrom t u) : LogsFrom s u := by
  obtain ⟨_, _, _, hst⟩ := hst
  obtain ⟨_, _, _, htu⟩ := htu
  exact ⟨_, _, _, htu.trans (by rw [hst])⟩

theorem LogsFrom.flash {s t : State} (h : LogsFrom s t) : t.sage.flash = s.sage.flash := by
  obtain ⟨_, _, _, h⟩ := h
  rw [h]

theorem LogsFrom.keys {s t : State} (h : LogsFrom s t) : t.sage.keys = s.sage.keys := by
  obtain ⟨_, _, _, h⟩ := h
  rw [h]

theorem logsFrom_regOr (s : State) (o m : Nat) : LogsFrom s (regOr s o m) := .of_same (by rw [regOr_frame])
theorem logsFrom_regCount (s : State) (o n : Nat) : LogsFrom s (regCount s o n) := .of_same (by rw [regCount_frame])
theorem logsFrom_logEvent (s : State) (code source sev : Nat) (d : List Byte) : LogsFrom s (logEvent s code source sev d) := ⟨_, _, _, rfl⟩

theorem logsFrom_setQuad (s : State) (m : List Host.Cell) (store f : Nat) (v : QuadState) : LogsFrom s (setQuad { s with mem := m } store f v) := .of_same rfl

theorem logsFrom_captureErr (s : State) (store kind who a : Nat) : LogsFrom s (captureErr s store kind who a) := by
  unfold captureErr
  split
  · exact logsFrom_regOr s _ _
  · exact .of_same (by rw [regOr_frame]; rfl)

theorem logsFrom_countCe (s : State) (store : Nat) : LogsFrom s (countCe s store) := by
  have hcount := logsFrom_regCount s (memReg (0x100 + 16 * store)) 1
  unfold countCe
  dsimp only
  split
  · exact hcount.trans (logsFrom_regOr _ _ _)
  · exact hcount

theorem logsFrom_countUe (s : State) (store who a : Nat) : LogsFrom s (countUe s store who a) :=
  (logsFrom_logEvent s _ _ _ _).trans ((logsFrom_regCount _ _ _).trans ((logsFrom_regOr _ _ _).trans (logsFrom_captureErr _ _ _ _ _)))

theorem logsFrom_countAe (s : State) (store who a : Nat) : LogsFrom s (countAe s store who a) :=
  (logsFrom_logEvent s _ _ _ _).trans ((logsFrom_regCount _ _ _).trans ((logsFrom_regOr _ _ _).trans (logsFrom_captureErr _ _ _ _ _)))

theorem logsFrom_countPoison (s : State) (store : Nat) : LogsFrom s (countPoison s store) :=
  (logsFrom_regCount s _ _).trans (logsFrom_regOr _ _ _)

theorem logsFrom_readQuad (s : State) (who a : Nat) : LogsFrom s (readQuad s who a).1 := by
  unfold readQuad
  cases storeOf s a with
  | none => exact .of_same rfl
  | some p =>
    dsimp only
    generalize quadState s p.1 (a / 16) = v
    split
    · exact .of_same rfl
    · cases classify v.poison (quadZero s a) v.err.toNat v.adx.toNat with
      | clean => exact .of_same rfl
      | poisoned => exact logsFrom_countPoison s p.1
      | ce b =>
        cases b
        · exact logsFrom_countCe s p.1
        · exact (logsFrom_countCe s p.1).trans (logsFrom_countPoison _ p.1)
      | ue => exact (logsFrom_countUe s p.1 who a).trans ((logsFrom_setQuad _ _ p.1 (a / 16) _).trans (logsFrom_countPoison _ p.1))
      | ae => exact (logsFrom_countAe s p.1 who a).trans (logsFrom_countPoison _ p.1)

theorem logsFrom_readQuads (s : State) (who : Nat) (as : List Nat) : LogsFrom s (readQuads s who as).1 := by
  induction as generalizing s with
  | nil => exact .of_same rfl
  | cons a as ih => exact (logsFrom_readQuad s who a).trans (ih _)

/-- A read of device memory changes no more of Sage's than the event log. -/
theorem logsFrom_readMem {a : Nat} (h : isHost a = false) (s : State) (q who n : Nat) : LogsFrom s (readMem s q who a n).1 := by
  unfold readMem
  simp only [h, Bool.false_eq_true, if_false]
  split
  · exact .of_same rfl
  · exact logsFrom_readQuads s who _

/-! ## What a change of the device state leaves (R355 to R360) -/

/-- `t` is `s` but for what Sage changes when it moves the device from one state to another; the flash stays as it is. -/
structure SageFrom (s t : State) : Prop where
  frame : ∃ regs glb utr sage chips pwr, t = { s with regs := regs, glb := glb, utr := utr, sage := sage, onChip := chips, pwr := pwr }
  flash : t.sage.flash = s.sage.flash

theorem SageFrom.trans {s t u : State} (hst : SageFrom s t) (htu : SageFrom t u) : SageFrom s u := by
  obtain ⟨⟨_, _, _, _, _, _, rfl⟩, hflash⟩ := hst
  obtain ⟨⟨_, _, _, _, _, _, rfl⟩, hflash'⟩ := htu
  exact ⟨⟨_, _, _, _, _, _, rfl⟩, hflash'.trans hflash⟩

theorem SageFrom.of_regs {s t : State} (h : t = { s with regs := t.regs }) : SageFrom s t := by
  rw [h]
  exact ⟨⟨_, _, _, _, _, _, rfl⟩, rfl⟩

theorem SageFrom.hostWait {s t : State} (h : SageFrom s t) : t.hostWait = s.hostWait := by
  obtain ⟨_, _, _, _, _, _, rfl⟩ := h.frame
  rfl

theorem SageFrom.queues {s t : State} (h : SageFrom s t) : t.queues = s.queues := by
  obtain ⟨_, _, _, _, _, _, rfl⟩ := h.frame
  rfl

theorem SageFrom.rxus {s t : State} (h : SageFrom s t) : t.rxus = s.rxus := by
  obtain ⟨_, _, _, _, _, _, rfl⟩ := h.frame
  rfl

theorem SageFrom.fences {s t : State} (h : SageFrom s t) : t.fences = s.fences := by
  obtain ⟨_, _, _, _, _, _, rfl⟩ := h.frame
  rfl

theorem SageFrom.cmds {s t : State} (h : SageFrom s t) : t.cmds = s.cmds := by
  obtain ⟨_, _, _, _, _, _, rfl⟩ := h.frame
  rfl

theorem SageFrom.mem {s t : State} (h : SageFrom s t) : t.mem = s.mem := by
  obtain ⟨_, _, _, _, _, _, rfl⟩ := h.frame
  rfl

theorem SageFrom.host {s t : State} (h : SageFrom s t) : t.host = s.host := by
  obtain ⟨_, _, _, _, _, _, rfl⟩ := h.frame
  rfl

section
variable (s : State)

theorem sageFrom_regOr (o m : Nat) : SageFrom s (regOr s o m) := .of_regs (regOr_frame s o m)
theorem sageFrom_regSetField (o hi lo v : Nat) : SageFrom s (regSetField s o hi lo v) := .of_regs (regSetField_frame s o hi lo v)
theorem sageFrom_glb (g : Glb) : SageFrom s { s with glb := g } := ⟨⟨_, _, _, _, _, _, rfl⟩, rfl⟩
theorem sageFrom_logEvent (code source sev : Nat) (d : List Byte) : SageFrom s (logEvent s code source sev d) := ⟨⟨_, _, _, _, _, _, rfl⟩, rfl⟩
theorem sageFrom_writeRecord : SageFrom s (writeRecord s) := ⟨⟨_, _, _, _, _, _, rfl⟩, rfl⟩

theorem sageFrom_setDev (d : Dev) : SageFrom s (setDev s d) := by
  unfold setDev
  split
  · exact .of_regs rfl
  · exact (sageFrom_glb s _).trans (sageFrom_regOr _ _ _)

theorem glb_setDev (d : Dev) : (setDev s d).glb = { s.glb with dev := d } := by
  unfold setDev
  split
  next h => rw [← h]
  · rw [regOr_frame]

theorem regGet_setDev (d : Dev) {o : Nat} (h : 0x18 ≠ o) : regGet (setDev s d) o = regGet s o := by
  unfold setDev
  split
  · rfl
  · exact regGet_regOr_ne { s with glb := { s.glb with dev := d } } _ _ _ h

/-! ### The bypass conducts (R329) -/

/-- A port that leaves the ring. -/
def leavePort (s : State) (p : Nat) : State := modPort (portDown s p 0) p fun u => { u with en := u.en.done, retrain := false }

theorem leaveRing_eq : leaveRing s =
    if !s.glb.bypassOpen then s else (usedPorts s).foldl leavePort { s with glb := { s.glb with bypassOpen := false } } := rfl

theorem frame_leavePort (p : Nat) : leavePort s p = { s with utr := (leavePort s p).utr, regs := (leavePort s p).regs } :=
  ((portFrom_portDown s p 0).trans (portFrom_modPort _ p _)).frame

theorem regGet_portDown (p st : Nat) {o : Nat} (h : utrPort p 4 ≠ o) : regGet (portDown s p st) o = regGet s o := by
  unfold portDown
  dsimp only
  split
  · exact regGet_regOr_ne _ _ _ _ h
  · rfl

theorem frame_foldl_leavePort (ps : List Nat) :
    ps.foldl leavePort s = { s with utr := (ps.foldl leavePort s).utr, regs := (ps.foldl leavePort s).regs } :=
  List.foldlRecOn (motive := fun t : State => t = { s with utr := t.utr, regs := t.regs }) ps _ rfl fun t ht p _ => by rw [frame_leavePort t p, ht]

theorem regGet_foldl_leavePort (ps : List Nat) {o : Nat} (h : ∀ p, utrPort p 4 ≠ o) : regGet (ps.foldl leavePort s) o = regGet s o :=
  List.foldlRecOn (motive := fun t : State => regGet t o = regGet s o) ps _ rfl fun t ht p _ => (regGet_portDown t p 0 (h p)).trans ht

theorem glb_leaveRing : (leaveRing s).glb = { s.glb with bypassOpen := false } := by
  rw [leaveRing_eq]
  split
  next h => rw [← (Bool.not_eq_true' _).mp h]
  · rw [frame_foldl_leavePort]

theorem sageFrom_leaveRing : SageFrom s (leaveRing s) := by
  rw [leaveRing_eq]
  split
  · exact .of_regs rfl
  · rw [frame_foldl_leavePort]
    exact ⟨⟨_, _, _, _, _, _, rfl⟩, rfl⟩

theorem regGet_leaveRing {o : Nat} (h : o < 0x1C00000) : regGet (leaveRing s) o = regGet s o := by
  rw [leaveRing_eq]
  split
  · rfl
  · exact regGet_foldl_leavePort { s with glb := { s.glb with bypassOpen := false } } _ fun p => by rw [utrPort]; omega

/-! ### HOLD (R357) -/

theorem glb_enterHold (reason : Nat) : (enterHold s reason).glb =
    { s.glb with dev := .hold, reason := reason, startPending := false, bypassOpen := false } := by
  rw [enterHold]
  exact (glb_leaveRing _).trans (congrArg (fun g : Glb => { g with bypassOpen := false }) (glb_setDev _ _))

theorem sageFrom_enterHold (reason : Nat) : SageFrom s (enterHold s reason) := by
  have hstart : SageFrom s { s with glb := { s.glb with reason := reason, startPending := false }, sage := { s.sage with holdSeen := reason } } :=
    ⟨⟨_, _, _, _, _, _, rfl⟩, rfl⟩
  exact hstart.trans ((sageFrom_setDev _ _).trans ((sageFrom_regSetField _ _ _ _ _).trans ((sageFrom_leaveRing _).trans (sageFrom_logEvent _ _ _ _ _))))

theorem regGet_enterHold (reason : Nat) {o : Nat} (hdev : 0x18 ≠ o) (hhold : mgtReg 0x8000 ≠ o) (hring : o < 0x1C00000) :
    regGet (enterHold s reason) o = regGet s o := by
  rw [enterHold]
  refine (regGet_leaveRing _ hring).trans ((regGet_regSetField_ne _ _ hhold _ _ _).trans ?_)
  exact regGet_setDev _ _ hdev

end

/-! ## The driver's declaration (R369, R370) -/

theorem exec_declare (s : State) : exec .declare s = host s declareRun := rfl

theorem hostWrites_cases {s : State} (h : hostWrites s = true) :
    s.glb.dev = .hold ∨ s.glb.dev = .structured ∨ s.glb.dev = .running ∨ s.glb.dev = .draining := by
  simpa [hostWrites, or_assoc] using h

/-- The declaration's two status bits and level of the driver as a refusal leaves them. -/
def declined (s : State) : State := regSetField (regSetField s (mgtReg 0x8050) 2 1 2) (mgtReg 0x8014) 31 16 0

theorem regBit_declined (s : State) {i : Nat} (h1 : 1 ≤ i) (h2 : i ≤ 2) : regBit (declined s) (mgtReg 0x8050) i = Nat.testBit 2 (i - 1) :=
  (regBit_of_regGet (regGet_regSetField_ne _ _ (by decide) _ _ _) i).trans (regBit_regSetField s _ 2 (by decide) (by omega) h1 h2)

section
variable {s t : State} (h : regGet t (mgtReg 0x8050) = regGet (declined s) (mgtReg 0x8050))
include h

theorem driverOk_of_declined : driverOk t = false := (regBit_of_regGet h 1).trans (regBit_declined s (by decide) (by decide))

theorem refused_of_declined : regBit t (mgtReg 0x8050) 2 = true := (regBit_of_regGet h 2).trans (regBit_declined s (by decide) (by decide))

end

/-- Where a declaration that is refused leads, by the device state (R370). -/
def declineIn (s : State) (r : Nat) : Dev → State
  | .hold => regSetField { s with glb := { s.glb with reason := r }, sage := { s.sage with holdSeen := r } } (mgtReg 0x8000) 15 8 r
  | .structured => enterHold s r
  | .running => enterDraining s r false
  | _ => if s.glb.targetReset then s else { s with glb := { s.glb with reason := r, startPending := false } }

theorem declineIn_draining (s : State) (r : Nat) : declineIn s r .draining =
    if s.glb.targetReset then s else { s with glb := { s.glb with reason := r, startPending := false } } := rfl

theorem regGet_declineIn_hold (s : State) (r : Nat) : regGet (declineIn s r .hold) (mgtReg 0x8050) = regGet s (mgtReg 0x8050) :=
  (regGet_regSetField_ne _ _ (by decide) _ _ _).trans (regGet_of_regs rfl _)

theorem regGet_declineIn_draining (s : State) (r : Nat) : regGet (declineIn s r .draining) (mgtReg 0x8050) = regGet s (mgtReg 0x8050) := by
  rw [declineIn_draining]
  split
  · rfl
  · exact regGet_of_regs rfl _

section
variable {s : State} (hw : hostWrites s = true)
include hw

theorem declareRun_served : declareRun s =
    match declareCheck s with
    | none => regSetField (regOr s (mgtReg 0x8050) 2) (mgtReg 0x8014) 31 16 (driverComp (regOr s (mgtReg 0x8050) 2)).provides
    | some reason => declineIn (declined s) reason s.glb.dev := by
  obtain hdev | hdev | hdev | hdev := hostWrites_cases hw
  all_goals exact if_neg (by simp [hdev])

theorem declareRun_passes (hcheck : declareCheck s = none) :
    declareRun s = regSetField (regOr s (mgtReg 0x8050) 2) (mgtReg 0x8014) 31 16 (driverComp (regOr s (mgtReg 0x8050) 2)).provides := by
  rw [declareRun_served hw, hcheck]

theorem declareRun_refuses {r : Nat} {d : Dev} (hcheck : declareCheck s = some r) (hdev : s.glb.dev = d) : declareRun s = declineIn (declined s) r d := by
  rw [declareRun_served hw, hcheck, hdev]

end

/-- With no queue bound and no unit there is nothing to shut down. -/
theorem enterDraining_quiet {s : State} (hq : s.queues = []) (hu : s.rxus = []) (reason : Nat) (toReset : Bool) : enterDraining s reason toReset =
    setDev { s with glb := { s.glb with reason := if toReset then 0 else reason, targetReset := toReset, startPending := false } } .draining := by
  have hfrom := sageFrom_setDev
    { s with glb := { s.glb with reason := if toReset then 0 else reason, targetReset := toReset, startPending := false } } .draining
  rw [enterDraining]
  dsimp only
  generalize setDev _ .draining = t at hfrom ⊢
  have htq : t.queues = [] := hfrom.queues.trans hq
  have htu : ∀ u, (rxu t u).en.en = false := fun u => by rw [rxu, hfrom.rxus.trans hu]; rfl
  rw [htq]
  exact List.foldl_fixed' (fun u => if_neg (ne_true_of_eq_false (htu u))) _

/-- Settles O18. -/
theorem driverDeclaration : Obligations.DriverDeclaration := by
  unfold Obligations.DriverDeclaration
  refine fun s hs => ⟨fun hcheck => ?passes, fun r hcheck => ⟨fun hdev => ?hold, fun hdev => ?structured, fun hdev hq hu => ?running, fun hdev => ?draining⟩⟩
  case passes =>
    have hcomp : driverComp (regOr s (mgtReg 0x8050) 2) = driverComp s := by
      simp only [driverComp, regField, regNat, regGet_regOr_ne s (mgtReg 0x8050) (mgtReg 0x8040) 2 (by decide),
        regGet_regOr_ne s (mgtReg 0x8050) (mgtReg 0x8044) 2 (by decide), regGet_regOr_ne s (mgtReg 0x8050) (mgtReg 0x8048) 2 (by decide),
        regGet_regOr_ne s (mgtReg 0x8050) (mgtReg 0x804C) 2 (by decide)]
    have hlevel : (driverComp s).provides < 2 ^ 16 := Nat.mod_lt _ (by decide)
    have hrun := declareRun_passes hs.2 hcheck
    rw [hcomp] at hrun
    refine answers_of_write (exec_declare s) hs hrun (by rw [regOr_frame]; exact hs.1) fun h => ⟨?_, ?_, ?_⟩
    · exact (regBit_of_regGet (regGet_regSetField_ne _ _ (by decide) _ _ _) 1).trans (regBit_regOr_same s (mgtReg 0x8050) (i := 1) (by decide))
    · exact (regField_regSetField_same _ _ _ (by decide) (by decide)).trans (Nat.mod_eq_of_lt hlevel)
    · rw [regOr_frame]
      rfl
  case hold =>
    have hrun := declareRun_refuses hs.2 hcheck hdev
    have hstat := regGet_declineIn_hold (declined s) r
    have hglb : (declineIn (declined s) r .hold).glb = { s.glb with reason := r } := rfl
    have hkeeps : (declineIn (declined s) r .hold).hostWait = s.hostWait ∧ (declineIn (declined s) r .hold).queues = s.queues ∧
        (declineIn (declined s) r .hold).mem = s.mem := ⟨rfl, rfl, rfl⟩
    generalize declineIn (declined s) r .hold = t at hrun hstat hglb hkeeps
    obtain ⟨hwait, hqueues, hmem⟩ := hkeeps
    have hstat' (h : Hif) := (regGet_withHif t h _).trans hstat
    exact answers_of_write (exec_declare s) hs hrun (hwait.trans hs.1) fun h =>
      ⟨driverOk_of_declined (s := s) (hstat' h), refused_of_declined (s := s) (hstat' h), hglb, hqueues, hmem⟩
  case structured =>
    have hfrom := sageFrom_enterHold (declined s) r
    have hglb := glb_enterHold (declined s) r
    have hstat := regGet_enterHold (declined s) r (o := mgtReg 0x8050) (by decide) (by decide) (by decide)
    exact answers_of_write (exec_declare s) hs (declareRun_refuses hs.2 hcheck hdev) (hfrom.hostWait.trans hs.1) fun h =>
      ⟨driverOk_of_declined (s := s) ((regGet_withHif _ h _).trans hstat), congrArg Glb.dev hglb, congrArg Glb.reason hglb, hfrom.queues, hfrom.mem⟩
  case running =>
    have hrun := (declareRun_refuses hs.2 hcheck hdev).trans (enterDraining_quiet (s := declined s) hq hu r false)
    generalize hg : ({ (declined s).glb with reason := if false = true then 0 else r, targetReset := false, startPending := false } : Glb) = g at hrun
    have hfrom := sageFrom_setDev { declined s with glb := g } .draining
    have hglb := glb_setDev { declined s with glb := g } .draining
    have hstat : regGet (setDev { declined s with glb := g } .draining) (mgtReg 0x8050) = regGet (declined s) (mgtReg 0x8050) :=
      (regGet_setDev { declined s with glb := g } .draining (by decide)).trans (regGet_of_regs rfl _)
    refine answers_of_write (exec_declare s) hs hrun (hfrom.hostWait.trans hs.1) fun h =>
      ⟨driverOk_of_declined (s := s) ((regGet_withHif _ h _).trans hstat), congrArg Glb.dev hglb, (congrArg Glb.reason hglb).trans ?_, (congrArg Glb.targetReset hglb).trans ?_, hfrom.mem⟩
    · subst hg; rfl
    · subst hg; rfl
  case draining =>
    have hrun := declareRun_refuses hs.2 hcheck hdev
    have hframe := declineIn_draining (declined s) r
    have hstat := regGet_declineIn_draining (declined s) r
    have hglb : (declineIn (declined s) r .draining).glb =
        if s.glb.targetReset then s.glb else { s.glb with reason := r, startPending := false } := by
      rw [hframe]
      exact apply_ite State.glb _ _ _
    have hkeeps : (declineIn (declined s) r .draining).hostWait = s.hostWait ∧ (declineIn (declined s) r .draining).queues = s.queues := by
      rw [hframe]
      split <;> exact ⟨rfl, rfl⟩
    generalize declineIn (declined s) r .draining = t at hrun hstat hglb hkeeps
    obtain ⟨hwait, hqueues⟩ := hkeeps
    exact answers_of_write (exec_declare s) hs hrun (hwait.trans hs.1) fun h =>
      ⟨driverOk_of_declined (s := s) ((regGet_withHif t h _).trans hstat), hglb, hqueues⟩

theorem ReadFrom.queues {s t : State} (h : ReadFrom s t) : t.queues = s.queues := by
  obtain ⟨_, _, _, _, _, _, rfl⟩ := h
  rfl

theorem ReadFrom.glb {s t : State} (h : ReadFrom s t) : t.glb = s.glb := by
  obtain ⟨_, _, _, _, _, _, rfl⟩ := h
  rfl

theorem ReadFrom.host {s t : State} (h : ReadFrom s t) : t.host = s.host := by
  obtain ⟨_, _, _, _, _, _, rfl⟩ := h
  rfl

theorem LogsFrom.floor {s t : State} (h : LogsFrom s t) : t.sage.floor = s.sage.floor := by
  obtain ⟨_, _, _, h⟩ := h
  rw [h]

theorem LogsFrom.revoked {s t : State} (h : LogsFrom s t) : t.sage.revoked = s.sage.revoked := by
  obtain ⟨_, _, _, h⟩ := h
  rw [h]

theorem LogsFrom.signedOnly {s t : State} (h : LogsFrom s t) : t.sage.signedOnly = s.sage.signedOnly := by
  obtain ⟨_, _, _, h⟩ := h
  rw [h]

/-! ## Updates (R371 to R374) -/

theorem exec_program (s : State) : exec .program s = host s programRun := rfl
theorem exec_bootStaged (s : State) : exec .bootStaged s = host s bootStagedRun := rfl
theorem exec_reboot (s : State) : exec .reboot s = host s rebootRun := rfl
theorem exec_raiseFloor (s : State) : exec .raiseFloor s = host s raiseFloorRun := rfl
theorem exec_fuseKey (s : State) : exec .fuseKey s = host s fuseKeyRun := rfl
theorem exec_revokeKey (s : State) : exec .revokeKey s = host s revokeKeyRun := rfl
theorem exec_signedOnly (s : State) : exec .signedOnly s = host s signedOnlyRun := rfl

/-! ### The end of an update command (Table 15-13) -/

theorem frame_updDone (s : State) (cmd r : Nat) : updDone s cmd r = { s with regs := (updDone s cmd r).regs, sage := (updDone s cmd r).sage } := by
  rw [updDone, regOr_frame]
  rfl

theorem logsFrom_updDone (s : State) (cmd r : Nat) : LogsFrom s (updDone s cmd r) :=
  (logsFrom_regOr (regSetField s (mgtReg 0x8030) 15 8 r) (mgtReg 0x8030) (2 ^ 16)).trans (logsFrom_logEvent _ _ _ _ _)

theorem regGet_updDone (s : State) (cmd r o : Nat) :
    regGet (updDone s cmd r) o = regGet (regOr (regSetField s (mgtReg 0x8030) 15 8 r) (mgtReg 0x8030) (2 ^ 16)) o := regGet_of_regs rfl o

/-- `t` is `u` with the RESULT of an update command, DONE and its log entry. -/
structure Updated (u : State) (r : Nat) (t : State) : Prop where
  frame : t = { u with sage := t.sage, regs := t.regs, hif := t.hif }
  result : regField t (mgtReg 0x8030) 15 8 = r % 2 ^ 8
  done : regBit t (mgtReg 0x8030) 16 = true
  logs : LogsFrom u t

theorem updated_updDone (s : State) (cmd r : Nat) (h : Hif) : Updated s r { updDone s cmd r with hif := h } where
  frame := congrArg (fun t : State => { t with hif := h }) (frame_updDone s cmd r)
  result := (regField_of_regGet ((regGet_withHif (updDone s cmd r) h _).trans (regGet_updDone s cmd r _)) 15 8).trans
    ((regField_regOr_above _ _ (by decide) (by decide)).trans (regField_regSetField_same s _ r (by decide) (by decide)))
  done := (regBit_of_regGet ((regGet_withHif (updDone s cmd r) h _).trans (regGet_updDone s cmd r _)) 16).trans (regBit_regOr_same _ _ (by decide))
  logs := (logsFrom_updDone s cmd r).trans (.of_same rfl)

/-- An update command ends with its RESULT. -/
theorem answers_of_update {i : Instr} {s u : State} {f : State → State} {cmd r : Nat} {p : State → Prop} (hexec : exec i s = host s f) (hs : s.hosted)
    (hrun : f s = updDone u cmd r) (hw : u.hostWait = false) (hp : ∀ t, Updated u r t → p t) : Answers i s p :=
  answers_of_write hexec hs hrun (by rw [frame_updDone]; exact hw) fun h => hp _ (updated_updDone u cmd r h)

/-! ### The staged image (R372) -/

theorem isHost_of_inSram {a n : Nat} (h : inSram a n = true) : isHost a = false := by
  rw [inSram, Bool.and_eq_true, decide_eq_true_iff, decide_eq_true_iff] at h
  have hend : Config.sramBase + Config.sramSize < 2 ^ 63 := by decide
  exact isHost_false (by omega)

theorem stagedImage_some {s s1 : State} {bs : List Byte} (h : stagedImage s = (s1, some bs)) : DeviceFrom s s1 ∧ LogsFrom s s1 := by
  unfold stagedImage at h
  dsimp only at h
  split at h
  · cases h
  next hin =>
    simp only [not_or, Bool.not_eq_true', Bool.not_eq_false] at hin
    obtain ⟨-, hsram, -⟩ := hin
    obtain ⟨rfl, -⟩ := Prod.mk.inj h
    have hdev := isHost_of_inSram hsram
    exact ⟨(deviceFrom_readMem hdev s 0 1 _).1, logsFrom_readMem hdev s 0 1 _⟩

section
variable {s : State} (hw : hostWrites s = true)
include hw

theorem served_update : ¬ (!updServed s) = true := by
  rw [show updServed s = true from hw]
  decide

/-! ### Programming a slot -/

section
variable {s1 : State} {bs : List Byte} (hdev : s.glb.dev ≠ .draining) (hstaged : stagedImage s = (s1, some bs))
include hdev hstaged

theorem programRun_programs (hchecks : stagedChecks s1 bs (acceptedDriver s1) = none) (hseq : nextSeq s1 < 0xFFFFFFFF) :
    programRun s = updDone (writeSlot s1 (otherSlot s1) (nextSeq s1) bs) 1 0 := by
  rw [programRun, if_neg (served_update hw), if_neg hdev, hstaged]
  dsimp only
  rw [hchecks]
  exact if_neg hseq.not_ge

theorem programRun_refused {r : Nat} (hchecks : stagedChecks s1 bs (acceptedDriver s1) = some r) : programRun s = updDone s1 1 r := by
  rw [programRun, if_neg (served_update hw), if_neg hdev, hstaged]
  dsimp only
  rw [hchecks]

end

/-! ### Keys and the floor -/

theorem raiseFloorRun_raises (hdev : s.glb.dev = .running) : raiseFloorRun s =
    updDone { s with sage := { s.sage with floor := max s.sage.floor (((s.sage.comps.map (·.sec)).min?).getD 0) } } 4 0 :=
  (if_neg (served_update hw)).trans (if_neg (not_not.mpr hdev))

theorem revokeKeyRun_revokes (hdev : s.glb.dev = .running)
    (hsigned : (s.sage.comps.any fun c => c.signer == some (regField s (mgtReg 0x8028) 1 0)) = false) : revokeKeyRun s =
      updDone { s with sage := { s.sage with revoked := if s.sage.revoked.contains (regField s (mgtReg 0x8028) 1 0) then s.sage.revoked
        else s.sage.revoked ++ [regField s (mgtReg 0x8028) 1 0] } } 6 0 :=
  (if_neg (served_update hw)).trans (if_neg (by simp only [hdev, hsigned]; simp))

theorem signedOnlyRun_sets (hdev : s.glb.dev = .running) (hsigned : (s.sage.comps.any fun c => c.signer.isNone) = false) :
    signedOnlyRun s = updDone { s with sage := { s.sage with signedOnly := true } } 7 0 :=
  (if_neg (served_update hw)).trans (if_neg (by simp only [hdev, hsigned]; simp))

theorem fuseKeyRun_fuses {k : Nat} {s1 : State} {bs : List Byte} (hdev : s.glb.dev ≠ .draining) (hk : k < 4) (hfree : shas s.sage.keys k = false)
    (hlower : ∀ j, j < k → shas s.sage.keys j = true) (halign : (stagedAt s).1 % 64 = 0) (hsram : inSram (stagedAt s).1 32 = true)
    (hread : readMem s 0 1 (stagedAt s).1 32 = (s1, { bytes := bs })) :
    fuseKeyRun s = updDone { s1 with sage := { s1.sage with keys := sset s1.sage.keys k bs } } 5 0 := by
  have hfind : (List.range 4).find? (fun i => !shas s.sage.keys i) = some k :=
    List.find?_range_eq_some.mpr ⟨by simp [hfree], List.mem_range.mpr hk, fun j hj => by simp [hlower j hj]⟩
  rw [fuseKeyRun, if_neg (served_update hw), if_neg hdev, hfind]
  dsimp only
  rw [if_neg (by simp [halign, hsram]), hread]
  exact if_neg fun h => h.elim Bool.false_ne_true Bool.false_ne_true

/-! ### Commands that the state does not allow (Table 15-9) -/

theorem programRun_draining (hdev : s.glb.dev = .draining) : programRun s = updDone s 1 0x11 := (if_neg (served_update hw)).trans (if_pos hdev)

theorem fuseKeyRun_draining (hdev : s.glb.dev = .draining) : fuseKeyRun s = updDone s 5 0x11 := (if_neg (served_update hw)).trans (if_pos hdev)

theorem rebootRun_denied (hdev : s.glb.dev ≠ .hold) : rebootRun s = updDone s 3 0x11 := (if_neg (served_update hw)).trans (if_pos hdev)

theorem bootStagedRun_denied (hdev : s.glb.dev ≠ .hold) : bootStagedRun s = updDone s 2 0x11 := (if_neg (served_update hw)).trans (if_pos hdev)

theorem raiseFloorRun_denied (hdev : s.glb.dev ≠ .running) : raiseFloorRun s = updDone s 4 0x11 := (if_neg (served_update hw)).trans (if_pos hdev)

theorem revokeKeyRun_denied (hdev : s.glb.dev ≠ .running) : revokeKeyRun s = updDone s 6 0x11 := (if_neg (served_update hw)).trans (if_pos (.inl hdev))

theorem signedOnlyRun_denied (hdev : s.glb.dev ≠ .running) : signedOnlyRun s = updDone s 7 0x11 := (if_neg (served_update hw)).trans (if_pos (.inl hdev))

end

/-! ## BOOT (Table 15-3) -/

section
variable (s : State)

theorem sageFrom_startSage : SageFrom s (startSage s) := by
  have hstart (r : StateRec) (hold : Nat) (tj : Int) (trips : Nat) :
      SageFrom s { s with sage := { s.sage with cur := r, holdSeen := hold, trips := trips, tjSeen := tj } } := ⟨⟨_, _, _, _, _, _, rfl⟩, rfl⟩
  unfold startSage
  dsimp only
  split
  · exact (hstart _ _ _ _).trans ((sageFrom_regOr _ _ _).trans ((sageFrom_regSetField _ _ _ _ _).trans (sageFrom_writeRecord _)))
  · exact (hstart _ _ _ _).trans ((sageFrom_regSetField _ _ _ _ _).trans (sageFrom_writeRecord _))

theorem glb_startSage : (startSage s).glb = s.glb := by
  unfold startSage
  dsimp only
  split
  · rw [regOr_frame]
    rfl
  · rfl

/-- The components of an image whose headers pass stand. -/
def declareImage (r : Reader) (size : Nat) : State :=
  if (List.range 3).all (headerOk r size) then { s with sage := { s.sage with comps := (List.range 3).map (compOfImage s r) } } else s

theorem sageFrom_declareImage (r : Reader) (size : Nat) : SageFrom s (declareImage s r size) := by
  unfold declareImage
  split
  · exact ⟨⟨_, _, _, _, _, _, rfl⟩, rfl⟩
  · exact .of_regs rfl

theorem glb_declareImage (r : Reader) (size : Nat) : (declareImage s r size).glb = s.glb := by
  unfold declareImage
  split <;> rfl

/-- Step 7 of Table 15-3 begins: the image's levels are reported, and Sage's firmware runs. -/
def runImage (r : Reader) (slot : Option Nat) : State :=
  let lv := fun (k : Nat) => (nth ({} : Comp) s.sage.comps k).provides
  let seq := match slot with | some _ => dirSeq r | none => 0
  let s := regSetField s (mgtReg 0x8000) 0 0 (slot.getD 0)
  let s := regSetField s (mgtReg 0x8000) 3 3 (b2n slot.isNone)
  let s := regSet s (mgtReg 0x8004) (BitVec.ofNat 32 seq)
  let s := regSet s (mgtReg 0x8010) (BitVec.ofNat 32 (lv 0 + lv 1 * 2 ^ 16))
  let s := regSetField s (mgtReg 0x8014) 15 0 (lv 2)
  let s := logEvent s 1 1 0 (toLe 2 (slot.getD 2) ++ toLe 4 seq ++ toLe 2 (lv 0) ++ toLe 2 (lv 1) ++ toLe 2 (lv 2))
  let s := setChip s 11 (mwrite [] 0 (firmwareOf r 0))
  { s with sage := { s.sage with body := imageBody r, fw := firmwareOf r 1 }, glb := { s.glb with bootStep := 7 }, pwr := { s.pwr with startStep := 0 } }

theorem sageFrom_regSet (o : Nat) (w : Word) : SageFrom s (regSet s o w) := .of_regs rfl
theorem sageFrom_setChip (store : Nat) (m : List Host.Cell) : SageFrom s (setChip s store m) := ⟨⟨_, _, _, _, _, _, rfl⟩, rfl⟩
theorem sageFrom_firmware (body fw : List Byte) (g : Glb) (p : Pwr) :
    SageFrom s { s with sage := { s.sage with body := body, fw := fw }, glb := g, pwr := p } := ⟨⟨_, _, _, _, _, _, rfl⟩, rfl⟩

theorem sageFrom_runImage (r : Reader) (slot : Option Nat) : SageFrom s (runImage s r slot) :=
  (sageFrom_regSetField s _ _ _ _).trans ((sageFrom_regSetField _ _ _ _ _).trans ((sageFrom_regSet _ _ _).trans ((sageFrom_regSet _ _ _).trans
    ((sageFrom_regSetField _ _ _ _ _).trans ((sageFrom_logEvent _ _ _ _ _).trans ((sageFrom_setChip _ _ _).trans (sageFrom_firmware _ _ _ _ _)))))))

theorem glb_runImage (r : Reader) (slot : Option Nat) : (runImage s r slot).glb = { s.glb with bootStep := 7 } := rfl

/-- An image is held back by its checks, or runs. -/
theorem bootImage_cases (r : Reader) (size : Nat) (slot : Option Nat) : (∃ reason, bootImage s r size slot = enterHold (declareImage s r size) reason) ∨
    bootImage s r size slot = runImage (declareImage s r size) r slot := by
  change (∃ reason, (match compChecks (declareImage s r size) r size [] with
    | some reason => enterHold (declareImage s r size) reason
    | none => runImage (declareImage s r size) r slot) = enterHold (declareImage s r size) reason) ∨ (match compChecks (declareImage s r size) r size [] with
    | some reason => enterHold (declareImage s r size) reason
    | none => runImage (declareImage s r size) r slot) = runImage (declareImage s r size) r slot
  cases compChecks (declareImage s r size) r size [] with
  | some reason => exact .inl ⟨reason, rfl⟩
  | none => exact .inr rfl

theorem sageFrom_bootImage (r : Reader) (size : Nat) (slot : Option Nat) : SageFrom s (bootImage s r size slot) := by
  obtain ⟨reason, h⟩ | h := bootImage_cases s r size slot
  · rw [h]
    exact (sageFrom_declareImage s r size).trans (sageFrom_enterHold _ _)
  · rw [h]
    exact (sageFrom_declareImage s r size).trans (sageFrom_runImage _ _ _)

theorem dev_bootImage (r : Reader) (size : Nat) (slot : Option Nat) : (bootImage s r size slot).glb.dev = s.glb.dev ∨ (bootImage s r size slot).glb.dev = .hold := by
  obtain ⟨reason, h⟩ | h := bootImage_cases s r size slot
  · rw [h, glb_enterHold]
    exact .inr rfl
  · rw [h, glb_runImage, glb_declareImage]
    exact .inl rfl

/-- The device as BOOT begins. -/
def bootBegun : State := startSage { s with glb := { s.glb with dev := .boot, bootStep := 1 } }

theorem sageFrom_bootBegun : SageFrom s (bootBegun s) := (sageFrom_glb s _).trans (sageFrom_startSage _)

theorem dev_bootBegun : (bootBegun s).glb.dev = .boot := congrArg Glb.dev (glb_startSage _)

theorem bootFlash_cases : bootFlash s = enterHold (bootBegun s) 1 ∨ ∃ b, bootFlash s = bootImage (bootBegun s) (norReader (bootBegun s) b) 0x400000 (some b) := by
  rw [bootFlash]
  change (match chooseSlot (bootBegun s) with
    | none => enterHold (bootBegun s) 1
    | some b => bootImage (bootBegun s) (norReader (bootBegun s) b) 0x400000 (some b)) = _ ∨ ∃ b, (match chooseSlot (bootBegun s) with
    | none => enterHold (bootBegun s) 1
    | some b => bootImage (bootBegun s) (norReader (bootBegun s) b) 0x400000 (some b)) = _
  cases chooseSlot (bootBegun s) with
  | none => exact .inl rfl
  | some b => exact .inr ⟨b, rfl⟩

theorem sageFrom_bootFlash : SageFrom s (bootFlash s) := by
  obtain h | ⟨b, h⟩ := bootFlash_cases s
  · rw [h]
    exact (sageFrom_bootBegun s).trans (sageFrom_enterHold _ _)
  · rw [h]
    exact (sageFrom_bootBegun s).trans (sageFrom_bootImage _ _ _ _)

/-- BOOT goes on, or ends in HOLD. -/
theorem dev_bootFlash : (bootFlash s).glb.dev = .boot ∨ (bootFlash s).glb.dev = .hold := by
  obtain h | ⟨b, h⟩ := bootFlash_cases s
  · rw [h, glb_enterHold]
    exact .inr rfl
  · rw [h, ← dev_bootBegun s]
    exact dev_bootImage _ _ _ _

end

/-! ### What a reset of everything leaves (R440) -/

/-- Everything of the device is as after a reset; what belongs to the host and the flash stays. -/
structure Cleared (s t : State) : Prop where
  queues : t.queues = []
  fences : t.fences = []
  mem : t.mem = []
  cmds : t.cmds = []
  host : t.host = s.host
  hostWait : t.hostWait = false
  flash : t.sage.flash = s.sage.flash

theorem Cleared.sage {s t u : State} (h : Cleared s t) (hfrom : SageFrom t u) : Cleared s u where
  queues := hfrom.queues.trans h.queues
  fences := hfrom.fences.trans h.fences
  mem := hfrom.mem.trans h.mem
  cmds := hfrom.cmds.trans h.cmds
  host := hfrom.host.trans h.host
  hostWait := hfrom.hostWait.trans h.hostWait
  flash := hfrom.flash.trans h.flash

theorem cleared_resetAll (s : State) : Cleared s (resetAll s) := ⟨rfl, rfl, rfl, rfl, rfl, rfl, rfl⟩

theorem sageFrom_updDone (s : State) (cmd r : Nat) : SageFrom s (updDone s cmd r) := by
  have hflash := (logsFrom_updDone s cmd r).flash
  refine ⟨?_, hflash⟩
  rw [frame_updDone]
  exact ⟨_, _, _, _, _, _, rfl⟩

/-- The device after a reset, with the straps' samples kept. -/
def rebootBegun (s : State) : State :=
  { updDone (regOr (resetAll s) 0x18 1) 3 0 with
    glb := { (resetAll s).glb with autostart := s.glb.autostart, topo := s.glb.topo, rank := s.glb.rank } }

theorem cleared_rebootBegun (s : State) : Cleared s (rebootBegun s) :=
  (cleared_resetAll s).sage ((sageFrom_regOr _ _ _).trans ((sageFrom_updDone _ _ _).trans (sageFrom_glb _ _)))

theorem rebootRun_reboots {s : State} (hw : hostWrites s = true) (hdev : s.glb.dev = .hold) : rebootRun s = bootFlash (rebootBegun s) :=
  (if_neg (served_update hw)).trans (if_neg (not_not.mpr hdev))

/-- The device after a reset, in BOOT for a staged image. -/
def stagedBegun (g : Glb) (s : State) : State :=
  startSage (updDone (regOr { resetAll s with glb :=
    { (resetAll s).glb with dev := .boot, bootStep := 1, autostart := g.autostart, topo := g.topo, rank := g.rank } } 0x18 1) 2 0)

theorem cleared_stagedBegun (g : Glb) (s : State) : Cleared s (stagedBegun g s) :=
  (cleared_resetAll s).sage ((sageFrom_glb _ _).trans ((sageFrom_regOr _ _ _).trans ((sageFrom_updDone _ _ _).trans (sageFrom_startSage _))))

theorem dev_stagedBegun (g : Glb) (s : State) : (stagedBegun g s).glb.dev = .boot := by
  rw [stagedBegun, glb_startSage, frame_updDone, regOr_frame]

theorem bootStagedRun_boots {s s1 : State} {bs : List Byte} (hw : hostWrites s = true) (hdev : s.glb.dev = .hold)
    (hstaged : stagedImage s = (s1, some bs)) (hchecks : stagedChecks s1 bs [] = none) :
    bootStagedRun s = bootImage (stagedBegun s1.glb s1) (bytesReader bs) bs.length none := by
  rw [bootStagedRun, if_neg (served_update hw), if_neg (not_not.mpr hdev), hstaged]
  dsimp only
  rw [hchecks]
  rfl

/-- Settles O17. -/
theorem updateCommands : Obligations.UpdateCommands := by
  unfold Obligations.UpdateCommands
  refine fun s hrest => ⟨fun hdev => ⟨fun s1 bs hstaged hchecks hseq => ?programs, fun s1 bs r hstaged hchecks => ?refused⟩,
    fun hdev => ⟨?reboots, fun s1 bs hstaged hchecks => ?bootsStaged⟩,
    fun hdev => ⟨?floor, fun hsigned => ?revokes, fun hsigned => ?signedOnly⟩,
    fun k s1 bs hdev hk hfree hlower halign hsram hread => ?fuses, fun i hi => ?denied⟩
  case programs =>
    have hw : hostWrites s = true := by obtain h | h | h := hdev <;> simp [hostWrites, h]
    obtain ⟨hfrom, hlogs⟩ := stagedImage_some hstaged
    refine answers_of_update (exec_program s) ⟨hrest, hw⟩ (programRun_programs hw (by obtain h | h | h := hdev <;> simp [h]) hstaged hchecks hseq)
      (hfrom.2.trans hrest) fun t ht => ⟨ht.logs.flash, ht.result, ht.done, ?_, ?_⟩
    · rw [ht.frame]
      exact hfrom.1.queues
    · rw [ht.frame]
      exact hfrom.1.glb
  case refused =>
    have hw : hostWrites s = true := by obtain h | h | h := hdev <;> simp [hostWrites, h]
    obtain ⟨hfrom, hlogs⟩ := stagedImage_some hstaged
    refine answers_of_update (exec_program s) ⟨hrest, hw⟩ (programRun_refused hw (by obtain h | h | h := hdev <;> simp [h]) hstaged hchecks)
      (hfrom.2.trans hrest) fun t ht => ⟨ht.logs.flash.trans hlogs.flash, ht.result, ?_⟩
    rw [ht.frame]
    exact hfrom.1.glb
  case reboots =>
    have hw : hostWrites s = true := by simp [hostWrites, hdev]
    have hclear := (cleared_rebootBegun s).sage (sageFrom_bootFlash _)
    exact answers_of_write (exec_reboot s) ⟨hrest, hw⟩ (rebootRun_reboots hw hdev) hclear.hostWait fun h =>
      ⟨dev_bootFlash (rebootBegun s), hclear.queues, hclear.fences, hclear.mem, hclear.cmds, hclear.host, hclear.flash⟩
  case bootsStaged =>
    have hw : hostWrites s = true := by simp [hostWrites, hdev]
    have hfrom := (stagedImage_some hstaged).1.1
    have hclear := (cleared_stagedBegun s1.glb s1).sage (sageFrom_bootImage _ (bytesReader bs) bs.length none)
    have hdevs := dev_bootImage (stagedBegun s1.glb s1) (bytesReader bs) bs.length none
    rw [dev_stagedBegun] at hdevs
    exact answers_of_write (exec_bootStaged s) ⟨hrest, hw⟩ (bootStagedRun_boots hw hdev hstaged hchecks) hclear.hostWait fun h =>
      ⟨hdevs, hclear.queues, hclear.fences, hclear.mem, hclear.host.trans hfrom.host, hclear.flash⟩
  case floor =>
    have hw : hostWrites s = true := by simp [hostWrites, hdev]
    exact answers_of_update (exec_raiseFloor s) ⟨hrest, hw⟩ (raiseFloorRun_raises hw hdev) hrest fun t ht =>
      ⟨ht.logs.floor, ht.logs.keys, ht.logs.revoked, ht.logs.signedOnly, ht.frame⟩
  case revokes =>
    have hw : hostWrites s = true := by simp [hostWrites, hdev]
    refine answers_of_update (exec_revokeKey s) ⟨hrest, hw⟩ (revokeKeyRun_revokes hw hdev hsigned) hrest fun t ht => ?_
    have hrevoked := ht.logs.revoked
    dsimp only at hrevoked
    refine ⟨?_, fun k hk => ?_, ht.logs.keys, ht.frame⟩
    · rw [hrevoked]
      split
      next h => exact List.contains_iff_mem.mp h
      · exact List.mem_append_right _ (List.mem_singleton_self _)
    · rw [hrevoked]
      split
      · exact hk
      · exact List.mem_append_left _ hk
  case signedOnly =>
    have hw : hostWrites s = true := by simp [hostWrites, hdev]
    exact answers_of_update (exec_signedOnly s) ⟨hrest, hw⟩ (signedOnlyRun_sets hw hdev hsigned) hrest fun t ht => ⟨ht.logs.signedOnly, ht.logs.keys, ht.frame⟩
  case fuses =>
    have hw : hostWrites s = true := by obtain h | h | h := hdev <;> simp [hostWrites, h]
    have hdevice := isHost_of_inSram hsram
    have hfrom := (deviceFrom_readMem hdevice s 0 1 32).1
    have hlogs := logsFrom_readMem hdevice s 0 1 32
    rw [hread] at hfrom hlogs
    refine answers_of_update (exec_fuseKey s) ⟨hrest, hw⟩
      (fuseKeyRun_fuses hw (by obtain h | h | h := hdev <;> simp [h]) hk hfree hlower halign hsram hread) (hfrom.2.trans hrest) fun t ht => ?_
    rw [ht.logs.keys]
    exact ⟨sget_sset_same [] _ k bs, fun j hj => (sget_sset_ne [] _ k j bs hj.symm).trans (by rw [hlogs.keys])⟩
  case denied =>
    have hend : ∀ {f : State → State} {cmd : Nat}, exec i s = host s f → hostWrites s = true → f s = updDone s cmd 0x11 →
        Answers i s fun t => regField t (mgtReg 0x8030) 15 8 = 0x11 ∧ regBit t (mgtReg 0x8030) 16 = true ∧ t.sage.keys = s.sage.keys ∧
          t.sage.flash = s.sage.flash ∧ t = { s with sage := t.sage, regs := t.regs, hif := t.hif } := fun hexec hw hrun =>
      answers_of_update hexec ⟨hrest, hw⟩ hrun hrest fun t ht => ⟨ht.result, ht.done, ht.logs.keys, ht.logs.flash, ht.frame⟩
    obtain ⟨rfl, hdev⟩ | ⟨rfl | rfl, hw, hdev⟩ | ⟨rfl | rfl | rfl, hw, hdev⟩ | ⟨rfl, hdev⟩ := hi
    · have hw : hostWrites s = true := by simp [hostWrites, hdev]
      exact hend (exec_program s) hw (programRun_draining hw hdev)
    · exact hend (exec_reboot s) hw (rebootRun_denied hw hdev)
    · exact hend (exec_bootStaged s) hw (bootStagedRun_denied hw hdev)
    · exact hend (exec_raiseFloor s) hw (raiseFloorRun_denied hw hdev)
    · exact hend (exec_revokeKey s) hw (revokeKeyRun_denied hw hdev)
    · exact hend (exec_signedOnly s) hw (signedOnlyRun_denied hw hdev)
    · have hw : hostWrites s = true := by simp [hostWrites, hdev]
      exact hend (exec_fuseKey s) hw (fuseKeyRun_draining hw hdev)

/-! ## Restructuring a hedge (R375, R376, Table 15-12a) -/

theorem exec_restructure (q : QIx) (s : State) : exec (.restructure q) s = flows s fun s => dispatch s (.queue q) 0x43 restructureCmd := rfl
theorem exec_restructureRun (s : State) : exec .restructureRun s = alive s restructureRun1 := rfl

/-- An event of the powered core becomes what its run function gives. -/
theorem becomes_of_alive {i : Instr} {s u : State} {f : State → State} (hexec : exec i s = alive s f) (hs : s.powered) (hrun : f s = u) :
    becomes i s u := by
  subst hrun
  have hon : (corePowered s && s.glb.dev != .fault) = true := by simp [hs.2.1, hs.2.2]
  rw [becomes, hexec, alive, hon]
  rfl

/-- What a RESTRUCTURE asks for, with the component it has read. -/
def Cmd.restruct (c : Cmd) (b : List Byte) : Restruct := { uid := c.uid, h := leAt c.slot 0x18 1, body := b }

section
variable {t t1 : State} {c : Cmd} {r : Rd}

theorem restructureCmd_host (h : isHost (op10 c.slot) = true) : restructureCmd t c = complete t c.uid .format := if_pos h

section
variable (hdev : isHost (op10 c.slot) = false) (hread : readMem t (cmdQueue t c) 0xFC (op10 c.slot) 128 = (t1, r))
include hdev hread

theorem restructureCmd_aperture (hap : r.ap = true) : restructureCmd t c = complete t1 c.uid .aperture := by
  simp only [restructureCmd, hread]
  rw [if_neg (ne_true_of_eq_false hdev), if_pos hap]

theorem restructureCmd_integrity (hap : r.ap = false) (hpoison : r.poison = true) : restructureCmd t c = complete t1 c.uid .integrity := by
  simp only [restructureCmd, hread]
  rw [if_neg (ne_true_of_eq_false hdev), if_neg (ne_true_of_eq_false hap), if_pos hpoison]

end

section
variable {t2 : State} {h b : List Byte} (hdev : isHost (op10 c.slot) = false)
  (hread : readMem t (cmdQueue t c) 0xFC (op10 c.slot) 128 = (t1, { bytes := h }))
  (hbody : readMem t1 (cmdQueue t c) 0xFC (op10 c.slot) (128 + min 2560 (leAt h 0x20 4) + (if bitOf (leAt h 7 1) 0 then 128 else 0)) =
    (t2, { bytes := b }))
include hdev hread hbody

theorem restructureCmd_reads : restructureCmd t c =
    if (t2.restructs ++ [c.restruct b]).length = 1 then
      judgeRestruct { t2 with restructs := t2.restructs ++ [c.restruct b] } (c.restruct b)
    else { t2 with restructs := t2.restructs ++ [c.restruct b] } := by
  simp only [restructureCmd, hread, hdev, hbody, Bool.false_eq_true, if_false]
  rfl

theorem restructureCmd_waits (hne : t2.restructs ≠ []) : restructureCmd t c =
    { t2 with restructs := t2.restructs ++ [c.restruct b] } :=
  (restructureCmd_reads hdev hread hbody).trans (if_neg (by simp [hne]))

theorem restructureCmd_judged (hnil : t2.restructs = []) : restructureCmd t c =
    judgeRestruct { t2 with restructs := [c.restruct b] } (c.restruct b) := by
  rw [restructureCmd_reads hdev hread hbody, hnil]
  rfl

end

end

/-! ### The judgement -/

/-- The state in which an accepted restructure stands at the head. -/
def accepting (s : State) (x : Restruct) : State :=
  regSetField (regSetField { s with restructs := { x with accepted := true, comp := compOfImage s (componentReader x.body) 2 } :: s.restructs.drop 1 }
    (mgtReg 0x8060) 3 0 x.h) (mgtReg 0x8060) 4 4 1

theorem judgeRestruct_accepts {s : State} {x : Restruct} (h : restructRefused s x.body (bodyDefaults (sub x.body 128 2560)) x.h = none) :
    judgeRestruct s x = modHedge (accepting s x) x.h fun e => { e with restructuring := true } := by
  unfold judgeRestruct
  split
  next hr => exact absurd (h.symm.trans hr) nofun
  · rfl

/-! ### The run -/

/-- `t` is `s` but for its arrays. -/
def ArraysFrom (s t : State) : Prop := t = { s with arrays := t.arrays }

theorem arraysFrom_modArr {s t : State} (h : ArraysFrom s t) (n : Nat) (f : Arr → Arr) : ArraysFrom s (modArr t n f) := by
  rw [ArraysFrom, modArr_frame, h]

theorem ArraysFrom.of_ite {s a b : State} {c : Prop} [Decidable c] (ha : ArraysFrom s a) (hb : ArraysFrom s b) : ArraysFrom s (if c then a else b) := by
  split
  · exact ha
  · exact hb

theorem arraysFrom_reshape (s : State) (b : List Byte) (h : Nat) : ArraysFrom s (reshape s b h) := by
  refine List.foldlRecOn (motive := fun t : State => ArraysFrom s t) _ _ rfl fun t ht a _ => ?_
  exact .of_ite (.of_ite ht (arraysFrom_modArr ht _ _)) (arraysFrom_modArr (.of_ite ht (arraysFrom_modArr ht _ _)) _ _)

/-- The new body in force, before the hedge is released. -/
def reshaped (s : State) (x : Restruct) : State :=
  let b := bodyDefaults (sub x.body 128 2560)
  let s := reshape { s with restructs := s.restructs.drop 1 } b x.h
  let s := { s with pleach := b, sage := { s.sage with comps := s.sage.comps.take 2 ++ [x.comp] } }
  regSetField s (mgtReg 0x8014) 15 0 x.comp.provides

theorem frame_reshaped (s : State) (x : Restruct) : reshaped s x = { s with
    restructs := s.restructs.drop 1, pleach := bodyDefaults (sub x.body 128 2560), arrays := (reshaped s x).arrays, sage := (reshaped s x).sage,
    regs := (reshaped s x).regs } := by
  rw [reshaped, arraysFrom_reshape { s with restructs := s.restructs.drop 1 }]
  rfl

/-- The hedge released, with the restructure's outcome. -/
def released (s : State) (x : Restruct) : State :=
  rstDone (modHedge (reshaped s x) x.h fun e =>
    { e with restructuring := false, off := role (reshaped s x) x.h == 0, en := { en := e.en.pendOn && role (reshaped s x) x.h != 0 } }) x.h 0

theorem frame_rstDone (s : State) (h r : Nat) : rstDone s h r = { s with regs := (rstDone s h r).regs } := by
  rw [rstDone, regOr_frame]
  rfl

theorem hedge_rstDone (s : State) (k r h : Nat) : hedge (rstDone s k r) h = hedge s h := by
  rw [frame_rstDone]
  rfl

theorem restructureRun1_accepted {s : State} {x : Restruct} {rest : List Restruct} (h : s.restructs = x :: rest) (hacc : x.accepted = true) :
    restructureRun1 s = complete (released s x) x.uid .ok := by
  rw [restructureRun1, h]
  dsimp only
  rw [if_neg (by simp [hacc]), ← h]
  rfl

theorem hedge_released_same (s : State) (x : Restruct) : (hedge (released s x) x.h).restructuring = false := by
  rw [released, hedge_rstDone, hedge_modHedge_same]

theorem hedge_released_ne (s : State) (x : Restruct) {h : Nat} (hne : x.h ≠ h) : hedge (released s x) h = hedge s h := by
  rw [released, hedge_rstDone, hedge_modHedge_ne _ _ _ _ hne, frame_reshaped]
  rfl

theorem frame_released (s : State) (x : Restruct) : released s x = { s with
    restructs := s.restructs.drop 1, pleach := bodyDefaults (sub x.body 128 2560), arrays := (released s x).arrays, sage := (released s x).sage,
    regs := (released s x).regs, hedges := (released s x).hedges } := by
  have hmod (f : Hedge → Hedge) : modHedge (reshaped s x) x.h f = { reshaped s x with hedges := (modHedge (reshaped s x) x.h f).hedges } := rfl
  rw [released, frame_rstDone, hmod, frame_reshaped]

/-- Settles O44. -/
theorem restructureRows : Obligations.RestructureRows := by
  unfold Obligations.RestructureRows
  refine ⟨fun s t q c ⟨hs, htake, hfree⟩ => ?command, fun s x rest hhead haccept => ?judged, fun s x rest hs hhead hacc => ?runs, fun s hs hnil => ?idle⟩
  case command =>
    have hend : ∀ {u : State}, restructureCmd t c = u → becomes (.restructure q) s (behind (.queue q) u) := fun hrun =>
      becomes_of_run (exec_restructure q s) hs ((dispatch_of_take htake hfree restructureCmd).trans (congrArg _ hrun))
    exact ⟨fun hhost => hend (restructureCmd_host hhost), fun t1 r hdev hread hap => hend (restructureCmd_aperture hdev hread hap),
      fun t1 r hdev hread hap hpoison => hend (restructureCmd_integrity hdev hread hap hpoison),
      fun t1 t2 h b hdev hread hbody => ⟨fun hne => hend (restructureCmd_waits hdev hread hbody hne),
        fun hnil => hend (restructureCmd_judged hdev hread hbody hnil)⟩⟩
  case judged =>
    rw [judgeRestruct_accepts haccept, hedge_modHedge_same]
    exact ⟨rfl, rfl, regBit_regSetField _ (mgtReg 0x8060) 1 (by decide) (by decide) (by decide) (by decide)⟩
  case runs =>
    have hframe := frame_released s x
    refine ⟨released s x, becomes_of_alive (exec_restructureRun s) hs (restructureRun1_accepted hhead hacc), ?_, by rw [hframe],
      hedge_released_same s x, fun h hne => hedge_released_ne s x hne, by rw [hframe], by rw [hframe], by rw [hframe]⟩
    rw [hframe, hhead]
    rfl
  case idle => exact exec_of_alive_self (exec_restructureRun s) hs (by rw [restructureRun1, hnil])

end Sys2Proof.Machine
end

section
/-! The proofs of the family `16_power.md`: the budget (O22), the grants of tokens (O29), Sage's requests (O25), the governor (O30), and power and
reset at the pins (O31). -/

namespace Sys2Proof.Machine

/-! ## The budget (R390) -/

theorem exec_targetWrite (v : Word) (s : State) : exec (.targetWrite v) s = host s fun s => targetRun s (v.toNat % 1024) := rfl

section
variable {s : State}

/-- EFFECTIVE follows the budget that is to be reached. -/
def spend (s : State) : State :=
  if s.pwr.effective ≤ budgetGoal s then
    payOwed { s with pwr := { s.pwr with pool := s.pwr.pool + (budgetGoal s - s.pwr.effective), effective := budgetGoal s } }
  else
    { s with pwr := { s.pwr with pool := s.pwr.pool - min s.pwr.pool (s.pwr.effective - budgetGoal s),
                                 effective := s.pwr.effective - min s.pwr.pool (s.pwr.effective - budgetGoal s) } }

/-- With no clamp in force and none needed the budget alone moves. -/
theorem moveBudget_unclamped (hmin : minBudget s ≤ regField s (pwrReg 0) 9 0) (hclamp : s.pwr.clampTo = none) : moveBudget s = spend s := by
  have hself : { s with pwr := { s.pwr with clampTo := none } } = s :=
    (congrArg (fun o => { s with pwr := { s.pwr with clampTo := o } }) hclamp).symm
  unfold moveBudget
  simp only [if_neg hmin.not_gt, hclamp, hself, Option.isSome_none, Bool.false_eq_true, if_false, beq_self_eq_true, if_true, spend]

theorem budgetGoal_unclamped (hclamp : s.pwr.clampTo = none) : budgetGoal s = regField s (pwrReg 0) 9 0 := by rw [budgetGoal, hclamp]

theorem spend_raises (hleak : s.pwr.leakOwed = 0) (hrx : s.pwr.rxOwed = 0) (hup : s.pwr.effective ≤ budgetGoal s) : spend s =
    { s with pwr := { s.pwr with pool := s.pwr.pool + (budgetGoal s - s.pwr.effective), effective := budgetGoal s } } := by
  rw [spend, if_pos hup]
  simp [payOwed, hleak, hrx]

theorem spend_cuts (hdown : budgetGoal s < s.pwr.effective) : spend s =
    { s with pwr := { s.pwr with pool := s.pwr.pool - min s.pwr.pool (s.pwr.effective - budgetGoal s),
                                 effective := s.pwr.effective - min s.pwr.pool (s.pwr.effective - budgetGoal s) } } := if_neg hdown.not_ge

theorem targetRun_outside {v : Nat} (h : v < 240 ∨ 740 < v) : targetRun s v = s := if_pos h

theorem targetRun_inside {v : Nat} (h1 : 240 ≤ v) (h2 : v ≤ 740) :
    targetRun s v = { moveBudget (regSetField s (pwrReg 0) 9 0 v) with sage := (targetRun s v).sage } := by
  rw [targetRun, if_neg (by omega)]
  dsimp only
  split <;> rfl

theorem regField_budget (s : State) {v : Nat} (h : v < 1024) : regField (regSetField s (pwrReg 0) 9 0 v) (pwrReg 0) 9 0 = v :=
  (regField_regSetField_same s _ v (by decide) (by decide)).trans (Nat.mod_eq_of_lt h)

end

/-- A budget in range, written with no clamp in force or needed. -/
theorem targetRun_spends {s : State} {v : Nat} (h1 : 240 ≤ v) (h2 : v ≤ 740) (hmin : minBudget s ≤ v) (hclamp : s.pwr.clampTo = none) :
    targetRun s v = { spend (regSetField s (pwrReg 0) 9 0 v) with sage := (targetRun s v).sage } := by
  have hfield := regField_budget s (show v < 1024 by omega)
  have hmove := moveBudget_unclamped (s := regSetField s (pwrReg 0) 9 0 v) (by rw [hfield]; exact hmin) hclamp
  rw [← hmove]
  exact targetRun_inside h1 h2

/-- Settles O22. -/
theorem budgetWrites : Obligations.BudgetWrites := by
  unfold Obligations.BudgetWrites
  intro s v hs
  refine ⟨fun hout => ?outside, fun h1 h2 hmin hclamp hrx hleak => ?inside⟩
  case outside =>
    refine (exec_of_write (exec_targetWrite v s) hs (targetRun_outside hout) hs.1).trans ?_
    rw [finish_self]
  case inside =>
    have hexec := exec_targetWrite v s
    generalize v.toNat % 1024 = b at h1 h2 hmin hexec ⊢
    have hfield := regField_budget s (show b < 1024 by omega)
    have hgoal : budgetGoal (regSetField s (pwrReg 0) 9 0 b) = b := (budgetGoal_unclamped (s := regSetField s (pwrReg 0) 9 0 b) hclamp).trans hfield
    have hrun := targetRun_spends h1 h2 hmin hclamp
    generalize (targetRun s b).sage = g at hrun
    refine ⟨fun hup => ?_, fun hdown => ?_⟩
    · rw [spend_raises (s := regSetField s (pwrReg 0) 9 0 b) hleak hrx (by rw [hgoal]; exact hup), hgoal] at hrun
      refine answers_of_write hexec hs hrun hs.1 fun h => ⟨?_, rfl, rfl, rfl, rfl⟩
      exact (regField_of_regGet (regGet_of_regs rfl _) 9 0).trans hfield
    · rw [spend_cuts (s := regSetField s (pwrReg 0) 9 0 b) (by rw [hgoal]; exact hdown), hgoal] at hrun
      exact answers_of_write hexec hs hrun hs.1 fun h => ⟨rfl, rfl, rfl⟩

/-! ## Tokens (R387 to R389) -/

theorem exec_tokenClaimGranted (s : State) : exec .tokenClaimGranted s = flows s fun s => grantRun s := rfl

section
variable {s : State} {c : Claim}

theorem headClaim_of_receiver (hhead : headClaim s = some c) (h : ∃ w, w ∈ s.pwr.waiting ∧ w.recv = true) : c.recv = true := by
  obtain ⟨w, hw, hrecv⟩ := h
  unfold headClaim at hhead
  split at hhead
  next d hd =>
    cases hhead
    exact List.find?_some hd
  next hnone => exact absurd hrecv (List.find?_eq_none.mp hnone w hw)

theorem crit_of_headClaim (hhead : headClaim s = some c) (hother : c.recv = false) : s.pwr.crit = false := by
  unfold headClaim at hhead
  split at hhead
  next d hd =>
    cases hhead
    exact absurd (List.find?_some hd) (ne_true_of_eq_false hother)
  · by_contra hcrit
    rw [if_pos (by simpa using hcrit)] at hhead
    cases hhead

variable (hbrown : s.pwr.brownout = false) (hreg : s.pwr.regCond = false) (hleak : s.pwr.leakOwed = 0) (hrx : s.pwr.rxOwed = 0)
  (hhead : headClaim s = some c)
include hbrown hreg hleak hrx hhead

theorem grantRun_head : grantRun s =
    if s.pwr.pool < claimSize s c.nom then s
    else { s with pwr := { s.pwr with
        pool := s.pwr.pool - claimSize s c.nom, held := s.pwr.held ++ [{ c with cost := claimSize s c.nom }],
        waiting := s.pwr.waiting.filter (·.owner != c.owner) } } := by
  rw [grantRun, if_neg (by simp [hbrown, hreg, hleak, hrx]), hhead]

end

/-- Settles O29. -/
theorem tokenGrants : Obligations.TokenGrants := by
  unfold Obligations.TokenGrants
  intro s hs hbrown hreg hleak hrx c hhead
  have hrun := grantRun_head hbrown hreg hleak hrx hhead
  refine ⟨fun hmeets => ?granted, fun hshort => exec_of_run_self (exec_tokenClaimGranted s) hs (hrun.trans (if_pos hshort)),
    headClaim_of_receiver hhead, crit_of_headClaim hhead⟩
  case granted =>
    refine answers_of_run (exec_tokenClaimGranted s) hs (hrun.trans (if_neg hmeets.not_gt)) hs.1 fun h =>
      ⟨List.mem_append_right _ (List.mem_singleton_self _), Nat.sub_add_cancel hmeets, ?_, fun w => ?_, rfl⟩
    · simp only [heldTokens, List.map_append, List.map_cons, List.map_nil, List.sum_append, List.sum_cons, List.sum_nil]
      omega
    · simp [List.mem_filter]

/-! ## Sage's requests (R401) -/

theorem length_wordsOf (bs : List Byte) : (wordsOf bs).length = cdiv bs.length 4 := by simp [wordsOf]

theorem length_padTo (n : Nat) (bs : List Byte) : (padTo n bs).length = n := by
  simp only [padTo, List.length_append, List.length_take, List.length_replicate]
  omega

theorem length_sensorWords (s : State) : (sensorWords s).length = 9 := by
  rw [sensorWords, List.length_append, length_wordsOf, length_padTo]
  rfl

theorem length_logBytes (e : LogEntry) : (logBytes e).length = 32 := by
  simp [logBytes, length_toLe, length_padTo]

theorem length_stateWords (bs : List Byte) (off : Nat) : (wordsOf (sub bs off 32)).length ≤ 8 := by
  rw [length_wordsOf, sub, List.length_take, cdiv]
  omega

/-! ### The answer -/

/-- A map listed in order gives back its values. -/
theorem sget_zip_range' {α : Type} (d : α) (l : List α) (a i : Nat) (h : i < l.length) :
    sget d (List.zip (List.range' a l.length) l) (a + i) = l[i] := by
  induction l generalizing a i with
  | nil => exact absurd h (Nat.not_lt_zero _)
  | cons x l ih =>
    rw [List.length_cons, List.range'_succ, List.zip_cons_cons, sget]
    cases i with
    | zero => simp
    | succ i =>
      rw [if_neg (by omega), show a + (i + 1) = a + 1 + i by omega, ih (a + 1) i (by simpa using h)]
      rfl

/-- The words of a block as they were written. -/
theorem chanBlock_zip {c : Chan} {l : List Word} (hl : l.length = 16) (hdata : c.data = List.zip (List.range 16) l) : chanBlock c = l := by
  refine List.ext_getElem (by simp [chanBlock, hl]) fun i h1 h2 => ?_
  have hget := sget_zip_range' (0 : Word) l 0 i h2
  rw [hl, Nat.zero_add, ← List.range_eq_range'] at hget
  simpa [chanBlock, hdata] using hget

/-- The block of an answer. -/
def answerBlock (w0 : Word) (status : Nat) (data : List Word) : List Word :=
  BitVec.ofNat 32 (w0.toNat % 2 ^ 16 + status * 2 ^ 16) :: (data ++ List.replicate (15 - data.length) 0)

theorem length_answerBlock (w0 : Word) (status : Nat) {data : List Word} (h : data.length ≤ 15) : (answerBlock w0 status data).length = 16 := by
  simp only [answerBlock, List.length_cons, List.length_append, List.length_replicate]
  omega

theorem modChan_modChan_same (s : State) (a b : Nat) (f g : Chan → Chan) : modChan (modChan s a b f) a b g = modChan s a b fun c => g (f c) := by
  rw [modChan, chan_modChan_same]
  simp only [modChan, sset_sset_same]

theorem chan_modChan_ne (s : State) {a b a' b' : Nat} (f : Chan → Chan) (h : chanKey a b ≠ chanKey a' b') :
    chan (modChan s a b f) a' b' = chan s a' b' := sget_sset_ne _ _ _ _ _ h

/-- Sage's channel to the host with a block written, requested and committed. -/
def Chan.answered (block : List Word) (c : Chan) : Chan :=
  { c with data := List.zip (List.range 16) block, go := false, withdrawn := false, queue := c.queue ++ [block] }

theorem commit_answer {s : State} {block : List Word} (hlen : block.length = 16) (hgo : (chan s 1 0).go = false)
    (hroom : (chan s 1 0).queue.length < 4) :
    commitRun (goRun (modChan s 1 0 fun c => { c with data := List.zip (List.range 16) block }) 1 0) 1 0 = modChan s 1 0 (Chan.answered block) := by
  have hput : chan (modChan s 1 0 fun c => { c with data := List.zip (List.range 16) block }) 1 0 = _ := chan_modChan_same s 1 0 _
  rw [goRun, if_neg (by rw [hput]; simp [chanExists, isEndpoint, hgo]), modChan_modChan_same]
  rw [commitRun, chan_modChan_same]
  dsimp only
  rw [if_pos ⟨rfl, hroom⟩, modChan_modChan_same]
  refine congrArg (fun v : Chan => { s with chans := sset s.chans (chanKey 1 0) v }) ?_
  dsimp only
  rw [chanBlock_zip hlen rfl]
  rfl

/-- Sage serves, `b` is the request at the head of the host's channel, and Sage's own channel has room for the answer. -/
structure SageAsked (s : State) (b : List Word) : Prop where
  serves : sageServes s = true
  head : (chan s 0 1).queue.head? = some b
  go : (chan s 1 0).go = false
  room : (chan s 1 0).queue.length < 4

/-- What LOG_READ answers. -/
def logReadAnswer (s : State) (b : List Word) : State × Nat × List Word :=
  match logFrom s.sage.log (nth (0 : Word) b 1).toNat with
  | some e => (s, 0, wordsOf (logBytes e))
  | none => (s, 3, [])

/-- What STATE_READ answers. -/
def stateReadAnswer (s : State) (b : List Word) : State × Nat × List Word :=
  if (nth (0 : Word) b 1).toNat % 32 ≠ 0 ∨ 256 ≤ (nth (0 : Word) b 1).toNat then (s, 2, [])
  else (s, 0, wordsOf (sub (recBytes s.sage.cur) (nth (0 : Word) b 1).toNat 32))

/-- The log with the entry of a LOG_MARK. -/
def logMarked (s : State) (b : List Word) : State :=
  logEvent s 0x60 0 0 ((List.range 3).flatMap fun i => toLe 4 (nth (0 : Word) b (1 + i)).toNat)

theorem mark_mem_logMarked (s : State) (b : List Word) : ∃ e, e ∈ (logMarked s b).sage.log ∧ e.seq = s.sage.logSeq + 1 ∧ e.code = 0x60 :=
  ⟨_, List.mem_append_right _ (List.mem_singleton_self _), rfl, rfl⟩

/-- What LOG_MARK answers. -/
def logMarkAnswer (s : State) (b : List Word) : State × Nat × List Word :=
  (logMarked s b, 0, [BitVec.ofNat 32 (logMarked s b).sage.logSeq])

theorem exec_sensors (s : State) : exec .sensors s = done s (serveSage s 1 fun s _ => (s, 0, sensorWords s)) := rfl
theorem exec_logRead (s : State) : exec .logRead s = done s (serveSage s 2 logReadAnswer) := rfl
theorem exec_stateRead (s : State) : exec .stateRead s = done s (serveSage s 3 stateReadAnswer) := rfl
theorem exec_logMark (s : State) : exec .logMark s = done s (serveSage s 4 logMarkAnswer) := rfl

section
variable {s : State} {b : List Word} (hask : SageAsked s b)
include hask

theorem sageAnswer_eq (w0 : Word) (status : Nat) {data : List Word} (hdata : data.length ≤ 15) : sageAnswer s w0 status data =
    modChan (modChan s 0 1 fun c => { c with queue := c.queue.drop 1 }) 1 0 (Chan.answered (answerBlock w0 status data)) := by
  have hne : (chan s 0 1).queue.isEmpty = false := by
    cases hq : (chan s 0 1).queue with
    | nil => simpa [hq] using hask.head
    | cons => rfl
  have htake : takeRun s 0 1 = modChan s 0 1 fun c => { c with queue := c.queue.drop 1 } := by
    rw [takeRun, hne]
    rfl
  have hother : chan (modChan s 0 1 fun c => { c with queue := c.queue.drop 1 }) 1 0 = chan s 1 0 := chan_modChan_ne s _ (by decide)
  rw [← commit_answer (length_answerBlock w0 status hdata) (by rw [hother]; exact hask.go) (by rw [hother]; exact hask.room), ← htake]
  rfl

/-- The answer takes the request and commits at once. -/
theorem sageAnswered_sageAnswer (w0 : Word) (status : Nat) {data : List Word} (hdata : data.length ≤ 15) :
    sageAnswered s (sageAnswer s w0 status data) w0 status data := by
  rw [sageAnswer_eq hask w0 status hdata]
  constructor
  · rw [chan_modChan_ne _ _ (by decide), chan_modChan_same]
  · rw [chan_modChan_same, chan_modChan_ne _ _ (by decide)]
    rfl

theorem frame_sageAnswer (w0 : Word) (status : Nat) {data : List Word} (hdata : data.length ≤ 15) :
    sageAnswer s w0 status data = { s with chans := (sageAnswer s w0 status data).chans } := by
  rw [sageAnswer_eq hask w0 status hdata]
  rfl

theorem sageRequest_head : sageRequest s = some b := by
  rw [sageRequest, hask.serves, hask.go]
  exact hask.head

theorem serveSage_asked {op : Nat} {f : State → List Word → State × Nat × List Word} (h0 : (nth (0 : Word) b 0).toNat / 2 ^ 16 = 0)
    (hop : (nth (0 : Word) b 0).toNat % 256 = op) (h1 : 1 ≤ op) (h4 : op ≤ 4) :
    serveSage s op f = sageAnswer (f s b).1 (nth (0 : Word) b 0) (f s b).2.1 (f s b).2.2 := by
  rw [serveSage, sageRequest_head hask]
  dsimp only
  rw [if_neg (by omega), if_neg (not_not.mpr hop), if_neg (not_not.mpr h0)]

theorem serveSage_unknown {op : Nat} {f : State → List Word → State × Nat × List Word}
    (h : (nth (0 : Word) b 0).toNat % 256 = 0 ∨ 4 < (nth (0 : Word) b 0).toNat % 256) : serveSage s op f = sageAnswer s (nth (0 : Word) b 0) 1 [] := by
  rw [serveSage, sageRequest_head hask]
  exact if_pos h

/-- An answer that changes nothing but the channels. -/
theorem answers_of_sage {i : Instr} {run : State} {w0 : Word} {status : Nat} {data : List Word} (hexec : exec i s = done s run) (hs : s.rested)
    (hrun : run = sageAnswer s w0 status data) (hdata : data.length ≤ 15) :
    Answers i s fun t => sageAnswered s t w0 status data ∧ t = { s with chans := t.chans, hif := t.hif } := by
  have hanswered := sageAnswered_sageAnswer hask w0 status hdata
  have hframe := frame_sageAnswer hask w0 status hdata
  rw [← hrun] at hanswered hframe
  exact answers_of_done hexec (by rw [hframe]; exact hs) fun h => ⟨hanswered, congrArg (fun t : State => { t with hif := h }) hframe⟩

end

/-- Settles O25. -/
theorem sageRequests : Obligations.SageRequests := by
  unfold Obligations.SageRequests
  intro s b hs hserves hhead hgo hroom h0
  have hask : SageAsked s b := ⟨hserves, hhead, hgo, hroom⟩
  refine ⟨fun hop => ?sensors, fun hop => ⟨fun e he => ?logFound, fun hnone => ?logNone⟩, fun hop => ⟨fun hin => ?record, fun hout => ?recordOut⟩,
    fun hop => ?mark, fun hop => answers_of_sage hask (exec_sensors s) hs (serveSage_unknown hask hop) (by decide)⟩
  case sensors =>
    exact answers_of_sage hask (exec_sensors s) hs (serveSage_asked hask h0 hop (by decide) (by decide)) (by rw [length_sensorWords]; decide)
  case logFound =>
    have hrun := serveSage_asked hask h0 hop (by decide) (by decide) (f := logReadAnswer)
    rw [show logReadAnswer s b = (s, 0, wordsOf (logBytes e)) by rw [logReadAnswer, he]] at hrun
    exact answers_of_sage hask (exec_logRead s) hs hrun (by rw [length_wordsOf, length_logBytes]; decide)
  case logNone =>
    have hrun := serveSage_asked hask h0 hop (by decide) (by decide) (f := logReadAnswer)
    rw [show logReadAnswer s b = (s, 3, []) by rw [logReadAnswer, hnone]] at hrun
    exact answers_of_sage hask (exec_logRead s) hs hrun (by decide)
  case record =>
    have hrun := serveSage_asked hask h0 hop (by decide) (by decide) (f := stateReadAnswer)
    rw [stateReadAnswer, if_neg (by omega)] at hrun
    exact answers_of_sage hask (exec_stateRead s) hs hrun ((length_stateWords _ _).trans (by decide))
  case recordOut =>
    have hrun := serveSage_asked hask h0 hop (by decide) (by decide) (f := stateReadAnswer)
    rw [stateReadAnswer, if_pos hout] at hrun
    exact answers_of_sage hask (exec_stateRead s) hs hrun (by decide)
  case mark =>
    have hexec := exec_logMark s
    have hrun : serveSage s 4 logMarkAnswer = sageAnswer (logMarked s b) (nth (0 : Word) b 0) 0 [BitVec.ofNat 32 (s.sage.logSeq + 1)] :=
      serveSage_asked hask h0 hop (by decide) (by decide)
    have hmarked : SageAsked (logMarked s b) b := ⟨hserves, hhead, hgo, hroom⟩
    have hone : [BitVec.ofNat 32 (s.sage.logSeq + 1)].length ≤ 15 := Nat.le_add_left 1 14
    have hanswered := sageAnswered_sageAnswer hmarked (nth (0 : Word) b 0) 0 hone
    have hframe := frame_sageAnswer hmarked (nth (0 : Word) b 0) 0 hone
    rw [← hrun] at hanswered hframe
    generalize serveSage s 4 logMarkAnswer = t at hanswered hframe hexec
    have hsage : t.sage = (logMarked s b).sage := by rw [hframe]
    have hkeeps : t = { s with chans := t.chans, sage := t.sage } := by
      rw [hframe]
      rfl
    refine answers_of_done hexec (by rw [hframe]; exact hs) fun h =>
      ⟨hanswered, (congrArg Sage.logSeq hsage).trans rfl, ?_, congrArg (fun t : State => { t with hif := h }) hkeeps⟩
    dsimp only
    rw [hsage]
    exact mark_mem_logMarked s b

/-! ## The governor (R383, R384, R395) -/

theorem exec_governorPass {g : Governor} (h : g.sensors.length = 24) (s : State) : exec (.governorPass g) s = done s (governorRun s g) :=
  checked_ok _ s _ (beq_iff_eq.mpr h)

theorem exec_avsSettle (r : Settle) (s : State) : exec (.avsSettle r) s = done s (settleRun1 s r) := rfl
theorem exec_serRefclkLoss (s : State) : exec .serRefclkLoss s = done s (refclkLossRun s) := rfl

/-! ### The highest sensor -/

/-- One reading more, with its sensor. -/
def hotter (a : Int × Nat) (x : Nat × BitVec 8) : Int × Nat := if a.1 < signed 8 x.2.toNat then (signed 8 x.2.toNat, x.1) else a

theorem hottest_eq (l : List (BitVec 8)) :
    hottest l = (List.zip (List.range l.length) l).foldl hotter (signed 8 (nth (0 : BitVec 8) l 0).toNat, 0) := rfl

theorem le_hotter (a : Int × Nat) (x : Nat × BitVec 8) : a.1 ≤ (hotter a x).1 ∧ signed 8 x.2.toNat ≤ (hotter a x).1 := by
  unfold hotter
  split
  next h => exact ⟨h.le, le_rfl⟩
  next h => exact ⟨le_rfl, not_lt.mp h⟩

theorem le_foldl_hotter (l : List (Nat × BitVec 8)) (a : Int × Nat) :
    a.1 ≤ (l.foldl hotter a).1 ∧ ∀ x, x ∈ l → signed 8 x.2.toNat ≤ (l.foldl hotter a).1 := by
  induction l generalizing a with
  | nil => exact ⟨le_rfl, fun x hx => absurd hx List.not_mem_nil⟩
  | cons y l ih =>
    obtain ⟨hstart, hrest⟩ := ih (hotter a y)
    obtain ⟨ha, hy⟩ := le_hotter a y
    refine ⟨ha.trans hstart, fun x hx => ?_⟩
    obtain rfl | hx := List.mem_cons.mp hx
    · exact hy.trans hstart
    · exact hrest x hx

theorem foldl_hotter_mem (l : List (Nat × BitVec 8)) (a : Int × Nat) :
    (l.foldl hotter a).1 = a.1 ∨ ∃ x, x ∈ l ∧ signed 8 x.2.toNat = (l.foldl hotter a).1 := by
  induction l generalizing a with
  | nil => exact .inl rfl
  | cons y l ih =>
    rw [List.foldl_cons]
    obtain h | ⟨x, hx, h⟩ := ih (hotter a y)
    · rw [h, hotter]
      split
      · exact .inr ⟨y, List.mem_cons_self, rfl⟩
      · exact .inl rfl
    · exact .inr ⟨x, List.mem_cons_of_mem y hx, h⟩

theorem le_hottest {l : List (BitVec 8)} {x : BitVec 8} (h : x ∈ l) : signed 8 x.toNat ≤ (hottest l).1 := by
  obtain ⟨i, hi, rfl⟩ := List.getElem_of_mem h
  have hmem : (i, l[i]) ∈ List.zip (List.range l.length) l := by
    refine List.mem_iff_getElem.mpr ⟨i, by simpa using hi, ?_⟩
    simp
  exact (le_foldl_hotter _ _).2 _ hmem

theorem hottest_mem {l : List (BitVec 8)} (h : 0 < l.length) : ∃ x, x ∈ l ∧ signed 8 x.toNat = (hottest l).1 := by
  obtain hfirst | ⟨x, hx, hlast⟩ := foldl_hotter_mem (List.zip (List.range l.length) l) (signed 8 (nth (0 : BitVec 8) l 0).toNat, 0)
  · refine ⟨nth (0 : BitVec 8) l 0, ?_, hfirst.symm⟩
    rw [nth, List.getElem?_eq_getElem h]
    exact List.getElem_mem h
  · exact ⟨x.2, (List.of_mem_zip hx).2, hlast⟩

/-! ### What a pass leaves of the measurements -/

/-- What a pass takes over from the sensors and regulators, and how far the staggered start has come. -/
def Pwr.measures (p : Pwr) : List (BitVec 8) × Nat × Nat × Nat × Nat × Int × Nat :=
  (p.sensors, p.paceCore, p.paceMatch, p.vcoreMeas, p.power, p.tj, p.startStep)

/-- What Sage does in a pass: registers, its records and the book change, and not the measurements. -/
structure PassFrom (s t : State) : Prop where
  frame : t = { s with pwr := t.pwr, regs := t.regs, sage := t.sage }
  measures : t.pwr.measures = s.pwr.measures

/-- And WARN stays as it is. -/
structure GovernFrom (s t : State) : Prop extends PassFrom s t where
  warn : t.pwr.warn = s.pwr.warn

theorem PassFrom.trans {s t u : State} (hst : PassFrom s t) (htu : PassFrom t u) : PassFrom s u where
  frame := by rw [htu.frame, hst.frame]
  measures := htu.measures.trans hst.measures

theorem GovernFrom.trans {s t u : State} (hst : GovernFrom s t) (htu : GovernFrom t u) : GovernFrom s u :=
  ⟨hst.toPassFrom.trans htu.toPassFrom, htu.warn.trans hst.warn⟩

theorem GovernFrom.refl (s : State) : GovernFrom s s := ⟨⟨rfl, rfl⟩, rfl⟩

theorem GovernFrom.of_ite {s a b : State} {c : Prop} [Decidable c] (ha : GovernFrom s a) (hb : GovernFrom s b) : GovernFrom s (if c then a else b) := by
  split
  · exact ha
  · exact hb

theorem PassFrom.of_ite {s a b : State} {c : Prop} [Decidable c] (ha : PassFrom s a) (hb : PassFrom s b) : PassFrom s (if c then a else b) := by
  split
  · exact ha
  · exact hb

section
variable (s : State)

theorem governFrom_regOr (o m : Nat) : GovernFrom s (regOr s o m) := by
  rw [regOr_frame]
  exact ⟨⟨rfl, rfl⟩, rfl⟩

theorem governFrom_logEvent (code source sev : Nat) (d : List Byte) : GovernFrom s (logEvent s code source sev d) := ⟨⟨rfl, rfl⟩, rfl⟩

theorem governFrom_pwr {p : Pwr} (h : p.measures = s.pwr.measures) (hw : p.warn = s.pwr.warn) : GovernFrom s { s with pwr := p } := ⟨⟨rfl, h⟩, hw⟩

/-- WARN as a pass enters and leaves it. -/
def warnStep (w t : Int) (data : List Byte) : State :=
  if w ≤ t ∧ !s.pwr.warn then logEvent (regOr { s with pwr := { s.pwr with warn := true } } (pwrReg 0x48) 1) 0x20 1 1 data
  else if t < w - 5 then { s with pwr := { s.pwr with warn := false } } else s

/-- CRIT as a pass enters and leaves it. -/
def critStep (c t : Int) (data : List Byte) : State :=
  if c ≤ t ∧ !s.pwr.crit then logEvent (regOr { s with pwr := { s.pwr with crit := true } } (pwrReg 0x48) 2) 0x21 1 2 data
  else if t < c - 5 then { s with pwr := { s.pwr with crit := false } } else s

theorem thermal_eq (hot : Nat) : thermal s hot =
    critStep (warnStep s (regField s (pwrReg 0x44) 7 0) s.pwr.tj (toLe 2 (unsigned 16 s.pwr.tj) ++ toLe 1 hot))
      (regField s (pwrReg 0x44) 15 8) s.pwr.tj (toLe 2 (unsigned 16 s.pwr.tj) ++ toLe 1 hot) := rfl

theorem passFrom_warnStep (w t : Int) (data : List Byte) : PassFrom s (warnStep s w t data) := by
  have hset (b : Bool) : PassFrom s { s with pwr := { s.pwr with warn := b } } := ⟨rfl, rfl⟩
  exact .of_ite ((hset true).trans ((governFrom_regOr _ _ _).trans (governFrom_logEvent _ _ _ _ _)).toPassFrom)
    (.of_ite (hset false) (GovernFrom.refl s).toPassFrom)

theorem governFrom_critStep (c t : Int) (data : List Byte) : GovernFrom s (critStep s c t data) := by
  have hset (b : Bool) : GovernFrom s { s with pwr := { s.pwr with crit := b } } := ⟨⟨rfl, rfl⟩, rfl⟩
  exact .of_ite ((hset true).trans ((governFrom_regOr _ _ _).trans (governFrom_logEvent _ _ _ _ _))) (.of_ite (hset false) (.refl s))

theorem warn_warnStep {w t : Int} (h : w ≤ t) (data : List Byte) : (warnStep s w t data).pwr.warn = true := by
  unfold warnStep
  split
  · exact (governFrom_regOr _ _ _).warn
  next hno =>
    rw [if_neg (by omega)]
    simpa [h] using hno

theorem governFrom_noteTj : GovernFrom s (noteTj s) := .of_ite ⟨⟨rfl, rfl⟩, rfl⟩ ⟨⟨rfl, rfl⟩, rfl⟩

theorem governFrom_checkRails (g : Governor) : GovernFrom s (checkRails s g) := by
  unfold checkRails
  extract_lets low rail lowC lowM highC highM volt new newReg p s1 s2 s3 s4
  have h1 : GovernFrom s s1 := governFrom_pwr s rfl rfl
  have h2 : GovernFrom s s2 := .of_ite (h1.trans (governFrom_regOr _ _ _)) h1
  have h3 : GovernFrom s s3 := .of_ite (h2.trans (governFrom_regOr _ _ _)) h2
  have h4 : GovernFrom s s4 := by
    refine .of_ite h3 (.of_ite (h3.trans (governFrom_logEvent _ _ _ _ _)) (.of_ite (h3.trans (governFrom_logEvent _ _ _ _ _)) ?_))
    cases g.overRail with
    | none => exact h3
    | some r => exact h3.trans (governFrom_logEvent _ _ _ _ _)
  split
  · exact h4.trans (governFrom_logEvent _ _ _ _ _)
  · exact h4

theorem governFrom_setLeak (n : Nat) : GovernFrom s (setLeak s n) :=
  .of_ite ⟨⟨rfl, rfl⟩, rfl⟩ (.of_ite (governFrom_pwr s rfl rfl) ⟨⟨rfl, rfl⟩, rfl⟩)

theorem governFrom_moveBudget : GovernFrom s (moveBudget s) := by
  unfold moveBudget
  extract_lets m was now p s1 s2 g p2 r s3
  have h1 : GovernFrom s s1 := governFrom_pwr s rfl rfl
  have h2 : GovernFrom s s2 := .of_ite (h1.trans (governFrom_regOr _ _ _)) h1
  have h3 : GovernFrom s s3 := .of_ite (h2.trans ⟨⟨rfl, rfl⟩, rfl⟩) (h2.trans (governFrom_pwr s2 rfl rfl))
  exact .of_ite h3 (h3.trans (governFrom_logEvent _ _ _ _ _))

theorem governFrom_govern (much : Bool) : GovernFrom s (govern s much) := by
  have hself (mv : Nat) : GovernFrom s (setCore s mv) := ⟨⟨rfl, rfl⟩, rfl⟩
  have htopUp (pool up : Nat) (own : List Nat) (mv : Nat) :
      GovernFrom s (setCore { s with pwr := { s.pwr with pool := pool, topup := up, topupOwners := own } } mv) := ⟨⟨rfl, rfl⟩, rfl⟩
  unfold govern
  exact .of_ite (.refl s) (.of_ite (.of_ite (hself _) (.refl s)) (.of_ite (.of_ite (hself _) (.refl s))
    (.of_ite (.of_ite (hself _) (htopUp _ _ _ _)) (.refl s))))

/-- The state with the measurements of a pass. -/
def measured (g : Governor) : State :=
  { s with glb := { s.glb with refclk := true },
           pwr := { s.pwr with paceCore := g.paceCore.toNat, paceMatch := g.paceMatch.toNat, tj := (hottest g.sensors).1, sensors := g.sensors,
                               vcoreMeas := g.vcore.toNat, vmatchMeas := g.vmatch.toNat, power := g.power } }

/-- What Sage makes of the measurements, once WARN and CRIT follow them. -/
theorem governFrom_governorRun {g : Governor} (h : corePowered s = true) :
    GovernFrom (thermal (measured s g) (hottest g.sensors).2) (governorRun s g) := by
  rw [governorRun, if_neg (by simp [h])]
  extract_lets h0 g0 p0 s1 s2 p2 s3 s4 much t
  have h2 : GovernFrom (thermal (measured s g) (hottest g.sensors).2) s2 := (governFrom_noteTj _).trans (governFrom_checkRails _ g)
  have h3 := h2.trans (show GovernFrom s2 s3 from governFrom_pwr s2 rfl rfl)
  have h4 := h3.trans (show GovernFrom s3 s4 from (governFrom_setLeak s3 _).trans (governFrom_moveBudget _))
  have h5 := h4.trans (show GovernFrom s4 t from governFrom_govern s4 much)
  exact h5.trans (governFrom_pwr t rfl rfl)

end

/-! ### Voltage steps (R384) -/

section
variable {s : State} {r : Settle}

theorem settleRun1_rests (h : s.pwr.avs = none ∨ r.ok = false) : settleRun1 s r = s := by
  rw [settleRun1]
  cases havs : s.pwr.avs with
  | none => rfl
  | some x => exact if_pos (.inr (.inl (by simpa [havs] using h)))

theorem settleRun1_confirms {mv : Nat} (havs : s.pwr.avs = some (r.isMatch, mv)) (hok : r.ok = true) (h1 : r.mv.toNat ≤ mv + 10)
    (h2 : mv ≤ r.mv.toNat + 10) : settleRun1 s r = { s with pwr :=
      (if s.pwr.vmatchSet = max 600 s.pwr.vcoreSet then { s.pwr with avs := none }
       else { s.pwr with vmatchSet := max 600 s.pwr.vcoreSet, avs := some (true, max 600 s.pwr.vcoreSet) }) } := by
  rw [settleRun1, havs]
  dsimp only
  rw [if_neg (by simp [hok]; omega)]
  by_cases hmatch : s.pwr.vmatchSet = max 600 s.pwr.vcoreSet
  · rw [if_neg (not_not.mpr hmatch), if_pos hmatch]
  · rw [if_pos hmatch, if_neg hmatch]

end

/-- Settles O30. -/
theorem governorRows : Obligations.GovernorRows := by
  unfold Obligations.GovernorRows
  refine fun s hs => ⟨fun g hcore hlen => ?pass, fun mv r havs hok h1 h2 => ?confirms,
    fun r hr => exec_of_done_self (exec_avsSettle r s) (settleRun1_rests hr), ?refclk⟩
  case pass =>
    have hgovern := governFrom_governorRun s (g := g) hcore
    have hthermal : PassFrom (measured s g) (thermal (measured s g) (hottest g.sensors).2) :=
      (passFrom_warnStep _ _ _ _).trans (governFrom_critStep _ _ _ _).toPassFrom
    have hpass := hthermal.trans hgovern.toPassFrom
    have hmeasures := hpass.measures
    simp only [Pwr.measures, Prod.mk.injEq] at hmeasures
    obtain ⟨hsensors, hcorePace, hmatchPace, hvcore, hpower, htj, -⟩ := hmeasures
    have hwarn (h : (regField s (pwrReg 0x44) 7 0 : Int) ≤ (hottest g.sensors).1) : (governorRun s g).pwr.warn = true :=
      hgovern.warn.trans ((governFrom_critStep _ _ _ _).warn.trans (warn_warnStep (measured s g) h _))
    have hframe := hpass.frame
    have hexec := exec_governorPass hlen s
    generalize governorRun s g = t at hframe hsensors hcorePace hmatchPace hvcore hpower htj hwarn hexec
    refine answers_of_done hexec (by rw [hframe]; exact hs) fun h => ⟨hsensors, hcorePace, hmatchPace, hvcore, hpower, ?_, fun x hx => ?_, ?_, fun hw => ?_, ?_⟩
    · rw [hframe]
      rfl
    · exact (le_hottest hx).trans_eq htj.symm
    · obtain ⟨x, hx, h⟩ := hottest_mem (l := g.sensors) (by omega)
      exact ⟨x, hx, h.trans htj.symm⟩
    · exact hwarn (hw.trans_eq htj)
    · rw [hframe]
      rfl
  case confirms =>
    rw [exec_avsSettle, settleRun1_confirms havs hok h1 h2]
    exact done_next hs
  case refclk =>
    refine answers_of_done (exec_serRefclkLoss s) (by rw [refclkLossRun, regOr_frame]; exact hs) fun h => ⟨?_, ?_, ?_, ?_⟩
    · rw [refclkLossRun, regOr_frame]
    · rw [refclkLossRun, regOr_frame]
    · exact regBit_regOr_same _ _ (i := 4) (by decide)
    · rw [refclkLossRun, regOr_frame]

/-! ## The device enters RUNNING (Tables 4-7, 13-9) -/

/-- `t` is `s` but for its registers, its device state, its ports and its hedges. -/
def RunFrom (s t : State) : Prop := ∃ regs glb utr hedges, t = { s with regs := regs, glb := glb, utr := utr, hedges := hedges }

theorem RunFrom.trans {s t u : State} (hst : RunFrom s t) (htu : RunFrom t u) : RunFrom s u := by
  obtain ⟨_, _, _, _, rfl⟩ := hst
  obtain ⟨_, _, _, _, rfl⟩ := htu
  exact ⟨_, _, _, _, rfl⟩

theorem RunFrom.keeps {s t : State} (h : RunFrom s t) :
    t.hostWait = s.hostWait ∧ t.queues = s.queues ∧ t.mem = s.mem ∧ t.fences = s.fences ∧ t.arrays = s.arrays := by
  obtain ⟨_, _, _, _, rfl⟩ := h
  exact ⟨rfl, rfl, rfl, rfl, rfl⟩

section
variable (s : State)

theorem runFrom_setDev (d : Dev) : RunFrom s (setDev s d) := by
  unfold setDev
  split
  · exact ⟨_, _, _, _, rfl⟩
  · exact ⟨_, _, _, _, regOr_frame _ _ _⟩

theorem runFrom_leaveRing : RunFrom s (leaveRing s) := by
  rw [leaveRing_eq]
  split
  · exact ⟨_, _, _, _, rfl⟩
  · exact ⟨_, _, _, _, frame_foldl_leavePort _ _⟩

theorem frame_foldl_modPort (ps : List Nat) (f : UPort → UPort) :
    ps.foldl (fun s p => modPort s p f) s = { s with utr := (ps.foldl (fun s p => modPort s p f) s).utr } :=
  List.foldlRecOn (motive := fun t : State => t = { s with utr := t.utr }) ps _ rfl fun t ht p _ => by rw [modPort, ht]

theorem runFrom_joinRing : RunFrom s (joinRing s) := by
  unfold joinRing
  split
  · exact ⟨_, _, _, _, rfl⟩
  · exact ⟨_, _, _, _, frame_foldl_modPort _ _ _⟩

theorem runFrom_followBypass : RunFrom s (followBypass s) := by
  unfold followBypass
  split
  · exact runFrom_joinRing s
  · exact runFrom_leaveRing s

/-- The bypass alone is what changes of the device state when it follows its conditions (R329). -/
theorem glb_followBypass : (followBypass s).glb = { s.glb with bypassOpen := (followBypass s).glb.bypassOpen } := by
  unfold followBypass
  split
  · unfold joinRing
    split
    · rfl
    · rw [frame_foldl_modPort]
  · rw [glb_leaveRing]

theorem frame_hedgeEnRun (h : Nat) (on : Bool) : hedgeEnRun s h on = { s with hedges := (hedgeEnRun s h on).hedges } := by
  unfold hedgeEnRun
  split
  · rfl
  · split <;> rfl

/-- The hedges that serve are enabled. -/
def hedgesOn : State := (List.range 16).foldl (fun s h => if role s h = 0 then s else hedgeEnRun s h true) s

theorem frame_hedgesOn : hedgesOn s = { s with hedges := (hedgesOn s).hedges } := by
  refine List.foldlRecOn (motive := fun t : State => t = { s with hedges := t.hedges }) _ _ rfl fun t ht h _ => ?_
  split
  · exact ht
  · rw [frame_hedgeEnRun, ht]

theorem enterRunning_eq : enterRunning s =
    followBypass (hedgesOn (setDev { s with glb := { s.glb with reason := 0, startPending := false, targetReset := false } } .running)) := rfl

theorem runFrom_enterRunning : RunFrom s (enterRunning s) := by
  have hglb (g : Glb) : RunFrom s { s with glb := g } := ⟨_, _, _, _, rfl⟩
  have hhedges (t : State) : RunFrom t (hedgesOn t) := ⟨_, _, _, _, frame_hedgesOn t⟩
  exact (hglb _).trans ((runFrom_setDev _ _).trans ((hhedges _).trans (runFrom_followBypass _)))

theorem glb_enterRunning : (enterRunning s).glb.dev = .running ∧ (enterRunning s).glb.reason = 0 := by
  rw [enterRunning_eq, glb_followBypass, frame_hedgesOn, glb_setDev]
  exact ⟨rfl, rfl⟩

end

/-! ## Power and reset at the pins (Tables 15-2, 16-6) -/

theorem exec_powerUp (s : State) : exec .powerUp s = done s (powerUpRun s) := rfl
theorem exec_resetNAssert (s : State) : exec .resetNAssert s = done s (resetAssertRun s) := rfl
theorem exec_resetNRelease (s : State) : exec .resetNRelease s = done s (resetReleaseRun s) := rfl
theorem exec_staggerConfirm (s : State) : exec .staggerConfirm s = done s (staggerRun s) := rfl
theorem exec_regulatorFault (rail : BitVec 8) (st : BitVec 16) (s : State) : exec (.regulatorFault rail st) s = done s (regulatorFaultRun s rail st) := rfl
theorem exec_railLoss (s : State) : exec .railLoss s = done s (railLossRun s) := rfl
theorem exec_drainComplete (s : State) : exec .drainComplete s = done s (drainDone s) := rfl
theorem exec_thermalTrip (s : State) : exec .thermalTrip s = done s (thermalTripRun s) := rfl
theorem exec_sageException (a b : Word) (s : State) : exec (.sageException a b) s = done s (sageExceptionRun s a b) := rfl

/-! ### RESET_N (R440) -/

/-- What the straps and the reset pin say. -/
def Glb.straps (g : Glb) : Bool × Bool × Nat × Nat := (g.resetN, g.autostart, g.topo, g.rank)

theorem straps_bootImage (s : State) (r : Reader) (size : Nat) (slot : Option Nat) : (bootImage s r size slot).glb.straps = s.glb.straps := by
  obtain ⟨reason, h⟩ | h := bootImage_cases s r size slot
  · rw [h, glb_enterHold, glb_declareImage]
    rfl
  · rw [h, glb_runImage, glb_declareImage]
    rfl

theorem straps_bootFlash (s : State) : (bootFlash s).glb.straps = s.glb.straps := by
  have hbegun : (bootBegun s).glb.straps = s.glb.straps := (congrArg Glb.straps (glb_startSage { s with glb := { s.glb with dev := .boot, bootStep := 1 } })).trans rfl
  obtain h | ⟨b, h⟩ := bootFlash_cases s
  · rw [h, glb_enterHold]
    exact hbegun
  · rw [h, straps_bootImage]
    exact hbegun

/-- The state in which the straps are sampled. -/
def strapped (s : State) : State :=
  { s with glb := { s.glb with resetN := true, autostart := s.glb.strapAuto, topo := s.glb.strapTopo, rank := s.glb.strapRank } }

theorem resetReleaseRun_boots {s : State} (hdev : s.glb.dev = .reset) (hrails : s.glb.railsOk = true) (htrip : s.glb.thermtrip = false) :
    resetReleaseRun s = bootFlash (strapped s) :=
  (if_pos (.inl hdev)).trans (if_pos ⟨rfl, hrails, by simp [htrip]⟩)

/-- A device that is reset does not run. -/
theorem dev_doReset (s : State) : (doReset s).glb.dev ≠ .running := by
  rw [doReset, leaveReset]
  split
  · obtain h | h := dev_bootFlash { resetAll s with glb := { (resetAll s).glb with
      autostart := (resetAll s).glb.strapAuto, topo := (resetAll s).glb.strapTopo, rank := (resetAll s).glb.strapRank } }
    · simp [h]
    · simp [h]
  · simp

theorem cleared_doReset (s : State) : Cleared s (doReset s) := by
  rw [doReset, leaveReset]
  split
  · exact (cleared_resetAll s).sage ((sageFrom_glb _ _).trans (sageFrom_bootFlash _))
  · exact (cleared_resetAll s).sage (sageFrom_glb _ _)

/-! ### The staggered start (R393, R394) -/

/-- What BOOT's last steps leave as it is. -/
structure BootKeeps (s t : State) : Prop where
  hostWait : t.hostWait = s.hostWait
  queues : t.queues = s.queues
  pleach : t.pleach = s.pleach
  step : t.pwr.startStep = s.pwr.startStep
  glb : t.glb = s.glb

theorem BootKeeps.trans {s t u : State} (hst : BootKeeps s t) (htu : BootKeeps t u) : BootKeeps s u :=
  ⟨htu.hostWait.trans hst.hostWait, htu.queues.trans hst.queues, htu.pleach.trans hst.pleach, htu.step.trans hst.step, htu.glb.trans hst.glb⟩

theorem BootKeeps.refl (s : State) : BootKeeps s s := ⟨rfl, rfl, rfl, rfl, rfl⟩

theorem bootKeeps_regSet (s : State) (o : Nat) (w : Word) : BootKeeps s (regSet s o w) := ⟨rfl, rfl, rfl, rfl, rfl⟩

theorem bootKeeps_hedges (s : State) (f : State → Nat → Hedge → Hedge) (hs : List Nat) : BootKeeps s (hs.foldl (fun s h => modHedge s h (f s h)) s) :=
  List.foldlRecOn (motive := fun t : State => BootKeeps s t) hs _ (.refl s) fun _ ht _ _ => ht.trans ⟨rfl, rfl, rfl, rfl, rfl⟩

theorem bootKeeps_restoreWithdrawn (s : State) : BootKeeps s (restoreWithdrawn s) := by
  refine List.foldlRecOn (motive := fun t : State => BootKeeps s t) _ _ (.refl s) fun t ht n _ => ?_
  split
  · exact ht.trans ⟨rfl, rfl, rfl, rfl, rfl⟩
  · exact ht

theorem GovernFrom.bootKeeps {s t : State} (h : GovernFrom s t) : BootKeeps s t := by
  have hstep : t.pwr.startStep = s.pwr.startStep := congrArg (fun m => m.2.2.2.2.2.2) h.measures
  obtain ⟨p, regs, sage, hframe⟩ : ∃ p regs sage, t = { s with pwr := p, regs := regs, sage := sage } := ⟨_, _, _, h.frame⟩
  subst hframe
  exact ⟨rfl, rfl, rfl, hstep, rfl⟩

theorem bootKeeps_loadBook (s : State) (budget edge : Nat) : BootKeeps s (loadBook s budget edge) := by
  have hset (edge leak eff : Nat) : BootKeeps s { regSetField s (pwrReg 0) 9 0 budget with
      pwr := { s.pwr with edge := edge, leak := leak, effective := eff, pool := eff - (edge + leak) } } := ⟨rfl, rfl, rfl, rfl, rfl⟩
  exact (hset edge _ _).trans (governFrom_moveBudget _).bootKeeps

/-- The structure of the image in force, before the device is STRUCTURED. -/
def structured (s : State) : State :=
  let b := s.sage.body
  let s := writeFirmware s s.sage.fw
  let w := BitVec.ofNat 32
  let s := { s with pleach := b, glb := { s.glb with bootStep := 11 } }
  let s := regSet s (memReg 0) (w (0xFFFF + s.glb.density * 2 ^ 16 + b2n s.glb.linkEcc * 2 ^ 18))
  let s := regSet (regSet s (memReg 4) (w (usableOf s.glb.density))) (memReg 8) (w (usableOf s.glb.density / 2 ^ 32))
  let s := (List.range 16).foldl (fun s h => modHedge s h fun e => { e with off := role s h == 0 }) s
  loadBook (restoreWithdrawn s) (bAt b 0xC 2) (bAt b 0x12 2)

theorem bootKeeps_structured (s : State) :
    BootKeeps { writeFirmware s s.sage.fw with pleach := s.sage.body, glb := { s.glb with bootStep := 11 } } (structured s) := by
  unfold structured
  extract_lets b s1 w g e s2 s3 s4 s5
  have h3 : BootKeeps s2 s3 := bootKeeps_regSet _ _ _
  have h4 : BootKeeps s3 s4 := (bootKeeps_regSet _ _ _).trans (bootKeeps_regSet _ _ _)
  have h5 : BootKeeps s4 s5 := bootKeeps_hedges s4 (fun s h e => { e with off := role s h == 0 }) _
  exact h3.trans (h4.trans (h5.trans ((bootKeeps_restoreWithdrawn s5).trans (bootKeeps_loadBook _ _ _))))

section
variable {s : State}

theorem finishBoot_structured (hbody : bodyOk s s.sage.body = true) (hfits : memoryFits s s.sage.body = true) (hauto : s.glb.autostart = false) :
    finishBoot s = setDev (structured s) .structured := by
  have hglb := (bootKeeps_structured s).glb
  have hoff : ¬ (setDev (structured s) .structured).glb.autostart = true := by
    rw [glb_setDev, hglb]
    simpa using hauto
  refine (if_neg ?_).trans (if_neg hoff)
  change ¬ ((!bodyOk s s.sage.body) = true ∨ (!memoryFits s s.sage.body) = true)
  simp [hbody, hfits]

theorem finishBoot_refused (hbody : bodyOk s s.sage.body = false) : finishBoot s = enterHold (writeFirmware s s.sage.fw) 6 := by
  refine if_pos (.inl ?_)
  change (!bodyOk s s.sage.body) = true
  simp [hbody]

variable (hdev : s.glb.dev = .boot) (hboot : s.glb.bootStep = 7) (hgo : s.pwr.stopped = false)
include hdev hboot hgo

theorem staggerRun_steps (h : s.pwr.startStep < 13) : staggerRun s = { s with pwr := { s.pwr with startStep := s.pwr.startStep + 1 } } :=
  (if_neg (by simp [hdev, hboot, hgo]; omega)).trans (if_neg (show ¬ s.pwr.startStep + 1 = 14 by omega))

theorem staggerRun_last (h : s.pwr.startStep = 13) : staggerRun s = finishBoot { s with pwr := { s.pwr with startStep := 14 } } := by
  refine (if_neg (by simp [hdev, hboot, hgo]; omega)).trans ((if_pos (show s.pwr.startStep + 1 = 14 by omega)).trans ?_)
  rw [h]

theorem regulatorFaultRun_stops (rail : BitVec 8) (st : BitVec 16) : regulatorFaultRun s rail st =
    logEvent (regOr { s with pwr := { s.pwr with stopped := true } } (pwrReg 0x48) 8) 0x31 1 2 (toLe 2 rail.toNat ++ toLe 2 st.toNat) :=
  if_neg (by simp [hdev, hboot, hgo])

end

/-- `t` is `s` with the staggered start stopped, but for its registers and its records. -/
def StoppedFrom (s t : State) : Prop := ∃ regs sage, t = { s with pwr := { s.pwr with stopped := true }, regs := regs, sage := sage }

theorem stoppedFrom_set (s : State) : StoppedFrom s { s with pwr := { s.pwr with stopped := true } } := ⟨_, _, rfl⟩

theorem StoppedFrom.logged {s t : State} (h : StoppedFrom s t) (o m code source sev : Nat) (d : List Byte) :
    StoppedFrom s (logEvent (regOr t o m) code source sev d) := by
  obtain ⟨_, _, rfl⟩ := h
  rw [regOr_frame]
  exact ⟨_, _, rfl⟩

theorem regBit_logged (s : State) (code source sev : Nat) (d : List Byte) :
    regBit (logEvent (regOr s (pwrReg 0x48) 8) code source sev d) (pwrReg 0x48) 3 = true :=
  (regBit_of_regGet (regGet_of_regs rfl (pwrReg 0x48)) 3).trans (regBit_regOr_same s (pwrReg 0x48) (i := 3) (by decide))

/-! ### FAULT (R360) -/

/-- The device as it enters FAULT, before the record. -/
def faulted (s : State) (cause : Nat) (data : List Byte) : State :=
  logEvent (leaveRing (setDev { s with glb := { s.glb with reason := 0, targetReset := false, startPending := false } } .fault)) 3 1 3
    (toLe 2 cause ++ data)

theorem glb_faulted (s : State) (cause : Nat) (data : List Byte) : (faulted s cause data).glb =
    { s.glb with dev := .fault, reason := 0, targetReset := false, startPending := false, bypassOpen := false } :=
  (glb_leaveRing _).trans (by rw [glb_setDev])

theorem sageFrom_faulted (s : State) (cause : Nat) (data : List Byte) : SageFrom s (faulted s cause data) :=
  (sageFrom_glb s _).trans ((sageFrom_setDev _ _).trans ((sageFrom_leaveRing _).trans (sageFrom_logEvent _ _ _ _ _)))

/-- The state record with the cause of a FAULT. -/
def recordFault (s : State) (cause : Nat) : State := writeRecord { s with sage := { s.sage with cur := { s.sage.cur with lastFault := cause } } }

theorem sageFrom_recordFault (s : State) (cause : Nat) : SageFrom s (recordFault s cause) := ⟨⟨_, _, _, _, _, _, rfl⟩, rfl⟩

theorem enterFault_faults {s : State} (hoff : s.glb.dev ≠ .off) (hreset : s.glb.dev ≠ .reset) (hfault : s.glb.dev ≠ .fault) (cause : Nat)
    (data : List Byte) : enterFault s cause data = recordFault (faulted s cause data) cause := if_neg (by simp [hoff, hreset, hfault])

/-- The state in which a thermal trip is counted and logged. -/
def tripped (s : State) : State :=
  logEvent { s with glb := { s.glb with thermtrip := true }, sage := { s.sage with trips := min 0xFFFF (s.sage.trips + 1) } } 0x22 1 3
    (toLe 2 (unsigned 16 s.pwr.tj))

theorem thermalTripRun_trips {s : State} (hoff : s.glb.dev ≠ .off) (hreset : s.glb.dev ≠ .reset) (hfault : s.glb.dev ≠ .fault)
    (htrip : s.glb.thermtrip = false) : thermalTripRun s = recordFault (faulted (tripped s) 3 []) 3 :=
  (if_neg (by simp [hoff, htrip])).trans ((if_neg hreset).trans ((if_neg hfault).trans (enterFault_faults (s := tripped s) hoff hreset hfault 3 [])))

theorem sageFrom_tripped (s : State) : SageFrom s (tripped s) := ⟨⟨_, _, _, _, _, _, rfl⟩, rfl⟩

/-! ### The end of a drain (R358) -/

theorem drainDone_waits {s : State} (h : drained1 s = false) : drainDone s = s := if_pos (.inr (by simp [h]))

section
variable {s : State} (hdev : s.glb.dev = .draining)
include hdev

variable (h : drained1 s = true)
include h

theorem drainDone_resets (htarget : s.glb.targetReset = true) : drainDone s = doReset s :=
  (if_neg (by simp [hdev, h])).trans (if_pos htarget)

theorem drainDone_holds (htarget : s.glb.targetReset = false) (hstart : s.glb.startPending = false) : drainDone s = enterHold s s.glb.reason :=
  (if_neg (by simp [hdev, h])).trans ((if_neg (ne_true_of_eq_false htarget)).trans (if_neg (ne_true_of_eq_false hstart)))

theorem drainDone_starts (htarget : s.glb.targetReset = false) (hstart : s.glb.startPending = true) :
    drainDone s = enterRunning (enterHold s s.glb.reason) :=
  (if_neg (by simp [hdev, h])).trans ((if_neg (ne_true_of_eq_false htarget)).trans (if_pos hstart))

end

theorem SageFrom.arrays {s t : State} (h : SageFrom s t) : t.arrays = s.arrays := by
  obtain ⟨_, _, _, _, _, _, rfl⟩ := h.frame
  rfl

/-- An answer in OFF or RESET, where no vector is raised. -/
theorem exec_of_done_reset {i : Instr} {s u : State} (hexec : exec i s = done s u) (hw : u.hostWait = false) (hdev : u.glb.dev = .off ∨ u.glb.dev = .reset) :
    exec i s = .next u := by
  rw [hexec, done_next hw, finish, if_pos hdev]

/-- Settles O31. -/
theorem powerAndResetRows : Obligations.PowerAndResetRows := by
  unfold Obligations.PowerAndResetRows
  refine ⟨fun s hs => ⟨fun hdev => ?powerUp, fun hdev => ?resetN, fun hdev hrails htrip => ?release, fun hdev hboot hgo =>
      ⟨fun hstep => ?step, fun hstep hbody hfits hauto => ?lastStep, fun hstep hbody => ?refused, fun rail st => ?regulator⟩,
    fun hdev hstop => exec_of_done_self (exec_staggerConfirm s) (if_pos (.inr (.inr (.inl hstop)))), ?railLoss,
    fun hdev hdrained => ⟨fun htarget hstart => ?drainHolds, fun htarget hstart => ?drainStarts, fun htarget => ?drainResets⟩,
    fun hdev hbusy => exec_of_done_self (exec_drainComplete s) (drainDone_waits hbusy)⟩,
    fun s hs hoff hreset hfault => ⟨fun htrip => ?trip, fun a b => ?exception⟩⟩
  case powerUp =>
    have hrun : powerUpRun s = { s with glb := { s.glb with dev := .reset, railsOk := true, thermtrip := false } } := if_neg (not_not.mpr hdev)
    exact exec_of_done_reset ((exec_powerUp s).trans (congrArg (done s) hrun)) hs (.inr rfl)
  case resetN =>
    have hrun : resetAssertRun s = { resetAll { s with glb := { s.glb with resetN := false } } with
        glb := { (resetAll { s with glb := { s.glb with resetN := false } }).glb with dev := .reset } } := if_pos (by simp [powered, hdev])
    exact answers_of_done ((exec_resetNAssert s).trans (congrArg (done s) hrun)) rfl fun h => ⟨rfl, rfl, rfl, rfl, rfl, rfl, rfl, rfl, rfl, rfl, rfl⟩
  case release =>
    have hfrom := sageFrom_bootFlash (strapped s)
    have hstraps := straps_bootFlash (strapped s)
    simp only [Glb.straps, Prod.mk.injEq] at hstraps
    obtain ⟨hpin, hauto, htopo, hrank⟩ := hstraps
    exact answers_of_done ((exec_resetNRelease s).trans (congrArg (done s) (resetReleaseRun_boots hdev hrails htrip))) (hfrom.hostWait.trans hs) fun h =>
      ⟨dev_bootFlash (strapped s), hpin, hauto, htopo, hrank, hfrom.queues, hfrom.mem⟩
  case step =>
    rw [exec_staggerConfirm, staggerRun_steps hdev hboot hgo hstep]
    exact done_next hs
  case lastStep =>
    have hrun := (staggerRun_last hdev hboot hgo hstep).trans (finishBoot_structured hbody hfits hauto)
    generalize hu : { s with pwr := { s.pwr with startStep := 14 } } = u at hrun
    obtain ⟨hwait, hqueues, hpleach, hsteps, -⟩ := bootKeeps_structured u
    obtain ⟨_, _, _, _, hfrom⟩ := runFrom_setDev (structured u) .structured
    have hglb := glb_setDev (structured u) .structured
    have hexec := (exec_staggerConfirm s).trans (congrArg (done s) hrun)
    generalize setDev (structured u) .structured = t at *
    generalize structured u = v at *
    subst hfrom hu
    exact answers_of_done hexec (hwait.trans hs) fun h => ⟨congrArg Glb.dev hglb, hpleach, hsteps, hqueues⟩
  case refused =>
    have hrun := (staggerRun_last hdev hboot hgo hstep).trans (finishBoot_refused hbody)
    generalize hu : writeFirmware { s with pwr := { s.pwr with startStep := 14 } } s.sage.fw = u at hrun
    have hfrom := sageFrom_enterHold u 6
    have hglb := glb_enterHold u 6
    exact answers_of_done ((exec_staggerConfirm s).trans (congrArg (done s) hrun)) (hfrom.hostWait.trans (by subst hu; exact hs)) fun h =>
      ⟨congrArg Glb.dev hglb, congrArg Glb.reason hglb⟩
  case regulator =>
    have hrun := regulatorFaultRun_stops hdev hboot hgo rail st
    have hfrom : StoppedFrom s (regulatorFaultRun s rail st) := by
      rw [hrun]
      exact (stoppedFrom_set s).logged _ _ _ _ _ _
    have hflag : regBit (regulatorFaultRun s rail st) (pwrReg 0x48) 3 = true := by
      rw [hrun]
      exact regBit_logged _ _ _ _ _
    have hexec := exec_regulatorFault rail st s
    clear hrun
    generalize regulatorFaultRun s rail st = t at *
    obtain ⟨regs, sage, rfl⟩ := hfrom
    exact answers_of_done hexec hs fun h => ⟨rfl, (regBit_of_regGet (regGet_withHif _ h _) 3).trans hflag, hdev, rfl⟩
  case railLoss =>
    exact answers_of_done (exec_railLoss s) rfl fun h => ⟨rfl, rfl, rfl, rfl, rfl, rfl, rfl, rfl, rfl, rfl, rfl⟩
  case drainHolds =>
    have hfrom := sageFrom_enterHold s s.glb.reason
    have hglb := glb_enterHold s s.glb.reason
    exact answers_of_done ((exec_drainComplete s).trans (congrArg (done s) (drainDone_holds hdev hdrained htarget hstart))) (hfrom.hostWait.trans hs)
      fun h => ⟨congrArg Glb.dev hglb, (congrArg Glb.reason hglb).trans rfl, hfrom.queues, hfrom.fences, hfrom.arrays, hfrom.mem⟩
  case drainStarts =>
    have hfrom := sageFrom_enterHold s s.glb.reason
    obtain ⟨hwait, hqueues, hmem, -⟩ := (runFrom_enterRunning (enterHold s s.glb.reason)).keeps
    have hrunning := (glb_enterRunning (enterHold s s.glb.reason)).1
    have hexec := (exec_drainComplete s).trans (congrArg (done s) (drainDone_starts hdev hdrained htarget hstart))
    generalize enterRunning (enterHold s s.glb.reason) = t at *
    exact answers_of_done hexec (hwait.trans (hfrom.hostWait.trans hs)) fun h => ⟨hrunning, hqueues.trans hfrom.queues, hmem.trans hfrom.mem⟩
  case drainResets =>
    have hclear := cleared_doReset s
    exact answers_of_done ((exec_drainComplete s).trans (congrArg (done s) (drainDone_resets hdev hdrained htarget))) hclear.hostWait fun h =>
      ⟨dev_doReset s, hclear.queues, hclear.mem⟩
  case trip =>
    have hrun := thermalTripRun_trips hoff hreset hfault htrip
    have hfrom := (sageFrom_tripped s).trans ((sageFrom_faulted (tripped s) 3 []).trans (sageFrom_recordFault _ 3))
    have hglb := glb_faulted (tripped s) 3 []
    exact answers_of_done ((exec_thermalTrip s).trans (congrArg (done s) hrun)) (hfrom.hostWait.trans hs) fun h =>
      ⟨congrArg Glb.dev hglb, congrArg Glb.thermtrip hglb, congrArg Glb.bypassOpen hglb, rfl, hfrom.queues, hfrom.mem⟩
  case exception =>
    have hrun := enterFault_faults hoff hreset hfault 2 (toLe 4 a.toNat ++ toLe 4 b.toNat)
    have hfrom := (sageFrom_faulted s 2 (toLe 4 a.toNat ++ toLe 4 b.toNat)).trans (sageFrom_recordFault _ 2)
    have hglb := glb_faulted s 2 (toLe 4 a.toNat ++ toLe 4 b.toNat)
    exact answers_of_done ((exec_sageException a b s).trans (congrArg (done s) hrun)) (hfrom.hostWait.trans hs) fun h =>
      ⟨congrArg Glb.dev hglb, congrArg Glb.bypassOpen hglb, rfl, hfrom.queues, hfrom.mem⟩

end Sys2Proof.Machine
end

section
/-! The proofs of the families `17_host.md` and `18_registers.md`: the device's commands by state (O13), the interrupt rows (O14), the PCIe function
(O21), BAR4 (O20) and Ethernet (O28). -/

namespace Sys2Proof.Machine

/-! ## What the host interface alone changes (R436) -/

theorem irqActive_and_not (s : State) : irqActive s &&& (0x7FF - irqActive s) = 0 := by
  refine Nat.eq_of_testBit_eq fun i => ?_
  rw [show 0x7FF - irqActive s = 2 ^ 11 - (irqActive s + 1) by omega, Nat.testBit_and,
    Nat.testBit_two_pow_sub_succ (Nat.lt_succ_of_le (irqActive_le s)), Nat.zero_testBit]
  cases (irqActive s).testBit i with
  | true => rw [Bool.not_true, Bool.and_false, Bool.and_false]
  | false => rw [Bool.false_and]

/-- A command that leaves the interrupt sources as they are raises nothing. -/
theorem finish_of_irqActive {s t : State} (h : irqActive t = irqActive s) : finish s t = t := by
  rw [finish, h, if_pos (irqActive_and_not s), ite_self]

section
variable {i : Instr} {s u : State}

/-- What a command changes of the host interface alone ends so. -/
theorem exec_of_hif (hexec : exec i s = done s u) (hs : s.rested) {h : Hif} (hu : u = { s with hif := h }) : exec i s = .next { s with hif := h } := by
  subst hu
  have hw : ({ s with hif := h } : State).hostWait = false := hs
  exact hexec.trans ((done_next hw).trans (congrArg _ (finish_of_irqActive rfl)))

/-- What a command leaves is what its run function gives, the messages and pending bits apart. -/
theorem answers_of_msix {p : State → Prop} (hexec : exec i s = done s u) (w : u.hostWait = false)
    (hp : ∀ msgs pba, p { u with hif := { u.hif with msgs := msgs, pba := pba } }) : Answers i s p := by
  refine ⟨finish s u, hexec.trans (done_next w), ?_⟩
  rw [finish_frame]
  exact hp _ _

end

/-! ## The device's commands (R432, Table 18-7) -/

theorem exec_start (key : BitVec 16) (s : State) : exec (.start key) s = done s (keyed s key startCmd) := rfl
theorem exec_hold (key : BitVec 16) (s : State) : exec (.hold key) s = done s (keyed s key holdCmd) := rfl
theorem exec_reset (key : BitVec 16) (s : State) : exec (.reset key) s = done s (keyed s key resetCmd) := rfl

theorem keyed_right {s : State} (h : cmdServed s = true) (f : State → State) : keyed s 0x5356 f = f s :=
  (if_neg (by simp [h])).trans (if_pos rfl)

theorem cmdServed_of {s : State} {d : Dev} (h : s.glb.dev = d) (hon : d ≠ .off ∧ d ≠ .reset ∧ d ≠ .boot) : cmdServed s = true := by
  subst h
  simp [cmdServed, hon]

theorem cmdIgnored_eq (s : State) : cmdIgnored s = regSet s 8 (regGet s 8 ||| BitVec.ofNat 32 (2 ^ 24)) := by
  rw [cmdIgnored, regOr]
  exact if_neg (by decide)

theorem cmdSetsIgnored_of {i : Instr} {s : State} (hs : s.rested) (hexec : exec i s = done s (cmdIgnored s)) : cmdSetsIgnored i s := by
  rw [cmdSetsIgnored, hexec, cmdIgnored_eq]
  exact done_next hs

section
variable {s : State}

theorem startCmd_starts (h : s.glb.dev = .hold ∧ s.glb.reason = 7 ∨ s.glb.dev = .structured ∧ (driverOk s = true ∨ s.glb.autostart = true)) :
    startCmd s = enterRunning s := by
  obtain ⟨hdev, hreason⟩ | ⟨hdev, hok⟩ := h
  · rw [startCmd, hdev]
    exact if_pos hreason
  · rw [startCmd, hdev]
    exact if_pos (by simpa using hok)

/-- A drain that a HOLD began, and that no RESET has taken. -/
def holdDrain (s : State) : Bool := !s.glb.targetReset && s.glb.reason == 7

theorem holdDrain_false (h : s.glb.reason ≠ 7 ∨ s.glb.targetReset = true) : ¬ holdDrain s = true := by
  simp only [holdDrain, Bool.and_eq_true, Bool.not_eq_true', beq_iff_eq, not_and]
  rcases h with h | h <;> simp [h]

theorem holdDrain_true (hreason : s.glb.reason = 7) (htarget : s.glb.targetReset = false) : holdDrain s = true := by
  simp [holdDrain, hreason, htarget]

theorem startCmd_ignored (h : s.glb.dev = .hold ∧ s.glb.reason ≠ 7 ∨ s.glb.dev = .structured ∧ driverOk s = false ∧ s.glb.autostart = false ∨
    s.glb.dev = .running ∨ s.glb.dev = .fault ∨ s.glb.dev = .draining ∧ (s.glb.reason ≠ 7 ∨ s.glb.targetReset = true)) : startCmd s = cmdIgnored s := by
  obtain ⟨hdev, hreason⟩ | ⟨hdev, hdriver, hauto⟩ | hdev | hdev | ⟨hdev, hwhy⟩ := h
  · rw [startCmd, hdev]
    exact if_neg hreason
  · rw [startCmd, hdev]
    exact if_neg (by simp [hdriver, hauto])
  · rw [startCmd, hdev]
  · rw [startCmd, hdev]
  · rw [startCmd, hdev]
    exact if_neg (holdDrain_false hwhy)

theorem holdCmd_ignored (h : s.glb.dev = .hold ∨ s.glb.dev = .fault ∨ s.glb.dev = .draining ∧ (s.glb.reason ≠ 7 ∨ s.glb.targetReset = true)) :
    holdCmd s = cmdIgnored s := by
  obtain hdev | hdev | ⟨hdev, hwhy⟩ := h
  · rw [holdCmd, hdev]
  · rw [holdCmd, hdev]
  · rw [holdCmd, hdev]
    exact if_neg (holdDrain_false hwhy)

theorem resetCmd_resets (h : s.glb.dev = .hold ∨ s.glb.dev = .structured ∨ s.glb.dev = .fault) : resetCmd s = doReset s := by
  obtain hdev | hdev | hdev := h <;> rw [resetCmd, hdev]

end

theorem sageFrom_doReset (s : State) : SageFrom (resetAll s) (doReset s) := by
  rw [doReset, leaveReset]
  split
  · exact (sageFrom_glb _ _).trans (sageFrom_bootFlash _)
  · exact sageFrom_glb _ _

theorem SageFrom.hif {s t : State} (h : SageFrom s t) : t.hif = s.hif := by
  obtain ⟨_, _, _, _, _, _, rfl⟩ := h.frame
  rfl

theorem SageFrom.chans {s t : State} (h : SageFrom s t) : t.chans = s.chans := by
  obtain ⟨_, _, _, _, _, _, rfl⟩ := h.frame
  rfl

theorem enterDraining_keeps {s : State} (hq : s.queues = []) (hu : s.rxus = []) (reason : Nat) (toReset : Bool) :
    (enterDraining s reason toReset).hostWait = s.hostWait ∧ (enterDraining s reason toReset).mem = s.mem ∧ (enterDraining s reason toReset).glb =
      { s.glb with dev := .draining, reason := if toReset then 0 else reason, targetReset := toReset, startPending := false } := by
  rw [enterDraining_quiet hq hu, glb_setDev]
  exact ⟨(sageFrom_setDev _ _).hostWait, (sageFrom_setDev _ _).mem, rfl⟩

/-- Settles O13. -/
theorem globalCommandsByState : Obligations.GlobalCommandsByState := by
  unfold Obligations.GlobalCommandsByState
  intro s hs
  have hrun {i : Instr} {f : State → State} (hexec : exec i s = done s (keyed s 0x5356 f)) {d : Dev} (hdev : s.glb.dev = d)
      (hon : d ≠ .off ∧ d ≠ .reset ∧ d ≠ .boot) : exec i s = done s (f s) := by
    rw [hexec, keyed_right (cmdServed_of hdev hon)]
  refine ⟨fun h => ?starts, fun h => ?startIgnored, fun hdev hreason htarget => ⟨?startDrain, ?holdDrain⟩, fun hdev => ?holds,
    fun hdev hq hu => ⟨?drains, ?drainsToReset⟩, fun h => ?holdIgnored, fun h => ?resets, fun hdev => ?resetDrain⟩
  case starts =>
    have hexec : exec (.start 0x5356) s = done s (enterRunning s) := by
      rw [← startCmd_starts h]
      obtain ⟨hdev, -⟩ | ⟨hdev, -⟩ := h <;> exact hrun (exec_start _ s) hdev (by decide)
    have hglb := glb_enterRunning s
    obtain ⟨hwait, hqueues, hmem, hfences, harrays⟩ := (runFrom_enterRunning s).keeps
    generalize enterRunning s = t at *
    exact answers_of_done hexec (hwait.trans hs) fun h => ⟨hglb.1, hglb.2, hqueues, hmem, hfences, harrays⟩
  case startIgnored =>
    refine cmdSetsIgnored_of hs ?_
    rw [← startCmd_ignored h]
    obtain ⟨hdev, -⟩ | ⟨hdev, -⟩ | hdev | hdev | ⟨hdev, -⟩ := h <;> exact hrun (exec_start _ s) hdev (by decide)
  case startDrain =>
    rw [hrun (exec_start _ s) hdev (by decide), startCmd, hdev]
    exact (congrArg (done s) (if_pos (holdDrain_true hreason htarget))).trans (done_next hs)
  case holdDrain =>
    rw [hrun (exec_hold _ s) hdev (by decide), holdCmd, hdev]
    exact (congrArg (done s) (if_pos (holdDrain_true hreason htarget))).trans (done_next hs)
  case holds =>
    have hexec : exec (.hold 0x5356) s = done s (enterHold s 7) := by rw [hrun (exec_hold _ s) hdev (by decide), holdCmd, hdev]
    have hglb := glb_enterHold s 7
    have hfrom := sageFrom_enterHold s 7
    generalize enterHold s 7 = t at *
    exact answers_of_done hexec (hfrom.hostWait.trans hs) fun h =>
      ⟨(congrArg Glb.dev hglb).trans rfl, (congrArg Glb.reason hglb).trans rfl, hfrom.queues, hfrom.mem⟩
  case drains =>
    have hexec : exec (.hold 0x5356) s = done s (enterDraining s 7 false) := by rw [hrun (exec_hold _ s) hdev (by decide), holdCmd, hdev]
    obtain ⟨hwait, hmem, hglb⟩ := enterDraining_keeps hq hu 7 false
    generalize enterDraining s 7 false = t at *
    exact answers_of_done hexec (hwait.trans hs) fun h =>
      ⟨(congrArg Glb.dev hglb).trans rfl, (congrArg Glb.reason hglb).trans rfl, (congrArg Glb.targetReset hglb).trans rfl, hmem⟩
  case drainsToReset =>
    have hexec : exec (.reset 0x5356) s = done s (enterDraining s 0 true) := by rw [hrun (exec_reset _ s) hdev (by decide), resetCmd, hdev]
    obtain ⟨hwait, hmem, hglb⟩ := enterDraining_keeps hq hu 0 true
    generalize enterDraining s 0 true = t at *
    exact answers_of_done hexec (hwait.trans hs) fun h => ⟨(congrArg Glb.dev hglb).trans rfl, (congrArg Glb.targetReset hglb).trans rfl, hmem⟩
  case holdIgnored =>
    refine cmdSetsIgnored_of hs ?_
    rw [← holdCmd_ignored h]
    obtain hdev | hdev | ⟨hdev, -⟩ := h <;> exact hrun (exec_hold _ s) hdev (by decide)
  case resets =>
    have hexec : exec (.reset 0x5356) s = done s (doReset s) := by
      rw [← resetCmd_resets h]
      obtain hdev | hdev | hdev := h <;> exact hrun (exec_reset _ s) hdev (by decide)
    have hdev := dev_doReset s
    have hclear := cleared_doReset s
    have hchans : (doReset s).chans = [] := (sageFrom_doReset s).chans
    have htable : (doReset s).hif.table = s.hif.table := congrArg Hif.table (sageFrom_doReset s).hif
    generalize doReset s = t at *
    exact answers_of_msix hexec hclear.hostWait fun msgs pba => ⟨hdev, hclear.queues, hchans, hclear.fences, hclear.mem, htable, hclear.host⟩
  case resetDrain =>
    rw [hrun (exec_reset _ s) hdev (by decide), resetCmd, hdev]
    exact done_next hs

/-! ## The interrupt vector, its mask, and the messages held (R415, R436) -/

theorem exec_rearm (s : State) : exec .rearm s = host s rearmRun := rfl
theorem exec_irqMaskWrite (v : Word) (s : State) : exec (.irqMaskWrite v) s = host s fun s => irqMaskRun s v := rfl
theorem exec_msixUnmask (v : Option (Fin 2048)) (s : State) : exec (.msixUnmask v) s = done s (msixUnmaskRun s (v.map (·.val))) := rfl

/-- The vector's message goes out now: neither the vector nor the function is masked. -/
def Hif.unmasked (h : Hif) (v : Nat) : Bool := !(sget ({} : MsixEntry) h.table v).masked

/-- The host interface with every message sent that may go. -/
def Hif.flushed (h : Hif) : Hif := { h with
  msgs := h.msgs ++ (h.pba.filter h.unmasked).map fun v => ((sget ({} : MsixEntry) h.table v).addr, (sget ({} : MsixEntry) h.table v).data)
  pba := h.pba.filter fun v => !(h.pba.filter h.unmasked).contains v }

theorem flushVecs_held {s : State} (h : s.hif.funcMask = true ∨ hostBlocked s = true) : flushVecs s = s := if_pos (by simpa using h)

theorem flushVecs_sends {s : State} (hmask : s.hif.funcMask = false) (hblock : hostBlocked s = false) : flushVecs s = { s with hif := s.hif.flushed } :=
  if_neg (by simp [hmask, hblock])

theorem mem_pba_flushed {h : Hif} {v : Nat} : v ∈ h.flushed.pba ↔ v ∈ h.pba ∧ (sget ({} : MsixEntry) h.table v).masked = true := by
  simp only [Hif.flushed, Hif.unmasked, List.mem_filter, List.contains_eq_mem, decide_eq_false_iff_not, Bool.not_eq_true', not_and,
    Bool.not_eq_false]
  exact ⟨fun ⟨hpend, hmask⟩ => ⟨hpend, hmask hpend⟩, fun ⟨hpend, hmask⟩ => ⟨hpend, fun _ => hmask⟩⟩

/-- Settles O14. -/
theorem interruptRows : Obligations.InterruptRows := by
  unfold Obligations.InterruptRows
  refine ⟨fun s hs => ⟨fun h => ?quiet, fun h => ?raises, fun v => ?mask⟩, fun s n hs => ?unmask⟩
  case quiet =>
    rw [exec_of_write (exec_rearm s) hs (if_pos h) hs.1, finish_self]
  case raises =>
    have hrun : rearmRun s = raiseVec s (regField s 0x20 10 0) := if_neg h
    have hframe := raiseVec_frame s (regField s 0x20 10 0)
    generalize raiseVec s (regField s 0x20 10 0) = t at *
    rw [exec_of_write (exec_rearm s) hs hrun (by rw [hframe]; exact hs.1), finish_of_irqActive (by rw [hframe]; rfl)]
  case mask =>
    have hword : BitVec.ofNat 32 (v.toNat % 2 ^ 11) = v &&& 0x7FF := by
      refine BitVec.eq_of_toNat_eq ?_
      rw [BitVec.toNat_and, BitVec.toNat_ofNat, Nat.mod_eq_of_lt (by omega), show (0x7FF : Word).toNat = 2 ^ 11 - 1 from rfl, Nat.and_two_pow_sub_one_eq_mod]
    refine ⟨_, exec_of_write (exec_irqMaskWrite v s) hs rfl hs.1, ?_⟩
    rw [finish_frame, irqMaskRun, hword]
    exact ⟨regGet_regSet_same s 0x1C _, fun o hne => regGet_regSet_ne s 0x1C o _ (Ne.symm hne), rfl⟩
  case unmask =>
    intro table
    have hentry : (sget ({} : MsixEntry) table n.val).masked = false := by rw [sget_sset_same]
    refine ⟨fun h => ?held, fun hmask hblock => ?sends, fun hblock => ?function⟩
    case held =>
      exact exec_of_hif (exec_msixUnmask (some n) s) hs (flushVecs_held (s := { s with hif := { s.hif with table := table } }) h)
    case sends =>
      refine ⟨_, exec_of_hif (exec_msixUnmask (some n) s) hs (flushVecs_sends (s := { s with hif := { s.hif with table := table } }) hmask hblock), ?_⟩
      exact ⟨fun hpend => absurd (mem_pba_flushed.mp hpend).2 (ne_true_of_eq_false hentry), rfl, fun v => mem_pba_flushed, rfl, rfl⟩
    case function =>
      refine ⟨_, exec_of_hif (exec_msixUnmask none s) hs (flushVecs_sends (s := { s with hif := { s.hif with funcMask := false } }) rfl hblock), ?_⟩
      exact ⟨rfl, fun v => mem_pba_flushed, rfl⟩

/-! ## The PCIe function (R410, R412, R413) -/

theorem exec_pcieConventionalReset (s : State) : exec .pcieConventionalReset s = done s (pcieResetRun s) := rfl
theorem exec_busMasterClear (d3hot : Bool) (s : State) : exec (.busMasterClear d3hot) s = done s (busClearRun s d3hot) := rfl
theorem exec_busMasterResume (d0 : Bool) (s : State) : exec (.busMasterResume d0) s = done s (busResumeRun s d0) := rfl
theorem exec_atsInvalidation (r : AtsRange) (s : State) : exec (.atsInvalidation r) s = done s (atsInvalidateRun s r) := rfl
theorem exec_atsTranslationCompletion (r : AtsReply) (s : State) : exec (.atsTranslationCompletion r) s = done s (atsCompleteRun s r) := rfl
theorem exec_hostReadCompletion (r : HostRead) (s : State) : exec (.hostReadCompletion r) s = done s (hostReadRun s r) := rfl
theorem exec_completionTimeout (a : BitVec 63) (n : Nat) (s : State) : exec (.completionTimeout a n) s = done s (timeoutRun s a.toNat n) := rfl

theorem frame_flushVecs (s : State) : flushVecs s = { s with hif := (flushVecs s).hif } := by
  unfold flushVecs
  split <;> rfl

theorem hostBlocked_flushVecs (s : State) : hostBlocked (flushVecs s) = hostBlocked s := by
  unfold flushVecs
  split <;> rfl

theorem mem_hostQuads {a n b : Nat} : b ∈ hostQuads a n ↔ ∃ k, k < n ∧ a / 16 * 16 + 16 * k = b := by
  simp [hostQuads]

theorem mem_poisonHost {s : State} {a n b : Nat} : b ∈ (poisonHost s a n).hostPoison ↔ b ∈ s.hostPoison ∨ b ∈ hostQuads a n := by
  rw [poisonHost, regOr_frame]
  simp only [List.mem_append, List.mem_filter, List.contains_eq_mem, Bool.not_eq_true', decide_eq_false_iff_not]
  tauto

theorem frame_poisonHost (s : State) (a n : Nat) :
    poisonHost s a n = { s with hostPoison := (poisonHost s a n).hostPoison, regs := (poisonHost s a n).regs } := by
  rw [poisonHost, regOr_frame]

/-- What a poisoned completion or a timeout leaves. -/
theorem answers_of_poisonHost {i : Instr} {s : State} {a n : Nat} (hs : s.rested) (hexec : exec i s = done s (poisonHost s a n)) :
    Answers i s fun t => (∀ k, k < n → a / 16 * 16 + 16 * k ∈ t.hostPoison) ∧ (∀ b, b ∈ s.hostPoison → b ∈ t.hostPoison) ∧
      regBit t (hifReg 4) 3 = true ∧ t = { s with hostPoison := t.hostPoison, regs := t.regs, hif := t.hif } := by
  have hmem {b : Nat} := mem_poisonHost (s := s) (a := a) (n := n) (b := b)
  have hbit : regBit (poisonHost s a n) (hifReg 4) 3 = true := regBit_regOr_same _ (hifReg 4) (i := 3) (by decide)
  have hframe := frame_poisonHost s a n
  generalize poisonHost s a n = t at *
  refine answers_of_done hexec (by rw [hframe]; exact hs) fun h => ⟨fun k hk => ?_, fun b hb => hmem.mpr (.inl hb), ?_, ?_⟩
  · exact hmem.mpr (.inr (mem_hostQuads.mpr ⟨k, hk, rfl⟩))
  · exact (regBit_of_regGet (regGet_withHif t h _) 3).trans hbit
  · rw [hframe]

/-- The entry is of the page a reply speaks of. -/
def repliesTo (r : AtsReply) (e : AtsEntry) : Bool := e.pasid == r.pasid.map (·.toNat) && e.page == r.page.toNat

/-- The host interface with the answer to a translation request in its cache. -/
def Hif.granted (h : Hif) (r : AtsReply) : Hif :=
  let kept := h.cache.filter fun e => !repliesTo r e
  { h with asked := h.asked.filter fun e => !repliesTo r e,
           cache := kept.drop (kept.length + 1 - Config.atsEntries) ++
             [{ pasid := r.pasid.map (·.toNat), page := r.page.toNat, grant := r.grant.map fun g => (g.1.toNat, g.2.1, g.2.2) }] }

/-- Settles O21. -/
theorem pcieEvents : Obligations.PcieEvents := by
  unfold Obligations.PcieEvents
  refine ⟨fun s hs => ⟨?reset, ?clear, ?sleep, fun hd3 => ?resume, fun hbme => ?wake⟩,
    fun s hs => ⟨fun r hr => ?invalidate, fun r hasked hroom => ?translation, fun r hr hoff hreset => ⟨fun hep => ?poisoned, fun hep => ?clean⟩,
      fun a n hn hoff hreset => ?timeout⟩⟩
  case reset => exact ⟨_, exec_of_hif (exec_pcieConventionalReset s) hs rfl, rfl, rfl, rfl, rfl, rfl, rfl, rfl, rfl, rfl⟩
  case clear => exact exec_of_hif (exec_busMasterClear false s) hs rfl
  case sleep => exact exec_of_hif (exec_busMasterClear true s) hs rfl
  case resume =>
    have hopen : hostBlocked { s with hif := { s.hif with bme := true } } = false := by simp [hostBlocked, hd3]
    refine ⟨_, exec_of_hif (exec_busMasterResume false s) hs (frame_flushVecs { s with hif := { s.hif with bme := true } }), ?_, fun hmask => ?_, rfl⟩
    · exact (hostBlocked_flushVecs { s with hif := { s.hif with bme := true } }).trans hopen
    · rw [flushVecs_sends (s := { s with hif := { s.hif with bme := true } }) hmask hopen]
      exact fun v => mem_pba_flushed
  case wake =>
    have hopen : hostBlocked { s with hif := { s.hif with d3hot := false } } = false := by simp [hostBlocked, hbme]
    exact ⟨_, exec_of_hif (exec_busMasterResume true s) hs (frame_flushVecs { s with hif := { s.hif with d3hot := false } }),
      (hostBlocked_flushVecs { s with hif := { s.hif with d3hot := false } }).trans hopen, rfl⟩
  case invalidate =>
    refine ⟨_, exec_of_hif (exec_atsInvalidation r s) hs rfl, fun e => List.mem_filter.trans (and_congr_right' ?_), rfl⟩
    simp only [Bool.not_eq_true', ← Bool.not_eq_true, Bool.and_eq_true, beq_iff_eq, decide_eq_true_eq, and_assoc]
  case translation =>
    have hrun : atsCompleteRun s r = { s with hif := s.hif.granted r } := if_neg (by simpa using hasked)
    refine ⟨_, exec_of_hif (exec_atsTranslationCompletion r s) hs hrun, List.mem_append_right _ (List.mem_singleton_self _), ?_, rfl⟩
    exact List.any_eq_false.mpr fun e he => by simpa [repliesTo, ← imp_iff_not_or] using (List.mem_filter.mp he).2
  case poisoned =>
    have hrun : hostReadRun s r = poisonHost s r.addr.toNat r.quads := (if_neg (by simp [hoff, hreset])).trans (if_pos hep)
    exact answers_of_poisonHost hs ((exec_hostReadCompletion r s).trans (congrArg (done s) hrun))
  case clean =>
    have hrun : hostReadRun s r = { s with hostPoison := s.hostPoison.filter fun b => !(hostQuads r.addr.toNat r.quads).contains b } :=
      (if_neg (by simp [hoff, hreset])).trans (if_neg (ne_true_of_eq_false hep))
    refine answers_of_done ((exec_hostReadCompletion r s).trans (congrArg (done s) hrun)) hs fun h => ⟨fun k hk => ?_, rfl⟩
    simp [mem_hostQuads.mpr ⟨k, hk, rfl⟩]
  case timeout =>
    have hrun : timeoutRun s a.toNat n = poisonHost s a.toNat n := if_neg (by simp [hoff, hreset])
    obtain ⟨t, hexec, hquads, -, hflag, hframe⟩ := answers_of_poisonHost hs ((exec_completionTimeout a n s).trans (congrArg (done s) hrun))
    exact ⟨t, hexec, hquads, hflag, hframe⟩

/-! ## BAR4 (R409) -/

theorem exec_bar4Access (a : Bar4Op) (s : State) : exec (.bar4Access a) s = done s (bar4Run s a) := rfl
theorem exec_barRequestRefused (isRead : Bool) (s : State) : exec (.barRequestRefused isRead) s = done s (barRefusedRun s isRead) := rfl

/-! ### A part of a mapped range -/

/-- The addresses after one of a store, up to the store's end, lie in the same store. -/
theorem storeOf_of_le {s : State} {a b : Nat} {x : Nat × Nat} (h : storeOf s a = some x) (hab : a ≤ b) (hb : b < x.2) : storeOf s b = some x := by
  unfold storeOf at h ⊢
  generalize usable s = n at h ⊢
  have hsram : Config.sramBase + Config.sramSize ≤ Config.hedgeScratchBase := by decide
  have hscratch : Config.hedgeScratchBase + 16 * Config.hedgeScratchSize ≤ Config.rxuScratchBase := by decide
  by_cases h0 : a < n
  · obtain rfl := Option.some.inj ((if_pos h0).symm.trans h)
    exact if_pos hb
  rw [if_neg h0] at h
  rw [if_neg (by omega)]
  by_cases h1 : Config.sramBase ≤ a ∧ a < Config.sramBase + Config.sramSize
  · obtain rfl := Option.some.inj ((if_pos h1).symm.trans h)
    exact if_pos ⟨by omega, hb⟩
  rw [if_neg h1] at h
  by_cases h2 : Config.hedgeScratchBase ≤ a ∧ a < Config.hedgeScratchBase + 16 * Config.hedgeScratchSize
  · obtain rfl := Option.some.inj ((if_pos h2).symm.trans h)
    rw [if_neg (by omega)]
    exact if_pos ⟨by omega, hb⟩
  rw [if_neg h2] at h
  by_cases h3 : Config.rxuScratchBase ≤ a ∧ a < Config.rxuScratchBase + 4 * Config.rxuScratchSize
  · obtain rfl := Option.some.inj ((if_pos h3).symm.trans h)
    rw [if_neg (by omega), if_neg (by omega)]
    exact if_pos ⟨by omega, hb⟩
  · exact absurd ((if_neg h3).symm.trans h) nofun

theorem mapped_iff {s : State} {a n : Nat} : mapped s a n = true ↔ ∃ x, storeOf s a = some x ∧ a + n ≤ x.2 := by
  unfold mapped
  cases storeOf s a with
  | none => simp
  | some x => simp

theorem mapped_part {s : State} {a n i k : Nat} (h : mapped s a n = true) (hi : i < n) (hk : i + k ≤ n) : mapped s (a + i) k = true := by
  obtain ⟨x, hx, hend⟩ := mapped_iff.mp h
  exact mapped_iff.mpr ⟨x, storeOf_of_le hx (by omega) (by omega), by omega⟩

/-! ### The pieces of an access, one quad each -/

theorem mread_add (m : List Host.Cell) (a k n : Nat) : mread m a (k + n) = mread m a k ++ mread m (a + k) n := by
  simp [mread, List.range_add, Nat.add_assoc, Function.comp_def]

theorem quadPieces_zero (n a : Nat) : quadPieces n a 0 = [] := by
  cases n with
  | zero => rfl
  | succ n => exact if_pos rfl

theorem quadPieces_succ (n a : Nat) {len : Nat} (h : 0 < len) : quadPieces (n + 1) a len =
    (a, min (16 - a % 16) len) :: quadPieces n (a + min (16 - a % 16) len) (len - min (16 - a % 16) len) := if_neg (by omega)

section
variable {s : State} (hq : s.quads = [])
include hq

/-- A read of mapped device memory without stored errors returns its bytes. -/
theorem bar4Read_clean : ∀ (n a len : Nat), len ≤ 16 * n - a % 16 → a + len ≤ 2 ^ 63 → (0 < len → mapped s a len = true) →
    bar4Read s (quadPieces n a len) = (s, mread s.mem a len, false)
  | 0, a, len, hfuel, _, _ => by
    obtain rfl : len = 0 := by omega
    rfl
  | n + 1, a, len, hfuel, hend, hmap => by
    obtain rfl | hlen := Nat.eq_zero_or_pos len
    · rw [quadPieces_zero]
      rfl
    · rw [quadPieces_succ n a hlen]
      generalize hk : min (16 - a % 16) len = k
      have hpiece : mapped s a k = true := mapped_part (hmap hlen) hlen (by omega)
      have hrest := bar4Read_clean n (a + k) (len - k) (by omega) (by omega) fun h => mapped_part (hmap hlen) (by omega) (by omega)
      rw [bar4Read, if_pos hpiece, readMem_clean hq (by omega) hpiece, hrest, ← mread_add, Nat.add_sub_cancel' (by omega)]
      rfl

end

/-- A write of mapped device memory without stored errors, with every byte enabled, stores its bytes. -/
theorem bar4Write_clean : ∀ (n : Nat) {s : State} (a : Nat) (bs : List (Byte × Bool)), s.quads = [] → bs.length ≤ 16 * n - a % 16 →
    a + bs.length ≤ 2 ^ 63 → (0 < bs.length → mapped s a bs.length = true) → (∀ b ∈ bs, b.2 = true) →
    bar4Write false s (quadPieces n a bs.length) bs = { s with mem := mwrite s.mem a (bs.map (·.1)) }
  | 0, s, a, bs, _, hfuel, _, _, _ => by
    obtain rfl : bs = [] := List.eq_nil_of_length_eq_zero (by omega)
    rfl
  | n + 1, s, a, bs, hq, hfuel, hend, hmap, hall => by
    obtain rfl | hne := eq_or_ne bs []
    · exact congrArg (fun ps => bar4Write false s ps []) (quadPieces_zero (n + 1) a)
    · have hlen : 0 < bs.length := List.length_pos_iff.mpr hne
      rw [quadPieces_succ n a hlen]
      generalize hk : min (16 - a % 16) bs.length = k
      have htake : (bs.take k).length = k := by simp; omega
      have hpiece : bar4Piece s a (bs.take k) = { s with mem := mwrite s.mem a ((bs.take k).map (·.1)) } := by
        have hmapped : mapped s a (bs.take k).length = true := mapped_part (hmap hlen) hlen (by omega)
        have henabled : (bs.take k).all (·.2) = true := List.all_eq_true.mpr fun b hb => hall b (List.mem_of_mem_take hb)
        have hnonempty : (bs.take k).map (·.1) ≠ [] := List.ne_nil_of_length_pos (by rw [List.length_map, htake]; omega)
        rw [bar4Piece, if_neg (by rw [hmapped]; decide), if_pos henabled, writeMem_clean hq (by simp; omega) hnonempty (by rwa [List.length_map])]
      have hrest := bar4Write_clean n (s := { s with mem := mwrite s.mem a ((bs.take k).map (·.1)) }) (a + k) (bs.drop k) hq (by simp; omega)
        (by simp; omega) (fun h => by rw [List.length_drop] at h ⊢; exact mapped_part (hmap hlen) (by omega) (by omega))
        fun b hb => hall b (List.mem_of_mem_drop hb)
      rw [List.length_drop] at hrest
      have hbytes : mwrite s.mem a (bs.map (·.1)) = mwrite (mwrite s.mem a ((bs.take k).map (·.1))) (a + k) ((bs.drop k).map (·.1)) := by
        conv_lhs => rw [← List.take_append_drop k bs, List.map_append, mwrite_append, List.length_map, htake]
      rw [bar4Write, if_neg Bool.false_ne_true, hpiece, hrest, hbytes]

/-! ### Every access keeps the memories canonical -/

theorem canonical_regOr {s : State} (h : s.canonical) (o m : Nat) : (regOr s o m).canonical := canonical_of_eq h (regOr_mem s o m) (regOr_host s o m)

theorem canonical_bar4Read : ∀ (ps : List (Nat × Nat)) {s : State}, s.canonical → (bar4Read s ps).1.canonical
  | [], _, h => h
  | p :: ps, s, h => by
    refine canonical_bar4Read ps ?_
    split
    · exact readMem_canonical h 0 0 p.1 p.2
    · exact canonical_regOr h _ _

theorem canonical_bar4Piece {s : State} (h : s.canonical) (a : Nat) (bs : List (Byte × Bool)) : (bar4Piece s a bs).canonical := by
  unfold bar4Piece
  split
  · exact canonical_regOr h _ _
  · split
    · exact writeMem_canonical h _ _ _ _
    · refine List.foldlRecOn (motive := fun t : State => t.canonical) _ _ h fun t ht e _ => ?_
      split
      · exact writeMem_canonical ht _ _ _ _
      · exact ht

theorem canonical_bar4Write (poisoned : Bool) : ∀ (ps : List (Nat × Nat)) {s : State} (bs : List (Byte × Bool)), s.canonical →
    (bar4Write poisoned s ps bs).canonical
  | [], _, _, h => h
  | p :: ps, s, bs, h => by
    refine canonical_bar4Write poisoned ps (bs.drop p.2) ?_
    split
    · split
      · exact writePoison_canonical 1 0 _ h
      · exact canonical_regOr h _ _
    · exact canonical_bar4Piece h _ _

theorem canonical_bar4Run {s : State} (h : s.canonical) (op : Bar4Op) : (bar4Run s op).canonical := by
  cases op with
  | read off len =>
    unfold bar4Run
    dsimp only
    split
    · exact h
    · split
      · exact canonical_of_eq h rfl rfl
      · exact canonical_of_eq (canonical_bar4Read _ h) rfl rfl
  | write off data poisoned =>
    unfold bar4Run
    dsimp only
    split
    · exact h
    · exact canonical_bar4Write _ _ _ h

/-! ### The accesses by state (Table 15-1) -/

section
variable {s : State} {off : Nat}

theorem bar4Served_on (h : bar4Served s = true) : s.glb.dev ≠ .off := by
  intro hoff
  simp [bar4Served, hoff] at h

theorem bar4Run_read {len : Nat} (hsize : off + len ≤ s.hif.bar4Size) (hserved : bar4Served s = true) (hq : s.quads = [])
    (hend : bar4Base s + off + len ≤ 2 ^ 63) (hmap : mapped s (bar4Base s + off) len = true) :
    bar4Run s (.read off len) = { s with busData := mread s.mem (bar4Base s + off) len, busEp := false } := by
  have hread := bar4Read_clean hq (len / 16 + 2) (bar4Base s + off) len (by omega) hend fun _ => hmap
  refine (if_neg (not_or.mpr ⟨by omega, bar4Served_on hserved⟩)).trans ((if_neg (by simp [hserved])).trans ?_)
  dsimp only
  rw [hread]

theorem bar4Run_readUnserved {len : Nat} (hsize : off + len ≤ s.hif.bar4Size) (hserved : bar4Served s = false) (hon : s.glb.dev ≠ .off) :
    bar4Run s (.read off len) = { s with busData := List.replicate len 0, busEp := false } :=
  (if_neg (not_or.mpr ⟨by omega, hon⟩)).trans (if_pos (by simp [hserved]))

theorem bar4Run_write {data : List (Byte × Bool)} (hsize : off + data.length ≤ s.hif.bar4Size) (hserved : bar4Served s = true) (hq : s.quads = [])
    (hend : bar4Base s + off + data.length ≤ 2 ^ 63) (hall : data.all (·.2) = true) (hmap : mapped s (bar4Base s + off) data.length = true) :
    bar4Run s (.write off data false) = { s with mem := mwrite s.mem (bar4Base s + off) (data.map (·.1)) } :=
  (if_neg (by simp [hserved]; omega)).trans
    (bar4Write_clean (data.length / 16 + 2) (bar4Base s + off) data hq (by omega) hend (fun _ => hmap) (List.all_eq_true.mp hall))

theorem bar4Run_writeUnserved (data : List (Byte × Bool)) (p : Bool) (hserved : bar4Served s = false) : bar4Run s (.write off data p) = s :=
  if_pos (.inr (by simp [hserved]))

end

/-- Settles O20. -/
theorem barAccesses : Obligations.BarAccesses := by
  unfold Obligations.BarAccesses
  intro s hs
  refine ⟨fun off len _ hsize hserved hq hend hmap => ?read, fun off data hne hall hsize hserved hq hend hmap => ?write,
    fun off len _ hsize hserved hon => ?readUnserved, fun off data p hne hserved => ?writeUnserved, fun i t ⟨op, hi⟩ hcanon hexec => ?canonical,
    fun hoff hreset => ⟨?refusedWrite, ?refusedRead⟩⟩
  case read =>
    rw [exec_bar4Access, bar4Run_read hsize hserved hq hend hmap]
    exact done_next hs
  case write =>
    refine answers_of_done ((exec_bar4Access _ s).trans (congrArg (done s) (bar4Run_write hsize hserved hq hend hall hmap))) hs fun h =>
      ⟨fun k hk => ?_, fun a ha => mget_mwrite_outside _ _ _ _ (by simpa using ha), rfl⟩
    exact (mget_mwrite_inside (data.map (·.1)) s.mem (bar4Base s + off) k (by simpa using hk)).trans (List.getElem_map _)
  case readUnserved =>
    rw [exec_bar4Access, bar4Run_readUnserved hsize hserved hon]
    exact done_next hs
  case writeUnserved => exact exec_of_done_self (exec_bar4Access _ s) (bar4Run_writeUnserved data p hserved)
  case canonical =>
    subst hi
    rw [exec_bar4Access] at hexec
    exact Host.Outcome.next.inj hexec ▸ finish_canonical hcanon (canonical_bar4Run hcanon op)
  case refusedWrite =>
    have hrun : barRefusedRun s false = regOr s (hifReg 4) 1 := if_neg (by simp [hoff, hreset])
    rw [exec_barRequestRefused, hrun]
    exact done_next (by rw [regOr_frame]; exact hs)
  case refusedRead =>
    have hrun : barRefusedRun s true = { regOr s (hifReg 4) 1 with
        freeTick := s.freeTick + 1, busEp := false, busData := toLe 4 (Config.failedRead s.freeTick).toNat } := by
      rw [barRefusedRun, if_neg (by simp [hoff, hreset]), regOr_frame]
      rfl
    have hbit := regBit_regOr_one s (hifReg 4)
    have hframe := regOr_frame s (hifReg 4) 1
    have hexec := (exec_barRequestRefused true s).trans (congrArg (done s) hrun)
    generalize regOr s (hifReg 4) 1 = t at *
    exact answers_of_done hexec ((congrArg State.hostWait hframe).trans hs) fun h =>
      ⟨(regBit_of_regGet (regGet_of_regs rfl _) 0).trans hbit, rfl, (congrArg State.mem hframe).trans rfl, rfl⟩

/-! ## Ethernet (R420, R421)

A waiting frame's queue is any number. The ring registers of the number 0x6C000 are those of the MEM block: its record stride is a field of
`MEM_ERR_INFO`, which the first integrity error rewrites with its store, kind and requester (R353). So a first record that meets an error moves the second
one, past 2^63, into host memory; with Bus Master Enable clear the command waits for the host there, and the frame stays in its buffer. -/

/-- A frame of two records for a queue number beyond the queues. -/
def strayFrame : RxFrame := { q := 0x6C000, recs := [[], []] }

/-- The frame waits, its ring lies at 2^63 - 256 with two slots of 16 bytes, and the quad at its base was written to another address. -/
def strayState : State where
  glb := { dev := .running }
  regs := [(memReg 0x8, 0xFFFFFF00), (memReg 0xC, 0x7FFFFFFF), (memReg 0x10, 0x21), (memReg 0x24, 0x100)]
  queues := [(0x6C000, { st := .active })]
  quads := [(quadKey 0 ((2 ^ 63 - 256) / 16), { adx := 1 })]
  macs := [(0, { rx := [strayFrame] })]

/-- What the statement asks of a frame with room in its ring holds of the stray one. -/
theorem strayFrame_mayEnter : ingestOk strayState strayFrame.q = true ∧ strayFrame.recs.length ≤ ringRoom strayState strayFrame.q ∧
    frameAhead strayState strayFrame = false ∧
    ringBase strayState strayFrame.q + ringSlots strayState strayFrame.q * recStride strayState strayFrame.q < 2 ^ 63 := by decide +kernel

/-- Its second record is written to the host, which is closed. -/
theorem strayFrame_waits : (ringAdmitRun strayState 0).hostWait = true := by decide +kernel

/-- A command that waits for the host leaves the ports as they are. -/
theorem mac_of_wait {s u t : State} (hwait : u.hostWait = true) (ht : done s u = .next t) (m : Nat) : mac t m = mac s m := by
  have hleft : t = finish s (settle s u) := (Host.Outcome.next.inj ht).symm
  rw [settle_of_wait s u hwait, finish_frame] at hleft
  rw [hleft]
  rfl

/-- Refutes O28: a frame whose ring has room for all its records stays in the buffer, where its first record's write moves the ring (its queue number is none
of the 16384 queues). -/
theorem not_ethernetRows : ¬ Obligations.EthernetRows := by
  unfold Obligations.EthernetRows
  intro h
  obtain ⟨-, -, hadmit, -⟩ := h strayState 0 rfl (by decide)
  obtain ⟨hingest, hroom, hahead, hring⟩ := strayFrame_mayEnter
  obtain ⟨t, hexec, hrx, -⟩ := (hadmit strayFrame [] rfl rfl).2.1 hingest hroom hahead hring
  have hstays : (mac t 0).rx = [strayFrame] := congrArg Mac.rx (mac_of_wait strayFrame_waits hexec 0)
  exact List.cons_ne_nil strayFrame [] (hstays.symm.trans hrx)

end Sys2Proof.Machine
end
